-- ==== Sys2Proof/Word.lean ====
section
/-! DEFINITION. The words, masks and unit names of the T8 (R3, R13, R26, R34): types and their plainest arithmetic. -/

namespace Sys2Proof

/-- One byte of memory (R2). -/
abbrev Byte := BitVec 8
/-- A 16-bit quantity: a half lane, an ASID, a check code (R112). -/
abbrev W16 := BitVec 16
/-- A 32-bit word: a scalar instruction word, the value of one lane of a vector register (R63, R177). -/
abbrev W32 := BitVec 32
/-- A 64-bit scalar register, virtual address or time stamp (R137, R259, R397). -/
abbrev Word := BitVec 64
/-- A mask of the 96 lanes of a group, lane L at bit L (R38, R433). -/
abbrev Mask := BitVec 96
/-- An accumulator element, F96 or I96 (R101). -/
abbrev Acc96 := BitVec 96

/-- A slice index (R13). -/
abbrev SliceId := Fin 8
/-- A core's index in its slice (R34). -/
abbrev CoreIx := Fin 144
/-- A cluster of a slice (R34). -/
abbrev ClusterId := Fin 6
/-- A group slot of a core (R44). -/
abbrev SlotId := Fin 32
/-- A partition number (R390). -/
abbrev PartId := Fin 8
/-- A queue index of a slice's queue directory (R333). -/
abbrev QIdx := Fin 4096
/-- A hardware queue slot of a slice (R333). -/
abbrev HwSlot := Fin 256
/-- A link port of a slice by its number of R355. -/
abbrev PortId := Fin 86
/-- A crossbar channel of a slice: 0 to 63 home channels, 64 to 69 reply channels (R373). -/
abbrev ChanId := Fin 70

/-- One core of the module, by slice and index in the slice. -/
structure CoreRef where
  slice : SliceId
  core  : CoreIx
  deriving DecidableEq, Repr

/-- One group slot of the module. -/
structure GroupRef where
  slice : SliceId
  core  : CoreIx
  slot  : SlotId
  deriving DecidableEq, Repr

/-- The core that a group slot stands in. -/
def GroupRef.at (g : GroupRef) : CoreRef := ⟨g.slice, g.core⟩

/-- The cluster of a core (R34): its index in the slice is cluster × 24 + its index in the cluster. -/
def CoreRef.cluster (c : CoreRef) : Nat := c.core.val / 24

/-- The core's index in its cluster (R34). -/
def CoreRef.inCluster (c : CoreRef) : Nat := c.core.val % 24

/-- The word holding the truth of a condition as 1 or 0. -/
def boolWord (b : Bool) : Word := if b then 1 else 0

/-- Bits [hi:lo] of a word read as an unsigned number (R3, R11). -/
def bitsOf {w : Nat} (x : BitVec w) (hi lo : Nat) : Nat := (x.toNat >>> lo) % 2 ^ (hi + 1 - lo)

end Sys2Proof
end

