-- ==== Sys2Proof/Syntax.lean ====
section
/-! DEFINITION. The whole syntax: one constructor of `Instr` per row of the table of operations and events. Rows 1 to 113 are
the scalar words of R67 to R72, rows 114 to 174 the lane instructions of R74 and R84, and the remaining rows are the events of
the part, which no word encodes: an event's arguments name the unit it happens to and what arrives from outside. -/

namespace Sys2Proof

/-- The prefix word of a lane instruction (R81). `low` is bits [12:0], which must be zero. -/
structure Prefix where
  pred : BitVec 3
  zero : Bool
  rnd  : BitVec 3
  d    : BitVec 8
  low  : BitVec 13
  deriving DecidableEq, Repr

/-- The fields of a 96-bit lane instruction other than its opcode (R74), with its prefix when it has one. `mbz` is bits
[40:32], which must be zero. -/
structure LaneWord where
  pre   : Option Prefix
  typ   : BitVec 4
  nwb   : Bool
  dst   : BitVec 8
  sa    : BitVec 8
  sb    : BitVec 8
  sc    : BitVec 8
  modf  : BitVec 4
  cap   : Bool
  latch : BitVec 3
  mbz   : BitVec 9
  imm   : BitVec 32
  deriving DecidableEq, Repr

/-- Which sequencer fetches an instruction stream: a group's scalar stream, one split of its lane stream, or a puppet slot
(R58). -/
inductive Fetcher where
  | scalar (g : GroupRef)
  | lane (g : GroupRef) (split : Fin 4)
  | puppet (c : CoreRef)
  deriving DecidableEq, Repr

/-- What a host core or an upstream function does to a location (R313, R455). -/
inductive ExtAccess where
  | load  (size : Nat)
  | store (size : Nat) (value : Word)
  deriving DecidableEq, Repr

/-- A 32-bit flit header with its 32 payload bytes (R356). -/
structure Flit where
  hdr     : BitVec 32
  payload : List Byte
  deriving DecidableEq, Repr

/-- The 64-byte frame of a PRC message, as sixteen 32-bit words (R443). -/
structure Frame where
  words : List W32
  deriving DecidableEq, Repr

/-- The sender of a PRC message: the kernel or an agent of a partition, or the management interface (R444). -/
inductive Sender where
  | kernel (p : PartId)
  | management
  deriving DecidableEq, Repr

/-- Every operation and event of the table. -/
inductive Instr where
  -- R148: the ALU set of major 0x01
  | add (d a b : BitVec 6)
  | sub (d a b : BitVec 6)
  | and (d a b : BitVec 6)
  | or (d a b : BitVec 6)
  | xor (d a b : BitVec 6)
  | shl (d a b : BitVec 6)
  | shr (d a b : BitVec 6)
  | sra (d a b : BitVec 6)
  | mul (d a b : BitVec 6)
  | mulh (d a b : BitVec 6)
  | mulhn (d a b : BitVec 6)
  | div (d a b : BitVec 6)
  | divn (d a b : BitVec 6)
  | rem (d a b : BitVec 6)
  | remn (d a b : BitVec 6)
  | min (d a b : BitVec 6)
  | max (d a b : BitVec 6)
  | minn (d a b : BitVec 6)
  | maxn (d a b : BitVec 6)
  | slt (d a b : BitVec 6)
  | sltn (d a b : BitVec 6)
  | seq (d a b : BitVec 6)
  | clz (d a : BitVec 6)
  | ctz (d a : BitVec 6)
  | popc (d a : BitVec 6)
  | sel (d a b : BitVec 6)
  -- R149, R150: immediate forms and scaled add
  | addi (d a : BitVec 6) (i : BitVec 14)
  | andi (d a : BitVec 6) (i : BitVec 14)
  | ori (d a : BitVec 6) (i : BitVec 14)
  | xori (d a : BitVec 6) (i : BitVec 14)
  | shli (d a : BitVec 6) (sh : BitVec 6)
  | shri (d a : BitVec 6) (sh : BitVec 6)
  | srai (d a : BitVec 6) (sh : BitVec 6)
  | slti (d a : BitVec 6) (i : BitVec 14)
  | ldi (d : BitVec 6) (i : BitVec 20)
  | ldu (d : BitVec 6) (i : BitVec 20)
  | adda (d a b : BitVec 6) (k : BitVec 3)
  -- R151 to R153: branches and calls
  | beq (a b : BitVec 6) (off : BitVec 14)
  | bne (a b : BitVec 6) (off : BitVec 14)
  | blt (a b : BitVec 6) (off : BitVec 14)
  | bge (a b : BitVec 6) (off : BitVec 14)
  | bltn (a b : BitVec 6) (off : BitVec 14)
  | bgen (a b : BitVec 6) (off : BitVec 14)
  | br (off : BitVec 26)
  | call (off : BitVec 26)
  | jr (a : BitVec 6)
  | callr (a : BitVec 6)
  | ret
  -- R276, R277, R306, R282: scalar memory
  | lds (d a : BitVec 6) (wid : BitVec 3) (off : BitVec 11)
  | sts (d a : BitVec 6) (wid : BitVec 3) (off : BitVec 11)
  | amos (d a b : BitVec 6) (op : BitVec 3) (order : BitVec 2) (scope : BitVec 3)
  | fence (order : BitVec 2) (scope : BitVec 3)
  | mwatch (d a : BitVec 6)
  | mwaitv (d a b : BitVec 6)
  -- R155 to R158: the lane queue
  | lrun (a : BitVec 6) (i : BitVec 14)
  | lput (n : BitVec 7) (a : BitVec 6)
  | lputW (n : BitVec 7) (a : BitVec 6)
  | lget (d : BitVec 6) (n : BitVec 7) (b : BitVec 6)
  | lgetW (d : BitVec 6) (n : BitVec 7) (b : BitVec 6)
  | lsync
  -- R285, R244 to R258: copies and the matrix engines
  | tcopy (d a b : BitVec 6) (scope n : BitVec 3)
  | mloop (c a b : BitVec 6) (bsrc asrc : Bool) (k : BitVec 3) (n : BitVec 2)
  | mvec (c a : BitVec 6) (b : BitVec 3) (v : BitVec 3) (k : BitVec 3) (n : BitVec 2)
  | mzero (g : BitVec 3)
  | mzeroRel (kind : Bool) (g : BitVec 3)
  | mload (m : BitVec 6) (kind : Bool) (n : BitVec 3)
  | mdrain (m o : BitVec 6) (k : BitVec 3) (n : BitVec 2)
  | mcvt (d : BitVec 3) (acc : Bool) (src : BitVec 3) (o : BitVec 6) (k : BitVec 3)
  | mstat (d : BitVec 6) (kind : Bool) (g : BitVec 3)
  | mstatClr (d : BitVec 6) (g : BitVec 3)
  | mfence (d : BitVec 6)
  | mwaitImm (n : BitVec 4)
  | mwaitReg (a : BitVec 6)
  | mready (a : BitVec 6)
  -- R161 to R163: barriers, trigger, exit, yield
  | bar (a : BitVec 6) (id : BitVec 4)
  | barNb (a : BitVec 6) (id : BitVec 4)
  | trigger
  | exit
  | yield
  -- R321, R322, R328: hardware queues
  | qcfg (d a : BitVec 6)
  | qmap (d a : BitVec 6)
  | qlen (d : BitVec 6) (q : BitVec 4)
  | qpeek (d : BitVec 6) (q : BitVec 4)
  | qpeekPop (d : BitVec 6) (q : BitVec 4)
  | qpeekPush (a : BitVec 6) (q : BitVec 4)
  | qflush (d : BitVec 6) (q : BitVec 4)
  -- R159, R160, R164 to R166
  | vgrow (d a : BitVec 6)
  | vgrowW (d a : BitVec 6)
  | vshrink (d a : BitVec 6)
  | pref (a : BitVec 6) (kind : BitVec 2) (off : BitVec 12)
  | sysrd (d : BitVec 6) (num : BitVec 13)
  | syswr (a : BitVec 6) (num : BitVec 13)
  | trap (code : BitVec 12)
  | brk (code : BitVec 12)
  | sigrst
  -- R223, R291, R293
  | xpair (d a b : BitVec 6)
  | tstore (d a b : BitVec 6) (scope : BitVec 3)
  | storq (d a : BitVec 6) (scope : BitVec 3)
  -- R170 to R176: the puppet slot
  | tkclaimCount (d a b : BitVec 6)
  | tkclaimAcq (d a b : BitVec 6)
  | tkclaimRel (d a b : BitVec 6)
  | gplace (d a b : BitVec 6)
  | gplaceRel (d a b : BitVec 6)
  | qslotMap (d a b : BitVec 6)
  | qslotUnmap (d a b : BitVec 6)
  | qslotStat (d a b : BitVec 6)
  | rcbld (d a : BitVec 6)
  | rcbldBw (d a : BitVec 6)
  | evwait (d : BitVec 6)
  | evwaitPoll (d : BitVec 6)
  | iret
  | opreq (d a : BitVec 6)
  | prcmsg (d a : BitVec 6)
  -- R70, R85: a scalar word, or a lane word (bits [95:64]), that names no instruction
  | unassignedInstruction (w : W32)
  -- R191 to R194: lane integer instructions
  | iadd (w : LaneWord)
  | isub (w : LaneWord)
  | imul (w : LaneWord)
  | imad (w : LaneWord)
  | imulh (w : LaneWord)
  | iabs (w : LaneWord)
  | ineg (w : LaneWord)
  | imin (w : LaneWord)
  | imax (w : LaneWord)
  | iand (w : LaneWord)
  | ior (w : LaneWord)
  | ixor (w : LaneWord)
  | inot (w : LaneWord)
  | ishl (w : LaneWord)
  | ishr (w : LaneWord)
  | isra (w : LaneWord)
  | ibfe (w : LaneWord)
  | ibfi (w : LaneWord)
  | ipopc (w : LaneWord)
  | iclz (w : LaneWord)
  | isel (w : LaneWord)
  | imov (w : LaneWord)
  | icmp (cc : Fin 6) (w : LaneWord)
  -- R205 to R219: lane floating-point and conversion
  | fadd (w : LaneWord)
  | fsub (w : LaneWord)
  | fmul (w : LaneWord)
  | ffma (w : LaneWord)
  | fmin (w : LaneWord)
  | fmax (w : LaneWord)
  | fabs (w : LaneWord)
  | fneg (w : LaneWord)
  | fsel (w : LaneWord)
  | fclass (w : LaneWord)
  | fcmp (cc : Fin 8) (w : LaneWord)
  | cvt (w : LaneWord)
  | rqnt (w : LaneWord)
  | fseed (fn : Fin 4) (w : LaneWord)
  | frange (w : LaneWord)
  | fscale (w : LaneWord)
  | fexpo (w : LaneWord)
  | fmant (w : LaneWord)
  -- R220 to R224: cross-lane and exchange
  | lperm (w : LaneWord)
  | lrot (w : LaneWord)
  | lbcast (w : LaneWord)
  | lred (op : Fin 6) (w : LaneWord)
  | lscan (op : Fin 6) (w : LaneWord)
  | xswap (w : LaneWord)
  -- R278 to R283: lane memory
  | ld (lvl : Fin 6) (w : LaneWord)
  | st (lvl : Fin 6) (w : LaneWord)
  | ldg (lvl : Fin 6) (w : LaneWord)
  | stsc (lvl : Fin 6) (w : LaneWord)
  | amo (op : BitVec 3) (order : BitVec 2) (w : LaneWord)
  | lwatch (w : LaneWord)
  | lwatchW (w : LaneWord)
  -- R196 to R204: lane control
  | lbr (w : LaneWord)
  | lbrc (w : LaneWord)
  | ljoin (w : LaneWord)
  | lend (w : LaneWord)
  | spawn (w : LaneWord)
  | lvote (k : Fin 3) (w : LaneWord)
  | lsig (w : LaneWord)
  -- R39, R43, R154 to R157, R198: the lane stream
  | laneBlockStart (g : GroupRef)
  | lputEntryTaken (g : GroupRef)
  | lgetEntryTaken (g : GroupRef)
  | sigrstEntryTaken (g : GroupRef)
  | splitStarvationDemote (g : GroupRef)
  | joinTimeout (g : GroupRef) (rec : Fin 4)
  -- R44 to R49: the active set
  | groupAdmit (c : CoreRef)
  | admissionAgeing (g : GroupRef)
  | remoteLoadBlock (g : GroupRef)
  | leaveActiveSet (g : GroupRef)
  | groupWake (g : GroupRef)
  | remoteLoadReply (f : Fetcher) (k : Nat)
  | fetchMiss (f : Fetcher)
  | fetchFill (f : Fetcher)
  | exitComplete (g : GroupRef)
  -- R32, R51, R52, R159, R348: placement and allotment
  | spawnTimerExpiry (c : CoreRef) (bin : Fin 16)
  | spawnLaunch (c : CoreRef) (bin : Fin 16)
  | workgroupPlace (c : CoreRef) (grid : Word)
  | nbhCoreStartOnRoom (c : CoreRef)
  | vgrowGrant (g : GroupRef)
  | vgrowTimeout (g : GroupRef)
  -- R237 to R256: the matrix pipes
  | mloopStep (c : CoreRef)
  | mvecStep (c : CoreRef)
  | mzeroComplete (c : CoreRef)
  | mloadComplete (c : CoreRef)
  | mdrainComplete (c : CoreRef)
  | mcvtComplete (c : CoreRef)
  -- R289 to R297: copies, stores and storage chains
  | tcopyComplete (op : Nat)
  | tstoreComplete (op : Nat)
  | storageChainStart (op : Nat)
  | storageChainComplete (op : Nat)
  -- R223, R224, R282, R283: exchange and monitors
  | xpairTimeout (slice : SliceId) (id : Nat)
  | xswapArrival (g : GroupRef) (split : Fin 4)
  | monitorWake (g : Fetcher)
  | watchReread (g : Fetcher)
  | mwaitvDeadline (f : Fetcher)
  | lwatchDeadline (g : GroupRef) (split : Fin 4)
  -- R271, R272, R275, R309, R313, R386, R387: memory system
  | bogRetry (slice : SliceId) (ctl : Fin 2) (entry : BitVec 10)
  | bogFatal (slice : SliceId) (ctl : Fin 2) (entry : BitVec 10)
  | bogRetryPage (slice : SliceId) (ctl : Fin 2) (entry : BitVec 10)
  | memorySideFault (f : Fetcher) (code : BitVec 8) (addr : Word) (detail : BitVec 8)
  | l1LeaseExpiry (c : CoreRef) (line : Nat)
  | hostAccess (slice : SliceId) (hart : Fin 16) (pa : BitVec 48) (acc : ExtAccess)
  | wcinvWrite (slice : SliceId) (value : Word)
  | l2flushWrite (slice : SliceId) (value : Word)
  | mrbaseWrite (slice : SliceId) (value : Word)
  | mrrdWrite (slice : SliceId) (value : Word)
  -- R337 to R353: command queues
  | doorbellKick (slice : SliceId) (q : QIdx) (offset : Nat) (size : Nat) (value : Word)
  | queueMapDecision (slice : SliceId)
  | launch (slice : SliceId) (slot : HwSlot)
  | signal (slice : SliceId) (slot : HwSlot)
  | wait (slice : SliceId) (slot : HwSlot)
  | barrierAnd (slice : SliceId) (slot : HwSlot)
  | storage (slice : SliceId) (slot : HwSlot)
  | marker (slice : SliceId) (slot : HwSlot)
  | nop (slice : SliceId) (slot : HwSlot)
  | waitSatisfied (slice : SliceId) (q : QIdx)
  | launchHoldEnd (slice : SliceId) (slot : HwSlot)
  | queueStoppedUnmap (slice : SliceId) (slot : HwSlot)
  | queueWatchdogExpiry (slice : SliceId) (q : QIdx) (pidx : Word)
  | launchExpiryReset (slice : SliceId) (q : QIdx) (pidx : Word)
  | storageExpiryCancel (slice : SliceId) (q : QIdx) (pidx : Word)
  -- R18, R462: operating points and agents
  | opChangeComplete (slice : SliceId)
  | powerCapLower
  | agentRestart (c : CoreRef)
  -- R356 to R372: links and the crossbar
  | dataFlitReceive (slice : SliceId) (port : PortId) (f : Flit)
  | abortRecord (slice : SliceId) (words : List W32)
  | ack (slice : SliceId) (port : PortId) (f : Flit)
  | nak (slice : SliceId) (port : PortId) (f : Flit)
  | pause (slice : SliceId) (port : PortId) (f : Flit)
  | resume (slice : SliceId) (port : PortId) (f : Flit)
  | train (slice : SliceId) (port : PortId) (f : Flit)
  | pauseRepeat (slice : SliceId) (port : PortId) (cls : Fin 3)
  | linkLockObtained (slice : SliceId) (port : PortId)
  | linkLockLost (slice : SliceId) (port : PortId)
  | linkTrainTimeout (slice : SliceId) (port : PortId)
  | lnkcfgWrite (slice : SliceId) (port : PortId) (value : Word)
  | marblePass (slice : SliceId) (chan : ChanId)
  | channelIdlePark (slice : SliceId) (chan : ChanId)
  | parknow (slice : SliceId) (chan : ChanId)
  | chcfgWrite (slice : SliceId) (chan : ChanId) (value : Word)
  | channelWake (slice : SliceId) (chan : ChanId)
  | wavelengthLocked (slice : SliceId) (chan : ChanId) (lam : Fin 8)
  | channelWakeTimeout (slice : SliceId) (chan : ChanId)
  | phmapApply (slice : SliceId) (cluster : ClusterId) (value : Word)
  | reassignEnd (slice : SliceId) (cluster : ClusterId) (locked : BitVec 16)
  | ringLockLost (slice : SliceId) (ring : Fin 96) (mon : BitVec 10)
  -- R405 to R418: counters and the fault injector
  | hbmCreditRefill (slice : SliceId) (ctl : Fin 2)
  | seepLeak (slice : SliceId) (kind : Fin 3)
  | seepcfgWrite (slice : SliceId) (kind : Fin 3) (value : Word)
  | fijctlWrite (slice : SliceId) (value : Word)
  | pmcWrite (c : CoreRef) (n : Fin 8) (value : Word)
  | registerReadClear (c : CoreRef) (num : BitVec 13)
  | registerWrite (c : CoreRef) (num : BitVec 13) (value : Word)
  -- R422 to R441: halts, commands on fault domains, pre-emption
  | haltStopRecords (part : PartId) (dom : Word)
  | fdHalt (slice : SliceId) (cmd : Word)
  | fdReset (slice : SliceId) (cmd : Word)
  | fdAttach (slice : SliceId) (cmd : Word)
  | fdDetach (slice : SliceId) (cmd : Word)
  | fdStop (slice : SliceId) (cmd : Word)
  | fdResume (slice : SliceId) (cmd : Word)
  | fdSstep (slice : SliceId) (cmd : Word)
  | fdLstep (slice : SliceId) (cmd : Word)
  | fdDump (slice : SliceId) (cmd : Word)
  | fdLoad (slice : SliceId) (cmd : Word)
  | stepEnd (g : GroupRef)
  | preemptBlocking (c : CoreRef) (cmd : Word)
  | preemptForced (c : CoreRef) (cmd : Word)
  | preemptCancel (c : CoreRef)
  | preemptGraceExpiry (c : CoreRef)
  | preemptSave (c : CoreRef)
  | restcmd (c : CoreRef) (cmd : Word)
  -- R443 to R465: PRC messages
  | hostMailboxSend (part : PartId)
  | feat (by' : Sender) (m : Frame)
  | artload (by' : Sender) (m : Frame)
  | dyke (by' : Sender) (m : Frame)
  | route (by' : Sender) (m : Frame)
  | lease (by' : Sender) (m : Frame)
  | usnap (by' : Sender) (m : Frame)
  | keyload (by' : Sender) (m : Frame)
  | fwoffer (by' : Sender) (m : Frame)
  | fwchk (by' : Sender) (m : Frame) (c : CoreRef)
  | fwSwitchTimeout (part : PartId)
  | attest (by' : Sender) (m : Frame)
  | cert (by' : Sender) (m : Frame)
  | moveack (by' : Sender) (m : Frame)
  | epcfg (by' : Sender) (m : Frame)
  | fuse (by' : Sender) (m : Frame)
  | bootFetchCompletion (part : PartId) (words : List W32)
  | bootFetchTimeout (part : PartId)
  | unfuse (by' : Sender) (m : Frame)
  | move (by' : Sender) (m : Frame)
  | moveAbandon (by' : Sender) (m : Frame)
  | resetp (by' : Sender) (m : Frame)
  | ownerkey (by' : Sender) (m : Frame)
  -- R455 to R458, R466, R397: upstream endpoints and resets
  | epDoorbell (slice : SliceId) (port : Fin 2) (value : Word)
  | epmsiWrite (slice : SliceId) (port : Fin 2) (value : Word)
  | epHotReset (slice : SliceId) (port : Fin 2)
  | sliceReset (slice : SliceId) (unlocked : BitVec 96)
  | modulePowerOnReset
  | storePerformedAtHome (f : Fetcher) (k : Nat)
  | writeCompleteAtScope (f : Fetcher)
  | flitSend (slice : SliceId) (port : PortId)
  | controlFlitUnknownCtype (slice : SliceId) (port : PortId) (f : Flit)
  | receiveBufferDrain (slice : SliceId) (port : PortId) (cls : Fin 3) (n : Nat)
  | epLinkUp (slice : SliceId) (port : Fin 2)
  | epInboundRequest (slice : SliceId) (port : Fin 2) (bar2 : Bool) (off : Nat) (acc : ExtAccess)
  | epConfigWrite (slice : SliceId) (port : Fin 2) (off : Nat) (value : W32)
  deriving DecidableEq, Repr

end Sys2Proof
end

