-- ==== Sys2Proof/Decode.lean ====
section
/-! DEFINITION. Reading instruction words, the checks that depend on the word alone, and the encoder. A scalar word is read by
R67 to R72, a lane instruction by R74 to R84. The decoder keeps code fields that hold a reserved value, so that a word with such
a field still decodes to its instruction; `encodingFault` is the check that then raises the fault the spec gives the word. -/

namespace Sys2Proof

/-- The faults that a word raises by its encoding alone (R73, R86). -/
inductive EncFault where
  | illegalInstruction | illegalEncoding | illegalPrefix | illegalType
  deriving DecidableEq, Repr

/-- What the decoder answers. -/
abbrev Decoded := Except EncFault Instr

/-! ### Fields of a scalar word (R67) -/

/-- The major, bits [31:26]. -/
def fMajor (w : W32) : Nat := (w.extractLsb' 26 6).toNat
/-- Field d, bits [25:20]. -/
def fD (w : W32) : BitVec 6 := w.extractLsb' 20 6
/-- Field a, bits [19:14]. -/
def fA (w : W32) : BitVec 6 := w.extractLsb' 14 6
/-- Field b, bits [13:8]. -/
def fB (w : W32) : BitVec 6 := w.extractLsb' 8 6
/-- Field fn, bits [7:0]. -/
def fFn (w : W32) : BitVec 8 := w.extractLsb' 0 8
/-- The selector fn[7:5]. -/
def fSel (w : W32) : Nat := (w.extractLsb' 5 3).toNat
/-- The selector imm14[13:12]. -/
def fSel2 (w : W32) : Nat := (w.extractLsb' 12 2).toNat
/-- The 14-bit immediate or offset, bits [13:0]. -/
def fImm14 (w : W32) : BitVec 14 := w.extractLsb' 0 14
/-- The 20-bit immediate, bits [19:0]. -/
def fImm20 (w : W32) : BitVec 20 := w.extractLsb' 0 20
/-- The 26-bit offset, bits [25:0]. -/
def fOff26 (w : W32) : BitVec 26 := w.extractLsb' 0 26
/-- The register number N of `lput` coded with N[5:0] in d, or in a, and N[6] in fn[4] (R156, R157). -/
def fN7 (w : W32) (lo : BitVec 6) : BitVec 7 := w.extractLsb' 4 1 ++ lo

/-- A word whose unused bits must equal those of `pattern` under `mask` (R69). -/
def need (w mask pattern : W32) (i : Instr) : Decoded :=
  if w &&& mask = pattern then .ok i else .error .illegalEncoding

/-- A word that names no instruction: an unassigned major or selector (R70, R71). -/
def unassigned (w : W32) : Decoded := .ok (.unassignedInstruction w)

/-- Major 0x01: the ALU set of R71. -/
def decodeAlu (w : W32) : Decoded :=
  let d := fD w; let a := fA w; let b := fB w
  match (fFn w).toNat with
  | 0x00 => .ok (.add d a b)
  | 0x01 => .ok (.sub d a b)
  | 0x02 => .ok (.and d a b)
  | 0x03 => .ok (.or d a b)
  | 0x04 => .ok (.xor d a b)
  | 0x05 => .ok (.shl d a b)
  | 0x06 => .ok (.shr d a b)
  | 0x07 => .ok (.sra d a b)
  | 0x08 => .ok (.mul d a b)
  | 0x09 => .ok (.mulh d a b)
  | 0x0a => .ok (.mulhn d a b)
  | 0x0b => .ok (.div d a b)
  | 0x0c => .ok (.divn d a b)
  | 0x0d => .ok (.rem d a b)
  | 0x0e => .ok (.remn d a b)
  | 0x0f => .ok (.min d a b)
  | 0x10 => .ok (.max d a b)
  | 0x11 => .ok (.minn d a b)
  | 0x12 => .ok (.maxn d a b)
  | 0x13 => .ok (.slt d a b)
  | 0x14 => .ok (.sltn d a b)
  | 0x15 => .ok (.seq d a b)
  | 0x16 => need w 0xFC003FFF 0x04000016 (.clz d a)
  | 0x17 => need w 0xFC003FFF 0x04000017 (.ctz d a)
  | 0x18 => need w 0xFC003FFF 0x04000018 (.popc d a)
  | 0x19 => .ok (.sel d a b)
  | _ => unassigned w

/-- Major 0x06: the immediate shifts (R70). -/
def decodeShiftImm (w : W32) : Decoded :=
  let d := fD w; let a := fA w
  match fSel2 w with
  | 0 => need w 0xFC003FC0 0x18000000 (.shli d a (w.extractLsb' 0 6))
  | 1 => need w 0xFC003FC0 0x18001000 (.shri d a (w.extractLsb' 0 6))
  | 2 => need w 0xFC003FC0 0x18002000 (.srai d a (w.extractLsb' 0 6))
  | _ => unassigned w

/-- Major 0x13: `jr`, `callr`, `ret` (R153). -/
def decodeJump (w : W32) : Decoded :=
  match fSel w with
  | 0 => need w 0xFFF03FFF 0x4C000000 (.jr (fA w))
  | 1 => need w 0xFFF03FFF 0x4C000020 (.callr (fA w))
  | 2 => need w 0xFFFFFFFF 0x4C000040 (.ret)
  | _ => unassigned w

/-- Major 0x18: the scalar monitors (R282). -/
def decodeMonitor (w : W32) : Decoded :=
  let d := fD w; let a := fA w; let b := fB w
  match fSel w with
  | 0 => need w 0xFC003FFF 0x60000000 (.mwatch d a)
  | 1 => need w 0xFC0000FF 0x60000020 (.mwaitv d a b)
  | _ => unassigned w

/-- Major 0x1A: `lput`, `lget`, `lsync` (R156 to R158). fn[3] is W. -/
def decodeLaneMove (w : W32) : Decoded :=
  let d := fD w; let a := fA w; let b := fB w
  match fSel w with
  | 0 => if w.getLsbD 3 then need w 0xFC003FEF 0x68000008 (.lputW (fN7 w d) a) else need w 0xFC003FEF 0x68000000 (.lput (fN7 w d) a)
  | 1 => if w.getLsbD 3 then need w 0xFC0000EF 0x68000028 (.lgetW d (fN7 w a) b) else need w 0xFC0000EF 0x68000020 (.lget d (fN7 w a) b)
  | 2 => need w 0xFFFFFFFF 0x68000040 .lsync
  | _ => unassigned w

/-- Major 0x1E: the matrix operations other than steps (R249 to R255). -/
def decodeMatrix (w : W32) : Decoded :=
  let g : BitVec 3 := w.extractLsb' 0 3
  let k : BitVec 3 := w.extractLsb' 2 3
  match fSel w with
  | 0 => if w.getLsbD 4 then need w 0xFFFFFFF0 0x78000010 (.mzeroRel (w.getLsbD 3) g) else need w 0xFFFFFFF8 0x78000000 (.mzero g)
  | 1 => need w 0xFFF03FF0 0x78000020 (.mload (fA w) (w.getLsbD 3) g)
  | 2 => need w 0xFFF000E0 0x78000040 (.mdrain (fA w) (fB w) k (w.extractLsb' 0 2))
  | 3 => need w 0xFF8600E3 0x78000060 (.mcvt (w.extractLsb' 20 3) (w.getLsbD 19) (w.extractLsb' 14 3) (fB w) k)
  | 4 => if w.getLsbD 4 then need w 0xFC0FFFF8 0x78000090 (.mstatClr (fD w) g) else need w 0xFC0FFFF0 0x78000080 (.mstat (fD w) (w.getLsbD 3) g)
  | _ => unassigned w

/-- Major 0x1F: batches (R256 to R258). -/
def decodeBatch (w : W32) : Decoded :=
  match fSel w with
  | 0 => need w 0xFC0FFFFF 0x7C000000 (.mfence (fD w))
  | 1 => if w.getLsbD 4 then need w 0xFFF03FFF 0x7C000030 (.mwaitReg (fA w)) else need w 0xFFFFFFF0 0x7C000020 (.mwaitImm (w.extractLsb' 0 4))
  | 2 => need w 0xFFF03FFF 0x7C000040 (.mready (fA w))
  | _ => unassigned w

/-- Major 0x22: hardware queues (R321, R322, R328). For `qpeek`, b names the form. -/
def decodeQueue (w : W32) : Decoded :=
  let d := fD w; let a := fA w; let q : BitVec 4 := w.extractLsb' 0 4
  match fSel w with
  | 0 => need w 0xFC003FFF 0x88000000 (.qcfg d a)
  | 1 => need w 0xFC003FFF 0x88000020 (.qmap d a)
  | 2 => need w 0xFC0FFFF0 0x88000040 (.qlen d q)
  | 3 =>
    match (fB w).toNat with
    | 0 => need w 0xFC0FFFF0 0x88000060 (.qpeek d q)
    | 1 => need w 0xFC0FFFF0 0x88000160 (.qpeekPop d q)
    | 2 => need w 0xFFF03FF0 0x88000260 (.qpeekPush a q)
    | _ => .error .illegalEncoding
  | 4 => need w 0xFC0FFFF0 0x88000080 (.qflush d q)
  | _ => unassigned w

/-- Major 0x21: `trigger`, `exit`, `yield` (R163). -/
def decodeGroup (w : W32) : Decoded :=
  match fSel w with
  | 0 => need w 0xFFFFFFFF 0x84000000 (.trigger)
  | 1 => need w 0xFFFFFFFF 0x84000020 (.exit)
  | 2 => need w 0xFFFFFFFF 0x84000040 (.yield)
  | _ => unassigned w

/-- Major 0x23: the allotment (R159, R160). -/
def decodeAllot (w : W32) : Decoded :=
  let d := fD w; let a := fA w
  match fSel w with
  | 0 => if w.getLsbD 0 then need w 0xFC003FFF 0x8C000001 (.vgrowW d a) else need w 0xFC003FFF 0x8C000000 (.vgrow d a)
  | 1 => need w 0xFC003FFF 0x8C000020 (.vshrink d a)
  | _ => unassigned w

/-- Major 0x26: `trap`, `brk`, `sigrst` (R166). -/
def decodeTrap (w : W32) : Decoded :=
  match fSel2 w with
  | 0 => need w 0xFFFFF000 0x98000000 (.trap (w.extractLsb' 0 12))
  | 1 => need w 0xFFFFF000 0x98001000 (.brk (w.extractLsb' 0 12))
  | 2 => need w 0xFFFFFFFF 0x98002000 (.sigrst)
  | _ => unassigned w

/-- Majors 0x30 to 0x37: the instructions of the puppet slot (R170). A mode beyond those described is a reserved code. -/
def decodePuppet (w : W32) : Decoded :=
  let d := fD w; let a := fA w; let b := fB w
  match fMajor w, (fFn w).toNat with
  | 0x30, 0 => .ok (.tkclaimCount d a b)
  | 0x30, 1 => .ok (.tkclaimAcq d a b)
  | 0x30, 2 => .ok (.tkclaimRel d a b)
  | 0x31, 0 => .ok (.gplace d a b)
  | 0x31, 1 => .ok (.gplaceRel d a b)
  | 0x32, 0 => .ok (.qslotMap d a b)
  | 0x32, 1 => .ok (.qslotUnmap d a b)
  | 0x32, 2 => .ok (.qslotStat d a b)
  | 0x33, 0 => need w 0xFC003FFF 0xCC000000 (.rcbld d a)
  | 0x33, 1 => need w 0xFC003FFF 0xCC000001 (.rcbldBw d a)
  | 0x34, 0 => need w 0xFC0FFFFF 0xD0000000 (.evwait d)
  | 0x34, 1 => need w 0xFC0FFFFF 0xD0000001 (.evwaitPoll d)
  | 0x35, 0 => need w 0xFFFFFFFF 0xD4000000 .iret
  | 0x36, 0 => need w 0xFC003FFF 0xD8000000 (.opreq d a)
  | 0x37, 0 => need w 0xFC003FFF 0xDC000000 (.prcmsg d a)
  | _, _ => .error .illegalEncoding

/-- Reads a scalar word by the major map (R70). -/
def decodeScalar (w : W32) : Decoded :=
  let d := fD w; let a := fA w; let b := fB w
  match fMajor w with
  | 0x01 => decodeAlu w
  | 0x02 => .ok (.addi d a (fImm14 w))
  | 0x03 => .ok (.andi d a (fImm14 w))
  | 0x04 => .ok (.ori d a (fImm14 w))
  | 0x05 => .ok (.xori d a (fImm14 w))
  | 0x06 => decodeShiftImm w
  | 0x07 => .ok (.slti d a (fImm14 w))
  | 0x08 => .ok (.ldi d (fImm20 w))
  | 0x09 => .ok (.ldu d (fImm20 w))
  | 0x0A => need w 0xFC0000F8 0x28000000 (.adda d a b (w.extractLsb' 0 3))
  | 0x0B => .ok (.beq d a (fImm14 w))
  | 0x0C => .ok (.bne d a (fImm14 w))
  | 0x0D => .ok (.blt d a (fImm14 w))
  | 0x0E => .ok (.bge d a (fImm14 w))
  | 0x0F => .ok (.bltn d a (fImm14 w))
  | 0x10 => .ok (.bgen d a (fImm14 w))
  | 0x11 => .ok (.br (fOff26 w))
  | 0x12 => .ok (.call (fOff26 w))
  | 0x13 => decodeJump w
  | 0x14 => .ok (.lds d a (w.extractLsb' 11 3) (w.extractLsb' 0 11))
  | 0x15 => .ok (.sts d a (w.extractLsb' 11 3) (w.extractLsb' 0 11))
  | 0x16 => .ok (.amos d a b (w.extractLsb' 5 3) (w.extractLsb' 3 2) (w.extractLsb' 0 3))
  | 0x17 => need w 0xFFFFFFE0 0x5C000000 (.fence (w.extractLsb' 3 2) (w.extractLsb' 0 3))
  | 0x18 => decodeMonitor w
  | 0x19 => need w 0xFFF00000 0x64000000 (.lrun a (fImm14 w))
  | 0x1A => decodeLaneMove w
  | 0x1B => need w 0xFC0000C0 0x6C000000 (.tcopy d a b (w.extractLsb' 3 3) (w.extractLsb' 0 3))
  | 0x1C => need w 0xFC000080 0x70000000 (.mloop d a b (w.getLsbD 6) (w.getLsbD 5) (w.extractLsb' 2 3) (w.extractLsb' 0 2))
  | 0x1D => need w 0xFC003800 0x74000000 (.mvec d a (w.extractLsb' 8 3) (w.extractLsb' 5 3) (w.extractLsb' 2 3) (w.extractLsb' 0 2))
  | 0x1E => decodeMatrix w
  | 0x1F => decodeBatch w
  | 0x20 => if w.getLsbD 13 then need w 0xFFF03FF0 0x80002000 (.barNb a (w.extractLsb' 0 4)) else need w 0xFFF03FF0 0x80000000 (.bar a (w.extractLsb' 0 4))
  | 0x21 => decodeGroup w
  | 0x22 => decodeQueue w
  | 0x23 => decodeAllot w
  | 0x24 => need w 0xFFF00000 0x90000000 (.pref a (w.extractLsb' 12 2) (w.extractLsb' 0 12))
  | 0x25 => if w.getLsbD 13 then need w 0xFFF02000 0x94002000 (.syswr a (w.extractLsb' 0 13)) else need w 0xFC0FE000 0x94000000 (.sysrd d (w.extractLsb' 0 13))
  | 0x26 => decodeTrap w
  | 0x27 => need w 0xFC0000FF 0x9C000000 (.xpair d a b)
  | 0x28 => need w 0xFC0000F8 0xA0000000 (.tstore d a b (w.extractLsb' 0 3))
  | 0x29 => need w 0xFC003FF8 0xA4000000 (.storq d a (w.extractLsb' 0 3))
  | 0x30 => decodePuppet w
  | 0x31 => decodePuppet w
  | 0x32 => decodePuppet w
  | 0x33 => decodePuppet w
  | 0x34 => decodePuppet w
  | 0x35 => decodePuppet w
  | 0x36 => decodePuppet w
  | 0x37 => decodePuppet w
  | _ => unassigned w

/-- Majors 0x30 to 0x37, which only the puppet slot may issue (R73, R170). -/
def privilegedWord (w : W32) : Bool := decide (0x30 ≤ fMajor w) && decide (fMajor w ≤ 0x37)

/-! ### Lane instructions (R74, R81, R84) -/

/-- A word that stands at an instruction-start position and is a prefix (R65). -/
def isPrefixWord (w : W32) : Bool := w.extractLsb' 28 4 == 0xF#4

/-- The prefix word (R81). -/
def prefixOf (w : W32) : Prefix :=
  { pred := w.extractLsb' 25 3, zero := w.getLsbD 24, rnd := w.extractLsb' 21 3, d := w.extractLsb' 13 8,
    low := w.extractLsb' 0 13 }

/-- The fields of the 96 bits (R74). -/
def laneWordOf (pre : Option Prefix) (x : BitVec 96) : LaneWord :=
  { pre := pre, typ := x.extractLsb' 82 4, nwb := x.getLsbD 81, dst := x.extractLsb' 73 8, sa := x.extractLsb' 65 8,
    sb := x.extractLsb' 57 8, sc := x.extractLsb' 49 8, modf := x.extractLsb' 45 4, cap := x.getLsbD 44,
    latch := x.extractLsb' 41 3, mbz := x.extractLsb' 32 9, imm := x.extractLsb' 0 32 }

/-- The opcode, bits [95:86]. -/
def laneOpc (x : BitVec 96) : Nat := (x.extractLsb' 86 10).toNat

/-- Opcodes 0x001 to 0x280: arithmetic, conversion, cross-lane and exchange (R84). -/
def laneInstrA (opc : Nat) (w : LaneWord) : Option Instr :=
  match opc with
  | 0x001 => some (.iadd w)
  | 0x002 => some (.isub w)
  | 0x003 => some (.imul w)
  | 0x004 => some (.imad w)
  | 0x005 => some (.imulh w)
  | 0x006 => some (.iabs w)
  | 0x007 => some (.ineg w)
  | 0x008 => some (.imin w)
  | 0x009 => some (.imax w)
  | 0x00a => some (.iand w)
  | 0x00b => some (.ior w)
  | 0x00c => some (.ixor w)
  | 0x00d => some (.inot w)
  | 0x00e => some (.ishl w)
  | 0x00f => some (.ishr w)
  | 0x010 => some (.isra w)
  | 0x011 => some (.ibfe w)
  | 0x012 => some (.ibfi w)
  | 0x013 => some (.ipopc w)
  | 0x014 => some (.iclz w)
  | 0x015 => some (.isel w)
  | 0x016 => some (.imov w)
  | 0x020 => some (.icmp 0 w)
  | 0x021 => some (.icmp 1 w)
  | 0x022 => some (.icmp 2 w)
  | 0x023 => some (.icmp 3 w)
  | 0x024 => some (.icmp 4 w)
  | 0x025 => some (.icmp 5 w)
  | 0x100 => some (.fadd w)
  | 0x101 => some (.fsub w)
  | 0x102 => some (.fmul w)
  | 0x103 => some (.ffma w)
  | 0x104 => some (.fmin w)
  | 0x105 => some (.fmax w)
  | 0x106 => some (.fabs w)
  | 0x107 => some (.fneg w)
  | 0x108 => some (.fsel w)
  | 0x109 => some (.fclass w)
  | 0x110 => some (.fcmp 0 w)
  | 0x111 => some (.fcmp 1 w)
  | 0x112 => some (.fcmp 2 w)
  | 0x113 => some (.fcmp 3 w)
  | 0x114 => some (.fcmp 4 w)
  | 0x115 => some (.fcmp 5 w)
  | 0x116 => some (.fcmp 6 w)
  | 0x117 => some (.fcmp 7 w)
  | 0x1c0 => some (.cvt w)
  | 0x1c1 => some (.rqnt w)
  | 0x200 => some (.fseed 0 w)
  | 0x201 => some (.fseed 1 w)
  | 0x202 => some (.fseed 2 w)
  | 0x203 => some (.fseed 3 w)
  | 0x204 => some (.frange w)
  | 0x205 => some (.fscale w)
  | 0x206 => some (.fexpo w)
  | 0x207 => some (.fmant w)
  | 0x240 => some (.lperm w)
  | 0x241 => some (.lrot w)
  | 0x242 => some (.lbcast w)
  | 0x250 => some (.lred 0 w)
  | 0x251 => some (.lred 1 w)
  | 0x252 => some (.lred 2 w)
  | 0x253 => some (.lred 3 w)
  | 0x254 => some (.lred 4 w)
  | 0x255 => some (.lred 5 w)
  | 0x258 => some (.lscan 0 w)
  | 0x259 => some (.lscan 1 w)
  | 0x25a => some (.lscan 2 w)
  | 0x25b => some (.lscan 3 w)
  | 0x25c => some (.lscan 4 w)
  | 0x25d => some (.lscan 5 w)
  | 0x280 => some (.xswap w)
  | _ => none

/-- Opcodes 0x2C0 to 0x2FF: lane memory and atomics (R84). -/
def laneInstrB (opc : Nat) (w : LaneWord) : Option Instr :=
  match opc with
  | 0x2c0 => some (.ld 0 w)
  | 0x2c1 => some (.ld 1 w)
  | 0x2c2 => some (.ld 2 w)
  | 0x2c3 => some (.ld 3 w)
  | 0x2c4 => some (.ld 4 w)
  | 0x2c5 => some (.ld 5 w)
  | 0x2c8 => some (.st 0 w)
  | 0x2c9 => some (.st 1 w)
  | 0x2ca => some (.st 2 w)
  | 0x2cb => some (.st 3 w)
  | 0x2cc => some (.st 4 w)
  | 0x2cd => some (.st 5 w)
  | 0x2d0 => some (.ldg 0 w)
  | 0x2d1 => some (.ldg 1 w)
  | 0x2d2 => some (.ldg 2 w)
  | 0x2d3 => some (.ldg 3 w)
  | 0x2d4 => some (.ldg 4 w)
  | 0x2d5 => some (.ldg 5 w)
  | 0x2d8 => some (.stsc 0 w)
  | 0x2d9 => some (.stsc 1 w)
  | 0x2da => some (.stsc 2 w)
  | 0x2db => some (.stsc 3 w)
  | 0x2dc => some (.stsc 4 w)
  | 0x2dd => some (.stsc 5 w)
  | 0x2e0 => some (.amo 0 0 w)
  | 0x2e1 => some (.amo 0 1 w)
  | 0x2e2 => some (.amo 0 2 w)
  | 0x2e3 => some (.amo 0 3 w)
  | 0x2e4 => some (.amo 1 0 w)
  | 0x2e5 => some (.amo 1 1 w)
  | 0x2e6 => some (.amo 1 2 w)
  | 0x2e7 => some (.amo 1 3 w)
  | 0x2e8 => some (.amo 2 0 w)
  | 0x2e9 => some (.amo 2 1 w)
  | 0x2ea => some (.amo 2 2 w)
  | 0x2eb => some (.amo 2 3 w)
  | 0x2ec => some (.amo 3 0 w)
  | 0x2ed => some (.amo 3 1 w)
  | 0x2ee => some (.amo 3 2 w)
  | 0x2ef => some (.amo 3 3 w)
  | 0x2f0 => some (.amo 4 0 w)
  | 0x2f1 => some (.amo 4 1 w)
  | 0x2f2 => some (.amo 4 2 w)
  | 0x2f3 => some (.amo 4 3 w)
  | 0x2f4 => some (.amo 5 0 w)
  | 0x2f5 => some (.amo 5 1 w)
  | 0x2f6 => some (.amo 5 2 w)
  | 0x2f7 => some (.amo 5 3 w)
  | 0x2f8 => some (.amo 6 0 w)
  | 0x2f9 => some (.amo 6 1 w)
  | 0x2fa => some (.amo 6 2 w)
  | 0x2fb => some (.amo 6 3 w)
  | 0x2fc => some (.amo 7 0 w)
  | 0x2fd => some (.amo 7 1 w)
  | 0x2fe => some (.amo 7 2 w)
  | 0x2ff => some (.amo 7 3 w)
  | _ => none

/-- Opcodes 0x320 to 0x348: lane monitors and control (R84). -/
def laneInstrC (opc : Nat) (w : LaneWord) : Option Instr :=
  match opc with
  | 0x320 => some (.lwatch w)
  | 0x321 => some (.lwatchW w)
  | 0x340 => some (.lbr w)
  | 0x341 => some (.lbrc w)
  | 0x342 => some (.ljoin w)
  | 0x343 => some (.lend w)
  | 0x344 => some (.spawn w)
  | 0x345 => some (.lvote 0 w)
  | 0x346 => some (.lvote 1 w)
  | 0x347 => some (.lvote 2 w)
  | 0x348 => some (.lsig w)
  | _ => none

/-- The lane opcode map (R84, R85): an opcode with no row has no instruction. -/
def laneInstr (opc : Nat) (w : LaneWord) : Option Instr :=
  if opc < 0x2C0 then laneInstrA opc w else if opc < 0x320 then laneInstrB opc w else laneInstrC opc w

/-- Reads a lane instruction from its prefix word, if it has one, and its 96 bits (R86, steps 1 and 2). -/
def decodeLane (pre : Option W32) (x : BitVec 96) : Decoded :=
  if pre.isSome && isPrefixWord (x.extractLsb' 64 32) then .error .illegalPrefix
  else
    match laneInstr (laneOpc x) (laneWordOf (pre.map prefixOf) x) with
    | some i => .ok i
    | none => .ok (.unassignedInstruction (x.extractLsb' 64 32))

/-- The 96 bits whose words, at rising addresses, hold bits [95:64], [63:32] and [31:0] (R64). -/
def lane96 (w0 w1 w2 : W32) : BitVec 96 := w0 ++ w1 ++ w2

/-- Reads a lane instruction from the words at its position; `none` when the list is too short. -/
def decodeLaneWords : List W32 → Option Decoded
  | [] => none
  | w :: ws =>
    if isPrefixWord w then
      match ws with
      | w0 :: w1 :: w2 :: _ => some (decodeLane (some w) (lane96 w0 w1 w2))
      | _ => none
    else
      match ws with
      | w1 :: w2 :: _ => some (decodeLane none (lane96 w w1 w2))
      | _ => none

/-! ### The encoder -/

/-- Format SR (R67). -/
def encSR (maj d a b : BitVec 6) (fn : BitVec 8) : W32 := maj ++ d ++ a ++ b ++ fn
/-- Formats SI and SB (R67). -/
def encSI (maj d a : BitVec 6) (i : BitVec 14) : W32 := maj ++ d ++ a ++ i
/-- Format SU (R67). -/
def encSU (maj d : BitVec 6) (i : BitVec 20) : W32 := maj ++ d ++ i
/-- Format SJ (R67). -/
def encSJ (maj : BitVec 6) (o : BitVec 26) : W32 := maj ++ o
/-- One bit. -/
def bit1 (b : Bool) : BitVec 1 := BitVec.ofBool b

/-- The prefix word (R81). -/
def encPrefix (p : Prefix) : W32 := 0xF#4 ++ p.pred ++ bit1 p.zero ++ p.rnd ++ p.d ++ p.low

/-- The 96 bits of a lane instruction (R74). -/
def encLane96 (opc : BitVec 10) (w : LaneWord) : BitVec 96 :=
  opc ++ w.typ ++ bit1 w.nwb ++ w.dst ++ w.sa ++ w.sb ++ w.sc ++ w.modf ++ bit1 w.cap ++ w.latch ++ w.mbz ++ w.imm

/-- The words of a lane instruction at rising addresses (R64). -/
def encLane (opc : BitVec 10) (w : LaneWord) : List W32 :=
  let x := encLane96 opc w
  let body := [x.extractLsb' 64 32, x.extractLsb' 32 32, x.extractLsb' 0 32]
  match w.pre with
  | some p => encPrefix p :: body
  | none => body

/-- The opcode of a lane instruction (R84). -/
def laneOpcode : Instr → Option (BitVec 10 × LaneWord)
  | .iadd w => some (0x001, w)
  | .isub w => some (0x002, w)
  | .imul w => some (0x003, w)
  | .imad w => some (0x004, w)
  | .imulh w => some (0x005, w)
  | .iabs w => some (0x006, w)
  | .ineg w => some (0x007, w)
  | .imin w => some (0x008, w)
  | .imax w => some (0x009, w)
  | .iand w => some (0x00a, w)
  | .ior w => some (0x00b, w)
  | .ixor w => some (0x00c, w)
  | .inot w => some (0x00d, w)
  | .ishl w => some (0x00e, w)
  | .ishr w => some (0x00f, w)
  | .isra w => some (0x010, w)
  | .ibfe w => some (0x011, w)
  | .ibfi w => some (0x012, w)
  | .ipopc w => some (0x013, w)
  | .iclz w => some (0x014, w)
  | .isel w => some (0x015, w)
  | .imov w => some (0x016, w)
  | .fadd w => some (0x100, w)
  | .fsub w => some (0x101, w)
  | .fmul w => some (0x102, w)
  | .ffma w => some (0x103, w)
  | .fmin w => some (0x104, w)
  | .fmax w => some (0x105, w)
  | .fabs w => some (0x106, w)
  | .fneg w => some (0x107, w)
  | .fsel w => some (0x108, w)
  | .fclass w => some (0x109, w)
  | .cvt w => some (0x1c0, w)
  | .rqnt w => some (0x1c1, w)
  | .frange w => some (0x204, w)
  | .fscale w => some (0x205, w)
  | .fexpo w => some (0x206, w)
  | .fmant w => some (0x207, w)
  | .lperm w => some (0x240, w)
  | .lrot w => some (0x241, w)
  | .lbcast w => some (0x242, w)
  | .xswap w => some (0x280, w)
  | .lwatch w => some (0x320, w)
  | .lwatchW w => some (0x321, w)
  | .lbr w => some (0x340, w)
  | .lbrc w => some (0x341, w)
  | .ljoin w => some (0x342, w)
  | .lend w => some (0x343, w)
  | .spawn w => some (0x344, w)
  | .lsig w => some (0x348, w)
  | .icmp k w => some (BitVec.ofNat 10 (0x020 + k.val), w)
  | .fcmp k w => some (BitVec.ofNat 10 (0x110 + k.val), w)
  | .fseed k w => some (BitVec.ofNat 10 (0x200 + k.val), w)
  | .lred k w => some (BitVec.ofNat 10 (0x250 + k.val), w)
  | .lscan k w => some (BitVec.ofNat 10 (0x258 + k.val), w)
  | .ld k w => some (BitVec.ofNat 10 (0x2c0 + k.val), w)
  | .st k w => some (BitVec.ofNat 10 (0x2c8 + k.val), w)
  | .ldg k w => some (BitVec.ofNat 10 (0x2d0 + k.val), w)
  | .stsc k w => some (BitVec.ofNat 10 (0x2d8 + k.val), w)
  | .lvote k w => some (BitVec.ofNat 10 (0x345 + k.val), w)
  | .amo op o w => some (0x17#5 ++ op ++ o, w)
  | _ => none

/-- The word of a scalar instruction (R67 to R72); an unassigned word stands for itself. -/
def encodeScalar : Instr → Option W32
  | .add d a b => some (encSR 0x01 d a b 0x00)
  | .sub d a b => some (encSR 0x01 d a b 0x01)
  | .and d a b => some (encSR 0x01 d a b 0x02)
  | .or d a b => some (encSR 0x01 d a b 0x03)
  | .xor d a b => some (encSR 0x01 d a b 0x04)
  | .shl d a b => some (encSR 0x01 d a b 0x05)
  | .shr d a b => some (encSR 0x01 d a b 0x06)
  | .sra d a b => some (encSR 0x01 d a b 0x07)
  | .mul d a b => some (encSR 0x01 d a b 0x08)
  | .mulh d a b => some (encSR 0x01 d a b 0x09)
  | .mulhn d a b => some (encSR 0x01 d a b 0x0a)
  | .div d a b => some (encSR 0x01 d a b 0x0b)
  | .divn d a b => some (encSR 0x01 d a b 0x0c)
  | .rem d a b => some (encSR 0x01 d a b 0x0d)
  | .remn d a b => some (encSR 0x01 d a b 0x0e)
  | .min d a b => some (encSR 0x01 d a b 0x0f)
  | .max d a b => some (encSR 0x01 d a b 0x10)
  | .minn d a b => some (encSR 0x01 d a b 0x11)
  | .maxn d a b => some (encSR 0x01 d a b 0x12)
  | .slt d a b => some (encSR 0x01 d a b 0x13)
  | .sltn d a b => some (encSR 0x01 d a b 0x14)
  | .seq d a b => some (encSR 0x01 d a b 0x15)
  | .clz d a => some (encSR 0x01 d a 0 0x16)
  | .ctz d a => some (encSR 0x01 d a 0 0x17)
  | .popc d a => some (encSR 0x01 d a 0 0x18)
  | .sel d a b => some (encSR 0x01 d a b 0x19)
  | .addi d a i => some (encSI 0x02 d a i)
  | .andi d a i => some (encSI 0x03 d a i)
  | .ori d a i => some (encSI 0x04 d a i)
  | .xori d a i => some (encSI 0x05 d a i)
  | .slti d a i => some (encSI 0x07 d a i)
  | .shli d a k => some (encSI 0x06 d a (0#2 ++ 0#6 ++ k))
  | .shri d a k => some (encSI 0x06 d a (1#2 ++ 0#6 ++ k))
  | .srai d a k => some (encSI 0x06 d a (2#2 ++ 0#6 ++ k))
  | .ldi d i => some (encSU 0x08 d i)
  | .ldu d i => some (encSU 0x09 d i)
  | .adda d a b k => some (encSR 0x0A d a b (0#5 ++ k))
  | .beq a b o => some (encSI 0x0b a b o)
  | .bne a b o => some (encSI 0x0c a b o)
  | .blt a b o => some (encSI 0x0d a b o)
  | .bge a b o => some (encSI 0x0e a b o)
  | .bltn a b o => some (encSI 0x0f a b o)
  | .bgen a b o => some (encSI 0x10 a b o)
  | .br o => some (encSJ 0x11 o)
  | .call o => some (encSJ 0x12 o)
  | .jr a => some (encSR 0x13 0 a 0 0x00)
  | .callr a => some (encSR 0x13 0 a 0 0x20)
  | .ret => some (encSR 0x13 0 0 0 0x40)
  | .lds d a k o => some (encSI 0x14 d a (k ++ o))
  | .sts d a k o => some (encSI 0x15 d a (k ++ o))
  | .amos d a b p o c => some (encSR 0x16 d a b (p ++ o ++ c))
  | .fence o c => some (encSR 0x17 0 0 0 (0#3 ++ o ++ c))
  | .mwatch d a => some (encSR 0x18 d a 0 0x00)
  | .mwaitv d a b => some (encSR 0x18 d a b 0x20)
  | .lrun a i => some (encSI 0x19 0 a i)
  | .lput n a => some (encSR 0x1A (n.extractLsb' 0 6) a 0 (0#3 ++ n.extractLsb' 6 1 ++ 0#4))
  | .lputW n a => some (encSR 0x1A (n.extractLsb' 0 6) a 0 (0#3 ++ n.extractLsb' 6 1 ++ 8#4))
  | .lget d n b => some (encSR 0x1A d (n.extractLsb' 0 6) b (1#3 ++ n.extractLsb' 6 1 ++ 0#4))
  | .lgetW d n b => some (encSR 0x1A d (n.extractLsb' 0 6) b (1#3 ++ n.extractLsb' 6 1 ++ 8#4))
  | .lsync => some (encSR 0x1A 0 0 0 0x40)
  | .tcopy d a b c n => some (encSR 0x1B d a b (0#2 ++ c ++ n))
  | .mloop c a b y x k n => some (encSR 0x1C c a b (0#1 ++ bit1 y ++ bit1 x ++ k ++ n))
  | .mvec c a b v k n => some (encSR 0x1D c a (0#3 ++ b) (v ++ k ++ n))
  | .mzero g => some (encSR 0x1E 0 0 0 (0#5 ++ g))
  | .mzeroRel t g => some (encSR 0x1E 0 0 0 (1#4 ++ bit1 t ++ g))
  | .mload m t n => some (encSR 0x1E 0 m 0 (2#4 ++ bit1 t ++ n))
  | .mdrain m o k n => some (encSR 0x1E 0 m o (2#3 ++ k ++ n))
  | .mcvt d u m o k => some (encSR 0x1E (0#3 ++ d) (bit1 u ++ 0#2 ++ m) o (3#3 ++ k ++ 0#2))
  | .mstat d t g => some (encSR 0x1E d 0 0 (8#4 ++ bit1 t ++ g))
  | .mstatClr d g => some (encSR 0x1E d 0 0 (0x12#5 ++ g))
  | .mfence d => some (encSR 0x1F d 0 0 0x00)
  | .mwaitImm n => some (encSR 0x1F 0 0 0 (2#4 ++ n))
  | .mwaitReg a => some (encSR 0x1F 0 a 0 0x30)
  | .mready a => some (encSR 0x1F 0 a 0 0x40)
  | .bar a i => some (encSI 0x20 0 a (0#10 ++ i))
  | .barNb a i => some (encSI 0x20 0 a (0x200#10 ++ i))
  | .trigger => some (encSR 0x21 0 0 0 0x00)
  | .exit => some (encSR 0x21 0 0 0 0x20)
  | .yield => some (encSR 0x21 0 0 0 0x40)
  | .qcfg d a => some (encSR 0x22 d a 0 0x00)
  | .qmap d a => some (encSR 0x22 d a 0 0x20)
  | .qlen d q => some (encSR 0x22 d 0 0 (4#4 ++ q))
  | .qpeek d q => some (encSR 0x22 d 0 0 (6#4 ++ q))
  | .qpeekPop d q => some (encSR 0x22 d 0 1 (6#4 ++ q))
  | .qpeekPush a q => some (encSR 0x22 0 a 2 (6#4 ++ q))
  | .qflush d q => some (encSR 0x22 d 0 0 (8#4 ++ q))
  | .vgrow d a => some (encSR 0x23 d a 0 0x00)
  | .vgrowW d a => some (encSR 0x23 d a 0 0x01)
  | .vshrink d a => some (encSR 0x23 d a 0 0x20)
  | .pref a k o => some (encSI 0x24 0 a (k ++ o))
  | .sysrd d r => some (encSI 0x25 d 0 (0#1 ++ r))
  | .syswr a r => some (encSI 0x25 0 a (1#1 ++ r))
  | .trap c => some (encSI 0x26 0 0 (0#2 ++ c))
  | .brk c => some (encSI 0x26 0 0 (1#2 ++ c))
  | .sigrst => some (encSI 0x26 0 0 0x2000)
  | .xpair d a b => some (encSR 0x27 d a b 0x00)
  | .tstore d a b c => some (encSR 0x28 d a b (0#5 ++ c))
  | .storq d a c => some (encSR 0x29 d a 0 (0#5 ++ c))
  | .tkclaimCount d a b => some (encSR 0x30 d a b 0x00)
  | .tkclaimAcq d a b => some (encSR 0x30 d a b 0x01)
  | .tkclaimRel d a b => some (encSR 0x30 d a b 0x02)
  | .gplace d a b => some (encSR 0x31 d a b 0x00)
  | .gplaceRel d a b => some (encSR 0x31 d a b 0x01)
  | .qslotMap d a b => some (encSR 0x32 d a b 0x00)
  | .qslotUnmap d a b => some (encSR 0x32 d a b 0x01)
  | .qslotStat d a b => some (encSR 0x32 d a b 0x02)
  | .rcbld d a => some (encSR 0x33 d a 0 0x00)
  | .rcbldBw d a => some (encSR 0x33 d a 0 0x01)
  | .evwait d => some (encSR 0x34 d 0 0 0x00)
  | .evwaitPoll d => some (encSR 0x34 d 0 0 0x01)
  | .iret => some (encSR 0x35 0 0 0 0x00)
  | .opreq d a => some (encSR 0x36 d a 0 0x00)
  | .prcmsg d a => some (encSR 0x37 d a 0 0x00)
  | .unassignedInstruction w => some (w)
  | _ => none

/-- The words of an instruction at rising addresses. An event has none. -/
def encode (i : Instr) : List W32 :=
  match laneOpcode i with
  | some (opc, w) => encLane opc w
  | none =>
    match encodeScalar i with
    | some w => [w]
    | none => []

/-! ### Checks on the fields of a scalar word (R69, R72, R73 step 3) -/

/-- A register number that names the first of a run of scalar registers for a matrix operand: even, at most 58 (R244, R250). -/
def oddPair (m : BitVec 6) : Bool := m.getLsbD 0 || decide (58 < m.toNat)

/-- A scalar word whose code fields hold a reserved value, or operand fields that break the instruction's own encoding rule:
illegal-encoding at step 3 of R73. Unused bits were checked when the word was read. -/
def scalarReserved : Instr → Bool
  | .lds _ _ wid _ => wid == 7#3
  | .sts _ _ wid _ => wid.getLsbD 0
  | .amos _ _ _ _ _ scope => scope == 0#3 || scope == 7#3
  | .fence _ scope => scope == 0#3 || scope == 7#3
  | .lputW n _ => n.getLsbD 0
  | .lgetW _ n _ => n.getLsbD 0
  | .tcopy _ a _ scope n =>
    n == 0#3 || decide (scope.toNat < 2) || decide (6 < scope.toNat) || decide (59 < a.toNat + 1 + n.toNat)
  | .mloop _ a b bsrc asrc _ _ =>
    (if asrc then oddPair a else decide (8 ≤ a.toNat)) || (if bsrc then oddPair b else decide (8 ≤ b.toNat))
  | .mvec _ a _ _ _ _ => oddPair a
  | .mzero g => decide (3 < g.toNat)
  | .mzeroRel kind g => !kind && decide (3 < g.toNat)
  | .mload m kind n => oddPair m || (!kind && decide (3 < n.toNat))
  | .mdrain m _ _ _ => oddPair m
  | .mcvt _ acc src _ _ => acc && src.getLsbD 2
  | .mstat _ kind g => !kind && decide (3 < g.toNat)
  | .mstatClr _ g => decide (3 < g.toNat)
  | .tstore _ _ _ scope => decide (scope.toNat < 2) || decide (6 < scope.toNat)
  | .storq _ _ scope => decide (scope.toNat < 2) || decide (6 < scope.toNat)
  | _ => false

/-! ### Checks on the fields of a lane instruction (R75 to R82, R86 steps 3 to 5) -/

/-- What the description of a lane instruction says of its fields: the sources it uses, whether it names the prefix's fourth
operand, whether it has a lane result, the types it accepts (bit t for type code t), the modifiers it accepts (negA, negB, absA,
sat), whether negA, negB and absA are refused under the unsigned types, whether it has a rounding step, and whether IMM32 is a
control field. -/
structure LaneForm where
  useA : Bool := false
  useB : Bool := false
  useC : Bool := false
  four : Bool := false
  result : Bool := true
  types : BitVec 16
  mods : BitVec 4 := 0
  signedOnly : Bool := false
  rounds : Bool := false
  ctl : Bool := false
  deriving DecidableEq, Repr

/-- Types 0 to 3, 0 to 5, 6 to 9, 0 to 9, and 0 alone. -/
def types03 : BitVec 16 := 0x000F
def types05 : BitVec 16 := 0x003F
def types69 : BitVec 16 := 0x03C0
def types09 : BitVec 16 := 0x03FF
def type0 : BitVec 16 := 0x0001

/-- Integer instructions (R190, R191). -/
def intForm (n : Nat) (types : BitVec 16) (mods : BitVec 4) : LaneForm :=
  { useA := true, useB := decide (2 ≤ n), useC := decide (3 ≤ n), types := types, mods := mods, signedOnly := true }

/-- Floating-point instructions (R206, R214). -/
def floatForm (n : Nat) (mods : BitVec 4) (rounds : Bool) : LaneForm :=
  { useA := true, useB := decide (2 ≤ n), useC := decide (3 ≤ n), types := types69, mods := mods, rounds := rounds }

/-- Type codes 6 to 9. -/
def isFloatType (t : BitVec 4) : Bool := decide (6 ≤ t.toNat) && decide (t.toNat ≤ 9)

/-- The form of each lane instruction (R191, R196, R206, R213 to R222, R224, R278 to R283). -/
def laneForm : Instr → Option LaneForm
  | .iadd _ => some (intForm 2 types05 0xF)
  | .isub _ => some (intForm 2 types05 0xF)
  | .imul _ => some (intForm 2 types05 0xF)
  | .imad _ => some (intForm 3 types05 0xF)
  | .imulh _ => some (intForm 2 types05 0xE)
  | .iabs _ => some (intForm 1 0x0035 0x1)
  | .ineg _ => some (intForm 1 types05 0x1)
  | .imin _ => some (intForm 2 types05 0xE)
  | .imax _ => some (intForm 2 types05 0xE)
  | .iand _ => some (intForm 2 types05 0)
  | .ior _ => some (intForm 2 types05 0)
  | .ixor _ => some (intForm 2 types05 0)
  | .inot _ => some (intForm 1 types05 0)
  | .ishl _ => some (intForm 2 types05 0)
  | .ishr _ => some (intForm 2 types05 0)
  | .isra _ => some (intForm 2 types05 0)
  | .ibfe _ => some (intForm 2 types03 0)
  | .ibfi _ => some (intForm 3 types03 0)
  | .ipopc _ => some (intForm 1 types05 0)
  | .iclz _ => some (intForm 1 types05 0)
  | .isel _ => some (intForm 3 types05 0)
  | .imov _ => some (intForm 1 types05 0)
  | .icmp _ _ => some (intForm 2 types05 0xE)
  | .fadd _ => some (floatForm 2 0xF true)
  | .fsub _ => some (floatForm 2 0xF true)
  | .fmul _ => some (floatForm 2 0xF true)
  | .ffma _ => some (floatForm 3 0xF true)
  | .fmin _ => some (floatForm 2 0xE false)
  | .fmax _ => some (floatForm 2 0xE false)
  | .fabs _ => some (floatForm 1 0 false)
  | .fneg _ => some (floatForm 1 0 false)
  | .fsel _ => some (floatForm 3 0 false)
  | .fclass _ => some (floatForm 1 0 false)
  | .fcmp _ _ => some (floatForm 2 0xE false)
  | .cvt _ => some { useA := true, types := type0, mods := 1, rounds := true, ctl := true }
  | .rqnt _ => some { useA := true, useB := true, types := type0, ctl := true }
  | .fseed _ _ => some { useA := true, types := 0x0040 }
  | .frange _ => some (floatForm 1 0 false)
  | .fscale _ => some (floatForm 2 1 true)
  | .fexpo _ => some (floatForm 1 0 false)
  | .fmant _ => some (floatForm 1 0 false)
  | .lperm _ => some { useA := true, useB := true, four := true, types := types09 }
  | .lrot _ => some { useA := true, useB := true, types := types09 }
  | .lbcast _ => some { useA := true, useB := true, four := true, types := types09 }
  | .lred op w => some { useA := true, types := if op.val < 3 then types09 else types05, rounds := op.val == 0 && isFloatType w.typ }
  | .lscan op w => some { useA := true, types := if op.val < 3 then types09 else types05, rounds := op.val == 0 && isFloatType w.typ }
  | .xswap _ => some { useA := true, types := types09 }
  | .ld _ _ => some { useA := true, types := types09, ctl := true }
  | .st _ _ => some { useA := true, useB := true, result := false, types := types09, ctl := true }
  | .ldg _ _ => some { useA := true, types := types09, ctl := true }
  | .stsc _ _ => some { useA := true, useB := true, result := false, types := types09, ctl := true }
  | .amo op _ _ => some { useA := true, useB := true, useC := op == 7#3, types := types03, ctl := true }
  | .lwatch _ => some { useA := true, types := types03, ctl := true }
  | .lwatchW _ => some { useB := true, types := types03, ctl := true }
  | .lbr _ => some { result := false, types := type0, ctl := true }
  | .lbrc _ => some { useA := true, result := false, types := type0, ctl := true }
  | .ljoin _ => some { result := false, types := type0, ctl := true }
  | .lend _ => some { result := false, types := type0 }
  | .spawn _ => some { useA := true, useB := true, result := false, types := type0 }
  | .lvote _ _ => some { useA := true, types := type0 }
  | .lsig _ => some { result := false, types := type0, ctl := true }
  | _ => none

/-- A lane instruction of the control group 0x340 to 0x37F (R196). -/
def isLaneControl : Instr → Bool
  | .lbr _ => true
  | .lbrc _ => true
  | .ljoin _ => true
  | .lend _ => true
  | .spawn _ => true
  | .lvote _ _ => true
  | .lsig _ => true
  | _ => false

/-- Operand codes that may stand as a source (R75). -/
def sourceCode (c : BitVec 8) : Bool :=
  let n := c.toNat
  decide (n < 0x88) || (decide (0x90 ≤ n) && decide (n ≤ 0xA7)) || (decide (0xC0 ≤ n) && decide (n ≤ 0xC2)) || decide (0xFE ≤ n)

/-- Operand codes that may stand as a destination (R75). -/
def destCode (c : BitVec 8) : Bool :=
  let n := c.toNat
  decide (n < 0x80) || (decide (0x90 ≤ n) && decide (n ≤ 0xA6)) || decide (n = 0xFF)

/-- A code that names an odd vector register. -/
def oddVector (c : BitVec 8) : Bool := !c.getLsbD 7 && c.getLsbD 0

/-- The 64-bit types (R77). -/
def is64 (t : BitVec 4) : Bool := t == 2#4 || t == 3#4 || t == 7#4

/-- Elements per 32-bit lane of a `cvt` format code; `none` for a code that names no format (R216). -/
def cvtElems (f : Nat) : Option Nat :=
  match f with
  | 0x01 => some 1
  | 0x02 => some 1
  | 0x03 => some 2
  | 0x04 => some 2
  | 0x05 => some 4
  | 0x06 => some 4
  | 0x07 => some 8
  | 0x08 => some 8
  | 0x09 => some 1
  | 0x0A => some 2
  | 0x0B => some 4
  | 0x0C => some 8
  | 0x10 => some 1
  | _ => none

/-- Integer format codes of `cvt` (R216). -/
def cvtInt (f : Nat) : Bool := (decide (9 ≤ f) && decide (f ≤ 0xC)) || f == 0x10

/-- 64-bit format codes of `cvt` (R216). -/
def cvt64 (f : Nat) : Bool := f == 0x01 || f == 0x10

/-- The control field of `cvt` breaks R215 or R216. -/
def cvtBad (w : LaneWord) : Bool :=
  let f := bitsOf w.imm 5 0
  let g := bitsOf w.imm 11 6
  match cvtElems f, cvtElems g with
  | some es, some ed =>
    bitsOf w.imm 31 21 != 0 || (w.imm.getLsbD 12 && !cvtInt f) || (w.imm.getLsbD 13 && !cvtInt g)
      || decide (max es ed / min es ed ≤ bitsOf w.imm 16 14) || (cvt64 f && oddVector w.sa) || (cvt64 g && oddVector w.dst)
  | _, _ => true

/-- The control field of `rqnt` breaks R219. -/
def rqntBad (w : LaneWord) : Bool :=
  bitsOf w.imm 7 5 != 0 || bitsOf w.imm 31 20 != 0
    || decide ((if w.imm.getLsbD 16 then 8 else 4) ≤ bitsOf w.imm 19 17)

/-- The control field of a lane load or store breaks R278, or a `.g` form names an odd address register (R279). -/
def memBad (lvl : Fin 6) (store : Bool) (w : LaneWord) : Bool :=
  let size := bitsOf w.imm 26 24
  bitsOf w.imm 31 27 != 0 || decide (5 ≤ size) || (size != 0 && decide (1 < w.typ.toNat))
    || (store && (size == 2 || size == 4)) || (lvl == 5 && w.sa.getLsbD 0)

/-- IMM32 [31:24] must be zero and SA must not name an odd register (R281, R283). -/
def pairAddrBad (w : LaneWord) : Bool := bitsOf w.imm 31 24 != 0 || oddVector w.sa

/-- A branch or join whose displacement leads to a position below 0 (R80). `pos` is the instruction's own position. -/
def belowZero (pos : Nat) (w : LaneWord) : Bool := decide ((pos : Int) + w.imm.toInt < 0)

/-- What the instruction's own description says of its control field. -/
def ownFieldBad (pos : Nat) : Instr → Bool
  | .cvt w => cvtBad w
  | .rqnt w => rqntBad w
  | .ld l w => memBad l false w
  | .ldg l w => memBad l false w
  | .st l w => memBad l true w
  | .stsc l w => memBad l true w
  | .amo _ _ w => pairAddrBad w || w.modf.getLsbD 0 || w.modf.extractLsb' 1 3 == 7#3
  | .lwatch w => pairAddrBad w
  | .lbr w => belowZero pos w
  | .lbrc w => belowZero pos w
  | .ljoin w => belowZero pos w
  | .lend w => w.imm != 0
  | _ => false

/-- The atomics, whose MOD holds the scope (R79). -/
def modIsScope : Instr → Bool
  | .amo _ _ _ => true
  | _ => false

/-- Step 3 of R86: the prefix rules of R82 that name illegal-prefix. -/
def laneBadPrefix (i : Instr) (f : LaneForm) (w : LaneWord) : Bool :=
  match w.pre with
  | none => false
  | some p => isLaneControl i || (p.rnd != 0 && !f.rounds) || (p.zero && !f.result)

/-- The opcodes that take no type, and so no pair by it (R76). -/
def takesNoType (i : Instr) : Bool :=
  isLaneControl i || (match i with | .cvt _ => true | .rqnt _ => true | _ => false)

/-- Step 4 of R86: fields, operand codes, pairs, modifiers, IMM32 use and prefix fields. Under a 64-bit type every vector code that an
instruction names as a source or destination names a pair (R77), the 32-bit offset of a load or store at a level other than `.g` (R279)
too: DEDUCED, log 145; safe. -/
def laneBadFields (pos : Nat) (i : Instr) (f : LaneForm) (w : LaneWord) : Bool :=
  let d4 : BitVec 8 := match w.pre with | some p => p.d | none => 0xFF
  let src (use : Bool) (c : BitVec 8) : Bool := if use then !sourceCode c else c != 0xFF
  let named := (if f.useA then [w.sa] else []) ++ (if f.useB then [w.sb] else []) ++ (if f.useC then [w.sc] else [])
    ++ (if f.four then [d4] else [])
  let hasImm := named.any (· == 0xFE)
  w.mbz != 0
    || (match w.pre with | some p => p.rnd == 7#3 || p.low != 0 | none => false)
    || src f.useA w.sa || src f.useB w.sb || src f.useC w.sc || src f.four d4
    || (w.nwb && w.dst != 0xFF) || (!w.cap && w.latch != 0)
    || (if f.result then !destCode w.dst else w.dst != 0xFF || w.nwb || w.cap)
    || (if f.ctl then hasImm else !hasImm && w.imm != 0)
    || (!modIsScope i && ((w.modf &&& ~~~f.mods) != 0 || (f.signedOnly && (w.typ == 1#4 || w.typ == 3#4) && (w.modf &&& 0xE) != 0)))
    || (is64 w.typ && !takesNoType i && ((f.result && oddVector w.dst) || named.any oddVector))
    || ownFieldBad pos i

/-- The first of steps 3 to 5 of R86 that a lane instruction at position `pos` fails. -/
def laneFault (pos : Nat) (i : Instr) : Option EncFault :=
  match laneForm i, laneOpcode i with
  | some f, some (_, w) =>
    if laneBadPrefix i f w then some .illegalPrefix
    else if laneBadFields pos i f w then some .illegalEncoding
    else if !f.types.getLsbD w.typ.toNat then some .illegalType
    else none
  | _, _ => none

/-- The fault that the instruction's words raise by their encoding, at a position far enough for every displacement. -/
def encodingFault (i : Instr) : Option EncFault :=
  if scalarReserved i then some .illegalEncoding else laneFault (2 ^ 32) i

/-! ### The table's words -/

/-- What the decoder reads from an instruction whose bits are `w`, bit 0 the least significant bit of the first word: a scalar
word of 32 bits, a lane instruction of 96 bits, or one with its prefix of 128 bits. -/
def decodeTableWord (nbits w : Nat) : Option Instr :=
  let word (k : Nat) : W32 := BitVec.ofNat 32 (w >>> (32 * k))
  if nbits ≤ 32 then
    match decodeScalar (word 0) with
    | .ok i => some i
    | .error _ => none
  else
    match decodeLaneWords ((List.range (nbits / 32)).map word) with
    | some (.ok i) => some i
    | _ => none

end Sys2Proof
end

