-- ==== Sys2Proof/Config.lean ====
section
/-! DEFINITION. What an implementation fixes and the values the spec leaves open: constants with no body, so that nothing can be
proved of their values. -/

namespace Sys2Proof

/-- An unpredictable value (R7): the n-th one drawn in a run, and its i-th part (a lane, an element, a byte). -/
opaque Config.freeValue : Nat → Nat → BitVec 96

/-- The segments of a slice that are fused off: at most three, so that 61 to 64 of its 64 L2 segments are live. -/
opaque Config.fusedOff : SliceId → Fin 3 → Option (Fin 64)

/-- The fuse map `PRC.FUSE0` to `PRC.FUSE7` (R442): bit i set when L2 segment i of the slice is live. -/
def Config.fuseMap (i : SliceId) : Word :=
  let off (j : Fin 3) : Word := match Config.fusedOff i j with | some k => 1 <<< k.val | none => 0
  ~~~(off 0 ||| off 1 ||| off 2)

/-- The ASID under which the puppet slots, the agents and the engines of a partition address partition memory (R167). The spec
gives no register for it. -/
opaque Config.rootAsid : PartId → W16

/-- Which of the 16 entries of a 64 KiB group a controller translates by (R385): of an ASID and a virtual 64 KiB page. -/
opaque Config.contiguousChoice : W16 → Nat → Fin 16

/-- The module serial number (R411, R448, R464), the vendor identifier and revision of `SLICE.EPID` (R456). -/
opaque Config.moduleSerial : Word
opaque Config.endpointId : W32

/-- Where the configuration space of an endpoint function holds the control registers of its Power Management and MSI-X capabilities (R456): byte
offsets of their 32-bit words, which the spec leaves to the PCI Express Base Specification. -/
opaque Config.pmControlOffset : Nat
opaque Config.msixControlOffset : Nat

/-- The registers of an endpoint function's configuration space that the spec leaves to the PCI Express Base Specification, by byte offset. -/
opaque Config.pciRegister : Nat → W32

/-- The highest version of an agent image below which FWOFFER is refused (R459), and the PRC firmware digest (R464). -/
opaque Config.firmwareMinimum : Nat
opaque Config.prcFirmwareDigest : List Byte

/-- The bytes of the agent image that a module holds in its firmware store before any image has been offered: the spec does not give it. -/
opaque Config.shippedImage : Nat → Byte

/-- Whether a signature of a byte string verifies under a public key: kind 0 RSA-3072, kind 1 SLH-DSA (R447, R459). -/
opaque Config.verifies : Nat → List Byte → List Byte → List Byte → Bool
/-- The keys fused at manufacture that sign agent images (R459). -/
opaque Config.firmwareKeys : List Byte × List Byte
/-- The signature the PRC gives a byte string: kind 0 by AK-R, kind 1 by AK-S (R411, R463, R464). -/
opaque Config.signature : Nat → List Byte → List Byte
/-- The certificate in DER that CERT writes (R463): 0 DIK-R, 1 DIK-S, 2 AK-R, 3 AK-S. -/
opaque Config.certificate : Nat → List Byte

/-- What a last XTS data unit of fewer than 16 bytes decrypts to, which the standard leaves undefined: of the key pair, the tweak of the first
data unit, the number of the unit and its bytes. -/
opaque Config.xtsShortUnit : List Byte → List Byte → Nat → List Byte → List Byte

/-- What an NVMe device returns for a chain (R294): namespace, queue handle, starting LBA, length; `none` when the command
fails. -/
opaque Config.nvmeRead : W32 → W16 → Word → Nat → Option (List Byte)

/-- What a device beyond a PCIe port, or an upstream host, returns for a read of n bytes: the n-th value drawn. -/
opaque Config.externalRead : Nat → Word

/-- The bytes of the two public keys appended to a boot image (R447): RSA-3072, then SLH-DSA-SHA2-128s. -/
opaque Config.publicKeySizes : Nat × Nat

/-- Whether a PCIe port of a slice is bifurcated (R25, R455). -/
opaque Config.portBifurcated : SliceId → Fin 2 → Bool

/-- HASH and GRAN that the PRC writes into `SLICE.HBMIL` (R389, R446): the spec gives no value. -/
opaque Config.interleave : SliceId → Bool × Fin 3

/-- Where the agents put the workgroup ticket of a grid in the partition's chip scratchpad, by the grid's number (R348): the spec names no place. -/
opaque Config.gridTicket : Nat → Nat

end Sys2Proof
end

