-- ==== Sys2Proof/Machine/Tab.lean ====
section
/-! DEFINITION. Sparse tables and byte memories: plain lists of key and value pairs. A table is a register file, a set of group
slots or a set of cores; a memory is a list of address and byte pairs in one canonical form. -/

namespace Sys2Proof.Machine

/-- A table keyed by number: an association list, keys strictly rising. -/
abbrev Tab (α : Type) := List (Nat × α)

/-- The value at a key, or the default when the key is not listed. -/
def tabGet {α : Type} (dflt : α) : Tab α → Nat → α
  | [], _ => dflt
  | (k, v) :: t, i => if i = k then v else tabGet dflt t i

/-- The value at a key, when it is listed. -/
def tabFind {α : Type} : Tab α → Nat → Option α
  | [], _ => none
  | (k, v) :: t, i => if i = k then some v else tabFind t i

/-- Puts a value at a key, in its place in the rising order. -/
def tabSet {α : Type} : Tab α → Nat → α → Tab α
  | [], i, x => [(i, x)]
  | (k, v) :: t, i, x =>
    if i < k then (i, x) :: (k, v) :: t
    else if i = k then (i, x) :: t
    else (k, v) :: tabSet t i x

/-- Takes a key out of a table. -/
def tabDel {α : Type} (t : Tab α) (i : Nat) : Tab α := t.filter fun e => e.1 != i

/-- A memory: address and byte pairs. An address that is not listed reads as zero: FUSE writes zero into every byte of a
member slice's memories (R446), and placement puts zero into matrix state and scale memory (R231). -/
abbrev Memory := List (Nat × BitVec 8)

/-- What an address that the list does not name reads as. -/
def memDefault : Byte := 0

/-- Reads one byte. -/
def memGet : Memory → Nat → Byte
  | [], _ => memDefault
  | (k, v) :: t, i => if i = k then v else memGet t i

/-- Puts a byte that is not the default at its place in the rising order. -/
def memPut : Memory → Nat → Byte → Memory
  | [], i, x => [(i, x)]
  | (k, v) :: t, i, x =>
    if i < k then (i, x) :: (k, v) :: t
    else if i = k then (i, x) :: t
    else (k, v) :: memPut t i x

/-- Writes one byte, keeping the canonical form: a byte equal to the default leaves the list. -/
def memSet (m : Memory) (i : Nat) (x : Byte) : Memory := if x = memDefault then m.filter fun e => e.1 != i else memPut m i x

/-- The canonical form: addresses strictly rising, and no byte equal to what an unlisted address reads as. -/
def Memory.wf : Memory → Bool
  | [] => true
  | [(_, v)] => decide (v ≠ memDefault)
  | (k, v) :: (k', v') :: t => decide (v ≠ memDefault) && decide (k < k') && Memory.wf ((k', v') :: t)

/-- Reads `n` bytes from an address upward. -/
def memRead (m : Memory) (a : Nat) : Nat → List Byte
  | 0 => []
  | n + 1 => memGet m a :: memRead m (a + 1) n

/-- Writes a list of bytes from an address upward. -/
def memWrite (m : Memory) (a : Nat) : List Byte → Memory
  | [] => m
  | b :: bs => memWrite (memSet m a b) (a + 1) bs

/-- The number whose little-endian bytes these are (R2). -/
def bytesToNat : List Byte → Nat
  | [] => 0
  | b :: bs => b.toNat + 256 * bytesToNat bs

/-- The low `n` bytes of a number, least significant first (R2). -/
def natToBytes (x : Nat) : Nat → List Byte
  | 0 => []
  | n + 1 => BitVec.ofNat 8 x :: natToBytes (x / 256) n

/-- Reads a little-endian number of `n` bytes (R2). -/
def memReadLE (m : Memory) (a n : Nat) : Nat := bytesToNat (memRead m a n)

/-- Writes the low `n` bytes of a number little-endian (R2). -/
def memWriteLE (m : Memory) (a n : Nat) (x : Nat) : Memory := memWrite m a (natToBytes x n)

end Sys2Proof.Machine
end

