-- ==== Sys2Proof/Machine/State.lean ====
section
/-! DEFINITION. The state of the module as plain data, and the state right after module power-on reset. System registers with
a number stand as whole words in the tables `regs` of their owner (`Core.regs`, `Slice.regs`, `Prc.regs`), where a number that
is not listed holds its reset value (`Machine/SysRegs.lean`); what the spec gives the machine beside them stands in fields of
its own. -/

namespace Sys2Proof.Machine

/-- What stops the machine as a whole. The faults of the T8 itself (R419, R169) are taken inside the machine and leave a next
state, so no meaning raises one of these. -/
inductive Fault where
  /-- Raised by nothing in this model; kept so that the type is inhabited. Safe. -/
  | machineCheck
  deriving DecidableEq, Repr

/-- Why an instruction is given no meaning. -/
inductive Refusal where
  /-- Raised by an arm of `exec` whose instruction has no meaning yet. Safe. -/
  | notModelled (mnemonic : String)
  deriving DecidableEq, Repr

/-! ### Registers of a group -/

/-- Where a vector register's value comes from (R178): U uniform, A affine, G stored in every lane. -/
inductive Shape where
  | u | a | g
  deriving DecidableEq, Repr

/-- A vector register with its descriptor (R177, R178). `data` holds the stored value of each lane, lane 0 first; a lane past
its end holds zero. -/
structure VReg where
  shape : Shape := .u
  spill : BitVec 3 := 0
  base  : W32 := 0
  step  : W32 := 0
  data  : List W32 := []
  deriving DecidableEq, Repr

/-- A bypass latch (R184): 64 bits a lane and a valid bit. -/
structure Latch where
  valid : Bool := false
  data  : List Word := []
  deriving DecidableEq, Repr

/-- The binding of a queue name (R322, R433). -/
structure Binding where
  valid : Bool := false
  hq    : BitVec 4 := 0
  k     : BitVec 5 := 0
  deriving DecidableEq, Repr

/-- An entry of the lane queue (R38, R154 to R157, R505). A block keeps the rounding mode in force when its `lrun` issued
(R147). -/
inductive LaneEntry where
  | block (addr : Word) (mask : Mask) (rnd : BitVec 3)
  | lput (n : BitVec 7) (wide : Bool) (value : Word)
  | lget (d : BitVec 6) (n : BitVec 7) (wide : Bool) (lane : Word)
  | sigrst
  deriving DecidableEq, Repr

/-- What a split waits on before its next instruction issues (R189). `queue`: whether it is the push that waits, in what order the splits
began to wait, and the names that the instruction pops and pushes (R327). -/
inductive SplitWait where
  | none
  | queue (push : Bool) (no : Nat) (pops : List Nat) (dst : Option Nat)
  | remoteLoad (since : Nat)
  | fetch
  deriving DecidableEq, Repr

/-- An entry of a hardware queue (R323 to R325): lane values of a 384-byte entry, or one 64-bit value. -/
structure QEntry where
  filled : Bool := true
  /-- The operation that fills a reserved entry, and whether the entry is one of 384 bytes. -/
  op     : Nat := 0
  wide   : Bool := false
  lanes  : List W32 := []
  value  : Word := 0
  deriving DecidableEq, Repr

/-- What a lane instruction that has issued still waits for: the filling of an entry that it popped (R323); the partner's value for the
group's n-th `xswap`, or, when the pair has ended under it, the values it completes with (R224, R225); room for the payloads of a `spawn`
whose lanes `done` have deposited, after the accesses numbered below `first` (R200, R308); a watched value or a deadline (R283). -/
inductive HeldKind where
  | fill
  | swap (n since : Nat) (vals : Option (List Word))
  | spawn (done : Mask) (first : Nat)
  | watch (deadline : Word)
  deriving DecidableEq, Repr

/-- A lane instruction that has issued and is not complete: the lanes of its split, which stand at it, the entries it popped by name, and the
number of the entry reserved for its result (R189, R323). -/
structure HeldOp where
  lanes : Mask
  pops  : List (Nat × QEntry) := []
  op    : Nat := 0
  kind  : HeldKind := .fill
  deriving DecidableEq, Repr

/-- A split record (R41 to R43, R198, R202). -/
structure Split where
  used   : Bool := false
  pc     : BitVec 24 := 0
  mask   : Mask := 0
  bh     : W32 := 0
  bhv    : Bool := false
  merge  : Bool := false
  /-- Joining since this count of lane instructions of the group (R198). -/
  join   : Option Nat := none
  /-- The join timeout has made the split ready (R198). -/
  joinOk : Bool := false
  /-- Times passed over in a row by the lane sequencer (R43). -/
  passed : Nat := 0
  /-- Lane instructions of the group issued when the record was taken (R43). -/
  taken  : Nat := 0
  /-- Stands at an `lend` it has executed (R43, R199). -/
  atEnd  : Bool := false
  wait   : SplitWait := .none
  deriving DecidableEq, Repr

/-- The running lane block (R39, R433). -/
structure Block where
  addr     : Word
  mask     : Mask
  rnd      : BitVec 3
  finished : Mask := 0
  /-- The operations numbered below this issued before the block began; the model's own (R300). -/
  first    : Nat := 0
  deriving DecidableEq, Repr

/-- The width and target of a watch (R282, R283). -/
structure Watch where
  addr  : Word
  wide  : Bool := true
  value : Word := 0
  deriving DecidableEq, Repr

/-- The group's half of a pair (R223 to R225). `unmatched` holds received values in order, each 64 bits a lane. Both halves carry
one number, by which either is found when its group has been saved and restored elsewhere. -/
structure Pair where
  id        : Nat
  key       : W32
  partner   : GroupRef
  sends     : Nat := 0
  recvs     : Nat := 0
  unmatched : List (List Word) := []
  ended     : Bool := false
  deriving DecidableEq, Repr

/-- Where an access goes (R260, R268): a global address under an ASID, or a byte of an on-chip memory. -/
inductive Place where
  | global (asid : W16) (va : Word)
  | spad (c : CoreRef) (wg : Nat) (off : Nat)
  | lanePriv (c : CoreRef) (wg : Nat) (off : Nat)
  | chip (part : PartId) (off : Nat)
  | unmapped
  | badAddress (va : Word)
  deriving DecidableEq, Repr

/-- One access of one lane, or of the scalar stream: its place, the value it stores or combines, and the value that a
compare-and-swap expects (R277, R281). -/
structure LaneAcc where
  lane   : Nat
  place  : Place
  value  : Word := 0
  expect : Word := 0
  deriving DecidableEq, Repr

/-- What a memory operation does at its locations. `signed` says whether min and max compare signed. A fence does nothing at any
location: it stands among the operations in flight and holds back those behind it (R306). -/
inductive AccKind where
  | load
  | watch
  | store
  | amo (op : BitVec 3) (signed : Bool)
  | fence
  deriving DecidableEq, Repr

/-- Where the values that return from a memory operation go. -/
inductive AccDest where
  | none
  | sreg (d : BitVec 6)
  | lane (dst : BitVec 8) (wide : Bool) (acted : Mask) (zero : Bool) (cap : Option (BitVec 3))
  deriving DecidableEq, Repr

/-- A load, store or atomic that has issued and is not yet performed (R276, R280, R310). `ext` is how a narrow load extends. -/
structure MemOp where
  id     : Nat
  kind   : AccKind
  width  : Nat
  signed : Bool := false
  accs   : List LaneAcc
  /-- Values returned so far, by lane. -/
  got    : List (Nat × Word) := []
  dest   : AccDest := .none
  scope  : BitVec 3 := 0
  order  : BitVec 2 := 0
  split  : Option (Fin 4) := none
  /-- The issuing word and its address (R421). -/
  word   : W32 := 0
  pc     : Word := 0
  parked : Bool := false
  /-- `Core.cov` when a fence or a release atomic issued: the release waits for it too (R304). -/
  cover  : Word := 0
  deriving DecidableEq, Repr

/-- What a scalar stream waits on (R45, R438). `stall` is a wait that is no blocking point (R38, R49, R306), `grow` that of
`vgrow.w` (R159). -/
inductive Wait where
  | none | token | queue | barrier | mwait | lsync | monitor | remoteLoad | spawnBin | xswap | mailbox | event | stall | grow
  deriving DecidableEq, Repr

/-- The scalar side of a group or of a puppet slot: `s0` to `s63`, the program counter, the pending tokens and load targets,
the write-completion time, the scalar watch and the accesses in flight (R137 to R141, R282, R311). -/
structure Scalar where
  s        : Tab Word := []
  spc      : Word := 0
  /-- Bit d: `s`d is a pending token (R139). -/
  pend     : Word := 0
  /-- Bit d: `s`d awaits a load reply (R276). -/
  loadPend : Word := 0
  /-- Bit d: `s`d holds an unread token of an operation that carries a completion time (R289, R311). -/
  tokWct   : Word := 0
  wct      : Word := 0
  /-- The latest time until which an older L1 copy may live of a line that the group's accesses wrote or observed; the model's own, for
  the releases of R304. -/
  obs      : Word := 0
  /-- `Core.cov` when the stream's present stall began; the model's own (R304). -/
  cover    : Word := 0
  /-- The latest completion time of the writes of the group's finished engine operations (R49). -/
  engWct   : Word := 0
  watch    : Option Watch := none
  /-- When the watched word was last read, in ptick (R282). -/
  watchAt  : Word := 0
  deadline : Word := 0
  memq     : List MemOp := []
  wait     : Wait := .none
  /-- The registers, the queue and its direction, or the batches that the wait is for. -/
  waitMask : Word := 0
  /-- Since when, in ptick, the stream has waited, and in what order it began to wait on a queue (R327). -/
  since    : Word := 0
  waitNo   : Nat := 0
  /-- A reserved entry that a `qpeek.pop` has popped and that is not filled (R323, R328). -/
  popped   : Option QEntry := none
  /-- The remote-load wait has become a blocking point (R45). -/
  remote   : Bool := false
  /-- The sequencer is frozen by an instruction-cache miss (R58). -/
  frozen   : Bool := false
  deriving DecidableEq, Repr

/-- The state of a group slot (R48), with the codes of `CORE.GSTATn` (R438). -/
inductive GState where
  | free | ready | active | blocked | saving | stopped | exited
  deriving DecidableEq, Repr

/-- A resident group (R37, R137 to R147, R177 to R188, R256). -/
structure Group where
  st        : GState := .free
  part      : PartId := 0
  grid      : Nat := 0
  wg        : Nat := 0
  gix       : Nat := 0
  sc        : Scalar := {}
  /-- `GRP.FPC` (R142). -/
  fpc       : Word := 1
  /-- `GRP.SIG` (R144): HASH, TRK0, TRK1. -/
  sig       : Word := 0
  /-- NREG and WANT of `GRP.ALLOT` (R145), and when the waiting `vgrow.w` began, in ptick. -/
  nreg      : Nat := 0
  want      : Nat := 0
  wantSince : Word := 0
  /-- TRIG, NBH, TEN and PRIO of `GRP.STATUS` (R146). -/
  trig      : Bool := false
  nbh       : Bool := false
  ten       : BitVec 4 := 0
  prio      : BitVec 3 := 0
  /-- Aged to priority 7 until it issues (R44). -/
  aged      : Bool := false
  /-- Youngest ready group of its priority by `yield` (R163). -/
  young     : Bool := false
  /-- When the group became ready or last issued, in ptick (R44, R401). -/
  readyAt   : Word := 0
  v         : Tab VReg := []
  p         : Tab Mask := []
  /-- The registers in the register cache, the last used first (R187). -/
  rcache    : List Nat := []
  bl        : Tab Latch := []
  binds     : Tab Binding := []
  lq        : List LaneEntry := []
  block     : Option Block := none
  splits    : Tab Split := []
  /-- Lane instructions that have issued and are not complete (R189). -/
  held      : List HeldOp := []
  /-- Waiting lanes with their program counters (R41). -/
  waiting   : Tab (BitVec 24) := []
  /-- Lane instructions issued by the group (R43, R198). -/
  laneN     : Nat := 0
  /-- `laneN` when a record was last freed (R43). -/
  freedN    : Nat := 0
  lwatch    : Tab Watch := []
  /-- When the words of the lane watches were last read, in ptick (R283). -/
  lwatchAt  : Word := 0
  /-- Batch table (R256): the operations of each entry, the next number, and the operations issued since the last `mfence`. -/
  batches   : Tab (List Nat) := []
  nextBatch : BitVec 4 := 0
  /-- For each matrix register, the number below which every operation was complete at the group's last `mready` naming it (R258). -/
  msync     : Tab Nat := []
  unfenced  : List Nat := []
  /-- What the group's drains write, by operation, accumulator, offset and length, until an `mwait` or `mready` covers them (R257). -/
  loose     : List (Nat × Nat × Nat × Nat) := []
  /-- The barrier the group has arrived at: number, NB, generation (R162, R433). -/
  arrived   : Option (Nat × Bool × Nat) := none
  pair      : Option Pair := none
  /-- `exit` has issued and waits (R49). -/
  exiting   : Bool := false
  /-- Stopped by the debugger, stopped by a halt, a step under way (R438), stepping one lane instruction. -/
  dbg       : Bool := false
  halted    : Bool := false
  stepping  : Bool := false
  lstepping : Bool := false
  /-- The word or lane instruction of the step has issued (R440); the group issues nothing more until the step ends. -/
  stepDone  : Bool := false
  /-- What the stop record says of a fault this group raised (R424): code, precise, lane, split, ADDR, DETAIL, INSTR. -/
  faultCode : BitVec 8 := 0
  faultPrec : Bool := false
  faultLane : Bool := false
  faultSplit : Fin 4 := 0
  faultAddr : Word := 0
  faultDetail : BitVec 8 := 0
  faultInstr : W32 := 0
  origin    : Bool := false
  /-- When the group raised that fault. -/
  faultAt   : Word := 0
  stoppedAt : Word := 0
  /-- Batches closed and incomplete, and ASYNC, at the halt that stopped the group (R424). -/
  stopBatch : W16 := 0
  stopAsync : Nat := 0
  /-- When the slot's state last changed, in ptick (R438). -/
  stamp     : Word := 0
  /-- Vector registers not written since the last full restore (R434). -/
  cleanV    : BitVec 128 := 0
  deriving DecidableEq, Repr

/-! ### State of a core -/

/-- A puppet slot (R56, R137, R167, R168, R175, R460). -/
structure Puppet where
  sc       : Scalar := {}
  events   : List Word := []
  overflow : Bool := false
  parked   : Bool := false
  stopped  : Bool := false
  /-- The slot is held out of reset by the PRC and runs an image (R446, R460). -/
  running  : Bool := false
  /-- When the PRC restarted the agent in the last second, and whether it has left it stopped (R462). -/
  restarts : List Word := []
  leftStopped : Bool := false
  /-- The number of the letter whose reply a `prcmsg` waits for (R176). -/
  letter   : Nat := 0
  /-- The agent's check of the image it runs has been sent (R461). -/
  checked  : Bool := false
  deriving DecidableEq, Repr

/-- One generation of a barrier (R162): its count, the groups that have arrived, and its number. -/
structure Barrier where
  count   : Nat := 0
  arrived : List GroupRef := []
  gen     : Nat := 0
  deriving DecidableEq, Repr

/-- A workgroup resident on a core (R31, R32, R52). `lp` holds the lane-private slices of all its groups. -/
structure Workgroup where
  grid    : Nat
  idx     : W32
  groups  : Nat
  spadLen : Nat
  lpLen   : Nat
  matrix  : Bool
  spawned : Bool := false
  nbh     : Option Nat := none
  k       : Nat := 0
  spad    : Memory := []
  lp      : Memory := []
  bars    : Tab Barrier := []
  /-- Scratchpad chunks not written since the last full restore, one bit per 4 KiB (R434). -/
  cleanS  : BitVec 128 := 0
  cleanM  : BitVec 12 := 0
  base    : Word := 0
  deriving DecidableEq, Repr

/-- A hardware queue (R320). -/
structure HwQueue where
  carved  : Bool := false
  owner   : Nat := 0
  /-- The neighbourhood of the owner. -/
  nbh     : Option Nat := none
  wide    : Bool := false
  depth   : Nat := 0
  entries : List QEntry := []
  deriving DecidableEq, Repr

/-- A spawn bin (R50, R51, R331). -/
structure SpawnBin where
  valid    : Bool := false
  entry    : Word := 0
  grid     : Nat := 0
  payloads : List W32 := []
  expiry   : Word := 0
  wait     : Bool := false
  deriving DecidableEq, Repr

/-- A tile register (R228, R230): its eight header words, its data and its status. -/
structure TileReg where
  hdr   : List W32 := []
  data  : Memory := []
  inuse : Bool := false
  dirty : Bool := false
  deriving DecidableEq, Repr

/-- An accumulator register (R229, R230): elements by row-major index, the header's EFMT, the NaN counter and status. -/
structure AccReg where
  efmt  : BitVec 6 := 0
  elems : Tab Acc96 := []
  nanc  : W32 := 0
  inuse : Bool := false
  dirty : Bool := false
  deriving DecidableEq, Repr

/-- An operand of a matrix step: a run of tile registers, a scratchpad descriptor, or weight tiles in global memory (R240,
R244, R247). -/
inductive Operand where
  | tiles (first : BitVec 3)
  | desc (m m1 : Word)
  | weights (addr : Word) (m1 : Word)
  deriving DecidableEq, Repr

/-- The steps of an `mloop` or `mvec` (R243 to R248): the accumulator, the slot words of A and B, the operands with the headers of their
tiles as checked at issue and their effective formats, the control word, the depth of a step, the accumulator columns that change, and
the steps added. -/
structure StepOp where
  acc   : BitVec 2
  slotA : W32
  slotB : W32
  a     : Operand
  b     : Operand
  ah    : List (List W32)
  bh    : List (List W32)
  ctl   : Word
  depth : Nat
  cols  : Nat
  done  : Nat := 0
  deriving DecidableEq, Repr

/-- How `mdrain` and `mcvt` convert (R251 to R254): the slot word, the source's format, the result's, the mode, `sat`, the rows and columns
written, and the LFSR from which the `round` calls go. -/
structure CvtOp where
  slot   : W32
  srcFmt : Nat
  fmt    : Nat
  mode   : Nat
  sat    : Bool
  rows   : Nat
  cols   : Nat
  lfsr   : W32
  deriving DecidableEq, Repr

/-- A matrix operation (R237, R246 to R253). -/
inductive MatKind where
  | mloop (o : StepOp)
  | mvec (o : StepOp)
  | mzero (tile : Bool) (n : BitVec 3) (rel : Bool)
  | mload (tile : Bool) (n : BitVec 3) (m m1 : Word) (hdr : List W32)
  | mdrain (acc : BitVec 2) (m m1 : Word) (atom : Bool) (o : CvtOp)
  | mcvt (d : BitVec 3) (fromAcc : Bool) (src : BitVec 3) (hdr : List W32) (o : CvtOp)
  deriving DecidableEq, Repr

/-- An issued matrix operation: its group, its word and the word's address; the registers that an unordered operation of another group
writes too, and whether it reads a register that such an operation writes (R238). `lanesTo` bounds the lane accesses before it (R300).
`hits` are the bytes written since it issued: of the scratchpad (0), of scale memory (1), or of HBM (2), each from an offset (R257). -/
structure MatOp where
  id      : Nat
  slot    : SlotId
  word    : Word
  instr   : W32
  kind    : MatKind
  spoil   : List Nat := []
  spoiled : Bool := false
  lanesTo : Nat := 0
  hits    : List (Nat × Nat × Nat) := []
  deriving DecidableEq, Repr

/-- A line of the core's L1 (R264, R309): ASID, virtual line number, physical line number, lease expiry and its 64 bytes. -/
structure L1Line where
  asid   : W16
  line   : Nat
  pl     : Nat := 0
  expiry : Word
  data   : List Byte
  deriving DecidableEq, Repr

/-- A tenant's deficit entry (R399): the deficit, its weight, the tenant, and whether it is bound. -/
structure Deficit where
  bound  : Bool := false
  tenant : Word := 0
  weight : Nat := 0
  deficit : Int := 0
  deriving DecidableEq, Repr

/-- The pre-emption engine of a core (R430): the request in force. -/
structure Preempt where
  /-- 0 idle, 1 waiting, 2 saving, 3 done. -/
  state  : BitVec 2 := 0
  result : BitVec 8 := 0
  stamp  : Word := 0
  wg     : Nat := 0
  forced : Bool := false
  incr   : Bool := false
  area   : Word := 0
  since  : Word := 0
  graceOver : Bool := false
  /-- The neighbourhood of the workgroup. -/
  nbh    : Option Nat := none
  /-- A restore that waits for its area to be readable: the word written to `CORE.RESTCMD` (R435). -/
  rest   : Option Word := none
  deriving DecidableEq, Repr

/-- A core (R32, R44, R137, R177, R320, R331). -/
structure Core where
  puppet  : Puppet := {}
  groups  : Tab Group := []
  wgs     : Tab Workgroup := []
  hq      : Tab HwQueue := []
  bins    : Tab SpawnBin := []
  tiles   : Tab TileReg := []
  accs    : Tab AccReg := []
  scale   : Memory := []
  mops    : List MatOp := []
  /-- Matrix operations of the owning workgroup that are complete (R238). -/
  mlog    : List MatOp := []
  /-- The lines of the L1, the last filled first; 2,048 at most (R264). -/
  l1      : List L1Line := []
  /-- The largest `Scalar.obs` of the core's groups and engines; the model's own, for the releases of R304. -/
  cov     : Word := 0
  deficits : Tab Deficit := []
  preempt : Preempt := {}
  /-- The positions filled in the present cclk, one bit each; the group that took scalar position 0 in it, and whether the puppet slot took it
  (R40, R401). -/
  filled  : BitVec 4 := 0
  pos0    : Option SlotId := none
  pos0Puppet : Bool := false
  /-- The cclk for which the beats of an instruction still occupy each lane pipe (R40). -/
  pipes   : Tab Nat := []
  /-- cclk in a row in which the puppet slot had a ready instruction and did not issue (R47). -/
  starve  : Nat := 0
  /-- `CORE.*` registers that hold a value of their own; a number not listed holds its reset value. -/
  regs    : Tab Word := []
  deriving DecidableEq, Repr

/-! ### State of a slice -/

/-- The address space a code word was fetched under: an ASID of the partition, or a physical address of the firmware store
(R58, R459). -/
inductive CodeSpace where
  | asid (a : W16)
  | phys
  deriving DecidableEq, Repr

/-- One 32-bit code word held by a cluster's instruction cache (R58). -/
structure CodeWord where
  space : CodeSpace
  addr  : Word
  word  : W32
  deriving DecidableEq, Repr

/-- A hardware queue slot (R333, R335, R339). `qcb` is the live queue control block, as words. -/
structure QSlot where
  /-- 0 free, 1 mapped, 2 unmapping. -/
  state  : BitVec 2 := 0
  blk    : BitVec 2 := 0
  evt    : Bool := false
  stop   : Bool := false
  stamp  : Word := 0
  /-- A mapping decision has chosen the queue to be unmapped (R341). -/
  victim : Bool := false
  /-- The queue that the slot's doorbell is bound to. -/
  q      : QIdx := 0
  qcba   : Word := 0
  qcb    : List W32 := []
  /-- The packet at RDIDX as the agent copied it, while its check waits on a miss (R344, R349). -/
  copy   : List W32 := []
  /-- The packet copied and waiting to start or complete, when BLK is not 0 (R344, R345). -/
  held   : Option (Word × List W32) := none
  holdSince : Word := 0
  /-- How often CAP had become 1 on the slices of the held LAUNCH when its hold began (R347). -/
  holdCaps : Nat := 0
  /-- When the queue was mapped (R341). -/
  mappedAt : Word := 0
  /-- The control block in memory as it stood when it was loaded (R336). -/
  img    : List W32 := []
  /-- Since when a region block of the next packet has failed its check (R377). -/
  rcbSince : Option Word := none
  deriving DecidableEq, Repr

/-- A stop of a queue that waits for its control block (R350): the code, the packet's index and copy, and whether it reports started work. -/
structure QStop where
  q     : QIdx
  code  : Nat
  pidx  : Word
  copy  : List W32
  late  : Bool
  deriving DecidableEq, Repr

/-- A started packet of a queue that has not completed (R341, R352): its queue, index, 16 words, and for a LAUNCH its grid, for
a STORAGE its chain. -/
structure Started where
  slice : SliceId
  q     : QIdx
  pidx  : Word
  words : List W32
  grid  : Option Nat := none
  chain : Option Nat := none
  count : Nat := 0
  expired : Bool := false
  /-- The packet has completed, and its signal is still to be updated (R346). -/
  due   : Bool := false
  /-- The latest completion time that the update follows (R312, R346). -/
  wct   : Word := 0
  /-- The pairs of a BARRIER_AND that have been met, by their first word (R343). -/
  met   : List Nat := []
  /-- The access of its signal is parked. -/
  parked : Bool := false
  deriving DecidableEq, Repr

/-- Who made an access that a controller parked (R269, R270). -/
inductive Requester where
  | memop (f : Fetcher) (id : Nat)
  | fetch (f : Fetcher)
  | asyncOp (id : Nat)
  | matop (c : CoreRef) (id : Nat)
  /-- A device-side access for a command queue: 0 by the serving agent, 1 of a kick, 2 of a completion signal, 3 of a handler packet, 4 of a
  stop, 5 at a mapping decision. -/
  | queue (slice : SliceId) (q : QIdx) (n : Nat)
  /-- A load of a group that has been saved (R432). -/
  | saved (part : PartId) (id : Nat)
  /-- The pre-emption engine of a core, at a save area (R430). -/
  | save (c : CoreRef)
  deriving DecidableEq, Repr

/-- A bog entry (R269). -/
structure BogEntry where
  used  : Bool := false
  asid  : W16 := 0
  va    : Word := 0
  kind  : BitVec 8 := 0
  who   : Requester := .asyncOp 0
  since : Word := 0
  deriving DecidableEq, Repr

/-- Where a token is written (R289, R290, R315). -/
inductive TokenDest where
  | reg (f : Fetcher) (d : BitVec 6)
  | area (part : PartId) (va : Word) (d : BitVec 6)
  | none
  deriving DecidableEq, Repr

/-- A post of the pair table (R223), oldest first: the group, where it stands now, and the slice and cluster in which it posted. `answer` is
what its token takes: such a post has left the table, and its token is still to be written. -/
structure Post where
  id    : Nat
  g     : GroupRef
  fromSlice : SliceId
  fromCluster : Nat
  key   : W32
  part  : PartId
  toSlice : SliceId
  toCluster : BitVec 3
  token : TokenDest
  posted : Word
  answer : Option Word := none
  deriving DecidableEq, Repr

/-- A packet of a link direction, from when it is queued until every flit of it has been acknowledged (R357, R361, R364): its class, its
flits' payloads, and how many flits of it have been sent. -/
structure TxPacket where
  num     : Nat
  cls     : Nat
  flits   : List (List Byte)
  sent    : Nat := 0
  /-- Flit times since the packet's last flit (R361). -/
  since   : Nat := 0
  /-- The last flit is there: false while a packet is being relayed. -/
  closed  : Bool := true
  /-- The copy ends poisoned (R366). -/
  poisoned : Bool := false
  /-- The port and class from which it is being relayed. -/
  relay   : Option (Nat × Nat) := none
  /-- The partition and UID whose LINKB it counts to (R408). -/
  tenant  : Option (PartId × W16) := none
  deriving DecidableEq, Repr

/-- The receive side of one class of a link (R362): the packet being put together. -/
structure Reasm where
  isOpen : Bool := false
  flits  : List (List Byte) := []
  /-- Fill of the class's receive buffer in flits, and the flit times since PAUSE was last sent (R363). -/
  fill   : Nat := 0
  since  : Nat := 0
  deriving DecidableEq, Repr

/-- A data flit kept for replay (R364): its packet's number, and the flit. -/
structure Kept where
  pkt  : Nat
  flit : Flit
  deriving DecidableEq, Repr

/-- One sender's direction of a link (R364, R370): what the sender keeps, and what the receiver keeps for it. -/
structure LinkDir where
  txSeq   : BitVec 12 := 0
  replay  : List Kept := []
  /-- Kept flits to be sent again after a NAK, oldest first. -/
  resend  : List Flit := []
  txq     : List TxPacket := []
  naks    : Nat := 0
  nakSeq  : BitVec 12 := 0
  gotTrain : Bool := false
  rxSeq   : BitVec 12 := 0
  /-- SEQ of the last flit accepted before the failure. -/
  lastSeq : BitVec 12 := 0xFFF
  unacked : Nat := 0
  /-- A NAK has been sent and the flit it names has not come. -/
  nakOut  : Bool := false
  deriving DecidableEq, Repr

/-- A link port, or a crossbar channel in the part of a link (R355 to R370). -/
structure Port where
  /-- STATE of R365. -/
  st      : BitVec 3 := 0
  stamp   : Word := 0
  /-- When the training under way began. -/
  since   : Word := 0
  /-- Entries into RETRAIN since RETR was last read. -/
  retr    : Nat := 0
  /-- Classes that the far end has paused, and that this end has. -/
  rxp     : BitVec 3 := 0
  txp     : BitVec 3 := 0
  /-- The directions of the senders, by ring position; 0 alone on a port that is no channel. -/
  dirs    : Tab LinkDir := []
  asm     : Tab Reasm := []
  ctlq    : List Flit := []
  /-- Of the last eight flit times, newest first, which sent a control flit while a data flit waited (R361). -/
  ctlHist : List Bool := []
  sentTrain : Bool := false
  firstTrain : Bool := true
  nextPkt : Nat := 0
  /-- The flits put on the wire, newest first. -/
  wire    : List Flit := []
  deriving DecidableEq, Repr

/-- A crossbar channel (R369 to R373). Its status and configuration stand in `SLICE.CHSTATn` and `SLICE.CHCFGn`. -/
structure Channel where
  /-- Flits the holder has sent since it took the marble. -/
  sent     : Nat := 0
  /-- The last flit sent ended its packet (R369). -/
  atEnd    : Bool := false
  /-- When the marble was last passed. -/
  passAt   : Option Word := none
  /-- The last flit time in which a sender requested, in ptick. -/
  lastReq  : Word := 0
  wakeAt   : Word := 0
  /-- Wavelengths being woken. -/
  wakingMask : BitVec 8 := 0
  /-- A narrowing that waits for a reassignment to end (R467). -/
  parkWaits : Bool := false
  deriving DecidableEq, Repr

/-- A tenant's HBM credit at a memory controller (R405), in bytes. -/
structure Credit where
  tenant : Word
  share  : Nat
  credit : Int
  deriving DecidableEq, Repr

/-- A seep counter (R406, R407). -/
structure Seep where
  value : W16 := 0
  armed : Bool := true
  stamp : Word := 0
  deriving DecidableEq, Repr

/-- An entry of an L2 segment's occupancy counters (R402). -/
structure Occ where
  valid : Bool := false
  asid  : W16 := 0
  lines : Nat := 0
  /-- When the entry was taken, in ptick. -/
  since : Word := 0
  deriving DecidableEq, Repr

/-- A line of an L2 segment (R265, R273): the name under which the die caches its physical line, ASID × 2^58 + virtual line; its home
segment; whether its page is host-coherent; and when it was last used, as a count of the slice's uses. -/
structure L2Line where
  key  : Nat
  seg  : Nat := 0
  hc   : Bool := false
  used : Nat := 0
  deriving DecidableEq, Repr

/-- A slice (R13 to R19, R172, R223, R269, R333, R355 to R373, R402 to R418). -/
structure Slice where
  cores   : Tab Core := []
  /-- `SLICE.*` registers that hold a value of their own; a number not listed holds its reset value. -/
  regs    : Tab Word := []
  /-- The words held by each cluster's instruction cache (R58). -/
  icache  : Tab (List CodeWord) := []
  /-- Occupancy map of each cluster (R172). -/
  occMap  : Tab (BitVec 24) := []
  slots   : Tab QSlot := []
  /-- Handler packets to be written (R351), and the agent after the last one that took a kick (R338). -/
  handlers : List (QIdx × List W32) := []
  robin   : Nat := 0
  /-- Stops of queues whose control block cannot be reached yet (R350, R269). -/
  stops   : List QStop := []
  /-- The control blocks of unmapped queues as the device last saw or wrote them, by queue index, each with its address (R336). -/
  qimg    : Tab (Word × List W32) := []
  /-- How often CAP has become 1 (R18, R347). -/
  caps    : Nat := 0
  /-- Bog of each controller (R269): entry n of controller c at n + 1024 c. -/
  bog     : Tab BogEntry := []
  /-- Misses that wait because the bog or the miss ring has no room (R269, R387): requester, ASID, address, kind. -/
  missq   : List BogEntry := []
  /-- Miss records that a full miss ring holds back (R387), oldest first. -/
  heldRecs : List (Nat × BogEntry) := []
  /-- Source 0x8 was raised for MRBASE = 0 (R387). -/
  noRingRaised : Bool := false
  pairTab : List Post := []
  ports   : Tab Port := []
  chans   : Tab Channel := []
  /-- Abort records on their way to the slice's link log (R367). -/
  aborts  : List (List W32) := []
  credits : Tab (List Credit) := []
  /-- When each controller's credits last rose. -/
  creditSince : Tab Word := []
  seep    : Tab Seep := []
  /-- When each kind's leak interval began. -/
  seepSince : Tab Word := []
  occ     : Tab Occ := []
  /-- The next operating-point request, taken when the change in progress completes (R18). -/
  opNext  : Option (BitVec 3) := none
  /-- When the change in progress began. -/
  opSince : Word := 0
  /-- The latest lease granted at this slice's homes of each physical line that they hold (R309). -/
  leases  : Tab Word := []
  /-- The last completion time of each physical line (R310). -/
  lineWct : Tab Word := []
  /-- The lease horizon of each segment (R309). -/
  horizon : Tab Word := []
  /-- The L2 lines by physical line: the remap filter of the die (R273), and the tags of its segments (R265). -/
  l2      : Tab L2Line := []
  /-- Uses of L2 lines so far, by which the least recently used is told (R403). -/
  l2Uses  : Nat := 0
  /-- Until when, in ptick, the L2 flush under way lasts (R386). -/
  flushUntil : Word := 0
  /-- The address-range table in force: 64 entries as their words (R381). -/
  art     : Tab (List W32) := []
  /-- The slice is held in reset until FUSE (R446). -/
  held    : Bool := true
  hostHeld : Bool := true
  /-- Endpoint functions of the two PCIe ports (R455, R456): BAR0 base, log2 size, BAR2 page; D3hot; function mask; vectors
  that are pending stand in the BAR2 page. -/
  ep      : Tab (List Word) := []
  epD3    : Tab Bool := []
  epMask  : Tab Bool := []
  epCfg   : Tab (Tab W32) := []
  /-- MSI-X messages sent to an upstream host: port, vector (R457), newest first. -/
  epMsis  : List (Nat × Nat) := []
  /-- Rings that did not lock at slice reset, until the agents run (R466). -/
  lockFails : List Nat := []
  /-- When each cluster's reassignment began (R467). -/
  reassign : Tab Word := []
  deriving DecidableEq, Repr

/-! ### Grids, copies, halts -/

/-- A started grid (R26, R31, R348, R379). -/
structure Grid where
  part    : PartId := 0
  slice   : SliceId := 0
  q       : QIdx := 0
  pidx    : Word := 0
  grcb    : Word := 0
  tenant  : Word := 0
  /-- RCB addresses of the fault domains the grid lies in, nearest first, the partition root last (R29). -/
  domains : List Word := []
  uid     : W16 := 0
  asid    : W16 := 0
  prio    : BitVec 3 := 0
  weight  : Nat := 1
  csBase  : Nat := 0
  csLim   : Nat := 0
  /-- The occupancy limit in force for its context at the segments (R378, R402). -/
  occLim  : Nat := 0
  lrec    : List W32 := []
  smask   : BitVec 8 := 0
  early   : Bool := false
  /-- Where the workgroup ticket stands in the partition's chip scratchpad (R348). -/
  ticket  : Nat := 0
  /-- Workgroups, or neighbourhoods, claimed so far (R348). -/
  claimed : Nat := 0
  /-- The region blocks from the grid's to the root, as they stood at its start, with their addresses; and whether a field that must not change
  has changed since (R378). -/
  chain   : List (Word × List W32) := []
  rcbBroken : Bool := false
  /-- Workgroups that exist or are saved, and those that have exited. -/
  live    : Nat := 0
  exited  : Nat := 0
  trigReached : Bool := false
  ended   : Bool := false
  /-- The clusters in which the grid has started, as slice × 6 + cluster (R66). -/
  clusters : List Nat := []
  deriving DecidableEq, Repr

/-- A resident or saved neighbourhood (R35, R36). -/
structure Nbh where
  grid  : Nat
  w     : Nat
  h     : Nat
  slice : SliceId
  /-- Core index in the slice of the top-left core. -/
  core0 : Nat
  bars  : Tab Barrier := []
  /-- Workgroups of the neighbourhood that wait for room on their reserved core (R348). -/
  waitingK : List Nat := []
  alive : Nat := 0
  first : Nat := 0
  deriving DecidableEq, Repr

/-- What an asynchronous operation does (R285 to R297). -/
inductive AsyncKind where
  | tcopy (rec : List W32) (base : Word) (loff lpitch : Nat) (coords : List Int)
  | tstore (loff : Nat) (rot : Nat) (dst : Word) (hdr : List W32)
  | storq (desc : Word) (words : List W32)
  deriving DecidableEq, Repr

/-- An issued asynchronous operation (R285, R291, R293). -/
structure AsyncOp where
  id     : Nat
  issuer : Fetcher
  part   : PartId
  asid   : W16
  wg     : Nat
  kind   : AsyncKind
  scope  : BitVec 3
  token  : TokenDest
  word   : Word
  /-- The completion time of its own writes (R314). -/
  wct    : Word := 0
  instr  : W32 := 0
  /-- The lane accesses numbered below this are before it (R300). -/
  lanesTo : Nat := 0
  /-- The issuer was in a neighbourhood at issue: the instance of scope `.nbh` is fixed then (R299). -/
  inNbh  : Bool := false
  /-- How many of its steps are done (R292), the rows it has read, and its restarts. -/
  stage  : Nat := 0
  /-- The place of the tile whose lock it holds. -/
  lock   : Option Place := none
  buf    : List (List Byte) := []
  restarts : Nat := 0
  /-- Where the scratchpad and the scale memory of its workgroup stand in a saved area (R432). -/
  spadAt  : Option Word := none
  scaleAt : Option Word := none
  spadLen : Nat := 0
  /-- Its writes are performed, and its token waits for them to complete at the scope (R289, R314). -/
  done   : Bool := false
  status : BitVec 8 := 1
  /-- The grid and the workgroup's index in it; the group that issued it has been saved (R432). -/
  grid   : Nat := 0
  widx   : W32 := 0
  saved  : Bool := false
  deriving DecidableEq, Repr

/-- What the stop record of an engine or a save says (R424, R504): KIND, the issuing group's slot, its workgroup, the word's address
or the area, and the fault the unit raised. -/
structure StopUnit where
  kind   : Nat
  g      : GroupRef
  wg     : W32
  pc     : Word
  cause  : BitVec 8 := 0
  origin : Bool := false
  addr   : Word := 0
  detail : BitVec 8 := 0
  instr  : W32 := 0
  time   : Word := 0
  deriving DecidableEq, Repr

/-- A halt of a fault domain (R422, R423, R425). -/
structure Halt where
  part    : PartId
  dom     : Word
  cause   : BitVec 8
  at'     : Word
  /-- Records produced, dropped, index of the first; set when written. -/
  count   : Nat := 0
  dropped : Nat := 0
  first   : W32 := 0xFFFFFFFF
  written : Bool := false
  /-- Records written so far: groups whose record stands, for a fault from afar that arrives later (R425). -/
  recorded : List GroupRef := []
  /-- Engines and saves that stopped, and how many of them have their record. -/
  units   : List StopUnit := []
  unitsDone : Nat := 0
  /-- The queue slice and packet whose grid raised the halt by a fault (R428). -/
  raiser  : Option Nat := none
  deriving DecidableEq, Repr

/-- A saved group whose area the hardware knows (R225, R269, R432): its section, where it stood, and its registers as they stood.
Of these the section in memory overrides what it holds; what goes on here are the loads in flight, the pair (with the values sent to it
since the save), and what the section has no place for. -/
structure SavedGroup where
  sect : Word
  was  : GroupRef
  v    : Group
  deriving DecidableEq, Repr

/-- A saved area known to the hardware (R428, R435): address, the domains it lies in, nearest first, and whether a reset has marked
it; and what still runs for its groups. -/
structure SavedArea where
  part  : PartId
  area  : Word
  doms  : List Word := []
  grid  : Nat := 0
  dead  : Bool := false
  asid  : W16 := 0
  groups : List SavedGroup := []
  /-- Workgroups of the area: their index in the grid (R36). -/
  idxs  : List W32 := []
  /-- The groups that have executed `trigger`, by workgroup and group index, and whether some group left has not (R53, R54). -/
  trigs : List (W32 × Nat) := []
  untriggered : Bool := false
  deriving DecidableEq, Repr

/-! ### The PRC -/

/-- A usage counter set (R408). -/
structure Usage where
  epoch : W16
  uid   : W16
  issue : Word := 0
  mstep : Word := 0
  hbmb  : Word := 0
  linkb : Word := 0
  deriving DecidableEq, Repr

/-- A hand-over of a slice (R450, R451). -/
structure Move where
  slice : SliceId
  toPart : PartId
  step  : Nat := 1
  /-- MOVEACK 1 has arrived. -/
  acked : Bool := false
  deriving DecidableEq, Repr

/-- A boot-image fetch under way (R448): the window asked for, the attempt, when it was asked for, whether an image failed its check on
some port, and the frame of FUSE or RESETP that waits for the boot. -/
structure BootFetch where
  frame  : List W32
  port   : Nat := 0
  tries  : Nat := 1
  offset : Nat := 0
  total  : Nat := 0
  since  : Word := 0
  sigFail : Bool := false
  /-- UNFUSE acts as RESETP first (R449): the partition is freed after the boot. -/
  thenFree : Bool := false
  deriving DecidableEq, Repr

/-- A frame that has reached the PRC (R443): from the agent of a core, with its buffer and the register that takes the status (R176), or
from the host mailbox. -/
structure Letter where
  agent : Option (CoreRef × Word × BitVec 6) := none
  /-- The letter's number, which the waiting agent holds too. -/
  num   : Nat := 0
  words : List W32
  deriving DecidableEq, Repr

/-- What the PRC holds for one partition (R23, R24, R390, R443, R446 to R465). Fields with a `PRC.*` register stand in
`Prc.regs`. -/
structure Part where
  /-- `PRC.FEATACC` and its lock (R23, R24). -/
  featacc : Word := 0
  featLocked : Bool := false
  chip    : Memory := []
  keys    : Tab (BitVec 2 × List Byte) := []
  usage   : List Usage := []
  /-- Firmware store (R459): the images by generation; `PRC.FWSTAT` and the time of the offer. -/
  images  : Tab Memory := []
  fwstat  : Word := 0x0000000000010001
  fwSince : Word := 0
  move    : Option Move := none
  abandonAtArt : Bool := false
  /-- An ARTLOAD waits for leases: the partition's requests to its L2 segments are held (R383). -/
  artHold : Bool := false
  owner   : Nat := 0
  bootm   : List Byte := []
  booted  : Bool := false
  boot    : Option BootFetch := none
  fuseArgs : List W32 := []
  /-- The host mailbox (R443). -/
  mbox    : List W32 := []
  mboxBusy : Bool := false
  mboxStatus : BitVec 8 := 0
  mboxStamp : Word := 0
  /-- Debuggers attached, by domain (R427). -/
  debuggers : List Word := []
  /-- Messages that the PRC has still to answer, in order of arrival (R445). -/
  inbox : List Letter := []
  /-- Where hart 0 of the lowest member slice was released: its pc, a0 and a1 (R447). -/
  hart0 : Option (Word × Word × Word) := none
  deriving DecidableEq, Repr

/-- The Package Root Controller (R442 to R465). -/
structure Prc where
  regs   : Tab Word := []
  parts  : Tab Part := []
  owners : Tab (List W32) := []
  /-- Notices and replies to the management interface, newest first. -/
  mgmt   : List (List W32) := []
  deriving DecidableEq, Repr

/-! ### The module -/

/-- Which agent executes the instruction at hand. -/
inductive Agent where
  | none
  | scalar (g : GroupRef)
  | lane (g : GroupRef) (split : Fin 4)
  | puppet (c : CoreRef)
  deriving DecidableEq, Repr

/-- Who moves next. -/
inductive Mover where
  /-- The scalar stream of a group. -/
  | scalar (g : GroupRef)
  /-- The lane stream of a group: it takes an entry, or the lane sequencer issues (R39, R43). -/
  | lane (g : GroupRef)
  /-- The puppet slot of a core. -/
  | puppet (c : CoreRef)
  /-- A core fills one of its four issue positions (R401). -/
  | position (c : CoreRef) (pos : Fin 4)
  /-- An event of the table, or an input from outside the module. -/
  | event (i : Instr)
  /-- Time passes and nothing else. -/
  | idle
  deriving DecidableEq, Repr

/-- One move of the schedule: the ptick that pass before it, and who moves. The schedule is an input: the spec fixes no order
among agents beyond its rules of choice, so the order of a run is plain data in the state. -/
structure Turn where
  elapsed : Nat
  who     : Mover
  deriving DecidableEq, Repr

/-- An interrupt message sent to a host core (R395): the source, its slice, and the route word. -/
structure Msi where
  source : Nat
  slice  : SliceId
  route  : Word
  deriving DecidableEq, Repr

/-- A store of a device agent to a doorbell page that the doorbell unit has still to take (R337). -/
structure Kick where
  slice : SliceId
  q     : QIdx
  off   : Nat
  size  : Nat
  value : Word
  deriving DecidableEq, Repr

/-- The module. -/
structure State where
  /-- The package time base (R16, R397). -/
  now      : Word
  /-- HBM of all slices by physical address (R388). -/
  mem      : Memory
  slices   : Tab Slice
  prc      : Prc
  grids    : Tab Grid
  nbhs     : Tab Nbh
  asyncs   : List AsyncOp
  started  : List Started
  halts    : List Halt
  saved    : List SavedArea
  /-- Physical 64-byte lines that are poisoned (R267). -/
  poison   : List Nat
  /-- Locked all-or-nothing tiles: where the header stands, a physical address as a global place of ASID 0 (R292). -/
  tileLocks : List Place
  /-- The latest lease ever granted of each physical line, and what it was at the line's last write: until then an older L1 copy may live.
  The model's own, for the releases of R304. -/
  leaseAll : Tab Word
  lineCov  : Tab Word
  /-- Interrupt messages sent, newest first (R395). -/
  msis     : List Msi
  /-- What the last load of a host core or of an upstream function returned; the model's own. -/
  outRead  : Word
  /-- Doorbell stores performed and not yet taken, oldest first (R337). -/
  kicks    : List Kick
  /-- The next number for an operation, a grid or a neighbourhood; the model's own. -/
  nextId   : Nat
  /-- The next free value (Config.freeValue); the model's own. -/
  fresh    : Nat
  /-- The agent whose instruction runs, and the instruction's word (bits [95:64] of a lane instruction); the model's own. -/
  cur      : Agent
  word     : W32
  /-- The moves to come; the model's own. -/
  schedule : List Turn
  deriving DecidableEq, Repr

/-- The state right after module power-on reset (R397): the time base zero, every register at its reset value, no partition
formed, every slice held in reset until FUSE (R446), no group resident and nothing scheduled. -/
def State.reset : State :=
  { now := 0, mem := [], slices := [], prc := {}, grids := [], nbhs := [], asyncs := [], started := [], halts := [],
    saved := [], poison := [], tileLocks := [], leaseAll := [], lineCov := [], msis := [], outRead := 0, kicks := [], nextId := 1, fresh := 0, cur := .none, word := 0, schedule := [] }

end Sys2Proof.Machine
end

