-- ==== Sys2Proof/Machine/Ops.lean ====
section
/-! DEFINITION. The named operations over units and registers: reaching a slice, core, group or puppet slot, reading and writing
scalar registers by R137, words of system registers, time and free values, event routes and firmware events. -/

namespace Sys2Proof.Machine

/-! ### Tables and words -/

/-- Applies a function to every value of a table. -/
def tabMap {α β : Type} (f : Nat → α → β) (t : Tab α) : Tab β := t.map fun e => (e.1, f e.1 e.2)

/-- Entries whose value passes a test. -/
def tabFilter {α : Type} (f : Nat → α → Bool) (t : Tab α) : Tab α := t.filter fun e => f e.1 e.2

/-- The lowest number below `n` that passes a test. -/
def lowest (n : Nat) (f : Nat → Bool) : Option Nat := (List.range n).find? f

/-- A number as an index below a bound that is not 0. -/
def idx (n : Nat) [NeZero n] (x : Nat) : Fin n := Fin.ofNat n x

/-- Bits [hi:lo] of a word set to a number (R3). -/
def setBits {w : Nat} (x : BitVec w) (hi lo v : Nat) : BitVec w :=
  let m : BitVec w := BitVec.ofNat w ((2 ^ (hi + 1 - lo) - 1) * 2 ^ lo)
  (x &&& ~~~m) ||| (BitVec.ofNat w (v * 2 ^ lo) &&& m)

/-- Bit i of a word. -/
def bitAt {w : Nat} (x : BitVec w) (i : Nat) : Bool := x.getLsbD i

/-- Sets or clears bit i of a word. -/
def putBit {w : Nat} (x : BitVec w) (i : Nat) (b : Bool) : BitVec w := setBits x i i (if b then 1 else 0)

/-- Word i of a list of 32-bit words; words past the end read 0. -/
def wordAt (ws : List W32) (i : Nat) : W32 := ws.getD i 0

/-- The 64-bit value of words i and i + 1, the low word first. -/
def dwordAt (ws : List W32) (i : Nat) : Word := wordAt ws (i + 1) ++ wordAt ws i

/-- Sets word i of a list, extending it with zeros when it is short. -/
def setWord (ws : List W32) (i : Nat) (v : W32) : List W32 :=
  (ws ++ List.replicate (i + 1 - ws.length) 0).set i v

/-- Sets words i and i + 1 to a 64-bit value. -/
def setDword (ws : List W32) (i : Nat) (v : Word) : List W32 :=
  setWord (setWord ws i (v.extractLsb' 0 32)) (i + 1) (v.extractLsb' 32 32)

/-- The bytes of 32-bit words, little-endian (R2). -/
def wordsToBytes (ws : List W32) : List Byte := ws.flatMap fun w => natToBytes w.toNat 4

/-- Bytes to 32-bit words, little-endian; at most `n` words. -/
def bytesToWords : Nat → List Byte → List W32
  | 0, _ => []
  | n + 1, bs => BitVec.ofNat 32 (bytesToNat (bs.take 4)) :: bytesToWords n (bs.drop 4)

/-- The saturation helper of R12. -/
def satInt (x lo hi : Int) : Int := if x < lo then lo else if hi < x then hi else x

/-- The low `w` bits of an integer. -/
def ofInt (w : Nat) (x : Int) : BitVec w := BitVec.ofInt w x

/-! ### Units -/

/-- A slice of the module. -/
def State.slice (s : State) (i : SliceId) : Slice := tabGet {} s.slices i.val
/-- Replaces a slice. -/
def State.setSlice (s : State) (i : SliceId) (v : Slice) : State := { s with slices := tabSet s.slices i.val v }
/-- Changes a slice. -/
def State.modSlice (s : State) (i : SliceId) (f : Slice → Slice) : State := s.setSlice i (f (s.slice i))
/-- A core of the module. -/
def State.core (s : State) (c : CoreRef) : Core := tabGet {} (s.slice c.slice).cores c.core.val
/-- Replaces a core. -/
def State.setCore (s : State) (c : CoreRef) (v : Core) : State :=
  s.setSlice c.slice { s.slice c.slice with cores := tabSet (s.slice c.slice).cores c.core.val v }
/-- Changes a core. -/
def State.modCore (s : State) (c : CoreRef) (f : Core → Core) : State := s.setCore c (f (s.core c))
/-- The group in a slot; a free slot holds the default group. -/
def State.group (s : State) (g : GroupRef) : Group := tabGet {} (s.core g.at).groups g.slot.val
/-- Replaces a group. -/
def State.setGroup (s : State) (g : GroupRef) (v : Group) : State :=
  s.setCore g.at { s.core g.at with groups := tabSet (s.core g.at).groups g.slot.val v }
/-- Changes a group. -/
def State.modGroup (s : State) (g : GroupRef) (f : Group → Group) : State := s.setGroup g (f (s.group g))
/-- Changes a puppet slot. -/
def State.modPuppet (s : State) (c : CoreRef) (f : Puppet → Puppet) : State :=
  s.modCore c fun k => { k with puppet := f k.puppet }

/-- Every slice index. -/
def allSlices : List SliceId := [0, 1, 2, 3, 4, 5, 6, 7]

/-- The cores of a slice that hold state of their own. -/
def State.coresOf (s : State) (i : SliceId) : List CoreRef := (s.slice i).cores.map fun e => ⟨i, idx 144 e.1⟩
/-- Every core that holds state of its own. -/
def State.allCores (s : State) : List CoreRef := allSlices.flatMap s.coresOf
/-- The occupied or once occupied slots of a core. -/
def State.slotsOf (s : State) (c : CoreRef) : List GroupRef :=
  (s.core c).groups.map fun e => ⟨c.slice, c.core, idx 32 e.1⟩
/-- Every group slot that holds state of its own. -/
def State.allGroups (s : State) : List GroupRef := s.allCores.flatMap s.slotsOf

/-- A resident group: neither a free slot nor an exited group (R48). -/
def Group.resident (g : Group) : Bool := g.st != .free && g.st != .exited

/-- The scalar side of an agent. -/
def State.scOf (s : State) : Agent → Scalar
  | .none => {}
  | .scalar g => (s.group g).sc
  | .lane g _ => (s.group g).sc
  | .puppet c => (s.core c).puppet.sc

/-- Changes the scalar side of an agent. -/
def State.modSc (s : State) (a : Agent) (f : Scalar → Scalar) : State :=
  match a with
  | .none => s
  | .scalar g => s.modGroup g fun v => { v with sc := f v.sc }
  | .lane g _ => s.modGroup g fun v => { v with sc := f v.sc }
  | .puppet c => s.modPuppet c fun p => { p with sc := f p.sc }

/-- The agent behind a fetcher. -/
def fetcherAgent : Fetcher → Agent
  | .scalar g => .scalar g
  | .lane g k => .lane g k
  | .puppet c => .puppet c

/-- The core an agent runs on. -/
def agentCore : Agent → CoreRef
  | .none => ⟨0, 0⟩
  | .scalar g => g.at
  | .lane g _ => g.at
  | .puppet c => c

/-- The group of an agent; the puppet slot has none. -/
def agentGroup : Agent → Option GroupRef
  | .none => none
  | .scalar g => some g
  | .lane g _ => some g
  | .puppet _ => none

/-- The agent is a puppet slot. -/
def agentPuppet : Agent → Bool
  | .puppet _ => true
  | _ => false

/-! ### Scalar registers (R137) -/

/-- Reads a scalar register: `s0` is always 0. -/
def Scalar.read (c : Scalar) (r : BitVec 6) : Word := if r = 0 then 0 else tabGet 0 c.s r.toNat

/-- What a write stores: `mk0` to `mk2` keep bits [31:0]. -/
def storedIn (r : BitVec 6) (v : Word) : Word :=
  if 60 ≤ r.toNat && r.toNat ≤ 62 then v &&& 0xFFFFFFFF else v

/-- Writes a scalar register; a write of `s0` is discarded. The register is no longer an unread token (R311). -/
def Scalar.write (c : Scalar) (r : BitVec 6) (v : Word) : Scalar :=
  if r = 0 then c else { c with s := tabSet c.s r.toNat (storedIn r v), tokWct := putBit c.tokWct r.toNat false }

/-- The value of the executing agent's scalar register. -/
def State.sreg (s : State) (r : BitVec 6) : Word := (s.scOf s.cur).read r
/-- Writes the executing agent's scalar register. -/
def State.setSreg (s : State) (r : BitVec 6) (v : Word) : State := s.modSc s.cur fun c => c.write r v
/-- `GRP.SPC` of the executing agent. -/
def State.spc (s : State) : Word := (s.scOf s.cur).spc
/-- Sets `GRP.SPC` of the executing agent; the word is no longer waited on. -/
def State.setSpc (s : State) (v : Word) : State :=
  s.modSc s.cur fun c => { c with spc := v, wait := .none, remote := false }
/-- Moves past the word that executed (R63). -/
def State.advance (s : State) : State := s.setSpc (s.spc + 4)

/-- The mask of a set of scalar registers, `s0` left out. -/
def regMask (rs : List (BitVec 6)) : Word := rs.foldl (fun m r => if r = 0 then m else putBit m r.toNat true) 0

/-- The largest of `GRP.WCT` and a time (R311). -/
def Scalar.mergeWct (c : Scalar) (t : Word) : Scalar := { c with wct := if c.wct < t then t else c.wct }

/-- Reading a token for the first time carries its WCT field, bits [63:8], into `GRP.WCT` (R289, R311). -/
def Scalar.readTokens (c : Scalar) (rs : List (BitVec 6)) : Scalar :=
  rs.foldl (fun c r =>
    if bitAt c.tokWct r.toNat then
      { c.mergeWct (BitVec.ofNat 64 (bitsOf (c.read r) 63 8)) with tokWct := putBit c.tokWct r.toNat false }
    else c) c

/-! ### Free values and time -/

/-- Draws the next free value; part i of it. -/
def State.draw (s : State) : State := { s with fresh := s.fresh + 1 }
/-- The next free value as 64 bits. -/
def State.freeWord (s : State) : Word := (Config.freeValue s.fresh 0).extractLsb' 0 64
/-- The next free value's part i as 32 bits. -/
def State.freeLane (s : State) (i : Nat) : W32 := (Config.freeValue s.fresh i).extractLsb' 0 32
/-- The next free value's part i as 96 bits. -/
def State.freeElem (s : State) (i : Nat) : Acc96 := Config.freeValue s.fresh i

/-- Bits [n−1:0] of the time base, as stamps keep them (R397). -/
def State.stampBits (s : State) (n : Nat) : Nat := s.now.toNat % 2 ^ n

/-! ### System register words -/

/-- Reset values of `CORE.*` registers that are not 0 (R331, R430, R460). -/
def coreRegReset (n : Nat) : Word :=
  if n = 0x120 then 2000
  else if n = 0x1A3 then 20000
  else if n = 0x1B0 then 1
  else 0

/-- Reset values of `SLICE.*` registers that are not 0 (R19, R333, R368, R373, R389, R407, R416, R466). -/
def sliceRegReset (n : Nat) : Word :=
  if n = 0x400 then 0x2D
  else if n = 0x422 then 1000000
  else if 0x425 ≤ n && n ≤ 0x427 then 0x0003E8100100
  else if n = 0x42B then 1
  else if 0x484 ≤ n && n ≤ 0x4E3 then 0x80080200
  else if n = 0x4EA then 0x4000
  else if 0x6B0 ≤ n && n ≤ 0x6B7 then 0x14080
  else if 0x6B8 ≤ n && n ≤ 0x6BF then 0x10810
  else if 0x6C0 ≤ n && n ≤ 0x705 then 0xFF8
  else if 0x710 ≤ n && n ≤ 0x755 then 0x1010001008
  else if n = 0x769 then 1
  else 0

/-- Reset values of `PRC.*` registers that are not 0 (R23, R390, R459). -/
def prcRegReset (n : Nat) : Word :=
  if n = 0x809 then 0xF
  else if 0x840 ≤ n && n ≤ 0x847 then 0x100000
  else 0

/-- The stored word of a `CORE.*` register. -/
def State.coreReg (s : State) (c : CoreRef) (n : Nat) : Word := tabGet (coreRegReset n) (s.core c).regs n
/-- Stores the word of a `CORE.*` register. -/
def State.setCoreReg (s : State) (c : CoreRef) (n : Nat) (v : Word) : State :=
  s.modCore c fun k => { k with regs := tabSet k.regs n v }
/-- The stored word of a `SLICE.*` register. -/
def State.sliceReg (s : State) (i : SliceId) (n : Nat) : Word := tabGet (sliceRegReset n) (s.slice i).regs n
/-- Stores the word of a `SLICE.*` register. -/
def State.setSliceReg (s : State) (i : SliceId) (n : Nat) (v : Word) : State :=
  s.modSlice i fun k => { k with regs := tabSet k.regs n v }
/-- The stored word of a `PRC.*` register. -/
def State.prcReg (s : State) (n : Nat) : Word := tabGet (prcRegReset n) s.prc.regs n
/-- Stores the word of a `PRC.*` register. -/
def State.setPrcReg (s : State) (n : Nat) (v : Word) : State :=
  { s with prc := { s.prc with regs := tabSet s.prc.regs n v } }

/-- What the PRC holds for a partition. -/
def State.part (s : State) (p : PartId) : Part := tabGet {} s.prc.parts p.val
/-- Changes what the PRC holds for a partition. -/
def State.modPart (s : State) (p : PartId) (f : Part → Part) : State :=
  { s with prc := { s.prc with parts := tabSet s.prc.parts p.val (f (s.part p)) } }

/-! ### The partition map (R390) -/

/-- The `PRC.PMAPn` word. -/
def State.pmap (s : State) (p : PartId) : Word := s.prcReg (0x840 + p.val)
/-- The partition is fused. -/
def State.partValid (s : State) (p : PartId) : Bool := bitAt (s.pmap p) 8
/-- The slice is a member of the partition. -/
def State.member (s : State) (p : PartId) (i : SliceId) : Bool := s.partValid p && bitAt (s.pmap p) i.val
/-- Every partition number. -/
def allParts : List PartId := [0, 1, 2, 3, 4, 5, 6, 7]
/-- The partition that a slice belongs to. -/
def State.partOf (s : State) (i : SliceId) : Option PartId := allParts.find? fun p => s.member p i
/-- The partition number used for a slice's agents: that of the slice, 0 when it belongs to none. -/
def State.partOf! (s : State) (i : SliceId) : PartId := (s.partOf i).getD 0
/-- The member slices of a partition. -/
def State.memberSlices (s : State) (p : PartId) : List SliceId := allSlices.filter (s.member p)
/-- The lowest member slice of a partition. -/
def State.lowestSlice (s : State) (p : PartId) : Option SliceId := (s.memberSlices p).head?
/-- NSEG of a partition. -/
def State.nseg (s : State) (p : PartId) : Nat := bitsOf (s.pmap p) 34 25
/-- The slice that a partition is handing over (R450). -/
def State.leaving (s : State) (p : PartId) : Option SliceId := (s.part p).move.map fun m => m.slice
/-- The lease length L of a partition in ptick (R309). -/
def State.leaseLen (s : State) (p : PartId) : Nat := bitsOf (s.pmap p) 24 12

/-- The partition an agent works for. -/
def State.agentPart (s : State) : Agent → PartId
  | .none => 0
  | .scalar g => (s.group g).part
  | .lane g _ => (s.group g).part
  | .puppet c => s.partOf! c.slice

/-- The grid of a group. -/
def State.gridOf (s : State) (g : GroupRef) : Grid := tabGet {} s.grids (s.group g).grid
/-- Changes a grid. -/
def State.modGrid (s : State) (n : Nat) (f : Grid → Grid) : State := { s with grids := tabSet s.grids n (f (tabGet {} s.grids n)) }
/-- The workgroup of a group. -/
def State.wgOf (s : State) (g : GroupRef) : Option Workgroup := tabFind (s.core g.at).wgs (s.group g).wg
/-- Changes a workgroup of a core. -/
def State.modWg (s : State) (c : CoreRef) (n : Nat) (f : Workgroup → Workgroup) : State :=
  match tabFind (s.core c).wgs n with
  | some w => s.modCore c fun k => { k with wgs := tabSet k.wgs n (f w) }
  | none => s

/-- The ASID of an agent's accesses: the effective ASID of the grid's RCB (R375), or the partition's own. -/
def State.agentAsid (s : State) (a : Agent) : W16 :=
  match agentGroup a with
  | some g => (s.gridOf g).asid
  | none => Config.rootAsid (s.agentPart a)

/-- A new number for an operation, a grid or a neighbourhood. -/
def State.takeId (s : State) : State := { s with nextId := s.nextId + 1 }

/-! ### Event routes and firmware events (R175, R394, R395) -/

/-- Raises an event source on a slice's route: an MSI when the entry is enabled, else PEND. -/
def State.raiseSource (s : State) (i : SliceId) (src : Nat) : State :=
  let n := 0x770 + src
  let e := s.sliceReg i n
  if bitAt e 11 then
    { s.setSliceReg i n (setBits e 63 32 (s.stampBits 32)) with msis := ⟨src, i, e⟩ :: s.msis }
  else s.setSliceReg i n (setBits (putBit e 27 true) 63 32 (s.stampBits 32))

/-- Raises a source on the route of a partition's lowest member slice. -/
def State.raisePartSource (s : State) (p : PartId) (src : Nat) : State :=
  match s.lowestSlice p with
  | some i => s.raiseSource i src
  | none => s

/-- Puts a firmware event into an agent's queue of 64 (R175). An event that finds the queue full sets the overflow flag. -/
def State.fwEvent (s : State) (c : CoreRef) (kind arg : Nat) : State :=
  s.modPuppet c fun p =>
    if p.events.length < 64 then { p with events := p.events ++ [BitVec.ofNat 64 (arg * 256 + kind)], parked := false }
    else { p with overflow := true }

/-- Every agent of a partition: the puppet slots of its member slices' cores. -/
def State.agentsOf (s : State) (p : PartId) : List CoreRef :=
  (s.memberSlices p).flatMap fun i => (List.range 144).map fun k => ⟨i, idx 144 k⟩

/-- Sends a firmware event to every agent of a partition. -/
def State.fwEventAll (s : State) (p : PartId) (kind arg : Nat) : State :=
  (s.agentsOf p).foldl (fun s c => s.fwEvent c kind arg) s

/-! ### Performance counters (R413, R414) -/

/-- One counter of a core counts an event: code, and the tenant entry or the puppet slot it belongs to. `none` for an event of
no group. -/
def pmcCounts (sel : Word) (code : Nat) (ten : Option (Option Nat)) : Bool :=
  bitAt sel 25 && bitsOf sel 7 0 == code && code != 0 &&
    (match ten with
     | none => true
     | some (some t) => bitAt sel (8 + t)
     | some none => bitAt sel 24)

/-- Adds 1 to each of the core's counters that counts the event; a wrap sets OVF. -/
def State.count (s : State) (c : CoreRef) (code : Nat) (ten : Option (Option Nat)) : State :=
  (List.range 8).foldl (fun s n =>
    if pmcCounts (s.coreReg c (0x160 + n)) code ten then
      let v := s.coreReg c (0x168 + n)
      let k := bitsOf v 47 0 + 1
      s.setCoreReg c (0x168 + n) (if k = 2 ^ 48 then putBit (setBits v 47 0 0) 48 true else setBits v 47 0 k)
    else s) s

/-- Who an event of an agent belongs to, for `count`. -/
def State.tenantOf (s : State) (a : Agent) : Option (Option Nat) :=
  match a with
  | .none => none
  | .scalar g => some (some (s.group g).ten.toNat)
  | .lane g _ => some (some (s.group g).ten.toNat)
  | .puppet _ => some none

/-- An event of an agent is counted on its core. -/
def State.countFor (s : State) (a : Agent) (code : Nat) : State :=
  if a = .none then s else s.count (agentCore a) code (s.tenantOf a)

/-- An agent's stream waits at its present word (R45) for what a mask names. The time is that of the first wait at this
word, and a queue blocking point that is entered is counted (R414). -/
def State.waitAgent (s : State) (a : Agent) (w : Wait) (m : Word) : State :=
  let s := if w = .queue && (s.scOf a).wait != .queue then s.countFor a 0x0D else s
  let cov := (s.core (agentCore a)).cov
  s.modSc a fun c =>
    if c.wait = w then { c with waitMask := m } else { c with wait := w, waitMask := m, since := s.now, cover := if w = .stall then cov else c.cover }

/-- The executing agent's stream waits. -/
def State.waitFor (s : State) (w : Wait) (m : Word) : State := s.waitAgent s.cur w m

/-- The executing agent's stream waits, for a condition that needs no mask. -/
def State.waitOn (s : State) (w : Wait) : State := s.waitFor w 0

/-- Adds to a 64-bit counter register of a core (R412). -/
def State.bumpCoreReg (s : State) (c : CoreRef) (n : Nat) : State := s.setCoreReg c n (s.coreReg c n + 1)

/-! ### Usage counters (R408) -/

/-- Changes the usage counter set of a partition's present epoch and a UID. -/
def State.addUsage (s : State) (p : PartId) (uid : W16) (f : Usage → Usage) : State :=
  let ep : W16 := BitVec.ofNat 16 (bitsOf (s.prcReg (0x818 + p.val)) 15 0)
  s.modPart p fun q =>
    if q.usage.any fun u => u.epoch == ep && u.uid == uid then
      { q with usage := q.usage.map fun u => if u.epoch == ep && u.uid == uid then f u else u }
    else { q with usage := q.usage ++ [f { epoch := ep, uid := uid }] }

/-- The UID that an agent's work counts to: its tenant's, or 0. -/
def State.uidOf (s : State) (a : Agent) : W16 :=
  match agentGroup a with
  | some g => (s.gridOf g).uid
  | none => 0

/-- Bytes transferred at a memory controller (R408). -/
def State.countHbm (s : State) (p : PartId) (uid : W16) (n : Nat) : State :=
  s.addUsage p uid fun u => { u with hbmb := u.hbmb + BitVec.ofNat 64 n }

/-- An access of R262: the core's window-miss counter rises. -/
def State.windowMiss (s : State) (a : Agent) : State :=
  if a = .none then s else (s.bumpCoreReg (agentCore a) 0x102).countFor a 0x0A

end Sys2Proof.Machine
end

