-- ==== Sys2Proof/Machine/Faults.lean ====
section
/-! DEFINITION. Faults (R419, R420, R421), the halt line (R422, R504), the end of a pair (R225) and the fault entry of the puppet
slot (R168). Raising a fault leaves a next state. -/

namespace Sys2Proof.Machine

/-- The faults of R419 and of R169. -/
inductive Cause where
  | illegalInstruction | illegalEncoding | illegalType | illegalPrefix | privilege | registerBound | latchLost
  | headerMismatch | headerIntegrity | unsupported | silentDataError | queueMisuse | tokenMisuse | softwareTrap
  | translation | dyke | ecc | poisoned | headerAfar | external | watchdog | savedContext | badTicket | badQcb
  deriving DecidableEq, Repr

/-- The code of a fault in a stop record (R419). -/
def Cause.code : Cause → BitVec 8
  | .illegalInstruction => 0x01
  | .illegalEncoding => 0x02
  | .illegalType => 0x03
  | .illegalPrefix => 0x04
  | .privilege => 0x05
  | .registerBound => 0x06
  | .latchLost => 0x07
  | .headerMismatch => 0x08
  | .headerIntegrity => 0x09
  | .unsupported => 0x0A
  | .silentDataError => 0x0B
  | .queueMisuse => 0x0C
  | .tokenMisuse => 0x0D
  | .softwareTrap => 0x0E
  | .translation => 0x10
  | .dyke => 0x11
  | .ecc => 0x12
  | .poisoned => 0x13
  | .headerAfar => 0x14
  | .external => 0x20
  | .watchdog => 0x21
  | .savedContext => 0x22
  | .badTicket => 0x00
  | .badQcb => 0x00

/-- The cause of a fault in the puppet slot (R169). The faults of lane and matrix work do not arise there. -/
def Cause.puppet : Cause → Nat
  | .illegalEncoding => 0x02
  | .privilege => 0x03
  | .tokenMisuse => 0x04
  | .badTicket => 0x05
  | .badQcb => 0x06
  | .translation => 0x07
  | .dyke => 0x08
  | .ecc => 0x09
  | .poisoned => 0x09
  | .softwareTrap => 0x0A
  | _ => 0x01

/-- The fault of an encoding check. -/
def Cause.ofEnc : EncFault → Cause
  | .illegalInstruction => .illegalInstruction
  | .illegalEncoding => .illegalEncoding
  | .illegalPrefix => .illegalPrefix
  | .illegalType => .illegalType

/-- The group behind a fetcher. -/
def fetcherGroup : Fetcher → Option GroupRef
  | .scalar g => some g
  | .lane g _ => some g
  | .puppet _ => none

/-! ### Pairs (R225) -/

/-- The value that a waiting n-th `xswap` of the pair receives, among the sends made so far; zeros when there is none. -/
def Pair.valueOf (p : Pair) (n : Nat) : List Word := (p.unmatched[n - p.recvs - 1]?).getD []

/-- A group's exchanges under way when its pair ends: they complete with what was sent, or with zeros. -/
def Group.settleSwaps (v : Group) (p : Pair) : Group :=
  { v with
    pair := none,
    held := v.held.map fun h =>
      match h.kind with
      | .swap n since none => { h with kind := .swap n since (some (p.valueOf n)) }
      | _ => h }

/-- Changes the other half of a pair, of a resident group or of a saved one. -/
def State.otherHalf (s : State) (g : GroupRef) (id : Nat) (f : Pair → Pair) : State :=
  match s.allGroups.find? fun h => h != g && ((s.group h).pair.map (·.id)) == some id with
  | some h => s.modGroup h fun v => { v with pair := v.pair.map f }
  | none =>
    { s with saved := s.saved.map fun a =>
        { a with groups := a.groups.map fun (x : SavedGroup) =>
            if (x.v.pair.map (·.id)) == some id then { x with v := { x.v with pair := x.v.pair.map f } } else x } }

/-- The pair of a number ends for whoever holds a half of it. The sends already made stay with their receiver. -/
def State.endHalves (s : State) (id : Nat) : State :=
  let f (v : Group) : Group :=
    { v with pair := v.pair.map fun q => if q.id = id then { q with ended := true } else q }
  let s := s.allGroups.foldl (fun s g => if ((s.group g).pair.map (·.id)) == some id then s.modGroup g f else s) s
  { s with saved := s.saved.map fun a => { a with groups := a.groups.map fun (x : SavedGroup) => { x with v := f x.v } } }

/-- A group's pair ends, for the group and for its partner. -/
def State.endPair (s : State) (g : GroupRef) : State :=
  match (s.group g).pair with
  | none => s
  | some p => (s.modGroup g fun v => v.settleSwaps p).endHalves p.id

/-- A post of the group that still waits is removed, its token never written (R49). -/
def State.dropPosts (s : State) (g : GroupRef) : State :=
  { s with slices := tabMap (fun _ (k : Slice) => { k with pairTab := k.pairTab.filter fun x =>
      match x.token with | .reg f _ => fetcherGroup f != some g | _ => true }) s.slices }

/-! ### Membership of a fault domain (R29) -/

/-- The nearest fault domain of a group's grid. -/
def State.domainOf (s : State) (g : GroupRef) : Word := ((s.gridOf g).domains.head?).getD 0

/-- A grid lies in the domain's subtree. -/
def Grid.inDomain (r : Grid) (p : PartId) (dom : Word) : Bool := r.part == p && r.domains.contains dom

/-- The resident groups of a domain. -/
def State.domainGroups (s : State) (p : PartId) (dom : Word) : List GroupRef :=
  s.allGroups.filter fun g => (s.group g).resident && (s.gridOf g).inDomain p dom

/-- The domain, or a domain that holds it, is halted. -/
def State.isHalted (s : State) (p : PartId) (doms : List Word) : Bool :=
  s.halts.any fun h => h.part == p && doms.contains h.dom

/-! ### Operations in progress -/

/-- Asynchronous and matrix operations of a group that are not complete (R49, R146). -/
def State.asyncCount (s : State) (g : GroupRef) : Nat :=
  (s.asyncs.filter fun o => fetcherGroup o.issuer == some g && !o.saved).length + ((s.core g.at).mops.filter fun o => o.slot == g.slot).length

/-- A batch entry's operations have all completed (R256). -/
def State.batchDone (s : State) (g : GroupRef) (ops : List Nat) : Bool :=
  ops.all fun n => !(s.core g.at).mops.any (·.id == n) && !s.asyncs.any (·.id == n)

/-- Batch entries closed and incomplete, one bit each (R424). -/
def State.batchMask (s : State) (g : GroupRef) : W16 :=
  (s.group g).batches.foldl (fun m e => if s.batchDone g e.2 then m else putBit m e.1 true) 0

/-- A run of unpredictable bytes (R7). -/
def State.freeBytes (s : State) (n : Nat) : List Byte :=
  (List.range n).map fun i => (Config.freeValue s.fresh i).extractLsb' 0 8

/-- The data of a matrix register becomes unpredictable: tile registers 0 to 7, accumulators 8 to 11, whose NaN counter goes with their
elements (R238). -/
def State.spoilReg (s : State) (c : CoreRef) (n : Nat) : State :=
  (s.modCore c fun x =>
    if n < 8 then { x with tiles := tabSet x.tiles n { tabGet {} x.tiles n with data := memWrite [] 0 (s.freeBytes 8192) } }
    else
      { x with accs := tabSet x.accs (n - 8) { tabGet {} x.accs (n - 8) with
          elems := (List.range 4096).map fun i => (i, s.freeElem i), nanc := s.freeLane 4096 } }).draw

/-- The registers that a matrix operation reads: tile registers 0 to 7, accumulators 8 to 11. -/
def MatKind.reads : MatKind → List Nat
  | .mloop o => operandRegs o.a o.ah.length ++ operandRegs o.b o.bh.length ++ [8 + o.acc.toNat]
  | .mvec o => operandRegs o.a o.ah.length ++ operandRegs o.b o.bh.length ++ [8 + o.acc.toNat]
  | .mdrain n _ _ _ _ => [8 + n.toNat]
  | .mcvt _ fromAcc n _ _ => [if fromAcc then 8 + n.toNat else n.toNat]
  | _ => []
where
  operandRegs (o : Operand) (n : Nat) : List Nat :=
    match o with
    | .tiles first => (List.range n).map fun i => (first.toNat + i) % 8
    | _ => []

/-- The registers that a matrix operation writes. -/
def MatKind.writes : MatKind → List Nat
  | .mloop o => [8 + o.acc.toNat]
  | .mvec o => [8 + o.acc.toNat]
  | .mzero tile n _ => [if tile then n.toNat else 8 + n.toNat]
  | .mload tile n _ _ _ => [if tile then n.toNat else 8 + n.toNat]
  | .mcvt d _ _ _ _ => [d.toNat]
  | .mdrain _ _ _ _ _ => []

/-- An operation of the move pipe (R237). -/
def MatKind.isMove : MatKind → Bool
  | .mloop _ => false
  | .mvec _ => false
  | _ => true

/-- The earlier operations of the same group that share a register with an operation have completed (R237). -/
def matFree (ops : List MatOp) (o : MatOp) : Bool :=
  !(ops.any fun p => decide (p.id < o.id) && p.slot == o.slot
      && (p.kind.reads ++ p.kind.writes).any fun r => (o.kind.reads ++ o.kind.writes).contains r)

/-- Abandoning the operation under way in the move pipe leaves unpredictable values in its destination register (R422). -/
def State.abandonMove (s : State) (c : CoreRef) (mine : MatOp → Bool) : State :=
  match (s.core c).mops.find? fun o => o.kind.isMove with
  | some o =>
    if mine o && matFree (s.core c).mops o then o.kind.writes.foldl (fun s n => s.spoilReg c n) s else s
  | none => s

/-- Bypass latches are lost: their valid bits are cleared (R185). -/
def Group.loseLatches (v : Group) : Group :=
  { v with bl := tabMap (fun _ l => { l with valid := false }) v.bl }

/-! ### The halt line (R422, R504) -/

/-- A group stops at a halt: it enters Stopped, keeps its slot, loses its latches, and its pair ends (R422, R436). -/
def State.haltGroup (s : State) (g : GroupRef) : State :=
  if (s.group g).halted then s
  else
    let b := s.batchMask g
    let n := s.asyncCount g
    (s.modGroup g fun v =>
      { v.loseLatches with
        st := .stopped, halted := true, stoppedAt := s.now, stamp := s.now, stopBatch := b, stopAsync := n,
        stepping := false, lstepping := false }).endPair g

/-- The matrix pipes of a core stop for the groups of a domain: one record per workgroup with an operation incomplete, named by its
oldest; the operation under way in the move pipe is abandoned (R422, R504). -/
def State.haltMatrix (s : State) (c : CoreRef) (inDom : GroupRef → Bool) : State × List StopUnit :=
  let ref (o : MatOp) : GroupRef := ⟨c.slice, c.core, o.slot⟩
  let mine := (s.core c).mops.filter fun o => inDom (ref o)
  let wgs := (mine.map fun o => (s.group (ref o)).wg).eraseDups
  let units := wgs.filterMap fun w =>
    (mine.find? fun o => (s.group (ref o)).wg == w).map fun o =>
      { kind := 2, g := ref o, wg := ((s.wgOf (ref o)).map (·.idx)).getD 0, pc := o.word, time := s.now : StopUnit }
  let s := s.abandonMove c fun o => inDom (ref o)
  (s.modCore c fun k => { k with mops := k.mops.filter fun o => !inDom (ref o) }, units)

/-- An operation was issued by a group of the domain, resident or saved. -/
def State.ofDomain (s : State) (p : PartId) (dom : Word) (o : AsyncOp) : Bool :=
  (fetcherGroup o.issuer).isSome && (tabGet {} s.grids o.grid).inDomain p dom

/-- Operations end: the tile locks that they hold are released (R292). -/
def State.dropAsyncs (s : State) (gone : AsyncOp → Bool) : State :=
  let locks := (s.asyncs.filter gone).filterMap (·.lock)
  { s with asyncs := s.asyncs.filter fun o => !gone o, tileLocks := s.tileLocks.filter fun p => !locks.contains p }

/-- An all-or-nothing store that has taken its lock completes whole (R292, R422). -/
def AsyncOp.whole (o : AsyncOp) : Bool :=
  match o.kind with
  | .tstore _ _ _ _ => o.lock.isSome && !o.done
  | _ => false

/-- Copies, tile stores and storage chains of a domain's groups end; their tokens are never written. An all-or-nothing store that has
begun completes whole (R422, R504). -/
def State.haltEngines (s : State) (p : PartId) (dom : Word) : State × List StopUnit :=
  let units := s.asyncs.filterMap fun o =>
    if s.ofDomain p dom o then
      (fetcherGroup o.issuer).map fun g =>
        { kind := match o.kind with | .storq _ _ => 4 | _ => 3, g := g, wg := o.widx, pc := o.word, time := s.now : StopUnit }
    else none
  let t := s.dropAsyncs fun o => s.ofDomain p dom o && !o.whole
  ({ t with asyncs := t.asyncs.map fun o => if s.ofDomain p dom o then { o with token := .none } else o }, units)

/-- Raises the halt line of a domain (R422). A domain already halted is not halted anew (R425). -/
def State.raiseHalt (s : State) (p : PartId) (dom : Word) (cause : BitVec 8) (raiser : Option Nat) : State :=
  if s.halts.any fun h => h.part == p && h.dom == dom then s
  else
    let gs := s.domainGroups p dom
    let inDom (g : GroupRef) : Bool := gs.contains g
    let s := gs.foldl State.haltGroup s
    let (s, us) := (gs.map GroupRef.at).eraseDups.foldl
      (fun (acc : State × List StopUnit) c => let (s, u) := acc.1.haltMatrix c inDom; (s, acc.2 ++ u)) (s, [])
    let (s, vs) := s.haltEngines p dom
    let saving := s.allCores.filterMap fun c =>
      let e := (s.core c).preempt
      match tabFind (s.core c).wgs e.wg with
      | some w => if e.state = 2#2 && (tabGet {} s.grids w.grid).inDomain p dom
          then some { kind := 5, g := ⟨c.slice, c.core, 0⟩, wg := w.idx, pc := e.area, time := s.now : StopUnit } else none
      | none => none
    { s with halts := s.halts ++ [{ part := p, dom := dom, cause := cause, at' := s.now, units := us ++ vs ++ saving,
                                    raiser := raiser }] }

/-! ### The puppet slot (R168, R169) -/

/-- A fault in a puppet slot: `CORE.PEPC` and `CORE.PCAUSE` are written; the first one enters the handler at `CORE.PHVEC`, a nested one
stops the agent until the PRC restarts it. -/
def State.puppetFault (s : State) (c : CoreRef) (cause : Nat) (pc : Word) : State :=
  let nest := bitAt (s.coreReg c 0x103) 8
  let s := s.setCoreReg c 0x105 pc
  let s := s.setCoreReg c 0x103 (BitVec.ofNat 64 (cause + 256 + s.stampBits 48 * 65536))
  if nest then s.modPuppet c fun p => { p with stopped := true }
  else s.modPuppet c fun p => { p with sc := { p.sc with spc := s.coreReg c 0x104, wait := .none, remote := false } }

/-! ### Raising a fault -/

/-- What a group's stop record will say of its fault (R424). The first fault of a group that has stopped keeps its record. -/
def Group.recordFault (v : Group) (c : Cause) (precise lane : Bool) (split : Fin 4) (addr : Word) (detail : BitVec 8)
    (word : W32) (origin : Bool) (now : Word) : Group :=
  if v.faultCode = 0 then
    { v with faultCode := c.code, faultPrec := precise, faultLane := lane, faultSplit := split, faultAddr := addr,
             faultDetail := detail, faultInstr := word, origin := origin, faultAt := now }
  else v

/-- A group raises a fault: its record is set and the halt line of its fault domain is raised (R422). After the header of the domain's
halt has been written, the group's record is written anew (R425). -/
def State.groupFault (s : State) (g : GroupRef) (c : Cause) (precise lane : Bool) (split : Fin 4) (addr : Word)
    (detail : BitVec 8) (word : W32) : State :=
  let p := (s.group g).part
  let dom := s.domainOf g
  let late := s.halts.any fun h => h.part == p && h.written && (s.gridOf g).domains.contains h.dom
  let s := s.modGroup g fun v => v.recordFault c precise lane split addr detail word (!late) s.now
  if late then
    { s with halts := s.halts.map fun h =>
        if h.part == p && (s.gridOf g).domains.contains h.dom
        then { h with recorded := h.recorded.filter (· != g) } else h }
  else if s.isHalted p (s.gridOf g).domains then s
  else s.raiseHalt p dom c.code (some (s.group g).grid)

/-- Raises a precise fault at the executing agent's instruction (R12, R420, R168). -/
def State.raiseWith (s : State) (c : Cause) (addr : Word) : State :=
  match s.cur with
  | .none => s
  | .scalar g => s.groupFault g c true false 0 addr 0 s.word
  | .lane g k => s.groupFault g c true true k addr 0 s.word
  | .puppet k => s.puppetFault k c.puppet s.spc

/-- Raises a precise fault that records no address. -/
def State.raise (s : State) (c : Cause) : State := s.raiseWith c 0

/-- An agent has raised a precise fault, or the puppet slot any, between two states. -/
def State.faulted (s t : State) : Agent → Bool
  | .none => false
  | .scalar g => (s.group g).faultCode == 0 && (t.group g).faultCode != 0 && (t.group g).faultPrec
  | .lane g _ => (s.group g).faultCode == 0 && (t.group g).faultCode != 0 && (t.group g).faultPrec
  | .puppet c => (!bitAt (s.coreReg c 0x103) 8 && bitAt (t.coreReg c 0x103) 8) || (!(s.core c).puppet.stopped && (t.core c).puppet.stopped)

/-- Raises a fault from afar for an access of an agent (R275, R421): the issuing word and its address, the faulting address and
DETAIL. A free slot learns nothing of it. -/
def State.raiseAfar (s : State) (a : Agent) (c : Cause) (addr : Word) (detail : BitVec 8) (word : W32) (pc : Word) : State :=
  match a with
  | .none => s
  | .scalar g => if (s.group g).resident then s.groupFault g c false false 0 addr detail word else s
  | .lane g k => if (s.group g).resident then s.groupFault g c false true k addr detail word else s
  | .puppet k => s.puppetFault k c.puppet pc

/-- The unit of a halt that a fault belongs to: an engine by its issuing word, the matrix pipes by their workgroup. -/
def StopUnit.isOf (u : StopUnit) (kind : Nat) (g : GroupRef) (wg : W32) (pc : Word) : Bool :=
  u.kind == kind && u.cause == 0 && u.g.at == g.at && u.wg == wg && (kind == 2 || (u.g == g && u.pc == pc))

/-- Sets what an engine's stop record says of its fault; an engine that the halt did not find adds a record (R424, R425). -/
def Halt.markUnit (h : Halt) (origin : Bool) (new : StopUnit) : Halt :=
  let same (u : StopUnit) : Bool := u.isOf new.kind new.g new.wg new.pc
  match h.units.find? same with
  | some u =>
    if h.written then h
    else { h with units := h.units.map fun x => if x = u then { u with cause := new.cause, origin := origin, addr := new.addr,
                                                                       detail := new.detail, instr := new.instr } else x }
  | none => { h with units := h.units ++ [new] }

/-- An engine raises a fault for an operation of a group (R275, R421): the halt line of the grid's domain, and the engine's own record. -/
def State.unitFault (s : State) (kind : Nat) (g : GroupRef) (grid : Nat) (wg : W32) (pc : Word) (c : Cause) (addr : Word)
    (detail : BitVec 8) (instr : W32) : State :=
  let r := tabGet {} s.grids grid
  let first := !s.isHalted r.part r.domains
  let s := if first then s.raiseHalt r.part (r.domains.headD 0) c.code (some grid) else s
  let u : StopUnit := { kind := kind, g := g, wg := wg, pc := pc, cause := c.code, origin := first, addr := addr, detail := detail,
                        instr := instr, time := s.now }
  { s with halts := s.halts.map fun h => if h.part == r.part && r.domains.contains h.dom then h.markUnit first u else h }

end Sys2Proof.Machine
end

