-- ==== Sys2Proof/Machine/Operands.lean ====
section
/-! DEFINITION. The operand forms of lane instructions: which operands an instruction names and how wide each is (R75, R77), how a
source reads (R177, R178, R184, R188, R324, R325), the queue step of R323, and how a result is written (R179 to R184, R188). -/

namespace Sys2Proof.Machine

/-! ### Masks -/

/-- The mask of all 96 lanes. -/
def fullMask : Mask := BitVec.allOnes 96

/-- The lane indices. -/
def lanes : List Nat := List.range 96

/-- Lanes of a mask in increasing order. -/
def maskLanes (m : Mask) : List Nat := lanes.filter m.getLsbD

/-- The mask of the lanes that pass a test. -/
def maskOf (f : Nat → Bool) : Mask := lanes.foldl (fun m l => if f l then putBit m l true else m) 0

/-- The number of lanes in a mask. -/
def maskCount (m : Mask) : Nat := (maskLanes m).length

/-- The value of lane L in a list of lane values. -/
def laneVal (vs : List Word) (l : Nat) : Word := vs.getD l 0

/-! ### Vector registers -/

/-- The 32-bit value that lane L reads from a vector register (R178). -/
def VReg.lane (r : VReg) (l : Nat) : W32 :=
  match r.shape with
  | .u => r.base
  | .a => r.base + BitVec.ofNat 32 l * r.step
  | .g => r.data.getD l 0

/-- A vector register of a group; a register never written holds the state of group start (R37). -/
def Group.vreg (v : Group) (n : Nat) : VReg := tabGet {} v.v n
/-- Replaces a vector register, which is no longer clean (R434). -/
def Group.setVreg (v : Group) (n : Nat) (r : VReg) : Group := { v with v := tabSet v.v n r, cleanV := putBit v.cleanV n false }
/-- The value of one lane of a register, or of a pair (R77). -/
def Group.laneOf (v : Group) (n : Nat) (wide : Bool) (l : Nat) : Word :=
  if wide then (v.vreg (n + 1)).lane l ++ (v.vreg n).lane l else ((v.vreg n).lane l).setWidth 64
/-- A predicate: `p7` reads all ones (R75). -/
def Group.pred (v : Group) (n : Nat) : Mask := if n = 7 then fullMask else tabGet 0 v.p n

/-- What a covering result is described by (R179). -/
structure Tag where
  shape : Shape := .g
  base  : W32 := 0
  step  : W32 := 0
  deriving DecidableEq, Repr

/-- A tag of shape A with step 0 is U (R179). -/
def Tag.norm (t : Tag) : Tag :=
  if t.shape = .a && t.step = 0 then { t with shape := .u } else t

/-- The tag that a vector register reads with. A pair reads as U when both registers do (R179). -/
def Group.vtag (v : Group) (n : Nat) (wide : Bool) : Tag :=
  let r := v.vreg n
  if wide then
    (if r.shape = .u && (v.vreg (n + 1)).shape = .u then { shape := .u, base := r.base } else {})
  else { shape := r.shape, base := r.base, step := r.step }

/-- SPILL returns to 0 at the first read of a filled register (R181). Its value does not change. -/
def Group.unspill (v : Group) (n : Nat) : Group :=
  let r := v.vreg n
  if r.spill = 0 then v else { v with v := tabSet v.v n { r with spill := 0 } }

/-- Writes one vector register in the lanes of `acted`: the tag after a covering write, else G (R179, R180, R182). -/
def Group.writeV (v : Group) (n : Nat) (acted : Mask) (zero : Bool) (f : Nat → W32) (t : Tag) : Group :=
  if acted = fullMask then
    match t.shape with
    | .g => v.setVreg n { shape := .g, data := lanes.map f }
    | s => v.setVreg n { shape := s, base := t.base, step := if s = .a then t.step else 0 }
  else
    let r := v.vreg n
    v.setVreg n { shape := .g, data := lanes.map fun l => if acted.getLsbD l then f l else if zero then 0 else r.lane l }

/-- Every lane of a register, or of both registers of a pair, set to one value with tag U (R156). -/
def Group.writeUniform (v : Group) (n : Nat) (wide : Bool) (x : Word) : Group :=
  let v := v.setVreg n { shape := .u, base := x.extractLsb' 0 32 }
  if wide then v.setVreg (n + 1) { shape := .u, base := x.extractLsb' 32 32 } else v

/-! ### Queues (R320, R322, R323) -/

/-- The core of a neighbourhood with index k (R35). -/
def Nbh.coreAt (n : Nbh) (k : Nat) : CoreRef := ⟨n.slice, idx 144 (n.core0 + k / n.w * 6 + k % n.w)⟩

/-- The core that index k names for a group: of its neighbourhood, or its own. -/
def State.kCore (s : State) (g : GroupRef) (k : Nat) : CoreRef :=
  match (s.wgOf g).bind (·.nbh) with
  | some n => (tabGet { grid := 0, w := 1, h := 1, slice := g.slice, core0 := g.core.val } s.nbhs n).coreAt k
  | none => g.at

/-- The neighbourhood core index of a group: 0 outside a neighbourhood (R35). -/
def State.kOf (s : State) (g : GroupRef) : Nat := ((s.wgOf g).map (·.k)).getD 0

/-- The hardware queue that a name is bound to: its core and number. -/
def State.boundQueue (s : State) (g : GroupRef) (name : Nat) : Option (CoreRef × Nat) :=
  let b := tabGet {} (s.group g).binds name
  if b.valid then some (s.kCore g b.k.toNat, b.hq.toNat) else none

/-- A hardware queue of a core. -/
def State.queue (s : State) (q : CoreRef × Nat) : HwQueue := tabGet {} (s.core q.1).hq q.2
/-- Replaces the entries of a hardware queue. -/
def State.setEntries (s : State) (q : CoreRef × Nat) (es : List QEntry) : State :=
  s.modCore q.1 fun k => { k with hq := tabSet k.hq q.2 { (tabGet {} k.hq q.2) with entries := es } }

/-! ### Which operands an instruction names -/

/-- Operand widths of a lane instruction: whether A, B, C, D and the destination are read or written as 64-bit values (R77, R216,
R279, R281, R283). -/
structure Wides where
  a : Bool
  b : Bool
  c : Bool
  d : Bool
  dst : Bool
  deriving DecidableEq, Repr

/-- The operand widths. -/
def laneWides (i : Instr) (w : LaneWord) : Wides :=
  let e := is64 w.typ
  match i with
  | .cvt _ => { a := cvt64 (bitsOf w.imm 5 0), b := false, c := false, d := false, dst := cvt64 (bitsOf w.imm 11 6) }
  | .ld l _ => { a := l == 5, b := e, c := e, d := e, dst := e }
  | .ldg l _ => { a := l == 5, b := e, c := e, d := e, dst := e }
  | .st l _ => { a := l == 5, b := e, c := e, d := e, dst := e }
  | .stsc l _ => { a := l == 5, b := e, c := e, d := e, dst := e }
  | .amo _ _ _ => { a := true, b := e, c := e, d := e, dst := e }
  | .lwatch _ => { a := true, b := e, c := e, d := e, dst := e }
  | _ => { a := e, b := e, c := e, d := e, dst := e }

/-- The prefix's D code; 0xFF without a prefix. -/
def dCode (w : LaneWord) : BitVec 8 := match w.pre with | some p => p.d | none => 0xFF

/-- The source codes that an instruction names, in the order SA, SB, SC, D, each with its width (R323). -/
def laneSources (i : Instr) (w : LaneWord) : List (BitVec 8 × Bool) :=
  match laneForm i with
  | none => []
  | some f =>
    let ws := laneWides i w
    (if f.useA then [(w.sa, ws.a)] else []) ++ (if f.useB then [(w.sb, ws.b)] else [])
      ++ (if f.useC then [(w.sc, ws.c)] else []) ++ (if f.four then [(dCode w, ws.d)] else [])

/-- The code names a vector register. -/
def isV (c : BitVec 8) : Bool := !c.getLsbD 7
/-- The code names a latch. -/
def isBl (c : BitVec 8) : Bool := c.toNat / 8 == 0x10
/-- The code names a queue. -/
def isQ (c : BitVec 8) : Bool := c.toNat / 16 == 9
/-- The code names a predicate. -/
def isP (c : BitVec 8) : Bool := c.toNat / 8 == 0x14

/-- The vector registers that a code names. -/
def codeRegs (c : BitVec 8) (wide : Bool) : List Nat :=
  if isV c then (if wide then [c.toNat, c.toNat + 1] else [c.toNat]) else []

/-- A register operand at or above the allotment (R86, step 6). -/
def beyondAllotment (i : Instr) (w : LaneWord) (nreg : Nat) : Bool :=
  ((laneSources i w) ++ [(w.dst, (laneWides i w).dst)]).any fun e => (codeRegs e.1 e.2).any fun n => nreg ≤ n

/-- A source latch whose valid bit is clear (R186). -/
def lostLatch (v : Group) (i : Instr) (w : LaneWord) : Bool :=
  (laneSources i w).any fun e => isBl e.1 && !(tabGet {} v.bl (e.1.toNat % 8)).valid

/-- The instruction reads or writes a register, predicate or latch that an unreturned load or atomic of the group writes (R280). -/
def awaitsLoad (v : Group) (i : Instr) (w : LaneWord) : Bool :=
  let named := (laneSources i w) ++ [(w.dst, (laneWides i w).dst)]
  v.sc.memq.any fun o =>
    match o.dest with
    | .lane dst wide _ _ cap =>
      named.any (fun e =>
        (codeRegs e.1 e.2).any (fun n => (codeRegs dst wide).contains n) || (isP dst && e.1 == dst)
          || (isBl e.1 && cap == some (e.1.extractLsb' 0 3)))
        || (w.cap && cap == some w.latch) || (match w.pre with | some p => isP dst && dst.extractLsb' 0 3 == p.pred | none => false)
    | _ => false

/-- The width at which an operand stands for a queue entry: that of the type, and in `cvt` that of the operand's format (R324, R325). -/
def queueWide (i : Instr) (w : LaneWord) (wide : Bool) : Bool := match i with | .cvt _ => wide | _ => is64 w.typ

/-- A name that the group has not bound, or a 64-bit type naming a name bound to a 384-byte queue (R326). -/
def State.queueMisuse (s : State) (g : GroupRef) (i : Instr) (w : LaneWord) : Bool :=
  ((laneSources i w) ++ [(w.dst, (laneWides i w).dst)]).any fun e =>
    isQ e.1 &&
      (match s.boundQueue g (e.1.toNat % 16) with
       | none => true
       | some q => queueWide i w e.2 && (s.queue q).wide)

/-! ### The queue step (R323) -/

/-- What the queue step of an instruction finds: it can take place, or the stream is at the queue blocking point. -/
inductive QStep where
  | ready (pops : List (Nat × QEntry)) (s : State)
  | blocked (push : Bool)

/-- The distinct names among an instruction's sources, in the order of R323. -/
def popNames (i : Instr) (w : LaneWord) : List Nat :=
  (((laneSources i w).filter fun e => isQ e.1).map fun e => e.1.toNat % 16).eraseDups

/-- The name that an instruction pushes. -/
def pushName (w : LaneWord) : Option Nat := if isQ w.dst then some (w.dst.toNat % 16) else none

/-- Pops the names in turn; a reserved entry counts. -/
def State.popAll (s : State) (g : GroupRef) : List Nat → List (Nat × QEntry) → QStep
  | [], acc => .ready acc s
  | n :: ns, acc =>
    match s.boundQueue g n with
    | none => .blocked false
    | some q =>
      match (s.queue q).entries with
      | [] => .blocked false
      | e :: es => (s.setEntries q es).popAll g ns (acc ++ [(n, e)])

/-- The whole step of some names: the pops, and room for the push once they are counted. -/
def State.stepNames (s : State) (g : GroupRef) (pops : List Nat) (dst : Option Nat) : QStep :=
  match s.popAll g pops [], dst with
  | .ready r t, some n =>
    (match t.boundQueue g n with
     | none => .blocked true
     | some q => if (t.queue q).entries.length < (t.queue q).depth then .ready r t else .blocked true)
  | x, _ => x

/-- The queues that some names use, each with whether it is pushed. -/
def State.stepQueues (s : State) (g : GroupRef) (pops : List Nat) (dst : Option Nat) : List ((CoreRef × Nat) × Bool) :=
  (pops.filterMap fun n => (s.boundQueue g n).map fun q => (q, false)) ++ (dst.bind fun n => (s.boundQueue g n).map fun q => (q, true)).toList

/-- What a stream or split of a group that waits on queues waits for: its number, and the names. -/
def Group.queueWaits (v : Group) : List (Nat × List Nat × Option Nat) :=
  (v.splits.filterMap fun e => match e.2.wait with | .queue _ no pops dst => if e.2.used then some (no, pops, dst) else none | _ => none)
    ++ (if v.sc.wait == .queue then
          [(v.sc.waitNo, if bitAt v.sc.waitMask 4 then ([], some (bitsOf v.sc.waitMask 3 0)) else ([bitsOf v.sc.waitMask 3 0], none))] else [])

/-- One that began to wait earlier on a queue of a step, in the same direction, can take its own step now, and goes first (R327). -/
def State.queueHeld (s : State) (g : GroupRef) (no : Nat) (pops : List Nat) (dst : Option Nat) : Bool :=
  let mine := s.stepQueues g pops dst
  !mine.isEmpty && s.allGroups.any fun h =>
    ((s.group h).st == .active || (s.group h).st == .ready || (s.group h).st == .blocked) && (s.group h).queueWaits.any fun x =>
      decide (x.1 < no) && (s.stepQueues h x.2.1 x.2.2).any mine.contains
        && (match s.stepNames h x.2.1 x.2.2 with | .ready _ _ => true | _ => false)

/-- The whole step of an instruction, for a split that began to wait as the `no`-th. -/
def State.queueStep (s : State) (g : GroupRef) (no : Nat) (i : Instr) (w : LaneWord) : QStep :=
  match s.stepNames g (popNames i w) (pushName w) with
  | .ready r t => if s.queueHeld g no (popNames i w) (pushName w) then .blocked (popNames i w).isEmpty else .ready r t
  | x => x

/-! ### Reading a source -/

/-- An FP32 pattern carried exactly into FP64 (R77). -/
def widenF32 (x : W32) : Word :=
  let e := bitsOf x 30 23
  let f := bitsOf x 22 0
  let sgn := if x.getLsbD 31 then 2 ^ 63 else 0
  if e = 255 then BitVec.ofNat 64 (sgn + 0x7FF * 2 ^ 52 + f * 2 ^ 29)
  else if e = 0 then
    (if f = 0 then BitVec.ofNat 64 sgn
     else
       let k := Nat.log2 f
       BitVec.ofNat 64 (sgn + (k + 874) * 2 ^ 52 + (f - 2 ^ k) * 2 ^ (52 - k)))
  else BitVec.ofNat 64 (sgn + (e + 896) * 2 ^ 52 + f * 2 ^ 29)

/-- IMM32 as a source (R77). -/
def immValue (typ : BitVec 4) (wide : Bool) (imm : W32) : Word :=
  if !wide then imm.setWidth 64
  else if typ = 2#4 then imm.signExtend 64
  else if typ = 7#4 then widenF32 imm
  else imm.setWidth 64

/-- One source of a lane instruction: its value in each of the 96 lanes, 32-bit values zero-extended, and its tag (R179). -/
structure Src where
  vals : List Word
  tag  : Tag
  deriving DecidableEq, Repr

/-- A source that reads one value in every lane. -/
def Src.uniform (x : Word) : Src := { vals := List.replicate 96 x, tag := { shape := .u, base := x.extractLsb' 0 32 } }

/-- The value an entry gives to lane L (R324, R325). -/
def QEntry.lane (e : QEntry) (wide : Bool) (l : Nat) : Word :=
  if e.wide then (e.lanes.getD l 0).setWidth 64 else if wide then e.value else (e.value.extractLsb' 0 32).setWidth 64

/-- Reads a source operand. `split` is the executing record, and `wide` the operand's width. -/
def State.source (s : State) (g : GroupRef) (split : Fin 4) (pops : List (Nat × QEntry)) (i : Instr) (w : LaneWord) (c : BitVec 8)
    (wide : Bool) : Src :=
  let v := s.group g
  if isV c then { vals := lanes.map (v.laneOf c.toNat wide), tag := v.vtag c.toNat wide }
  else if isBl c then
    let d := (tabGet {} v.bl (c.toNat % 8)).data
    { vals := lanes.map fun l => if wide then d.getD l 0 else ((d.getD l 0).extractLsb' 0 32).setWidth 64, tag := {} }
  else if isQ c then
    match pops.find? fun e => e.1 == c.toNat % 16 with
    | some e => { vals := lanes.map fun l => e.2.lane (queueWide i w wide) l, tag := {} }
    | none => Src.uniform 0
  else if isP c then
    let m := v.pred (c.toNat % 8)
    { vals := lanes.map fun l => boolWord (m.getLsbD l), tag := {} }
  else if c = 0xC0#8 then { vals := lanes.map fun l => BitVec.ofNat 64 l, tag := { shape := if wide then .g else .a, base := 0, step := 1 } }
  else if c = 0xC1#8 then Src.uniform (BitVec.ofNat 64 split.val)
  else if c = 0xC2#8 then Src.uniform (BitVec.ofNat 64 (s.kOf g))
  else if c = 0xFE#8 then Src.uniform (immValue w.typ wide w.imm)
  else Src.uniform 0

/-! ### Writing a result -/

/-- Captures a result into a latch (R184). -/
def Group.capture (v : Group) (n : BitVec 3) (wide : Bool) (acted : Mask) (zero : Bool) (vals : List Word) : Group :=
  let old := tabGet {} v.bl n.toNat
  let f (l : Nat) : Word :=
    if acted.getLsbD l then (if wide then laneVal vals l else ((laneVal vals l).extractLsb' 0 32).setWidth 64)
    else if zero then 0 else old.data.getD l 0
  { v with bl := tabSet v.bl n.toNat { valid := true, data := lanes.map f } }

/-- The entry that a push makes of a result (R324, R325). -/
def pushEntry (big : Bool) (wide : Bool) (acted : Mask) (vals : List Word) : QEntry :=
  if big then { wide := true, lanes := lanes.map fun l => if acted.getLsbD l then (laneVal vals l).extractLsb' 0 32 else 0 }
  else
    match maskLanes acted with
    | [] => { value := 0 }
    | l :: _ => { value := if wide then laneVal vals l else ((laneVal vals l).extractLsb' 0 32).setWidth 64 }

/-- The tag of each register of the destination, by the result's value in lane 0 when it is uniform (R179). -/
def resultTags (wide : Bool) (t : Tag) (vals : List Word) : Tag × Tag :=
  let x := laneVal vals 0
  if wide then
    (if t.shape = .u then ({ shape := .u, base := x.extractLsb' 0 32 }, { shape := .u, base := x.extractLsb' 32 32 }) else ({}, {}))
  else if t.shape = .u then ({ shape := .u, base := x.extractLsb' 0 32 }, {})
  else (t, {})

/-- Writes a result into a vector register or pair, a predicate or nothing (R182, R188). -/
def Group.writeDest (v : Group) (dst : BitVec 8) (wide : Bool) (acted : Mask) (zero : Bool) (vals : List Word) (t : Tag) : Group :=
  if isV dst then
    let n := dst.toNat
    let ts := resultTags wide t vals
    let v := v.writeV n acted zero (fun l => (laneVal vals l).extractLsb' 0 32) ts.1
    if wide then v.writeV (n + 1) acted zero (fun l => (laneVal vals l).extractLsb' 32 32) ts.2 else v
  else if isP dst then
    let n := dst.toNat % 8
    let old := v.pred n
    let one (l : Nat) : Bool := if wide then laneVal vals l != 0 else (laneVal vals l).extractLsb' 0 32 != 0
    let m := maskOf fun l => if acted.getLsbD l then one l else if zero then false else old.getLsbD l
    { v with p := tabSet v.p n m }
  else v

/-- A group's popped entries as a fill leaves them. -/
def Group.fillPopped (v : Group) (f : QEntry → QEntry) : Group :=
  { v with held := v.held.map fun h => { h with pops := h.pops.map fun e => (e.1, f e.2) }, sc := { v.sc with popped := v.sc.popped.map f } }

/-- The reserved entry of an operation is filled, where it stands in its queue or with the instruction that has popped it (R323). -/
def State.fillEntry (s : State) (op : Nat) (wide : Bool) (acted : Mask) (vals : List Word) : State :=
  let f (e : QEntry) : QEntry := if !e.filled && e.op == op then pushEntry e.wide wide acted vals else e
  let s := s.allCores.foldl (fun s c => s.modCore c fun k =>
    { k with hq := tabMap (fun _ (q : HwQueue) => { q with entries := q.entries.map f }) k.hq,
             groups := tabMap (fun _ v => v.fillPopped f) k.groups }) s
  { s with saved := s.saved.map fun a => { a with groups := a.groups.map fun (x : SavedGroup) => { x with v := x.v.fillPopped f } } }

/-- Writes the result of a lane instruction to its destination, pushing onto a queue destination, and captures it when CAP is set.
`op` is 0 for a result that is there, or the memory operation whose reserved entry it fills. -/
def State.writeResult (s : State) (g : GroupRef) (dst : BitVec 8) (wide : Bool) (acted : Mask) (zero : Bool)
    (cap : Option (BitVec 3)) (op : Nat) (vals : List Word) (t : Tag) : State :=
  let s := s.modGroup g fun v =>
    let v := v.writeDest dst wide acted zero vals t
    match cap with
    | some n => v.capture n wide acted zero vals
    | none => v
  if isQ dst then
    if op = 0 then
      match s.boundQueue g (dst.toNat % 16) with
      | none => s
      | some q => s.setEntries q ((s.queue q).entries ++ [pushEntry (s.queue q).wide wide acted vals])
    else s.fillEntry op wide acted vals
  else s

/-- Reserves the entry of a queue destination for a result that comes later (R323); an entry reserved already under a number of its own, which is
not 0, takes the new one. -/
def State.reserveEntry (s : State) (g : GroupRef) (dst : BitVec 8) (old op : Nat) : State :=
  if isQ dst then
    if old = 0 then
      match s.boundQueue g (dst.toNat % 16) with
      | none => s
      | some q => s.setEntries q ((s.queue q).entries ++ [{ filled := false, op := op, wide := (s.queue q).wide }])
    else
      let f (e : QEntry) : QEntry := if !e.filled && e.op == old then { e with op := op } else e
      s.allCores.foldl (fun s c => s.modCore c fun k =>
        { k with hq := tabMap (fun _ (q : HwQueue) => { q with entries := q.entries.map f }) k.hq,
                 groups := tabMap (fun _ v => v.fillPopped f) k.groups }) s
  else s

/-! ### The end of a block (R39, R199) -/

/-- A split record of a group. -/
def Group.split (v : Group) (k : Nat) : Split := tabGet {} v.splits k

/-- No lane load, atomic or exchange of a group has still to write its destination (R199). -/
def Group.lanesQuiet (v : Group) : Bool :=
  v.held.isEmpty && v.sc.memq.all fun o => match o.dest with | .lane _ _ _ _ _ => false | _ => true

/-- The block ends when every lane has reached `lend` (R39) and its register writes, captures and queue pushes have all taken effect (R199). -/
def Group.endBlock (v : Group) : Group :=
  if v.waiting.isEmpty && ((List.range 4).all fun k => !(v.split k).used || (v.split k).atEnd) && v.lanesQuiet then
    { v with block := none, splits := [] }
  else v

end Sys2Proof.Machine
end

