-- ==== Sys2Proof/Machine/Inject.lean ====
section
/-! DEFINITION. Corrected errors and seep counters (R267, R406, R407), and the fault injector (R416 to R418). -/

namespace Sys2Proof.Machine

/-! ### Seep counters -/

/-- The kind of a seep counter by its index (R406). -/
def seepKind (n : Nat) : Nat := if n < 1024 then 0 else if n < 10240 then 1 else 2

/-- MARK of a kind. -/
def State.seepMark (s : State) (i : SliceId) (kind : Nat) : Nat := bitsOf (s.sliceReg i (0x425 + kind)) 15 0
/-- WCE. -/
def State.seepWce (s : State) (i : SliceId) (kind : Nat) : Nat := bitsOf (s.sliceReg i (0x425 + kind)) 23 16
/-- LEAK in ptick. -/
def State.seepLeak (s : State) (i : SliceId) (kind : Nat) : Nat := bitsOf (s.sliceReg i (0x425 + kind)) 47 24 * 1000000

/-- A counter crosses MARK: its record, the event on the owning partition's route, and the notice to the PRC (R407). -/
def State.seepCross (s : State) (i : SliceId) (n v : Nat) : State :=
  let s := s.setSliceReg i 0x42A (BitVec.ofNat 64 (n + v * 2 ^ 16 + s.stampBits 32 * 2 ^ 32))
  let s := if (s.partOf i).isSome then s.raiseSource i 0x4 else s
  { s with prc := { s.prc with mgmt := [4, BitVec.ofNat 32 i.val, BitVec.ofNat 32 n, BitVec.ofNat 32 v] :: s.prc.mgmt } }

/-- A corrected error adds WCE to its counter, which saturates; a rise to MARK raises when the counter is armed. -/
def State.correctedError (s : State) (i : SliceId) (n : Nat) : State :=
  let k := seepKind n
  let c : Seep := tabGet {} (s.slice i).seep n
  let v := min 65535 (c.value.toNat + s.seepWce i k)
  let cross := decide (c.value.toNat < s.seepMark i k) && decide (s.seepMark i k ≤ v) && c.armed
  let s := s.modSlice i fun x =>
    { x with seep := tabSet x.seep n { value := BitVec.ofNat 16 v, armed := c.armed && !cross, stamp := s.now } }
  if cross then s.seepCross i n v else s

/-- The HBM channel of an offset in a slice's HBM (R389). -/
def State.hbmChannel (s : State) (i : SliceId) (o : Nat) : Nat :=
  let w := s.sliceReg i 0x769
  let g := o / (256 * 4 ^ bitsOf w 2 1)
  let x : BitVec 64 := BitVec.ofNat 64 g
  bitsOf x 5 0 ^^^ (if bitAt w 0 then bitsOf x 11 6 ^^^ bitsOf x 17 12 else 0)

/-! ### The injector -/

/-- One step of the injector's LFSR. -/
def injectorNext (x : Word) : Word :=
  let y := x >>> 1
  if bitAt x 0 then y ^^^ 0xD800000000000000 else y

/-- An opportunity of a kind: the LFSR steps, and the state it leaves decides. An injection is counted. -/
def State.opportunity (s : State) (i : SliceId) (kind : Nat) : State × Bool :=
  let c := s.sliceReg i 0x42C
  if bitAt c 42 && bitAt c (32 + kind) then
    let x := injectorNext (s.sliceReg i 0x42B)
    let s := s.setSliceReg i 0x42B x
    if bitsOf x 63 32 < bitsOf c 31 0 then
      (s.setSliceReg i 0x42D (setBits (s.sliceReg i 0x42D) 31 0 ((bitsOf (s.sliceReg i 0x42D) 31 0 + 1) % 2 ^ 32)), true)
    else (s, false)
  else (s, false)

/-- An opportunity of a corrected error, counted in a seep counter whose index may hang on a free value. -/
def State.injectCorrected (s : State) (i : SliceId) (kind : Nat) (index : Nat → Nat) : State :=
  match s.opportunity i kind with
  | (t, true) => t.draw.correctedError i (index t.freeWord.toNat)
  | (t, false) => t

/-- The opportunities of a read at a home: of HBM when the line is filled, and of the L2. Whether an uncorrectable error strikes it: then source
0xA is raised for the slice that holds the line (R429). An error of the L2 has no seep counter. -/
def State.readErrors (s : State) (home holder : SliceId) (pa : Nat) (fill : Bool) : State × Bool :=
  let (s, a) := if fill then
      (s.injectCorrected holder 0 fun x => s.hbmChannel holder (pa % 2 ^ 37) * 16 + x % 16).opportunity holder 1
    else (s, false)
  let (s, _) := s.opportunity home 2
  let (s, b) := s.opportunity home 3
  (if a || b then s.raiseSource holder 0xA else s, a || b)

/-- The opportunity of a read of a core's scratchpad. -/
def State.scratchErrors (s : State) (c : CoreRef) : State := s.injectCorrected c.slice 4 fun _ => 10240 + c.cluster

/-- The opportunities of the beats of a lane instruction. -/
def State.beatErrors (s : State) (c : CoreRef) : Nat → State
  | 0 => s
  | n + 1 => (s.injectCorrected c.slice 5 fun x => 1024 + c.core.val * 64 + x % 64).beatErrors c n

/-- The opportunity of a lane instruction: the second mask copy is corrupted, so that TRK1 differs from TRK0 (R203). -/
def State.maskErrors (s : State) (g : GroupRef) : State :=
  match s.opportunity g.slice 6 with
  | (t, true) => t.draw.modGroup g fun v => { v with sig := v.sig ^^^ BitVec.ofNat 64 (2 ^ (48 + t.freeWord.toNat % 16)) }
  | (t, false) => t

/-- A tile header is read: an injection flips one of its bits. -/
def State.headerErrors (s : State) (i : SliceId) (h : List W32) : State × List W32 :=
  match s.opportunity i 9 with
  | (t, true) =>
    let b := t.freeWord.toNat % 256
    (t.draw, setWord h (b / 32) (wordAt h (b / 32) ^^^ BitVec.ofNat 32 (2 ^ (b % 32))))
  | (t, false) => (t, h)

end Sys2Proof.Machine
end

