-- ==== Sys2Proof/Machine/Mem.lean ====
section
/-! DEFINITION. Where an access goes and what it does there: windows (R259 to R262), homes (R261, R265, R382), the walk (R268, R384,
R385), the dykes (R391, R392), bogs and miss records (R269, R270, R387), leases and completion times (R309 to R312), the L1 (R264),
and the operations in flight of an agent (R276, R277, R280, R281, R300 to R302). -/

namespace Sys2Proof.Machine

/-! ### Homes -/

/-- The live segments of a partition in partition order (R261): slice and segment. Those of a slice that it hands over leave with the step
that interleaves anew (R451). -/
def State.liveSegs (s : State) (p : PartId) : List (SliceId × Nat) :=
  let gone (i : SliceId) : Bool := match (s.part p).move with | some m => m.slice == i && decide (4 ≤ m.step) | none => false
  ((s.memberSlices p).filter (!gone ·)).flatMap fun i => ((List.range 64).filter fun k => bitAt (Config.fuseMap i) k).map fun k => (i, k)

/-- The bytes of a partition's chip scratchpad (R377). -/
def State.chipSize (s : State) (p : PartId) : Nat := (s.liveSegs p).length * 0x80000

/-- The home segment of a chip-scratchpad byte (R261). -/
def State.chipHome (s : State) (p : PartId) (off : Nat) : Option (SliceId × Nat) :=
  let segs := s.liveSegs p
  segs[off / 64 % segs.length]?

/-- The default hash of a line number (R382). -/
def hashLine (l : Nat) : Nat :=
  (bitsOf (BitVec.ofNat 58 l) 8 0) ^^^ (bitsOf (BitVec.ofNat 58 l) 17 9) ^^^ (bitsOf (BitVec.ofNat 58 l) 26 18)
    ^^^ (bitsOf (BitVec.ofNat 58 l) 35 27) ^^^ (bitsOf (BitVec.ofNat 58 l) 44 36) ^^^ (bitsOf (BitVec.ofNat 58 l) 49 45)

/-- Partition segments selected by SET of an address-range entry (R381). -/
def artSet (e : List W32) : List Nat := (List.range 512).filter fun i => bitAt (wordAt e (8 + i / 32)) (i % 32)

/-- An address-range entry covers a line (R382). -/
def artCovers (e : List W32) (l : Nat) : Bool :=
  bitAt (wordAt e 0) 0 && decide ((dwordAt e 2).toNat ≤ 64 * l) && decide (64 * l < (dwordAt e 4).toNat)

/-- The partition segment of a line in an entry that covers it (R382). -/
def artHome (e : List W32) (l : Nat) : Nat :=
  let stride := bitsOf (wordAt e 0) 7 1
  let dv := bitsOf (wordAt e 0) 17 8
  let rel := l - (dwordAt e 2).toNat / 64
  let span := ((dwordAt e 4).toNat - (dwordAt e 2).toNat) / 64
  let stripe := stride * dv
  let k := if rel < span / stripe * stripe then rel / stride % dv else hashLine l % dv
  (artSet e).getD k 0

/-- The address-range table in force for a partition: that of its lowest slice (R381). -/
def State.artOf (s : State) (p : PartId) : List (List W32) :=
  match s.lowestSlice p with
  | some i => (s.slice i).art.map (·.2)
  | none => []

/-- The home of a virtual line of a partition (R382): slice and segment. -/
def State.home (s : State) (p : PartId) (l : Nat) : SliceId × Nat :=
  let segs := s.liveSegs p
  let k := match (s.artOf p).find? (artCovers · l) with
    | some e => artHome e l
    | none => hashLine l % segs.length
  segs.getD k (0, 0)

/-! ### Windows -/

/-- The start of the window region (R259). -/
def windowBase : Nat := 0x00FF000000000000

/-- The workgroup of a grid with the lowest number that is resident on a core (R260): the lowest index in the grid. -/
def State.lowestWg (s : State) (c : CoreRef) (grid : Nat) : Option (Nat × Workgroup) :=
  (s.core c).wgs.foldl (fun best e =>
    if e.2.grid = grid then
      match best with
      | some b => if e.2.idx < b.2.idx then some e else best
      | none => some e
    else best) none

/-- A place in a workgroup's scratchpad, when the offset is below its SPAD_BYTES. -/
def spadPlace (c : CoreRef) (n : Nat) (w : Workgroup) (x : Nat) : Place := if x < w.spadLen then .spad c n x else .unmapped

/-- The place of an offset in the window region for an agent, and for a lane of its group when a lane makes the access (R260). -/
def State.windowPlace (s : State) (a : Agent) (lane : Option Nat) (x : Nat) : Place :=
  match agentGroup a with
  | none =>
    if 0x10000000 ≤ x && x < 0x20000000 && x - 0x10000000 < s.chipSize (s.agentPart a) then
      .chip (s.agentPart a) (x - 0x10000000)
    else .unmapped
  | some g =>
    let v := s.group g
    if x < 0x80000 then
      match s.wgOf g with
      | some w => spadPlace g.at v.wg w x
      | none => .unmapped
    else if 0x01000000 ≤ x && x < 0x02000000 then
      let k := (x - 0x01000000) / 0x80000
      let off := (x - 0x01000000) % 0x80000
      match s.wgOf g with
      | none => .unmapped
      | some w =>
        match w.nbh with
        | none => if k = 0 then spadPlace g.at v.wg w off else .unmapped
        | some n =>
          match tabFind s.nbhs n with
          | none => .unmapped
          | some nb =>
            if k < nb.w * nb.h then
              match (s.core (nb.coreAt k)).wgs.find? fun e => e.2.nbh == some n with
              | some e => spadPlace (nb.coreAt k) e.1 e.2 off
              | none => .unmapped
            else .unmapped
    else if 0x02000000 ≤ x && x < 0x02C00000 then
      let c : CoreRef := ⟨g.slice, idx 144 (g.at.cluster * 24 + (x - 0x02000000) / 0x80000)⟩
      match s.lowestWg c v.grid with
      | some e => spadPlace c e.1 e.2 ((x - 0x02000000) % 0x80000)
      | none => .unmapped
    else if 0x10000000 ≤ x && x < 0x20000000 then
      let r := s.gridOf g
      if x - 0x10000000 < r.csLim then .chip v.part (r.csBase + (x - 0x10000000)) else .unmapped
    else if 0x20000000 ≤ x then
      match lane, s.wgOf g with
      | some l, some w =>
        if x - 0x20000000 < w.lpLen then .lanePriv g.at v.wg ((v.gix * 96 + l) * w.lpLen + (x - 0x20000000)) else .unmapped
      | _, _ => .unmapped
    else .unmapped

/-- The place of a virtual address (R259, R260, R268). -/
def State.placeOf (s : State) (a : Agent) (asid : W16) (lane : Option Nat) (va : Word) : Place :=
  if bitsOf va 63 56 ≠ 0 then .badAddress va
  else if bitsOf va 55 48 = 0xFF then s.windowPlace a lane (va.toNat - windowBase)
  else .global asid va

/-- Bytes from an offset of a memory of a given length; a byte at or beyond the length reads 0 (R262). -/
def boundedRead (m : Memory) (len off n : Nat) : List Byte :=
  (List.range n).map fun i => if off + i < len then memGet m (off + i) else 0

/-- Writes bytes below the length; the others are discarded (R262). -/
def boundedWrite (m : Memory) (len off : Nat) (bs : List Byte) : Memory := memWrite m off (bs.take (len - off))

/-- Reads bytes of an on-chip place; unmapped reads zero (R262). -/
def State.chipRead (s : State) (pl : Place) (n : Nat) : List Byte :=
  match pl with
  | .spad c w off =>
    match tabFind (s.core c).wgs w with
    | some g => boundedRead g.spad g.spadLen off n
    | none => List.replicate n 0
  | .lanePriv c w off =>
    match tabFind (s.core c).wgs w with
    | some g => boundedRead g.lp (g.groups * 96 * g.lpLen) off n
    | none => List.replicate n 0
  | .chip p off => boundedRead (s.part p).chip (s.chipSize p) off n
  | _ => List.replicate n 0

/-- Bytes that an incomplete matrix operation of a core may read are written: of the scratchpad (0), scale memory (1) or HBM (2) (R257). -/
def State.hitOps (s : State) (c : CoreRef) (space off n : Nat) : State :=
  if (s.core c).mops.isEmpty then s
  else s.modCore c fun k => { k with mops := k.mops.map fun o => { o with hits := (space, off, n) :: o.hits } }

/-- A completed operation is a drain, whose bytes in the scratchpad may still turn out unpredictable (R238). -/
def MatOp.drained (o : MatOp) : Bool := match o.kind with | .mdrain _ _ _ _ _ => true | _ => false

/-- Bytes of the scratchpad of the workgroup that owns a core's matrix registers are written. -/
def State.hitSpad (s : State) (c : CoreRef) (off n : Nat) : State :=
  let s := s.hitOps c 0 off n
  if (s.core c).mlog.any MatOp.drained then
    s.modCore c fun k => { k with mlog := k.mlog.map fun o => if o.drained then { o with hits := (0, off, n) :: o.hits } else o }
  else s

/-- Writes bytes of an on-chip place; unmapped discards them (R262). The written 4 KiB chunks are no longer clean (R434). -/
def State.chipWrite (s : State) (pl : Place) (bs : List Byte) : State :=
  match pl with
  | .spad c w off =>
    let s := if ((tabFind (s.core c).wgs w).map (·.matrix)) == some true then s.hitSpad c off bs.length else s
    s.modWg c w fun g =>
      { g with spad := boundedWrite g.spad g.spadLen off bs,
               cleanS := (List.range (bs.length / 4096 + 2)).foldl
                 (fun m i => if off / 4096 + i ≤ (off + bs.length - 1) / 4096 then putBit m (off / 4096 + i) false else m) g.cleanS }
  | .lanePriv c w off => s.modWg c w fun g => { g with lp := boundedWrite g.lp (g.groups * 96 * g.lpLen) off bs }
  | .chip p off => s.modPart p fun q => { q with chip := boundedWrite q.chip (s.chipSize p) off bs }
  | _ => s

/-! ### Translation (R384, R385) -/

/-- Access kinds of R270: 1 read, 2 write, 3 atomic, 4 fetch, 5 engine read, 6 engine write, 7 watch. -/
abbrev Kind := Nat

/-- A table entry as it stands in memory. -/
def State.tableEntry (s : State) (a : Nat) : Word := BitVec.ofNat 64 (memReadLE s.mem a 8)

/-- PA of a table entry, as an address. -/
def entryPa (e : Word) : Nat := bitsOf e 47 12 * 4096

/-- An entry that ends the walk: V = 0 or a must-be-zero bit set (R385). -/
def entryBad (e : Word) : Bool := !bitAt e 0 || bitsOf e 11 7 != 0 || bitsOf e 63 48 != 0

/-- The 4 KiB entry by which a controller translates an address of a CTG group (R385). -/
def State.ctgEntry (s : State) (asid : W16) (table va : Nat) (e : Word) : Word :=
  let first := va / 4096 % 512 / 16 * 16
  let c := s.tableEntry (table + 8 * (first + (Config.contiguousChoice asid (va / 65536)).val))
  if entryBad c || !bitAt c 1 || !bitAt c 6 then e else c

/-- The walk below a table, with `n` levels left: the physical address and the leaf entry. -/
def State.walkFrom (s : State) (asid : W16) (va : Nat) : Nat → Nat → Option (Nat × Word)
  | 0, _ => none
  | n + 1, table =>
    let sh := 12 + 9 * n
    let ix := if n = 3 then va / 2 ^ 39 % 131072 else va / 2 ^ sh % 512
    let e := s.tableEntry (table + 8 * ix)
    if entryBad e then none
    else if bitAt e 1 then
      (if n = 3 || entryPa e % 2 ^ sh ≠ 0 then none
       else if n = 0 && bitAt e 6 then
         let c := s.ctgEntry asid table va e
         some (entryPa c / 65536 * 65536 + va % 65536, c)
       else some (entryPa e + va % 2 ^ sh, e))
    else if n = 0 then none
    else s.walkFrom asid va n (entryPa e)

/-- The ASID directory of a slice's partition. The slices must hold one value: while they do not, it is unpredictable (R6, R384). -/
def State.asidDir (s : State) (i : SliceId) : Nat :=
  let same := match s.partOf i with
    | some p => (s.memberSlices p).all fun j => bitsOf (s.sliceReg j 0x760) 55 19 == bitsOf (s.sliceReg i 0x760) 55 19
    | none => true
  bitsOf (if same then s.sliceReg i 0x760 else s.freeWord) 55 19 * 2 ^ 19

/-- The walk of a controller of a slice (R384). -/
def State.walk (s : State) (i : SliceId) (asid : W16) (va : Nat) : Option (Nat × Word) :=
  let dir := s.asidDir i
  let d := s.tableEntry (dir + 8 * asid.toNat)
  if !bitAt d 0 || bitsOf d 19 1 ≠ 0 || bitsOf d 63 48 ≠ 0 then none
  else s.walkFrom asid va 4 (bitsOf d 47 20 * 2 ^ 20)

/-- The leaf allows the access kind (R385). -/
def kindAllowed (e : Word) (k : Kind) : Bool :=
  if k = 2 || k = 6 then bitAt e 3
  else if k = 3 then bitAt e 2 && bitAt e 3
  else if k = 4 then bitAt e 4
  else bitAt e 2

/-! ### Dykes (R391, R392) -/

/-- Packets of a partition with a request for an address pass a port in one direction. -/
def State.dykePort (s : State) (i : SliceId) (port : Nat) (p : PartId) (inward : Bool) (pa : Nat) (rd wr : Bool) : Bool :=
  let e := s.sliceReg i (0x780 + port)
  bitAt e 16 && bitAt e (if inward then p.val else 8 + p.val) &&
    (List.range 4).any fun j =>
      let b := s.sliceReg i (0x790 + 2 * (4 * port + j))
      let l := s.sliceReg i (0x791 + 2 * (4 * port + j))
      bitAt b 5 && bitsOf b 2 0 == p.val && decide (bitsOf b 47 12 * 4096 ≤ pa) && decide (pa < bitsOf l 47 12 * 4096)
        && (!rd || bitAt b 3) && (!wr || bitAt b 4)

/-- A request crosses from the partition's slices to another slice. The route is not given: some port out and some port in pass it. -/
def State.dykeCross (s : State) (p : PartId) (t : SliceId) (pa : Nat) (rd wr : Bool) : Bool :=
  s.member p t ||
    (((s.memberSlices p).any fun i => (List.range 11).any fun q => s.dykePort i q p false pa rd wr)
      && (List.range 11).any fun q => s.dykePort t q p true pa rd wr)

/-- What a physical address names (R388). -/
inductive Target where
  | hbm (t : SliceId)
  | pcie (t : SliceId) (port : Nat)
  | mailbox
  | aperture (t : SliceId) (off : Nat)
  | nothing
  deriving DecidableEq, Repr

/-- Decodes a physical address (R388). -/
def targetOf (pa : Nat) : Target :=
  let hi := pa / 2 ^ 40
  if hi = 0 then .hbm (idx 8 (pa / 2 ^ 37))
  else if 0x10 ≤ hi && hi ≤ 0x17 then .pcie (idx 8 (hi - 0x10)) (pa / 2 ^ 39 % 2)
  else if hi = 0x20 then .mailbox
  else if 0x30 ≤ hi && hi ≤ 0x37 then .aperture (idx 8 (hi - 0x30)) (pa % 2 ^ 40)
  else .nothing

/-- A group or agent of a partition passes the dykes to a physical address. Of an aperture it reaches the doorbell pages of its own
partition's slices only (R317, R454). -/
def State.dykePass (s : State) (p : PartId) (pa : Nat) (rd wr : Bool) : Bool :=
  match targetOf pa with
  | .hbm t => s.dykeCross p t pa rd wr
  | .pcie t port => s.dykeCross p t pa rd wr && s.dykePort t (11 + port) p false pa rd wr
  | .mailbox => false
  | .aperture t off => s.member p t && decide (0x1000000000 ≤ off) && decide (off < 0x1000000000 + 4096 * 4096)
  | .nothing => false

/-- The name of a line: ASID and virtual line number. -/
def lineKey (asid : W16) (l : Nat) : Nat := asid.toNat * 2 ^ 58 + l

/-- The line that a die caches under a name, with its physical line (R265, R273). -/
def Slice.lineOf (k : Slice) (key : Nat) : Option (Nat × L2Line) := k.l2.find? fun e => e.2.key == key

/-- What an access to a global address meets (R268, R269, R392). `hc` is the page's host-coherent flag. -/
inductive Reach where
  | ok (pa : Nat) (hc : Bool)
  | miss
  | dyke
  deriving DecidableEq, Repr

/-- Translates an address at its home's controller and checks the dykes. -/
def State.translate (s : State) (p : PartId) (asid : W16) (va : Word) (k : Kind) : Reach :=
  let h := s.home p (va.toNat / 64)
  match s.walk h.1 asid va.toNat with
  | none => .miss
  | some (pa, e) =>
    if !kindAllowed e k then .miss
    else if s.dykePass p pa (k != 2 && k != 6) (k == 2 || k == 3 || k == 6) then .ok pa (bitAt e 5)
    else .dyke

/-- What an access meets: a line that its home's L2 holds under the name stands where it was filled from, and any other access is
translated (R265, R268). -/
def State.reach (s : State) (p : PartId) (asid : W16) (va : Word) (k : Kind) : Reach :=
  match (s.slice (s.home p (va.toNat / 64)).1).lineOf (lineKey asid (va.toNat / 64)) with
  | some (pl, x) => .ok (pl * 64 + va.toNat % 64) x.hc
  | none => s.translate p asid va k

/-! ### Bogs and miss records (R269, R270, R387) -/

/-- LOG of `SLICE.MRBASE`. -/
def State.ringLog (s : State) (i : SliceId) : Nat := max 4 (min 16 (bitsOf (s.sliceReg i 0x763) 4 0))
/-- The miss ring's address; 0 when there is none. -/
def State.ringBase (s : State) (i : SliceId) : Nat := bitsOf (s.sliceReg i 0x763) 55 12 * 4096

/-- A controller may write a record (R387). -/
def State.ringRoom (s : State) (i : SliceId) : Bool :=
  s.ringBase i != 0 && decide ((s.sliceReg i 0x764 - s.sliceReg i 0x765).toNat < 2 ^ s.ringLog i)

/-- The agent behind a requester and whether it is an engine. -/
def State.requester (s : State) : Requester → Agent × Bool
  | .memop f _ => (fetcherAgent f, false)
  | .fetch f => (fetcherAgent f, false)
  | .asyncOp n =>
    match s.asyncs.find? (·.id == n) with
    | some o => (fetcherAgent o.issuer, true)
    | none => (.none, true)
  | .matop c n =>
    match (s.core c).mops.find? (·.id == n) with
    | some o => (.scalar ⟨c.slice, c.core, o.slot⟩, true)
    | none => (.puppet c, true)
  | .queue i q _ => (.puppet ⟨i, idx 144 q.val⟩, false)
  | .saved p id =>
    match (s.saved.filter (·.part == p)).findSome? fun a => a.groups.find? fun x => x.v.sc.memq.any (·.id == id) with
    | some x => (.scalar x.was, false)
    | none => (.none, false)
  | .save c => (.puppet c, true)

/-- The partition under which a requester's access goes. -/
def State.reqPart (s : State) : Requester → PartId
  | .memop f _ => s.agentPart (fetcherAgent f)
  | .fetch f => s.agentPart (fetcherAgent f)
  | .asyncOp n => ((s.asyncs.find? (·.id == n)).map (·.part)).getD 0
  | .matop c n =>
    match (s.core c).mops.find? (·.id == n) with
    | some o => (s.group ⟨c.slice, c.core, o.slot⟩).part
    | none => s.partOf! c.slice
  | .queue i _ _ => s.partOf! i
  | .saved p _ => p
  | .save c => s.partOf! c.slice

/-- The 32-byte miss record of a parked access (R270). -/
def State.missRecord (s : State) (i : SliceId) (key : Nat) (e : BogEntry) : List W32 :=
  let (a, eng) := s.requester e.who
  let slot := if eng then 0 else match agentGroup a with | some g => g.slot.val | none => 0
  let same := ((s.slice i).bog.filter fun x =>
    x.2.used && x.1 / 1024 == key / 1024 && x.2.asid == e.asid && x.2.va.toNat / 4096 == e.va.toNat / 4096).length
  [BitVec.ofNat 32 (e.kind.toNat + e.asid.toNat * 65536), e.va.extractLsb' 0 32, BitVec.ofNat 32 (bitsOf e.va 55 32),
   BitVec.ofNat 32 (key % 1024 + key / 1024 * 1024 + min same 65535 * 65536), e.since.extractLsb' 0 32, e.since.extractLsb' 32 32,
   BitVec.ofNat 32 ((agentCore a).core.val + slot * 256 + (if agentPuppet a && !eng then 8192 else 0) + (if eng then 16384 else 0)), 0]

/-- Raises source 0x8 when the ring of a slice, which had room in an earlier state, has become full (R387). -/
def State.noteFull (s : State) (i : SliceId) (before : State) : State :=
  if before.ringRoom i && !s.ringRoom i && s.ringBase i != 0 then s.raiseSource i 0x8 else s

/-- Writes a miss record into the ring and raises source 0x1 (R269). -/
def State.emitRecord (s : State) (i : SliceId) (key : Nat) (e : BogEntry) : State :=
  let n := (s.sliceReg i 0x764).toNat
  let a := s.ringBase i + n % 2 ^ s.ringLog i * 32
  let s := { s with mem := memWrite s.mem a (wordsToBytes (s.missRecord i key e)) }
  ((s.setSliceReg i 0x764 (BitVec.ofNat 64 (n + 1))).raiseSource i 0x1).noteFull i s

/-- Writes the record of a parked access, or holds it; with no ring, the first miss so held raises source 0x8 (R387). -/
def State.record (s : State) (i : SliceId) (key : Nat) (e : BogEntry) : State :=
  if (s.slice i).heldRecs.isEmpty && s.ringRoom i then s.emitRecord i key e
  else
    let s := s.modSlice i fun k => { k with heldRecs := k.heldRecs ++ [(key, e)] }
    if s.ringBase i = 0 && !(s.slice i).noRingRaised then (s.modSlice i fun k => { k with noRingRaised := true }).raiseSource i 0x8
    else s

/-- The controller of an address of a partition: slice and number (R268). -/
def State.controllerOf (s : State) (p : PartId) (va : Word) : SliceId × Nat :=
  let h := s.home p (va.toNat / 64)
  (h.1, h.2 / 32)

/-- Enters an access into a free bog entry of a controller; the first access to its page gets a record (R269). -/
def State.enterBog (s : State) (i : SliceId) (key : Nat) (e : BogEntry) : State :=
  let shared := (s.slice i).bog.any fun x =>
    x.2.used && x.1 / 1024 == key / 1024 && x.2.asid == e.asid && x.2.va.toNat / 4096 == e.va.toNat / 4096
  let s := s.modSlice i fun k => { k with bog := tabSet k.bog key e }
  if shared then s else s.record i key e

/-- The lowest free entry of a controller's bog, as its key. -/
def State.freeBog (s : State) (i : SliceId) (ctl : Nat) : Option Nat :=
  (lowest 1024 fun n => !(tabGet {} (s.slice i).bog (ctl * 1024 + n)).used).map (ctl * 1024 + ·)

/-- Parks an access, or leaves it waiting at the controller's input (R269, R387). -/
def State.park (s : State) (p : PartId) (asid : W16) (va : Word) (k : Kind) (who : Requester) : State :=
  let (i, ctl) := s.controllerOf p va
  let e : BogEntry := { used := true, asid := asid, va := va, kind := BitVec.ofNat 8 k, who := who, since := s.now }
  let s := s.countFor (s.requester who).1 0x11
  match s.freeBog i ctl with
  | some key =>
    if (s.slice i).heldRecs.isEmpty && !(s.slice i).missq.any (fun x => (s.controllerOf (s.reqPart x.who) x.va).2 == ctl) then s.enterBog i key e
    else s.modSlice i fun x => { x with missq := x.missq ++ [e] }
  | none => s.modSlice i fun x => { x with missq := x.missq ++ [e] }

/-- The first waiting miss whose controller has a free entry, with that entry: each controller's own wait in their order (R269). -/
def State.nextMiss (s : State) (i : SliceId) : List BogEntry → Option (BogEntry × Nat)
  | [] => none
  | e :: rest =>
    match s.freeBog i (s.controllerOf (s.reqPart e.who) e.va).2 with
    | some key => some (e, key)
    | none => s.nextMiss i rest

/-- Writes held records while the ring has room, then lets waiting misses in, `n` moves at most (R387). -/
def State.pumpMisses (s : State) (i : SliceId) : Nat → State
  | 0 => s
  | n + 1 =>
    match (s.slice i).heldRecs with
    | (key, e) :: rest =>
      if s.ringRoom i then
        (((s.modSlice i fun k => { k with heldRecs := rest }).emitRecord i key e)).pumpMisses i n
      else s
    | [] =>
      match s.nextMiss i (s.slice i).missq with
      | none => s
      | some (e, key) =>
        ((s.modSlice i fun k => { k with missq := k.missq.erase e }).enterBog i key { e with since := s.now }).pumpMisses i n

/-- Lets the controllers of a slice go on after a release or a ring write. -/
def State.pump (s : State) (i : SliceId) : State :=
  s.pumpMisses i ((s.slice i).heldRecs.length + (s.slice i).missq.length)

/-! ### Occupancy of the L2 (R402) -/

/-- The 64 context entries of a segment. -/
def State.occEntries (s : State) (i : SliceId) (seg : Nat) : List (Nat × Occ) :=
  (List.range 64).map fun n => (n, tabGet {} (s.slice i).occ (seg * 64 + n))

/-- The entry that a fill for an ASID counts in, as it stands before the fill. -/
def State.occEntryFor (s : State) (i : SliceId) (seg : Nat) (asid : W16) : Nat × Occ :=
  let es := s.occEntries i seg
  let fresh (n : Nat) : Nat × Occ := (n, { valid := true, asid := asid, since := s.now })
  match es.find? fun e => e.2.valid && e.2.asid == asid with
  | some e => e
  | none =>
    match es.find? fun e => !e.2.valid with
    | some e => fresh e.1
    | none =>
      let old := es.foldl (fun (b : Option (Nat × Occ)) e =>
        if e.2.lines = 0 then
          match b with
          | some x => if e.2.since < x.2.since then some e else b
          | none => some e
        else b) none
      match old with
      | some e => fresh e.1
      | none => (63, tabGet {} (s.slice i).occ (seg * 64 + 63))

/-- A fill of a line of an ASID. -/
def State.occFill (s : State) (i : SliceId) (seg : Nat) (asid : W16) : State :=
  let e := s.occEntryFor i seg asid
  s.modSlice i fun k => { k with occ := tabSet k.occ (seg * 64 + e.1) { e.2 with lines := e.2.lines + 1 } }

/-- A line of an ASID leaves a segment. -/
def State.occDrop (s : State) (i : SliceId) (seg : Nat) (asid : W16) : State :=
  let e := ((s.occEntries i seg).find? fun e => e.2.valid && e.2.asid == asid).getD (63, tabGet {} (s.slice i).occ (seg * 64 + 63))
  s.modSlice i fun k => { k with occ := tabSet k.occ (seg * 64 + e.1) { e.2 with lines := e.2.lines - 1 } }

/-- Bytes that a controller transfers for an agent's tenant: the tenant's usage and its credit (R405, R408). -/
def State.transfer (s : State) (i : SliceId) (ctl : Nat) (p : PartId) (a : Agent) (n : Nat) : State :=
  let s := s.countHbm p (s.uidOf a) n
  match agentGroup a with
  | none => s
  | some g =>
    let t := (s.gridOf g).tenant
    s.modSlice i fun k =>
      { k with credits := tabMap (fun c cs => if c = ctl then cs.map fun (x : Credit) => if x.tenant = t then { x with credit := x.credit - n } else x
                                              else cs) k.credits }

/-- The latest of two times. -/
def later (a b : Word) : Word := if a < b then b else a

/-! ### L2 lines: fills, victims, leases and completion times (R265, R273, R309, R310, R403) -/

/-- A line leaves its segment: its latest lease raises the horizon (R309). -/
def State.dropLine (s : State) (i : SliceId) (pl : Nat) : State :=
  match tabFind (s.slice i).l2 pl with
  | none => s
  | some x =>
    (s.modSlice i fun k =>
      { k with horizon := tabSet k.horizon x.seg (later (tabGet 0 k.horizon x.seg) (tabGet 0 k.leases pl)),
               leases := tabDel k.leases pl, l2 := tabDel k.l2 pl }).occDrop i x.seg (BitVec.ofNat 16 (x.key / 2 ^ 58))

/-- The soft limit of a context in force at the segments (R402): that last read for a started grid of the partition that runs under the
ASID. -/
def State.softLimit (s : State) (p : PartId) (asid : W16) : Nat :=
  match s.grids.find? fun e => e.2.part == p && e.2.asid == asid with
  | some e => e.2.occLim
  | none => 0

/-- The ASID of a context is over its limit in a segment (R403). -/
def State.overLimit (s : State) (i : SliceId) (seg : Nat) (p : PartId) (asid : W16) : Bool :=
  let lim := s.softLimit p asid
  lim != 0 && (match (s.occEntries i seg).find? fun e => e.2.valid && e.2.asid == asid with
    | some e => decide (lim ≤ e.2.lines)
    | none => false)

/-- The lines of a segment hold at most 1.5 MiB (R14). -/
def segLines : Nat := 24576

/-- The least recently used of some lines. -/
def leastUsed (ls : List (Nat × L2Line)) : Option Nat :=
  (ls.foldl (fun (best : Option (Nat × L2Line)) e =>
    match best with
    | none => some e
    | some b => if e.2.used < b.2.used then some e else best) none).map (·.1)

/-- The line that a fill for an ASID displaces from a full segment (R403). A line under a tile lock is no candidate. -/
def State.victim (s : State) (i : SliceId) (seg : Nat) (p : PartId) (asid : W16) : Option Nat :=
  let ls := (s.slice i).l2.filter fun e => e.2.seg == seg && !s.tileLocks.any fun x => match x with | .global _ pa => pa.toNat / 64 == e.1 | _ => false
  let asidOf (e : Nat × L2Line) : W16 := BitVec.ofNat 16 (e.2.key / 2 ^ 58)
  let own := if s.overLimit i seg p asid then leastUsed (ls.filter fun e => asidOf e == asid) else none
  match own with
  | some pl => some pl
  | none =>
    match leastUsed (ls.filter fun e => s.overLimit i seg p (asidOf e)) with
    | some pl => some pl
    | none => leastUsed ls

/-- A segment that is full gives up a line before a fill. -/
def State.makeRoom (s : State) (i : SliceId) (seg : Nat) (p : PartId) (asid : W16) : State :=
  if (s.slice i).l2.length < segLines || ((s.slice i).l2.filter fun e => e.2.seg == seg).length < segLines then s
  else match s.victim i seg p asid with
    | some pl => s.dropLine i pl
    | none => s

/-- A use of a line: one that the die does not hold is filled under the accessing name (R273), counted for the context and for the tenant
(R402, R408). -/
def State.holdLine (s : State) (i : SliceId) (seg pl key : Nat) (hc : Bool) (p : PartId) (a : Agent) : State :=
  match tabFind (s.slice i).l2 pl with
  | some x => s.modSlice i fun k => { k with l2 := tabSet k.l2 pl { x with used := k.l2Uses + 1 }, l2Uses := k.l2Uses + 1 }
  | none =>
    let asid : W16 := BitVec.ofNat 16 (key / 2 ^ 58)
    let s := s.makeRoom i seg p asid
    ((s.modSlice i fun k =>
      { k with l2 := tabSet k.l2 pl { key := key, seg := seg, hc := hc, used := k.l2Uses + 1 },
               l2Uses := k.l2Uses + 1 }).occFill i seg asid).transfer i (seg / 32) p a 64

/-- The name under which the die of a home caches a physical line, and its segment; the accessing ones when it holds none (R273). -/
def State.nameAt (s : State) (i : SliceId) (pl seg key : Nat) : Nat × Nat :=
  match tabFind (s.slice i).l2 pl with
  | some x => (x.seg, x.key)
  | none => (seg, key)

/-- The completion time of a write performed now at a line's home (R310); `held`: the L2 held the line. -/
def State.writeTime (s : State) (i : SliceId) (seg pl : Nat) (held : Bool) : Word :=
  let t := later s.now (tabGet 0 (s.slice i).leases pl)
  if held then t else later t (tabGet 0 (s.slice i).horizon seg)

/-- A lease on a physical line is granted at its home (R309). -/
def State.grantLease (s : State) (i : SliceId) (pl : Nat) (exp : Word) : State :=
  { s.modSlice i fun x => { x with leases := tabSet x.leases pl (later (tabGet 0 x.leases pl) exp) } with
    leaseAll := tabSet s.leaseAll pl (later (tabGet 0 s.leaseAll pl) exp) }

/-- A write of a physical line is performed: its completion time, and until when an older copy may live. -/
def State.noteWrite (s : State) (i : SliceId) (pl : Nat) (t : Word) : State :=
  { s.modSlice i fun x => { x with lineWct := tabSet x.lineWct pl t } with
    lineCov := tabSet s.lineCov pl (later (tabGet 0 s.lineCov pl) (later t (tabGet 0 s.leaseAll pl))) }

/-- An agent's access has written or observed a physical line: its releases, and those of its core, wait until no older copy lives
(R304). -/
def State.observe (s : State) (a : Agent) (pl : Nat) : State :=
  let t := tabGet 0 s.lineCov pl
  if a = .none || t = 0 then s
  else (s.modSc a fun c => { c with obs := later c.obs t }).modCore (agentCore a) fun k => { k with cov := later k.cov t }

/-! ### Reading and writing HBM -/

/-- Reads a little-endian value of HBM. -/
def State.hbmRead (s : State) (pa n : Nat) : Word := BitVec.ofNat 64 (memReadLE s.mem pa n)
/-- Writes bytes of HBM; a write that covers a poisoned line clears its poison (R267). -/
def State.hbmWrite (s : State) (pa : Nat) (bs : List Byte) : State :=
  { s with mem := memWrite s.mem pa bs,
           poison := s.poison.filter fun l => !(pa ≤ l * 64 && l * 64 + 64 ≤ pa + bs.length) }
/-- The same as a store, which matrix operations under way may have read (R257). -/
def State.hbmStore (s : State) (pa : Nat) (bs : List Byte) : State :=
  s.allCores.foldl (fun s c => s.hitOps c 2 pa bs.length) (s.hbmWrite pa bs)
/-- An access to some bytes consumes poison: any read, or a write of part of a poisoned line (R267). -/
def State.poisoned (s : State) (pa n : Nat) (write : Bool) : Bool :=
  s.poison.any fun l => decide (l * 64 < pa + n) && decide (pa < l * 64 + 64)
    && !(write && decide (pa ≤ l * 64) && decide (l * 64 + 64 ≤ pa + n))

/-! ### The L1 (R264, R309) -/

/-- A valid line of a core's L1. -/
def State.l1Line (s : State) (c : CoreRef) (asid : W16) (l : Nat) : Option L1Line :=
  (s.core c).l1.find? fun x => x.asid == asid && x.line == l && decide (s.now ≤ x.expiry)

/-- Puts a line into a core's L1, which holds 128 KiB: the line filled longest ago makes room. -/
def State.l1Fill (s : State) (c : CoreRef) (x : L1Line) : State :=
  s.modCore c fun k => { k with l1 := (x :: k.l1.filter fun y => !(y.asid == x.asid && y.line == x.line)).take 2048 }

/-- Bytes of a list replaced from an offset. -/
def patchBytes (bs : List Byte) (off : Nat) (new : List Byte) : List Byte :=
  (List.range bs.length).map fun i => if off ≤ i && i < off + new.length then new.getD (i - off) 0 else bs.getD i 0

/-- A copy after a write of some bytes of its physical line. -/
def L1Line.update (x : L1Line) (pa : Nat) (bs : List Byte) : L1Line :=
  if decide (x.pl * 64 < pa + bs.length) && decide (pa < x.pl * 64 + 64) then
    { x with data := patchBytes x.data (pa - x.pl * 64) (bs.drop (x.pl * 64 - pa)) }
  else x

/-- A write of the core updates the core's own copy as it passes (R264, R311). -/
def State.l1Update (s : State) (c : CoreRef) (pa : Nat) (bs : List Byte) : State :=
  s.modCore c fun k => { k with l1 := k.l1.map fun x => x.update pa bs }

/-- A physical line leaves a core's L1. -/
def State.l1Drop (s : State) (c : CoreRef) (pl : Nat) : State :=
  s.modCore c fun k => { k with l1 := k.l1.filter fun x => x.pl != pl }

/-- A copy of a physical line that no longer agrees with the home leaves the L1 of a core that has read the home past it: no later load of
the core may return an older value (R302, R304, R319). -/
def State.l1Stale (s : State) (c : CoreRef) (pl : Nat) : State :=
  if (s.core c).l1.any fun x => x.pl == pl && x.data != memRead s.mem (pl * 64) 64 then s.l1Drop c pl else s

/-! ### Atomics (R277, R281) -/

/-- A value of n bytes as a signed number. -/
def signedOf (n : Nat) (x : Word) : Int :=
  let v := x.toNat % 2 ^ (8 * n)
  if 2 ^ (8 * n - 1) ≤ v then (v : Int) - 2 ^ (8 * n) else v

/-- What an atomic leaves at a location of n bytes. -/
def amoNew (op : BitVec 3) (signed : Bool) (n : Nat) (old opd expect : Word) : Word :=
  let lt (a b : Word) : Bool := if signed then decide (signedOf n a < signedOf n b) else decide (a < b)
  let r := match op.toNat with
    | 0 => old + opd
    | 1 => old &&& opd
    | 2 => old ||| opd
    | 3 => old ^^^ opd
    | 4 => if lt opd old then opd else old
    | 5 => if lt old opd then opd else old
    | 6 => opd
    | _ => if old = expect then opd else old
  BitVec.ofNat 64 (r.toNat % 2 ^ (8 * n))

/-- What an access writes, when it writes. -/
def accNew (k : AccKind) (n : Nat) (old value expect : Word) : Option Word :=
  match k with
  | .load => none
  | .watch => none
  | .fence => none
  | .store => some value
  | .amo op sg => some (amoNew op sg n old value expect)

/-- The access kind code of R270. -/
def AccKind.code : AccKind → Kind
  | .load => 1
  | .store => 2
  | .amo _ _ => 3
  | .watch => 7
  | .fence => 0

/-- The link of an endpoint function is not up, or its hot reset is under way (R455, R458). -/
def State.epDown (s : State) (t : SliceId) (port : Nat) : Bool :=
  let w := s.sliceReg t (0x4EB + port)
  bitAt w 0 && (!bitAt w 1 || bitAt w 2)

/-- An outbound access completes with abort. -/
def State.epAbort (s : State) (t : SliceId) (port : Nat) : State :=
  let w := s.sliceReg t (0x4EB + port)
  s.setSliceReg t (0x4EB + port) (setBits (setBits w 31 16 (min 65535 (bitsOf w 31 16 + 1))) 63 32 (s.stampBits 32))

/-- What performing one access meets: its value, a miss, or a memory-side fault. -/
inductive Performed where
  | value (s : State) (v : Word)
  | miss
  | fault (s : State) (c : Cause)

/-- A byte of the scratchpad that a drain of the group writes, no `mwait` having covered it yet (R257). -/
def Group.looseAt (v : Group) (x : Nat) : Bool := v.loose.any fun e => decide (e.2.2.1 ≤ x) && decide (x < e.2.2.1 + e.2.2.2)

/-- The bytes that a group reads at an on-chip place: those of its drains that no `mwait` has covered are unpredictable (R257). -/
def State.chipSeen (s : State) (g : Option GroupRef) (pl : Place) (n : Nat) : State × List Byte :=
  let bs := s.chipRead pl n
  match pl, g with
  | .spad c w off, some g =>
    let v := s.group g
    if c = g.at && w = v.wg && (List.range n).any fun i => v.looseAt (off + i) then
      (s.draw, bs.zipIdx.map fun e => if v.looseAt (off + e.2) then (Config.freeValue s.fresh (off + e.2)).extractLsb' 0 8 else e.1)
    else (s, bs)
  | _, _ => (s, bs)

/-- Performs an access at an on-chip place (R262, R263). An access with an unmapped byte counts a window miss. -/
def State.performChip (s : State) (a : Agent) (k : AccKind) (n : Nat) (pl : Place) (value expect : Word) : State × Word :=
  match pl with
  | .unmapped => (s.windowMiss a, 0)
  | _ =>
    let s := match pl, k with
      | _, .store => s
      | .spad c _ _, _ => s.scratchErrors c
      | .lanePriv c _ _, _ => s.scratchErrors c
      | _, _ => s
    let (s, bs) := s.chipSeen (agentGroup a) pl n
    let old := BitVec.ofNat 64 (bytesToNat bs)
    match accNew k n old value expect with
    | none => (s, old)
    | some v => (s.chipWrite pl (natToBytes v.toNat n), old)

/-- A load served at a home fills the core's L1 and grants a lease, unless the page is host-coherent, the access is a synonym or its
kind never allocates; what does not fill it leaves no older copy there (R264, R309). -/
def State.fillL1 (s : State) (a : Agent) (p : PartId) (asid : W16) (va pa : Nat) (hc : Bool) (k : AccKind) (i : SliceId)
    (key name : Nat) : State :=
  if k = .load && !hc && name == key then
    let exp := s.now + BitVec.ofNat 64 (s.leaseLen p)
    (s.grantLease i (pa / 64) exp).l1Fill (agentCore a)
      { asid := asid, line := va / 64, pl := pa / 64, expiry := exp, data := memRead s.mem (pa / 64 * 64) 64 }
  else s.l1Stale (agentCore a) (pa / 64)

/-- A line is found to hold an uncorrectable error: it is poisoned (R267). -/
def State.poisonLine (s : State) (pl : Nat) : State := if s.poison.contains pl then s else { s with poison := pl :: s.poison }

/-- Reads at a home of some bytes of a line of HBM: the errors that strike it, and what the reader then meets (R267, R275, R417). -/
def State.readLine (s : State) (i : SliceId) (t : SliceId) (pa n : Nat) : State × Option Cause :=
  let held := (tabFind (s.slice i).l2 (pa / 64)).isSome
  let (s, bad) := s.readErrors i t pa (!held)
  if s.poisoned pa n false then (s, some .poisoned)
  else if bad then (s.poisonLine (pa / 64), some .ecc)
  else (s, none)

/-- Performs an access to a global address at its home (R265, R268, R310, R311). -/
def State.performGlobal (s : State) (a : Agent) (p : PartId) (asid : W16) (va : Word) (k : AccKind) (n : Nat)
    (value expect : Word) : Performed :=
  match s.reach p asid va k.code with
  | .miss => .miss
  | .dyke => .fault s .dyke
  | .ok pa hc =>
    match targetOf pa with
    | .hbm t =>
      let (i, seg) := s.home p (va.toNat / 64)
      let held := (tabFind (s.slice i).l2 (pa / 64)).isSome
      let (s, bad) := if k = .store then (s, if s.poisoned pa n true then some .poisoned else none) else s.readLine i t pa n
      match bad with
      | some c => .fault s c
      | none =>
        let key := lineKey asid (va.toNat / 64)
        let (seg, name) := s.nameAt i (pa / 64) seg key
        let s := s.holdLine i seg (pa / 64) key hc p a
        let old := s.hbmRead pa n
        match accNew k n old value expect with
        | none =>
          let t := tabGet 0 (s.slice i).lineWct (pa / 64)
          let s := (s.modSc a fun c => c.mergeWct t).observe a (pa / 64)
          .value (s.fillL1 a p asid va.toNat pa hc k i key name) old
        | some v =>
          let t := s.writeTime i seg (pa / 64) held
          let bs := natToBytes v.toNat n
          let s := ((s.hbmStore pa bs).noteWrite i (pa / 64) t).observe a (pa / 64)
          let s := if k = .store then s.l1Update (agentCore a) pa bs else s.l1Drop (agentCore a) (pa / 64)
          .value (s.modSc a fun c => c.mergeWct t) old
    | .pcie t port =>
      if s.epDown t port then .value (s.epAbort t port) (if k = .store then 0 else BitVec.ofNat 64 (2 ^ (8 * n) - 1))
      else if k = .store then .value s 0
      else .value s.draw (BitVec.ofNat 64 ((Config.externalRead s.fresh).toNat % 2 ^ (8 * n)))
    | .aperture t off =>
      if k = .store then
        .value { s with kicks := s.kicks ++
          [{ slice := t, q := idx 4096 ((off - 0x1000000000) / 4096), off := off % 4096, size := n, value := value }] } 0
      else .value s 0
    | _ => .fault s .dyke

/-- Performs one access of an agent. -/
def State.performAcc (s : State) (a : Agent) (k : AccKind) (n : Nat) (x : LaneAcc) : Performed :=
  match x.place with
  | .badAddress _ => .fault s .translation
  | .global asid va => s.performGlobal a (s.agentPart a) asid va k n x.value x.expect
  | pl => let (t, v) := s.performChip a k n pl x.value x.expect; .value t v

/-! ### Operations in flight -/

/-- The bytes that an access covers, as a place and a range; `none` for an unmapped one. -/
def accRange (n : Nat) (x : LaneAcc) : Option (Place × Nat) :=
  match x.place with
  | .global asid va => some (.global asid 0, va.toNat)
  | .spad c w off => some (.spad c w 0, off)
  | .lanePriv c w off => some (.lanePriv c w 0, off)
  | .chip p off => some (.chip p 0, off)
  | _ => (none : Option (Place × Nat)).filter fun _ => n == 0

/-- Two accesses share a byte by their addresses. -/
def accOverlap (n : Nat) (x : LaneAcc) (m : Nat) (y : LaneAcc) : Bool :=
  match accRange n x, accRange m y with
  | some (p, a), some (q, b) => p == q && decide (a < b + m) && decide (b < a + n)
  | _, _ => false

/-- The physical address that a global access goes to, when it translates. -/
def State.physOf (s : State) (p : PartId) (k : Kind) (x : LaneAcc) : Option Nat :=
  match x.place with
  | .global asid va => (match s.reach p asid va k with | .ok pa _ => some pa | _ => none)
  | _ => none

/-- Two accesses of an agent share a location: by their addresses, or as synonyms by the physical ones (R273, R301, R302). -/
def State.sameLocation (s : State) (p : PartId) (b : MemOp) (x : LaneAcc) (o : MemOp) (y : LaneAcc) : Bool :=
  accOverlap b.width x o.width y ||
    (match x.place, y.place with
     | .global _ u, .global _ v =>
       u != v && (match s.physOf p b.kind.code x, s.physOf p o.kind.code y with
         | some c, some d => decide (c < d + o.width) && decide (d < c + b.width)
         | _, _ => false)
     | _, _ => false)

/-- An operation reads only. -/
def AccKind.reads : AccKind → Bool
  | .load => true
  | .watch => true
  | _ => false

/-- An access in flight is before an asynchronous operation of the group: an access of the scalar stream, or of a lane block that had ended
when the operation issued (R300). -/
def Scalar.hasEarlier (c : Scalar) (id lanesTo : Nat) : Bool :=
  c.memq.any fun b => decide (b.id < if b.split.isNone then id else lanesTo)

/-- Below which the lane accesses of a group are before an asynchronous operation that issues now. -/
def State.lanesBefore (s : State) (a : Agent) : Nat :=
  match agentGroup a with
  | some g => (match (s.group g).block with | some b => b.first | none => s.nextId)
  | none => 0

/-- An access returns a value to its agent. -/
def AccKind.returns : AccKind → Bool
  | .load => true
  | .watch => true
  | .amo _ _ => true
  | _ => false

/-- The order makes an atomic or a fence an acquire (R303). -/
def MemOp.acquires (o : MemOp) : Bool := match o.kind with | .amo _ _ => o.order != 1#2 | .fence => o.order != 1#2 | _ => false
/-- The order makes an atomic or a fence a release. -/
def MemOp.releases (o : MemOp) : Bool := match o.kind with | .amo _ _ => o.order != 0#2 | .fence => o.order != 0#2 | _ => false

/-- Earlier writes of a scalar side are complete at a scope, as far as completion times go (R312), and no older copy of what it has
observed lives (R304). `nbh`: the group is in a neighbourhood, without which `.nbh` is as `.core` (R299). -/
def Scalar.completeAt (c : Scalar) (now : Word) (scope : BitVec 3) (nbh : Bool) : Bool :=
  if scope.toNat ≤ 2 || (scope = 3#3 && !nbh) then true
  else if scope.toNat ≤ 4 then decide (c.wct < now) && decide (c.obs < now)
  else decide (c.wct.toNat + 3 ≤ now.toNat) && decide (c.obs < now)

/-- No older copy lives of what the core's groups had observed at a time that `cover` keeps (R304). -/
def coverOver (cover now : Word) (scope : BitVec 3) (nbh : Bool) : Bool :=
  scope.toNat ≤ 2 || (scope = 3#3 && !nbh) || cover = 0 || decide (cover < now)

/-- The agent's group is part of a neighbourhood. -/
def State.inNbh (s : State) (a : Agent) : Bool := match agentGroup a with | some g => (s.group g).nbh | none => false

/-- What a release among an agent's operations waits for, when the accesses before it are done (R306, R307, R312). -/
def State.released (s : State) (a : Agent) (o : MemOp) : Bool :=
  (s.scOf a).completeAt s.now o.scope (s.inNbh a) && coverOver o.cover s.now o.scope (s.inNbh a)

/-- What a stream that holds a release of its own waits for, when its accesses are done (R308, R312). -/
def State.streamReleased (s : State) (a : Agent) (scope : BitVec 3) : Bool :=
  let c := s.scOf a
  c.completeAt s.now scope (s.inNbh a)
    && coverOver (if c.wait = .stall then c.cover else (s.core (agentCore a)).cov) s.now scope (s.inNbh a)

/-- An earlier fence still holds back an operation (R306): an acquire until every earlier load and atomic has returned its value, and a
release, for a store or atomic, until every earlier access is complete at the scope. An `.sc` fence holds back every later access
for both (R305). -/
def State.fenceHolds (s : State) (a : Agent) (before : List MemOp) (f : MemOp) (o : MemOp) : Bool :=
  let acq := f.acquires && before.any fun b => b.kind.returns
  let rel := f.releases && !(before.all (fun b => b.kind == .fence) && s.released a f)
  acq || (rel && (f.order = 3#2 || !o.kind.reads))

/-- The operations before one, each with those before it. -/
def withPrefix : List MemOp → List MemOp → List (List MemOp × MemOp)
  | _, [] => []
  | done, b :: rest => (done, b) :: withPrefix (done ++ [b]) rest

/-- The slice of a location's home (R261, R265); a core's own scratchpad has none. -/
def State.homeSlice (s : State) (p : PartId) : Place → Option SliceId
  | .global _ va => some (s.home p (va.toNat / 64)).1
  | .chip q off => (s.chipHome q off).map (·.1)
  | _ => none

/-- Packets pass between two slices: some optical port or edge of each is UP (R365). The way between them is not given. -/
def State.linked (s : State) (i j : SliceId) : Bool :=
  let up (k : SliceId) : Bool := (s.slice k).ports.any fun e => decide (e.1 < 11) && e.2.st == 2
  i == j || (up i && up j)

/-- Requests of an agent reach the L2 segments of a slice: the links are UP (R365), and no ARTLOAD holds them (R383). -/
def State.homeOpen (s : State) (a : Agent) (j : SliceId) : Bool := s.linked (agentCore a).slice j && !(s.part (s.agentPart a)).artHold

/-- The links between an agent and the homes of an operation are UP, and no ARTLOAD holds requests to the L2 segments, or its line is held in
the core's L1: else the requester stalls (R365, R383). -/
def State.reachesHomes (s : State) (a : Agent) (o : MemOp) : Bool :=
  o.accs.all fun x =>
    match s.homeSlice (s.agentPart a) x.place with
    | none => true
    | some j =>
      match x.place with
      | .global asid va =>
        s.homeOpen a j || (o.kind == .load && (s.l1Line (agentCore a) asid (va.toNat / 64)).isSome)
      | _ => s.linked (agentCore a).slice j

/-- An operation may be performed after the earlier ones of its agent (R301, R302, R306, R307), when its homes can be reached. -/
def State.mayPerform (s : State) (a : Agent) (before : List MemOp) (o : MemOp) : Bool :=
  let p := s.agentPart a
  !((withPrefix [] before).any fun e =>
      match e.2.kind with
      | .fence => s.fenceHolds a e.1 e.2 o
      | _ => e.2.acquires || e.2.accs.any fun x => o.accs.any fun y => s.sameLocation p e.2 x o y)
    && (!o.releases || (before.all (fun b => b.kind == .fence) && s.released a o)) && s.reachesHomes a o

/-- The value that a register receives from a loaded value (R276, R278). -/
def MemOp.extend (o : MemOp) (v : Word) (bits : Nat) : Word :=
  match o.kind with
  | .amo _ _ => v
  | _ => if o.signed then BitVec.ofNat 64 ((signedOf o.width v % 2 ^ bits).toNat) else v

/-- Hands the values of an operation, all returned, to its destination and takes it off the list. -/
def State.deliver (s : State) (a : Agent) (o : MemOp) : State :=
  let s := s.modSc a fun c => { c with memq := c.memq.filter fun x => x.id != o.id }
  match o.dest with
  | .none => s
  | .sreg d =>
    let v := match o.got with | (_, v) :: _ => v | [] => 0
    s.modSc a fun c => { c.write d (o.extend v 64) with loadPend := putBit c.loadPend d.toNat false }
  | .lane dst wide acted zero cap =>
    match agentGroup a with
    | none => s
    | some g =>
      let vals := lanes.map fun l => match o.got.find? fun e => e.1 == l with | some e => o.extend e.2 (if wide then 64 else 32) | none => 0
      (s.writeResult g dst wide acted zero cap o.id vals {}).modGroup g Group.endBlock

/-- Replaces an operation of an agent. -/
def State.setOp (s : State) (a : Agent) (o : MemOp) : State :=
  s.modSc a fun c => { c with memq := c.memq.map fun x => if x.id = o.id then o else x }

/-- An access faulted: the operation goes without delivering a value, and the fault is raised from afar (R275). In the puppet slot its
register keeps its value. -/
def State.dropOp (s : State) (a : Agent) (o : MemOp) (c : Cause) (addr : Word) : State :=
  let s := s.modSc a fun k =>
    { k with memq := k.memq.filter (fun x => x.id != o.id),
             loadPend := match o.dest with | .sreg d => putBit k.loadPend d.toNat false | _ => k.loadPend }
  s.raiseAfar (match agentGroup a, o.split with | some g, some k => .lane g k | _, _ => a) c addr
    (if c = .translation then BitVec.ofNat 8 o.kind.code else 0) o.word o.pc

/-- The address of an access, for a stop record. -/
def accAddr (x : LaneAcc) : Word := match x.place with | .global _ va => va | .badAddress va => va | _ => 0

/-- The fetcher that names an agent's operations. -/
def agentFetcher : Agent → Option Fetcher
  | .none => none
  | .scalar g => some (.scalar g)
  | .lane g _ => some (.scalar g)
  | .puppet c => some (.puppet c)

/-- Performs the accesses of an operation in lane order; one that misses is parked, and stays with the operation. `todo` is what is left
to try. The higher lanes of an atomic wait for a lower one that is parked (R281). -/
def State.performAll (s : State) (a : Agent) (o : MemOp) : List LaneAcc → State × Option MemOp
  | [] => (s, some o)
  | x :: rest =>
    match s.performAcc a o.kind o.width x with
    | .value t v => t.performAll a { o with got := o.got ++ [(x.lane, v)], accs := o.accs.filter fun y => y.lane != x.lane } rest
    | .fault t c => (t.dropOp a o c (accAddr x), none)
    | .miss =>
      match agentFetcher a, x.place with
      | some f, .global asid va =>
        let t := s.park (s.agentPart a) asid va o.kind.code (.memop f o.id)
        match o.kind with
        | .amo _ _ => (t, some { o with parked := true })
        | _ => t.performAll a { o with parked := true } rest
      | _, _ => s.performAll a o rest

/-- Fences at the head of an agent's operations that hold nothing back go. -/
def State.dropFences (s : State) (a : Agent) : Nat → State
  | 0 => s
  | n + 1 =>
    match (s.scOf a).memq with
    | f :: rest =>
      if f.kind == .fence && (!f.releases || s.released a f) then (s.modSc a fun c => { c with memq := rest }).dropFences a n else s
    | [] => s

/-- Performs an operation of an agent and delivers its values when they are all there. -/
def State.performOp (s : State) (a : Agent) (o : MemOp) (todo : List LaneAcc) : State :=
  match s.performAll a o todo with
  | (t, none) => t
  | (t, some o') => if o'.accs.isEmpty then t.deliver a o' else t.setOp a o'

/-- An access that returns at once: the core scratchpad window, or a hit in the L1 (R276). -/
def State.isLocal (s : State) (a : Agent) (k : AccKind) (x : LaneAcc) (va : Word) : Bool :=
  match x.place with
  | .global asid v => (k = .load || k = .watch) && (s.l1Line (agentCore a) asid (v.toNat / 64)).isSome
  | .badAddress _ => false
  | _ => decide (windowBase ≤ va.toNat) && decide (va.toNat < windowBase + 0x01000000)

/-- The value of an L1 hit. -/
def State.l1Value (s : State) (a : Agent) (n : Nat) (x : LaneAcc) : Word :=
  match x.place with
  | .global asid v =>
    match s.l1Line (agentCore a) asid (v.toNat / 64) with
    | some l => BitVec.ofNat 64 (bytesToNat ((l.data.drop (v.toNat % 64)).take n))
    | none => 0
  | _ => 0

/-- Serves a local access at once. -/
def State.performLocal (s : State) (a : Agent) (o : MemOp) : List LaneAcc → State × MemOp
  | [] => (s, o)
  | x :: rest =>
    match x.place with
    | .global asid v =>
      let s' := match s.l1Line (agentCore a) asid (v.toNat / 64) with | some l => s.observe a l.pl | none => s
      (s'.countFor a 0x08).performLocal a { o with got := o.got ++ [(x.lane, s.l1Value a o.width x)] } rest
    | pl =>
      let (t, v) := s.performChip a o.kind o.width pl x.value x.expect
      t.performLocal a { o with got := o.got ++ [(x.lane, v)] } rest

/-- Of the stores of one operation to one place, the last lane's remains (R280). -/
def lastStores : List (LaneAcc × Word) → List (LaneAcc × Word)
  | [] => []
  | e :: rest =>
    match e.1.place with
    | .global _ _ => if rest.any fun f => f.1.place == e.1.place then lastStores rest else e :: lastStores rest
    | _ => e :: lastStores rest

/-- Issues an operation of the executing agent. `vas` are the addresses of its accesses. It is performed and delivered at once when every
access is local and may be performed; otherwise it joins the operations in flight. A register it writes awaits the reply (R276). `o.id` is
the number under which the entry of a queue destination is reserved already, or 0. -/
def State.issueOp (s : State) (o : MemOp) (vas : List Word) : State :=
  let a := s.cur
  let reserved := o.id
  let o : MemOp := { o with id := s.nextId, cover := if o.releases then (s.core (agentCore a)).cov else 0 }
  let s := s.takeId
  let before := (s.scOf a).memq
  let es : List (LaneAcc × Word) := if o.kind = .store then lastStores (List.zip o.accs vas) else List.zip o.accs vas
  let o : MemOp := { o with accs := es.map fun e => e.1 }
  let local' := es.all fun e => s.isLocal a o.kind e.1 e.2
  let s := match o.dest, agentGroup a with
    | .lane dst _ _ _ _, some g => s.reserveEntry g dst reserved o.id
    | _, _ => s
  if local' && s.mayPerform a before o then
    let (t, o') := s.performLocal a o o.accs
    t.deliver a { o' with accs := [] }
  else
    let s := if o.kind = .load then o.accs.foldl (fun s x => match x.place with | .global _ _ => s.countFor a 0x09 | _ => s) s else s
    s.modSc a fun c =>
      { c with memq := c.memq ++ [o], loadPend := match o.dest with | .sreg d => (if d = 0 then c.loadPend else putBit c.loadPend d.toNat true) | _ => c.loadPend }

/-- The k-th operation in flight of an agent, oldest first, with those before it. -/
def State.opAt (s : State) (a : Agent) (k : Nat) : Option (List MemOp × MemOp) :=
  ((s.scOf a).memq[k]?).map fun o => ((s.scOf a).memq.take k, o)

/-- The accesses of an operation that no bog entry or waiting miss holds; of an atomic, those below its first lane that one holds (R281). -/
def State.unparked (s : State) (a : Agent) (o : MemOp) : List LaneAcc :=
  match agentFetcher a with
  | none => o.accs
  | some f =>
    let held := allSlices.flatMap fun i =>
      (((s.slice i).bog.map (·.2)).filter fun e => e.used && e.who == .memop f o.id).map (·.va)
        ++ ((s.slice i).missq.filter fun e => e.who == .memop f o.id).map (·.va)
    let going (x : LaneAcc) : Bool := match x.place with | .global _ va => !held.contains va | _ => true
    match o.kind with
    | .amo _ _ => o.accs.takeWhile going
    | _ => o.accs.filter going

end Sys2Proof.Machine
end

