-- ==== Sys2Proof/Machine/Issue.lean ====
section
/-! DEFINITION. Issuing a scalar word: the checks of R73, R139, R167 and R227, the waits of R138 and R276, then the effect. -/

namespace Sys2Proof.Machine

/-- Where a word may issue (R73, R167). -/
inductive Slots where
  | any | groupOnly | puppetOnly
  deriving DecidableEq, Repr

/-- How a scalar word uses registers and slots: the registers it reads, the one it writes, the one it names as a token, whether `s0` as
that token is allowed (R157), where it may issue, whether its fields hold a reserved value, and whether it works on the matrix
registers (R227). -/
structure Form where
  reads  : List (BitVec 6) := []
  dest   : Option (BitVec 6) := none
  token  : Option (BitVec 6) := none
  freeToken : Bool := false
  slots  : Slots := .any
  bad    : Bool := false
  matrix : Bool := false
  deriving DecidableEq, Repr

/-- The workgroup of an agent owns the matrix registers (R31, R52). -/
def State.ownsMatrix (s : State) (a : Agent) : Bool :=
  match agentGroup a with
  | some g => ((s.wgOf g).map (·.matrix)).getD false
  | none => false

/-- The scalar registers that an instruction names and writes. -/
def Form.named (f : Form) : List (BitVec 6) :=
  f.reads ++ (match f.dest with | some d => [d] | none => []) ++ (match f.token with | some d => [d] | none => [])

/-- Every source is neither a pending token nor awaited from a load, and the destination awaits no load (R138, R276). -/
def Scalar.canRead (c : Scalar) (f : Form) : Bool := c.pend &&& regMask f.reads = 0 && c.loadPend &&& regMask f.named = 0

/-- The word breaks R139: it writes a pending token, or names one, or `s0`, as the token of a new operation. -/
def Scalar.misuses (c : Scalar) (f : Form) : Bool :=
  (match f.dest with | some d => bitAt c.pend d.toNat | none => false)
    || (match f.token with | some d => bitAt c.pend d.toNat || (d = 0 && !f.freeToken) | none => false)

/-- The first fault that the checks before any wait find (R73, R167, R227). -/
def State.formFault (s : State) (f : Form) : Option Cause :=
  if f.slots = .groupOnly && agentPuppet s.cur then some .illegalInstruction
  else if f.slots = .puppetOnly && !agentPuppet s.cur then some .privilege
  else if f.bad then some .illegalEncoding
  else if f.matrix && !s.ownsMatrix s.cur then some .illegalInstruction
  else none

/-- A word that raised a precise fault has read no token (R12, R420). -/
def State.unread (s t : State) : State :=
  if s.faulted t s.cur then t.modSc s.cur fun c => { c with wct := (s.scOf s.cur).wct, tokWct := (s.scOf s.cur).tokWct } else t

/-- Issues a scalar word: its checks, its waits, and then `act` on the state in which the tokens it reads have been read. -/
def State.issue (s : State) (f : Form) (act : State → State) : State :=
  match s.formFault f with
  | some c => s.raise c
  | none =>
    let c := s.scOf s.cur
    if c.pend &&& regMask f.reads ≠ 0 then s.waitFor .token (regMask f.reads)
    else if c.loadPend &&& regMask f.named ≠ 0 then s.waitFor .remoteLoad (regMask f.named)
    else if c.misuses f then s.raise .tokenMisuse
    else s.unread (act (s.modSc s.cur fun c => c.readTokens f.reads))

/-- Writes a result and moves past the word. -/
def State.result (s : State) (d : BitVec 6) (v : Word) : State := (s.setSreg d v).advance

/-- The form of an instruction that reads two registers and writes a third. -/
def form3 (d a b : BitVec 6) : Form := { reads := [a, b], dest := some d }
/-- The form of an instruction that reads one register and writes another. -/
def form2 (d a : BitVec 6) : Form := { reads := [a], dest := some d }

/-- Registers set pending: they become tokens (R139). -/
def State.setPending (s : State) (d : BitVec 6) : State :=
  if d = 0 then s
  else s.modSc s.cur fun c => { c with pend := putBit c.pend d.toNat true, tokWct := putBit c.tokWct d.toNat false }

/-- An operation writes its token: the register stops being pending; `wct` says that the value carries a completion time (R139, R289). -/
def State.writeToken (s : State) (f : Fetcher) (d : BitVec 6) (v : Word) (wct : Bool) : State :=
  s.modSc (fetcherAgent f) fun c =>
    let c := { c with pend := putBit c.pend d.toNat false }.write d v
    { c with tokWct := putBit c.tokWct d.toNat (wct && d != 0) }

/-- The lane queue is empty and the lane stream idle (R158). -/
def Group.laneIdle (v : Group) : Bool := v.lq.isEmpty && v.block.isNone

/-- The lane stream of an agent is idle; a puppet slot has none. -/
def State.laneIdle (s : State) (a : Agent) : Bool :=
  match agentGroup a with
  | some g => (s.group g).laneIdle
  | none => true

/-- Waits as `lsync` does, then acts (R158). -/
def State.afterLanes (s : State) (act : State → State) : State := if s.laneIdle s.cur then act s else s.waitOn .lsync

end Sys2Proof.Machine
end

