-- ==== Sys2Proof/Machine/Branch.lean ====
section
/-! DEFINITION. Scalar branches, calls, jumps, `trap` and `brk` (R151, R152, R153, R166). -/

namespace Sys2Proof.Machine

/-- An address with bits [1:0] cleared (R63). -/
def codeAddr (v : Word) : Word := v &&& ~~~3#64

/-- `lk`. -/
def lkReg : BitVec 6 := 63

/-- A conditional branch: to its own address + 4 × off when the condition holds, else on to the next word. -/
def State.branch (s : State) (a b : BitVec 6) (off : BitVec 14) (cond : Word → Word → Bool) : State :=
  s.issue { reads := [a, b] } fun s =>
    if cond (s.sreg a) (s.sreg b) then s.setSpc (s.spc + (off.signExtend 64 <<< 2)) else s.advance

/-- `beq`. -/
def execBeq (a b : BitVec 6) (off : BitVec 14) (s : State) : Host.Outcome State Fault Refusal :=
  .next (s.branch a b off fun x y => x == y)
/-- `bne`. -/
def execBne (a b : BitVec 6) (off : BitVec 14) (s : State) : Host.Outcome State Fault Refusal :=
  .next (s.branch a b off fun x y => x != y)
/-- `blt`. -/
def execBlt (a b : BitVec 6) (off : BitVec 14) (s : State) : Host.Outcome State Fault Refusal :=
  .next (s.branch a b off fun x y => x.slt y)
/-- `bge`. -/
def execBge (a b : BitVec 6) (off : BitVec 14) (s : State) : Host.Outcome State Fault Refusal :=
  .next (s.branch a b off fun x y => !x.slt y)
/-- `bltn`. -/
def execBltn (a b : BitVec 6) (off : BitVec 14) (s : State) : Host.Outcome State Fault Refusal :=
  .next (s.branch a b off fun x y => decide (x < y))
/-- `bgen`. -/
def execBgen (a b : BitVec 6) (off : BitVec 14) (s : State) : Host.Outcome State Fault Refusal :=
  .next (s.branch a b off fun x y => decide (y ≤ x))
/-- `br`. -/
def execBr (off : BitVec 26) (s : State) : Host.Outcome State Fault Refusal :=
  .next (s.issue {} fun s => s.setSpc (s.spc + (off.signExtend 64 <<< 2)))
/-- `call`: its own address + 4 goes into `lk`. -/
def execCall (off : BitVec 26) (s : State) : Host.Outcome State Fault Refusal :=
  .next (s.issue { dest := some lkReg } fun s =>
    (s.setSreg lkReg (s.spc + 4)).setSpc (s.spc + (off.signExtend 64 <<< 2)))
/-- `jr`. -/
def execJr (a : BitVec 6) (s : State) : Host.Outcome State Fault Refusal :=
  .next (s.issue { reads := [a] } fun s => s.setSpc (codeAddr (s.sreg a)))
/-- `callr`: the target is read before `lk` is written. -/
def execCallr (a : BitVec 6) (s : State) : Host.Outcome State Fault Refusal :=
  .next (s.issue { reads := [a], dest := some lkReg } fun s =>
    (s.setSreg lkReg (s.spc + 4)).setSpc (codeAddr (s.sreg a)))
/-- `ret`. -/
def execRet (s : State) : Host.Outcome State Fault Refusal :=
  .next (s.issue { reads := [lkReg] } fun s => s.setSpc (codeAddr (s.sreg lkReg)))

/-- A debugger is attached to a fault domain of the group's grid (R166, R427). -/
def State.debugged (s : State) (g : GroupRef) : Bool := (s.part (s.group g).part).debuggers.contains (s.domainOf g)

/-- A debugger stop of a group (R439): it stops where it stands, loses its latches, and source 0x6 is raised. -/
def State.debugStop (s : State) (g : GroupRef) : State :=
  (s.modGroup g fun v =>
    { v.loseLatches with st := .stopped, dbg := true, stamp := s.now, stepping := false, lstepping := false }).raiseSource g.slice 0x6

/-- `trap`: the software-trap fault with its code; in the puppet slot the cause 0x0A of R169 (R167). -/
def execTrap (code : BitVec 12) (s : State) : Host.Outcome State Fault Refusal :=
  .next (s.raiseWith .softwareTrap (code.setWidth 64))
/-- `brk`: a debugger stop of the group when a debugger is attached to its fault domain, with `GRP.SPC` at the next word and the code
kept for its record; otherwise no effect. -/
def execBrk (code : BitVec 12) (s : State) : Host.Outcome State Fault Refusal :=
  .next (s.issue {} fun s =>
    match s.cur with
    | .scalar g =>
      if s.debugged g then (s.advance.modGroup g fun v => { v with faultAddr := code.setWidth 64 }).debugStop g else s.advance
    | _ => s.advance)

end Sys2Proof.Machine
end

