-- ==== Sys2Proof/Machine/Lanes.lean ====
section
/-! DEFINITION. The lane stream: split records and how they meet (R41 to R43, R198, R199, R202), the signature (R202, R203), and the
issue of a lane instruction with its checks in the order of R86. -/

namespace Sys2Proof.Machine

/-! ### Split records -/

/-- Replaces a split record. -/
def Group.setSplit (v : Group) (k : Nat) (x : Split) : Group := { v with splits := tabSet v.splits k x }
/-- Changes a split record. -/
def Group.modSplit (v : Group) (k : Nat) (f : Split → Split) : Group := v.setSplit k (f (v.split k))

/-- The value of BH at the start of a basic block (R202). -/
def bhStart : W32 := 0x9E3779B9
/-- Rotation left by 5. -/
def rot5 (x : W32) : W32 := x.rotateLeft 5

/-- HASH of `GRP.SIG`. -/
def Group.hash (v : Group) : W32 := v.sig.extractLsb' 0 32
/-- Folds a word into HASH (R204). -/
def Group.foldHash (v : Group) (x : W32) : Group := { v with sig := setBits v.sig 31 0 (rot5 v.hash ^^^ x).toNat }

/-- The XOR of the six 16-bit pieces of a mask (R203). -/
def maskFold (m : Mask) : W16 :=
  (List.range 6).foldl (fun (x : W16) i => x ^^^ m.extractLsb' (16 * i) 16) 0

/-- Both mask trackers take a mask of lanes acted on (R203). -/
def Group.trackMask (v : Group) (m : Mask) : Group :=
  let t0 : W16 := v.sig.extractLsb' 32 16
  let t1 : W16 := v.sig.extractLsb' 48 16
  let x := maskFold m
  { v with sig := setBits (setBits v.sig 47 32 (t0.rotateLeft 1 ^^^ x).toNat) 63 48 (t1.rotateLeft 1 ^^^ x).toNat }

/-- The lane instruction at which a split stands has issued and is not complete (R189). It is found by its lanes, wherever they stand. -/
def Group.heldOf (v : Group) (k : Nat) : Option HeldOp := v.held.find? fun h => h.lanes &&& (v.split k).mask != 0

/-- The lanes of a record that take part in such an instruction: those that have met it there since included (R42), those of another one
not. -/
def Group.heldMask (v : Group) (k : Nat) (h : HeldOp) : Mask :=
  v.held.foldl (fun m y => if y = h then m else m &&& ~~~y.lanes) (v.split k).mask

/-- A lane instruction waits no more. -/
def Group.unhold (v : Group) (h : HeldOp) : Group := { v with held := v.held.filter (· != h) }

/-- A record's instruction has issued and waits. -/
def Group.hold (v : Group) (k : Nat) (h : HeldOp) : Group := { v with held := v.held ++ [{ h with lanes := (v.split k).mask }] }

/-- What a waiting instruction keeps changes. -/
def Group.setHeld (v : Group) (h new : HeldOp) : Group := { v with held := v.held.map fun y => if y = h then new else y }

/-- What two records at one program counter wait on once they are one: the earlier wait for a load goes on (R45), and any other begins
anew. -/
def joinWait (x y : SplitWait) : SplitWait :=
  match x, y with
  | .remoteLoad a, .remoteLoad b => .remoteLoad (min a b)
  | .remoteLoad a, _ => .remoteLoad a
  | _, .remoteLoad b => .remoteLoad b
  | _, _ => .none

/-- Record j merges into record k, of lower number (R42 step 1, R202): the marks, the hash fold, and the freed record. -/
def Group.mergeInto (v : Group) (k j : Nat) : Group :=
  let x := v.split k
  let y := v.split j
  let v := v.setSplit k
    { x with mask := x.mask ||| y.mask, join := none, joinOk := false, wait := joinWait x.wait y.wait, passed := 0, atEnd := x.atEnd || y.atEnd,
             merge := x.merge || y.merge || (x.bhv && y.bhv && x.bh != y.bh) }
  { (v.setSplit j {}).foldHash (0x80000000 ||| x.pc.setWidth 32) with freedN := v.laneN }

/-- Records that merge: in use, at one program counter. -/
def Group.mergeable (v : Group) (k j : Nat) : Bool :=
  (v.split k).used && (v.split j).used && (v.split k).pc == (v.split j).pc

/-- Step 1 of R42. -/
def Group.mergeSplits (v : Group) : Group :=
  [(0, 1), (0, 2), (0, 3), (1, 2), (1, 3), (2, 3)].foldl (fun v e => if v.mergeable e.1 e.2 then v.mergeInto e.1 e.2 else v) v

/-- The waiting lanes at a program counter. -/
def Group.waitingAt (v : Group) (pc : BitVec 24) : Mask := maskOf fun l => tabFind v.waiting l == some pc

/-- Waiting lanes leave the waiting list. -/
def Group.unwait (v : Group) (m : Mask) : Group := { v with waiting := tabFilter (fun l _ => !m.getLsbD l) v.waiting }

/-- Lanes of a mask wait at a program counter (R41). -/
def Group.addWaiting (v : Group) (m : Mask) (pc : BitVec 24) : Group :=
  { v with waiting := (maskLanes m).foldl (fun t l => tabSet t l pc) v.waiting }

/-- A record goes on with some of its lanes; the others, which wait for an instruction of their own there, become waiting lanes. -/
def Group.isolate (v : Group) (k : Nat) (m : Mask) : Group :=
  let x := v.split k
  let rest := x.mask &&& ~~~m
  if rest = 0 then v else (v.setSplit k { x with mask := m }).addWaiting rest x.pc

/-- Step 2 of R42, for one record. -/
def Group.joinWaiting (v : Group) (k : Nat) : Group :=
  let x := v.split k
  if x.used then
    let m := v.waitingAt x.pc
    if m = 0 then v
    else (v.setSplit k { x with mask := x.mask ||| m, wait := joinWait x.wait .none }).unwait m
  else v

/-- The lowest program counter of the waiting lanes that `ok` admits. -/
def lowestWaiting (t : Tab (BitVec 24)) : Option (BitVec 24) :=
  t.foldl (fun b e => match b with | some p => if e.2 < p then some e.2 else b | none => some e.2) none

/-- The lowest free record. -/
def Group.freeSplit (v : Group) : Option Nat := lowest 4 fun k => !(v.split k).used

/-- One application of step 3 of R42: the lowest free record takes the waiting lanes of the lowest program counter. -/
def Group.takeWaiting (v : Group) : Group :=
  match v.freeSplit, lowestWaiting v.waiting with
  | some k, some pc =>
    let m := v.waitingAt pc
    (v.setSplit k { used := true, pc := pc, mask := m, taken := v.laneN }).unwait m
  | _, _ => v

/-- Lanes of the lowest record at `lend` become finished lanes while waiting lanes have no record (R42, R199). -/
def Group.freeEnded (v : Group) : Group :=
  if v.waiting.isEmpty || v.freeSplit.isSome then v
  else
    match lowest 4 fun k => (v.split k).used && (v.split k).atEnd with
    | some k =>
      let m := (v.split k).mask
      let b := v.block.map fun b => { b with finished := b.finished ||| m }
      ({ v.setSplit k {} with block := b, freedN := v.laneN }).takeWaiting
    | none => v

/-- The checks of R42, and the end of the block. -/
def Group.reconverge (v : Group) : Group :=
  let v := v.mergeSplits
  let v := ((v.joinWaiting 0).joinWaiting 1 |>.joinWaiting 2).joinWaiting 3
  let v := v.takeWaiting.takeWaiting.takeWaiting.takeWaiting
  v.freeEnded.freeEnded.freeEnded.freeEnded.endBlock

/-! ### Readiness (R43, R189, R198) -/

/-- A joining split may go on: no other split and no waiting lane stands below its position, or the join has timed out (R198). -/
def Group.joinReady (v : Group) (k : Nat) : Bool :=
  let x := v.split k
  match x.join with
  | none => true
  | some since =>
    x.joinOk || decide (since + 4096 ≤ v.laneN) ||
      (((List.range 4).all fun j => j == k || !(v.split j).used || !decide ((v.split j).pc < x.pc))
        && v.waiting.all fun e => !decide (e.2 < x.pc))

/-- The splits that the sequencer may try, in the order of R43: one passed over 64 times first, then by program counter. -/
def Group.candidates (v : Group) : List Nat :=
  let can := (List.range 4).filter fun k => (v.split k).used && !(v.split k).atEnd && v.joinReady k && (v.heldOf k).isNone
  let insert (acc : List Nat) (k : Nat) : List Nat :=
    (acc.filter fun j => decide ((v.split j).pc ≤ (v.split k).pc)) ++ [k] ++ acc.filter fun j => !decide ((v.split j).pc ≤ (v.split k).pc)
  let byPc := can.foldl insert []
  (byPc.filter fun k => 64 ≤ (v.split k).passed) ++ byPc.filter fun k => !decide (64 ≤ (v.split k).passed)

/-- The other candidates have been passed over once more (R43). -/
def Group.passOver (v : Group) (k : Nat) (others : List Nat) : Group :=
  others.foldl (fun v j => if j = k then v else v.modSplit j fun x => { x with passed := x.passed + 1 }) v

/-! ### Issue of a lane instruction -/

/-- What a lane instruction that issues works on. -/
structure LaneIn where
  g     : GroupRef
  k     : Fin 4
  pos   : Nat
  mask  : Mask
  acted : Mask
  zero  : Bool
  /-- The entries popped, by name. -/
  pops  : List (Nat × QEntry)
  /-- The number of the entry reserved for the result; 0 when there is none yet (R323). -/
  op    : Nat
  rnd   : BitVec 3
  wides : Wides
  a     : Src
  b     : Src
  c     : Src
  d     : Src
  deriving DecidableEq, Repr

/-- A wait at a queue. -/
def SplitWait.isQueue (w : SplitWait) : Bool := match w with | .queue _ _ _ _ => true | _ => false

/-- The place in the order of waiting that a split has on its queues; beyond every place when it does not wait (R327). -/
def State.splitNo (s : State) (g : GroupRef) (k : Fin 4) : Nat :=
  match ((s.group g).split k.val).wait with | .queue _ no _ _ => no | _ => s.nextId

/-- The split waits, and nothing of its instruction takes place (R189). A wait for a load keeps the time at which it began (R45). -/
def State.splitWait (s : State) (g : GroupRef) (k : Fin 4) (w : SplitWait) : State :=
  let s := if w.isQueue && !((s.group g).split k.val).wait.isQueue then (s.countFor (.lane g k) 0x0D).takeId else s
  s.modGroup g fun v => v.modSplit k.val fun x =>
    match x.wait, w with
    | .remoteLoad _, .remoteLoad _ => x
    | _, _ => { x with wait := w }

/-- The rounding mode of a lane instruction: its prefix's, or the mode in force when its block's `lrun` issued (R82, R147). -/
def laneRnd (v : Group) (w : LaneWord) : BitVec 3 :=
  match w.pre with
  | some p => if p.rnd = 0 then ((v.block.map (·.rnd)).getD 1) else p.rnd
  | none => (v.block.map (·.rnd)).getD 1

/-- The lanes acted on, of those that execute an instruction (R182, R183). -/
def actedMask (v : Group) (m : Mask) (w : LaneWord) : Mask :=
  match w.pre with
  | some p => m &&& v.pred p.pred.toNat
  | none => m

/-- The prefix asks for zeroing. -/
def zeroing (w : LaneWord) : Bool := match w.pre with | some p => p.zero | none => false

/-- The latch that an instruction captures into. -/
def capOf (w : LaneWord) : Option (BitVec 3) := if w.cap then some w.latch else none

/-- The operands of a lane instruction that some lanes execute, once its queue step has taken place. -/
def State.laneIn (s : State) (g : GroupRef) (k : Fin 4) (m : Mask) (i : Instr) (w : LaneWord) (pops : List (Nat × QEntry)) (op : Nat) :
    LaneIn :=
  let v := s.group g
  let x := v.split k.val
  let ws := laneWides i w
  { g := g, k := k, pos := x.pc.toNat, mask := m, acted := actedMask v m w, zero := zeroing w, pops := pops, op := op, rnd := laneRnd v w, wides := ws,
    a := s.source g k pops i w w.sa ws.a, b := s.source g k pops i w w.sb ws.b, c := s.source g k pops i w w.sc ws.c,
    d := s.source g k pops i w (dCode w) ws.d }

/-- The fold of an instruction into its split's block hash (R202); the control group folds nothing. -/
def foldBh (i : Instr) (x : Split) : Split :=
  match laneOpcode i with
  | some (opc, w) => if isLaneControl i then x else { x with bh := rot5 x.bh ^^^ (opc ++ w.typ).setWidth 32 }
  | none => x

/-- What every lane instruction does at its issue beside its own effect: it folds, it counts, its split waits no more (R43, R198, R202,
R203), and its sources are unpacked (R181). -/
def Group.issued (v : Group) (k : Fin 4) (i : Instr) (w : LaneWord) (acted : Mask) : Group :=
  let v := ((laneSources i w).flatMap fun e => codeRegs e.1 e.2).foldl Group.unspill v
  let v := v.modSplit k.val fun x => { foldBh i x with join := none, joinOk := false, wait := .none, passed := 0 }
  { v.trackMask acted with laneN := v.laneN + 1 }

/-- Moves a split to the next position and lets the records meet (R42). -/
def State.laneNext (s : State) (g : GroupRef) (k : Fin 4) : State :=
  s.modGroup g fun v => (v.modSplit k.val fun x => { x with pc := x.pc + 1 }).reconverge

/-- Every entry popped is filled. -/
def popsFilled (pops : List (Nat × QEntry)) : Bool := pops.all fun e => e.2.filled

/-- A lane instruction takes its queue step: it has issued. With every entry that it popped filled it has its effect; else it keeps its
entries, reserves the one of its result, and waits (R323). -/
def State.laneStep (s t : State) (g : GroupRef) (k : Fin 4) (i : Instr) (w : LaneWord) (pops : List (Nat × QEntry))
    (act : LaneIn → State → State) : State :=
  let x := s.laneIn g k ((s.group g).split k.val).mask i w pops 0
  let t := t.modGroup g fun v => v.issued k i w x.acted
  if popsFilled pops then act x t
  else
    let op := t.nextId
    (t.takeId.reserveEntry g w.dst 0 op).modGroup g fun v => v.hold k.val { lanes := 0, pops := pops, op := if isQ w.dst then op else 0 }

/-- Issues a lane instruction of the executing split: the checks of R86, the wait for loads of R280, the queue step of R323, and then its
effect on the state in which its queue entries have been popped. One that has issued, and waited for the filling of what it popped, has
its effect when that is there. -/
def State.laneIssue (s : State) (i : Instr) (w : LaneWord) (act : LaneIn → State → State) : State :=
  match s.cur with
  | .lane g k =>
    let v := s.group g
    match v.heldOf k.val with
    | some h =>
      if h.kind = .fill && popsFilled h.pops then
        let m := v.heldMask k.val h
        act (s.laneIn g k m i w h.pops h.op) (s.modGroup g fun v => (v.isolate k.val m).unhold h)
      else s
    | none =>
    match laneFault (v.split k.val).pc.toNat i with
    | some f => s.raise (Cause.ofEnc f)
    | none =>
      if beyondAllotment i w v.nreg then s.raise .registerBound
      else if awaitsLoad v i w then s.splitWait g k (.remoteLoad s.now.toNat)
      else if lostLatch v i w then (s.countFor s.cur 0x07).raise .latchLost
      else if s.queueMisuse g i w then s.raise .queueMisuse
      else
        match s.queueStep g (s.splitNo g k) i w with
        | .blocked push => s.splitWait g k (.queue push (s.splitNo g k) (popNames i w) (pushName w))
        | .ready pops t => s.laneStep t g k i w pops act
  | _ => s

/-- Issues a lane instruction that may wait after its issue: `start` is what takes place at its issue, with what it waits for, and `goOn`
tries to complete it. One that waits already goes on. -/
def State.laneWaiting (s : State) (i : Instr) (w : LaneWord) (start : LaneIn → State → State × HeldKind)
    (goOn : LaneIn → HeldOp → State → State) : State :=
  let begin (x : LaneIn) (t : State) : State :=
    let (t, kind) := start x t
    let new := isQ w.dst && x.op == 0
    let op := if new then t.nextId else x.op
    let t := if new then t.takeId.reserveEntry x.g w.dst 0 op else t
    let h : HeldOp := { lanes := ((t.group x.g).split x.k.val).mask, pops := x.pops, op := op, kind := kind }
    goOn x h (t.modGroup x.g fun v => v.hold x.k.val h)
  match s.cur with
  | .lane g k =>
    match (s.group g).heldOf k.val with
    | some h =>
      if h.kind = .fill then s.laneIssue i w begin
      else goOn (s.laneIn g k ((s.group g).heldMask k.val h) i w h.pops h.op) h s
    | none => s.laneIssue i w begin
  | _ => s

/-- A lane instruction that waited completes with some values. -/
def State.laneDone (s : State) (x : LaneIn) (h : HeldOp) (w : LaneWord) (vals : List Word) : State :=
  ((s.modGroup x.g fun v => (v.isolate x.k.val x.mask).unhold h).writeResult x.g w.dst x.wides.dst x.acted x.zero (capOf w) h.op vals
    {}).laneNext x.g x.k

/-- What a computing lane instruction gives: the result of each lane, the tag of a covering write, the flags it sets (NV, OF, UF, NX from
bit 0) and the LFSR it leaves. -/
structure LaneOut where
  vals  : List Word
  tag   : Tag := {}
  flags : BitVec 4 := 0
  lfsr  : Option W32 := none
  deriving DecidableEq, Repr

/-- The flags and the LFSR of `GRP.FPC` after a lane instruction (R142). -/
def updateFpc (fpc : Word) (flags : BitVec 4) (lfsr : Option W32) : Word :=
  let f := fpc ||| (flags.setWidth 64 <<< 4)
  match lfsr with
  | some x => setBits f 63 32 x.toNat
  | none => f

/-- A lane instruction that computes a result and writes it to its destination and latch. -/
def State.laneCompute (s : State) (i : Instr) (w : LaneWord) (f : LaneIn → Group → LaneOut) : State :=
  s.laneIssue i w fun x t =>
    let r := f x (t.group x.g)
    let t := t.modGroup x.g fun v => { v with fpc := updateFpc v.fpc r.flags r.lfsr }
    (t.writeResult x.g w.dst x.wides.dst x.acted x.zero (capOf w) x.op r.vals r.tag).laneNext x.g x.k

end Sys2Proof.Machine
end

