-- ==== Sys2Proof/Machine/LaneStream.lean ====
section
/-! DEFINITION. Moving between the streams (R154 to R158, R166) and the events of the lane stream (R39, R43, R198). -/

namespace Sys2Proof.Machine

/-! ### Words that append to the lane queue -/

/-- Appends an entry and moves past the word; while the queue of 16 is full the scalar stream stalls at the word (R38, R154). -/
def State.appendLane (s : State) (e : LaneEntry) : State :=
  match s.cur with
  | .scalar g =>
    if (s.group g).lq.length < 16 then (s.modGroup g fun v => { v with lq := v.lq ++ [e] }).advance else s.waitOn .stall
  | _ => s

/-- The lane queue of the executing group is full. -/
def State.laneFull (s : State) : Bool :=
  match s.cur with
  | .scalar g => decide (16 ≤ (s.group g).lq.length)
  | _ => false

/-- The mask that `mk0` to `mk2` hold (R38). -/
def State.maskRegs (s : State) : Mask :=
  (s.sreg 62).extractLsb' 0 32 ++ (s.sreg 61).extractLsb' 0 32 ++ (s.sreg 60).extractLsb' 0 32

/-- The executing group's rounding mode (R142). -/
def State.fpcRnd (s : State) : BitVec 3 :=
  match agentGroup s.cur with
  | some g => (s.group g).fpc.extractLsb' 0 3
  | none => 1

/-- `lrun` (R155): the mask registers are read as sources. -/
def execLrun (a : BitVec 6) (i : BitVec 14) (s : State) : Host.Outcome State Fault Refusal :=
  .next (s.issue { reads := [a, 60, 61, 62], slots := .groupOnly } fun s =>
    s.appendLane (.block (codeAddr (s.sreg a + (i.signExtend 64 <<< 2))) s.maskRegs s.fpcRnd))

/-- The vector register of `lput` or `lget`, and its partner when W = 1, lie in the allotment (R156, R157). -/
def State.laneRegOk (s : State) (n : BitVec 7) (wide : Bool) : Bool :=
  match agentGroup s.cur with
  | some g => decide (n.toNat + (if wide then 1 else 0) < (s.group g).nreg)
  | none => false

/-- `lput` in both widths (R156). -/
def State.doLput (s : State) (n : BitVec 7) (wide : Bool) (a : BitVec 6) (i : Instr) : State :=
  s.issue { reads := [a], slots := .groupOnly, bad := scalarReserved i } fun s =>
    if s.laneRegOk n wide then s.appendLane (.lput n wide (s.sreg a)) else s.raise .registerBound

/-- `lget` in both widths (R157): d becomes a pending token, and with d = `s0` there is none. -/
def State.doLget (s : State) (d : BitVec 6) (n : BitVec 7) (wide : Bool) (b : BitVec 6) (i : Instr) : State :=
  s.issue { reads := [b], token := some d, freeToken := true, slots := .groupOnly, bad := scalarReserved i } fun s =>
    if !s.laneRegOk n wide then s.raise .registerBound
    else if s.laneFull then s.waitOn .stall
    else (s.appendLane (.lget d n wide (s.sreg b))).setPending d

/-- `lput`. -/
def execLput (n : BitVec 7) (a : BitVec 6) (s : State) : Host.Outcome State Fault Refusal := .next (s.doLput n false a (.lput n a))
/-- `lput.w`. -/
def execLputW (n : BitVec 7) (a : BitVec 6) (s : State) : Host.Outcome State Fault Refusal := .next (s.doLput n true a (.lputW n a))
/-- `lget`. -/
def execLget (d : BitVec 6) (n : BitVec 7) (b : BitVec 6) (s : State) : Host.Outcome State Fault Refusal :=
  .next (s.doLget d n false b (.lget d n b))
/-- `lget.w`. -/
def execLgetW (d : BitVec 6) (n : BitVec 7) (b : BitVec 6) (s : State) : Host.Outcome State Fault Refusal :=
  .next (s.doLget d n true b (.lgetW d n b))
/-- `lsync` (R158). -/
def execLsync (s : State) : Host.Outcome State Fault Refusal :=
  .next (s.issue { slots := .groupOnly } fun s => s.afterLanes State.advance)
/-- `sigrst` (R166). -/
def execSigrst (s : State) : Host.Outcome State Fault Refusal :=
  .next (s.issue { slots := .groupOnly } fun s => s.appendLane .sigrst)

/-! ### The lane stream takes an entry (R39, R154) -/

/-- The lane stream may take its next entry: the group is active and no block runs. -/
def Group.takes (v : Group) : Bool := v.st == .active && v.block.isNone

/-- No load or atomic in flight writes the registers of an entry (R280). -/
def Group.regsSettled (v : Group) (n : Nat) (wide : Bool) : Bool :=
  let mine := if wide then [n, n + 1] else [n]
  v.sc.memq.all fun o =>
    match o.dest with
    | .lane dst w _ _ _ => (codeRegs dst w).all fun r => !mine.contains r
    | _ => true

/-- A block starts: split 0 at its start with the initial mask; an empty mask ends it at once (R39, R202). -/
def execLaneBlockStart (g : GroupRef) (s : State) : Host.Outcome State Fault Refusal :=
  .next (s.modGroup g fun v =>
    match v.lq with
    | .block addr m rnd :: rest =>
      if !v.takes then v
      else if m = 0 then { v with lq := rest }
      else
        { v with lq := rest, block := some { addr := addr, mask := m, rnd := rnd, first := s.nextId }, waiting := [], freedN := v.laneN,
                 splits := [(0, { used := true, mask := m, bh := bhStart, bhv := true, taken := v.laneN })] }
    | _ => v)

/-- An `lput` entry is taken (R156). -/
def execLputEntryTaken (g : GroupRef) (s : State) : Host.Outcome State Fault Refusal :=
  .next (s.modGroup g fun v =>
    match v.lq with
    | .lput n wide x :: rest =>
      if v.takes && v.regsSettled n.toNat wide then ({ v with lq := rest }).writeUniform n.toNat wide x else v
    | _ => v)

/-- The value that `lget` reads from a lane (R157). -/
def Group.lgetValue (v : Group) (n : Nat) (wide : Bool) (l : Word) : Word :=
  if 96 ≤ l.toNat then 0 else v.laneOf n wide l.toNat

/-- An `lget` entry is taken: its register is written and stops being pending (R157). -/
def execLgetEntryTaken (g : GroupRef) (s : State) : Host.Outcome State Fault Refusal :=
  let v := s.group g
  .next (match v.lq with
    | .lget d n wide l :: rest =>
      if v.takes && v.regsSettled n.toNat wide then
        let u := (s.modGroup g fun v =>
          let v := v.unspill n.toNat
          { (if wide then v.unspill (n.toNat + 1) else v) with lq := rest })
        if d = 0 then u else u.writeToken (.scalar g) d (v.lgetValue n.toNat wide l) false
      else s
    | _ => s)

/-- A `sigrst` entry is taken: `GRP.SIG` becomes 0 (R166). -/
def execSigrstEntryTaken (g : GroupRef) (s : State) : Host.Outcome State Fault Refusal :=
  .next (s.modGroup g fun v =>
    match v.lq with
    | .sigrst :: rest => if v.takes then { v with lq := rest, sig := 0 } else v
    | _ => v)

/-! ### Starvation and joins (R43, R198) -/

/-- The split that has held its record longest. -/
def Group.oldestSplit (v : Group) : Option Nat :=
  (List.range 4).foldl (fun best k =>
    if (v.split k).used then
      match best with
      | some b => if (v.split k).taken < (v.split b).taken then some k else best
      | none => some k
    else best) none

/-- Waiting lanes exist and no record has been freed during the last 4,096 lane instructions: the oldest record's lanes wait, and other
waiting lanes take it (R43, R42 step 3). -/
def Group.demote (v : Group) : Group :=
  if !v.waiting.isEmpty && decide (v.freedN + 4096 ≤ v.laneN) then
    match v.oldestSplit, lowestWaiting v.waiting with
    | some k, some pc =>
      let x := v.split k
      let m := v.waitingAt pc
      let v := ((v.setSplit k { used := true, pc := pc, mask := m, taken := v.laneN }).unwait m).addWaiting x.mask x.pc
      ({ v with freedN := v.laneN }).reconverge
    | _, _ => v
  else v

/-- The lane sequencer looks for starving lanes after each lane instruction, and at this event. -/
def execSplitStarvationDemote (g : GroupRef) (s : State) : Host.Outcome State Fault Refusal := .next (s.modGroup g Group.demote)

/-- A joining split becomes ready when 4,096 lane instructions of the group have issued since it was marked (R198). -/
def execJoinTimeout (g : GroupRef) (rec : Fin 4) (s : State) : Host.Outcome State Fault Refusal :=
  .next (s.modGroup g fun v =>
    match (v.split rec.val).join with
    | some t => if (v.split rec.val).used && decide (t + 4096 ≤ v.laneN) then v.modSplit rec.val fun x => { x with joinOk := true } else v
    | none => v)

end Sys2Proof.Machine
end

