-- ==== Sys2Proof/Machine/Fetch.lean ====
section
/-! DEFINITION. Instruction fetch through the cluster instruction caches (R58, R63 to R66), and the events of a miss. -/

namespace Sys2Proof.Machine

/-! ### The cluster instruction cache -/

/-- The address space in which a fetcher fetches: a group's under its grid's ASID, an agent's from the firmware store by physical
address (R459). -/
def State.codeSpace (s : State) (a : Agent) : CodeSpace :=
  match agentGroup a with
  | some g => .asid (s.gridOf g).asid
  | none => .phys

/-- The words that an agent's cluster holds. -/
def State.codeOf (s : State) (a : Agent) : List CodeWord :=
  tabGet [] (s.slice (agentCore a).slice).icache (agentCore a).cluster

/-- The word at an address, when the cluster's instruction cache holds it. -/
def State.fetchAt (s : State) (a : Agent) (addr : Word) : Option W32 :=
  ((s.codeOf a).find? fun x => x.space == s.codeSpace a && x.addr == addr).map (·.word)

/-- Puts words into a cluster's instruction cache, in place of those it held at their addresses. -/
def State.putCode (s : State) (i : SliceId) (cluster : Nat) (ws : List CodeWord) : State :=
  s.modSlice i fun k =>
    let old := (tabGet [] k.icache cluster).filter fun x => !ws.any fun y => y.space == x.space && y.addr == x.addr
    { k with icache := tabSet k.icache cluster (ws ++ old) }

/-- The cluster's instruction cache discards every line that carries an ASID (R66). -/
def State.dropCode (s : State) (i : SliceId) (cluster : Nat) (asid : W16) : State :=
  s.modSlice i fun k =>
    { k with icache := tabSet k.icache cluster ((tabGet [] k.icache cluster).filter fun x => x.space != .asid asid) }

/-! ### Positions of a lane block (R65) -/

/-- The address of position n of a block, or the address of a word that the cache does not hold. -/
def laneAddr (f : Word → Option W32) : Nat → Word → Except Word Word
  | 0, a => .ok a
  | n + 1, a =>
    match f a with
    | none => .error a
    | some w => laneAddr f n (a + if isPrefixWord w then 16 else 12)

/-- The words at an instruction-start position: four with a prefix, else three. -/
def laneWordsAt (f : Word → Option W32) (a : Word) : Except Word (List W32) :=
  match f a with
  | none => .error a
  | some w =>
    (List.range (if isPrefixWord w then 3 else 2)).foldl (fun acc i =>
      match acc with
      | .error x => .error x
      | .ok ws =>
        let b := a + 4 + BitVec.ofNat 64 (4 * i)
        match f b with
        | none => .error b
        | some v => .ok (ws ++ [v])) (.ok [w])

/-- The words of a split's next instruction, or the address that misses. -/
def State.laneFetch (s : State) (g : GroupRef) (k : Fin 4) : Except Word (List W32) :=
  let v := s.group g
  let f := s.fetchAt (.lane g k)
  match laneAddr f (v.split k.val).pc.toNat ((v.block.map (·.addr)).getD 0) with
  | .error a => .error a
  | .ok a => laneWordsAt f a

/-- The bits [95:64] of an instruction from its words. -/
def leadWord (ws : List W32) : W32 :=
  match ws with
  | w :: rest => if isPrefixWord w then rest.headD 0 else w
  | [] => 0

/-! ### Misses (R58) -/

/-- The address that a frozen or freezing sequencer needs. -/
def State.missAddr (s : State) (f : Fetcher) : Option Word :=
  match f with
  | .lane g k => match s.laneFetch g k with | .error a => some a | .ok _ => none
  | _ =>
    let a := fetcherAgent f
    let pc := codeAddr (s.scOf a).spc
    if (s.fetchAt a pc).isSome then none else some pc

/-- Freezes or frees a sequencer. -/
def State.setFrozen (s : State) (f : Fetcher) (b : Bool) : State :=
  match f with
  | .lane g k => s.modGroup g fun v => v.modSplit k.val fun x =>
      match b, x.wait with
      | true, _ => { x with wait := .fetch }
      | false, .fetch => { x with wait := .none }
      | false, _ => x
  | _ => s.modSc (fetcherAgent f) fun c => { c with frozen := b }

/-- The sequencer is frozen. -/
def State.isFrozen (s : State) (f : Fetcher) : Bool :=
  match f with
  | .lane g k => ((s.group g).split k.val).wait == .fetch
  | _ => (s.scOf (fetcherAgent f)).frozen

/-- A fetch misses the cluster's instruction cache: only that sequencer freezes, and the schedule-slip counter rises (R58, R412). -/
def execFetchMiss (f : Fetcher) (s : State) : Host.Outcome State Fault Refusal :=
  let a := fetcherAgent f
  .next (match s.missAddr f with
    | none => s
    | some _ =>
      if s.isFrozen f then s
      else ((s.bumpCoreReg (agentCore a) 0x101).count (agentCore a) 0x12 (s.tenantOf a)).setFrozen f true)

/-- The firmware image of a generation: its bytes from the store (R459). -/
def State.imageByte (s : State) (p : PartId) (a : Nat) : Byte :=
  match ((s.part p).images.filter fun e => e.1 % 2 == a / 0x800000 % 2).getLast? with
  | some (_, m) => memGet m (a % 0x800000)
  | none => Config.shippedImage (a % 0x800000)

/-- The 32-bit words of the aligned 64 bytes around an address, from 16 consecutive word values. -/
def codeLine (space : CodeSpace) (addr : Word) (bs : Nat → Byte) : List CodeWord :=
  let base := addr.toNat / 64 * 64
  (List.range 16).map fun i =>
    { space := space, addr := BitVec.ofNat 64 (base + 4 * i),
      word := BitVec.ofNat 32 (bytesToNat ((List.range 4).map fun j => bs (4 * i + j))) }

/-- A fetch of code ends one way or another: the line is there, it misses in translation, or it faults. -/
inductive CodeFetch where
  | line (ws : List CodeWord)
  | miss (asid : W16) (va : Word)
  | fault (c : Cause)

/-- Reads the line of code at an address for an agent (R58, R268, R275). Code in a window reads as its bytes. -/
def State.codeRead (s : State) (a : Agent) (addr : Word) : CodeFetch :=
  match agentGroup a with
  | none => .line (codeLine .phys addr fun i => s.imageByte (s.agentPart a) (addr.toNat / 64 * 64 + i))
  | some _ =>
    let asid := s.agentAsid a
    match s.placeOf a asid none (BitVec.ofNat 64 (addr.toNat / 64 * 64)) with
    | .badAddress _ => .fault .translation
    | .global _ va =>
      match s.reach (s.agentPart a) asid va 4 with
      | .miss => .miss asid va
      | .dyke => .fault .dyke
      | .ok pa _ =>
        if s.poisoned pa 64 false then .fault .poisoned
        else .line (codeLine (.asid asid) addr fun i => memGet s.mem (pa + i))
    | pl => .line (codeLine (.asid asid) addr fun i => (s.chipRead pl 64).getD i 0)

/-- A line of code that a group's fetch reads at its home: it is used or filled in the L2, and an error may strike it (R267, R275). -/
def State.codeUse (s : State) (a : Agent) (addr : Word) : State × Option Cause :=
  match agentGroup a, s.placeOf a (s.agentAsid a) none (BitVec.ofNat 64 (addr.toNat / 64 * 64)) with
  | some _, .global asid va =>
    let p := s.agentPart a
    (match s.reach p asid va 4 with
     | .ok pa hc =>
       (match targetOf pa with
        | .hbm t =>
          let (i, seg) := s.home p (va.toNat / 64)
          (match s.readLine i t pa 64 with
           | (s, none) => (s.holdLine i seg (pa / 64) (lineKey asid (va.toNat / 64)) hc p a, none)
           | r => r)
        | _ => (s, none))
     | _ => (s, none))
  | _, _ => (s, none)

/-- A fetch of an agent's parked or frozen sequencer is held in a bog or at a controller's input. -/
def State.fetchParked (s : State) (f : Fetcher) : Bool :=
  allSlices.any fun i =>
    ((s.slice i).bog.any fun e => e.2.used && e.2.who == .fetch f) || (s.slice i).missq.any fun e => e.who == .fetch f

/-- The line of a frozen sequencer arrives: it enters the cluster's instruction cache and the sequencer goes on. A miss in translation
parks the fetch (R66, R269). -/
def execFetchFill (f : Fetcher) (s : State) : Host.Outcome State Fault Refusal :=
  let a := fetcherAgent f
  .next (match s.missAddr f with
    | none => s.setFrozen f false
    | some addr =>
      if !s.isFrozen f || s.fetchParked f then s
      else
        match s.codeRead a addr with
        | .line ws =>
          (match s.codeUse a addr with
           | (t, none) => (t.putCode (agentCore a).slice (agentCore a).cluster ws).setFrozen f false
           | (t, some c) => (t.setFrozen f false).raiseAfar a c addr 0 0 addr)
        | .miss asid va => s.park (s.agentPart a) asid va 4 (.fetch f)
        | .fault c => (s.setFrozen f false).raiseAfar a c addr (if c = .translation then 4 else 0) 0 addr)

end Sys2Proof.Machine
end

