-- ==== Sys2Proof/Machine/ScalarMem.lean ====
section
/-! DEFINITION. Scalar loads, stores and atomics (R276, R277), `fence` (R306, R312) and the scalar watch (R282). -/

namespace Sys2Proof.Machine

/-- Bytes of a width code of `lds` and `sts` (R72). -/
def widthOf (wid : BitVec 3) : Nat := 2 ^ (wid.toNat / 2)

/-- An address with the bits below log2 of the width cleared (R263). -/
def alignTo (n : Nat) (va : Word) : Word := BitVec.ofNat 64 (va.toNat / n * n)

/-- The address of `lds` and `sts` (R276). -/
def scalarAddr (base : Word) (wid : BitVec 3) (off : BitVec 11) : Word :=
  alignTo (widthOf wid) (base + off.signExtend 64 * BitVec.ofNat 64 (widthOf wid))

/-- Issues a scalar access of n bytes by the executing agent. -/
def State.scalarAccess (s : State) (kind : AccKind) (n : Nat) (signed : Bool) (va value expect : Word) (dest : AccDest)
    (order : BitVec 2) (scope : BitVec 3) : State :=
  s.issueOp
    { id := 0, kind := kind, width := n, signed := signed,
      accs := [{ lane := 0, place := s.placeOf s.cur (s.agentAsid s.cur) none va, value := value, expect := expect }],
      dest := dest, order := order, scope := scope, word := s.word, pc := s.spc } [va]

/-- `lds` (R276). -/
def execLds (d a : BitVec 6) (wid : BitVec 3) (off : BitVec 11) (s : State) : Host.Outcome State Fault Refusal :=
  .next (s.issue { form2 d a with bad := scalarReserved (.lds d a wid off) } fun s =>
    (s.scalarAccess .load (widthOf wid) (!wid.getLsbD 0) (scalarAddr (s.sreg a) wid off) 0 0 (.sreg d) 0 0).advance)

/-- `sts` (R276). -/
def execSts (d a : BitVec 6) (wid : BitVec 3) (off : BitVec 11) (s : State) : Host.Outcome State Fault Refusal :=
  .next (s.issue { reads := [a, d], bad := scalarReserved (.sts d a wid off) } fun s =>
    (s.scalarAccess .store (widthOf wid) false (scalarAddr (s.sreg a) wid off) (s.sreg d) 0 .none 0 0).advance)

/-- `amos` (R277): d receives the old value, and `cas` reads d as the expected one. -/
def execAmos (d a b : BitVec 6) (op : BitVec 3) (order : BitVec 2) (scope : BitVec 3) (s : State) :
    Host.Outcome State Fault Refusal :=
  .next (s.issue
    { reads := if op = 7#3 then [a, b, d] else [a, b], dest := some d, bad := scalarReserved (.amos d a b op order scope) } fun s =>
    (s.scalarAccess (.amo op true) 8 false (alignTo 8 (s.sreg a)) (s.sreg b) (s.sreg d) (.sreg d) order scope).advance)

/-- What a fence waits for (R306): an acquire for every earlier load and atomic to return its value, a release for every earlier
access to be complete at the scope. -/
def State.fenceDone (s : State) (order : BitVec 2) (scope : BitVec 3) : Bool :=
  let q := (s.scOf s.cur).memq
  if order = 0#2 then !q.any fun o => o.kind.returns || o.kind == .fence
  else q.isEmpty && s.streamReleased s.cur scope

/-- The fence that joins the operations in flight of the executing agent. -/
def State.fenceOp (s : State) (order : BitVec 2) (scope : BitVec 3) : MemOp :=
  { id := s.nextId, kind := .fence, width := 0, accs := [], order := order, scope := scope, word := s.word, pc := s.spc,
    cover := (s.core (agentCore s.cur)).cov }

/-- `fence` (R306): it waits as `lsync` does, which is no blocking point; then it stands among the accesses in flight and holds back those
that issue after it, as long as its order asks. -/
def execFence (order : BitVec 2) (scope : BitVec 3) (s : State) : Host.Outcome State Fault Refusal :=
  .next (s.issue { bad := scalarReserved (.fence order scope) } fun s =>
    if !s.laneIdle s.cur then s.waitOn .stall
    else if s.fenceDone order scope then s.advance
    else (s.takeId.modSc s.cur fun c => { c with memq := c.memq ++ [s.fenceOp order scope] }).advance)

/-- `mwatch` (R282): arms the watch and reads the word. -/
def execMwatch (d a : BitVec 6) (s : State) : Host.Outcome State Fault Refusal :=
  .next (s.issue (form2 d a) fun s =>
    let va := alignTo 8 (s.sreg a)
    ((s.modSc s.cur fun c => { c with watch := some { addr := va }, watchAt := s.now }).scalarAccess .watch 8 false va 0 0 (.sreg d) 0 0).advance)

/-- What a watch finds when it reads its word again: the value, or that it must wait for the translation, or a fault. `lane`: that of a
lane watch; a scalar watch reaches the lane-private window as unmapped (R260). What is ordered before the read goes first (R302,
R306, R307). -/
def State.readWatch (s : State) (a : Agent) (n : Nat) (lane : Option Nat) (va : Word) : Performed :=
  let x : LaneAcc := { lane := lane.getD 0, place := s.placeOf a (s.agentAsid a) lane va }
  if s.mayPerform a (s.scOf a).memq { id := 0, kind := .watch, width := n, accs := [x] } then s.performAcc a .watch n x else .miss

/-- A watch whose read misses is parked once (R268, R269). -/
def State.parkWatch (s : State) (a : Agent) (va : Word) : State :=
  match agentFetcher a, s.placeOf a (s.agentAsid a) none va with
  | some f, .global asid va =>
    let held := allSlices.any fun i =>
      ((s.slice i).bog.any fun e => e.2.used && e.2.who == .memop f 0 && e.2.va == va)
        || (s.slice i).missq.any fun e => e.who == .memop f 0 && e.va == va
    match s.reach (s.agentPart a) asid va 7 with
    | .miss => if held then s else s.park (s.agentPart a) asid va 7 (.memop f 0)
    | _ => s
  | _, _ => s

/-- `mwaitv` (R282). -/
def execMwaitv (d a b : BitVec 6) (s : State) : Host.Outcome State Fault Refusal :=
  .next (s.issue (form3 d a b) fun s =>
    match (s.scOf s.cur).watch with
    | none => s.result d (s.sreg b)
    | some w =>
      let late := s.sreg a ≠ 0 && decide (s.sreg a ≤ s.now)
      let pause (t : State) : State :=
        (t.modSc s.cur fun c => { c with deadline := s.sreg a, watch := some { w with value := s.sreg b }, watchAt := s.now }).waitOn .monitor
      match s.readWatch s.cur 8 none w.addr with
      | .value t v => if v ≠ s.sreg b then t.result d v else if late then t.result d (s.sreg b) else pause t
      | .miss => if late then s.result d (s.sreg b) else pause (s.parkWatch s.cur w.addr)
      | .fault t c => t.raiseAfar s.cur c w.addr (if c = .translation then 7 else 0) s.word s.spc)

end Sys2Proof.Machine
end

