-- ==== Sys2Proof/Machine/Active.lean ====
section
/-! DEFINITION. The active set and blocking points (R44 to R46, R48, R189), the replies and performances of accesses (R276, R280,
R310, R312), monitors (R282, R283), L1 leases (R309) and memory-side faults (R275). -/

namespace Sys2Proof.Machine

/-! ### Clocks (R16, R17) -/

/-- The core clock of an operating point in units of 10 MHz (R17). -/
def opClock (op : Nat) : Nat := [70, 95, 115, 135, 155, 175, 190, 205].getD op 175

/-- The clock at which a slice's cores issue: the lower of the two points during a change (R18). -/
def State.clockOf (s : State) (i : SliceId) : Nat :=
  let w := s.sliceReg i 0x400
  if bitAt w 6 then min (opClock (bitsOf w 2 0)) (opClock (bitsOf w 5 3)) else opClock (bitsOf w 2 0)

/-- A number of cclk in ptick, rounded up (R16). -/
def State.cclkTicks (s : State) (i : SliceId) (n : Nat) : Nat := (n * 100 + s.clockOf i - 1) / s.clockOf i

/-- Since a stamp, a number of ptick have passed. -/
def State.passed (s : State) (since : Word) (n : Nat) : Bool := decide (since.toNat + n ≤ s.now.toNat)

/-! ### The active set (R44, R46, R48) -/

/-- The active groups of a core. -/
def State.activeGroups (s : State) (c : CoreRef) : List GroupRef := (s.slotsOf c).filter fun g => (s.group g).st == .active

/-- A deficit entry of a core (R399). -/
def State.deficit (s : State) (c : CoreRef) (ten : Nat) : Deficit := tabGet {} (s.core c).deficits ten

/-- The priority at which a group is taken (R44). -/
def Group.effPrio (v : Group) : Nat := if v.aged then 7 else v.prio.toNat

/-- The group comes before another in the order of R44 and R401: deficit, then the lower tenant entry, then priority, then not put back
by `yield`, then the longest ready, then the lowest slot. -/
def State.comesBefore (s : State) (c : CoreRef) (g h : GroupRef) : Bool :=
  let v := s.group g
  let u := s.group h
  let dv := (s.deficit c v.ten.toNat).deficit
  let du := (s.deficit c u.ten.toNat).deficit
  if dv ≠ du then decide (du < dv)
  else if v.ten ≠ u.ten then decide (v.ten < u.ten)
  else if v.effPrio ≠ u.effPrio then decide (u.effPrio < v.effPrio)
  else if v.young ≠ u.young then u.young
  else if v.readyAt ≠ u.readyAt then decide (v.readyAt < u.readyAt)
  else decide (g.slot < h.slot)

/-- The first of some groups in the order of choice. -/
def State.firstOf (s : State) (c : CoreRef) (gs : List GroupRef) : Option GroupRef :=
  gs.foldl (fun best g =>
    match best with
    | none => some g
    | some b => if s.comesBefore c g b then some g else best) none

/-- Changes the state of a group slot and stamps it (R48, R438). -/
def State.setGState (s : State) (g : GroupRef) (st : GState) : State := s.modGroup g fun v => { v with st := st, stamp := s.now }

/-- A core with fewer than eight active groups admits the first ready one (R44). -/
def State.admitNext (s : State) (c : CoreRef) : State :=
  if (s.activeGroups c).length < 8 then
    match s.firstOf c ((s.slotsOf c).filter fun g => (s.group g).st == .ready) with
    | some g => (s.setGState g .active).modGroup g fun v => { v with rcache := [] }
    | none => s
  else s

/-- The same, as an event. -/
def execGroupAdmit (c : CoreRef) (s : State) : Host.Outcome State Fault Refusal := .next (s.admitNext c)

/-- A ready group that has waited 65,536 cclk is taken as priority 7 until it issues (R44). -/
def State.ageGroup (s : State) (g : GroupRef) : State :=
  if (s.group g).st == .ready && s.passed (s.group g).readyAt (s.cclkTicks g.slice 65536) then s.modGroup g fun v => { v with aged := true }
  else s

/-- The same, as an event. -/
def execAdmissionAgeing (g : GroupRef) (s : State) : Host.Outcome State Fault Refusal := .next (s.ageGroup g)

/-- A remote-load wait of the scalar stream passes 512 cclk and becomes a blocking point (R45). A split's wait becomes one by its
time alone. -/
def State.remoteBlock (s : State) (g : GroupRef) : State :=
  if (s.group g).sc.wait == .remoteLoad && s.passed (s.group g).sc.since (s.cclkTicks g.slice 512) then
    s.modGroup g fun v => { v with sc := { v.sc with remote := true } }
  else s

/-- The same, as an event. -/
def execRemoteLoadBlock (g : GroupRef) (s : State) : Host.Outcome State Fault Refusal := .next (s.remoteBlock g)

/-! ### Replies (R276, R280, R310, R312) -/

/-- Performs the k-th operation in flight of an agent when it may be performed. -/
def State.performNth (s : State) (a : Agent) (k : Nat) (ok : AccKind → Bool) : State :=
  match s.opAt a k with
  | none => s
  | some (before, o) => if ok o.kind && s.mayPerform a before o then s.performOp a o (s.unparked a o) else s

/-- The reply of a load or atomic from beyond the core arrives (R276, R280). -/
def execRemoteLoadReply (f : Fetcher) (k : Nat) (s : State) : Host.Outcome State Fault Refusal :=
  .next (s.performNth (fetcherAgent f) k AccKind.returns)

/-- A store or atomic is performed at its home, and its completion time returns to the writer (R310, R311). -/
def execStorePerformedAtHome (f : Fetcher) (k : Nat) (s : State) : Host.Outcome State Fault Refusal :=
  .next (s.performNth (fetcherAgent f) k fun x => !x.reads && x != .fence)

/-- A release's wait ends: the fences before which every access is complete go, and a stalled stream with nothing left in flight goes on
(R306, R312). -/
def execWriteCompleteAtScope (f : Fetcher) (s : State) : Host.Outcome State Fault Refusal :=
  let a := fetcherAgent f
  let t := s.dropFences a (s.scOf a).memq.length
  .next (if (t.scOf a).wait == .stall && (t.scOf a).memq.isEmpty then t.modSc a fun c => { c with wait := .none } else t)

/-! ### Leases and faults from afar -/

/-- A line whose lease has expired leaves the L1 (R264, R309). -/
def execL1LeaseExpiry (c : CoreRef) (line : Nat) (s : State) : Host.Outcome State Fault Refusal :=
  .next (s.modCore c fun k => { k with l1 := k.l1.filter fun x => x.line != line || decide (s.now ≤ x.expiry) })

/-- The memory-side fault of a code (R275, R419). -/
def memoryCause (code : BitVec 8) : Option Cause :=
  match code.toNat with
  | 0x10 => some .translation
  | 0x11 => some .dyke
  | 0x12 => some .ecc
  | 0x13 => some .poisoned
  | 0x14 => some .headerAfar
  | _ => none

/-- A memory-side fault arrives from afar at a requester (R275). -/
def execMemorySideFault (f : Fetcher) (code : BitVec 8) (addr : Word) (detail : BitVec 8) (s : State) :
    Host.Outcome State Fault Refusal :=
  .next (match memoryCause code with
    | some c => s.raiseAfar (fetcherAgent f) c addr detail 0 (s.scOf (fetcherAgent f)).spc
    | none => s)

end Sys2Proof.Machine
end

