-- ==== Sys2Proof/Machine/Flags.lean ====
section
/-! DEFINITION. Number formats and rounding: the layouts of R101 to R106, exact values, `round` under the six modes (R122 to R126), the
conditions it reports (R128), and the stochastic LFSR (R123). -/

namespace Sys2Proof.Machine

/-! ### Formats (R103, R104) -/

/-- How a floating-point format uses its all-ones exponent. -/
inductive FKind where
  | ieee | e4m3 | e2m1
  deriving DecidableEq, Repr

/-- A binary floating-point format. -/
structure FFmt where
  ebits : Nat
  fbits : Nat
  bias  : Nat
  kind  : FKind := .ieee
  deriving DecidableEq, Repr

/-- FP64. -/
def fp64 : FFmt := { ebits := 11, fbits := 52, bias := 1023 }
/-- FP32. -/
def fp32 : FFmt := { ebits := 8, fbits := 23, bias := 127 }
/-- FP16. -/
def fp16 : FFmt := { ebits := 5, fbits := 10, bias := 15 }
/-- BF16. -/
def bf16 : FFmt := { ebits := 8, fbits := 7, bias := 127 }
/-- FP8 E4M3. -/
def e4m3 : FFmt := { ebits := 4, fbits := 3, bias := 7, kind := .e4m3 }
/-- FP8 E5M2. -/
def e5m2 : FFmt := { ebits := 5, fbits := 2, bias := 15 }
/-- FP4 E2M1. -/
def e2m1 : FFmt := { ebits := 2, fbits := 1, bias := 1, kind := .e2m1 }
/-- F96. -/
def f96 : FFmt := { ebits := 15, fbits := 80, bias := 16383 }

/-- The width in bits. -/
def FFmt.width (f : FFmt) : Nat := 1 + f.ebits + f.fbits
/-- The sign bit as a number. -/
def FFmt.sign (f : FFmt) (neg : Bool) : Nat := if neg then 2 ^ (f.ebits + f.fbits) else 0
/-- The code of infinity without its sign. -/
def FFmt.infCode (f : FFmt) : Nat := (2 ^ f.ebits - 1) * 2 ^ f.fbits
/-- The code of the largest finite magnitude. -/
def FFmt.maxCode (f : FFmt) : Nat :=
  match f.kind with
  | .ieee => f.infCode - 1
  | .e4m3 => 0x7E
  | .e2m1 => 7
/-- The canonical NaN (R104); E2M1 has none and gives +0 (R126). -/
def FFmt.nanCode (f : FFmt) : Nat :=
  match f.kind with
  | .ieee => f.infCode + 2 ^ (f.fbits - 1)
  | .e4m3 => 0x7F
  | .e2m1 => 0
/-- The smallest normal exponent. -/
def FFmt.emin (f : FFmt) : Int := 1 - (f.bias : Int)

/-! ### Exact values -/

/-- A value: NaN (signalling or quiet), an infinity, or ± num × 2^exp, where a zero keeps its sign. -/
inductive FV where
  | nan (sig : Bool)
  | inf (neg : Bool)
  | fin (neg : Bool) (num : Nat) (exp : Int)
  deriving DecidableEq, Repr

/-- Reads a code of a format (R103, R104). -/
def FFmt.decode (f : FFmt) (c : Nat) : FV :=
  let neg := c.testBit (f.ebits + f.fbits)
  let e := c / 2 ^ f.fbits % 2 ^ f.ebits
  let m := c % 2 ^ f.fbits
  let value : FV :=
    if e = 0 then .fin neg m (f.emin - f.fbits) else .fin neg (2 ^ f.fbits + m) ((e : Int) - f.bias - f.fbits)
  match f.kind with
  | .ieee => if e = 2 ^ f.ebits - 1 then (if m = 0 then .inf neg else .nan (!m.testBit (f.fbits - 1))) else value
  | .e4m3 => if c % 128 = 127 then .nan false else value
  | .e2m1 => value

/-- The value is NaN. -/
def FV.isNan : FV → Bool
  | .nan _ => true
  | _ => false
/-- The value is a signalling NaN. -/
def FV.isSig : FV → Bool
  | .nan s => s
  | _ => false
/-- The value is zero. -/
def FV.isZero : FV → Bool
  | .fin _ n _ => n == 0
  | _ => false
/-- The value is infinite. -/
def FV.isInf : FV → Bool
  | .inf _ => true
  | _ => false
/-- The sign. -/
def FV.neg : FV → Bool
  | .nan _ => false
  | .inf s => s
  | .fin s _ _ => s
/-- The sign inverted. -/
def FV.negate : FV → FV
  | .nan s => .nan s
  | .inf s => .inf (!s)
  | .fin s n e => .fin (!s) n e
/-- The sign cleared. -/
def FV.abs : FV → FV
  | .nan s => .nan s
  | .inf _ => .inf false
  | .fin _ n e => .fin false n e
/-- An integer as a value. -/
def FV.ofInt (x : Int) : FV := .fin (decide (x < 0)) x.natAbs 0

/-- A finite value in units of 2^e, for e at or below its exponent. -/
def FV.scaled (v : FV) (e : Int) : Int :=
  match v with
  | .fin s n x => let m : Int := n * 2 ^ (x - e).toNat; if s then -m else m
  | _ => 0

/-- The exponent of a finite value's representation. -/
def FV.exp : FV → Int
  | .fin _ _ e => e
  | _ => 0

/-- The order of two values that are not NaN: negative, zero or positive as the first is below, equal to or above the second. -/
def FV.cmp (x y : FV) : Int :=
  match x, y with
  | .inf a, .inf b => if a = b then 0 else if a then -1 else 1
  | .inf a, _ => if a then -1 else 1
  | _, .inf b => if b then 1 else -1
  | _, _ => x.scaled (min x.exp y.exp) - y.scaled (min x.exp y.exp)

/-- The exact sum of finite values from a common exponent: the sign of an exact zero is `zneg`. -/
def finSum (vs : List FV) (zneg : Bool) : FV :=
  let e : Int := vs.foldl (fun m v => min m v.exp) ((vs.head?.map FV.exp).getD 0)
  let s : Int := vs.foldl (fun a v => a + v.scaled e) 0
  if s = 0 then .fin zneg 0 0 else .fin (decide (s < 0)) s.natAbs e

/-- The product of two values; 0 × inf is NaN. -/
def FV.mul (x y : FV) : FV :=
  match x, y with
  | .fin a n e, .fin b m f => .fin (a != b) (n * m) (e + f)
  | .nan s, .nan t => .nan (s || t)
  | .nan s, _ => .nan s
  | _, .nan s => .nan s
  | _, _ => if x.isZero || y.isZero then .nan false else .inf (x.neg != y.neg)

/-- The sum of two values under IEEE 754; inf − inf is NaN. `rdn` gives the sign of an exact zero of opposite signs. -/
def FV.add (x y : FV) (rdn : Bool) : FV :=
  match x, y with
  | .fin a _ _, .fin b _ _ => finSum [x, y] (if a = b then a else rdn)
  | .nan s, .nan t => .nan (s || t)
  | .nan s, _ => .nan s
  | _, .nan s => .nan s
  | .inf a, .inf b => if a = b then .inf a else .nan false
  | .inf a, _ => .inf a
  | _, .inf b => .inf b

/-- Floor of log2 of a finite non-zero magnitude. -/
def FV.log2 (n : Nat) (e : Int) : Int := (Nat.log2 n : Int) + e

/-! ### Conditions (R128) -/

/-- Conditions of one operation: NV at bit 0, OF at bit 1, UF at bit 2, NX at bit 3. -/
abbrev Conds := BitVec 4
/-- Invalid. -/
def condNV : Conds := 1
/-- Overflow. -/
def condOF : Conds := 2
/-- Underflow. -/
def condUF : Conds := 4
/-- Inexact. -/
def condNX : Conds := 8
/-- A condition when it holds. -/
def condIf (b : Bool) (c : Conds) : Conds := if b then c else 0

/-! ### Rounding (R122, R123, R126) -/

/-- One step of the stochastic LFSR (R123). -/
def lfsrStep (s : W32) : W32 :=
  let s := if s = 0 then 1 else s
  let t := s >>> 1
  if s.getLsbD 0 then t ^^^ 0x80200003 else t

/-- r of R123. -/
def lfsrR (s : W32) : Nat := bitsOf s 31 8

/-- A magnitude n × 2^e rounded to units of 2^q: the count of units, and whether the result is inexact. Mode codes are those of R122;
`r` is the LFSR's contribution under mode 6. -/
def roundMag (mode r : Nat) (neg : Bool) (n : Nat) (e q : Int) : Nat × Bool :=
  if q ≤ e then (n * 2 ^ (e - q).toNat, false)
  else
    let d := (q - e).toNat
    let t := n >>> d
    let rem := n - t <<< d
    if rem = 0 then (t, false)
    else
      let half := 2 ^ (d - 1)
      let up : Bool := match mode with
        | 1 => decide (half < rem) || (rem == half && t.testBit 0)
        | 3 => !neg
        | 4 => neg
        | 5 => decide (half ≤ rem)
        | 6 => decide (2 ^ 24 ≤ rem * 2 ^ 24 / 2 ^ d + r)
        | _ => false
      (if up then t + 1 else t, true)

/-- The result of an "over" row of R126. -/
def FFmt.over (f : FFmt) (mode : Nat) (sat neg : Bool) : Nat × Conds :=
  let toInf : Bool := match mode with
    | 1 => true
    | 5 => true
    | 3 => !neg
    | 4 => neg
    | _ => false
  match f.kind with
  | .ieee => (f.sign neg + (if toInf && !sat then f.infCode else f.maxCode), condOF ||| condNX)
  | .e4m3 => (if toInf && !sat then f.nanCode else f.sign neg + f.maxCode, condOF ||| condNX)
  | .e2m1 => (f.sign neg + f.maxCode, condNX)

/-- A magnitude of at least 464 (R126). -/
def atLeast464 (n : Nat) (e : Int) : Bool :=
  if 0 ≤ e then decide (464 ≤ n * 2 ^ e.toNat) else decide (464 * 2 ^ (-e).toNat ≤ n)

/-- The exact value is tiny after rounding (R123): rounded with an unbounded exponent it lies below the smallest normal magnitude. -/
def FFmt.tiny (f : FFmt) (mode r : Nat) (neg : Bool) (n : Nat) (e : Int) : Bool :=
  let x := FV.log2 n e
  if x < f.emin - 1 then true
  else if x = f.emin - 1 then decide ((roundMag mode r neg n e (x - f.fbits)).1 < 2 ^ (f.fbits + 1))
  else false

/-- `round` of a finite value to a floating-point format. -/
def FFmt.roundFin (f : FFmt) (mode : Nat) (sat : Bool) (r : Nat) (neg : Bool) (n : Nat) (e : Int) : Nat × Conds :=
  if n = 0 then (f.sign neg, 0)
  else
    let x := FV.log2 n e
    let q := max x f.emin - f.fbits
    let (t, inexact) := roundMag mode r neg n e q
    let code := t + (q - (f.emin - f.fbits)).toNat * 2 ^ f.fbits
    if f.maxCode < code || (f.kind == .e4m3 && mode == 1 && code == f.maxCode && atLeast464 n e) then f.over mode sat neg
    else (f.sign neg + code, condIf inexact condNX ||| condIf (inexact && f.tiny mode r neg n e) condUF)

/-- A value given in a floating-point format by R125 and R126. -/
def FFmt.round (f : FFmt) (mode : Nat) (sat : Bool) (r : Nat) (v : FV) : Nat × Conds :=
  match v with
  | .nan s => (f.nanCode, condIf (s || f.kind == .e2m1) condNV)
  | .inf neg =>
    match f.kind with
    | .ieee => if sat then (f.sign neg + f.maxCode, condNX) else (f.sign neg + f.infCode, 0)
    | .e4m3 => if sat then (f.sign neg + f.maxCode, condNV ||| condNX) else (f.nanCode, condNV)
    | .e2m1 => (f.sign neg + f.maxCode, condNV ||| condNX)
  | .fin neg n e => f.roundFin mode sat r neg n e

/-- A value given as an integer between two bounds; a value outside them takes the nearer bound (R126). -/
def roundInt (lo hi : Int) (mode r : Nat) (v : FV) : Int × Conds :=
  match v with
  | .nan _ => (0, condNV)
  | .inf neg => (if neg then lo else hi, condNV ||| condNX)
  | .fin neg n e =>
    let (t, inexact) := roundMag mode r neg n e 0
    let x : Int := if neg then -(t : Int) else t
    if x < lo then (lo, condNX) else if hi < x then (hi, condNX) else (x, condIf inexact condNX)

/-! ### Elements by format code (R101, R106) -/

/-- The floating-point format of a code. -/
def codeFloat (c : Nat) : Option FFmt :=
  match c with
  | 0x01 => some fp64
  | 0x02 => some fp32
  | 0x03 => some fp16
  | 0x04 => some bf16
  | 0x05 => some e4m3
  | 0x06 => some e5m2
  | 0x07 => some e2m1
  | 0x0D => some f96
  | _ => none

/-- The width in bits of an element of a code; 0 for a code that is no format. 0x10 is the 64-bit integer of `cvt` (R216). -/
def codeWidth (c : Nat) : Nat :=
  match c with
  | 0x01 => 64
  | 0x02 => 32
  | 0x03 => 16
  | 0x04 => 16
  | 0x05 => 8
  | 0x06 => 8
  | 0x07 => 4
  | 0x08 => 4
  | 0x09 => 32
  | 0x0A => 16
  | 0x0B => 8
  | 0x0C => 4
  | 0x0D => 96
  | 0x0E => 96
  | 0x10 => 64
  | _ => 0

/-- O4's code. -/
def codeO4 : Nat := 0x08

/-- The sign-extended value of a w-bit number. -/
def sextOf (w x : Nat) : Int := if 2 ^ (w - 1) ≤ x then (x : Int) - 2 ^ w else x

/-- The value of an O4 element: its code, its partner's, and whether it is the even one of its pair (R106). -/
def o4Value (even : Bool) (mine partner : Nat) : FV :=
  if mine ≠ 8 then (if partner = 8 then .fin false 0 0 else FV.ofInt (sextOf 4 mine))
  else if partner ≠ 8 then e4m3.decode (partner * 16 + 8)
  else if even then e4m3.decode 0x88 else .fin false 0 0

/-- The value of an element of a code other than O4, from its bits. `uns` reads an integer as unsigned. -/
def codeValue (c : Nat) (uns : Bool) (bits : Nat) : FV :=
  match codeFloat c with
  | some f => f.decode bits
  | none => FV.ofInt (if uns then (bits : Int) else sextOf (codeWidth c) bits)

/-- A value converted to a code's format (R125 to R127): the element's bits and its conditions. -/
def convertTo (c : Nat) (uns : Bool) (mode : Nat) (sat : Bool) (r : Nat) (v : FV) : Nat × Conds :=
  match codeFloat c with
  | some f => f.round mode sat r v
  | none =>
    let w := codeWidth c
    let lo : Int := if c = codeO4 then -7 else if uns then 0 else -(2 ^ (w - 1))
    let hi : Int := if c = codeO4 then 7 else if uns then 2 ^ w - 1 else 2 ^ (w - 1) - 1
    let (x, k) := roundInt lo hi mode r v
    ((x % 2 ^ w).toNat, k)

/-- An integer converted to an integer format (R127): the low bits, or clamped with `sat`; inexact when the value differs. -/
def convertInt (c : Nat) (uns sat : Bool) (x : Int) : Nat × Conds :=
  let w := codeWidth c
  let lo : Int := if uns then 0 else -(2 ^ (w - 1))
  let hi : Int := if uns then 2 ^ w - 1 else 2 ^ (w - 1) - 1
  let y := (if sat then satInt x lo hi else x) % 2 ^ w
  let z : Int := if uns then y else sextOf w y.toNat
  (y.toNat, condIf (z != x) condNX)

end Sys2Proof.Machine
end

