-- ==== Sys2Proof/Machine/LaneInt.lean ====
section
/-! DEFINITION. Lane integer, logic, compare and select instructions (R179, R190 to R194). -/

namespace Sys2Proof.Machine

/-! ### Elements (R76, R102) -/

/-- Element width of a type code. -/
def elemWidth (t : BitVec 4) : Nat :=
  match t.toNat with
  | 2 => 64
  | 3 => 64
  | 7 => 64
  | 4 => 16
  | 8 => 16
  | 9 => 16
  | 5 => 8
  | _ => 32

/-- Elements per lane of a type code. -/
def elemCount (t : BitVec 4) : Nat := if elemWidth t < 32 then 32 / elemWidth t else 1

/-- The `.n` types. -/
def isUnsigned (t : BitVec 4) : Bool := t == 1#4 || t == 3#4

/-- Element e of a lane value, as an unsigned number. -/
def elemOf (w : Nat) (x : Word) (e : Nat) : Nat := x.toNat >>> (w * e) % 2 ^ w

/-- A lane value from its elements. -/
def packElems (w : Nat) (es : List Nat) : Word :=
  BitVec.ofNat 64 (es.foldr (fun e acc => acc * 2 ^ w + e % 2 ^ w) 0)

/-- A w-bit number read as two's complement. -/
def sextNat (w x : Nat) : Int := if 2 ^ (w - 1) ≤ x then (x : Int) - 2 ^ w else x

/-- A function applied element by element to lane values. -/
def byElems (t : BitVec 4) (f : Nat → Nat) : Word :=
  packElems (elemWidth t) ((List.range (elemCount t)).map f)

/-! ### Modifiers (R79, R192) -/

/-- negA, MOD[48]. -/
def negA (w : LaneWord) : Bool := w.modf.getLsbD 3
/-- negB, MOD[47]. -/
def negB (w : LaneWord) : Bool := w.modf.getLsbD 2
/-- absA, MOD[46]. -/
def absA (w : LaneWord) : Bool := w.modf.getLsbD 1
/-- sat, MOD[45]. -/
def satBit (w : LaneWord) : Bool := w.modf.getLsbD 0

/-- The exact value of an element of source A under its modifiers: abs before neg. -/
def intA (w : LaneWord) (x : Nat) : Int :=
  let v : Int := if isUnsigned w.typ then x else sextNat (elemWidth w.typ) x
  let v := if absA w then (v.natAbs : Int) else v
  if negA w then -v else v

/-- The exact value of an element of source B under its modifier. -/
def intB (w : LaneWord) (x : Nat) : Int :=
  let v : Int := if isUnsigned w.typ then x else sextNat (elemWidth w.typ) x
  if negB w then -v else v

/-- The exact value of an element of source C. -/
def intC (w : LaneWord) (x : Nat) : Int := if isUnsigned w.typ then x else sextNat (elemWidth w.typ) x

/-- The write of an exact result: saturated, or its low bits (R192). -/
def intWrite (w : LaneWord) (r : Int) : Nat :=
  let n := elemWidth w.typ
  let lo : Int := if isUnsigned w.typ then 0 else -(2 ^ (n - 1))
  let hi : Int := if isUnsigned w.typ then 2 ^ n - 1 else 2 ^ (n - 1) - 1
  ((if satBit w then satInt r lo hi else r) % 2 ^ n).toNat

/-! ### Tags of covering writes (R179) -/

/-- U when every source listed reads as U, else G. -/
def uniformTag (ts : List Tag) : Tag := if ts.all fun t => t.shape == .u then { shape := .u } else {}

/-- An affine description of a 32-bit source: base and step. -/
def affineOf (t : Tag) (neg : Bool) : Option (W32 × W32) :=
  match t.shape with
  | .g => none
  | .u => some (if neg then -t.base else t.base, 0)
  | .a => if neg then some (-t.base, -t.step) else some (t.base, t.step)

/-- The types and modifiers of the affine rules: `.i32` or `.n32`, without absA or sat. -/
def affineType (w : LaneWord) : Bool := decide (w.typ.toNat ≤ 1) && !absA w && !satBit w

/-- The tag of a sum, difference, negation or move of U or A sources. -/
def affineTag (w : LaneWord) (ts : List Tag) (r : Option (W32 × W32)) : Tag :=
  if ts.all fun t => t.shape == .u then { shape := .u }
  else
    match r with
    | some (b, st) => if affineType w then Tag.norm { shape := .a, base := b, step := st } else {}
    | none => {}

/-- Base and step of a sum. -/
def affineAdd (x y : Option (W32 × W32)) : Option (W32 × W32) :=
  match x, y with
  | some (a, b), some (c, d) => some (a + c, b + d)
  | _, _ => none

/-- Base and step of a difference. -/
def affineSub (x y : Option (W32 × W32)) : Option (W32 × W32) :=
  match x, y with
  | some (a, b), some (c, d) => some (a - c, b - d)
  | _, _ => none

/-- Base and step of a product of one A and one U source. -/
def affineMul (ta tb : Tag) (x y : Option (W32 × W32)) : Option (W32 × W32) :=
  match x, y with
  | some (a, b), some (c, d) =>
    if ta.shape = .a && tb.shape = .u then some (a * c, b * c)
    else if ta.shape = .u && tb.shape = .a then some (a * c, a * d)
    else none
  | _, _ => none

/-- Base and step of an A source shifted by a U count. -/
def affineShl (ta tb : Tag) : Option (W32 × W32) :=
  if ta.shape = .a && tb.shape = .u then
    some (ta.base <<< (tb.base.toNat % 32), ta.step <<< (tb.base.toNat % 32))
  else none

/-! ### Shapes of instruction -/

/-- Exact arithmetic on elements: `f x y z` on integers, then the write of R192. -/
def arith3 (w : LaneWord) (f : Int → Int → Int → Int) (x : LaneIn) : List Word :=
  let n := elemWidth w.typ
  lanes.map fun l => byElems w.typ fun e =>
    intWrite w (f (intA w (elemOf n (laneVal x.a.vals l) e)) (intB w (elemOf n (laneVal x.b.vals l) e))
      (intC w (elemOf n (laneVal x.c.vals l) e)))

/-- Work on the bits of elements. -/
def bits2 (w : LaneWord) (f : Nat → Nat → Nat → Nat) (x : LaneIn) : List Word :=
  let n := elemWidth w.typ
  lanes.map fun l => byElems w.typ fun e => f n (elemOf n (laneVal x.a.vals l) e) (elemOf n (laneVal x.b.vals l) e)

/-- An instruction on exact integers with an affine rule. -/
def State.laneArith (s : State) (i : Instr) (w : LaneWord) (f : Int → Int → Int → Int) (tag : LaneIn → Tag) : State :=
  s.laneCompute i w fun x _ => { vals := arith3 w f x, tag := tag x }

/-- An instruction on the bits of one or two sources. -/
def State.laneBits (s : State) (i : Instr) (w : LaneWord) (f : Nat → Nat → Nat → Nat) (tag : LaneIn → Tag) : State :=
  s.laneCompute i w fun x _ => { vals := bits2 w f x, tag := tag x }

/-- The uniform rule for the first one, two or three sources. -/
def tagA (x : LaneIn) : Tag := uniformTag [x.a.tag]
/-- The uniform rule for A and B. -/
def tagAB (x : LaneIn) : Tag := uniformTag [x.a.tag, x.b.tag]
/-- The uniform rule for A, B and C. -/
def tagABC (x : LaneIn) : Tag := uniformTag [x.a.tag, x.b.tag, x.c.tag]

/-! ### The instructions (R191) -/

/-- `iadd`. -/
def execIadd (w : LaneWord) (s : State) : Host.Outcome State Fault Refusal :=
  .next (s.laneArith (.iadd w) w (fun x y _ => x + y) fun x =>
    affineTag w [x.a.tag, x.b.tag] (affineAdd (affineOf x.a.tag (negA w)) (affineOf x.b.tag (negB w))))
/-- `isub`. -/
def execIsub (w : LaneWord) (s : State) : Host.Outcome State Fault Refusal :=
  .next (s.laneArith (.isub w) w (fun x y _ => x - y) fun x =>
    affineTag w [x.a.tag, x.b.tag] (affineSub (affineOf x.a.tag (negA w)) (affineOf x.b.tag (negB w))))
/-- `imul`. -/
def execImul (w : LaneWord) (s : State) : Host.Outcome State Fault Refusal :=
  .next (s.laneArith (.imul w) w (fun x y _ => x * y) fun x =>
    affineTag w [x.a.tag, x.b.tag] (affineMul x.a.tag x.b.tag (affineOf x.a.tag (negA w)) (affineOf x.b.tag (negB w))))
/-- `imad`. -/
def execImad (w : LaneWord) (s : State) : Host.Outcome State Fault Refusal :=
  .next (s.laneArith (.imad w) w (fun x y z => x * y + z) tagABC)
/-- `imulh`: the floor of the product over 2^w. -/
def execImulh (w : LaneWord) (s : State) : Host.Outcome State Fault Refusal :=
  .next (s.laneArith (.imulh w) w (fun x y _ => (x * y) / 2 ^ elemWidth w.typ) tagAB)
/-- `iabs`. -/
def execIabs (w : LaneWord) (s : State) : Host.Outcome State Fault Refusal :=
  .next (s.laneArith (.iabs w) w (fun x _ _ => (x.natAbs : Int)) tagA)
/-- `ineg`. -/
def execIneg (w : LaneWord) (s : State) : Host.Outcome State Fault Refusal :=
  .next (s.laneArith (.ineg w) w (fun x _ _ => -x) fun x => affineTag w [x.a.tag] (affineOf x.a.tag true))
/-- `imin`. -/
def execImin (w : LaneWord) (s : State) : Host.Outcome State Fault Refusal :=
  .next (s.laneArith (.imin w) w (fun x y _ => if y < x then y else x) tagAB)
/-- `imax`. -/
def execImax (w : LaneWord) (s : State) : Host.Outcome State Fault Refusal :=
  .next (s.laneArith (.imax w) w (fun x y _ => if x < y then y else x) tagAB)
/-- `iand`. -/
def execIand (w : LaneWord) (s : State) : Host.Outcome State Fault Refusal :=
  .next (s.laneBits (.iand w) w (fun _ x y => x &&& y) tagAB)
/-- `ior`. -/
def execIor (w : LaneWord) (s : State) : Host.Outcome State Fault Refusal :=
  .next (s.laneBits (.ior w) w (fun _ x y => x ||| y) tagAB)
/-- `ixor`. -/
def execIxor (w : LaneWord) (s : State) : Host.Outcome State Fault Refusal :=
  .next (s.laneBits (.ixor w) w (fun _ x y => x ^^^ y) tagAB)
/-- `inot`. -/
def execInot (w : LaneWord) (s : State) : Host.Outcome State Fault Refusal :=
  .next (s.laneBits (.inot w) w (fun n x _ => 2 ^ n - 1 - x) tagA)
/-- `ishl`. -/
def execIshl (w : LaneWord) (s : State) : Host.Outcome State Fault Refusal :=
  .next (s.laneBits (.ishl w) w (fun n x y => x <<< (y % n)) fun x =>
    affineTag w [x.a.tag, x.b.tag] (affineShl x.a.tag x.b.tag))
/-- `ishr`. -/
def execIshr (w : LaneWord) (s : State) : Host.Outcome State Fault Refusal :=
  .next (s.laneBits (.ishr w) w (fun n x y => x >>> (y % n)) tagAB)
/-- `isra`. -/
def execIsra (w : LaneWord) (s : State) : Host.Outcome State Fault Refusal :=
  .next (s.laneBits (.isra w) w (fun n x y => ((sextNat n x / 2 ^ (y % n)) % 2 ^ n).toNat) tagAB)

/-- The field that `ibfe` takes (R193): position and length come from the low 16 bits of B's lane value. -/
def bfe (n : Nat) (signed : Bool) (x b : Nat) : Nat :=
  let pos := b % 256
  let len := b / 256 % 256
  if n ≤ pos || len = 0 then 0
  else
    let len := min len (n - pos)
    let f := x >>> pos % 2 ^ len
    if signed then (sextNat len f % 2 ^ n).toNat else f

/-- The value that `ibfi` gives (R193). -/
def bfi (n : Nat) (x b z : Nat) : Nat :=
  let pos := b % 256
  let len := b / 256 % 256
  if n ≤ pos || len = 0 then x
  else
    let len := min len (n - pos)
    let m := (2 ^ len - 1) * 2 ^ pos
    x - (x &&& m) + (z % 2 ^ len) * 2 ^ pos

/-- `ibfe`. -/
def execIbfe (w : LaneWord) (s : State) : Host.Outcome State Fault Refusal :=
  .next (s.laneBits (.ibfe w) w (fun n x y => bfe n (!isUnsigned w.typ) x y) tagAB)
/-- `ibfi`. -/
def execIbfi (w : LaneWord) (s : State) : Host.Outcome State Fault Refusal :=
  .next (s.laneCompute (.ibfi w) w fun x _ =>
    { vals := lanes.map fun l => BitVec.ofNat 64 (bfi (elemWidth w.typ) (laneVal x.a.vals l).toNat (laneVal x.b.vals l).toNat (laneVal x.c.vals l).toNat)
      tag := tagABC x })
/-- `ipopc`. -/
def execIpopc (w : LaneWord) (s : State) : Host.Outcome State Fault Refusal :=
  .next (s.laneBits (.ipopc w) w (fun n x _ => ((List.range n).filter x.testBit).length) tagA)
/-- `iclz`. -/
def execIclz (w : LaneWord) (s : State) : Host.Outcome State Fault Refusal :=
  .next (s.laneBits (.iclz w) w (fun n x _ => if x = 0 then n else n - 1 - Nat.log2 x) tagA)
/-- `isel`: C's lane value chooses for every element (R193). -/
def execIsel (w : LaneWord) (s : State) : Host.Outcome State Fault Refusal :=
  .next (s.laneCompute (.isel w) w fun x _ =>
    { vals := lanes.map fun l => if laneVal x.c.vals l ≠ 0 then laneVal x.a.vals l else laneVal x.b.vals l, tag := tagABC x })
/-- `imov`. -/
def execImov (w : LaneWord) (s : State) : Host.Outcome State Fault Refusal :=
  .next (s.laneBits (.imov w) w (fun _ x _ => x) fun x => affineTag w [x.a.tag] (affineOf x.a.tag false))

/-- The comparison of `icmp`: eq, ne, lt, le, gt, ge. -/
def intCompare (cc : Fin 6) (x y : Int) : Bool :=
  match cc.val with
  | 0 => x == y
  | 1 => x != y
  | 2 => decide (x < y)
  | 3 => decide (x ≤ y)
  | 4 => decide (y < x)
  | _ => decide (y ≤ x)

/-- `icmp.cc` (R194): a true element is all ones. -/
def execIcmp (cc : Fin 6) (w : LaneWord) (s : State) : Host.Outcome State Fault Refusal :=
  .next (s.laneCompute (.icmp cc w) w fun x _ =>
    let n := elemWidth w.typ
    { vals := lanes.map fun l => byElems w.typ fun e =>
        if intCompare cc (intA w (elemOf n (laneVal x.a.vals l) e)) (intB w (elemOf n (laneVal x.b.vals l) e)) then 2 ^ n - 1 else 0
      tag := tagAB x })

end Sys2Proof.Machine
end

