-- ==== Sys2Proof/Machine/LaneFloat.lean ====
section
/-! DEFINITION. Floating-point lane instructions and the function helpers (R205 to R214). -/

namespace Sys2Proof.Machine

/-- The format of a float type code (R76). -/
def typeFmt (t : BitVec 4) : FFmt :=
  match t.toNat with
  | 7 => fp64
  | 8 => fp16
  | 9 => bf16
  | _ => fp32

/-! ### Element by element -/

/-- What one element gives: its bits and its conditions. -/
abbrev Elem := Nat × Conds

/-- Elements of one lane in increasing order, each with a step of the LFSR first when `step` is set (R123, R124): the elements' bits, the
conditions so far, and the LFSR. -/
def laneElems (n : Nat) (step : Bool) (f : Nat → Nat → Elem) (c : Conds) (s : W32) : List Nat × Conds × W32 :=
  (List.range n).foldl (fun (acc : List Nat × Conds × W32) e =>
    let s := if step then lfsrStep acc.2.2 else acc.2.2
    let (b, k) := f (lfsrR s) e
    (acc.1 ++ [b], acc.2.1 ||| k, s)) ([], c, s)

/-- A function of lane, LFSR contribution and element over the lanes acted on, in increasing order. -/
def overLanes (acted : Mask) (count : Nat) (step : Bool) (lfsr : W32) (pack : Nat → List Nat → Word) (f : Nat → Nat → Nat → Elem) :
    List Word × Conds × W32 :=
  lanes.foldl (fun (acc : List Word × Conds × W32) l =>
    if acted.getLsbD l then
      let (es, c, s) := laneElems count step (f l) acc.2.1 acc.2.2
      (acc.1 ++ [pack l es], c, s)
    else (acc.1 ++ [0], acc.2)) ([], 0, lfsr)

/-- The LFSR field of `GRP.FPC` (R142). -/
def Group.lfsr (v : Group) : W32 := v.fpc.extractLsb' 32 32

/-- A float instruction: `f` gives each element from the rounding mode, the LFSR contribution and the three elements' bits. `rounds` says
that it has a rounding step (R206); under the stochastic mode its result reads as G (R179). -/
def State.laneFloat (s : State) (i : Instr) (w : LaneWord) (rounds : Bool) (tag : LaneIn → Tag)
    (f : Nat → Nat → Nat → Nat → Nat → Elem) : State :=
  s.laneCompute i w fun x v =>
    let n := elemWidth w.typ
    let stoch := rounds && x.rnd == 6#3
    let at' (vs : List Word) (l e : Nat) : Nat := elemOf n (laneVal vs l) e
    let (vals, c, lf) := overLanes x.acted (elemCount w.typ) stoch v.lfsr (fun _ es => packElems n es) fun l r e =>
      f x.rnd.toNat r (at' x.a.vals l e) (at' x.b.vals l e) (at' x.c.vals l e)
    { vals := vals, tag := if stoch then {} else tag x, flags := c, lfsr := if stoch then some lf else none }

/-- Source A under absA and negA (R207). -/
def floatA (w : LaneWord) (b : Nat) : FV :=
  let v := (typeFmt w.typ).decode b
  let v := if absA w then v.abs else v
  if negA w then v.negate else v

/-- Source B under negB. -/
def floatB (w : LaneWord) (b : Nat) : FV :=
  let v := (typeFmt w.typ).decode b
  if negB w then v.negate else v

/-- The end of R207: the result, with NV for a signalling input or an invalid operation. -/
def floatResult (w : LaneWord) (mode r : Nat) (ins : List FV) (v : FV) : Elem :=
  let f := typeFmt w.typ
  let nv := ins.any FV.isSig || (v.isNan && !ins.any FV.isNan)
  match v with
  | .nan _ => (f.nanCode, condIf nv condNV)
  | v => let (b, c) := f.round mode (satBit w) r v; (b, c ||| condIf nv condNV)

/-- `fadd`. -/
def execFadd (w : LaneWord) (s : State) : Host.Outcome State Fault Refusal :=
  .next (s.laneFloat (.fadd w) w true tagAB fun mode r a b _ =>
    floatResult w mode r [floatA w a, floatB w b] ((floatA w a).add (floatB w b) (mode == 4)))
/-- `fsub`. -/
def execFsub (w : LaneWord) (s : State) : Host.Outcome State Fault Refusal :=
  .next (s.laneFloat (.fsub w) w true tagAB fun mode r a b _ =>
    floatResult w mode r [floatA w a, floatB w b] ((floatA w a).add (floatB w b).negate (mode == 4)))
/-- `fmul`. -/
def execFmul (w : LaneWord) (s : State) : Host.Outcome State Fault Refusal :=
  .next (s.laneFloat (.fmul w) w true tagAB fun mode r a b _ =>
    floatResult w mode r [floatA w a, floatB w b] ((floatA w a).mul (floatB w b)))

/-- x × y + z in one rounding. A product of 0 and an infinity is invalid even beside a NaN z (R207). -/
def fusedResult (w : LaneWord) (mode r : Nat) (x y z : FV) : Elem :=
  let p := x.mul y
  let (b, c) := floatResult w mode r [x, y, z] (p.add z (mode == 4))
  (b, c ||| condIf (p.isNan && !x.isNan && !y.isNan) condNV)

/-- `ffma`. -/
def execFfma (w : LaneWord) (s : State) : Host.Outcome State Fault Refusal :=
  .next (s.laneFloat (.ffma w) w true tagABC fun mode r a b c =>
    fusedResult w mode r (floatA w a) (floatB w b) ((typeFmt w.typ).decode c))

/-- The bits of an element after sign operations. -/
def signBits (f : FFmt) (ab ng : Bool) (b : Nat) : Nat :=
  let m := b % 2 ^ (f.width - 1)
  let neg := if ab then false else b.testBit (f.width - 1)
  m + f.sign (neg != ng)

/-- minimumNumber or maximumNumber of two operands after their modifiers (R208). -/
def pickNumber (f : FFmt) (less : Bool) (a b : Nat) : Elem :=
  let x := f.decode a
  let y := f.decode b
  let nv := condIf (x.isSig || y.isSig) condNV
  if x.isNan && y.isNan then (f.nanCode, nv)
  else if x.isNan then (b, nv)
  else if y.isNan then (a, nv)
  else
    let c := x.cmp y
    let xLess := c < 0 || (c = 0 && x.neg)
    ((if xLess == less then a else b), nv)

/-- `fmin`. -/
def execFmin (w : LaneWord) (s : State) : Host.Outcome State Fault Refusal :=
  .next (s.laneFloat (.fmin w) w false tagAB fun _ _ a b _ =>
    pickNumber (typeFmt w.typ) true (signBits (typeFmt w.typ) (absA w) (negA w) a) (signBits (typeFmt w.typ) false (negB w) b))
/-- `fmax`. -/
def execFmax (w : LaneWord) (s : State) : Host.Outcome State Fault Refusal :=
  .next (s.laneFloat (.fmax w) w false tagAB fun _ _ a b _ =>
    pickNumber (typeFmt w.typ) false (signBits (typeFmt w.typ) (absA w) (negA w) a) (signBits (typeFmt w.typ) false (negB w) b))
/-- `fabs` (R209). -/
def execFabs (w : LaneWord) (s : State) : Host.Outcome State Fault Refusal :=
  .next (s.laneFloat (.fabs w) w false tagA fun _ _ a _ _ => (signBits (typeFmt w.typ) true false a, 0))
/-- `fneg` (R209). -/
def execFneg (w : LaneWord) (s : State) : Host.Outcome State Fault Refusal :=
  .next (s.laneFloat (.fneg w) w false tagA fun _ _ a _ _ => (signBits (typeFmt w.typ) false true a, 0))
/-- `fsel`: C's lane value chooses for every element (R209). -/
def execFsel (w : LaneWord) (s : State) : Host.Outcome State Fault Refusal :=
  .next (s.laneCompute (.fsel w) w fun x _ =>
    { vals := lanes.map fun l => if laneVal x.c.vals l ≠ 0 then laneVal x.a.vals l else laneVal x.b.vals l, tag := tagABC x })

/-- The class mask of a value (R209). -/
def classMask (f : FFmt) (v : FV) : Nat :=
  match v with
  | .nan true => 0x100
  | .nan false => 0x200
  | .inf true => 0x001
  | .inf false => 0x080
  | .fin neg n e =>
    if n = 0 then (if neg then 0x008 else 0x010)
    else if FV.log2 n e < f.emin then (if neg then 0x004 else 0x020)
    else if neg then 0x002 else 0x040

/-- `fclass`. -/
def execFclass (w : LaneWord) (s : State) : Host.Outcome State Fault Refusal :=
  .next (s.laneFloat (.fclass w) w false tagA fun _ _ a _ _ => (classMask (typeFmt w.typ) ((typeFmt w.typ).decode a), 0))

/-- The relation of `fcmp` (R210) and its NV. -/
def floatCompare (cc : Fin 8) (x y : FV) : Bool × Bool :=
  let un := x.isNan || y.isNan
  let sg := x.isSig || y.isSig
  let c := x.cmp y
  match cc.val with
  | 0 => (!un && decide (c = 0), sg)
  | 1 => (un || decide (c ≠ 0), sg)
  | 2 => (!un && decide (c < 0), un)
  | 3 => (!un && decide (c ≤ 0), un)
  | 4 => (!un && decide (0 < c), un)
  | 5 => (!un && decide (0 ≤ c), un)
  | 6 => (!un, sg)
  | _ => (un, sg)

/-- `fcmp.cc`: a true element is all ones. -/
def execFcmp (cc : Fin 8) (w : LaneWord) (s : State) : Host.Outcome State Fault Refusal :=
  .next (s.laneFloat (.fcmp cc w) w false tagAB fun _ _ a b _ =>
    let (t, nv) := floatCompare cc (floatA w a) (floatB w b)
    (if t then 2 ^ elemWidth w.typ - 1 else 0, condIf nv condNV))

/-! ### Seeds (R213) -/

/-- Floor of log2 of m / 2^p, 1 ≤ m / 2^p < 2, in units of 2^-n, by repeated squaring in p fraction bits. -/
def logFrac (p : Nat) : Nat → Nat → Nat → Nat
  | 0, _, acc => acc
  | n + 1, m, acc =>
    let q := (m * m) >>> p
    if 2 ^ (p + 1) ≤ q then logFrac p n (q / 2) (2 * acc + 1) else logFrac p n q (2 * acc)

/-- The first 40 fraction bits of log2 of a magnitude whose leading one is at bit k. -/
def logBits (n k : Nat) : Nat := logFrac 192 40 (n * 2 ^ (192 - k)) 0

/-- A magnitude cut to 12 significant bits: n × 2^e. -/
def cut12 (n : Nat) (e : Int) : Nat × Int :=
  let d := Nat.log2 n - 11
  (n >>> d, e + d)

/-- 1 / (n × 2^e) cut to 12 significant bits. -/
def seedRcp (n : Nat) (e : Int) : Nat × Int :=
  let k := Nat.log2 n + 13
  cut12 (2 ^ k / n) (-e - k)

/-- The integer square root by bits from a power of two downward. -/
def sqrtBits (x : Nat) : Nat → Nat → Nat
  | 0, r => r
  | k + 1, r => let t := r + 2 ^ k; sqrtBits x k (if t * t ≤ x then t else r)

/-- 1 / √(n × 2^e) cut to 12 significant bits. -/
def seedRsq (n : Nat) (e : Int) : Nat × Int :=
  let (n, e) := if e % 2 = 0 then (n, e) else (2 * n, e - 1)
  let k := Nat.log2 n + 28
  let k := if k % 2 = 0 then k else k + 1
  cut12 (sqrtBits (2 ^ k / n) 32 0) (-e / 2 - (k / 2 : Nat))

/-- The largest n from 2,048 whose log2(n / 2048), in units of 2^-40, lies below a fraction, by bits. -/
def expSearch (f : Nat) : Nat → Nat → Nat
  | 0, r => r
  | k + 1, r => let t := r + 2 ^ k; expSearch f k (if logBits t 11 < f then t else r)

/-- 2^(± n × 2^e) cut to 12 significant bits, for an exponent within the seed's range. -/
def seedExp2 (neg : Bool) (n : Nat) (e : Int) : Nat × Int :=
  let m : Int := if neg then -(n : Int) else n
  let fixed : Int := if 0 ≤ e + 40 then m * 2 ^ (e + 40).toNat else m / 2 ^ (-(e + 40)).toNat
  let whole := fixed / 2 ^ 40
  let f := (fixed % 2 ^ 40).toNat
  (expSearch f 11 2048, whole - 11)

/-- log2 of n × 2^e cut to 12 significant bits towards zero; the sign, and the magnitude. -/
def seedLog2 (n : Nat) (e : Int) : Bool × Nat × Int :=
  let k := Nat.log2 n
  let x : Int := k + e
  if n = 2 ^ k then (decide (x < 0), x.natAbs, 0)
  else
    let l := logBits n k
    if 0 ≤ x then let (a, b) := cut12 (x.toNat * 2 ^ 40 + l) (-40); (false, a, b)
    else let (a, b) := cut12 ((-x).toNat * 2 ^ 40 - l - 1) (-40); (true, a, b)

/-- `fseed.fn` of an FP32 value: 0 rcp, 1 rsq, 2 exp2, 3 log2. -/
def seedOf (fn : Fin 4) (v : FV) : Elem :=
  let nan (nv : Bool) : Elem := (fp32.nanCode, condIf nv condNV)
  let give (neg : Bool) (x : Nat × Int) : Elem := ((fp32.roundFin 2 false 0 neg x.1 x.2).1, 0)
  let inf (neg : Bool) : Elem := (fp32.sign neg + fp32.infCode, 0)
  match fn.val, v with
  | _, .nan sg => nan sg
  | 0, .inf neg => (fp32.sign neg, 0)
  | 0, .fin neg n e => if n = 0 then inf neg else give neg (seedRcp n e)
  | 1, .inf neg => if neg then nan true else (0, 0)
  | 1, .fin neg n e => if n = 0 then inf neg else if neg then nan true else give false (seedRsq n e)
  | 2, .inf neg => if neg then (0, 0) else inf false
  | 2, .fin neg n e =>
    if !neg && 0 ≤ (v.cmp (.fin false 128 0)) then inf false
    else if v.cmp (.fin true 150 0) < 0 then (0, 0)
    else give false (seedExp2 neg n e)
  | _, .inf neg => if neg then nan true else inf false
  | _, .fin neg n e =>
    if n = 0 then inf true
    else if neg then nan true
    else let (ng, x) := seedLog2 n e; give ng x

/-- `fseed.fn`. -/
def execFseed (fn : Fin 4) (w : LaneWord) (s : State) : Host.Outcome State Fault Refusal :=
  .next (s.laneFloat (.fseed fn w) w false tagA fun _ _ a _ _ => seedOf fn (fp32.decode a))

/-! ### Decomposition (R214) -/

/-- A finite value rounded to an integer under rne. -/
def rneInt (neg : Bool) (n : Nat) (e : Int) : Int :=
  let t := (roundMag 1 0 neg n e 0).1
  if neg then -(t : Int) else t

/-- `frange` of a value. -/
def frangeOf (f : FFmt) (v : FV) : Elem :=
  match v with
  | .nan sg => (f.nanCode, condIf sg condNV)
  | .inf _ => (f.nanCode, condNV)
  | .fin neg n e => ((f.round 2 false 0 (finSum [v, (FV.ofInt (rneInt neg n e)).negate] neg)).1, 0)

/-- `frange`. -/
def execFrange (w : LaneWord) (s : State) : Host.Outcome State Fault Refusal :=
  .next (s.laneFloat (.frange w) w false tagA fun _ _ a _ _ => frangeOf (typeFmt w.typ) ((typeFmt w.typ).decode a))

/-- n of `fscale`. -/
def scaleBy (v : FV) : Int :=
  match v with
  | .nan _ => 0
  | .inf neg => if neg then -65536 else 65536
  | .fin neg n e => satInt (rneInt neg n e) (-65536) 65536

/-- `fscale` of two values. -/
def fscaleOf (f : FFmt) (mode r : Nat) (sat : Bool) (x y : FV) : Elem :=
  let nv := condIf (x.isSig || y.isSig) condNV
  if x.isNan || y.isNan then (f.nanCode, nv)
  else
    match x with
    | .fin neg n e => f.round mode sat r (.fin neg n (e + scaleBy y))
    | v => f.round mode sat r v

/-- `fscale`. -/
def execFscale (w : LaneWord) (s : State) : Host.Outcome State Fault Refusal :=
  .next (s.laneFloat (.fscale w) w true tagAB fun mode r a b _ =>
    fscaleOf (typeFmt w.typ) mode r (satBit w) ((typeFmt w.typ).decode a) ((typeFmt w.typ).decode b))

/-- `fexpo` of a value. -/
def fexpoOf (f : FFmt) (v : FV) : Elem :=
  match v with
  | .nan sg => (f.nanCode, condIf sg condNV)
  | .inf _ => (f.infCode, 0)
  | .fin _ n e => if n = 0 then (f.sign true + f.infCode, 0) else ((f.round 1 false 0 (FV.ofInt (FV.log2 n e))).1, 0)

/-- `fexpo`. -/
def execFexpo (w : LaneWord) (s : State) : Host.Outcome State Fault Refusal :=
  .next (s.laneFloat (.fexpo w) w false tagA fun _ _ a _ _ => fexpoOf (typeFmt w.typ) ((typeFmt w.typ).decode a))

/-- `fmant` of a value. -/
def fmantOf (f : FFmt) (v : FV) : Elem :=
  match v with
  | .nan sg => (f.nanCode, condIf sg condNV)
  | .inf _ => (f.nanCode, condNV)
  | .fin neg n _ => if n = 0 then (f.sign neg, 0) else ((f.round 1 false 0 (.fin neg n (-(Nat.log2 n : Int)))).1, 0)

/-- `fmant`. -/
def execFmant (w : LaneWord) (s : State) : Host.Outcome State Fault Refusal :=
  .next (s.laneFloat (.fmant w) w false tagA fun _ _ a _ _ => fmantOf (typeFmt w.typ) ((typeFmt w.typ).decode a))

end Sys2Proof.Machine
end

