-- ==== Sys2Proof/Machine/LaneConvert.lean ====
section
/-! DEFINITION. Conversion (R215 to R218), requantisation (R219) and the cross-lane instructions (R220 to R222). -/

namespace Sys2Proof.Machine

/-! ### Format slots (R130, R232) -/

/-- A format slot word of a group's grid. -/
def State.slotWord (s : State) (g : GroupRef) (k : Nat) : W32 := wordAt (s.gridOf g).lrec (12 + k)

/-- A feature bit of a partition's accepted word (R23). -/
def State.feature (s : State) (p : PartId) (bit : Nat) : Bool := bitAt (s.part p).featacc bit

/-- The effective NaN policy of a slot word is NANZ (R130). -/
def State.slotNanz (s : State) (p : PartId) (slot : W32) : Bool :=
  bitsOf slot 15 14 == 2 || (bitsOf slot 15 14 == 0 && s.feature p 0)

/-! ### cvt -/

/-- The control field of `cvt` (R215). -/
structure CvtCtl where
  src  : Nat
  dst  : Nat
  su   : Bool
  du   : Bool
  part : Nat
  nanz : Bool
  deriving DecidableEq, Repr

/-- Elements per lane that a `cvt` converts. -/
def CvtCtl.count (k : CvtCtl) : Nat := min ((cvtElems k.src).getD 1) ((cvtElems k.dst).getD 1)
/-- The first source element. -/
def CvtCtl.srcAt (k : CvtCtl) : Nat := if k.count < (cvtElems k.src).getD 1 then k.part * k.count else 0
/-- The first destination element. -/
def CvtCtl.dstAt (k : CvtCtl) : Nat := if k.count < (cvtElems k.dst).getD 1 then k.part * k.count else 0
/-- The conversion writes only part of a lane. -/
def CvtCtl.partial' (k : CvtCtl) : Bool := decide (k.count < (cvtElems k.dst).getD 1)

/-- The value of source element j of a lane; an O4 element reads with its partner (R217, step 1). -/
def cvtSource (k : CvtCtl) (x : Word) (j : Nat) : FV :=
  let n := codeWidth k.src
  if k.src = codeO4 then o4Value (j % 2 == 0) (elemOf 4 x j) (elemOf 4 x (if j % 2 = 0 then j + 1 else j - 1))
  else codeValue k.src k.su (elemOf n x j)

/-- One element converted (R217, steps 2 to 4). -/
def cvtElement (k : CvtCtl) (mode : Nat) (sat : Bool) (r : Nat) (x : Word) (j : Nat) : Elem :=
  let v := cvtSource k x j
  if cvtInt k.src && cvtInt k.dst then
    let n := codeWidth k.src
    convertInt k.dst k.du sat (if k.su then (elemOf n x j : Int) else sextOf n (elemOf n x j))
  else convertTo k.dst k.du mode sat r (if k.nanz && v.isNan then .fin false 0 0 else v)

/-- A lane value with some elements replaced from one on. -/
def putElems (n : Nat) (old : Word) (first : Nat) (es : List Nat) : Word :=
  (es.zipIdx).foldl (fun (x : Word) e =>
    let sh := n * (first + e.2)
    BitVec.ofNat 64 (x.toNat - elemOf n x (first + e.2) * 2 ^ sh + e.1 % 2 ^ n * 2 ^ sh)) old

/-- The value that a destination holds before the instruction; a queue or nothing holds 0. -/
def Group.destOld (v : Group) (dst : BitVec 8) (wide : Bool) (l : Nat) : Word :=
  if isV dst then v.laneOf dst.toNat wide l
  else if isP dst then boolWord ((v.pred (dst.toNat % 8)).getLsbD l)
  else 0

/-- The tag of a destination read as an extra source (R179, R217). -/
def Group.destTag (v : Group) (dst : BitVec 8) (wide : Bool) : Tag := if isV dst then v.vtag dst.toNat wide else {}

/-- The control field, with the NaN policy of the slot it names. -/
def State.cvtCtl (s : State) (g : GroupRef) (w : LaneWord) : CvtCtl :=
  { src := bitsOf w.imm 5 0, dst := bitsOf w.imm 11 6, su := w.imm.getLsbD 12, du := w.imm.getLsbD 13, part := bitsOf w.imm 16 14,
    nanz := w.imm.getLsbD 20 && s.slotNanz (s.group g).part (s.slotWord g (bitsOf w.imm 19 17)) }

/-- `cvt`. -/
def execCvt (w : LaneWord) (s : State) : Host.Outcome State Fault Refusal :=
  .next (s.laneCompute (.cvt w) w fun x v =>
    let k := s.cvtCtl x.g w
    let n := codeWidth k.dst
    let stoch := x.rnd == 6#3
    let (vals, c, lf) := overLanes x.acted k.count stoch v.lfsr
      (fun l es => putElems n (if k.partial' then v.destOld w.dst x.wides.dst l else 0) k.dstAt es)
      fun l r e => cvtElement k x.rnd.toNat (satBit w) r (laneVal x.a.vals l) (k.srcAt + e)
    let ts := if k.partial' then [x.a.tag, v.destTag w.dst x.wides.dst] else [x.a.tag]
    { vals := vals, tag := if stoch then {} else uniformTag ts, flags := c, lfsr := if stoch then some lf else none })

/-! ### rqnt -/

/-- The quotient of R219 by its rounding: ties towards +inf, or away from zero with T2RQ. -/
def rqntShift (t2 : Bool) (shift : Nat) (h : Int) : Int :=
  if shift = 0 then h
  else if !t2 then (h + 2 ^ (shift - 1)) / 2 ^ shift
  else
    let m := ((h.natAbs + 2 ^ (shift - 1)) / 2 ^ shift : Nat)
    if h < 0 then -(m : Int) else m

/-- One lane of `rqnt` (R219): the element. -/
def rqntOf (t2 : Bool) (imm : W32) (x m : Int) : Int :=
  let h := (x * m + 2 ^ 30) / 2 ^ 31
  let h := if t2 then satInt h (-(2 ^ 31)) (2 ^ 31 - 1) else h
  let q := rqntShift t2 (bitsOf imm 4 0) h + sextOf 8 (bitsOf imm 15 8)
  if imm.getLsbD 16 then satInt q (-8) 7 else satInt q (-128) 127

/-- `rqnt`. -/
def execRqnt (w : LaneWord) (s : State) : Host.Outcome State Fault Refusal :=
  .next (s.laneCompute (.rqnt w) w fun x v =>
    let n := if w.imm.getLsbD 16 then 4 else 8
    let t2 := s.feature (s.group x.g).part 1
    let one (l : Nat) : Word :=
      let q := rqntOf t2 w.imm (sextOf 32 (laneVal x.a.vals l).toNat) (sextOf 32 (laneVal x.b.vals l).toNat)
      putElems n (v.destOld w.dst false l) (bitsOf w.imm 19 17) [(q % 2 ^ n).toNat]
    { vals := lanes.map one, tag := uniformTag [x.a.tag, x.b.tag, v.destTag w.dst false] })

/-! ### Lane moves (R220, R221) -/

/-- The source lane that a value names. -/
def laneIndex (x : Word) : Nat := (x.extractLsb' 0 32).toNat

/-- `lperm`. -/
def execLperm (w : LaneWord) (s : State) : Host.Outcome State Fault Refusal :=
  .next (s.laneCompute (.lperm w) w fun x _ =>
    { vals := lanes.map fun l =>
        let j := laneIndex (laneVal x.b.vals l)
        if j < 96 then laneVal x.a.vals j else laneVal x.d.vals l })

/-- `lrot`. -/
def execLrot (w : LaneWord) (s : State) : Host.Outcome State Fault Refusal :=
  .next (s.laneCompute (.lrot w) w fun x _ =>
    { vals := lanes.map fun (l : Nat) =>
        laneVal x.a.vals ((((l : Int) - sextOf 32 (laneIndex (laneVal x.b.vals l))) % 96).toNat) })

/-- `lbcast`. -/
def execLbcast (w : LaneWord) (s : State) : Host.Outcome State Fault Refusal :=
  .next (s.laneCompute (.lbcast w) w fun x _ =>
    let j := laneIndex (laneVal x.b.vals ((maskLanes x.acted).headD 0))
    { vals := lanes.map fun l => if j < 96 then laneVal x.a.vals j else laneVal x.d.vals l })

/-! ### Reductions and scans (R222) -/

/-- Combines integer or logic elements: 0 add, 1 min, 2 max, 3 and, 4 or, 5 xor. -/
def redInt (w : LaneWord) (op : Fin 6) (x y : Nat) : Nat :=
  let n := elemWidth w.typ
  let lt (a b : Nat) : Bool := if isUnsigned w.typ then decide (a < b) else decide (sextNat n a < sextNat n b)
  match op.val with
  | 0 => (x + y) % 2 ^ n
  | 1 => if lt y x then y else x
  | 2 => if lt x y then y else x
  | 3 => x &&& y
  | 4 => x ||| y
  | _ => x ^^^ y

/-- The sum of float elements, exact and rounded once (R133, R222). -/
def redSum (f : FFmt) (mode r : Nat) (vs : List FV) : Elem :=
  let nv := vs.any FV.isSig
  let up := vs.any fun v => v.isInf && !v.neg
  let down := vs.any fun v => v.isInf && v.neg
  if vs.any FV.isNan || (up && down) then (f.nanCode, condIf (nv || (up && down && !vs.any FV.isNan)) condNV)
  else if up then (f.infCode, 0)
  else if down then (f.sign true + f.infCode, 0)
  else f.round mode false r (finSum vs (vs.all FV.neg))

/-- The combination of some elements' bits. -/
def reduceElems (w : LaneWord) (op : Fin 6) (mode r : Nat) (es : List Nat) : Elem :=
  if isFloatType w.typ then
    let f := typeFmt w.typ
    match op.val with
    | 0 => redSum f mode r (es.map f.decode)
    | _ =>
      match es with
      | [] => (0, 0)
      | [e] => ((if (f.decode e).isNan then f.nanCode else e), condIf (f.decode e).isSig condNV)
      | e :: es => es.foldl (fun acc b => let (x, c) := pickNumber f (op.val == 1) acc.1 b; (x, acc.2 ||| c)) (e, 0)
  else
    match es with
    | [] => (0, 0)
    | e :: es => (es.foldl (redInt w op) e, 0)

/-- The form has a rounding step. -/
def redRounds (w : LaneWord) (op : Fin 6) : Bool := isFloatType w.typ && op.val == 0

/-- Writes the result of a reduction or scan; with no lane acted on nothing is written (R222), but an entry of a queue destination is pushed
all the same (R323, R325). -/
def State.laneReduce (s : State) (i : Instr) (w : LaneWord) (op : Fin 6) (f : LaneIn → W32 → List Word × Conds × W32) : State :=
  s.laneIssue i w fun x t =>
    if x.acted = 0 then
      (if isQ w.dst then t.writeResult x.g w.dst x.wides.dst 0 false none x.op [] {} else t).laneNext x.g x.k
    else
      let stoch := redRounds w op && x.rnd == 6#3
      let (vals, c, lf) := f x (t.group x.g).lfsr
      let t := t.modGroup x.g fun v => { v with fpc := updateFpc v.fpc c (if stoch then some lf else none) }
      (t.writeResult x.g w.dst x.wides.dst x.acted x.zero (capOf w) x.op vals {}).laneNext x.g x.k

/-- Element e of source A in the lanes of a list. -/
def elemsAt (w : LaneWord) (x : LaneIn) (ls : List Nat) (e : Nat) : List Nat :=
  ls.map fun l => elemOf (elemWidth w.typ) (laneVal x.a.vals l) e

/-- `lred.op`. -/
def execLred (op : Fin 6) (w : LaneWord) (s : State) : Host.Outcome State Fault Refusal :=
  .next (s.laneReduce (.lred op w) w op fun x lf =>
    let (es, c, lf) := laneElems (elemCount w.typ) (redRounds w op && x.rnd == 6#3)
      (fun r e => reduceElems w op x.rnd.toNat r (elemsAt w x (maskLanes x.acted) e)) 0 lf
    (List.replicate 96 (packElems (elemWidth w.typ) es), c, lf))

/-- `lscan.op`. -/
def execLscan (op : Fin 6) (w : LaneWord) (s : State) : Host.Outcome State Fault Refusal :=
  .next (s.laneReduce (.lscan op w) w op fun x lf =>
    overLanes x.acted (elemCount w.typ) (redRounds w op && x.rnd == 6#3) lf (fun _ es => packElems (elemWidth w.typ) es)
      fun l r e => reduceElems w op x.rnd.toNat r (elemsAt w x ((maskLanes x.acted).filter fun j => decide (j ≤ l)) e))

end Sys2Proof.Machine
end

