-- ==== Sys2Proof/Machine/Bulk.lean ====
section
/-! DEFINITION. Memory accesses of engines: runs of bytes of partition memory or of a window, read and written line by line (R263,
R265, R267, R268, R310, R314), the check code of R112, and where tokens are written (R289, R290, R315, R432). -/

namespace Sys2Proof.Machine

/-! ### Check codes (R112) -/

/-- One byte taken into a check code: polynomial 0x1021, no reflection. -/
def crcByte (crc : W16) (b : Byte) : W16 :=
  (List.range 8).foldl (fun (c : W16) _ => if c.getLsbD 15 then (c <<< 1) ^^^ 0x1021#16 else c <<< 1)
    (crc ^^^ (b.setWidth 16 <<< 8))

/-- The check code of a byte string. -/
def crc16 (bs : List Byte) : W16 := bs.foldl crcByte 0xFFFF

/-- The check code of 32-bit words. -/
def crcWords (ws : List W32) : W16 := crc16 (wordsToBytes ws)

/-! ### Runs of bytes -/

/-- A run of bytes cut at 64-byte lines: address, and bytes. -/
def lineRuns (va : Nat) : Nat → Nat → List (Nat × Nat)
  | 0, _ => []
  | _, 0 => []
  | fuel + 1, n =>
    let k := min n (64 - va % 64)
    (va, k) :: lineRuns (va + k) fuel (n - k)

/-- The runs of a length from an address. -/
def runsOf (va : Word) (n : Nat) : List (Nat × Nat) := lineRuns va.toNat (n / 64 + 2) n

/-- What an engine meets at an address: the bytes are there, a miss in translation, or a fault. -/
inductive EngMeet where
  | ok
  | miss (va : Word)
  | fault (c : Cause) (va : Word)
  deriving DecidableEq, Repr

/-- Who makes an engine access: the issuing agent, its partition, the ASID in use, and the grid of an issuer that has been saved. -/
structure EngId where
  a    : Agent
  part : PartId
  asid : W16
  gone : Option Nat := none
  deriving DecidableEq, Repr

/-- The partition's own engines and saves, under the ASID of partition memory. -/
def partEng (p : PartId) : EngId := { a := .none, part := p, asid := Config.rootAsid p }

/-- The place of an address for an engine. The group of a saved workgroup holds no window but its grid's chip scratchpad. -/
def State.engPlace (s : State) (e : EngId) (va : Word) : Place :=
  match e.gone with
  | none => s.placeOf e.a e.asid none va
  | some n =>
    if bitsOf va 63 56 ≠ 0 then .badAddress va
    else if bitsOf va 55 48 = 0xFF then
      (let x := va.toNat - windowBase
       let r := tabGet {} s.grids n
       if 0x10000000 ≤ x && x - 0x10000000 < r.csLim then .chip e.part (r.csBase + (x - 0x10000000)) else .unmapped)
    else .global e.asid va

/-- What one run within a line meets. -/
def State.meetRun (s : State) (e : EngId) (k : Kind) (va n : Nat) : EngMeet :=
  match s.engPlace e (BitVec.ofNat 64 va) with
  | .badAddress x => .fault .translation x
  | .global asid x =>
    match s.reach e.part asid x k with
    | .miss => .miss x
    | .dyke => .fault .dyke x
    | .ok pa _ => if s.poisoned pa n (k = 2 || k = 6) then .fault .poisoned x else .ok
  | _ => .ok

/-- The first thing other than `ok` that some runs meet. -/
def State.meetAll (s : State) (e : EngId) (k : Kind) : List (Nat × Nat) → EngMeet
  | [] => .ok
  | (va, n) :: rest => match s.meetRun e k va n with | .ok => s.meetAll e k rest | x => x

/-- What an access of n bytes meets. -/
def State.meet (s : State) (e : EngId) (k : Kind) (va : Word) (n : Nat) : EngMeet := s.meetAll e k (runsOf va n)

/-- The bytes of one run, which meets nothing. -/
def State.runBytes (s : State) (e : EngId) (k : Kind) (va n : Nat) : List Byte :=
  match s.engPlace e (BitVec.ofNat 64 va) with
  | .global asid x =>
    match s.reach e.part asid x k with
    | .ok pa _ =>
      (match targetOf pa with
       | .hbm _ => memRead s.mem pa n
       | .pcie t port =>
         if s.epDown t port then List.replicate n 0xFF else natToBytes (Config.externalRead s.fresh).toNat n
       | _ => natToBytes (Config.externalRead s.fresh).toNat n)
    | _ => List.replicate n 0
  | pl => s.chipRead pl n

/-- Reads n bytes, all of which meet nothing. -/
def State.engBytes (s : State) (e : EngId) (k : Kind) (va : Word) (n : Nat) : List Byte :=
  (runsOf va n).flatMap fun r => s.runBytes e k r.1 r.2

/-- Reads 32-bit words. -/
def State.engWords (s : State) (e : EngId) (k : Kind) (va : Word) (n : Nat) : List W32 := bytesToWords n (s.engBytes e k va (4 * n))

/-- A read of a run that meets nothing else: the line is used or filled in its home's L2, the issuing core keeps no older copy of it
(R302, R304), and an error may strike it (R267, R275). -/
def State.readRun (s : State) (e : EngId) (k : Kind) (va n : Nat) : State × EngMeet :=
  match s.engPlace e (BitVec.ofNat 64 va) with
  | .global asid x =>
    match s.reach e.part asid x k with
    | .ok pa hc =>
      (match targetOf pa with
       | .hbm t =>
         let (i, seg) := s.home e.part (x.toNat / 64)
         (match s.readLine i t pa n with
          | (s, some c) => (s, .fault c x)
          | (s, none) =>
            let s := s.holdLine i seg (pa / 64) (lineKey asid (x.toNat / 64)) hc e.part e.a
            (if e.a = .none || e.gone.isSome then s else (s.observe e.a (pa / 64)).l1Stale (agentCore e.a) (pa / 64), .ok))
       | .pcie t port => (if s.epDown t port then s.epAbort t port else s.draw, .ok)
       | _ => (s.draw, .ok))
    | _ => (s, .ok)
  | .unmapped => (s.windowMiss e.a, .ok)
  | _ => (s, .ok)

/-- Reads runs in turn, up to the first that an error strikes. -/
def State.readRuns (s : State) (e : EngId) (k : Kind) : List (Nat × Nat) → State × EngMeet
  | [] => (s, .ok)
  | (va, n) :: rest =>
    match s.readRun e k va n with
    | (s, .ok) => s.readRuns e k rest
    | r => r

/-- The lines of a read are read. -/
def State.readLines (s : State) (e : EngId) (k : Kind) (va : Word) (n : Nat) : State × EngMeet := s.readRuns e k (runsOf va n)

/-- Writes one run, which meets nothing: the state, and the completion time of the write (R310). -/
def State.writeRun (s : State) (e : EngId) (va : Nat) (bs : List Byte) : State × Word :=
  match s.engPlace e (BitVec.ofNat 64 va) with
  | .global asid x =>
    match s.reach e.part asid x 6 with
    | .ok pa hc =>
      (match targetOf pa with
       | .hbm _ =>
         let (i, seg) := s.home e.part (x.toNat / 64)
         let key := lineKey asid (x.toNat / 64)
         let held := (tabFind (s.slice i).l2 (pa / 64)).isSome
         let (seg, _) := s.nameAt i (pa / 64) seg key
         let s := s.holdLine i seg (pa / 64) key hc e.part e.a
         let t := s.writeTime i seg (pa / 64) held
         let s := (s.hbmStore pa bs).noteWrite i (pa / 64) t
         (if e.a = .none || e.gone.isSome then s else (s.observe e.a (pa / 64)).l1Update (agentCore e.a) pa bs, t)
       | .pcie t port => (if s.epDown t port then s.epAbort t port else s, 0)
       | _ => (s, 0))
    | _ => (s, 0)
  | .unmapped => (s.windowMiss e.a, 0)
  | pl => (s.chipWrite pl bs, 0)

/-- Writes bytes run by run: the state, and the latest completion time. -/
def State.engWriteRuns (s : State) (e : EngId) (t : Word) : List (Nat × Nat) → List Byte → State × Word
  | [], _ => (s, t)
  | (va, n) :: rest, bs =>
    let (s, u) := s.writeRun e va (bs.take n)
    s.engWriteRuns e (later t u) rest (bs.drop n)

/-- Writes bytes from an address upward. -/
def State.engWrite (s : State) (e : EngId) (va : Word) (bs : List Byte) : State × Word :=
  s.engWriteRuns e 0 (runsOf va bs.length) bs

/-- A requester has an access parked or waiting at a controller's input. -/
def State.isParked (s : State) (who : Requester) : Bool :=
  allSlices.any fun i => ((s.slice i).bog.any fun e => e.2.used && e.2.who == who) || (s.slice i).missq.any fun e => e.who == who

/-- Parks an engine's access, once. -/
def State.parkOnce (s : State) (e : EngId) (va : Word) (k : Kind) (who : Requester) : State :=
  if s.isParked who then s else s.park e.part e.asid va k who

/-! ### Saved contexts and tokens (R139, R289, R290, R315, R432, R433) -/

/-- The fixed part of a group section. -/
def sectFixed : Nat := 0x3F8

/-- A group section of a saved area is reachable for the hardware's own writes. -/
def State.sectReady (s : State) (p : PartId) (sect : Word) : Bool := s.meet (partEng p) 6 sect 0x400 == .ok

/-- Writes bytes into the fixed part of a group section, with its check code. -/
def State.sectPut (s : State) (p : PartId) (sect : Word) (off : Nat) (bs : List Byte) : State :=
  let old := s.engBytes (partEng p) 6 sect sectFixed
  let new := old.take off ++ bs ++ old.drop (off + bs.length)
  (s.engWrite (partEng p) sect (new ++ natToBytes (crc16 new).toNat 8)).1

/-- A 64-bit value of a group section. -/
def State.sectWord (s : State) (p : PartId) (sect : Word) (off : Nat) : Word :=
  BitVec.ofNat 64 (bytesToNat (s.engBytes (partEng p) 6 (sect + BitVec.ofNat 64 off) 8))

/-- A token may be written where it goes. -/
def State.tokenReady (s : State) : TokenDest → Bool
  | .reg _ _ => true
  | .area p sect _ => s.sectReady p sect
  | .none => true

/-- Writes a token (R139): in its register, or in the saved context with its bit of TOKMASK cleared (R432). -/
def State.putToken (s : State) (t : TokenDest) (v : Word) (wct : Bool) : State :=
  match t with
  | .reg f d => s.writeToken f d v wct
  | .area p sect d =>
    let mask := putBit (s.sectWord p sect 0x290) d.toNat false
    let s := (s.sectPut p sect (8 * d.toNat) (natToBytes v.toNat 8)).sectPut p sect 0x290 (natToBytes mask.toNat 8)
    { s with saved := s.saved.map fun (a : SavedArea) =>
        if a.part = p then
          { a with groups := a.groups.map fun (x : SavedGroup) =>
              if x.sect = sect then { x with v := { x.v with sc := { x.v.sc with tokWct := putBit x.v.sc.tokWct d.toNat (wct && d != 0) } } }
              else x }
        else a }
  | .none => s

end Sys2Proof.Machine
end

