-- ==== Sys2Proof/Machine/Tiles.lean ====
section
/-! DEFINITION. Tiles (R108 to R121), their headers and scale records with their checks, slot policies (R234), bank rotation (R241), and
the exact sums of matrix steps (R130 to R134). -/

namespace Sys2Proof.Machine

/-! ### Headers (R111 to R116) -/

/-- Fields of a tile header. -/
def hdrEfmt (h : List W32) : Nat := bitsOf (wordAt h 0) 13 8
/-- SFMT. -/
def hdrSfmt (h : List W32) : Nat := bitsOf (wordAt h 0) 17 14
/-- SLAY. -/
def hdrSlay (h : List W32) : Nat := bitsOf (wordAt h 0) 20 18
/-- SPAR. -/
def hdrSpar (h : List W32) : Nat := bitsOf (wordAt h 0) 23 21
/-- ATOM. -/
def hdrAtom (h : List W32) : Bool := bitAt (wordAt h 0) 24
/-- ROWS. -/
def hdrRows (h : List W32) : Nat := bitsOf (wordAt h 1) 15 0
/-- COLS. -/
def hdrCols (h : List W32) : Nat := bitsOf (wordAt h 1) 31 16
/-- ROW_PITCH. -/
def hdrPitch (h : List W32) : Nat := (wordAt h 2).toNat
/-- SCALE_OFF. -/
def hdrScaleOff (h : List W32) : Int := (wordAt h 3).toInt

/-- HCRC as R112 computes it. -/
def hdrCrc (h : List W32) : W16 := crcWords [wordAt h 0, wordAt h 1, wordAt h 2, wordAt h 3, wordAt h 5, wordAt h 6]

/-- A header with its HCRC recomputed. -/
def hdrSeal (h : List W32) : List W32 := setWord h 7 ((hdrCrc h).setWidth 32)

/-- A header by R116 with no scales and dense. -/
def hdrMake (efmt rows cols pitch : Nat) (atom : Bool) (version : W32) : List W32 :=
  hdrSeal [BitVec.ofNat 32 (1 + efmt * 256 + (if atom then 2 ^ 24 else 0)), BitVec.ofNat 32 (rows + cols * 65536), BitVec.ofNat 32 pitch,
    0, version, 0, 0, 0]

/-- Formats of the float classes that may be scaled (R113, check 6). -/
def scalable (f : Nat) : Bool := decide (3 ≤ f) && decide (f ≤ 8)
/-- Formats marked as matrix operands (R101). -/
def isOperandFmt (f : Nat) : Bool := scalable f || f == 0x0B || f == 0x0C

/-- Checks 6 and 7 of R113 with a format. -/
def hdrFmtOk (h : List W32) (f : Nat) : Bool :=
  (hdrSfmt h == 0 || f == 0 || scalable f)
    && (if hdrSpar h = 1 then (f == 0 || isOperandFmt f) && hdrCols h % 4 == 0 && decide (4 ≤ hdrCols h) && decide (hdrCols h ≤ 128)
        else decide (1 ≤ hdrCols h) && decide (hdrCols h ≤ 64))

/-- The base checks of R113. -/
def hdrBaseOk (h : List W32) : Bool :=
  bitsOf (wordAt h 0) 7 0 == 1 && bitsOf (wordAt h 7) 15 0 == (hdrCrc h).toNat
    && bitsOf (wordAt h 0) 31 25 == 0 && wordAt h 5 == 0 && wordAt h 6 == 0 && bitsOf (wordAt h 7) 31 16 == 0
    && decide (hdrEfmt h ≤ 14) && decide (hdrSfmt h ≤ 3) && decide (hdrSlay h ≤ 4) && decide (hdrSpar h ≤ 1)
    && (hdrSfmt h == 0) == (hdrSlay h == 0) && (hdrSfmt h != 3 || hdrSlay h == 4) && (hdrSfmt h != 0 || hdrScaleOff h == 0)
    && hdrFmtOk h (hdrEfmt h) && decide (1 ≤ hdrRows h) && decide (hdrRows h ≤ 64)

/-- The stored elements of a row (R108). -/
def hdrStored (h : List W32) : Nat := if hdrSpar h = 1 then hdrCols h / 2 else hdrCols h

/-- The bytes of some elements of a format, rounded up. -/
def packedBytes (f n : Nat) : Nat := (n * codeWidth f + 7) / 8

/-- The length part of item 1 of R114 with a format; an untyped tile has none. -/
def hdrLengthOk (h : List W32) (f : Nat) : Bool := f == 0 || decide (packedBytes f (hdrStored h) ≤ hdrPitch h)

/-- Items 1 and 2 of R114. `offUsed`: the operation finds the record by SCALE_OFF; item 2 asks for a multiple of 32 in either case. -/
def hdrExtOk (h : List W32) : Bool :=
  hdrPitch h % 32 == 0 && hdrLengthOk h (hdrEfmt h) && (hdrSfmt h == 0 || hdrScaleOff h % 32 == 0)

/-- A header passes R113, and R114 with XHDR accepted. -/
def hdrOk (xhdr : Bool) (h : List W32) : Bool := hdrBaseOk h && (!xhdr || hdrExtOk h)

/-! ### Scale records (R117 to R121) -/

/-- SFMT of a record. -/
def recSfmt (r : List W32) : Nat := bitsOf (wordAt r 0) 11 8
/-- SLAY of a record. -/
def recSlay (r : List W32) : Nat := bitsOf (wordAt r 0) 14 12
/-- SROWS. -/
def recRows (r : List W32) : Nat := bitsOf (wordAt r 1) 15 0
/-- SCOLS. -/
def recCols (r : List W32) : Nat := bitsOf (wordAt r 1) 31 16
/-- S_PITCH. -/
def recPitch (r : List W32) : Nat := (wordAt r 2).toNat
/-- DATA_OFF. -/
def recDataOff (r : List W32) : Int := (wordAt r 3).toInt
/-- SCRC over words 0 to 6. -/
def recCrc (r : List W32) : W16 := crcWords ((List.range 7).map (wordAt r))
/-- A record with its SCRC recomputed. -/
def recSeal (r : List W32) : List W32 := setWord r 7 ((recCrc r).setWidth 32)

/-- The record's own checks (R120). -/
def recOwnOk (r : List W32) : Bool :=
  bitsOf (wordAt r 0) 7 0 == 1 && bitsOf (wordAt r 0) 31 16 == 0 && wordAt r 5 == 0 && wordAt r 6 == 0
    && bitsOf (wordAt r 7) 31 16 == 0 && decide (1 ≤ recSfmt r) && decide (recSfmt r ≤ 3) && decide (1 ≤ recSlay r)
    && decide (recSlay r ≤ 4) && (recSfmt r != 3 || recSlay r == 4) && (recSfmt r != 3 || recDataOff r == 0)
    && decide (1 ≤ recRows r) && decide (1 ≤ recCols r)
    && (!(recSlay r == 4 || recSfmt r == 3) || (recRows r == 1 && recCols r == 1))
    && (recSlay r != 2 || recCols r == 1) && (recSlay r != 3 || recRows r == 1)

/-- Items 3 and 4 of R114. -/
def recExtOk (r : List W32) : Bool :=
  bitsOf (wordAt r 7) 15 0 == (recCrc r).toNat && (recSfmt r == 3 || recPitch r % 4 == 0)

/-- A record passes its own checks, and those of XHDR when accepted. -/
def recOk (xhdr : Bool) (r : List W32) : Bool := recOwnOk r && (!xhdr || recExtOk r)

/-- A record agrees with its header (R120). -/
def recAgrees (h r : List W32) : Bool := recSfmt r == hdrSfmt h && recSlay r == hdrSlay h

/-- Division rounded up. -/
def ceilDiv (x n : Nat) : Nat := (x + n - 1) / n

/-- The grid shape of R119 for the role of a tile: rows and columns. -/
def gridShape (h : List W32) (roleA : Bool) : Nat × Nat :=
  match hdrSlay h with
  | 1 => if roleA then (hdrRows h, ceilDiv (hdrCols h) 16) else (ceilDiv (hdrRows h) 16, hdrCols h)
  | 2 => (hdrRows h, 1)
  | 3 => (1, hdrCols h)
  | _ => (1, 1)

/-- The grid of a record has the shape of its tile. -/
def recShaped (h r : List W32) (roleA : Bool) : Bool := (recRows r, recCols r) == gridShape h roleA

/-- The grid position of an element (R119). -/
def gridPos (h : List W32) (roleA : Bool) (r c : Nat) : Nat × Nat :=
  match hdrSlay h with
  | 1 => if roleA then (r, c / 16) else (r / 16, c)
  | 2 => (r, 0)
  | 3 => (0, c)
  | _ => (0, 0)

/-- The value of a scale byte (R117). -/
def scaleByte (sfmt b : Nat) : FV :=
  if b = 255 then .nan false
  else if sfmt = 1 then .fin false 1 ((b : Int) - 127)
  else if b / 8 = 0 then .fin false (b % 8) (-17)
  else .fin false (8 + b % 8) ((b / 8 : Nat) - 18)

/-! ### Reading tiles -/

/-- A tile as it is read: its header, the pitch and rotation of its rows, its bytes after the header, its scale record and the bytes
around that. -/
structure TileSrc where
  hdr   : List W32
  pitch : Nat
  rot   : Nat := 0
  byte  : Nat → Byte
  srec  : List W32 := []
  sbyte : Int → Byte := fun _ => 0

/-- Where byte x of logical row r lies after the header (R108, R241). -/
def rotated (pitch rot r x : Nat) : Nat :=
  if rot = 0 then r * pitch + x else r * pitch + (x / 32 + r * rot) % max 1 (pitch / 32) * 32 + x % 32

/-- Byte x of logical row r. -/
def TileSrc.rowByte (t : TileSrc) (r x : Nat) : Byte := t.byte (rotated t.pitch t.rot r x)

/-- The bits of stored element c of row r in a format (R102, R108). -/
def TileSrc.code (t : TileSrc) (f r c : Nat) : Nat :=
  let w := codeWidth f
  if w = 4 then (t.rowByte r (c / 2)).toNat / (if c % 2 = 0 then 1 else 16) % 16
  else bytesToNat ((List.range (w / 8)).map fun i => t.rowByte r (c * (w / 8) + i))

/-- The value of stored element c of row r (R103, R105, R106). -/
def TileSrc.stored (t : TileSrc) (f r c : Nat) : FV :=
  if f = codeO4 then o4Value (c % 2 == 0) (t.code f r c) (t.code f r (if c % 2 = 0 then c + 1 else c - 1))
  else codeValue f false (t.code f r c)

/-- The metadata nibble of a group of four logical columns (R109). -/
def TileSrc.nibble (t : TileSrc) (r g : Nat) : Nat :=
  let b := (t.byte (hdrRows t.hdr * t.pitch + r * ceilDiv (hdrCols t.hdr) 8 + g / 2)).toNat
  if g % 2 = 0 then b % 16 else b / 16

/-- The stored elements that a logical position takes (R109, R110). -/
def TileSrc.takes (t : TileSrc) (r c : Nat) : List Nat :=
  if hdrSpar t.hdr = 1 then
    let nb := t.nibble r (c / 4)
    (if nb % 4 = c % 4 then [c / 4 * 2] else []) ++ (if nb / 4 = c % 4 then [c / 4 * 2 + 1] else [])
  else [c]

/-- The scales that apply to an element: the byte scale and the second scale (R121). -/
def TileSrc.scales (t : TileSrc) (roleA : Bool) (r c : Nat) : List FV :=
  let sf := hdrSfmt t.hdr
  let (sr, sc) := gridPos t.hdr roleA r c
  (if sf = 1 || sf = 2 then [scaleByte sf (t.sbyte (recDataOff t.srec + (sr * recPitch t.srec + sc : Nat))).toNat] else [])
    ++ (if sf = 3 || (sf ≠ 0 && bitAt (wordAt t.srec 0) 15) then [fp32.decode (wordAt t.srec 4).toNat] else [])

/-- The values that a logical position of a tile supplies, after scales and policy, and the elements taken as +0 by NANZ (R110, R121,
R130, R131). A position that the tile does not hold supplies +0 (R243). -/
def TileSrc.vals (t : TileSrc) (f : Nat) (roleA nanz : Bool) (r c : Nat) : List FV × Nat :=
  if hdrRows t.hdr ≤ r || hdrCols t.hdr ≤ c then ([.fin false 0 0], 0)
  else
    let ss := t.scales roleA r c
    let one (v : FV) : FV × Nat :=
      if nanz && (v.isNan || ss.any FV.isNan) then (.fin false 0 0, 1) else (ss.foldl FV.mul v, 0)
    let vs : List FV := match t.takes r c with | [] => [.fin false 0 0] | ks => ks.map (t.stored f r)
    (vs.map fun v => (one v).1, (vs.map fun v => (one v).2).foldl (· + ·) 0)

/-- The value of an element of a dense tile that a conversion takes. A NaN that comes of an infinite and a zero factor counts as invalid
(R121, R128): it is marked as a signalling one. -/
def TileSrc.factor (t : TileSrc) (f : Nat) (nanz : Bool) (r c : Nat) : FV :=
  let v := ((t.vals f true nanz r c).1).headD (.fin false 0 0)
  if v.isNan && !(t.stored f r c).isNan && !(t.scales true r c).any FV.isNan then .nan true else v

/-! ### Steps (R132 to R134, R235) -/

/-- The class of an operand format: 1 16-bit float, 2 8-bit float, 3 4-bit float, 4 INT8, 5 INT4, 0 none. -/
def fmtClass (f : Nat) : Nat :=
  match f with
  | 0x03 => 1
  | 0x04 => 1
  | 0x05 => 2
  | 0x06 => 2
  | 0x07 => 3
  | 0x08 => 3
  | 0x0B => 4
  | 0x0C => 5
  | _ => 0

/-- The depth of a step with dense A for two classes (R235); `none` for a pair that is not supported. -/
def pairDepth (a b : Nat) : Option Nat :=
  if a = 1 && b = 1 then some 16
  else if (a = 2 || a = 3) && (b = 2 || b = 3) then some (if a = 3 && b = 3 then 64 else 32)
  else if (a = 4 || a = 5) && (b = 4 || b = 5) then some (if a = 5 && b = 5 then 64 else 32)
  else none

/-- EFMT of the accumulator that a pair uses. -/
def pairAcc (a : Nat) : Nat := if a = 4 || a = 5 then 0x0E else 0x0D

/-- The exact sum of the products of a step (R133). -/
def stepSum (ps : List FV) : FV :=
  let up := ps.any fun p => p.isInf && !p.neg
  let down := ps.any fun p => p.isInf && p.neg
  if ps.any FV.isNan || (up && down) then .nan false
  else if up then .inf false
  else if down then .inf true
  else finSum ps (ps.all FV.neg)

/-- The new value of an accumulator element after a step (R133, R134). -/
def stepElem (int : Bool) (acc : Acc96) (ps : List FV) : Acc96 :=
  if int then BitVec.ofInt 96 (acc.toInt + (finSum ps false).scaled 0)
  else BitVec.ofNat 96 (f96.round 1 false 0 (FV.add (f96.decode acc.toNat) (stepSum ps) false)).1

/-- A table of the accumulator elements. -/
def accTable (f : Nat → Acc96) : Tab Acc96 :=
  (List.range 4096).filterMap fun x => if f x = 0 then none else some (x, f x)

/-- One step on an accumulator: `va i k` and `vb k j` are what the operands supply; columns below `cols` change. The elements, and the
elements taken as +0. -/
def stepAcc (int : Bool) (old : Tab Acc96) (depth cols : Nat) (va vb : Nat → Nat → List FV × Nat) : Tab Acc96 × Nat :=
  let as := (List.range 64).map fun i => (List.range depth).map (va i)
  let bs := (List.range cols).map fun j => (List.range depth).map fun k => vb k j
  let prods (ra rb : List (List FV × Nat)) : List FV :=
    (List.zip ra rb).flatMap fun e => e.1.1.flatMap fun x => e.2.1.map (FV.mul x)
  let n := ((as ++ bs).map fun r => (r.map (·.2)).foldl (· + ·) 0).foldl (· + ·) 0
  (accTable fun x =>
    let o := tabGet 0 old x
    if x % 64 < cols then stepElem int o (prods (as.getD (x / 64) []) (bs.getD (x % 64) [])) else o, n)

/-! ### Policies (R234) -/

/-- The effective format of a tile under a slot word, or the fault (R234). -/
def slotFormat (slot : W32) (xhdr : Bool) (h : List W32) : Except Cause Nat :=
  let ef := hdrEfmt h
  let expf := bitsOf slot 5 0
  match bitsOf slot 13 12 with
  | 2 =>
    if ef ≠ 0 then .ok ef
    else if hdrFmtOk h expf && (!xhdr || hdrLengthOk h expf) then .ok expf else .error .headerIntegrity
  | 1 => if ef = 0 || ef ≠ expf then .error .headerMismatch else .ok ef
  | _ => if ef = 0 then .error .headerMismatch else .ok ef

/-- The header's own checks, the record of a scaled tile among them with XHDR accepted: R113, and all of R114. -/
def hdrRecOk (xhdr : Bool) (h r : List W32) : Bool := hdrOk xhdr h && (!xhdr || hdrSfmt h == 0 || recExtOk r)

/-- Checks a tile for a step or a conversion (R245 step 3): header, pitch, policy, scale record; its effective format. `pitchOk` is the
pitch and rotation check of R240. -/
def checkTile (xhdr pitchOk : Bool) (slot : W32) (roleA : Bool) (h r : List W32) : Except Cause Nat :=
  if !hdrRecOk xhdr h r || !pitchOk then .error .headerIntegrity
  else
    match slotFormat slot xhdr h with
    | .error c => .error c
    | .ok f =>
      if hdrSfmt h ≠ 0 && !(recOk xhdr r && recAgrees h r && recShaped h r roleA) then .error .headerIntegrity else .ok f

/-! ### Writing rows -/

/-- The bytes of a row of codes of a format; a last odd nibble is 0 (R102, R108). -/
def packRow (f : Nat) (codes : List Nat) : List Byte :=
  let w := codeWidth f
  natToBytes (codes.foldr (fun c acc => acc * 2 ^ w + c % 2 ^ w) 0) (packedBytes f codes.length)

/-- The chunks of a row that goes to a rotated place: offset after the header, and bytes. -/
def rowChunks (pitch rot r : Nat) (bs : List Byte) : List (Nat × List Byte) :=
  if rot = 0 then [(r * pitch, bs)]
  else (List.range (ceilDiv bs.length 32)).map fun j => (rotated pitch rot r (32 * j), (bs.drop (32 * j)).take 32)

end Sys2Proof.Machine
end

