-- ==== Sys2Proof/Machine/Matrix.lean ====
section
/-! DEFINITION. The matrix instructions at their issue (R227 to R258): operands and their checks, and the operations they put into the
pipes. -/

namespace Sys2Proof.Machine

/-! ### Registers (R228 to R231) -/

/-- The header of a tile register in reset state. -/
def resetTileHdr : List W32 := hdrMake 0 0 0 0 false 0

/-- A tile register of a core; one never written since placement holds the reset state. -/
def State.tile (s : State) (c : CoreRef) (n : Nat) : TileReg := tabGet { hdr := resetTileHdr } (s.core c).tiles n
/-- An accumulator of a core. -/
def State.acc (s : State) (c : CoreRef) (n : Nat) : AccReg := tabGet {} (s.core c).accs n
/-- Replaces a tile register. -/
def State.setTile (s : State) (c : CoreRef) (n : Nat) (t : TileReg) : State :=
  s.modCore c fun k => { k with tiles := tabSet k.tiles n t }
/-- Replaces an accumulator. -/
def State.setAcc (s : State) (c : CoreRef) (n : Nat) (t : AccReg) : State :=
  s.modCore c fun k => { k with accs := tabSet k.accs n t }

/-- The header of an accumulator (R229). -/
def accHdr (a : AccReg) : List W32 := hdrMake a.efmt.toNat 64 64 768 false 0

/-- The matrix registers are no longer clean since the last restore (R434). -/
def State.dirtyMatrix (s : State) (c : CoreRef) (wg n : Nat) : State := s.modWg c wg fun w => { w with cleanM := putBit w.cleanM n false }

/-- An incomplete operation reads or writes a matrix register. -/
def State.matPending (s : State) (c : CoreRef) (n : Nat) : Bool :=
  (s.core c).mops.any fun o => (o.kind.reads ++ o.kind.writes).contains n

/-- The status word of a matrix register: tile registers 0 to 7, accumulators 8 to 11 (R230). -/
def State.matStatus (s : State) (c : CoreRef) (n : Nat) : Word :=
  let (nanc, efmt, inuse, dirty) : Nat × Nat × Bool × Bool :=
    if n < 8 then let t := s.tile c n; (0, hdrEfmt t.hdr, t.inuse, t.dirty)
    else let a := s.acc c (n - 8); (a.nanc.toNat, a.efmt.toNat, a.inuse, a.dirty)
  putBit (putBit (putBit (BitVec.ofNat 64 (nanc + efmt * 2 ^ 32)) 38 inuse) 39 dirty) 40 (s.matPending c n)

/-! ### Operands (R240 to R243, R247) -/

/-- BASE of a descriptor, in bytes, and the distance from tile to tile. -/
def descTile (m : Word) (ta : Nat) : Nat := (bitsOf m 18 5 * 32 + ta * (bitsOf m 63 37 * 32)) % 0x80000
/-- RPITCH. -/
def descPitch (m1 : Word) : Nat := bitsOf m1 31 0
/-- ROT. -/
def descRot (m1 : Word) : Nat := bitsOf m1 34 32
/-- The scale-memory byte of a tile's record, when SMEM = 1. -/
def descSmem (m1 : Word) (ta : Nat) : Option Nat :=
  if bitAt m1 35 then some ((bitsOf m1 44 36 + ta * bitsOf m1 52 45) * 32 % 16384) else none

/-- A byte of the scratchpad of a workgroup; unmapped reads zero. -/
def State.spadByte (s : State) (c : CoreRef) (wg : Nat) (x : Int) : Byte :=
  match tabFind (s.core c).wgs wg with
  | some w => if 0 ≤ x && x < w.spadLen then memGet w.spad x.toNat else 0
  | none => 0

/-- Words of the scratchpad. -/
def State.spadWords (s : State) (c : CoreRef) (wg : Nat) (x : Int) (n : Nat) : List W32 :=
  bytesToWords n ((List.range (4 * n)).map fun (i : Nat) => s.spadByte c wg (x + (i : Int)))

/-- A byte of scale memory. -/
def State.scaleByteAt (s : State) (c : CoreRef) (x : Int) : Byte := memGet (s.core c).scale (x % 16384).toNat

/-- A 32-byte record of scale memory. -/
def State.scaleRec (s : State) (c : CoreRef) (x : Nat) : List W32 :=
  bytesToWords 8 ((List.range 32).map fun i => s.scaleByteAt c ((x + i : Nat) : Int))

/-- The address of weight tile ta. -/
def weightTile (addr m1 : Word) (ta : Nat) : Word := addr + BitVec.ofNat 64 (ta * bitsOf m1 31 0)

/-- Who reads for a group's matrix operations: kind 5, an engine read. -/
def State.matEng (s : State) (g : GroupRef) : EngId :=
  { a := .scalar g, part := (s.group g).part, asid := (s.gridOf g).asid }

/-- One byte of global memory for a matrix operation; weight data that meets something is waited for before. -/
def State.weightByte (s : State) (e : EngId) (va : Word) : Byte := (s.runBytes e 5 va.toNat 1).headD 0

/-- Tile ta of an operand: as its header now stands, or with the header checked at issue. -/
def State.opTile (s : State) (g : GroupRef) (o : Operand) (ta : Nat) (hdr : Option (List W32)) : TileSrc :=
  let c := g.at
  let wg := (s.group g).wg
  let fromScale (x : Nat) : List W32 × (Int → Byte) := (s.scaleRec c x, fun i => s.scaleByteAt c (x + i))
  match o with
  | .tiles first =>
    let t := s.tile c ((first.toNat + ta) % 8)
    let h := hdr.getD t.hdr
    let (r, f) := fromScale (hdrScaleOff h % 16384).toNat
    { hdr := h, pitch := hdrPitch h, byte := memGet t.data, srec := if hdrSfmt h = 0 then [] else r, sbyte := f }
  | .desc m m1 =>
    let at' := descTile m ta
    let h := hdr.getD (s.spadWords c wg at' 8)
    let rec' : List W32 × (Int → Byte) := match descSmem m1 ta with
      | some x => fromScale x
      | none => let x : Int := at' + hdrScaleOff h; (s.spadWords c wg x 8, fun i => s.spadByte c wg (x + i))
    { hdr := h, pitch := descPitch m1, rot := descRot m1, byte := fun i => s.spadByte c wg ((at' + 32 + i : Nat) : Int),
      srec := if hdrSfmt h = 0 then [] else rec'.1, sbyte := rec'.2 }
  | .weights addr m1 =>
    let e := s.matEng g
    let va := weightTile addr m1 ta
    let h := hdr.getD (s.engWords e 5 va 8)
    let rec' : List W32 × (Int → Byte) := match descSmem m1 ta with
      | some x => fromScale x
      | none =>
        let x := va + BitVec.ofInt 64 (hdrScaleOff h)
        (s.engWords e 5 x 8, fun i => s.weightByte e (x + BitVec.ofInt 64 i))
    { hdr := h, pitch := hdrPitch h, byte := fun i => s.weightByte e (va + 32 + BitVec.ofNat 64 i),
      srec := if hdrSfmt h = 0 then [] else rec'.1, sbyte := rec'.2 }

/-- The pitch and rotation checks of R240. -/
def pitchOk (o : Operand) (h : List W32) : Bool :=
  match o with
  | .desc _ m1 => hdrPitch h == descPitch m1 && (descRot m1 == 0 || hdrPitch h % 32 == 0)
  | _ => true

/-- XHDR is accepted for the group's partition (R23, R114). -/
def State.xhdr (s : State) (g : GroupRef) : Bool := s.feature (s.group g).part 2

/-- Checks tile ta of an operand (R245, step 3): its header and effective format. -/
def State.checkOp (s : State) (g : GroupRef) (o : Operand) (ta : Nat) (slot : W32) (roleA : Bool) : Except Cause (List W32 × Nat) :=
  let t := s.opTile g o ta none
  match checkTile (s.xhdr g) (pitchOk o t.hdr) slot roleA t.hdr t.srec with
  | .ok f => .ok (t.hdr, f)
  | .error c => .error c

/-- Checks further tiles of an operand (R245, step 5), in increasing number: their headers. -/
def State.checkMore (s : State) (g : GroupRef) (o : Operand) (slot : W32) (roleA : Bool) (cls spar : Nat) :
    List Nat → List (List W32) → Except Cause (List (List W32))
  | [], acc => .ok acc
  | ta :: rest, acc =>
    match s.checkOp g o ta slot roleA with
    | .error c => .error c
    | .ok (h, f) =>
      if fmtClass f ≠ cls || hdrSpar h ≠ spar then .error .unsupported else s.checkMore g o slot roleA cls spar rest (acc ++ [h])

/-- Columns of A, or rows of B, per tile (R243). -/
def tileDepth (code : Nat) : Nat := 16 * 2 ^ code
/-- KA. -/
def ctlKA (ctl : Word) : Nat := tileDepth (bitsOf ctl 9 8)
/-- KB. -/
def ctlKB (ctl : Word) : Nat := tileDepth (bitsOf ctl 11 10)
/-- NSTEP. -/
def ctlSteps (ctl : Word) : Nat := bitsOf ctl 3 0

/-- The checks of `mloop` and `mvec` at issue, and the steps they make with EFMT of the accumulator (R245, R248). `mvec` checks weight tile
0 alone of its A tiles. -/
def State.checkStep (s : State) (g : GroupRef) (acc : BitVec 2) (slotA slotB : W32) (a b : Operand) (ctl : Word) (cols : Nat)
    (vec : Bool) : Except Cause (StepOp × Nat) :=
  match s.checkOp g a 0 slotA true with
  | .error c => .error c
  | .ok (ha, fa) =>
    match s.checkOp g b 0 slotB false with
    | .error c => .error c
    | .ok (hb, fb) =>
      match pairDepth (fmtClass fa) (fmtClass fb) with
      | none => .error .unsupported
      | some k0 =>
        let e := pairAcc (fmtClass fa)
        let old := (s.acc g.at acc.toNat).efmt.toNat
        if hdrSpar hb = 1 || (old ≠ 0 && old ≠ e) then .error .unsupported
        else
          let depth := if hdrSpar ha = 1 then 2 * k0 else k0
          let na := if vec then 1 else ceilDiv (ctlSteps ctl * depth) (ctlKA ctl)
          let nb := ceilDiv (ctlSteps ctl * depth) (ctlKB ctl)
          match s.checkMore g a slotA true (fmtClass fa) (hdrSpar ha) ((List.range na).drop 1) [ha] with
          | .error c => .error c
          | .ok ahs =>
            match s.checkMore g b slotB false (fmtClass fb) 0 ((List.range nb).drop 1) [hb] with
            | .error c => .error c
            | .ok bhs =>
              .ok ({ acc := acc, slotA := slotA, slotB := slotB, a := a, b := b, ah := ahs, bh := bhs, ctl := ctl, depth := depth,
                     cols := cols }, e)

/-- The bytes of a tile's metadata region (R109). -/
def metaBytes (h : List W32) : Nat := if hdrSpar h = 1 then hdrRows h * ceilDiv (hdrCols h) 8 else 0

/-- The runs of a tile that a step reads, from its header's address: its rows in an effective format, its metadata, and its scale record and
grid unless they stand in scale memory. -/
def tileRuns (f : Nat) (smem : Bool) (t : TileSrc) : List (Int × Nat) :=
  let h := t.hdr
  let len := if t.rot = 0 then packedBytes f (hdrStored h) else t.pitch
  let rows := (List.range (hdrRows h)).map fun r => (((32 + r * t.pitch : Nat) : Int), len)
  let sm : List (Int × Nat) := if hdrSpar h = 1 then [(((32 + hdrRows h * t.pitch : Nat) : Int), metaBytes h)] else []
  let sc : List (Int × Nat) := if hdrSfmt h = 0 || smem then []
    else (hdrScaleOff h, 32) :: (if recSfmt t.srec = 3 then [] else (List.range (recRows t.srec)).map fun r =>
      (hdrScaleOff h + recDataOff t.srec + ((r * recPitch t.srec : Nat) : Int), recCols t.srec))
  rows ++ sm ++ sc

/-- Runs of the scratchpad that reach beyond a group's allocation count as window misses (R240, R262). -/
def State.runMisses (s : State) (g : GroupRef) (runs : List (Int × Nat)) : State :=
  let len : Int := ((s.wgOf g).map (·.spadLen)).getD 0
  runs.foldl (fun s r => if r.2 ≠ 0 && (r.1 < 0 || len < r.1 + r.2) then s.windowMiss (.scalar g) else s) s

/-- The headers, and the records in the scratchpad, that the checks of an operand read. -/
def headRuns (o : Operand) (hs : List (List W32)) : List (Int × Nat) :=
  match o with
  | .desc m m1 => hs.zipIdx.flatMap fun e =>
      let at' : Int := descTile m e.2
      (at', 32) :: (if hdrSfmt e.1 = 0 || bitAt m1 35 then [] else [(at' + hdrScaleOff e.1, 32)])
  | _ => []

/-! ### Putting operations into the pipes (R237, R238, R256) -/

/-- The runs of the scratchpad that a drain writes: its header, without word 4 unless it is an all-or-nothing store, and its rows. -/
def drainRuns (d d1 : Word) (atom : Bool) (o : CvtOp) : List (Nat × Nat) :=
  let at' := descTile d 0
  (if atom then [(at', 32)] else [(at', 16), (at' + 20, 12)])
    ++ (List.range o.rows).flatMap fun r =>
      (rowChunks (descPitch d1) (descRot d1) r (List.replicate (packedBytes o.fmt o.cols) 0)).map fun x => (at' + 32 + x.1, x.2.length)

/-- Registers that two operations share with a write among them: those that both write, whether the first reads one that the second
writes, and the other way about. -/
def matShare (p o : MatKind) : List Nat × Bool × Bool :=
  (p.writes.filter o.writes.contains,
   p.reads.any fun r => o.writes.contains r && !p.writes.contains r,
   o.reads.any fun r => p.writes.contains r && !o.writes.contains r)

/-- An operation of a group was ordered after the completion of an earlier one: by its place in the pipe or in the group's program order,
or by an `mready` that waited for it (R237, R238, R258). -/
def Group.orders (v : Group) (slot : SlotId) (k : MatKind) (p : MatOp) : Bool :=
  p.slot = slot || p.kind.isMove == k.isMove || (p.kind.reads ++ p.kind.writes).any fun r => decide (p.id < tabGet 0 v.msync r)

/-- Free values in the columns of an accumulator that a step changes, and in its NaN counter. -/
def State.spoilAcc (s : State) (c : CoreRef) (n cols : Nat) (rows : Nat → Bool) : State :=
  let a := s.acc c n
  (s.setAcc c n { a with
    elems := accTable fun x => if x % 64 < cols && rows (x / 64) then s.freeElem x else tabGet 0 a.elems x, nanc := s.freeLane 4096 }).draw

/-- The elements that an operation computed become unpredictable (R238, R257): those of its accumulator's columns, of its tile, or of the rows
it drained, where nothing has written since. -/
def State.spoilResults (s : State) (c : CoreRef) (o : MatOp) (rows : Nat → Bool) : State :=
  match o.kind with
  | .mloop p => s.spoilAcc c p.acc.toNat p.cols rows
  | .mvec p => s.spoilAcc c p.acc.toNat p.cols rows
  | .mdrain _ d d1 atom p =>
    let wg := (s.group ⟨c.slice, c.core, o.slot⟩).wg
    let rs := (drainRuns d d1 atom p).drop (if atom then 1 else 2)
    (rs.foldl (fun s r =>
      let new := (s.chipRead (.spad c wg r.1) r.2).zipIdx.map fun e =>
        if o.hits.any fun h => h.1 == 0 && decide (h.2.1 ≤ r.1 + e.2) && decide (r.1 + e.2 < h.2.1 + h.2.2) then e.1
        else (Config.freeValue s.fresh (r.1 + e.2)).extractLsb' 0 8
      s.chipWrite (.spad c wg r.1) new) s).draw
  | _ => o.kind.writes.foldl (fun s n => s.spoilReg c n) s

/-- A completed operation's register still holds what it computed: nothing since has overwritten it whole. -/
def stillHeld (done : List MatOp) (p : MatOp) : Bool :=
  !done.any fun q => decide (p.id < q.id)
    && (match q.kind with
        | .mzero _ _ _ => q.kind.writes.any p.kind.writes.contains
        | .mload _ _ _ _ _ => q.kind.writes.any p.kind.writes.contains
        | .mcvt _ _ _ _ _ => q.kind.writes.any p.kind.writes.contains
        | _ => false)

/-- Puts an operation of the executing group into its pipe, and marks what it and unordered operations of other groups in the other pipe
spoil (R238). An unordered operation that has completed, and read what this one writes, loses its result at once. -/
def State.submit (s : State) (g : GroupRef) (k : MatKind) : State :=
  let o : MatOp := { id := s.nextId, slot := g.slot, word := s.spc, instr := s.word, kind := k, lanesTo := s.lanesBefore (.scalar g),
                     hits := (s.group g).loose.map fun e => (0, e.2.2.1, e.2.2.2) }
  let meets (p : MatOp) : List Nat × Bool × Bool := if (s.group g).orders g.slot k p then ([], false, false) else matShare p.kind k
  let all := (s.core g.at).mops ++ (s.core g.at).mlog
  let o := all.foldl (fun (o : MatOp) p => let m := meets p; { o with spoil := o.spoil ++ m.1, spoiled := o.spoiled || m.2.2 }) o
  let lost := (s.core g.at).mlog.filter fun p => (meets p).2.1 && stillHeld (s.core g.at).mlog p
  let s := lost.foldl (fun s p => s.spoilResults g.at p fun _ => true) s
  let s := s.takeId.modCore g.at fun c =>
    { c with mops := (c.mops.map fun p => let m := meets p; { p with spoil := p.spoil ++ m.1, spoiled := p.spoiled || m.2.1 }) ++ [o] }
  s.modGroup g fun v =>
    { v with unfenced := v.unfenced ++ [o.id],
             loose := v.loose ++ (match k with
               | .mdrain n d d1 atom p => (drainRuns d d1 atom p).map fun r => (o.id, 8 + n.toNat, r.1, r.2)
               | _ => []) }

/-- Every write of an operation but `mzero.rel` sets INUSE and DIRTY of an accumulator (R230). -/
def State.useAcc (s : State) (g : GroupRef) (n : Nat) (efmt : Nat) : State :=
  (s.setAcc g.at n { s.acc g.at n with efmt := BitVec.ofNat 6 efmt, inuse := true, dirty := true }).dirtyMatrix g.at (s.group g).wg (8 + n)

/-- The same of a tile register, with its header as of now. -/
def State.useTile (s : State) (g : GroupRef) (n : Nat) (h : List W32) : State :=
  (s.setTile g.at n { s.tile g.at n with hdr := h, inuse := true, dirty := true }).dirtyMatrix g.at (s.group g).wg n

/-- Acts for the executing group. -/
def State.asGroup (s : State) (f : GroupRef → State) : State :=
  match s.cur with
  | .scalar g => f g
  | _ => s

/-! ### mloop and mvec -/

/-- The form of a matrix word. -/
def matForm (reads : List (BitVec 6)) (bad : Bool) : Form := { reads := reads, slots := .groupOnly, bad := bad, matrix := true }

/-- An operand named by a field: tile registers, or a descriptor in two scalar registers. -/
def State.fieldOperand (s : State) (spad : Bool) (a : BitVec 6) : Operand :=
  if spad then .desc (s.sreg a) (s.sreg (a + 1)) else .tiles (a.extractLsb' 0 3)

/-- The scalar registers of an operand field. -/
def fieldRegs (spad : Bool) (a : BitVec 6) : List (BitVec 6) := if spad then [a, a + 1] else []

/-- The slot word of A (R243, R246). -/
def State.slotA (s : State) (g : GroupRef) (ctl : Word) (k : BitVec 3) : W32 :=
  s.slotWord g (if bitAt ctl 19 then bitsOf ctl 18 16 else k.toNat)

/-- `mloop`. -/
def execMloop (c a b : BitVec 6) (bsrc asrc : Bool) (k : BitVec 3) (n : BitVec 2) (s : State) : Host.Outcome State Fault Refusal :=
  .next (s.issue (matForm ([c] ++ fieldRegs asrc a ++ fieldRegs bsrc b) (scalarReserved (.mloop c a b bsrc asrc k n))) fun s =>
    s.asGroup fun g =>
      let ctl := s.sreg c
      if ctlSteps ctl = 0 then s.advance
      else
        match s.checkStep g n (s.slotA g ctl k) (s.slotWord g k.toNat) (s.fieldOperand asrc a) (s.fieldOperand bsrc b) ctl 64 false with
        | .error f => s.raise f
        | .ok (o, e) =>
          (((s.runMisses g (headRuns o.a o.ah ++ headRuns o.b o.bh)).submit g (.mloop o)).useAcc g n.toNat e).advance)

/-- What the header of weight tile 0 meets, and then its scale record when that lies in global memory. -/
def State.meetHeader (s : State) (g : GroupRef) (addr m1 : Word) : EngMeet :=
  match s.meet (s.matEng g) 1 addr 32 with
  | .ok =>
    let h := s.engWords (s.matEng g) 1 addr 8
    if hdrSfmt h = 0 || bitAt m1 35 then .ok else s.meet (s.matEng g) 1 (addr + BitVec.ofInt 64 (hdrScaleOff h)) 32
  | x => x

/-- The header of weight tile 0 is read, as a load is (R248, R275). -/
def State.readHeader (s : State) (g : GroupRef) (addr m1 : Word) : State × EngMeet :=
  match s.readLines (s.matEng g) 1 addr 32 with
  | (s, .ok) =>
    let h := s.engWords (s.matEng g) 1 addr 8
    if hdrSfmt h = 0 || bitAt m1 35 then (s, .ok) else s.readLines (s.matEng g) 1 (addr + BitVec.ofInt 64 (hdrScaleOff h)) 32
  | r => r

/-- The header is ordered after what the group must do before a load of it (R300, R307). -/
def State.mayRead (s : State) (e : EngId) (va : Word) (n : Nat) : Bool :=
  s.mayPerform e.a (s.scOf e.a).memq
    { id := 0, kind := .load, width := n, accs := [{ lane := 0, place := s.engPlace e va }] }

/-- A weight header that is not there: its access is parked once, and the stream waits (R248). -/
def State.awaitWeights (s : State) (g : GroupRef) (va : Word) : State :=
  (s.parkOnce (s.matEng g) va 1 (.memop (.scalar g) 0)).waitOn .remoteLoad

/-- `mvec`. -/
def execMvec (c a : BitVec 6) (b v k : BitVec 3) (n : BitVec 2) (s : State) : Host.Outcome State Fault Refusal :=
  .next (s.issue (matForm [c, a, a + 1] (scalarReserved (.mvec c a b v k n))) fun s =>
    s.asGroup fun g =>
      let ctl := s.sreg c
      let addr := s.sreg a &&& ~~~31#64
      if ctlSteps ctl = 0 then s.advance
      else
        if !s.mayRead (s.matEng g) addr 32 then s.waitOn .remoteLoad
        else
        let (s, m) : State × EngMeet := match s.meetHeader g addr (s.sreg (a + 1)) with | .ok => s.readHeader g addr (s.sreg (a + 1)) | m => (s, m)
        match m with
        | .miss va => s.awaitWeights g va
        | .fault f va => s.raiseAfar s.cur f va (if f = .translation then 1 else 0) s.word s.spc
        | .ok =>
          match s.checkStep g n (s.slotA g ctl k) (s.slotWord g k.toNat) (.weights addr (s.sreg (a + 1))) (.tiles b) ctl (v.toNat + 1)
              true with
          | .error f => s.raise f
          | .ok (o, e) => (((s.runMisses g (headRuns o.b o.bh)).submit g (.mvec o)).useAcc g n.toNat e).advance)

/-! ### mzero and mload -/

/-- `mzero`: an accumulator takes +0. -/
def execMzero (r : BitVec 3) (s : State) : Host.Outcome State Fault Refusal :=
  .next (s.issue (matForm [] (scalarReserved (.mzero r))) fun s =>
    s.asGroup fun g => ((s.submit g (.mzero false r false)).useAcc g r.toNat 0).advance)

/-- `mzero.rel`: a register takes its reset state. -/
def execMzeroRel (tile : Bool) (r : BitVec 3) (s : State) : Host.Outcome State Fault Refusal :=
  .next (s.issue (matForm [] (scalarReserved (.mzeroRel tile r))) fun s =>
    s.asGroup fun g =>
      let n := r.toNat
      let s := s.submit g (.mzero tile r true)
      (if tile then (s.setTile g.at n { s.tile g.at n with hdr := resetTileHdr, inuse := false, dirty := false }).dirtyMatrix g.at (s.group g).wg n
       else (s.setAcc g.at n { s.acc g.at n with efmt := 0, inuse := false, dirty := false }).dirtyMatrix g.at (s.group g).wg (8 + n)).advance)

/-- The row pitch of a tile in a register (R228). -/
def regPitch (h : List W32) : Nat := if hdrEfmt h = 0 then hdrPitch h else packedBytes (hdrEfmt h) (hdrStored h)

/-- The header that a tile register receives (R228). -/
def regHdr (h : List W32) (soff : Nat) : List W32 :=
  hdrSeal (setWord (setWord h 2 (BitVec.ofNat 32 (regPitch h))) 3 (if hdrSfmt h = 0 then 0 else BitVec.ofNat 32 soff))

/-- The faults of `mload` after its header checks, those of R114 on the record among them (R250). -/
def State.mloadFault (s : State) (g : GroupRef) (tile : Bool) (r : BitVec 3) (m1 : Word) (t : TileSrc) : Option Cause :=
  let h := t.hdr
  let ef := hdrEfmt h
  if tile then
    if (ef ≠ 0 && !isOperandFmt ef) || 8192 < hdrRows h * regPitch h + metaBytes h || (hdrSfmt h ≠ 0 && !bitAt m1 35) then
      some .unsupported
    else if hdrSfmt h ≠ 0 && !(recOk (s.xhdr g) t.srec && recAgrees h t.srec) then some .headerIntegrity
    else none
  else
    let old := (s.acc g.at r.toNat).efmt.toNat
    if (ef ≠ 0x0D && ef ≠ 0x0E) || hdrSfmt h ≠ 0 || hdrSpar h ≠ 0 || (old ≠ 0 && old ≠ ef) then some .unsupported else none

/-- `mload`. -/
def execMload (m : BitVec 6) (tile : Bool) (r : BitVec 3) (s : State) : Host.Outcome State Fault Refusal :=
  .next (s.issue (matForm [m, m + 1] (scalarReserved (.mload m tile r))) fun s =>
    s.asGroup fun g =>
      let x := s.sreg m
      let y := s.sreg (m + 1)
      let t := s.opTile g (.desc x y) 0 none
      let (s, h) := s.headerErrors g.slice t.hdr
      let t := { t with hdr := h }
      if !hdrRecOk (s.xhdr g) t.hdr t.srec || !pitchOk (.desc x y) t.hdr then s.raise .headerIntegrity
      else
        match s.mloadFault g tile r y t with
        | some f => s.raise f
        | none =>
          let s := (s.runMisses g (headRuns (.desc x y) [t.hdr])).submit g (.mload tile r x y t.hdr)
          (if tile then s.useTile g r.toNat (regHdr t.hdr ((descSmem y 0).getD 0)) else s.useAcc g r.toNat (hdrEfmt t.hdr)).advance)

/-! ### mdrain and mcvt (R251 to R254) -/

/-- A count of the option register. -/
def optCount (x : Nat) : Nat := if x = 0 || 64 < x then 64 else x

/-- The conversion that an option register asks for. `srcFmt` is the source's format; OUTF 0 keeps it. -/
def State.cvtOp (s : State) (g : GroupRef) (slot : W32) (srcFmt : Nat) (opt : Word) (rows cols : Nat) : CvtOp :=
  let outf := bitsOf slot 11 6
  let mode := bitsOf opt 2 0
  { slot := slot, srcFmt := srcFmt, fmt := if outf = 0 then srcFmt else outf,
    mode := if mode = 0 || mode = 7 then bitsOf (s.group g).fpc 2 0 else mode, sat := bitAt opt 3,
    rows := min rows (optCount (bitsOf opt 14 8)), cols := min cols (optCount (bitsOf opt 22 16)),
    lfsr := (s.group g).fpc.extractLsb' 32 32 }

/-- The LFSR after a number of steps. -/
def lfsrAfter (x : W32) : Nat → W32
  | 0 => x
  | n + 1 => lfsrAfter (lfsrStep x) n

/-- Under stochastic mode the instruction waits as `lsync` does and takes its `round` calls at issue (R254). -/
def State.takeRounds (s : State) (g : GroupRef) (o : CvtOp) (act : State → State) : State :=
  if o.mode ≠ 6 then act s
  else
    s.afterLanes fun s =>
      act (s.modGroup g fun v => { v with fpc := setBits v.fpc 63 32 (lfsrAfter o.lfsr (o.rows * o.cols)).toNat })

/-- The format in which an accumulator's elements stand. -/
def accFmt (a : AccReg) : Nat := if a.efmt = 0 then 0x0D else a.efmt.toNat

/-- `mdrain`. -/
def execMdrain (m o : BitVec 6) (k : BitVec 3) (n : BitVec 2) (s : State) : Host.Outcome State Fault Refusal :=
  .next (s.issue (matForm [m, m + 1, o] (scalarReserved (.mdrain m o k n))) fun s =>
    s.asGroup fun g =>
      let op := s.cvtOp g (s.slotWord g k.toNat) (accFmt (s.acc g.at n.toNat)) (s.sreg o) 64 64
      s.takeRounds g op fun s => (s.submit g (.mdrain n (s.sreg m) (s.sreg (m + 1)) (bitAt (s.sreg o) 4) op)).advance)

/-- The source of `mcvt`: its header and effective format, or the fault (R253). -/
def State.mcvtSource (s : State) (g : GroupRef) (acc : Bool) (src : BitVec 3) (slot : W32) : Except Cause (List W32 × Nat) :=
  if acc then .ok (accHdr (s.acc g.at src.toNat), accFmt (s.acc g.at src.toNat)) else s.checkOp g (.tiles src) 0 slot true

/-- `mcvt`. -/
def execMcvt (d : BitVec 3) (acc : Bool) (src : BitVec 3) (o : BitVec 6) (k : BitVec 3) (s : State) :
    Host.Outcome State Fault Refusal :=
  .next (s.issue (matForm [o] (scalarReserved (.mcvt d acc src o k))) fun s =>
    s.asGroup fun g =>
      match s.mcvtSource g acc src (s.slotWord g k.toNat) with
      | .error f => s.raise f
      | .ok (h, f) =>
        let op := s.cvtOp g (s.slotWord g k.toNat) f (s.sreg o) (hdrRows h) (hdrCols h)
        if hdrSpar h = 1 || !isOperandFmt op.fmt then s.raise .unsupported
        else
          s.takeRounds g op fun s =>
            ((s.submit g (.mcvt d acc src h op)).useTile g d.toNat
              (hdrMake op.fmt op.rows op.cols (packedBytes op.fmt op.cols) false 0)).advance)

/-! ### mstat, batches and mready (R255 to R258) -/

/-- The number of a register among tile registers 0 to 7 and accumulators 8 to 11. -/
def matReg (tile : Bool) (r : BitVec 3) : Nat := if tile then r.toNat else 8 + r.toNat

/-- `mstat` and `mstat.clr`: they wait for the group's own operations on the register. -/
def State.doMstat (s : State) (d : BitVec 6) (n : Nat) (clr : Bool) (i : Instr) : State :=
  s.issue { dest := some d, slots := .groupOnly, bad := scalarReserved i, matrix := true } fun s =>
    s.asGroup fun g =>
      if (s.core g.at).mops.any fun o => o.slot == g.slot && (o.kind.reads ++ o.kind.writes).contains n then s.waitOn .stall
      else
        let t := s.result d (s.matStatus g.at n)
        if clr then t.setAcc g.at (n - 8) { t.acc g.at (n - 8) with nanc := 0 } else t

/-- `mstat`. -/
def execMstat (d : BitVec 6) (tile : Bool) (r : BitVec 3) (s : State) : Host.Outcome State Fault Refusal :=
  .next (s.doMstat d (matReg tile r) false (.mstat d tile r))
/-- `mstat.clr`. -/
def execMstatClr (d : BitVec 6) (r : BitVec 3) (s : State) : Host.Outcome State Fault Refusal :=
  .next (s.doMstat d (matReg false r) true (.mstatClr d r))

/-- `mfence` (R256). -/
def execMfence (d : BitVec 6) (s : State) : Host.Outcome State Fault Refusal :=
  .next (s.issue { dest := some d, slots := .groupOnly, matrix := true } fun s =>
    s.asGroup fun g =>
      let v := s.group g
      let n := v.nextBatch
      if !s.batchDone g (tabGet [] v.batches n.toNat) then s.waitOn .stall
      else
        (s.modGroup g fun v =>
          { v with batches := tabSet v.batches n.toNat v.unfenced, unfenced := [], nextBatch := n + 1 }).result d (n.setWidth 64))

/-- Waits for a batch entry (R257). -/
def State.doMwait (s : State) (f : Form) (n : State → Nat) : State :=
  s.issue { f with slots := .groupOnly, matrix := true } fun s =>
    s.asGroup fun g =>
      let ids := tabGet [] (s.group g).batches (n s)
      if s.batchDone g ids then (s.modGroup g fun v => { v with loose := v.loose.filter fun e => !ids.contains e.1 }).advance else s.waitFor .mwait (BitVec.ofNat 64 (2 ^ n s))

/-- `mwait #n`. -/
def execMwaitImm (n : BitVec 4) (s : State) : Host.Outcome State Fault Refusal := .next (s.doMwait {} fun _ => n.toNat)
/-- `mwait sa`. -/
def execMwaitReg (a : BitVec 6) (s : State) : Host.Outcome State Fault Refusal :=
  .next (s.doMwait { reads := [a] } fun s => bitsOf (s.sreg a) 3 0)

/-- The registers that a mask of `mready` names; none named means all. -/
def readyRegs (m : Word) : List Nat := (List.range 12).filter fun i => bitsOf m 11 0 == 0 || bitAt m i

/-- `mready` (R258): it waits for the operations on the registers that had issued when it did. While it waits, `waitMask` holds the number
below which those lie. -/
def execMready (a : BitVec 6) (s : State) : Host.Outcome State Fault Refusal :=
  .next (s.issue (matForm [a] false) fun s =>
    s.asGroup fun g =>
      let c := (s.group g).sc
      let limit := if c.wait = .stall then c.waitMask.toNat else s.nextId
      let rs := readyRegs (s.sreg a)
      if (s.core g.at).mops.any fun o => decide (o.id < limit) && (o.kind.reads ++ o.kind.writes).any rs.contains then
        s.waitFor .stall (BitVec.ofNat 64 limit)
      else
        (s.modGroup g fun v =>
          { v with msync := rs.foldl (fun t r => tabSet t r limit) v.msync,
                   loose := v.loose.filter fun e => !(decide (e.1 < limit) && rs.contains e.2.1) }).advance)

end Sys2Proof.Machine
end

