-- ==== Sys2Proof/Machine/MatrixSteps.lean ====
section
/-! DEFINITION. The pipes of the matrix engines at work: the steps of `mloop` and `mvec`, and the completion of `mzero`, `mload`, `mdrain`
and `mcvt` (R228, R237, R238, R246 to R254). -/

namespace Sys2Proof.Machine

/-! ### Heads of the pipes -/

/-- The operation at the head of a pipe, when it may go on: the group's earlier operations on its registers and its group's earlier accesses
are done (R237, R300). -/
def State.pipeHead (s : State) (c : CoreRef) (move : Bool) : Option MatOp :=
  match (s.core c).mops.find? fun o => o.kind.isMove == move with
  | some o =>
    if matFree (s.core c).mops o && !(s.group ⟨c.slice, c.core, o.slot⟩).sc.hasEarlier o.id o.lanesTo then some o else none
  | none => none

/-- The group of an operation. -/
def matGroup (c : CoreRef) (o : MatOp) : GroupRef := ⟨c.slice, c.core, o.slot⟩

/-- A run of a space has been written since the operation issued (R257). -/
def MatOp.hitAt (o : MatOp) (space lo n : Nat) : Bool :=
  o.hits.any fun h => h.1 == space && decide (h.2.1 < lo + n) && decide (lo < h.2.1 + h.2.2)

/-- The same of a run that starts at an offset from an address of an operand; in global memory, of its physical lines. -/
def State.runHit (s : State) (g : GroupRef) (m : MatOp) (o : Operand) (ta : Nat) (r : Int × Nat) : Bool :=
  match o with
  | .tiles _ => false
  | .desc d _ => let x : Int := descTile d ta + r.1; decide (0 ≤ x) && m.hitAt 0 x.toNat r.2
  | .weights addr m1 =>
    (runsOf (weightTile addr m1 ta + BitVec.ofInt 64 r.1) r.2).any fun e =>
      match s.engPlace (s.matEng g) (BitVec.ofNat 64 e.1) with
      | .global asid x => (match s.reach (s.matEng g).part asid x 5 with | .ok pa _ => m.hitAt 2 pa e.2 | _ => false)
      | _ => false

/-- Scale memory that a tile's scales stand in has been written. -/
def MatOp.scaleHit (m : MatOp) (o : Operand) (ta : Nat) (t : TileSrc) : Bool :=
  let at' : Option Nat := match o with
    | .tiles _ => some (hdrScaleOff t.hdr % 16384).toNat
    | .desc _ m1 => descSmem m1 ta
    | .weights _ m1 => descSmem m1 ta
  hdrSfmt t.hdr != 0 && (match at' with
    | some x => m.hitAt 1 x 32 || (List.range (recRows t.srec)).any fun r =>
        m.hitAt 1 ((x + recDataOff t.srec + ((r * recPitch t.srec : Nat) : Int)) % 16384).toNat (recCols t.srec)
    | none => false)

/-- Rows of a tile that have been written since an operation that reads it issued; all of them when what describes them has been. -/
def State.rowsHit (s : State) (g : GroupRef) (m : MatOp) (o : Operand) (ta f : Nat) (t : TileSrc) (i : Nat) : Bool :=
  let smem := match o with | .desc _ m1 => bitAt m1 35 | .weights _ m1 => bitAt m1 35 | .tiles _ => true
  let runs := tileRuns f smem t
  s.runHit g m o ta (0, 32) || m.scaleHit o ta t || (runs.drop (hdrRows t.hdr)).any (s.runHit g m o ta)
    || (decide (i < hdrRows t.hdr) && (match runs[i]? with | some r => s.runHit g m o ta r | none => false))

/-- What an operation that read unordered, or that another wrote beside, leaves: unpredictable values (R238). -/
def State.spoilOp (s : State) (c : CoreRef) (o : MatOp) : State :=
  let s := (o.spoil.eraseDups).foldl (fun s n => s.spoilReg c n) s
  if o.spoiled then (match o.kind with | .mdrain _ _ _ _ _ => s | _ => s.spoilResults c o fun _ => true) else s

/-- An operation is complete. -/
def State.retire (s : State) (c : CoreRef) (o : MatOp) : State :=
  (s.modCore c fun k => { k with mops := k.mops.filter fun p => p.id != o.id, mlog := k.mlog ++ [{ o with hits := [] }] }).spoilOp c o

/-! ### Steps (R246, R248) -/

/-- The effective format that a header has under a slot word; it passed the check at issue. -/
def headerFormat (slot : W32) (xhdr : Bool) (h : List W32) : Nat :=
  match slotFormat slot xhdr h with
  | .ok f => f
  | .error _ => 0

/-- The tiles of an operand that a step of some logical depth reads, each with its effective format. -/
def State.stepTiles (s : State) (g : GroupRef) (o : Operand) (hs : List (List W32)) (slot : W32) (n : Nat) : List (TileSrc × Nat) :=
  (List.range n).map fun ta =>
    let t := s.opTile g o ta hs[ta]?
    (t, headerFormat slot (s.xhdr g) t.hdr)

/-- The tiles that the steps of an operation reach up to and including the present one. -/
def StepOp.reach (o : StepOp) (k : Nat) : Nat := ceilDiv ((o.done + 1) * o.depth) k

/-- The present step of an operation reads its tiles of an operand in the scratchpad (R262). -/
def State.stepMisses (s : State) (g : GroupRef) (o : StepOp) (k : Nat) (x : Operand) (ts : List (TileSrc × Nat)) : State :=
  match x with
  | .desc m m1 =>
    s.runMisses g ((ts.zipIdx.drop (o.done * o.depth / k)).flatMap fun e =>
      (tileRuns e.1.2 (bitAt m1 35) e.1.1).map fun r => (descTile m e.2 + r.1, r.2))
  | _ => s

/-- Applies the next step of an operation. -/
def State.applyStep (s : State) (c : CoreRef) (m : MatOp) (o : StepOp) (again : StepOp → MatKind) : State :=
  let g := matGroup c m
  let p := (s.group g).part
  let ka := ctlKA o.ctl
  let kb := ctlKB o.ctl
  let ta := s.stepTiles g o.a o.ah o.slotA (o.reach ka)
  let tb := s.stepTiles g o.b o.bh o.slotB (o.reach kb)
  let s := s.stepMisses g o ka o.a ta
  let s := s.stepMisses g o kb o.b tb
  let na := s.slotNanz p o.slotA
  let nb := s.slotNanz p o.slotB
  let zero : List FV × Nat := ([.fin false 0 0], 0)
  let va (i k : Nat) : List FV × Nat :=
    let kk := o.done * o.depth + k
    match ta[kk / ka]? with
    | some (t, f) => t.vals f true na i (kk % ka)
    | none => zero
  let vb (k j : Nat) : List FV × Nat :=
    let kk := o.done * o.depth + k
    match tb[kk / kb]? with
    | some (t, f) => t.vals f false nb (kk % kb) j
    | none => zero
  let int := decide (4 ≤ fmtClass ((ta.head?.map (·.2)).getD 0))
  let old := s.acc c o.acc.toNat
  let (es, n) := stepAcc int old.elems o.depth o.cols va vb
  let s := s.setAcc c o.acc.toNat
    { old with elems := es, nanc := if int then old.nanc else BitVec.ofNat 32 (min (old.nanc.toNat + n) (2 ^ 32 - 1)) }
  let s := (s.countFor (.scalar g) 0x0C).addUsage p (s.uidOf (.scalar g)) fun u => { u with mstep := u.mstep + 1 }
  let m := { m with kind := again { o with done := o.done + 1 } }
  if o.done + 1 < ctlSteps o.ctl then s.modCore c fun k => { k with mops := k.mops.map fun q => if q.id = m.id then m else q }
  else
    let all := tb.zipIdx.any fun e => (List.range (hdrRows e.1.1.hdr)).any fun r => s.rowsHit g m o.b e.2 e.1.2 e.1.1 r
    let rows (i : Nat) : Bool := all || ta.zipIdx.any fun e => s.rowsHit g m o.a e.2 e.1.2 e.1.1 i
    let s := s.retire c m
    if m.hits.isEmpty || !(List.range 64).any rows then s else s.spoilAcc c o.acc.toNat o.cols rows

/-- The step pipe adds a step of the `mloop` at its head. -/
def execMloopStep (c : CoreRef) (s : State) : Host.Outcome State Fault Refusal :=
  .next (match s.pipeHead c false with
    | some m => (match m.kind with | .mloop o => s.applyStep c m o .mloop | _ => s)
    | none => s)

/-- The addresses and lengths of a weight tile that a step reads, once its header is there. -/
def weightRuns (va : Word) (m1 : Word) (f : Nat) (t : TileSrc) : List (Word × Nat) :=
  (tileRuns f (bitAt m1 35) t).map fun r => (va + BitVec.ofInt 64 r.1, r.2)

/-- The first thing other than `ok` that some runs of an engine meet. -/
def State.meetList (s : State) (e : EngId) (k : Kind) : List (Word × Nat) → EngMeet
  | [] => .ok
  | (va, n) :: rest => match s.meet e k va n with | .ok => s.meetList e k rest | x => x

/-- The place under which a tile is locked (R292): that of its header, in HBM by its physical address. -/
def State.lockPlace (s : State) (e : EngId) (k : Kind) (va : Word) : Place :=
  match s.engPlace e va with
  | .global asid x => (match s.reach e.part asid x k with | .ok pa _ => .global 0 (BitVec.ofNat 64 pa) | _ => .unmapped)
  | p => p

/-- The tile at an address is locked. -/
def State.tileLocked (s : State) (e : EngId) (k : Kind) (va : Word) : Bool := s.tileLocks.contains (s.lockPlace e k va)

/-- What the weight tiles of a step come to: they are there, they are locked, or the first miss or fault with its tile. -/
inductive WeightMeet where
  | ok
  | wait
  | miss (va : Word)
  | fault (c : Cause) (va : Word) (ta : Nat)

/-- What a step finds wrong with a weight tile's header (R113, R114, R248); of tile 0 it was checked at issue. -/
def laterBad (xhdr : Bool) (h0 h : List W32) : Bool := !hdrOk xhdr h || h.take 4 != h0.take 4

/-- What a step finds wrong with a weight tile's scale record (R120, R114). -/
def laterRecBad (xhdr : Bool) (t : TileSrc) : Bool :=
  hdrSfmt t.hdr != 0 && !(recOk xhdr t.srec && recAgrees t.hdr t.srec && recShaped t.hdr t.srec true)

/-- Meets the weight tiles that a step newly needs, in increasing number (R248, R292). -/
def State.meetWeights (s : State) (g : GroupRef) (o : StepOp) (addr m1 : Word) : List Nat → WeightMeet
  | [] => .ok
  | ta :: rest =>
    let e := s.matEng g
    let va := weightTile addr m1 ta
    let h0 := o.ah.headD []
    match s.meet e 5 va 32 with
    | .miss x => .miss x
    | .fault c x => .fault c x ta
    | .ok =>
      let h := s.engWords e 5 va 8
      if hdrAtom h && s.tileLocked e 5 va then .wait
      else if ta ≠ 0 && laterBad (s.xhdr g) h0 h then .fault .headerAfar va ta
      else
        match s.meetList e 5 ((if hdrSfmt h = 0 || bitAt m1 35 then [] else [(va + BitVec.ofInt 64 (hdrScaleOff h), 32)])) with
        | .miss x => .miss x
        | .fault c x => .fault c x ta
        | .ok =>
          let t := s.opTile g (.weights addr m1) ta none
          if ta ≠ 0 && laterRecBad (s.xhdr g) t then .fault .headerAfar va ta
          else
          match s.meetList e 5 (weightRuns va m1 (headerFormat o.slotA (s.xhdr g) h0) t) with
          | .miss x => .miss x
          | .fault c x => .fault c x ta
          | .ok => s.meetWeights g o addr m1 rest

/-- A run of weight lines is read: from the L2 where it is present, and otherwise from HBM without allocation (R248, R408). An error may
strike it (R275). -/
def State.streamRun (s : State) (e : EngId) (va n : Nat) : State × EngMeet :=
  match s.engPlace e (BitVec.ofNat 64 va) with
  | .global asid x =>
    (match s.reach e.part asid x 5 with
     | .ok pa _ =>
       (match targetOf pa with
        | .hbm t =>
          let h := s.home e.part (x.toNat / 64)
          if (tabFind (s.slice h.1).l2 (pa / 64)).isSome then s.readRun e 5 va n
          else
            (match s.readLine h.1 t pa n with
             | (s, some c) => (s, .fault c x)
             | (s, none) => (s.transfer h.1 (h.2 / 32) e.part e.a 64, .ok))
        | _ => s.readRun e 5 va n)
     | _ => (s, .ok))
  | _ => s.readRun e 5 va n

/-- Runs of weight lines in turn, up to the first that an error strikes. -/
def State.streamRuns (s : State) (e : EngId) : List (Nat × Nat) → State × EngMeet
  | [] => (s, .ok)
  | (va, n) :: rest =>
    match s.streamRun e va n with
    | (s, .ok) => s.streamRuns e rest
    | r => r

/-- The step pipe adds a step of the `mvec` at its head, when its weights are there. -/
def execMvecStep (c : CoreRef) (s : State) : Host.Outcome State Fault Refusal :=
  .next (match s.pipeHead c false with
    | some m =>
      (match m.kind with
       | .mvec o =>
         let g := matGroup c m
         let fault (s : State) (f : Cause) (va : Word) (ta : Nat) : State :=
           s.unitFault 2 g (s.group g).grid (((s.wgOf g).map (·.idx)).getD 0) m.word f va
             (if f = .headerAfar then BitVec.ofNat 8 ta else if f = .translation then 5 else 0) m.instr
         (match o.a with
          | .weights addr m1 =>
            let k0 := o.done * o.depth
            let tas := (List.range (o.reach (ctlKA o.ctl))).filter fun t => decide (k0 / ctlKA o.ctl ≤ t)
            (match s.meetWeights g o addr m1 tas with
             | .wait => s
             | .miss va => s.parkOnce (s.matEng g) va 5 (.matop c m.id)
             | .fault f va ta => fault s f va ta
             | .ok =>
               let e := s.matEng g
               let runs := tas.flatMap fun t =>
                 let va := weightTile addr m1 t
                 ((va, 32) :: weightRuns va m1 (headerFormat o.slotA (s.xhdr g) (o.ah.headD [])) (s.opTile g o.a t none)).flatMap
                   fun r => runsOf r.1 r.2
               (match s.streamRuns e runs with
                | (s, .fault f va) => fault s f va 0
                | (s, _) => s.applyStep c m o .mvec))
          | _ => s)
       | _ => s)
    | none => s)

/-! ### The move pipe -/

/-- The element of a drained row or of a converted tile: a value, or an integer that stays one (R125 to R127). -/
def CvtOp.element (o : CvtOp) (r : Nat) (v : FV) : Elem :=
  let isInt (f : Nat) : Bool := (decide (9 ≤ f) && decide (f ≤ 12)) || f == 14
  if isInt o.srcFmt && isInt o.fmt then convertInt o.fmt false o.sat (v.scaled 0) else convertTo o.fmt false o.mode o.sat r v

/-- Converts elements in row-major order: the codes row by row, and the conditions (R254). -/
def CvtOp.convert (o : CvtOp) (v : Nat → Nat → FV) : List (List Nat) × Conds :=
  let one (acc : List Nat × Conds × W32) (x : FV) : List Nat × Conds × W32 :=
    let lf := if o.mode = 6 then lfsrStep acc.2.2 else acc.2.2
    let (e, c) := o.element (lfsrR lf) x
    (acc.1 ++ [e], acc.2.1 ||| c, lf)
  let (rows, c, _) := (List.range o.rows).foldl
    (fun (acc : List (List Nat) × Conds × W32) i =>
      let (row, c, lf) := (List.range o.cols).foldl (fun a j => one a (v i j)) ([], acc.2.1, acc.2.2)
      (acc.1 ++ [row], c, lf)) ([], 0, o.lfsr)
  (rows, c)

/-- An accumulator element as a value, under a slot's NaN policy (R252). -/
def accValue (a : AccReg) (int nanz : Bool) (i j : Nat) : FV :=
  let x := tabGet 0 a.elems (64 * i + j)
  if int then FV.ofInt x.toInt
  else
    let v := f96.decode x.toNat
    if nanz && v.isNan then .fin false 0 0 else v

/-- Conditions go into `GRP.FPC` of the issuing group (R254). -/
def State.orFlags (s : State) (g : GroupRef) (c : Conds) : State :=
  if (s.group g).resident then s.modGroup g fun v => { v with fpc := updateFpc v.fpc c none } else s

/-- Writes bytes of a workgroup's scratchpad. -/
def State.spadWrite (s : State) (c : CoreRef) (wg : Nat) (x : Nat) (bs : List Byte) : State := s.chipWrite (.spad c wg x) bs

/-- `mdrain` writes its tile (R252). -/
def State.drain (s : State) (c : CoreRef) (m : MatOp) (n : BitVec 2) (d d1 : Word) (atom : Bool) (o : CvtOp) : State :=
  let g := matGroup c m
  let s := s.runMisses g ((drainRuns d d1 atom o).map fun r => (r.1, r.2))
  let wg := (s.group g).wg
  let a := s.acc c n.toNat
  let nanz := s.slotNanz (s.group g).part o.slot
  let (rows, k) := o.convert fun i j => accValue a (o.srcFmt == 14) nanz i j
  let at' := descTile d 0
  let pitch := descPitch d1
  let ver : W32 := wordAt (s.spadWords c wg at' 8) 4
  let hdr := hdrMake o.fmt o.rows o.cols pitch atom (if atom then ver + 1 else 0)
  let s := s.spadWrite c wg at' (wordsToBytes (hdr.take 4))
  let s := if atom then s.spadWrite c wg (at' + 16) (wordsToBytes [wordAt hdr 4]) else s
  let s := s.spadWrite c wg (at' + 20) (wordsToBytes (hdr.drop 5))
  let (s, data) : State × List (List Byte) :=
    if m.spoiled then (s.draw, rows.zipIdx.map fun e => (List.range (packedBytes o.fmt o.cols)).map fun i =>
      (Config.freeValue s.fresh (e.2 * 1024 + i)).extractLsb' 0 8)
    else (s, rows.map (packRow o.fmt))
  let s := data.zipIdx.foldl (fun s e => (rowChunks pitch (descRot d1) e.2 e.1).foldl
    (fun s (x : Nat × List Byte) => s.spadWrite c wg (at' + 32 + x.1) x.2) s) s
  s.orFlags g k

/-- `mcvt` writes its register (R253). -/
def State.convertTile (s : State) (c : CoreRef) (m : MatOp) (d : BitVec 3) (fromAcc : Bool) (src : BitVec 3) (h : List W32) (o : CvtOp) :
    State :=
  let g := matGroup c m
  let nanz := s.slotNanz (s.group g).part o.slot
  let t := s.opTile g (.tiles src) 0 (some h)
  let v (i j : Nat) : FV :=
    if fromAcc then accValue (s.acc c src.toNat) (o.srcFmt == 14) nanz i j
    else t.factor o.srcFmt nanz i j
  let (rows, k) := o.convert v
  let s := (s.setTile c d.toNat { s.tile c d.toNat with data := memWrite [] 0 (rows.flatMap (packRow o.fmt)) }).orFlags g k
  if !fromAcc && m.scaleHit (.tiles src) 0 t then s.spoilReg c d.toNat else s

/-- `mload` places the data of a tile (R228, R250). -/
def State.loadTile (s : State) (c : CoreRef) (m : MatOp) (tile : Bool) (n : BitVec 3) (d d1 : Word) (h : List W32) : State :=
  let g := matGroup c m
  let t := s.opTile g (.desc d d1) 0 (some h)
  let f := if hdrEfmt h = 0 then 0x0B else hdrEfmt h
  let s := s.runMisses g (((tileRuns f true t).map fun r => (descTile d 0 + r.1, r.2)))
  let hit (i : Nat) : Bool :=
    s.rowsHit g m (.desc d (putBit d1 35 true)) 0 f { t with srec := [], rot := if hdrEfmt h = 0 then 1 else t.rot } i
  let free : Nat → Byte := fun i => (Config.freeValue s.fresh i).extractLsb' 0 8
  let s := if m.hits.isEmpty then s else s.draw
  if tile then
    let pk := regPitch h
    let rows := (List.range (hdrRows h)).flatMap fun r => (List.range pk).map fun x => if hit r then free (r * pk + x) else t.rowByte r x
    let meta' := (List.range (metaBytes h)).map fun i => if hit 64 then free (8192 + i) else t.byte (hdrRows h * t.pitch + i)
    s.setTile c n.toNat { s.tile c n.toNat with data := memWrite [] 0 (rows ++ meta') }
  else
    let at' (x : Nat) : Acc96 :=
      if decide (x / 64 < hdrRows h) && decide (x % 64 < hdrCols h) && hit (x / 64) then s.freeElem x
      else if decide (x / 64 < hdrRows h) && decide (x % 64 < hdrCols h) then BitVec.ofNat 96 (t.code (hdrEfmt h) (x / 64) (x % 64)) else 0
    s.setAcc c n.toNat { s.acc c n.toNat with elems := accTable at' }

/-- `mzero` completes (R249). -/
def State.zeroReg (s : State) (c : CoreRef) (tile : Bool) (n : BitVec 3) : State :=
  if tile then s.setTile c n.toNat { s.tile c n.toNat with data := [] }
  else s.setAcc c n.toNat { s.acc c n.toNat with elems := [], nanc := 0 }

/-- The move pipe completes the operation at its head, when it is of a kind. -/
def State.moveDone (s : State) (c : CoreRef) (f : MatOp → Option State) : State :=
  match s.pipeHead c true with
  | some m => (match f m with | some t => t.retire c m | none => s)
  | none => s

/-- The `mzero` at the head of the move pipe completes. -/
def execMzeroComplete (c : CoreRef) (s : State) : Host.Outcome State Fault Refusal :=
  .next (s.moveDone c fun m => match m.kind with | .mzero tile n _ => some (s.zeroReg c tile n) | _ => none)

/-- The `mload` at the head of the move pipe completes. -/
def execMloadComplete (c : CoreRef) (s : State) : Host.Outcome State Fault Refusal :=
  .next (s.moveDone c fun m => match m.kind with | .mload tile n d d1 h => some (s.loadTile c m tile n d d1 h) | _ => none)

/-- The `mdrain` at the head of the move pipe completes; an all-or-nothing one waits while another store holds its tile (R292). -/
def execMdrainComplete (c : CoreRef) (s : State) : Host.Outcome State Fault Refusal :=
  .next (s.moveDone c fun m =>
    match m.kind with
    | .mdrain n d d1 atom o =>
      if atom && s.tileLocks.contains (.spad c (s.group (matGroup c m)).wg (descTile d 0)) then none else some (s.drain c m n d d1 atom o)
    | _ => none)

/-- The `mcvt` at the head of the move pipe completes. -/
def execMcvtComplete (c : CoreRef) (s : State) : Host.Outcome State Fault Refusal :=
  .next (s.moveDone c fun m => match m.kind with | .mcvt d fromAcc src h o => some (s.convertTile c m d fromAcc src h o) | _ => none)

end Sys2Proof.Machine
end

