-- ==== Sys2Proof/Machine/Copies.lean ====
section
/-! DEFINITION. Tensor copies (R285 to R290) and all-or-nothing tile stores (R291, R292): issue and completion. -/

namespace Sys2Proof.Machine

/-! ### The local side (R260, R285, R432) -/

/-- The engine identity of an operation: its issuer, partition and ASID. -/
def AsyncOp.eng (o : AsyncOp) : EngId :=
  { a := fetcherAgent o.issuer, part := o.part, asid := o.asid, gone := if o.saved then some o.grid else none }

/-- The place of a byte of an operation's local memory: the core scratchpad of its workgroup, or the chip scratchpad in the puppet
slot. -/
def localPlace (f : Fetcher) (p : PartId) (wg off : Nat) : Place :=
  match fetcherGroup f with
  | some g => .spad g.at wg off
  | none => .chip p off

/-- The bytes of local memory that an operation may reach. -/
def State.localLen (s : State) (o : AsyncOp) : Nat :=
  match o.spadAt, fetcherGroup o.issuer with
  | some _, _ => o.spadLen
  | none, some g => match tabFind (s.core g.at).wgs o.wg with | some w => w.spadLen | none => 0
  | none, none => s.chipSize o.part

/-- Reads local bytes; a saved workgroup's stand in its area. Those of the group's own drains are unpredictable until an `mwait` covers them
(R257). -/
def State.localRead (s : State) (o : AsyncOp) (off n : Nat) : List Byte :=
  match o.spadAt with
  | some va => (List.range n).map fun i =>
      if off + i < o.spadLen then (s.engBytes (partEng o.part) 5 (va + BitVec.ofNat 64 (off + i)) 1).headD 0 else 0
  | none => (s.chipSeen (fetcherGroup o.issuer) (localPlace o.issuer o.part o.wg off) n).2

/-- Writes local bytes; bytes beyond the mapped ones are discarded. -/
def State.localWrite (s : State) (o : AsyncOp) (off : Nat) (bs : List Byte) : State :=
  match o.spadAt with
  | some va => (s.engWrite (partEng o.part) (va + BitVec.ofNat 64 off) (bs.take (o.spadLen - off))).1
  | none => s.chipWrite (localPlace o.issuer o.part o.wg off) bs

/-- Runs of the local side that reach beyond the mapped bytes count as window misses (R262). -/
def State.localMisses (s : State) (o : AsyncOp) (runs : List (Nat × Nat)) : State :=
  if o.saved then s
  else
    let len := s.localLen o
    runs.foldl (fun s r => if r.2 ≠ 0 && decide (len < r.1 + r.2) then s.windowMiss (fetcherAgent o.issuer) else s) s

/-- Zeros in a range of a byte memory. -/
def memZero (m : Memory) (a n : Nat) : Memory := m.filter fun e => !(decide (a ≤ e.1) && decide (e.1 < a + n))

/-- Zeros into local bytes. -/
def State.localZero (s : State) (o : AsyncOp) (off n : Nat) : State :=
  let n := min n (s.localLen o - off)
  let s := match o.spadAt, fetcherGroup o.issuer with
    | none, some g => if ((tabFind (s.core g.at).wgs o.wg).map (fun (w : Workgroup) => w.matrix)) == some true then s.hitSpad g.at off n else s
    | _, _ => s
  match o.spadAt, fetcherGroup o.issuer with
  | some _, _ => s.localWrite o off (List.replicate n 0)
  | none, some g => s.modWg g.at o.wg fun w =>
      { w with spad := memZero w.spad off n,
               cleanS := (List.range 128).foldl (fun m i => if decide (off < (i + 1) * 4096) && decide (i * 4096 < off + n) then putBit m i false else m)
                 w.cleanS }
  | none, none => s.modPart o.part fun q => { q with chip := memZero q.chip off n }

/-- The saved bytes of a saved workgroup that an operation writes are reachable. -/
def State.localMeet (s : State) (o : AsyncOp) : EngMeet :=
  match o.spadAt with
  | some va => s.meet (partEng o.part) 6 va o.spadLen
  | none => .ok

/-! ### The shape record (R286) -/

/-- DIR. -/
def shpDir (r : List W32) : Nat := bitsOf (wordAt r 0) 9 8
/-- ROT. -/
def shpRot (r : List W32) : Nat := bitsOf (wordAt r 0) 12 10
/-- HDR. -/
def shpHdr (r : List W32) : Bool := bitAt (wordAt r 0) 13
/-- EFMT. -/
def shpEfmt (r : List W32) : Nat := bitsOf (wordAt r 0) 21 16
/-- NDIM. -/
def shpDims (r : List W32) : Nat := bitsOf (wordAt r 0) 29 27
/-- BOXR. -/
def shpRows (r : List W32) : Nat := bitsOf (wordAt r 1) 15 0
/-- BOXC. -/
def shpCols (r : List W32) : Nat := bitsOf (wordAt r 1) 31 16
/-- SIZE of a dimension. -/
def shpSize (r : List W32) (i : Nat) : Nat := (wordAt r (2 + i)).toNat
/-- STRIDE of a dimension from 1. -/
def shpStride (r : List W32) (i : Nat) : Nat := (wordAt r (8 + i)).toNat

/-- Checks 5 and 6 of R113 on what DIR 0 writes into a header. -/
def shpScalesOk (r : List W32) : Bool :=
  let sf := bitsOf (wordAt r 0) 23 22
  let sl := bitsOf (wordAt r 0) 26 24
  decide (sl ≤ 4) && (sf == 0) == (sl == 0) && (sf != 3 || sl == 4) && (sf == 0 || scalable (shpEfmt r))

/-- The record is valid for a copy of n dimensions with a local pitch. `noScale`: the issuer has no scale memory. -/
def shapeOk (r : List W32) (n lpitch : Nat) (noScale : Bool) : Bool :=
  let w0 := wordAt r 0
  let dir := shpDir r
  bitsOf w0 7 0 == 1 && bitsOf w0 15 14 == 0 && bitsOf w0 31 30 == 0 && decide (1 ≤ shpEfmt r) && decide (shpEfmt r ≤ 14)
    && shpDims r == n && decide (1 ≤ shpRows r) && decide (shpRows r ≤ 64) && (n != 1 || shpRows r == 1)
    && decide (1 ≤ shpCols r) && decide (shpCols r ≤ 64)
    && ((List.range 7).all fun i => if i < n then decide (1 ≤ shpSize r i) else shpSize r i == 0)
    && ((List.range 6).all fun i => decide (i + 1 < n) || shpStride r (i + 1) == 0)
    && bitsOf (wordAt r 15) 15 0 == (crcWords ((List.range 15).map (wordAt r))).toNat && bitsOf (wordAt r 15) 31 16 == 0
    && (!(dir == 0 && shpHdr r) || shpScalesOk r) && (dir < 2 || n == 1)
    && (!decide (dir < 2) || decide (packedBytes (shpEfmt r) (shpCols r) ≤ lpitch)) && (shpRot r == 0 || lpitch % 32 == 0)
    && !(dir == 2 && noScale)

/-! ### Issue (R285, R286, R288) -/

/-- The local offset of an issuer: in the core scratchpad window, in scale memory for DIR 2, or in the chip scratchpad. -/
def localOff (puppet : Bool) (dir : Nat) (x : Nat) : Nat :=
  let off := x % 2 ^ 28
  if puppet then off else if dir = 2 then off % 16384 else off % 0x80000

/-- An operation of the executing agent, to be completed by the model of time. -/
def State.asyncFor (s : State) (f : Fetcher) (kind : AsyncKind) (scope : BitVec 3) (d : BitVec 6) : AsyncOp :=
  let a := fetcherAgent f
  let g := agentGroup a
  { id := s.nextId, issuer := f, part := s.agentPart a, asid := s.agentAsid a, wg := (g.map fun g => (s.group g).wg).getD 0, kind := kind,
    scope := scope, token := .reg f d, word := s.spc, instr := s.word, lanesTo := s.lanesBefore a, inNbh := s.inNbh a, grid := (g.map fun g => (s.group g).grid).getD 0,
    widx := ((g.bind s.wgOf).map (·.idx)).getD 0 }

/-- Sends an operation on its way and moves past its word. -/
def State.launchAsync (s : State) (o : AsyncOp) : State := ({ s.takeId with asyncs := s.asyncs ++ [o] }).advance

/-- The executing agent as a fetcher. -/
def State.curFetcher (s : State) : Option Fetcher :=
  match s.cur with
  | .scalar g => some (.scalar g)
  | .puppet c => some (.puppet c)
  | _ => none

/-- A failure of a check made at issue: precise in a group, a status in the puppet slot's token. -/
def State.issueFail (s : State) (c : Cause) (d : BitVec 6) (status : Nat) : State :=
  match s.cur with
  | .puppet k => ((s.setPending d).writeToken (.puppet k) d (BitVec.ofNat 64 status) true).advance
  | _ => s.raise c

/-- A local header's fault for DIR 1 with HDR (R288), or for `tstore` without a record. -/
def localHdrFault (xhdr : Bool) (h : List W32) (r : Option (List W32)) : Option Cause :=
  if !hdrOk xhdr h then some .headerIntegrity
  else
    match r with
    | some r => if hdrEfmt h ≠ shpEfmt r || hdrRows h < shpRows r || hdrCols h < shpCols r then some .headerMismatch else none
    | none => none

/-- XHDR is accepted for an agent's partition. -/
def State.xhdrOf (s : State) (a : Agent) : Bool := s.feature (s.agentPart a) 2

/-- `tcopy` once its shape record has been read. -/
def State.startTcopy (s : State) (f : Fetcher) (d a : BitVec 6) (scope : BitVec 3) (n : Nat) (r : List W32) : State :=
  let x := s.sreg (a + 1)
  let puppet := agentPuppet s.cur
  let lpitch := bitsOf x 63 32
  let loff := localOff puppet (shpDir r) (bitsOf x 27 0)
  let coords := (List.range n).map fun (i : Nat) => ((s.sreg (a + 2 + BitVec.ofNat 6 i)).extractLsb' 0 32).toInt
  if !shapeOk r n lpitch (!s.ownsMatrix s.cur) then s.issueFail .headerIntegrity d 0x81
  else
    let o := s.asyncFor f (.tcopy r (s.sreg a) loff lpitch coords) scope d
    let h := bytesToWords 8 (s.localRead o loff 32)
    let checked := shpDir r = 1 && shpHdr r
    match if checked then localHdrFault (s.xhdrOf s.cur) h (some r) else none with
    | some c => s.issueFail c d 0x82
    | none => ((if checked then s.localMisses o [(loff, 32)] else s).setPending d).launchAsync o

/-- `tcopy` (R285). -/
def execTcopy (d a b : BitVec 6) (scope n : BitVec 3) (s : State) : Host.Outcome State Fault Refusal :=
  .next (s.issue
    { reads := [b] ++ (List.range (n.toNat + 2)).map (fun i => a + BitVec.ofNat 6 i), token := some d,
      bad := scalarReserved (.tcopy d a b scope n) } fun s =>
    match s.curFetcher with
    | none => s
    | some f =>
      let e : EngId := { a := s.cur, part := s.agentPart s.cur, asid := s.agentAsid s.cur }
      if !s.mayRead e (s.sreg b) 64 then s.waitOn .remoteLoad
      else
        match (match s.meet e 1 (s.sreg b) 64 with | .ok => s.readLines e 1 (s.sreg b) 64 | m => (s, m)) with
        | (s, .miss va) => (s.parkOnce e va 1 (.memop f 0)).waitOn .remoteLoad
        | (s, .fault c va) => s.raiseAfar s.cur c va (if c = .translation then 1 else 0) s.word s.spc
        | (s, .ok) => s.startTcopy f d a scope n.toNat (s.engWords e 1 (s.sreg b) 16))

/-! ### What a copy does (R287, R288) -/

/-- What completing an operation comes to: its writes are performed, it waits as it stands, or its data faults. -/
inductive EngDone where
  | done (s : State) (wct : Word) (status : Nat)
  | wait (s : State)
  | fault (s : State) (c : Cause) (va : Word) (k : Kind)

/-- The tensor coordinates of a box element. -/
def boxCoords (cs : List Int) (i j : Nat) : List Int :=
  cs.zipIdx.map fun e => e.1 + (if e.2 = 0 then (j : Int) else if e.2 = 1 then (i : Int) else 0)

/-- A coordinate lies outside the tensor. -/
def boxClipped (r : List W32) (cs : List Int) : Bool :=
  cs.zipIdx.any fun e => decide (e.1 < 0) || decide ((shpSize r e.2 : Int) ≤ e.1)

/-- The tensor address of an element, and whether it is the high nibble of its byte. -/
def boxAddr (r : List W32) (base : Word) (cs : List Int) : Word × Bool :=
  let w := codeWidth (shpEfmt r)
  let c0 := (cs.headD 0).toNat
  let off0 := if w = 4 then c0 / 2 else c0 * (w / 8)
  let rest := (cs.zipIdx.drop 1).map fun e => e.1.toNat * shpStride r e.2
  (base + BitVec.ofNat 64 (rest.foldl (· + ·) off0), w == 4 && c0 % 2 == 1)

/-- The bytes of one element in memory. -/
def elemBytes (f : Nat) : Nat := max 1 (codeWidth f / 8)

/-- The unclipped elements of a box: row, column, address, high nibble. -/
def boxElems (r : List W32) (base : Word) (cs : List Int) : List (Nat × Nat × Word × Bool) :=
  (List.range (shpRows r)).flatMap fun i => (List.range (shpCols r)).filterMap fun j =>
    let c := boxCoords cs i j
    if boxClipped r c then none else let a := boxAddr r base c; some (i, j, a.1, a.2)

/-- The code of an element as memory holds it. -/
def State.elemAt (s : State) (e : EngId) (f : Nat) (va : Word) (high : Bool) : Nat :=
  let x := bytesToNat (s.engBytes e 5 va (elemBytes f))
  if codeWidth f = 4 then (if high then x / 16 else x % 16) else x

/-- The lines of some reads are read, up to the first that an error strikes (R275). -/
def State.readList (s : State) (e : EngId) (k : Kind) : List (Word × Nat) → State × EngMeet
  | [] => (s, .ok)
  | (va, n) :: rest =>
    match s.readLines e k va n with
    | (s, .ok) => s.readList e k rest
    | r => r

/-- Turns what a list of accesses meets into the end of an attempt, or goes on; the lines of reads have then been read. -/
def State.unlessMeets (s : State) (o : AsyncOp) (k : Kind) (runs : List (Word × Nat)) (act : State → EngDone) : EngDone :=
  match s.meetList o.eng k runs with
  | .miss va => .wait (s.parkOnce o.eng va k (.asyncOp o.id))
  | .fault c va => .fault s c va k
  | .ok =>
    if k = 6 then act s
    else match s.readList o.eng k runs with
      | (s, .fault c va) => .fault s c va k
      | (s, _) => act s

/-- The same for the saved bytes of a saved workgroup. -/
def State.unlessLocal (s : State) (o : AsyncOp) (act : State → EngDone) : EngDone :=
  match s.localMeet o with
  | .ok => act s
  | .miss va => .wait (s.parkOnce (partEng o.part) va 6 (.asyncOp o.id))
  | .fault c va => .fault s c va 6

/-- The free values of the bytes read are drawn (R257). -/
def State.drawLoose (s : State) (o : AsyncOp) : State :=
  match fetcherGroup o.issuer with
  | some g => if o.saved || (s.group g).loose.isEmpty then s else s.draw
  | none => s

/-- DIR 0: a box of the tensor into a local tile. -/
def State.copyIn (s : State) (o : AsyncOp) (r : List W32) (base : Word) (loff lpitch : Nat) (cs : List Int) : EngDone :=
  let f := shpEfmt r
  let es := boxElems r base cs
  s.unlessMeets o 5 (es.map fun x => (x.2.2.1, elemBytes f)) fun s =>
    let codes := es.map fun x => (x.1, x.2.1, s.elemAt o.eng f x.2.2.1 x.2.2.2)
    let row (i : Nat) : List Nat := (List.range (shpCols r)).map fun j =>
      match codes.find? fun c => c.1 == i && c.2.1 == j with | some c => c.2.2 | none => 0
    let t := s.localMisses o ((if shpHdr r then [(loff, 32)] else []) ++ (List.range 64).map fun i => (loff + 32 + i * lpitch, lpitch))
    let t := t.localZero o (loff + 32) (64 * lpitch)
    let t := (List.range (shpRows r)).foldl (fun t i =>
      (rowChunks lpitch (shpRot r) i (packRow f (row i))).foldl (fun t x => t.localWrite o (loff + 32 + x.1) x.2) t) t
    let hdr := hdrSeal [BitVec.ofNat 32 (1 + f * 256 + bitsOf (wordAt r 0) 23 22 * 2 ^ 14 + bitsOf (wordAt r 0) 26 24 * 2 ^ 18),
      BitVec.ofNat 32 (shpRows r + shpCols r * 65536), BitVec.ofNat 32 lpitch, 0, 0, 0, 0, 0]
    let t := if shpHdr r then t.localWrite o loff (wordsToBytes hdr) else t
    .done t 0 (if es.length < shpRows r * shpCols r then 2 else 1)

/-- Writes one element of the tensor; a nibble leaves its neighbour as it stands. -/
def State.putElem (s : State) (e : EngId) (f : Nat) (va : Word) (high : Bool) (code : Nat) : State × Word :=
  if codeWidth f = 4 then
    let old := bytesToNat (s.engBytes e 6 va 1)
    s.engWrite e va (natToBytes (if high then old % 16 + code * 16 else old / 16 * 16 + code) 1)
  else s.engWrite e va (natToBytes code (elemBytes f))

/-- DIR 1: a local tile into a box of the tensor. -/
def State.copyOut (s : State) (o : AsyncOp) (r : List W32) (base : Word) (loff lpitch : Nat) (cs : List Int) : EngDone :=
  let f := shpEfmt r
  let es := boxElems r base cs
  s.unlessMeets o 6 (es.map fun x => (x.2.2.1, elemBytes f)) fun s =>
    let t : TileSrc := { hdr := [], pitch := lpitch, rot := shpRot r, byte := fun i => (s.localRead o (loff + 32 + i) 1).headD 0 }
    let (u, wct) := es.foldl (fun (acc : State × Word) x =>
      let (u, w) := acc.1.putElem o.eng f x.2.2.1 x.2.2.2 (t.code f x.1 x.2.1)
      (u, later acc.2 w)) (s, 0)
    let u := u.localMisses o ((List.range (shpRows r)).map fun i => (loff + 32 + i * lpitch, packedBytes f (shpCols r)))
    .done (u.drawLoose o) wct (if es.length < shpRows r * shpCols r then 2 else 1)

/-- Writes bytes of scale memory, or of its image in a saved area. -/
def State.scaleWrite (s : State) (o : AsyncOp) (off : Nat) (bs : List Byte) : State :=
  match o.scaleAt, fetcherGroup o.issuer with
  | some va, _ => (s.engWrite (partEng o.part) (va + BitVec.ofNat 64 off) bs).1
  | none, some g => (s.hitOps g.at 1 off bs.length).modCore g.at fun k => { k with scale := memWrite k.scale off bs }
  | none, none => s

/-- A failed check on what a copy reads: a memory-side fault in a group, STATUS 0x82 in the puppet slot (R288). -/
def sourceFail (o : AsyncOp) (s : State) (va : Word) : EngDone :=
  match fetcherGroup o.issuer with
  | some _ => .fault s .headerAfar va 0
  | none => .done s 0 0x82

/-- DIR 2: a scale record and its grid into scale memory. -/
def State.copyScales (s : State) (o : AsyncOp) (base : Word) (loff : Nat) : EngDone :=
  s.unlessMeets o 5 [(base, 32)] fun s =>
    let r := s.engWords o.eng 5 base 8
    let grid := recSfmt r != 3
    let sp := if grid then ceilDiv (recCols r) 4 * 4 else 0
    if !recOk (s.feature o.part 2) r || 16384 < loff + 32 + recRows r * sp then sourceFail o s base
    else
      let at' (i : Nat) : Word := base + BitVec.ofInt 64 (recDataOff r) + BitVec.ofNat 64 (i * recPitch r)
      let runs := if grid then (List.range (recRows r)).map fun i => (at' i, recCols r) else []
      s.unlessMeets o 5 runs fun s =>
        let new := recSeal (setWord (setWord r 2 (BitVec.ofNat 32 sp)) 3 (if grid then 32 else 0))
        let t := s.scaleWrite o loff (wordsToBytes new)
        let t := runs.zipIdx.foldl (fun t e => t.scaleWrite o (loff + 32 + e.2 * sp) (s.engBytes o.eng 5 e.1.1 e.1.2)) t
        .done t 0 1

/-- The bytes of a row that a tile is moved by: its stored elements, or its pitch when it is untyped. -/
def moveBytes (h : List W32) : Nat := if hdrEfmt h = 0 then hdrPitch h else packedBytes (hdrEfmt h) (hdrStored h)

/-- Metadata as a hardware writer writes it: with COLS / 4 odd, the high nibble of each row's last byte is 0 (R109). -/
def metaClean (h : List W32) (bs : List Byte) : List Byte :=
  let n := ceilDiv (hdrCols h) 8
  if hdrCols h / 4 % 2 = 0 then bs else bs.zipIdx.map fun e => if (e.2 + 1) % n = 0 then e.1 &&& 0x0F else e.1

/-- Replaces an operation. -/
def State.setAsync (s : State) (o : AsyncOp) : State := { s with asyncs := s.asyncs.map fun x => if x.id = o.id then o else x }
/-- Takes an operation off, with the lock that it holds. -/
def State.dropAsync (s : State) (id : Nat) : State := s.dropAsyncs fun x => x.id == id

/-- The operation takes the lock of a tile, or keeps it; `none` while another holds it (R292). -/
def State.takeLock (s : State) (o : AsyncOp) (p : Place) : Option State :=
  if o.lock.isSome then some s
  else if s.tileLocks.contains p then none
  else some ({ s with tileLocks := p :: s.tileLocks }.setAsync { o with lock := some p })

/-- An operation's lock is released. -/
def State.unlock (s : State) (o : AsyncOp) : State :=
  match o.lock with
  | some p => { s with tileLocks := s.tileLocks.filter (· != p) }.setAsync { o with lock := none }
  | none => s

/-- The header of a tile that a copy reads has been read, at its home: its first stage (R292). After 64 restarts the copy holds the tile's
lock for its read. -/
def State.copyHead (s : State) (o : AsyncOp) (base : Word) (lpitch : Nat) : EngDone :=
  s.unlessMeets o 5 [(base, 32)] fun s =>
    let (s, h) := s.headerErrors (agentCore o.eng.a).slice (s.engWords o.eng 5 base 8)
    if hdrAtom h && o.lock.isNone && s.tileLocked o.eng 5 base then .wait s
    else if !hdrOk (s.feature o.part 2) h || lpitch < moveBytes h then sourceFail o s base
    else
      let (s, lock) : State × Option Place :=
        if hdrAtom h && 64 ≤ o.restarts then
          (match s.takeLock o (s.lockPlace o.eng 5 base) with
           | some t => (t, some (s.lockPlace o.eng 5 base))
           | none => (s, o.lock))
        else (s, o.lock)
      .wait (s.setAsync { o with stage := 1, buf := [wordsToBytes h], lock := lock })

/-- The tile that a copy has read goes into its local tile. -/
def State.placeTile (s : State) (o : AsyncOp) (r h : List W32) (loff lpitch : Nat) : State :=
  let n := hdrRows h
  let t := s.localMisses o ((loff, 32) :: (loff + 32 + n * lpitch, metaBytes h) :: (List.range n).map fun i => (loff + 32 + i * lpitch, moveBytes h))
  let t := t.localWrite o loff (wordsToBytes (hdrSeal (setWord h 2 (BitVec.ofNat 32 lpitch))))
  let t := ((o.buf.drop 1).take n).zipIdx.foldl (fun t e =>
    (rowChunks lpitch (shpRot r) e.2 e.1).foldl (fun t x => t.localWrite o (loff + 32 + x.1) x.2) t) t
  t.localWrite o (loff + 32 + n * lpitch) (metaClean h (o.buf.getD (n + 1) []))

/-- DIR 3: a tile into a local tile. Each stage reads one part: the header, a row, the metadata; the last one reads word 4 and the lock again, and
a tile that a store has changed meanwhile is read anew (R292). -/
def State.copyTile (s : State) (o : AsyncOp) (r : List W32) (base : Word) (loff lpitch : Nat) : EngDone :=
  if o.stage = 0 then s.copyHead o base lpitch
  else
    let h := bytesToWords 8 (o.buf.headD [])
    let n := hdrRows h
    let part : Word × Nat := if o.stage ≤ n then (base + 32 + BitVec.ofNat 64 ((o.stage - 1) * hdrPitch h), moveBytes h)
      else (base + 32 + BitVec.ofNat 64 (n * hdrPitch h), metaBytes h)
    if o.stage ≤ n + 1 then
      s.unlessMeets o 5 [part] fun s =>
        .wait (s.setAsync { o with stage := o.stage + 1, buf := o.buf ++ [s.engBytes o.eng 5 part.1 part.2] })
    else
      s.unlessMeets o 5 [(base + 16, 4)] fun s =>
        if hdrAtom h && o.lock.isNone && (s.engWords o.eng 5 (base + 16) 1 != [wordAt h 4] || s.tileLocked o.eng 5 base) then
          .wait (s.setAsync { o with stage := 0, buf := [], restarts := o.restarts + 1 })
        else .done ((s.placeTile o r h loff lpitch).unlock o) 0 1

/-- Performs a copy, or a stage of it. -/
def State.copy (s : State) (o : AsyncOp) (r : List W32) (base : Word) (loff lpitch : Nat) (cs : List Int) : EngDone :=
  s.unlessLocal o fun s =>
    match shpDir r with
    | 0 => s.copyIn o r base loff lpitch cs
    | 1 => s.copyOut o r base loff lpitch cs
    | 2 => s.copyScales o base loff
    | _ => s.copyTile o r base loff lpitch

/-! ### Completion (R289, R290, R314) -/

/-- The writes of an engine operation are complete: an `exit` of its group covers them, its token read or not (R49). -/
def State.noteEngine (s : State) (o : AsyncOp) : State :=
  let put (c : Scalar) : Scalar := { c with engWct := later c.engWct o.wct }
  match o.token with
  | .reg f _ => s.modSc (fetcherAgent f) put
  | .area p sect _ =>
    { s with saved := s.saved.map fun (a : SavedArea) =>
        if a.part = p then { a with groups := a.groups.map fun x => if x.sect = sect then { x with v := { x.v with sc := put x.v.sc } } else x }
        else a }
  | .none => s

/-- Writes the token of an operation whose writes are performed, once they are complete at its scope. -/
def State.finishAsync (s : State) (o : AsyncOp) : State :=
  if ({ wct := o.wct : Scalar }).completeAt s.now o.scope o.inNbh && s.tokenReady o.token then
    ((s.dropAsync o.id).noteEngine o).putToken o.token (BitVec.ofNat 64 (o.status.toNat + bitsOf o.wct 55 0 * 256)) true
  else s

/-- The end of an attempt to complete an operation. A memory-side fault stops it, its token unwritten (R290). -/
def State.settleAsync (_ : State) (o : AsyncOp) (r : EngDone) : State :=
  match r with
  | .wait t => t
  | .done t wct st =>
    let o := { o with done := true, wct := later o.wct wct, status := BitVec.ofNat 8 st, lock := none }
    (t.setAsync o).finishAsync o
  | .fault s c va k =>
    let detail : BitVec 8 := if c = .translation then BitVec.ofNat 8 k else 0
    match fetcherGroup o.issuer with
    | some g =>
      (s.unitFault (match o.kind with | .storq _ _ => 4 | _ => 3) g o.grid o.widx o.word c va detail o.instr).dropAsync o.id
    | none => (s.raiseAfar (fetcherAgent o.issuer) c va detail o.instr o.word).dropAsync o.id

/-- Accesses of the issuer before an operation are still in flight (R300); those of a saved group are loads (R316). -/
def State.issuerBusy (s : State) (o : AsyncOp) : Bool :=
  match o.token with
  | .reg f _ => (s.scOf (fetcherAgent f)).hasEarlier o.id o.lanesTo
  | .area p sect _ =>
    (match (s.saved.filter fun a => a.part == p).findSome? fun a => a.groups.find? fun x => x.sect == sect with
     | some x => x.v.sc.hasEarlier o.id o.lanesTo
     | none => false)
  | .none => false

/-- An operation that goes on: it is not held in a bog, nor by an ARTLOAD (R383), and what its issuer did before it is done. -/
def State.asyncGoing (s : State) (id : Nat) : Option AsyncOp :=
  match s.asyncs.find? fun o => o.id == id with
  | some o => if s.isParked (.asyncOp id) || (s.part o.part).artHold || s.issuerBusy o then none else some o
  | none => none

/-- A copy performs its accesses; its token follows when they are complete. -/
def execTcopyComplete (op : Nat) (s : State) : Host.Outcome State Fault Refusal :=
  .next (match s.asyncGoing op with
    | some o =>
      (match o.kind with
       | .tcopy r base loff lpitch cs => if o.done then s.finishAsync o else s.settleAsync o (s.copy o r base loff lpitch cs)
       | _ => s)
    | none => s)

/-! ### All-or-nothing stores (R291, R292) -/

/-- `tstore`. -/
def execTstore (d a b : BitVec 6) (scope : BitVec 3) (s : State) : Host.Outcome State Fault Refusal :=
  .next (s.issue { reads := [a, b], token := some d, bad := scalarReserved (.tstore d a b scope) } fun s =>
    match s.curFetcher with
    | none => s
    | some f =>
      let x := s.sreg a
      let loff := (if agentPuppet s.cur then bitsOf x 27 0 else bitsOf x 18 0) / 32 * 32
      let rot := bitsOf x 34 32
      let o := s.asyncFor f (.tstore loff rot (s.sreg b &&& ~~~31#64) []) scope d
      let (s, h) := s.headerErrors (agentCore s.cur).slice (bytesToWords 8 (s.localRead o loff 32))
      match localHdrFault (s.xhdrOf s.cur) h none with
      | some c => s.issueFail c d 0x82
      | none =>
        if rot ≠ 0 && hdrPitch h % 32 ≠ 0 then s.issueFail .headerIntegrity d 0x82
        else
          (((s.localMisses o [(loff, 32)]).drawLoose o).setPending d).launchAsync
            { o with kind := .tstore loff rot (s.sreg b &&& ~~~31#64) h })

/-- What a tile store writes before the header, from the destination on: its rows unrotated, and its metadata (R292). -/
def State.storeParts (s : State) (o : AsyncOp) (loff rot : Nat) (dst : Word) (h : List W32) : List (Word × List Byte) :=
  let t : TileSrc := { hdr := h, pitch := hdrPitch h, rot := rot, byte := fun i => (s.localRead o (loff + 32 + i) 1).headD 0 }
  let rows := (List.range (hdrRows h)).map fun r =>
    (dst + 32 + BitVec.ofNat 64 (r * hdrPitch h), (List.range (moveBytes h)).map fun x => t.rowByte r x)
  rows ++ (if metaBytes h = 0 then []
    else [(dst + 32 + BitVec.ofNat 64 (hdrRows h * hdrPitch h),
           metaClean h ((List.range (metaBytes h)).map fun i => t.byte (hdrRows h * hdrPitch h + i)))])

/-- The first step of a tile store: everything it writes is there, and it takes the tile's lock. -/
def State.storeLock (s : State) (o : AsyncOp) (dst : Word) (runs : List (Word × Nat)) : EngDone :=
  s.unlessMeets o 6 runs fun s =>
    let p := s.lockPlace o.eng 6 dst
    match s.takeLock o p with
    | none => .wait s
    | some s => .wait (s.setAsync { o with lock := some p, stage := 1 })

/-- A step of a tile store: the lock, then one row or the metadata, and at last the header with VERSION one up, and the lock is released
(R291, R292). -/
def State.storeTile (s : State) (o : AsyncOp) (loff rot : Nat) (dst : Word) (h : List W32) : EngDone :=
  let parts := s.storeParts o loff rot dst h
  let all : List (Word × Nat) := (dst, 32) :: parts.map fun e => (e.1, e.2.length)
  if o.stage = 0 then s.storeLock o dst all
  else
    s.unlessMeets o 6 all fun s =>
      match parts[o.stage - 1]? with
      | some e =>
        let (u, w) := s.engWrite o.eng e.1 e.2
        let u := u.localMisses o [(loff + 32 + (o.stage - 1) * hdrPitch h, e.2.length)]
        .wait ((u.drawLoose o).setAsync { o with stage := o.stage + 1, wct := later o.wct w })
      | none =>
        let ver : W32 := wordAt (s.engWords o.eng 6 dst 8) 4
        let new := hdrSeal (setWord (setWord h 0 (putBit (wordAt h 0) 24 true)) 4 (ver + 1))
        let (u, w) := s.engWrite o.eng dst (wordsToBytes new)
        .done (u.unlock o) w 1

/-- A tile store performs its next step; its token follows when its writes are complete. -/
def execTstoreComplete (op : Nat) (s : State) : Host.Outcome State Fault Refusal :=
  .next (match s.asyncGoing op with
    | some o =>
      (match o.kind with
       | .tstore loff rot dst h =>
         if o.done then s.finishAsync o else s.settleAsync o (s.unlessLocal o fun s => s.storeTile o loff rot dst h)
       | _ => s)
    | none => s)

end Sys2Proof.Machine
end

