-- ==== Sys2Proof/Machine/Standards.lean ====
section
/-! DEFINITION. The algorithms that the spec takes from published standards and does not restate (R294, R447): SHA-384 (FIPS 180-4),
AES-256 decryption in GCM and XTS (FIPS 197, SP 800-38D, SP 800-38E), LZ4 block format and raw Deflate (RFC 1951). PRESUMED, log
entry 138. -/

namespace Sys2Proof.Machine

/-- The number whose big-endian bytes these are. -/
def bytesToNatBE (bs : List Byte) : Nat := bytesToNat bs.reverse

/-- The low `n` bytes of a number, most significant first. -/
def natToBytesBE (x n : Nat) : List Byte := (natToBytes x n).reverse

/-- A byte string cut into blocks of n bytes, the last one possibly short: `fuel` blocks at most. -/
def blocksOf (n : Nat) : Nat → List Byte → List (List Byte)
  | _, [] => []
  | 0, _ => []
  | fuel + 1, bs => bs.take n :: blocksOf n fuel (bs.drop n)

/-- The bitwise sum of two byte strings, as long as the shorter one. -/
def xorBytes (a b : List Byte) : List Byte := List.zipWith (· ^^^ ·) a b

/-! ### SHA-384 -/

/-- A number greater than 1 without a divisor below it. -/
def isPrime (n : Nat) : Bool := decide (1 < n) && (List.range (n - 2)).all fun d => n % (d + 2) != 0

/-- The first 80 primes: the last is 409. -/
def shaPrimes : List Nat := (List.range 410).filter isPrime

/-- The integer root of degree k, found bit by bit from bit n - 1 down. -/
def rootFrom (k x : Nat) : Nat → Nat → Nat
  | 0, r => r
  | n + 1, r => rootFrom k x n (if (r + 2 ^ n) ^ k ≤ x then r + 2 ^ n else r)

/-- The first 64 bits of the fractional part of the root of degree k (FIPS 180-4, 4.2.3 and 5.3.4). -/
def rootWord (k p : Nat) : Word := BitVec.ofNat 64 (rootFrom k (p * 2 ^ (64 * k)) 70 0)

/-- The round constants come from the cube roots of the primes. -/
def shaConstants : List Word := shaPrimes.map (rootWord 3)

/-- The initial hash value of SHA-384, from the square roots of the ninth to the sixteenth prime. -/
def sha384Start : List Word := ((shaPrimes.drop 8).take 8).map (rootWord 2)

/-- A sum of rotations. -/
def rotations (x : Word) (ns : List Nat) : Word := (ns.map x.rotateRight).foldl (· ^^^ ·) 0

/-- The message schedule: n further words before the ones given, which stand latest first. -/
def shaSchedule : Nat → List Word → List Word
  | 0, ws => ws
  | n + 1, ws =>
    let back (k : Nat) : Word := ws.getD (k - 1) 0
    shaSchedule n
      ((back 7 + back 16 + (rotations (back 2) [19, 61] ^^^ (back 2 >>> 6)) + (rotations (back 15) [1, 8] ^^^ (back 15 >>> 7))) :: ws)

/-- One round on the eight working words, with the sum of its constant and its schedule word: the words move one place on, the fourth takes a
part and the first takes all. -/
def shaRound (v : List Word) (kw : Word) : List Word :=
  let x (i : Nat) : Word := v.getD i 0
  let part := x 7 + kw + rotations (x 4) [14, 18, 41] + ((x 4 &&& x 5) ^^^ (~~~(x 4) &&& x 6))
  let all := part + rotations (x 0) [28, 34, 39] + ((x 0 &&& x 1) ^^^ (x 0 &&& x 2) ^^^ (x 1 &&& x 2))
  [all, x 0, x 1, x 2, x 3 + part, x 4, x 5, x 6]

/-- One block of 128 bytes. -/
def shaBlock (h : List Word) (block : List Byte) : List Word :=
  let ws := (blocksOf 8 16 block).map fun b => BitVec.ofNat 64 (bytesToNatBE b)
  let kws := List.zipWith (· + ·) shaConstants (shaSchedule 64 ws.reverse).reverse
  List.zipWith (· + ·) h (kws.foldl shaRound h)

/-- SHA-384 of a byte string (R447, R464). -/
def sha384 (bs : List Byte) : List Byte :=
  let padded := bs ++ [0x80] ++ List.replicate ((239 - bs.length % 128) % 128) 0 ++ natToBytesBE (8 * bs.length) 16
  let h := (blocksOf 128 (padded.length / 128) padded).foldl shaBlock sha384Start
  (h.take 6).flatMap fun w => natToBytesBE w.toNat 8

/-! ### AES-256 -/

/-- Multiplication by x in the field of AES. -/
def aesDouble (a : Byte) : Byte := (a <<< 1) ^^^ (if a.getLsbD 7 then 0x1b else 0)

/-- The product of two bytes in the field of AES: the low n bits of the second factor. -/
def aesMul (a : Byte) : Nat → Byte → Byte
  | 0, _ => 0
  | n + 1, b => (if b.getLsbD 0 then a else 0) ^^^ aesMul (aesDouble a) n (b >>> 1)

/-- The inverse in the field, zero for zero: the 254th power. -/
def aesInverse (a : Byte) : Byte :=
  let m (x y : Byte) := aesMul x 8 y
  let a2 := m a a
  let a4 := m a2 a2
  let a8 := m a4 a4
  let a16 := m a8 a8
  let a32 := m a16 a16
  let a64 := m a32 a32
  m (m (m a2 a4) (m a8 a16)) (m (m a32 a64) (m a64 a64))

/-- One entry of the substitution box. -/
def aesSub (a : Byte) : Byte :=
  let b := aesInverse a
  b ^^^ b.rotateLeft 1 ^^^ b.rotateLeft 2 ^^^ b.rotateLeft 3 ^^^ b.rotateLeft 4 ^^^ 0x63

/-- One entry of the inverse substitution box. -/
def aesInvSub (a : Byte) : Byte := aesInverse (a.rotateLeft 1 ^^^ a.rotateLeft 3 ^^^ a.rotateLeft 6 ^^^ 0x05)

/-- The substitution boxes. -/
def aesBox : List Byte := (List.range 256).map fun i => aesSub (BitVec.ofNat 8 i)
def aesInvBox : List Byte := (List.range 256).map fun i => aesInvSub (BitVec.ofNat 8 i)
def aesSubOf (a : Byte) : Byte := aesBox.getD a.toNat 0
def aesInvSubOf (a : Byte) : Byte := aesInvBox.getD a.toNat 0

/-- The key schedule: n further words behind the ones given, latest first. `rcon` is the next round constant. -/
def aesSchedule : Nat → Byte → List (List Byte) → List (List Byte)
  | 0, _, ws => ws
  | n + 1, rcon, ws =>
    let last := ws.headD []
    let i := ws.length % 8
    let t := if i = 0 then xorBytes ((last.drop 1 ++ last.take 1).map aesSubOf) [rcon, 0, 0, 0]
      else if i = 4 then last.map aesSubOf else last
    aesSchedule n (if i = 0 then aesDouble rcon else rcon) (xorBytes (ws.getD 7 []) t :: ws)

/-- The 15 round keys of a 32-byte key. -/
def aesRoundKeys (key : List Byte) : List (List Byte) :=
  let ws := (aesSchedule 52 1 (blocksOf 4 8 key).reverse).reverse
  blocksOf 16 15 (ws.flatMap id)

/-- Rotates row r of the state by `k * r` columns. The state is 16 bytes, column after column. -/
def aesShift (k : Nat) (x : List Byte) : List Byte :=
  (List.range 16).map fun j => x.getD ((j + 4 * k * (j % 4)) % 16) 0

/-- Multiplies every column by the circulant matrix of the four bytes. -/
def aesMix (m : List Byte) (x : List Byte) : List Byte :=
  (List.range 16).map fun j =>
    (List.range 4).foldl (fun acc i => acc ^^^ aesMul (x.getD (4 * (j / 4) + i) 0) 8 (m.getD ((4 + i - j % 4) % 4) 0)) 0

/-- The cipher: one block under the round keys. -/
def aesEncrypt (keys : List (List Byte)) (block : List Byte) : List Byte :=
  let x := ((keys.drop 1).take 13).foldl (fun x k => xorBytes (aesMix [2, 3, 1, 1] (aesShift 1 (x.map aesSubOf))) k)
    (xorBytes block (keys.getD 0 []))
  xorBytes (aesShift 1 (x.map aesSubOf)) (keys.getD 14 [])

/-- The inverse cipher. -/
def aesDecrypt (keys : List (List Byte)) (block : List Byte) : List Byte :=
  let x := ((keys.drop 1).take 13).reverse.foldl (fun x k => aesMix [14, 11, 13, 9] (xorBytes ((aesShift 3 x).map aesInvSubOf) k))
    (xorBytes block (keys.getD 14 []))
  xorBytes ((aesShift 3 x).map aesInvSubOf) (keys.getD 0 [])

/-! ### GCM -/

/-- The product in the field of GCM: `z` gathers, `v` is the second factor moved on, `n` bits of `x` remain, the first one at bit n - 1. -/
def ghashMul (x : BitVec 128) : Nat → BitVec 128 → BitVec 128 → BitVec 128
  | 0, _, z => z
  | n + 1, v, z =>
    ghashMul x n ((v >>> 1) ^^^ (if v.getLsbD 0 then 0xe1#128 <<< 120 else 0)) (if x.getLsbD n then z ^^^ v else z)

/-- A block of at most 16 bytes as a field element, padded with zeros. -/
def ghashElem (b : List Byte) : BitVec 128 := BitVec.ofNat 128 (bytesToNatBE (b ++ List.replicate (16 - b.length) 0))

/-- AES-256-GCM decryption with a 96-bit IV and no additional data (R294): the plaintext, and the tag computed over the ciphertext. -/
def gcmDecrypt (key iv src : List Byte) : List Byte × List Byte :=
  let keys := aesRoundKeys key
  let h := ghashElem (aesEncrypt keys (List.replicate 16 0))
  let pad (n : Nat) := aesEncrypt keys (iv ++ natToBytesBE n 4)
  let blocks := blocksOf 16 (src.length + 1) src
  let plain := blocks.zipIdx.flatMap fun e => xorBytes e.1 (pad (e.2 + 2))
  let sum := (blocks.map ghashElem ++ [BitVec.ofNat 128 (8 * src.length)]).foldl (fun y b => ghashMul (y ^^^ b) 128 h 0) 0
  (plain, xorBytes (natToBytesBE sum.toNat 16) (pad 1))

/-! ### XTS -/

/-- The next tweak of a data unit: multiplication by x, the tweak a little-endian number. -/
def xtsDouble (t : BitVec 128) : BitVec 128 := (t <<< 1) ^^^ (if t.getLsbD 127 then 0x87 else 0)

/-- One block under a tweak. -/
def xtsBlock (keys : List (List Byte)) (t : BitVec 128) (c : List Byte) : List Byte :=
  let tb := natToBytes t.toNat 16
  xorBytes (aesDecrypt keys (xorBytes c tb)) tb

/-- The blocks of one data unit. When the last one is short, the two last ones steal from each other. A unit of fewer than 16
bytes is no XTS data unit: what it comes to is `Config.xtsShortUnit`. -/
def xtsUnit (keys : List (List Byte)) : Nat → BitVec 128 → List Byte → List Byte
  | 0, _, _ => []
  | fuel + 1, t, c =>
    if c.length < 16 then []
    else if c.length = 16 then xtsBlock keys t c
    else if 32 ≤ c.length then xtsBlock keys t (c.take 16) ++ xtsUnit keys fuel (xtsDouble t) (c.drop 16)
    else
      let p := xtsBlock keys (xtsDouble t) (c.take 16)
      let tail := c.drop 16
      xtsBlock keys t (tail ++ p.drop tail.length) ++ p.take tail.length

/-- AES-256-XTS decryption (R294): the key pair, the tweak of the first data unit, the bytes of a data unit, the ciphertext. -/
def xtsDecrypt (key tweak : List Byte) (n : Nat) (src : List Byte) : List Byte :=
  let keys := aesRoundKeys (key.take 32)
  let tweakKeys := aesRoundKeys (key.drop 32)
  (blocksOf n (src.length + 1) src).zipIdx.flatMap fun e =>
    if e.1.length < 16 then (Config.xtsShortUnit key tweak e.2 e.1).take e.1.length
    else
      let t := aesEncrypt tweakKeys (natToBytes (bytesToNat tweak + e.2) 16)
      xtsUnit keys 257 (BitVec.ofNat 128 (bytesToNat t)) e.1

/-! ### Copies within the bytes that have come out -/

/-- Copies n bytes from `dist` bytes back. The output stands latest byte first. -/
def copyBack (dist : Nat) : Nat → List Byte → List Byte
  | 0, out => out
  | n + 1, out => copyBack dist n (out.getD (dist - 1) 0 :: out)

/-! ### LZ4 block format -/

/-- A length that goes on in further bytes while they are 255: the length and the bytes left, `none` when they run out. -/
def lz4Length (len : Nat) : List Byte → Option (Nat × List Byte)
  | [] => none
  | b :: bs => if b = 255 then lz4Length (len + 255) bs else some (len + b.toNat, bs)

/-- The sequences of a block. The output stands latest byte first. -/
def lz4Go : Nat → List Byte → List Byte → List Byte × Bool
  | 0, _, out => (out, false)
  | _ + 1, [], out => (out, false)
  | fuel + 1, t :: bs, out =>
    match if t >>> 4 = 15 then lz4Length 15 bs else some ((t >>> 4).toNat, bs) with
    | none => (out, false)
    | some (n, bs) =>
      let out := (bs.take n).reverse ++ out
      if bs.length < n then (out, false)
      else
        match bs.drop n with
        | [] => (out, true)
        | [_] => (out, false)
        | lo :: hi :: bs =>
          let dist := lo.toNat + 256 * hi.toNat
          match if t &&& 15 = 15 then lz4Length 15 bs else some ((t &&& 15).toNat, bs) with
          | none => (out, false)
          | some (m, bs) => if dist = 0 || decide (out.length < dist) then (out, false) else lz4Go fuel bs (copyBack dist (m + 4) out)

/-- LZ4 block format (R294). -/
def lz4 (bs : List Byte) : List Byte × Bool :=
  let r := lz4Go (bs.length + 1) bs []
  (r.1.reverse, r.2)

/-! ### Deflate (RFC 1951) -/

/-- The bits of a byte string, each byte from its least significant bit. -/
def bitsOfBytes (bs : List Byte) : List Bool := bs.flatMap fun b => (List.range 8).map fun i => b.getLsbD i

/-- A number of n bits, least significant first, and the bits left. -/
def takeBits : Nat → List Bool → Option (Nat × List Bool)
  | 0, bits => some (0, bits)
  | _ + 1, [] => none
  | n + 1, b :: bits => (takeBits n bits).map fun r => ((if b then 1 else 0) + 2 * r.1, r.2)

/-- A Huffman code: the code length of every symbol. -/
abbrev Huffman := List Nat

/-- The symbols of one code length, rising. -/
def Huffman.ofLength (h : Huffman) (n : Nat) : List Nat := (h.zipIdx.filter fun e => e.1 = n).map (·.2)

/-- The symbols by code length, 1 to 15. -/
def Huffman.levels (h : Huffman) : List (List Nat) := (List.range 15).map fun i => h.ofLength (i + 1)

/-- Codes left unused at each length in turn: `none` when more codes are asked for than there are. -/
def huffmanLeft : Nat → List (List Nat) → Option Nat
  | left, [] => some left
  | left, l :: ls => if 2 * left < l.length then none else huffmanLeft (2 * left - l.length) ls

/-- The code is complete, or has at most one symbol, of length 1. -/
def Huffman.ok (h : Huffman) : Bool :=
  match huffmanLeft 1 h.levels with
  | none => false
  | some left => left == 0 || decide ((h.filter (· ≠ 0)).length ≤ 1) && h.all (decide <| · ≤ 1)

/-- Reads one symbol: `code` is what has been read less the first code of this length. -/
def huffmanRead : List (List Nat) → Nat → List Bool → Option (Nat × List Bool)
  | [], _, _ => none
  | _, _, [] => none
  | l :: ls, code, b :: bits =>
    let c := 2 * code + (if b then 1 else 0)
    if c < l.length then some (l.getD c 0, bits) else huffmanRead ls (c - l.length) bits

/-- The fixed codes. -/
def fixedLiterals : Huffman := List.replicate 144 8 ++ List.replicate 112 9 ++ List.replicate 24 7 ++ List.replicate 8 8
def fixedDistances : Huffman := List.replicate 30 5

/-- Base and extra bits of the length symbols 257 to 285. -/
def lengthTable : List (Nat × Nat) :=
  [(3, 0), (4, 0), (5, 0), (6, 0), (7, 0), (8, 0), (9, 0), (10, 0), (11, 1), (13, 1), (15, 1), (17, 1), (19, 2), (23, 2), (27, 2)] ++
  [(31, 2), (35, 3), (43, 3), (51, 3), (59, 3), (67, 4), (83, 4), (99, 4), (115, 4), (131, 5), (163, 5), (195, 5), (227, 5), (258, 0)]

/-- Base and extra bits of the distance symbols 0 to 29. -/
def distanceTable : List (Nat × Nat) :=
  [(1, 0), (2, 0), (3, 0), (4, 0), (5, 1), (7, 1), (9, 2), (13, 2), (17, 3), (25, 3), (33, 4), (49, 4), (65, 5), (97, 5), (129, 6)] ++
  [(193, 6), (257, 7), (385, 7), (513, 8), (769, 8), (1025, 9), (1537, 9), (2049, 10), (3073, 10), (4097, 11)] ++
  [(6145, 11), (8193, 12), (12289, 12), (16385, 13), (24577, 13)]

/-- A base and its extra bits. -/
def takeExtra (t : List (Nat × Nat)) (i : Nat) (bits : List Bool) : Option (Nat × List Bool) :=
  match t[i]? with
  | none => none
  | some (base, n) => (takeBits n bits).map fun r => (base + r.1, r.2)

/-- Where inflating stands: the bytes that have come out, latest first, and the bits left, `none` once the stream is malformed. -/
abbrev Inflated := List Byte × Option (List Bool)

/-- The symbols of a compressed block, up to the end-of-block symbol. -/
def inflateSymbols (lits dists : List (List Nat)) : Nat → List Bool → List Byte → Inflated
  | 0, _, out => (out, none)
  | fuel + 1, bits, out =>
    match huffmanRead lits 0 bits with
    | none => (out, none)
    | some (sym, bits) =>
      if sym < 256 then inflateSymbols lits dists fuel bits (BitVec.ofNat 8 sym :: out)
      else if sym = 256 then (out, some bits)
      else
        let dist : Option (Nat × Nat × List Bool) := do
          let (len, bits) ← takeExtra lengthTable (sym - 257) bits
          let (d, bits) ← huffmanRead dists 0 bits
          let (dist, bits) ← takeExtra distanceTable d bits
          if out.length < dist then none else some (len, dist, bits)
        match dist with
        | none => (out, none)
        | some (len, dist, bits) => inflateSymbols lits dists fuel bits (copyBack dist len out)

/-- The code lengths of a dynamic block: n of them to come, latest first. -/
def inflateLengths (levels : List (List Nat)) : Nat → Nat → List Bool → List Nat → Option (List Nat × List Bool)
  | _, 0, bits, acc => some (acc, bits)
  | 0, _, _, _ => none
  | fuel + 1, n, bits, acc =>
    match huffmanRead levels 0 bits with
    | none => none
    | some (sym, bits) =>
      if sym < 16 then inflateLengths levels fuel (n - 1) bits (sym :: acc)
      else
        let (base, extra) := if sym = 16 then (3, 2) else if sym = 17 then (3, 3) else (11, 7)
        match takeBits extra bits with
        | none => none
        | some (x, bits) =>
          if n < base + x || (sym = 16 && acc.isEmpty) then none
          else inflateLengths levels fuel (n - (base + x)) bits (List.replicate (base + x) (if sym = 16 then acc.headD 0 else 0) ++ acc)

/-- The order in which the lengths of the code-length code stand. -/
def codeLengthOrder : List Nat := [16, 17, 18, 0, 8, 7, 9, 6, 10, 5, 11, 4, 12, 3, 13, 2, 14, 1, 15]

/-- n numbers of three bits. -/
def takeThrees : Nat → List Bool → Option (List Nat × List Bool)
  | 0, bits => some ([], bits)
  | n + 1, bits =>
    match takeBits 3 bits with
    | none => none
    | some (x, bits) => (takeThrees n bits).map fun r => (x :: r.1, r.2)

/-- The two codes of a dynamic block. -/
def inflateCodes (bits : List Bool) : Option (Huffman × Huffman × List Bool) := do
  let (hlit, bits) ← takeBits 5 bits
  let (hdist, bits) ← takeBits 5 bits
  let (hclen, bits) ← takeBits 4 bits
  let (ls, bits) ← takeThrees (hclen + 4) bits
  let order := codeLengthOrder.zip ls
  let lengths : Huffman := (List.range 19).map fun i => ((order.find? fun e => e.1 = i).map (·.2)).getD 0
  let (all, bits) ← inflateLengths lengths.levels 320 (hlit + 257 + hdist + 1) bits []
  let lits := all.reverse.take (hlit + 257)
  let dists := all.reverse.drop (hlit + 257)
  if 29 < hlit || 29 < hdist || !Huffman.ok lengths || !Huffman.ok lits || !Huffman.ok dists || lits.getD 256 0 = 0 then none
  else some (lits, dists, bits)

/-- The bytes of a stored block: n bytes copied from the stream. -/
def inflateStored : Nat → List Bool → List Byte → Inflated
  | 0, bits, out => (out, some bits)
  | n + 1, bits, out =>
    match takeBits 8 bits with
    | none => (out, none)
    | some (b, bits) => inflateStored n bits (BitVec.ofNat 8 b :: out)

/-- The blocks of a stream. What follows the final block is not looked at. -/
def inflateGo : Nat → List Bool → List Byte → List Byte × Bool
  | 0, _, out => (out, false)
  | fuel + 1, bits, out =>
    match takeBits 3 bits with
    | none => (out, false)
    | some (hdr, bits) =>
      let r : Inflated :=
        if hdr / 2 = 0 then
          match takeBits 32 (bits.drop (bits.length % 8)) with
          | none => (out, none)
          | some (x, bits) => if x % 65536 + x / 65536 = 65535 then inflateStored (x % 65536) bits out else (out, none)
        else if hdr / 2 = 1 then inflateSymbols fixedLiterals.levels fixedDistances.levels (bits.length + 1) bits out
        else if hdr / 2 = 2 then
          match inflateCodes bits with
          | none => (out, none)
          | some (lits, dists, bits) => inflateSymbols lits.levels dists.levels (bits.length + 1) bits out
        else (out, none)
      match r.2 with
      | none => (r.1, false)
      | some bits => if hdr % 2 = 1 then (r.1, true) else inflateGo fuel bits r.1

/-- Raw Deflate (R294). -/
def inflate (bs : List Byte) : List Byte × Bool :=
  let bits := bitsOfBytes bs
  let r := inflateGo (bits.length + 1) bits []
  (r.1.reverse, r.2)

/-- Decompression by DCMP (R294): the bytes that come out, and whether the stream is well formed. -/
def decompress (kind : Nat) (bs : List Byte) : List Byte × Bool := if kind = 1 then lz4 bs else inflate bs

end Sys2Proof.Machine
end

