-- ==== Sys2Proof/Machine/Chains.lean ====
section
/-! DEFINITION. Storage chains (R293 to R297): `storq`, the descriptor, the stages decrypt, decompress and format, and the completion
record. -/

namespace Sys2Proof.Machine

/-! ### Issue (R293) -/

/-- `storq`: the descriptor is read when the chain starts. -/
def execStorq (d a : BitVec 6) (scope : BitVec 3) (s : State) : Host.Outcome State Fault Refusal :=
  .next (s.issue { reads := [a], token := some d, bad := scalarReserved (.storq d a scope) } fun s =>
    match s.curFetcher with
    | none => s
    | some f => (s.setPending d).launchAsync (s.asyncFor f (.storq (s.sreg a &&& ~~~127#64) []) scope d))

/-! ### The descriptor (R294) -/

/-- SRCK. -/
def chSrck (w : List W32) : Nat := bitsOf (wordAt w 0) 9 8
/-- DEC. -/
def chDec (w : List W32) : Nat := bitsOf (wordAt w 0) 11 10
/-- DCMP. -/
def chDcmp (w : List W32) : Nat := bitsOf (wordAt w 0) 13 12
/-- FMT. -/
def chFmt (w : List W32) : Bool := bitAt (wordAt w 0) 14
/-- LEN. -/
def chLen (w : List W32) : Nat := (wordAt w 1).toNat
/-- DLEN. -/
def chDlen (w : List W32) : Nat := (wordAt w 8).toNat
/-- IFMT. -/
def chIfmt (w : List W32) : Nat := bitsOf (wordAt w 16) 5 0
/-- OFMT. -/
def chOfmt (w : List W32) : Nat := bitsOf (wordAt w 16) 11 6
/-- OSF. -/
def chOsf (w : List W32) : Nat := bitsOf (wordAt w 16) 13 12
/-- RND. -/
def chRnd (w : List W32) : Nat := bitsOf (wordAt w 16) 16 14
/-- OROWS. -/
def chRows (w : List W32) : Nat := bitsOf (wordAt w 17) 15 0
/-- OCOLS. -/
def chCols (w : List W32) : Nat := bitsOf (wordAt w 17) 31 16
/-- OPITCH. -/
def chPitch (w : List W32) : Nat := (wordAt w 18).toNat

/-- The key of a chain: the slot holds one of the kind that DEC asks for (R465). -/
def State.chainKey (s : State) (p : PartId) (w : List W32) : Option (List Byte) :=
  match tabFind (s.part p).keys (bitsOf (wordAt w 9) 7 0) with
  | some (kind, key) => if kind.toNat = chDec w then some key else none
  | none => none

/-- What the number-format stage needs of its fields (R294, R295). -/
def chainFormatOk (w : List W32) : Bool :=
  bitsOf (wordAt w 16) 31 17 == 0 && decide (2 ≤ chIfmt w) && decide (chIfmt w ≤ 4) && decide (3 ≤ chOfmt w) && decide (chOfmt w ≤ 12)
    && chOsf w != 3 && (chOsf w == 0 || (decide (5 ≤ chOfmt w) && decide (chOfmt w ≤ 8))) && decide (1 ≤ chRnd w)
    && decide (chRnd w ≤ 5) && decide (1 ≤ chRows w) && decide (chRows w ≤ 64) && decide (1 ≤ chCols w) && decide (chCols w ≤ 64)
    && (chOsf w == 0 || chCols w % 16 == 0) && chPitch w % 32 == 0 && decide (packedBytes (chOfmt w) (chCols w) ≤ chPitch w)

/-- The descriptor is valid. -/
def State.chainOk (s : State) (p : PartId) (w : List W32) : Bool :=
  bitsOf (wordAt w 0) 7 0 == 1 && decide (chSrck w ≤ 1) && chDec w != 3 && chDcmp w != 3 && bitsOf (wordAt w 0) 31 15 == 0
    && bitsOf (wordAt w 5) 31 16 == 0 && bitsOf (wordAt w 9) 31 9 == 0 && ((List.range 7).all fun i => wordAt w (24 + i) == 0)
    && bitsOf (wordAt w 31) 31 16 == 0 && bitsOf (wordAt w 31) 15 0 == (crcWords ((List.range 31).map (wordAt w))).toNat
    && (!chFmt w || chainFormatOk w) && (chDec w == 0 || (s.chainKey p w).isSome)

/-! ### The number-format stage (R296) -/

/-- An exact quotient as a value: 256 bits of it and one more for the rest. The divisor is a positive number. -/
def FV.div (x y : FV) : FV :=
  match x, y with
  | .fin s n e, .fin _ m k => .fin s (2 * ((n <<< 256) / m) + if (n <<< 256) % m = 0 then 0 else 1) (e - k - 257)
  | x, _ => x

/-- One element placed: its code, and whether it was saturated. -/
def chainElem (fmt mode : Nat) (v : FV) : Nat × Bool :=
  let (code, c) := convertTo fmt false mode true 0 v
  let late : Bool := match v with
    | .nan _ => false
    | .inf _ => true
    | .fin neg n e =>
      match codeFloat fmt with
      | some f =>
        if f.kind == .e2m1 then decide (7 < ({ ebits := 4, fbits := 1, bias := 1 : FFmt }.roundFin mode false 0 neg n e).1 % 32)
        else c &&& condOF != 0
      | none =>
        let t : Int := (roundMag mode 0 neg n e 0).1
        let w := codeWidth fmt
        let hi : Int := if fmt = codeO4 then 7 else 2 ^ (w - 1) - 1
        let lo : Int := if fmt = codeO4 then -7 else -(2 ^ (w - 1))
        decide (hi < (if neg then -t else t)) || decide ((if neg then -t else t) < lo)
  (code, late)

/-- The largest of some magnitudes; 0 when there is none. -/
def maxMag (vs : List FV) : FV := vs.foldl (fun m v => if FV.cmp m v.abs < 0 then v.abs else m) (.fin false 0 0)

/-- The largest finite value of a scalable format, for the scale; O4 counts 7. -/
def scaleTop (fmt : Nat) : FV :=
  match codeFloat fmt with
  | some f => f.decode f.maxCode
  | none => FV.ofInt 7

/-- The scale byte of a block with greatest magnitude `a` (R129, R296): 1 E8M0, 2 UE5M3. -/
def blockScale (osf fmt : Nat) (a : FV) : Nat :=
  if a.isZero then (if osf = 1 then 127 else 0x78)
  else
    (lowest 255 fun c => decide (FV.cmp a (FV.mul (scaleTop fmt) (scaleByte osf c)) ≤ 0)).getD 254

/-- An outlier pair of O4: the exponent n of the largest 4^n that |c / s| reaches. -/
def outlierExp (c s : FV) : Int :=
  ((List.range 8).reverse.find? fun (i : Nat) => decide (0 ≤ FV.cmp c.abs (FV.mul s (.fin false 1 (2 * ((i : Int) - 3)))))).elim (-3)
    fun (i : Nat) => (i : Int) - 3

/-- What the stage makes of some elements, with its counts: outliers placed, candidates lost, elements saturated. -/
structure Formed where
  codes : List Nat := []
  outN  : Nat := 0
  lostN : Nat := 0
  satN  : Nat := 0

/-- Two results in sequence. -/
def Formed.add (x y : Formed) : Formed :=
  { codes := x.codes ++ y.codes, outN := x.outN + y.outN, lostN := x.lostN + y.lostN, satN := x.satN + y.satN }

/-- An element of a block by itself. -/
def formOne (fmt mode : Nat) (sc x : FV) : Formed :=
  let (c, o) := chainElem fmt mode (FV.div x sc)
  { codes := [c], satN := if o then 1 else 0 }

/-- The elements of a block by pairs: an O4 pair that holds a candidate keeps one outlier (R106, R296). -/
def formBlock (fmt mode : Nat) (sc : FV) (cand : FV → Bool) : List FV → Formed
  | x :: y :: rest =>
    let pair : Formed :=
      if cand x || cand y then
        let even := cand x && (!cand y || decide (0 ≤ FV.cmp x.abs y.abs))
        let c := if even then x else y
        let partner := (if c.neg then 8 else 0) + (outlierExp c sc + 3).toNat
        { codes := if even then [8, partner] else [partner, 8], outN := 1, lostN := if cand x && cand y then 1 else 0 }
      else (formOne fmt mode sc x).add (formOne fmt mode sc y)
    pair.add (formBlock fmt mode sc cand rest)
  | [x] => formOne fmt mode sc x
  | [] => {}

/-- Lists cut into parts of n. -/
def chunks {α : Type} (n : Nat) : Nat → List α → List (List α)
  | 0, _ => []
  | k + 1, xs => xs.take n :: chunks n k (xs.drop n)

/-- A row: its codes and counts, and its scale bytes. -/
def formRow (w : List W32) (xs : List FV) : Formed × List Nat :=
  let thr := fp32.decode (wordAt w 19).toNat
  let cand (x : FV) : Bool := chOfmt w == codeO4 && !x.isNan && !thr.isNan && decide (0 < FV.cmp x.abs thr)
  (chunks 16 (ceilDiv xs.length 16) xs).foldl (fun acc b =>
    let a := maxMag (b.filter fun x => !x.isNan && !cand x)
    let sb := blockScale (chOsf w) (chOfmt w) a
    let sc : FV := if chOsf w = 0 then FV.ofInt 1 else scaleByte (chOsf w) sb
    (acc.1.add (formBlock (chOfmt w) (chRnd w) sc cand b), acc.2 ++ [sb])) ({}, [])

/-- A tile and its scale record as they are written: the tile's bytes, the record's, and the counts. -/
def formTile (w : List W32) (scaleOff : W32) (rows : List (List FV)) : List Byte × List Byte × Formed :=
  let fs := rows.map (formRow w)
  let osf := chOsf w
  let hdr := hdrSeal (setWord (setWord (hdrMake (chOfmt w) (chRows w) (chCols w) (chPitch w) false 0) 0
    (BitVec.ofNat 32 (1 + chOfmt w * 256 + osf * 2 ^ 14 + (if osf = 0 then 0 else 2 ^ 18)))) 3 (if osf = 0 then 0 else scaleOff))
  let sp := ceilDiv (chCols w / 16) 4 * 4
  let rec' := recSeal [BitVec.ofNat 32 (1 + osf * 256 + 4096), BitVec.ofNat 32 (chRows w + chCols w / 16 * 65536), BitVec.ofNat 32 sp, 32, 0, 0, 0, 0]
  let pad (n : Nat) (bs : List Byte) : List Byte := bs ++ List.replicate (n - bs.length) 0
  (wordsToBytes hdr ++ fs.flatMap (fun f => pad (chPitch w) (packRow (chOfmt w) f.1.codes)),
   if osf = 0 then [] else wordsToBytes rec' ++ fs.flatMap (fun f => pad sp (f.2.map fun c => BitVec.ofNat 8 c)),
   fs.foldl (fun acc f => acc.add { f.1 with codes := [] }) {})

/-! ### What a chain comes to (R295, R297) -/

/-- The outcome of a chain: its status, the source bytes read, the writes in order with the destination bytes among them, and the counts
of the format stage. -/
structure ChainOut where
  status : Nat := 1
  rdb    : Nat := 0
  writes : List (Word × List Byte) := []
  wrb    : Nat := 0
  counts : Formed := {}

/-- The formatted stream: `none` when an offset between a tile and its record does not fit. -/
def chainTiles (w : List W32) (stream : List Byte) : Option (List (Word × List Byte) × Nat × Formed × Bool) :=
  let f := (codeFloat (chIfmt w)).getD fp32
  let n := codeWidth (chIfmt w) / 8
  let rowBytes := chCols w * n
  let tiles := ceilDiv stream.length (chRows w * rowBytes)
  let elems := (chunks n (tiles * chRows w * chCols w) stream).map fun bs => f.decode (bytesToNat bs)
  let rows := chunks (chCols w) (tiles * chRows w) elems
  let size := 32 + chRows w * chPitch w
  let ssize := ceilDiv (32 + chRows w * (ceilDiv (chCols w / 16) 4 * 4)) 32 * 32
  let dst := dwordAt w 6
  let sdst := dwordAt w 20
  let off (t : Nat) : Int := ((sdst + BitVec.ofNat 64 (t * ssize)) - (dst + BitVec.ofNat 64 (t * size))).toInt
  if chOsf w ≠ 0 && (List.range tiles).any (fun t => decide (off t < -(2 ^ 31)) || decide (2 ^ 31 ≤ off t)) then none
  else
    let made := (chunks (chRows w) tiles rows).zipIdx.map fun e =>
      let r := formTile w (BitVec.ofInt 32 (off e.2)) e.1
      (([(dst + BitVec.ofNat 64 (e.2 * size), r.1.take (chDlen w - e.2 * size))] ++
        (if r.2.1.isEmpty then [] else [(sdst + BitVec.ofNat 64 (e.2 * ssize), r.2.1)]) : List (Word × List Byte)), r.2.2)
    some (made.flatMap (·.1), min (tiles * size) (chDlen w), made.foldl (fun acc m => acc.add m.2) {}, decide (chDlen w < tiles * size))

/-- A run of writes with its first n bytes made zero, and nothing after them. -/
def zeroFirst : Nat → List (Word × List Byte) → List (Word × List Byte)
  | _, [] => []
  | n, (va, bs) :: rest => (va, List.replicate (min n bs.length) 0) :: zeroFirst (n - bs.length) rest

/-- The stages after the source bytes are there. `tag`: the 16 bytes at TAG, for GCM. `n`: how many bytes had been written when the tag
failed. -/
def State.chainStages (s : State) (p : PartId) (w : List W32) (src tag : List Byte) : ChainOut :=
  let key := (s.chainKey p w).getD []
  let iv := wordsToBytes [wordAt w 10, wordAt w 11, wordAt w 12, wordAt w 13]
  let (plain, tagOk) : List Byte × Bool :=
    if chDec w = 1 then let r := gcmDecrypt key (iv.take 12) src; (r.1, r.2 == tag)
    else if chDec w = 2 then (xtsDecrypt key iv (if bitAt (wordAt w 9) 8 then 4096 else 512) src, true)
    else (src, true)
  let (stream, wellFormed) := if chDcmp w = 0 then (plain, true) else decompress (chDcmp w) plain
  let out : ChainOut :=
    if chFmt w then
      match chainTiles w stream with
      | none => { status := 0x81, rdb := src.length }
      | some (ws, n, f, cut) => { status := if cut then 0x85 else 1, rdb := src.length, writes := ws, wrb := n, counts := f }
    else
      { status := if chDlen w < stream.length then 0x85 else 1, rdb := src.length,
        writes := [(dwordAt w 6, stream.take (chDlen w))], wrb := min stream.length (chDlen w) }
  if !tagOk then
    let total := (out.writes.map fun e => e.2.length).foldl (· + ·) 0
    { out with status := 0x83, writes := zeroFirst (s.freeWord.toNat % (total + 1)) out.writes, wrb := 0, counts := {} }
  else if !wellFormed && out.status ≠ 0x81 then { out with status := 0x84 }
  else out

/-- The completion record (R297). -/
def chainRecord (o : ChainOut) (now : Word) : List W32 :=
  setDword [BitVec.ofNat 32 o.status, BitVec.ofNat 32 o.rdb, BitVec.ofNat 32 o.wrb, BitVec.ofNat 32 o.counts.outN,
    BitVec.ofNat 32 o.counts.lostN, BitVec.ofNat 32 o.counts.satN, 0, 0] 6 now

/-- Performs a chain's writes; the completion record follows when they are complete at the chain's scope (R314). -/
def State.endChain (s : State) (o : AsyncOp) (w : List W32) (r : ChainOut) : EngDone :=
  s.unlessMeets o 6 ((r.writes.map fun e => (e.1, e.2.length)) ++ [(dwordAt w 22, 32)]) fun s =>
    let (t, wct) := r.writes.foldl (fun (acc : State × Word) e =>
      let (u, x) := acc.1.engWrite o.eng e.1 e.2
      (u, later acc.2 x)) (s, 0)
    .wait (t.draw.setAsync { o with stage := 1, wct := later o.wct wct, buf := [wordsToBytes (chainRecord r 0)] })

/-- Writes a chain's completion record at STAT, its data being complete. -/
def State.recordChain (s : State) (o : AsyncOp) (w : List W32) : EngDone :=
  if !({ wct := o.wct : Scalar }).completeAt s.now o.scope o.inNbh then .wait s
  else
    s.unlessMeets o 6 [(dwordAt w 22, 32)] fun s =>
      let r := setDword (bytesToWords 8 (o.buf.headD [])) 6 s.now
      let (t, wct) := s.engWrite o.eng (dwordAt w 22) (wordsToBytes r)
      .done t wct (bitsOf (wordAt r 0) 7 0)

/-- Runs a chain whose descriptor has been read. -/
def State.chain (s : State) (o : AsyncOp) (w : List W32) (act : State → ChainOut → EngDone) : EngDone :=
  if !s.chainOk o.part w then act s { status := 0x81 }
  else if chSrck w = 1 && (fetcherGroup o.issuer).isSome then act s { status := 0x86 }
  else
    let tagRun := if chDec w = 1 then [(dwordAt w 14, 16)] else []
    let srcRun := if chSrck w = 0 then [(dwordAt w 2, chLen w)] else []
    s.unlessMeets o 5 (srcRun ++ tagRun) fun s =>
      let tag := if chDec w = 1 then s.engBytes o.eng 5 (dwordAt w 14) 16 else []
      if chSrck w = 1 then
        match Config.nvmeRead (wordAt w 4) ((wordAt w 5).extractLsb' 0 16) (dwordAt w 2) (chLen w) with
        | none => act s { status := 0x82 }
        | some src => act s (s.chainStages o.part w src tag)
      else act s (s.chainStages o.part w (s.engBytes o.eng 5 (dwordAt w 2) (chLen w)) tag)

/-! ### The events -/

/-- A chain starts: its descriptor is read. -/
def execStorageChainStart (op : Nat) (s : State) : Host.Outcome State Fault Refusal :=
  .next (match s.asyncGoing op with
    | some o =>
      (match o.kind with
       | .storq desc [] =>
         (match s.meet o.eng 5 desc 128 with
          | .miss va => s.parkOnce o.eng va 5 (.asyncOp op)
          | .fault c va => s.settleAsync o (.fault s c va 5)
          | .ok =>
            (match s.readLines o.eng 5 desc 128 with
             | (s, .fault c va) => s.settleAsync o (.fault s c va 5)
             | (s, _) => s.setAsync { o with kind := .storq desc (s.engWords o.eng 5 desc 32) }))
       | _ => s)
    | none => s)

/-- A chain performs its stages and writes; its token follows when they are complete. -/
def execStorageChainComplete (op : Nat) (s : State) : Host.Outcome State Fault Refusal :=
  .next (match s.asyncGoing op with
    | some o =>
      (match o.kind with
       | .storq _ (w :: ws) =>
         if o.done then s.finishAsync o
         else if o.stage = 1 then s.settleAsync o (s.recordChain o (w :: ws))
         else s.settleAsync o (s.chain o (w :: ws) fun s r => s.endChain o (w :: ws) r)
       | _ => s)
    | none => s)

end Sys2Proof.Machine
end

