-- ==== Sys2Proof/Machine/LaneControl.lean ====
section
/-! DEFINITION. Lane control instructions (R41, R196 to R204) and `spawn` into the bins of the core (R50, R51, R200). -/

namespace Sys2Proof.Machine

/-! ### Branches, joins and the end (R41, R197 to R199) -/

/-- The position that a displacement leads to. -/
def laneTarget (pos : Nat) (w : LaneWord) : BitVec 24 := BitVec.ofInt 24 ((pos : Int) + w.imm.toInt)

/-- Moves a split to a position and starts its block hash anew (R202). -/
def Group.moveSplit (v : Group) (k : Nat) (pc : BitVec 24) : Group :=
  v.modSplit k fun x => { x with pc := pc, bh := bhStart, bhv := true }

/-- `lbr`. -/
def execLbr (w : LaneWord) (s : State) : Host.Outcome State Fault Refusal :=
  .next (s.laneIssue (.lbr w) w fun x t =>
    t.modGroup x.g fun v => (v.moveSplit x.k.val (laneTarget x.pos w)).reconverge)

/-- A split whose lanes disagree divides (R41): T goes to the target and F falls through. -/
def Group.divide (v : Group) (k : Nat) (taken : Mask) (target next : BitVec 24) : Group :=
  let m := (v.split k).mask
  let fall := m &&& ~~~taken
  match v.freeSplit with
  | some j =>
    let v := (v.moveSplit k next).modSplit k fun x => { x with mask := fall }
    v.setSplit j { used := true, pc := target, mask := taken, bh := bhStart, bhv := true, taken := v.laneN }
  | none =>
    if next < target then ((v.moveSplit k next).modSplit k fun x => { x with mask := fall }).addWaiting taken target
    else ((v.moveSplit k target).modSplit k fun x => { x with mask := taken }).addWaiting fall next

/-- The lanes of a mask whose 32-bit condition value is not zero. -/
def heldLanes (m : Mask) (vals : List Word) : Mask := maskOf fun l => m.getLsbD l && (laneVal vals l).extractLsb' 0 32 != 0

/-- `lbrc`. -/
def execLbrc (w : LaneWord) (s : State) : Host.Outcome State Fault Refusal :=
  .next (s.laneIssue (.lbrc w) w fun x t =>
    let taken := heldLanes x.mask x.a.vals
    let target := laneTarget x.pos w
    let next : BitVec 24 := BitVec.ofNat 24 (x.pos + 1)
    t.modGroup x.g fun v =>
      (if taken = 0 || target = next then v.moveSplit x.k.val next
       else if taken = x.mask then v.moveSplit x.k.val target
       else v.divide x.k.val taken target next).reconverge)

/-- `ljoin`. -/
def execLjoin (w : LaneWord) (s : State) : Host.Outcome State Fault Refusal :=
  .next (s.laneIssue (.ljoin w) w fun x t =>
    t.modGroup x.g fun v =>
      ((v.moveSplit x.k.val (laneTarget x.pos w)).modSplit x.k.val fun y => { y with join := some v.laneN }).reconverge)

/-- `lend`: the split stays where it is. -/
def execLend (w : LaneWord) (s : State) : Host.Outcome State Fault Refusal :=
  .next (s.laneIssue (.lend w) w fun x t =>
    t.modGroup x.g fun v => (v.modSplit x.k.val fun y => { y with atEnd := true }).reconverge)

/-! ### Votes and signatures (R201, R204) -/

/-- The result of a vote: 0 any, 1 all, 2 count. -/
def voteResult (k : Fin 3) (m held : Mask) : Word :=
  match k.val with
  | 0 => boolWord (held != 0)
  | 1 => boolWord (held == m)
  | _ => BitVec.ofNat 64 (maskCount held)

/-- `lvote`: the result goes to every lane of the split. -/
def execLvote (k : Fin 3) (w : LaneWord) (s : State) : Host.Outcome State Fault Refusal :=
  .next (s.laneIssue (.lvote k w) w fun x t =>
    let r := voteResult k x.mask (heldLanes x.mask x.a.vals)
    (t.writeResult x.g w.dst false x.mask false (capOf w) x.op (List.replicate 96 r)
      { shape := .u, base := r.extractLsb' 0 32 }).laneNext x.g x.k)

/-- The check of a signature fails for a record of a group. -/
def Group.sigFails (v : Group) (k : Nat) (imm : W32) : Bool :=
  let x := v.split k
  bitsOf v.sig 47 32 != bitsOf v.sig 63 48 || x.merge || (x.bhv && x.bh != imm)

/-- `lsig`. -/
def execLsig (w : LaneWord) (s : State) : Host.Outcome State Fault Refusal :=
  .next (s.laneIssue (.lsig w) w fun x t =>
    let y := (s.group x.g).split x.k.val
    if (s.group x.g).sigFails x.k.val w.imm then s.raiseWith .silentDataError (w.imm ++ y.bh)
    else
      (t.modGroup x.g fun v =>
        let v := v.foldHash (if y.bhv then y.bh else 0)
        v.modSplit x.k.val fun z => { z with bh := bhStart, bhv := true }).laneNext x.g x.k)

/-! ### Spawn (R50, R51, R200, R331) -/

/-- ENTRY of a grid's launch record. -/
def Grid.entry (r : Grid) : Word := dwordAt r.lrec 8

/-- The bin that holds a key. -/
def State.binOf (s : State) (c : CoreRef) (grid : Nat) (entry : Word) : Option Nat :=
  lowest 16 fun n => let b := tabGet {} (s.core c).bins n; b.valid && b.entry == entry && b.grid == grid

/-- The lowest free bin. -/
def State.freeBin (s : State) (c : CoreRef) : Option Nat := lowest 16 fun n => !(tabGet {} (s.core c).bins n).valid

/-- Replaces a bin. -/
def State.setBin (s : State) (c : CoreRef) (n : Nat) (b : SpawnBin) : State :=
  s.modCore c fun k => { k with bins := tabSet k.bins n b }

/-- A payload goes into a bin of the core; `none` when its bin is full, or no bin is free. The timer starts at the first. -/
def State.deposit (s : State) (c : CoreRef) (grid : Nat) (entry : Word) (x : W32) : Option State :=
  match s.binOf c grid entry with
  | some n =>
    let b := tabGet {} (s.core c).bins n
    if b.payloads.length < 96 then
      some (s.setBin c n { b with payloads := b.payloads ++ [x], wait := b.wait || b.payloads.length == 95 })
    else none
  | none =>
    (s.freeBin c).map fun n =>
      s.setBin c n { valid := true, entry := entry, grid := grid, payloads := [x],
                     expiry := s.now + BitVec.ofNat 64 (bitsOf (s.coreReg c 0x120) 19 0) }

/-- Deposits payloads in lane order: the state, and the lanes left when one found no room. -/
def State.depositAll (s : State) (c : CoreRef) (grid : Nat) (entry : Nat → Word) (x : Nat → W32) : List Nat → State × List Nat
  | [] => (s, [])
  | l :: ls =>
    match s.deposit c grid (entry l) (x l) with
    | some t => t.depositAll c grid entry x ls
    | none => (s, l :: ls)

/-- The entry address that a lane of `spawn` names (R200). -/
def State.spawnEntry (s : State) (x : LaneIn) (l : Nat) : Word :=
  ((s.gridOf x.g).entry.extractLsb' 32 32 ++ (laneVal x.b.vals l).extractLsb' 0 32) &&& ~~~3#64

/-- The accesses of a group numbered below a bound have all been performed. -/
def Group.performedTo (v : Group) (first : Nat) : Bool := v.sc.memq.all fun o => decide (first ≤ o.id)

/-- `spawn`: it deposits what fits, and a resumed one deposits the lanes left. A deposit is a release at core scope (R308). -/
def execSpawn (w : LaneWord) (s : State) : Host.Outcome State Fault Refusal :=
  .next (s.laneWaiting (.spawn w) w (fun _ t => (t, .spawn 0 t.nextId)) fun x h t =>
    match h.kind with
    | .spawn done first =>
      if !(t.group x.g).performedTo first then t
      else
        let (u, left) := t.depositAll x.g.at (t.group x.g).grid (t.spawnEntry x) (fun l => (laneVal x.a.vals l).extractLsb' 0 32)
          (maskLanes (x.acted &&& ~~~done))
        if left.isEmpty then u.laneDone x h w []
        else u.modGroup x.g fun v => v.setHeld h { h with kind := .spawn (x.acted &&& ~~~(maskOf left.contains)) first }
    | _ => t)

end Sys2Proof.Machine
end

