-- ==== Sys2Proof/Machine/Queues.lean ====
section
/-! DEFINITION. Hardware queues (R320 to R322, R328): carving, binding, the scalar queue instructions, and release; and what a core has
free (R32, R159). -/

namespace Sys2Proof.Machine

/-! ### What a core has free (R32, R159, R320) -/

/-- The bytes of core scratchpad that a workgroup holds. -/
def Workgroup.spadNeed (w : Workgroup) : Nat := w.spadLen + w.groups * 96 * w.lpLen

/-- The storage of a hardware queue. -/
def HwQueue.bytes (q : HwQueue) : Nat :=
  if q.carved then (q.depth * (if q.wide then 384 else 8) + 31) / 32 * 32 else 0

/-- Core scratchpad that no placement and no queue holds. -/
def Core.spadFree (c : Core) : Nat :=
  0x80000 - ((c.wgs.map fun e => e.2.spadNeed).foldl (· + ·) 0 + (c.hq.map fun e => e.2.bytes).foldl (· + ·) 0)

/-- Vector registers that no group holds. An exited group's have gone back (R159). -/
def Core.regsFree (c : Core) : Nat :=
  1024 - ((c.groups.filter fun e => e.2.resident).map fun e => e.2.nreg).foldl (· + ·) 0

/-- A group slot of the core is free. -/
def Core.slotFree (c : Core) (n : Nat) : Bool := (tabGet {} c.groups n).st == .free

/-- The free group slots, lowest first. -/
def Core.slotsFree (c : Core) : List Nat := (List.range 32).filter c.slotFree

/-- A resident workgroup owns the matrix registers (R31). -/
def Core.matrixHeld (c : Core) : Bool := c.wgs.any fun e => e.2.matrix

/-- The tenant entry of a tenant on the core (R399): the one bound to it, or the lowest free one (R30). -/
def Core.entryFor (c : Core) (tenant : Word) : Option Nat :=
  match lowest 16 fun n => let d := tabGet {} c.deficits n; d.bound && d.tenant == tenant with
  | some n => some n
  | none => lowest 16 fun n => !(tabGet {} c.deficits n).bound

/-! ### qcfg and qmap (R321, R322) -/

/-- The result of a `qcfg` request: the state after it, and the value of s[d]. -/
def State.carve (s : State) (g : GroupRef) (x : Word) : State × Word :=
  let depth := bitsOf x 12 0
  let wide := bitAt x 16
  let new : HwQueue := { carved := true, owner := (s.group g).wg, nbh := (s.wgOf g).bind (·.nbh), wide := wide, depth := depth }
  let answer (st : Nat) : Word := BitVec.ofNat 64 (st * 256)
  if depth = 0 || 4096 < depth || bitsOf x 15 13 ≠ 0 || bitsOf x 63 17 ≠ 0 then (s, answer 0x82)
  else
    match lowest 16 fun n => !(tabGet {} (s.core g.at).hq n).carved with
    | none => (s, answer 0x80)
    | some n =>
      if (s.core g.at).spadFree < new.bytes then (s, answer 0x81)
      else (s.modCore g.at fun c => { c with hq := tabSet c.hq n new }, BitVec.ofNat 64 (0x100 + n))

/-- `qcfg`. -/
def execQcfg (d a : BitVec 6) (s : State) : Host.Outcome State Fault Refusal :=
  .next (s.issue { form2 d a with slots := .groupOnly, bad := scalarReserved (.qcfg d a) } fun s =>
    match s.cur with
    | .scalar g => let (t, v) := s.carve g (s.sreg a); t.result d v
    | _ => s)

/-- A hardware queue of a core is owned by the group's workgroup or by one of its neighbourhood. -/
def State.mayBind (s : State) (g : GroupRef) (q : HwQueue) : Bool :=
  q.carved && (q.owner == (s.group g).wg || (q.nbh.isSome && q.nbh == (s.wgOf g).bind (·.nbh)))

/-- The cores of a group's neighbourhood; 1 outside one. -/
def State.nbhSize (s : State) (g : GroupRef) : Nat :=
  match (s.wgOf g).bind (·.nbh) with
  | some n => let nb := tabGet { grid := 0, w := 1, h := 1, slice := g.slice, core0 := g.core.val } s.nbhs n; nb.w * nb.h
  | none => 1

/-- The result of a `qmap` request. -/
def State.bindQueue (s : State) (g : GroupRef) (x : Word) : State × Word :=
  let name := bitsOf x 3 0
  let hq := bitsOf x 7 4
  let k := bitsOf x 12 8
  if bitsOf x 63 14 ≠ 0 then (s, 0x82)
  else if bitAt x 13 then (s.modGroup g fun v => { v with binds := tabDel v.binds name }, 0x02)
  else if s.nbhSize g ≤ k then (s, 0x82)
  else if s.mayBind g (s.queue (s.kCore g k, hq)) then
    (s.modGroup g fun v => { v with binds := tabSet v.binds name { valid := true, hq := BitVec.ofNat 4 hq, k := BitVec.ofNat 5 k } }, 0x01)
  else (s, 0x83)

/-- `qmap`: it waits as `lsync` does. -/
def execQmap (d a : BitVec 6) (s : State) : Host.Outcome State Fault Refusal :=
  .next (s.issue { form2 d a with slots := .groupOnly, bad := scalarReserved (.qmap d a) } fun s =>
    s.afterLanes fun s =>
      match s.cur with
      | .scalar g => let (t, v) := s.bindQueue g (s.sreg a); t.result d v
      | _ => s)

/-! ### Scalar queue instructions (R328) -/

/-- Acts on the queue that a name is bound to; a name that the group has not bound is queue-misuse (R326). -/
def State.onQueue (s : State) (n : BitVec 4) (act : GroupRef → CoreRef × Nat → State → State) : State :=
  match s.cur with
  | .scalar g =>
    (match s.boundQueue g n.toNat with
     | some q => act g q s
     | none => s.raise .queueMisuse)
  | _ => s

/-- The form of a scalar queue instruction that writes a register. -/
def queueForm (i : Instr) (d : BitVec 6) : Form := { dest := some d, slots := .groupOnly, bad := scalarReserved i }

/-- `qlen`: the filled entries. -/
def execQlen (d : BitVec 6) (n : BitVec 4) (s : State) : Host.Outcome State Fault Refusal :=
  .next (s.issue (queueForm (.qlen d n) d) fun s =>
    s.onQueue n fun _ q s => s.result d (BitVec.ofNat 64 ((s.queue q).entries.filter (·.filled)).length))

/-- Bytes 0 to 7 of an entry. -/
def QEntry.head (e : QEntry) (wide : Bool) : Word := if wide then e.lanes.getD 1 0 ++ e.lanes.getD 0 0 else e.value

/-- `qpeek`: 0 when the queue is empty; it waits for a reserved head to fill. -/
def execQpeek (d : BitVec 6) (n : BitVec 4) (s : State) : Host.Outcome State Fault Refusal :=
  .next (s.issue (queueForm (.qpeek d n) d) fun s =>
    s.onQueue n fun _ q s =>
      match (s.queue q).entries with
      | [] => s.result d 0
      | e :: _ => if e.filled then s.result d (e.head (s.queue q).wide) else s.waitOn .stall)

/-- The stream waits at a queue, in the order in which it began to wait (R327). -/
def State.waitQueue (s : State) (g : GroupRef) (m : Word) : State :=
  (if (s.group g).sc.wait = .queue then s
   else (s.modSc (.scalar g) fun c => { c with waitNo := s.nextId }).takeId).waitFor .queue m

/-- The place in the order of waiting that a scalar stream has at its queue. -/
def State.scalarNo (s : State) (g : GroupRef) : Nat :=
  if (s.group g).sc.wait = .queue then (s.group g).sc.waitNo else s.nextId

/-- `qpeek.pop`: an empty queue is the queue blocking point. A reserved head that it pops it waits for. -/
def execQpeekPop (d : BitVec 6) (n : BitVec 4) (s : State) : Host.Outcome State Fault Refusal :=
  .next (s.issue (queueForm (.qpeekPop d n) d) fun s =>
    s.onQueue n fun g q s =>
      match (s.group g).sc.popped with
      | some e =>
        if e.filled then (s.modSc (.scalar g) fun c => { c with popped := none }).result d (e.head e.wide) else s.waitOn .stall
      | none =>
        match (s.queue q).entries with
        | [] => s.waitQueue g (n.setWidth 64)
        | e :: es =>
          if s.queueHeld g (s.scalarNo g) [n.toNat] none then s.waitQueue g (n.setWidth 64)
          else if e.filled then (s.setEntries q es).result d (e.head (s.queue q).wide)
          else ((s.setEntries q es).modSc (.scalar g) fun c => { c with popped := some e }).waitOn .stall)

/-- `qpeek.push`: a 384-byte queue is queue-misuse, and a full queue the queue blocking point. -/
def execQpeekPush (a : BitVec 6) (n : BitVec 4) (s : State) : Host.Outcome State Fault Refusal :=
  .next (s.issue { reads := [a], slots := .groupOnly, bad := scalarReserved (.qpeekPush a n) } fun s =>
    s.onQueue n fun g q s =>
      if (s.queue q).wide then s.raise .queueMisuse
      else if (s.queue q).entries.length < (s.queue q).depth && !s.queueHeld g (s.scalarNo g) [] (some n.toNat) then
        (s.setEntries q ((s.queue q).entries ++ [{ value := s.sreg a }])).advance
      else s.waitQueue g (n.setWidth 64 ||| 16))

/-- `qflush`: discards every filled entry. -/
def execQflush (d : BitVec 6) (n : BitVec 4) (s : State) : Host.Outcome State Fault Refusal :=
  .next (s.issue (queueForm (.qflush d n) d) fun s =>
    s.onQueue n fun _ q s =>
      let es := (s.queue q).entries
      (s.setEntries q (es.filter fun e => !e.filled)).result d (BitVec.ofNat 64 (es.filter (·.filled)).length))

/-! ### Release (R320) -/

/-- Releases the queues of a core that a test finds. -/
def State.releaseQueues (s : State) (c : CoreRef) (f : HwQueue → Bool) : State :=
  s.modCore c fun k => { k with hq := k.hq.filter fun e => !f e.2 }

end Sys2Proof.Machine
end

