-- ==== Sys2Proof/Machine/Regions.lean ====
section
/-! DEFINITION. Region control blocks (R27, R29, R375 to R378): reading one, its check, the walk to the root, effective values, and
`rcbld` (R174). -/

namespace Sys2Proof.Machine

/-! ### Fields (R375) -/

/-- LEVEL. -/
def rcbLevel (w : List W32) : Nat := bitsOf (wordAt w 0) 9 8
/-- FD. -/
def rcbFd (w : List W32) : Bool := bitAt (wordAt w 0) 10
/-- A bit of OVR: 11 weight, 12 priority, 13 HBM share, 14 occupancy limit, 15 ASID. -/
def rcbOvr (w : List W32) (bit : Nat) : Bool := bitAt (wordAt w 0) bit
/-- PARENT. -/
def rcbParent (w : List W32) : Word := dwordAt w 6

/-- The check of a block by itself (R377): `root` says whether it stands at LEVEL 0. -/
def State.rcbOk (s : State) (p : PartId) (a : Word) (w : List W32) : Bool :=
  let w0 := wordAt w 0
  let lev := rcbLevel w
  bitsOf w0 7 0 == 1 && bitsOf (wordAt w 63) 15 0 == (crcWords ((List.range 16).map (wordAt w))).toNat && bitsOf w0 31 16 == 0
    && bitsOf (wordAt w 1) 31 11 == 0 && (lev == 1 || bitsOf (wordAt w 4) 31 16 == 0) && wordAt w 5 == 0 && wordAt w 15 == 0
    && wordAt w 62 == 0 && bitsOf (wordAt w 63) 31 16 == 0 && a.toNat % 256 == 0
    && (!(lev == 0 || rcbFd w) || (a.toNat % 65536 == 0 && decide (a.toNat < 2 ^ 48)))
    && (lev != 0 || (rcbParent w == 0 && bitsOf w0 15 11 == 31)) && (!rcbOvr w 11 || decide (1 ≤ bitsOf (wordAt w 1) 7 0))
    && (lev != 1 || decide ((dwordAt w 8).toNat + (dwordAt w 10).toNat ≤ s.nseg p * 0x80000))

/-- What a walk from a block to the root comes to: the blocks with their addresses, nearest first, or what stops it. -/
inductive RcbWalk where
  | ok (nodes : List (Word × List W32))
  | bad
  | meets (m : EngMeet)
  deriving DecidableEq, Repr

/-- Walks from a block towards the root, `n` blocks at most. -/
def State.rcbWalkN (s : State) (e : EngId) (a : Word) : Nat → RcbWalk
  | 0 => .bad
  | n + 1 =>
    match s.meet e 1 a 256 with
    | .ok =>
      let w := s.engWords e 1 a 64
      if !s.rcbOk e.part a w then .bad
      else if rcbLevel w = 0 then .ok [(a, w)]
      else
        match s.rcbWalkN e (rcbParent w) n with
        | .ok ((b, x) :: rest) => if rcbLevel w = rcbLevel x + 1 then .ok ((a, w) :: (b, x) :: rest) else .bad
        | .ok [] => .bad
        | r => r
    | m => .meets m

/-- The walk of R174. -/
def State.rcbWalk (s : State) (e : EngId) (a : Word) : RcbWalk := s.rcbWalkN e a 4

/-- The effective value of an item along a walk (R27): that of the nearest block that overrides it. -/
def effective (nodes : List (Word × List W32)) (bit : Nat) (f : List W32 → Nat) : Nat :=
  match nodes.find? fun n => rcbOvr n.2 bit with
  | some n => f n.2
  | none => 0

/-- The effective weight. -/
def effWeight (ns : List (Word × List W32)) : Nat := effective ns 11 fun w => bitsOf (wordAt w 1) 7 0
/-- The effective priority. -/
def effPriority (ns : List (Word × List W32)) : Nat := effective ns 12 fun w => bitsOf (wordAt w 1) 10 8
/-- The effective HBM share. -/
def effShare (ns : List (Word × List W32)) : Nat := effective ns 13 fun w => (wordAt w 2).toNat
/-- The effective occupancy limit. -/
def effOcc (ns : List (Word × List W32)) : Nat := effective ns 14 fun w => (wordAt w 3).toNat
/-- The soft limit of the context that a walk belongs to (R402): the block that overrides the ASID, or the root. -/
def contextLimit (ns : List (Word × List W32)) : Nat :=
  let from' := ns.dropWhile fun n => !rcbOvr n.2 15
  min 24576 (effOcc (if from'.isEmpty then ns.drop (ns.length - 1) else from'))
/-- The effective ASID. -/
def effAsid (ns : List (Word × List W32)) : Nat := effective ns 15 fun w => bitsOf (wordAt w 4) 15 0

/-- The fault domains of a walk (R29), nearest first. -/
def walkDomains (ns : List (Word × List W32)) : List Word := (ns.filter fun n => rcbFd n.2 || rcbLevel n.2 == 0).map (·.1)

/-- The block at a level of a walk. -/
def atLevel (ns : List (Word × List W32)) (l : Nat) : Option (Word × List W32) := ns.find? fun n => rcbLevel n.2 == l

/-- The part of a walk from a level upward. -/
def fromLevel (ns : List (Word × List W32)) (l : Nat) : List (Word × List W32) := ns.filter fun n => rcbLevel n.2 ≤ l

/-- The fields of a block that must not change while a grid of its subtree runs (R378): LEVEL and FD, ASID and UID, PARENT, CSBASE, CSLIM, STOPA
and STOPN. -/
def rcbFixed (w : List W32) : List Nat :=
  [bitsOf (wordAt w 0) 10 8, (wordAt w 4).toNat] ++ ([6, 7, 8, 9, 10, 11, 12, 13, 14].map fun i => (wordAt w i).toNat)

/-- A region block of a grid's chain can be read and its fixed fields differ from those at the grid's start. -/
def State.chainBroken (s : State) (r : Grid) : Bool :=
  let e : EngId := { a := .none, part := r.part, asid := Config.rootAsid r.part }
  r.chain.any fun n => s.meet e 1 n.1 256 == .ok && rcbFixed (s.engWords e 1 n.1 64) != rcbFixed n.2

/-- A running grid whose region blocks have been changed against R378: its accesses go by an unpredictable ASID and an unpredictable part of the
chip scratchpad, inside its partition. -/
def State.checkChain (s : State) (n : Nat) : State :=
  let r := tabGet {} s.grids n
  if r.ended || r.rcbBroken || !s.chainBroken r then s
  else
    let u := s.draw
    { u with grids := tabSet u.grids n { r with rcbBroken := true, asid := s.freeWord.setWidth 16,
                                                csBase := bitsOf s.freeWord 47 16, csLim := bitsOf u.freeWord 31 0 } }

/-- The soft limits of the grids, read again from their region blocks where these can be reached (R378, R402). -/
def State.refreshLimits (s : State) : State :=
  { s with grids := s.grids.map fun e =>
      match s.rcbWalk (partEng e.2.part) e.2.grcb with
      | .ok ns => (e.1, { e.2 with occLim := contextLimit ns })
      | _ => e }

/-- What `rcbld` returns (R174): weight, priority, flag and domain, or share and limit. -/
def rcbValue (ns : List (Word × List W32)) (bw : Bool) : Word :=
  if bw then BitVec.ofNat 64 (effShare ns + effOcc ns * 2 ^ 32)
  else
    let fd := match ns with | (_, w) :: _ => rcbFd w | [] => false
    BitVec.ofNat 64 (effWeight ns + effPriority ns * 256 + (if fd then 2048 else 0) + bitsOf ((walkDomains ns).headD 0) 47 16 * 65536)

end Sys2Proof.Machine
end

