-- ==== Sys2Proof/Machine/Place.lean ====
section
/-! DEFINITION. Placement of workgroups (R30 to R37, R57, R231, R348, R399), spawn launches (R51, R52, R332), release (R32, R36, R320),
and the vector register pool (R159, R160). -/

namespace Sys2Proof.Machine

/-! ### Launch record fields (R379) -/

/-- MATRIX. -/
def lrMatrix (w : List W32) : Bool := bitAt (wordAt w 0) 8
/-- NB_W. -/
def lrNbW (w : List W32) : Nat := bitsOf (wordAt w 0) 11 9
/-- NB_H. -/
def lrNbH (w : List W32) : Nat := bitsOf (wordAt w 0) 14 12
/-- WG_GROUPS. -/
def lrGroups (w : List W32) : Nat := bitsOf (wordAt w 1) 4 0
/-- VALLOT. -/
def lrVallot (w : List W32) : Nat := bitsOf (wordAt w 1) 15 8
/-- SPAWN_VALLOT; 0 reads as 8. -/
def lrSpawnVallot (w : List W32) : Nat := if bitsOf (wordAt w 1) 23 16 = 0 then 8 else bitsOf (wordAt w 1) 23 16
/-- WG_COUNT. -/
def lrCount (w : List W32) : Nat := (wordAt w 2).toNat
/-- SPAD_BYTES. -/
def lrSpad (w : List W32) : Nat := (wordAt w 3).toNat
/-- LP_BYTES. -/
def lrLp (w : List W32) : Nat := bitsOf (wordAt w 4) 10 0
/-- SPAWN_SPAD. -/
def lrSpawnSpad (w : List W32) : Nat := (wordAt w 5).toNat

/-- Workgroups in one claim of the ticket (R348). -/
def Grid.perClaim (r : Grid) : Nat := max 1 (lrNbW r.lrec * lrNbH r.lrec)
/-- Every workgroup has been claimed. -/
def Grid.allClaimed (r : Grid) : Bool := decide (lrCount r.lrec ≤ r.claimed * r.perClaim)
/-- The slices whose agents place workgroups of the grid. -/
def Grid.slices (r : Grid) : List SliceId := if r.smask = 0 then [r.slice] else allSlices.filter fun i => bitAt r.smask i.val

/-! ### Room (R30, R32, R332) -/

/-- What a workgroup needs. -/
structure Need where
  groups : Nat
  vallot : Nat
  spad   : Nat
  lp     : Nat
  matrix : Bool

/-- An ordinary workgroup of a grid. -/
def Grid.need (r : Grid) : Need := ⟨lrGroups r.lrec, lrVallot r.lrec, lrSpad r.lrec, lrLp r.lrec, lrMatrix r.lrec⟩
/-- A spawned one. -/
def Grid.spawnNeed (r : Grid) : Need := ⟨1, lrSpawnVallot r.lrec, lrSpawnSpad r.lrec, 0, false⟩

/-- The core has all of it free at once. -/
def Core.roomFor (c : Core) (n : Need) (tenant : Word) : Bool :=
  decide (n.groups ≤ c.slotsFree.length) && decide (n.groups * n.vallot ≤ c.regsFree)
    && decide (n.spad + n.groups * 96 * n.lp ≤ c.spadFree) && !(n.matrix && c.matrixHeld) && (c.entryFor tenant).isSome

/-- The grid's domain, or one around it, is halted. -/
def State.gridHalted (s : State) (n : Nat) : Bool := let r := tabGet {} s.grids n; s.isHalted r.part r.domains

/-- A spawn bin of the core waits for room and may launch: it has first claim (R332). -/
def State.binWaits (s : State) (c : CoreRef) : Bool :=
  (s.core c).bins.any fun e => e.2.valid && e.2.wait && !s.gridHalted e.2.grid

/-- The reservation bit of a core (R172). -/
def State.reserved (s : State) (c : CoreRef) : Bool := bitAt (tabGet 0 (s.slice c.slice).occMap c.cluster) c.inCluster

/-- The agent of a core finds room for an ordinary workgroup. -/
def State.agentRoom (s : State) (c : CoreRef) (n : Need) (tenant : Word) : Bool := (s.core c).roomFor n tenant && !s.binWaits c

/-! ### Starting groups (R37, R52, R231, R399) -/

/-- FPC at start: the rounding mode with 0 and 7 stored as 1, and the LFSR (R37, R142). -/
def startFpc (w : List W32) (s1 s2 : Nat) : Word :=
  let m := bitsOf (wordAt w 6) 2 0
  let l := (wordAt w 7) ^^^ BitVec.ofNat 32 (s1 * 16 + s2)
  let l := if l = 0 then 1 else l
  BitVec.ofNat 64 ((if m = 0 || m = 7 then 1 else m) + l.toNat * 2 ^ 32)

/-- The tenant of a grid takes or reloads its entry: WEIGHT as `rcbld` resolves it now, and on binding DEF = WEIGHT (R399). -/
def State.bindTenant (s : State) (c : CoreRef) (r : Grid) : State :=
  let e : EngId := { a := .puppet c, part := r.part, asid := Config.rootAsid r.part }
  let w := match s.rcbWalk e r.tenant with | .ok ns => effWeight ns | _ => r.weight
  match (s.core c).entryFor r.tenant with
  | none => s
  | some n =>
    s.modCore c fun k =>
      let d := tabGet {} k.deficits n
      let d : Deficit := if d.bound then { d with weight := w } else { bound := true, tenant := r.tenant, weight := w, deficit := w }
      { k with deficits := tabSet k.deficits n d }

/-- The tenant index of a grid on a core. -/
def State.tenIndex (s : State) (c : CoreRef) (r : Grid) : BitVec 4 := BitVec.ofNat 4 (((s.core c).entryFor r.tenant).getD 0)

/-- Scalar registers at start. -/
def startRegs (s1 s2 : Nat) (args s4 : Word) : Tab Word :=
  [(1, BitVec.ofNat 64 s1), (2, BitVec.ofNat 64 s2), (3, args), (4, s4), (60, 0xFFFFFFFF), (61, 0xFFFFFFFF), (62, 0xFFFFFFFF)]

/-- `s4` at start. -/
def startS4 (c : CoreRef) (k w h : Nat) : Word :=
  BitVec.ofNat 64 (k + w * 2 ^ 8 + h * 2 ^ 16 + c.cluster * 2 ^ 24 + c.slice.val * 2 ^ 32)

/-- A group of an ordinary workgroup at its start. -/
def State.newGroup (s : State) (c : CoreRef) (gridNo wgNo idx gix : Nat) (nbh : Bool) (k : Nat) : Group :=
  let r := tabGet {} s.grids gridNo
  { st := .ready, part := r.part, grid := gridNo, wg := wgNo, gix := gix,
    sc := { s := startRegs idx gix (dwordAt r.lrec 10) (startS4 c k (if nbh then lrNbW r.lrec else 1) (if nbh then lrNbH r.lrec else 1)),
            spc := r.entry },
    fpc := startFpc r.lrec idx gix, nreg := lrVallot r.lrec, nbh := nbh, ten := s.tenIndex c r, prio := r.prio, readyAt := s.now, stamp := s.now }

/-- Puts groups into the lowest free slots of a core. -/
def Core.seat (c : Core) : List Group → Core
  | [] => c
  | v :: vs =>
    match c.slotsFree with
    | n :: _ => ({ c with groups := tabSet c.groups n v } : Core).seat vs
    | [] => c

/-- The matrix state of a core as a placement with MATRIX leaves it (R231). -/
def Core.resetMatrix (c : Core) : Core := { c with tiles := [], accs := [], scale := [], mlog := [] }

/-- A grid starts in a cluster: its instruction cache discards every line of the grid's ASID (R66). -/
def State.enterCluster (s : State) (c : CoreRef) (gridNo : Nat) : State :=
  let r := tabGet {} s.grids gridNo
  let k := c.slice.val * 6 + c.cluster
  if r.clusters.contains k then s
  else (s.dropCode c.slice c.cluster r.asid).modGrid gridNo fun r => { r with clusters := k :: r.clusters }

/-- Places an ordinary workgroup on a core that has room. -/
def State.placeWg (s : State) (c : CoreRef) (gridNo idx : Nat) (nbh : Option Nat) (k : Nat) : State :=
  let r := tabGet {} s.grids gridNo
  let n := r.need
  let s := (s.bindTenant c r).enterCluster c gridNo
  let wgNo := s.nextId
  let wg : Workgroup := { grid := gridNo, idx := BitVec.ofNat 32 idx, groups := n.groups, spadLen := n.spad, lpLen := n.lp,
                          matrix := n.matrix, nbh := nbh, k := k }
  let gs := (List.range n.groups).map fun i => s.newGroup c gridNo wgNo idx i nbh.isSome k
  let s := s.takeId.modCore c fun x =>
    let x := if n.matrix then x.resetMatrix else x
    { x.seat gs with wgs := tabSet x.wgs wgNo wg }
  s.modGrid gridNo fun r => { r with live := r.live + 1 }

/-! ### The events of placement -/

/-- The agent of a core may place workgroups of a grid. -/
def State.gridOpen (s : State) (c : CoreRef) (gridNo : Nat) : Bool :=
  match tabFind s.grids gridNo with
  | some r => !r.ended && !r.allClaimed && r.slices.contains c.slice && s.member r.part c.slice && s.leaving r.part != some c.slice && !s.gridHalted gridNo
  | none => false

/-- The cores of a rectangle of a cluster, by its top-left index. -/
def rectCores (p w h : Nat) : List Nat := (List.range (w * h)).map fun k => p + k / w * 6 + k % w

/-- The first rectangle of cores in a mask that the map has clear (R172). -/
def findRect (map room : BitVec 24) (w h : Nat) : Option Nat :=
  if 1 ≤ w && w ≤ 6 && 1 ≤ h && h ≤ 4 then
    lowest 24 fun p =>
      decide (p % 6 + w ≤ 6) && decide (p / 6 + h ≤ 4) && (rectCores p w h).all fun i => bitAt room i && !bitAt map i
  else none

/-- Sets or clears the reservation bits of a rectangle. -/
def State.setRect (s : State) (i : SliceId) (cl p w h : Nat) (b : Bool) : State :=
  s.modSlice i fun k =>
    { k with occMap := tabSet k.occMap cl ((rectCores p w h).foldl (fun m j => if j < 24 then putBit m j b else m) (tabGet 0 k.occMap cl)) }

/-- The core of a cluster with an index. -/
def clusterCore (i : SliceId) (cl j : Nat) : CoreRef := ⟨i, idx 144 (cl * 24 + j)⟩

/-- The reserved cores of a neighbourhood that still wait: a core with room starts its workgroup, and its reservation ends (R348). -/
def State.startNbh (s : State) (c : CoreRef) (n : Nat) : State :=
  match tabFind s.nbhs n with
  | none => s
  | some nb =>
    let r := tabGet {} s.grids nb.grid
    match nb.waitingK.find? fun k => nb.coreAt k == c with
    | none => s
    | some k =>
      if s.agentRoom c r.need r.tenant && !s.gridHalted nb.grid then
        let s := { s with nbhs := tabSet s.nbhs n { nb with waitingK := nb.waitingK.filter (· != k), alive := nb.alive + 1 } }
        (s.placeWg c nb.grid (nb.first + k) (some n) k).setRect c.slice c.cluster c.inCluster 1 1 false
      else s

/-- The workgroup ticket of a grid (R348). -/
def State.ticketOf (s : State) (r : Grid) : Nat := bytesToNat (s.chipRead (.chip r.part r.ticket) 8)

/-- A claim of the ticket of a grid: it rises by 1. -/
def State.claimTicket (s : State) (n : Nat) : State :=
  let r := tabGet {} s.grids n
  (s.chipWrite (.chip r.part r.ticket) (natToBytes (s.ticketOf r + 1) 8)).modGrid n fun r => { r with claimed := r.claimed + 1 }

/-- A workgroup is placed by the agent of a core: an ordinary one on its own core; for a neighbourhood, the agent reserves a rectangle of
its cluster, sends the start events, and starts its own core's part (R32, R35, R57, R348). -/
def execWorkgroupPlace (c : CoreRef) (grid : Word) (s : State) : Host.Outcome State Fault Refusal :=
  .next (
    let n := grid.toNat
    let r := tabGet {} s.grids n
    let t := s.ticketOf r
    if !s.gridOpen c n || !(s.core c).puppet.running || lrCount r.lrec ≤ t * r.perClaim then s
    else if r.perClaim = 1 then
      if s.agentRoom c r.need r.tenant && !s.reserved c then
        (s.claimTicket n).placeWg c n t none 0
      else s
    else
      let w := lrNbW r.lrec
      let h := lrNbH r.lrec
      let room : BitVec 24 := (List.range 24).foldl (fun m j =>
        if s.agentRoom (clusterCore c.slice c.cluster j) r.need r.tenant then putBit m j true else m) 0
      match findRect (tabGet 0 (s.slice c.slice).occMap c.cluster) room w h with
      | none => s
      | some p =>
        let s := (s.setRect c.slice c.cluster p w h true).claimTicket n
        let id := s.nextId
        let nb : Nbh := { grid := n, w := w, h := h, slice := c.slice, core0 := c.cluster * 24 + p, waitingK := List.range (w * h),
                          first := t * (w * h) }
        let s := { s.takeId with nbhs := tabSet s.nbhs id nb }
        let s := (rectCores p w h).foldl (fun s j => s.fwEvent (clusterCore c.slice c.cluster j) 0x02 (bitsOf r.grcb 55 8)) s
        s.startNbh c id)

/-- A reserved core starts its workgroup when it has room (R348). -/
def execNbhCoreStartOnRoom (c : CoreRef) (s : State) : Host.Outcome State Fault Refusal :=
  .next (match s.nbhs.find? fun e => e.2.waitingK.any fun k => e.2.coreAt k == c with
    | some e => s.startNbh c e.1
    | none => s)

/-! ### Spawn launches (R51, R52, R332) -/

/-- A spawned group at its start. -/
def State.spawnedGroup (s : State) (c : CoreRef) (b : SpawnBin) (bin wgNo : Nat) : Group :=
  let r := tabGet {} s.grids b.grid
  let n := b.payloads.length
  let mk (i : Nat) : Word := BitVec.ofNat 64 (2 ^ min 32 (n - 32 * i) - 1)
  { st := .ready, part := r.part, grid := b.grid, wg := wgNo, gix := 0,
    sc := { s := ((startRegs n bin (dwordAt r.lrec 10) (startS4 c 0 1 1)).take 4) ++ [(60, mk 0), (61, mk 1), (62, mk 2)], spc := b.entry },
    fpc := startFpc r.lrec n bin, nreg := lrSpawnVallot r.lrec, ten := s.tenIndex c r, prio := r.prio, readyAt := s.now, stamp := s.now,
    v := [(0, { shape := .g, data := b.payloads ++ List.replicate (96 - n) 0 })] }

/-- A bin that is ready launches a group and is freed, or waits for room. -/
def State.launchBin (s : State) (c : CoreRef) (bin : Nat) : State :=
  let b := tabGet {} (s.core c).bins bin
  let r := tabGet {} s.grids b.grid
  let n := r.spawnNeed
  let first := !((List.range bin).any fun j => let x := tabGet {} (s.core c).bins j; x.valid && x.wait && !s.gridHalted x.grid)
  if (s.core c).roomFor n r.tenant && first then
    let s := s.bindTenant c r
    let wgNo := s.nextId
    let wg : Workgroup := { grid := b.grid, idx := 0xFFFFFFFF, groups := 1, spadLen := n.spad, lpLen := 0, matrix := false,
                            spawned := true }
    let v := s.spawnedGroup c b bin wgNo
    let s := s.takeId.modCore c fun x =>
      { x.seat [v] with wgs := tabSet x.wgs wgNo wg, bins := tabDel x.bins bin }
    s.modGrid b.grid fun r => { r with live := r.live + 1 }
  else s.setBin c bin { b with wait := true }

/-- The ptick in which the timer of a bin expires with payloads held is over (R51). A halted domain's bin holds (R422). -/
def execSpawnTimerExpiry (c : CoreRef) (bin : Fin 16) (s : State) : Host.Outcome State Fault Refusal :=
  .next (
    let b := tabGet {} (s.core c).bins bin.val
    if b.valid && decide (b.expiry < s.now) && !s.gridHalted b.grid then s.launchBin c bin.val else s)

/-- A bin that waits launches when there is room. -/
def execSpawnLaunch (c : CoreRef) (bin : Fin 16) (s : State) : Host.Outcome State Fault Refusal :=
  .next (
    let b := tabGet {} (s.core c).bins bin.val
    if b.valid && (b.wait || b.payloads.length = 96) && !s.gridHalted b.grid then s.launchBin c bin.val else s)

/-! ### Release (R32, R36, R320, R399) -/

/-- Entries of tenants with no group on the core are freed and zeroed (R399). -/
def State.freeEntries (s : State) (c : CoreRef) : State :=
  s.modCore c fun k =>
    { k with deficits := k.deficits.filter fun e => !e.2.bound || k.groups.any fun g => g.2.st != .free && g.2.ten.toNat == e.1 }

/-- The slots of a workgroup are freed, with everything reserved at its placement. -/
def State.freeWg (s : State) (c : CoreRef) (n : Nat) : State :=
  (s.modCore c fun k =>
    let k := if ((tabFind k.wgs n).map (·.matrix)).getD false then k.resetMatrix else k
    { k with groups := tabMap (fun _ v => if v.wg = n then { stamp := s.now } else v) k.groups, wgs := tabDel k.wgs n }).freeEntries c

/-- A workgroup of a neighbourhood is gone: after the last one its queues are released (R320). -/
def State.leaveNbh (s : State) (n : Nat) : State :=
  match tabFind s.nbhs n with
  | none => s
  | some nb =>
    if 1 < nb.alive || !nb.waitingK.isEmpty then { s with nbhs := tabSet s.nbhs n { nb with alive := nb.alive - 1 } }
    else
      let s := { s with nbhs := tabDel s.nbhs n }
      (List.range (nb.w * nb.h)).foldl (fun s k => s.releaseQueues (nb.coreAt k) fun q => q.nbh == some n) s

/-- The last group of a workgroup has exited (R32, R320). -/
def State.releaseWg (s : State) (c : CoreRef) (n : Nat) : State :=
  match tabFind (s.core c).wgs n with
  | none => s
  | some w =>
    let s := (s.freeWg c n).modGrid w.grid fun r => { r with live := r.live - 1, exited := r.exited + 1 }
    match w.nbh with
    | some m => s.leaveNbh m
    | none => s.releaseQueues c fun q => q.owner == n && q.nbh.isNone

/-! ### The register pool (R159, R160) -/

/-- A target that is a multiple of 8 in 8 to 128. -/
def allotOk (n : Word) : Bool := n.toNat % 8 == 0 && decide (8 ≤ n.toNat) && decide (n.toNat ≤ 128)

/-- Registers NREG to n − 1 are granted. -/
def State.grantRegs (s : State) (g : GroupRef) (n : Nat) : State :=
  s.modGroup g fun v =>
    { v with v := v.v.filter fun e => decide (e.1 < v.nreg), nreg := n, want := 0,
             cleanV := v.cleanV &&& BitVec.ofNat 128 (2 ^ v.nreg - 1) }

/-- Another group of the core asked before, and waits. -/
def State.askedBefore (s : State) (g : GroupRef) : Bool :=
  (s.slotsOf g.at).any fun h => h != g && (s.group h).want != 0 &&
    (decide ((s.group h).wantSince < (s.group g).wantSince) || ((s.group h).wantSince == (s.group g).wantSince && decide (h.slot < g.slot)))

/-- `vgrow` and `vgrow.w`. A request that waits is granted or given up by the events below. -/
def State.grow (s : State) (g : GroupRef) (d : BitVec 6) (n : Word) (wait : Bool) : State :=
  let v := s.group g
  let nreg : Word := BitVec.ofNat 64 v.nreg
  if !allotOk n then s.result d 0
  else if n ≤ nreg then s.result d nreg
  else if n.toNat - v.nreg ≤ (s.core g.at).regsFree then
    (s.grantRegs g n.toNat).result d n
  else if wait then
    (s.modGroup g fun v => { v with want := n.toNat, wantSince := if v.want = 0 then s.now else v.wantSince }).waitFor .grow (d.setWidth 64)
  else s.result d nreg

/-- `vgrow`. -/
def execVgrow (d a : BitVec 6) (s : State) : Host.Outcome State Fault Refusal :=
  .next (s.issue { form2 d a with slots := .groupOnly, bad := scalarReserved (.vgrow d a) } fun s =>
    match s.cur with | .scalar g => s.grow g d (s.sreg a) false | _ => s)

/-- `vgrow.w`. -/
def execVgrowW (d a : BitVec 6) (s : State) : Host.Outcome State Fault Refusal :=
  .next (s.issue { form2 d a with slots := .groupOnly, bad := scalarReserved (.vgrowW d a) } fun s =>
    match s.cur with
    | .scalar g => if (s.group g).sc.wait = .grow then s else s.grow g d (s.sreg a) true
    | _ => s)

/-- A waiting `vgrow.w` completes with a value. -/
def State.endGrow (s : State) (g : GroupRef) (v : Nat) : State :=
  let d : BitVec 6 := (s.group g).sc.waitMask.extractLsb' 0 6
  (s.modGroup g fun x => { x with want := 0 }).modSc (.scalar g) fun c =>
    { c.write d (BitVec.ofNat 64 v) with spc := c.spc + 4, wait := .none }

/-- A waiting request whose whole fits is granted, in the order of request. -/
def execVgrowGrant (g : GroupRef) (s : State) : Host.Outcome State Fault Refusal :=
  .next (
    let v := s.group g
    if v.want ≠ 0 && v.sc.wait == .grow && decide (v.want - v.nreg ≤ (s.core g.at).regsFree) && !s.askedBefore g
        && !s.passed v.wantSince (s.cclkTicks g.slice 4096) then
      (s.grantRegs g v.want).endGrow g v.want
    else s)

/-- A request still waiting after 4,096 cclk completes with no change. -/
def execVgrowTimeout (g : GroupRef) (s : State) : Host.Outcome State Fault Refusal :=
  .next (
    let v := s.group g
    if v.want ≠ 0 && v.sc.wait == .grow && s.passed v.wantSince (s.cclkTicks g.slice 4096) then s.endGrow g v.nreg else s)

/-- `vshrink`: it waits as `lsync` does. -/
def execVshrink (d a : BitVec 6) (s : State) : Host.Outcome State Fault Refusal :=
  .next (s.issue { form2 d a with slots := .groupOnly, bad := scalarReserved (.vshrink d a) } fun s =>
    s.afterLanes fun s =>
      match s.cur with
      | .scalar g =>
        let n := s.sreg a
        let nreg : Word := BitVec.ofNat 64 (s.group g).nreg
        if !allotOk n then s.result d 0
        else if nreg ≤ n then s.result d nreg
        else
          (s.modGroup g fun v => { v with nreg := n.toNat, v := v.v.filter fun e => decide (e.1 < n.toNat) }).result d n
      | _ => s)

end Sys2Proof.Machine
end

