-- ==== Sys2Proof/Machine/Groups.lean ====
section
/-! DEFINITION. Barriers (R161, R162), `trigger`, `exit` and `yield` (R49, R53, R163), the trigger point and the end of a grid (R54, R55),
and `pref` (R164). -/

namespace Sys2Proof.Machine

/-! ### Grids (R53 to R55) -/

/-- A spawn bin holds a payload of the grid. -/
def State.binsHold (s : State) (n : Nat) : Bool :=
  s.allCores.any fun c => (s.core c).bins.any fun e => e.2.valid && e.2.grid == n && !e.2.payloads.isEmpty

/-- A reserved core of the grid has still to start its workgroup. -/
def State.startsWait (s : State) (n : Nat) : Bool := s.nbhs.any fun e => e.2.grid == n && !e.2.waitingK.isEmpty

/-- Every existing workgroup of the grid has triggered or exited. -/
def State.allTriggered (s : State) (n : Nat) : Bool :=
  (s.allGroups.all fun g => let v := s.group g; v.grid != n || !v.resident || v.trig)
    && s.saved.all fun a => a.grid != n || a.dead || !a.untriggered

/-- The started LAUNCH of a grid has completed; one that has expired before never updates its signal (R354). -/
def State.completeLaunch (s : State) (n : Nat) : State :=
  { s with started := s.started.map fun x => if x.grid = some n && !x.expired then { x with due := true } else x }

/-- Looks whether a grid has reached its trigger point or its end. -/
def State.gridCheck (s : State) (n : Nat) : State :=
  let r := tabGet {} s.grids n
  if r.ended || !r.allClaimed || s.startsWait n || s.binsHold n then s
  else
    let s :=
      if !r.trigReached && s.allTriggered n then
        let t := s.modGrid n fun r => { r with trigReached := true }
        if r.early then t.completeLaunch n else t
      else s
    if r.live = 0 then
      let t := s.modGrid n fun r => { r with ended := true }
      if r.early then t else t.completeLaunch n
    else s

/-! ### Barriers (R161, R162) -/

/-- The barrier that a group names: of its neighbourhood, or of its workgroup. -/
def State.barrier (s : State) (g : GroupRef) (nb : Bool) (id : Nat) : Barrier :=
  match nb, (s.wgOf g).bind (·.nbh) with
  | true, some n => tabGet {} ((tabFind s.nbhs n).map (·.bars)).toList.flatten id
  | _, _ => tabGet {} ((s.wgOf g).map (·.bars)).toList.flatten id

/-- Replaces it. -/
def State.setBarrier (s : State) (g : GroupRef) (nb : Bool) (id : Nat) (b : Barrier) : State :=
  match nb, (s.wgOf g).bind (·.nbh) with
  | true, some n =>
    (match tabFind s.nbhs n with
     | some x => { s with nbhs := tabSet s.nbhs n { x with bars := tabSet x.bars id b } }
     | none => s)
  | _, _ => s.modWg g.at (s.group g).wg fun w => { w with bars := tabSet w.bars id b }

/-- The resident groups that a barrier counts. -/
def State.barrierGroups (s : State) (g : GroupRef) (nb : Bool) : List GroupRef :=
  match nb, (s.wgOf g).bind (·.nbh) with
  | true, some n => s.allGroups.filter fun h => (s.group h).resident && ((s.wgOf h).bind (·.nbh)) == some n
  | _, _ => (s.slotsOf g.at).filter fun h => (s.group h).resident && (s.group h).wg == (s.group g).wg

/-- A core of the neighbourhood has still to start its workgroup. -/
def State.nbhWaits (s : State) (g : GroupRef) : Bool :=
  match (s.wgOf g).bind (·.nbh) with
  | some n => ((tabFind s.nbhs n).map fun x => !x.waitingK.isEmpty).getD false
  | none => false

/-- The generation is complete. -/
def State.barrierDone (s : State) (g : GroupRef) (nb : Bool) (b : Barrier) : Bool :=
  !b.arrived.isEmpty &&
    (if b.count = 0 then (s.barrierGroups g nb).all b.arrived.contains && !(nb && s.nbhWaits g) else decide (b.count ≤ b.arrived.length))

/-- A waiter of a completed generation goes on past its `bar`. -/
def State.passBarrier (s : State) (g : GroupRef) : State :=
  s.modGroup g fun v =>
    { v with arrived := none, sc := { v.sc with spc := v.sc.spc + 4, wait := .none, remote := false } }

/-- Completes a generation when it is complete: every waiter wakes, and the next arrival opens a new one. -/
def State.tryBarrier (s : State) (g : GroupRef) (nb : Bool) (id : Nat) : State :=
  let b := s.barrier g nb id
  if s.barrierDone g nb b then
    b.arrived.foldl State.passBarrier (s.setBarrier g nb id { count := 0, arrived := [], gen := b.gen + 1 })
  else s

/-- A group arrives at a barrier, once, and waits. -/
def State.arrive (s : State) (g : GroupRef) (nb : Bool) (id c : Nat) : State :=
  if (s.group g).arrived.isSome then s.waitOn .barrier
  else
    let b := s.barrier g nb id
    let b := { b with count := if b.arrived.isEmpty then c else b.count, arrived := b.arrived ++ [g] }
    ((((s.setBarrier g nb id b).modGroup g fun v => { v with arrived := some (id, nb, b.gen) }).waitOn .barrier).tryBarrier g nb id)

/-- Waits as `lsync`, then as a release at a scope, then acts (R306, R308). -/
def State.afterRelease (s : State) (scope : BitVec 3) (act : State → State) : State :=
  s.afterLanes fun s => if s.fenceDone 1#2 scope then act s else s.waitOn .stall

/-- `bar` and `bar.nb`; outside a neighbourhood NB acts as 0. -/
def State.doBar (s : State) (i : Instr) (a : BitVec 6) (nb : Bool) (id : BitVec 4) : State :=
  s.issue { reads := [a], slots := .groupOnly, bad := scalarReserved i } fun s =>
    match s.cur with
    | .scalar g =>
      let nb := nb && (s.group g).nbh
      if (s.group g).arrived.isSome then s.waitOn .barrier
      else s.afterRelease (if nb then 3 else 2) fun s => s.arrive g nb id.toNat (bitsOf (s.sreg a) 15 0)
    | _ => s

/-- `bar`. -/
def execBar (a : BitVec 6) (id : BitVec 4) (s : State) : Host.Outcome State Fault Refusal := .next (s.doBar (.bar a id) a false id)
/-- `bar.nb`. -/
def execBarNb (a : BitVec 6) (id : BitVec 4) (s : State) : Host.Outcome State Fault Refusal := .next (s.doBar (.barNb a id) a true id)

/-! ### trigger, exit, yield (R49, R53, R163) -/

/-- `trigger`: a release at partition scope, and TRIG. -/
def execTrigger (s : State) : Host.Outcome State Fault Refusal :=
  .next (s.issue { slots := .groupOnly } fun s =>
    match s.cur with
    | .scalar g => s.afterRelease 5 fun s => ((s.modGroup g fun v => { v with trig := true }).advance).gridCheck (s.group g).grid
    | _ => s)

/-- `exit`: its posts are removed, and the group waits until the exit completes. -/
def execExit (s : State) : Host.Outcome State Fault Refusal :=
  .next (s.issue { slots := .groupOnly } fun s =>
    match s.cur with
    | .scalar g => ((s.dropPosts g).modGroup g fun v => { v with exiting := true }).waitOn .stall
    | _ => s)

/-- Everything that `exit` waits for has happened (R49). -/
def State.exitReady (s : State) (g : GroupRef) : Bool :=
  let v := s.group g
  v.exiting && (v.st == .active || v.st == .blocked) && v.laneIdle && s.asyncCount g == 0 && v.sc.memq.isEmpty
    && v.sc.completeAt s.now 5 v.nbh && coverOver v.sc.cover s.now 5 v.nbh && decide (v.sc.engWct.toNat + 3 ≤ s.now.toNat)

/-- A group has exited: its pair ends, the barriers that count it may complete, and the last of its workgroup releases everything. -/
def State.finishExit (s : State) (g : GroupRef) : State :=
  let v := s.group g
  let s := (s.endPair g).modGroup g fun v =>
    { v with st := .exited, stamp := s.now, exiting := false, want := 0, sc := { v.sc with wait := .none } }
  let s := (List.range 16).foldl (fun s id => (s.tryBarrier g false id).tryBarrier g true id) s
  let s :=
    if (s.slotsOf g.at).all fun h => (s.group h).wg != v.wg || !(s.group h).resident then s.releaseWg g.at v.wg else s
  s.gridCheck v.grid

/-- An exit completes. -/
def execExitComplete (g : GroupRef) (s : State) : Host.Outcome State Fault Refusal :=
  .next (if s.exitReady g then s.finishExit g else s)

/-- `yield`: for its tenant's next choice the group is the youngest of its priority. -/
def execYield (s : State) : Host.Outcome State Fault Refusal :=
  .next (s.issue { slots := .groupOnly } fun s =>
    match s.cur with
    | .scalar g => s.advance.modGroup g fun v => { v with young := true }
    | _ => s)

/-! ### pref (R164) -/

/-- Code enters the cluster instruction cache: the 256 aligned bytes that hold the address. A prefetch of which some line is dropped counts once
(R414). -/
def State.prefCode (s : State) (a : Agent) (va : Word) : State :=
  let base := va.toNat / 256 * 256
  let (s, dropped) := (List.range 4).foldl (fun ((s, d) : State × Bool) i =>
    match s.codeRead a (BitVec.ofNat 64 (base + 64 * i)) with
    | .line ws =>
      (match s.codeUse a (BitVec.ofNat 64 (base + 64 * i)) with
       | (t, none) => (t.putCode (agentCore a).slice (agentCore a).cluster ws, d)
       | (t, some _) => (t, true))
    | _ => (s, true)) (s, false)
  if dropped then s.countFor a 0x10 else s

/-- Data enters the L1 or the L2: `l1` asks for the L1, which a host-coherent page does not enter. A line that the
L1 holds keeps its lease. A dropped prefetch is counted (R414). -/
def State.prefData (s : State) (a : Agent) (va : Word) (l1 : Bool) : State :=
  let x := alignTo 64 va
  match s.placeOf a (s.agentAsid a) none x with
  | .global asid y =>
    let p := s.agentPart a
    (match s.reach p asid y 1 with
     | .ok pa hc =>
       (match targetOf pa with
        | .hbm t =>
          let (i, seg) := s.home p (y.toNat / 64)
          (match s.readLine i t pa 64 with
           | (s, some _) => s.countFor a 0x10
           | (s, none) =>
             let key := lineKey asid (y.toNat / 64)
             let (seg, name) := s.nameAt i (pa / 64) seg key
             let s := s.holdLine i seg (pa / 64) key hc p a
             if l1 && (s.l1Line (agentCore a) asid (y.toNat / 64)).isNone then s.fillL1 a p asid y.toNat pa hc .load i key name else s)
        | _ => s)
     | _ => s.countFor a 0x10)
  | _ => s

/-- `pref`: it never faults and never parks. -/
def execPref (a : BitVec 6) (kind : BitVec 2) (off : BitVec 12) (s : State) : Host.Outcome State Fault Refusal :=
  .next (s.issue { reads := [a], bad := scalarReserved (.pref a kind off) } fun s =>
    let va := s.sreg a + (off.signExtend 64 <<< 6)
    (match kind.toNat with
     | 2 => s.prefData s.cur va true
     | 3 => s.prefData s.cur va false
     | _ => s.prefCode s.cur va).advance)

end Sys2Proof.Machine
end

