-- ==== Sys2Proof/Machine/Commands.lean ====
section
/-! DEFINITION. Command queues (R333 to R341, R346, R349 to R351): queue control blocks, kicks, mapping and ageing, queue stops, handler
packets and completion signals. Operating-point requests (R18, R170) stand here too. -/

namespace Sys2Proof.Machine

/-! ### Operating points (R18) -/

/-- A request of a point reaches a slice. While a change is in progress it waits, and the latest wins. Whether the PRC finds the draw low
enough is not given: a free value decides. -/
def State.requestPoint (s : State) (i : SliceId) (p : BitVec 3) : State :=
  let w := s.sliceReg i 0x400
  if bitAt w 6 then s.modSlice i fun k => { k with opNext := some p }
  else
    let ok := bitAt s.freeWord 0
    let s := s.draw
    if ok && bitsOf w 2 0 ≠ p.toNat then
      (s.setSliceReg i 0x400 (putBit (setBits w 5 3 p.toNat) 6 true)).modSlice i fun k => { k with opSince := s.now }
    else s

/-- Requests a point on several slices. -/
def State.requestPoints (s : State) (is : List SliceId) (p : BitVec 3) : State := is.foldl (fun s i => s.requestPoint i p) s

/-! ### Queue control blocks (R335) -/

/-- STOPPED. -/
def qcStopped (w : List W32) : Bool := bitAt (wordAt w 0) 8
/-- QIDX. -/
def qcIdx (w : List W32) : QIdx := idx 4096 (bitsOf (wordAt w 1) 11 0)
/-- The number of packets of the ring. -/
def qcSize (w : List W32) : Nat := 2 ^ bitsOf (wordAt w 1) 20 16
/-- RING. -/
def qcRing (w : List W32) : Word := dwordAt w 2
/-- WRIDX. -/
def qcWr (w : List W32) : Word := dwordAt w 4
/-- RDIDX. -/
def qcRd (w : List W32) : Word := dwordAt w 6
/-- QRCB. -/
def qcRcb (w : List W32) : Word := dwordAt w 8
/-- HBASE. -/
def qcHbase (w : List W32) : Word := dwordAt w 10
/-- The number of packets of the handler ring. -/
def qcHsize (w : List W32) : Nat := 2 ^ bitsOf (wordAt w 12) 4 0
/-- HWR. -/
def qcHwr (w : List W32) : Word := dwordAt w 14
/-- AGE. -/
def qcAge (w : List W32) : Nat := bitsOf (wordAt w 28) 7 0

/-- A block with its QCRC recomputed; w31 [31:16] stays. -/
def qcSeal (w : List W32) : List W32 :=
  setWord w 31 (setBits (wordAt w 31) 15 0 (crcWords ((List.range 31).map (wordAt w))).toNat)

/-- The check of a kick (R338): QVER, QIDX and QCRC. -/
def qcKickOk (w : List W32) (q : QIdx) : Bool :=
  bitsOf (wordAt w 0) 7 0 == 1 && qcIdx w == q && bitsOf (wordAt w 31) 15 0 == (crcWords ((List.range 31).map (wordAt w))).toNat

/-- The check of a block that is mapped (R173, R335). -/
def qcMapOk (w : List W32) : Bool :=
  qcKickOk w (qcIdx w) && bitsOf (wordAt w 0) 31 10 == 0 && bitsOf (wordAt w 1) 15 12 == 0 && bitsOf (wordAt w 1) 31 21 == 0
    && decide (4 ≤ bitsOf (wordAt w 1) 20 16) && decide (bitsOf (wordAt w 1) 20 16 ≤ 20) && bitsOf (qcRing w) 11 0 == 0
    && bitsOf (qcHbase w) 11 0 == 0
    && (qcHbase w == 0 || (decide (4 ≤ bitsOf (wordAt w 12) 4 0) && decide (bitsOf (wordAt w 12) 4 0 ≤ 20)))
    && bitsOf (wordAt w 12) 31 5 == 0 && wordAt w 13 == 0 && bitsOf (wordAt w 19) 31 8 == 0 && bitsOf (wordAt w 28) 31 8 == 0
    && wordAt w 29 == 0 && wordAt w 30 == 0 && bitsOf (wordAt w 31) 31 16 == 0

/-! ### Slots (R339) -/

/-- A slot of a slice. -/
def State.qslot (s : State) (i : SliceId) (n : Nat) : QSlot := tabGet {} (s.slice i).slots n

/-- Changes a slot; a change is stamped. -/
def State.modSlot (s : State) (i : SliceId) (n : Nat) (f : QSlot → QSlot) : State :=
  let old := s.qslot i n
  let new := f old
  if new = old then s else s.modSlice i fun k => { k with slots := tabSet k.slots n { new with stamp := s.now } }

/-- The slot that holds a queue. -/
def State.slotOf (s : State) (i : SliceId) (q : QIdx) : Option Nat :=
  lowest 256 fun n => (s.qslot i n).state != 0 && (s.qslot i n).q == q

/-- A started packet of a queue is incomplete. -/
def State.queueBusy (s : State) (i : SliceId) (q : QIdx) : Bool := s.started.any fun x => x.slice == i && x.q == q

/-- The state word of a slot (R339). -/
def State.slotWord' (s : State) (i : SliceId) (n : Nat) : Word :=
  let x := s.qslot i n
  let idle := x.state != 0 && x.blk == 0 && qcWr x.qcb == qcRd x.qcb && !s.queueBusy i x.q
  BitVec.ofNat 64 (x.state.toNat + x.blk.toNat * 4 + (if x.evt then 16 else 0) + (if x.stop then 32 else 0) + (if idle then 64 else 0)
    + (if x.state = 0 then 0 else (qcIdx x.qcb).val * 256) + bitsOf x.stamp 39 0 * 2 ^ 24)

/-! ### The serving agent's accesses -/

/-- The agents of a slice, as they address partition memory for a queue. -/
def State.queueEng (s : State) (i : SliceId) (q : QIdx) : EngId :=
  { a := .puppet ⟨i, idx 144 q.val⟩, part := s.partOf! i, asid := Config.rootAsid (s.partOf! i) }

/-- The address of a queue's directory entry (R333). -/
def State.dirAddr (s : State) (i : SliceId) (q : QIdx) : Word :=
  BitVec.ofNat 64 (bitsOf (s.sliceReg i 0x420) 55 7 * 128 + 8 * q.val)

/-- A directory entry, once it can be read. -/
def State.dirEntry (s : State) (i : SliceId) (q : QIdx) : Word :=
  BitVec.ofNat 64 (bytesToNat (s.engBytes (s.queueEng i q) 1 (s.dirAddr i q) 8))

/-- The address in a directory entry. -/
def entryQcb (e : Word) : Word := BitVec.ofNat 64 (bitsOf e 55 7 * 128)

/-- What reading and writing some bytes as the agent meets. -/
def State.meetBoth (s : State) (e : EngId) (va : Word) (n : Nat) : EngMeet :=
  match s.meet e 1 va n with
  | .ok => s.meet e 2 va n
  | m => m

/-- What reaching the control block of a queue meets: nothing while it is mapped. A queue whose entry is not valid has none. -/
def State.meetQcb (s : State) (i : SliceId) (q : QIdx) : EngMeet :=
  if (s.slotOf i q).isSome then .ok
  else
    match s.meet (s.queueEng i q) 1 (s.dirAddr i q) 8 with
    | .ok => if bitAt (s.dirEntry i q) 0 then s.meetBoth (s.queueEng i q) (entryQcb (s.dirEntry i q)) 128
             else .fault .translation (s.dirAddr i q)
    | m => m

/-- The control block of a queue, mapped or in memory, with its address; `none` when it cannot be reached. -/
def State.qcbOf (s : State) (i : SliceId) (q : QIdx) : Option (List W32 × Word) :=
  match s.slotOf i q with
  | some n => some ((s.qslot i n).qcb, (s.qslot i n).qcba)
  | none =>
    if s.meetQcb i q = .ok then
      let a := entryQcb (s.dirEntry i q)
      some (s.engWords (s.queueEng i q) 1 a 32, a)
    else none

/-- The device remembers the control block of an unmapped queue as it stands in memory (R336). -/
def State.noteQcb (s : State) (i : SliceId) (q : QIdx) (a : Word) : State :=
  s.modSlice i fun k => { k with qimg := tabSet k.qimg q.val (a, s.engWords (s.queueEng i q) 1 a 32) }

/-- Replaces it: in its slot, or in memory with a fresh QCRC. -/
def State.setQcb (s : State) (i : SliceId) (q : QIdx) (w : List W32) : State :=
  match s.slotOf i q with
  | some n => s.modSlot i n fun x => { x with qcb := w }
  | none =>
    match s.qcbOf i q with
    | some (_, a) => (s.engWrite (s.queueEng i q) a (wordsToBytes (qcSeal w))).1.noteQcb i q a
    | none => s

/-! ### Firmware events of the queues (R338, R175) -/

/-- An event for some agent of a slice: a parked one, taken round-robin, else the one given. -/
def State.sliceEvent (s : State) (i : SliceId) (kind arg other : Nat) : State :=
  let parked (k : Nat) : Bool := let p := (s.core ⟨i, idx 144 k⟩).puppet; p.running && p.parked
  match (List.range 144).find? fun j => parked (((s.slice i).robin + j) % 144) with
  | some j =>
    let k := ((s.slice i).robin + j) % 144
    (s.modSlice i fun x => { x with robin := (k + 1) % 144 }).fwEvent ⟨i, idx 144 k⟩ kind arg
  | none => s.fwEvent ⟨i, idx 144 other⟩ kind arg

/-- The agent that serves a queue, and holds its slot's service ticket while it does: the first at work from that of core q mod 144 on
(R57, R340). -/
def State.server (s : State) (i : SliceId) (q : QIdx) : Option CoreRef :=
  ((List.range 144).map fun j => (⟨i, idx 144 ((q.val + j) % 144)⟩ : CoreRef)).find? fun c =>
    let p := (s.core c).puppet
    p.running && !p.stopped

/-- Some agent of a slice is at work. -/
def State.hasAgent (s : State) (i : SliceId) : Bool := (s.server i 0).isSome

/-- Sets or clears the pending bit of a queue. -/
def State.setPend (s : State) (i : SliceId) (q : QIdx) (b : Bool) : State :=
  let n := 0x440 + q.val / 64
  s.setSliceReg i n (putBit (s.sliceReg i n) (q.val % 64) b)

/-- The pending bit of a queue. -/
def State.pending (s : State) (i : SliceId) (q : Nat) : Bool := bitAt (s.sliceReg i (0x440 + q / 64)) (q % 64)

/-- The feature word of the slice's partition has been accepted (R24). -/
def State.featured (s : State) (i : SliceId) : Bool := match s.partOf i with | some p => (s.part p).featLocked | none => false

/-- An unmapped queue is kicked: its pending bit and its event. -/
def State.pendKick (s : State) (i : SliceId) (q : QIdx) : State := (s.setPend i q true).sliceEvent i 0x01 q.val (q.val % 144)

/-! ### Stops and handler packets (R350, R351) -/

/-- The handler packet of a stop. -/
def State.handlerPacket (s : State) (i : SliceId) (q : QIdx) (code : Nat) (pidx : Word) (copy : List W32) (qcba : Word) : List W32 :=
  [BitVec.ofNat 32 (0x80 + code * 256), BitVec.ofNat 32 (q.val + i.val * 4096), pidx.extractLsb' 0 32, pidx.extractLsb' 32 32,
   s.now.extractLsb' 0 32, s.now.extractLsb' 32 32] ++ (List.range 8).map (wordAt copy) ++ [qcba.extractLsb' 0 32, qcba.extractLsb' 32 32]

/-- A queue stops, or, when it has stopped before, reports started work: `late` says that the code does. A miss on its control block is
waited for; when the block cannot be reached at all, only the queue-error event is left. -/
def State.stopQueue (s : State) (i : SliceId) (q : QIdx) (code : Nat) (pidx : Word) (copy : List W32) (late : Bool) : State :=
  match s.qcbOf i q with
  | none =>
    match s.meetQcb i q with
    | .miss va =>
      (s.parkOnce (s.queueEng i q) va 2 (.queue i q 4)).modSlice i fun k =>
        { k with stops := k.stops ++ [{ q := q, code := code, pidx := pidx, copy := copy, late := late }] }
    | _ => s.raiseSource i 0x2
  | some (w, a) =>
    let report (s : State) : State :=
      s.modSlice i fun k => { k with handlers := k.handlers ++ [(q, s.handlerPacket i q code pidx copy a)] }
    if qcStopped w then (if late then report s else s)
    else
      let w := setDword (setWord (setWord w 0 (putBit (wordAt w 0) 8 true)) 19 (BitVec.ofNat 32 code)) 20 pidx
      let s := s.setQcb i q w
      let s := match s.slotOf i q with
        | some n => s.modSlot i n fun x => { x with stop := true, held := none, copy := [], blk := if x.blk = 1 then 1 else 0 }
        | none => s
      report s

/-- The stops of a slice that waited for a control block are made once it can be reached. -/
def State.pumpStops (s : State) (i : SliceId) : List QStop → State
  | [] => s
  | x :: xs =>
    if s.isParked (.queue i x.q 4) then s.pumpStops i xs
    else ((s.modSlice i fun k => { k with stops := k.stops.erase x }).stopQueue i x.q x.code x.pidx x.copy x.late).pumpStops i xs

/-- Eight free words, for the copy of a packet that no agent has made. -/
def State.freeCopy (s : State) : List W32 := (List.range 8).map s.freeLane

/-- What writing a handler packet comes to: written, dropped, or held by a miss. -/
inductive Handled where
  | written (s : State)
  | dropped
  | held (s : State)

/-- Tries to write a handler packet. -/
def State.tryHandler (s : State) (i : SliceId) (q : QIdx) (p : List W32) : Handled :=
  let e := s.queueEng i q
  match s.qcbOf i q with
  | none =>
    (match s.meetQcb i q with
     | .miss va => .held (s.parkOnce e va 2 (.queue i q 3))
     | _ => .dropped)
  | some (w, _) =>
    if qcHbase w = 0 then .dropped
    else
      match s.meet e 1 (dwordAt w 16) 8 with
      | .miss va => .held (s.parkOnce e va 1 (.queue i q 3))
      | .fault _ _ => .dropped
      | .ok =>
        let rd : Word := BitVec.ofNat 64 (bytesToNat (s.engBytes e 1 (dwordAt w 16) 8))
        let at' := qcHbase w + BitVec.ofNat 64 ((qcHwr w).toNat % qcHsize w * 64)
        if qcHsize w ≤ (qcHwr w - rd).toNat then .dropped
        else
          match s.meet e 2 at' 64 with
          | .miss va => .held (s.parkOnce e va 2 (.queue i q 3))
          | .fault _ _ => .dropped
          | .ok => .written (((s.engWrite e at' (wordsToBytes p)).1).setQcb i q (setDword w 14 (qcHwr w + 1)))

/-- Writes the handler packets of a slice that can be written, each followed by the queue-error event. -/
def State.pumpHandlers (s : State) (i : SliceId) : List (QIdx × List W32) → State
  | [] => s
  | (q, p) :: rest =>
    let drop (s : State) : State := s.modSlice i fun k => { k with handlers := k.handlers.erase (q, p) }
    if s.isParked (.queue i q 3) then s.pumpHandlers i rest
    else
      match s.tryHandler i q p with
      | .written t => ((drop t).raiseSource i 0x2).pumpHandlers i rest
      | .dropped =>
        let t := match s.qcbOf i q with
          | some (w, _) => s.setQcb i q (setWord w 0 (putBit (wordAt w 0) 9 true))
          | none => s
        ((drop t).raiseSource i 0x2).pumpHandlers i rest
      | .held t => t.pumpHandlers i rest

/-! ### Kicks (R337, R338) -/

/-- A kick of a partition whose feature word has not been accepted: WRIDX takes the value where it can, and only the pending bit is set
(R24, R337). -/
def State.earlyKick (s : State) (i : SliceId) (q : QIdx) (w : List W32) (ok : Bool) (v : Word) : State :=
  if !ok then s.setPend i q true else if v ≤ qcWr w then s else (s.setQcb i q (setDword w 4 v)).setPend i q true

/-- A kick of a mapped queue. -/
def State.kickSlot (s : State) (i : SliceId) (q : QIdx) (n : Nat) (v : Word) : State :=
  let w := (s.qslot i n).qcb
  if !s.featured i then s.earlyKick i q w true v
  else if v ≤ qcWr w then s
  else
    let t := s.modSlot i n fun x => { x with qcb := setDword w 4 v, evt := if qcStopped w then x.evt else true }
    if qcSize w < (v - qcRd w).toNat then t.draw.stopQueue i q 0x05 (qcRd w) s.freeCopy false else t

/-- A kick of an unmapped queue whose control block can be read and written. -/
def State.kickMemory (s : State) (i : SliceId) (q : QIdx) (a v : Word) : State :=
  let w := s.engWords (s.queueEng i q) 1 a 32
  let s := s.noteQcb i q a
  if !s.featured i then s.earlyKick i q w (qcKickOk w q) v
  else if !qcKickOk w q then s.pendKick i q
  else if v ≤ qcWr w then s
  else
    let t := s.setQcb i q (setDword w 4 v)
    if qcSize w < (v - qcRd w).toNat then t.draw.stopQueue i q 0x05 (qcRd w) s.freeCopy false
    else if qcStopped w then t
    else t.pendKick i q

/-- Takes a doorbell store: the state, and whether it has been dealt with; a miss parks, and the kick waits. -/
def State.takeKick (s : State) (k : Kick) : State × Bool :=
  let e := s.queueEng k.slice k.q
  if k.off ≠ 0 || k.size ≠ 8 || (s.partOf k.slice).isNone then (s, true)
  else if s.isParked (.queue k.slice k.q 1) then (s, false)
  else
    match s.meet e 1 (s.dirAddr k.slice k.q) 8 with
    | .miss va => (s.parkOnce e va 1 (.queue k.slice k.q 1), false)
    | .fault _ _ => (s.raiseSource k.slice 0x2, true)
    | .ok =>
      if !bitAt (s.dirEntry k.slice k.q) 0 then (s, true)
      else
        match s.slotOf k.slice k.q with
        | some n => (s.kickSlot k.slice k.q n k.value, true)
        | none =>
          let a := entryQcb (s.dirEntry k.slice k.q)
          match s.meetBoth e a 128 with
          | .miss va => (s.parkOnce e va 2 (.queue k.slice k.q 1), false)
          | .fault _ _ => (s.raiseSource k.slice 0x2, true)
          | .ok => (s.kickMemory k.slice k.q a k.value, true)

/-- Takes the doorbell stores that have been performed, in their order; those that a miss holds stay. -/
def State.takeKicks (s : State) : List Kick → State
  | [] => s
  | k :: ks =>
    let (t, done) := s.takeKick k
    if done then t.takeKicks ks else let u := t.takeKicks ks; { u with kicks := k :: u.kicks }

/-- A host core's or a device agent's store to a doorbell page. -/
def execDoorbellKick (slice : SliceId) (q : QIdx) (offset size : Nat) (value : Word) (s : State) : Host.Outcome State Fault Refusal :=
  .next (
    let k : Kick := { slice := slice, q := q, off := offset, size := size, value := value }
    let (t, done) := s.takeKick k
    if done then t else { t with kicks := t.kicks ++ [k] })

/-! ### Completion signals (R346) -/

/-- A WAIT or BARRIER_AND of the queue has started and is incomplete. -/
def State.queueWaits (s : State) (i : SliceId) (q : QIdx) : Bool :=
  s.started.any fun x => x.slice == i && x.q == q && (bitsOf (wordAt x.words 0) 7 0 == 3 || bitsOf (wordAt x.words 0) 7 0 == 4)

/-- Takes a completed packet off. Its slot may now be idle, and it is blocked no more by a WAIT or BARRIER_AND when none is left (R345). -/
def State.retirePacket (s : State) (x : Started) : State :=
  let t := { s with started := s.started.filter fun y => y != x }
  match t.slotOf x.slice x.q with
  | some n =>
    t.modSlot x.slice n fun k =>
      { k with blk := if k.blk = 1 && !t.queueWaits x.slice x.q then 0 else k.blk,
               stamp := if t.queueBusy x.slice x.q then k.stamp else t.now }
  | none => t

/-- The scope of a packet's acquires and releases (R342). -/
def packetScope (w : List W32) : BitVec 3 := if bitAt (wordAt w 0) 9 then 6 else 5

/-- What a completed packet's signal update follows is complete at the packet's scope (R312, R346). -/
def State.mayUpdate (s : State) (x : Started) : Bool := ({ wct := x.wct } : Scalar).completeAt s.now (packetScope x.words) false

/-- Updates the signal of a completed packet: adds 1, and the packet is done. A miss parks; a failure is code 0x04. A packet that has
expired updates nothing (R354). -/
def State.signalPacket (s : State) (x : Started) : State :=
  let e := s.queueEng x.slice x.q
  let a := dwordAt x.words 14
  if x.expired then s
  else if a = 0 then s.retirePacket x
  else if !s.mayUpdate x || s.isParked (.queue x.slice x.q 2) then s
  else
    match s.meet e 3 a 8 with
    | .miss va =>
      { s.parkOnce e va 3 (.queue x.slice x.q 2) with started := s.started.map fun y => if y = x then { y with parked := true } else y }
    | .fault _ _ => (s.retirePacket x).stopQueue x.slice x.q 0x04 x.pidx x.words true
    | .ok =>
      let v : Word := BitVec.ofNat 64 (bytesToNat (s.engBytes e 3 a 8)) + 1
      ((s.engWrite e a (natToBytes v.toNat 8)).1).retirePacket x

/-- STORAGE packets whose chain's token is written have completed. -/
def State.settleChains (s : State) : State :=
  { s with started := s.started.map fun x =>
      match x.chain with
      | some n => if x.expired || s.asyncs.any fun o => o.id == n then x else { x with due := true }
      | none => x }

/-- A control block with every field unpredictable (R336). -/
def State.spoiledQcb (s : State) : List W32 := (List.range 32).map s.freeLane

/-- A mapped queue whose control block has been written in memory: what the slot holds becomes unpredictable (R336). -/
def State.checkImage (s : State) (i : SliceId) (n : Nat) : State :=
  let x := s.qslot i n
  let e := s.queueEng i x.q
  if x.state ≠ 0 && s.meet e 1 x.qcba 128 == .ok && s.engWords e 1 x.qcba 32 != x.img then
    (s.modSlot i n fun k => { k with qcb := s.spoiledQcb, img := s.engWords e 1 x.qcba 32 }).draw
  else s

/-- An unmapped queue whose entry has stayed valid and whose control block another has written: unless the queue is stopped, what the block
holds becomes unpredictable (R336). -/
def State.checkUnmapped (s : State) (i : SliceId) (q : QIdx) (a : Word) (img : List W32) : State :=
  let e := s.queueEng i q
  let forget (s : State) : State := s.modSlice i fun k => { k with qimg := tabDel k.qimg q.val }
  if (s.slotOf i q).isSome then forget s
  else
    match s.meet e 1 (s.dirAddr i q) 8 with
    | .ok =>
      if !bitAt (s.dirEntry i q) 0 || entryQcb (s.dirEntry i q) ≠ a then forget s
      else if s.meetBoth e a 128 ≠ .ok || s.engWords e 1 a 32 == img then s
      else if qcStopped img then s.noteQcb i q a
      else ((s.engWrite e a (wordsToBytes s.spoiledQcb)).1.noteQcb i q a).draw
    | _ => s

/-- What follows every turn: doorbell stores are taken, stops, handler packets and completion signals written where no miss holds them, and
control blocks that have been overwritten are noticed. -/
def State.settle (s : State) : State :=
  let s := allSlices.foldl (fun s i => (s.slice i).slots.foldl (fun s e => s.checkImage i e.1) s) s
  let s := allSlices.foldl (fun s i => (s.slice i).qimg.foldl (fun s e => s.checkUnmapped i (idx 4096 e.1) e.2.1 e.2.2) s) s
  let s := s.grids.foldl (fun s e => s.checkChain e.1) s
  let s := if s.kicks.isEmpty then s else ({ s with kicks := [] }).takeKicks s.kicks
  let s := if s.started.isEmpty then s else
    let t := s.settleChains
    (t.started.filter (·.due)).foldl State.signalPacket t
  let s := allSlices.foldl (fun s i => s.pumpStops i (s.slice i).stops) s
  allSlices.foldl (fun s i => s.pumpHandlers i (s.slice i).handlers) s

/-! ### Mapping and ageing (R173, R341) -/

/-- The control block of a slot after UNMAP: a fresh STAMP and QCRC. -/
def State.savedQcb (s : State) (w : List W32) : List W32 := qcSeal (setDword w 22 s.now)

/-- UNMAP of a slot whose block can be written: the slot is freed, a queue with packets left is pending (R496), and the event says so
(R175). -/
def State.unmapSlot (s : State) (i : SliceId) (n : Nat) : State :=
  let x := s.qslot i n
  let s := (s.engWrite (s.queueEng i x.q) x.qcba (wordsToBytes (s.savedQcb x.qcb))).1.noteQcb i x.q x.qcba
  let s := if qcRd x.qcb < qcWr x.qcb then s.setPend i x.q true else s
  (s.modSlot i n fun _ => {}).sliceEvent i 0x03 n (x.q.val % 144)

/-- An UNMAP that the agents begin: the slot is unmapping while it waits on a miss (R339). A block that cannot be written is a memory-side
failure of the queue, code 0x04, and of a stopped queue the slot is freed without it (R349, R350). -/
def State.agentUnmap (s : State) (i : SliceId) (n : Nat) : State :=
  let x := s.qslot i n
  match s.meetBoth (s.queueEng i x.q) x.qcba 128 with
  | .ok => s.unmapSlot i n
  | .miss va => (s.modSlot i n fun k => { k with state := 2 }).parkOnce (s.queueEng i x.q) va 2 (.queue i x.q 0)
  | .fault _ _ =>
    if qcStopped x.qcb then (s.modSlot i n fun _ => {}).sliceEvent i 0x03 n (x.q.val % 144)
    else (s.modSlot i n fun k => { k with state := 1, victim := false }).draw.stopQueue i x.q 0x04 (qcRd x.qcb) s.freeCopy false

/-- MAP of a block that passes its check into a free slot. -/
def State.mapSlot (s : State) (i : SliceId) (n : Nat) (a : Word) (w : List W32) : State :=
  s.modSlot i n fun _ =>
    { state := 1, q := qcIdx w, qcba := a, qcb := w, evt := qcWr w != qcRd w, mappedAt := s.now, stop := qcStopped w,
      blk := if s.queueWaits i (qcIdx w) then 1 else 0, img := s.engWords (s.queueEng i (qcIdx w)) 1 a 32 }

/-- A queue at a decision: its index, block, block address, effective priority, tenant and tenant weight. -/
structure QCand where
  q      : QIdx
  w      : List W32
  a      : Word
  ep     : Nat
  tenant : Word
  weight : Nat

/-- A queue as the agent sees it at a decision; `none` while its region blocks meet a miss. One whose region blocks fail counts as of priority
0 and of no tenant, so that its first LAUNCH tells of it (R349). -/
def State.candidate (s : State) (i : SliceId) (q : QIdx) (w : List W32) (a : Word) : Option QCand :=
  match s.rcbWalk (s.queueEng i q) (qcRcb w) with
  | .ok ns => some { q := q, w := w, a := a, ep := min 7 (effPriority ns + qcAge w / 4), tenant := ((atLevel ns 1).map (·.1)).getD 0,
                     weight := effWeight (fromLevel ns 1) }
  | .meets (.miss _) => none
  | _ => some { q := q, w := w, a := a, ep := min 7 (qcAge w / 4), tenant := 0, weight := 1 }

/-- The slots of a slice that a tenant's queues hold. -/
def tenantSlots (mapped : List (Nat × QCand)) (tenant : Word) : Nat := (mapped.filter fun e => e.2.tenant == tenant).length

/-- The pending queue to take first: highest priority, then the tenant with the fewest slots per unit of weight, then the lower index. -/
def betterPending (mapped : List (Nat × QCand)) (x y : QCand) : Bool :=
  let a := tenantSlots mapped x.tenant * max 1 y.weight
  let b := tenantSlots mapped y.tenant * max 1 x.weight
  if x.ep ≠ y.ep then decide (y.ep < x.ep) else if a ≠ b then decide (a < b) else decide (x.q < y.q)

/-- The victim to unmap first: lowest priority, then an idle one, then the longest mapped, then the lower index. -/
def State.betterVictim (s : State) (i : SliceId) (x y : Nat × QCand) : Bool :=
  let idle (n : Nat) : Bool := bitAt (s.slotWord' i n) 6
  let at' (n : Nat) : Word := (s.qslot i n).mappedAt
  if x.2.ep ≠ y.2.ep then decide (x.2.ep < y.2.ep)
  else if idle x.1 ≠ idle y.1 then idle x.1
  else if at' x.1 ≠ at' y.1 then decide (at' x.1 < at' y.1)
  else decide (x.2.q < y.2.q)

/-- The best of a list by an order. -/
def bestOf {α : Type} (better : α → α → Bool) : List α → Option α
  | [] => none
  | x :: xs =>
    match bestOf better xs with
    | none => some x
    | some y => if better y x then some y else some x

/-- Queues passed over at a decision gain 1 in AGE. -/
def State.ageQueues (s : State) (i : SliceId) (cs : List QCand) : State :=
  cs.foldl (fun s c => s.setQcb i c.q (setWord c.w 28 (setBits (wordAt c.w 28) 7 0 (min 255 (qcAge c.w + 1))))) s

/-- Pending queues whose block fails its check lose their bit, and the queue-error event is raised; stopped ones are not mapped. -/
def State.dropPending (s : State) (i : SliceId) (q : QIdx) (bad : Bool) : State :=
  let t := s.setPend i q false
  if bad then t.raiseSource i 0x2 else t

/-- What a decision makes of one pending queue before it compares them: a miss on its block or its region blocks parks, and the queue is not
looked at until the retry; a block that fails loses its pending bit. -/
def State.lookPending (s : State) (i : SliceId) (q : QIdx) : State :=
  if (s.slotOf i q).isSome then s.setPend i q false
  else
    match s.qcbOf i q with
    | some (w, a) =>
      if !(qcMapOk w && qcIdx w == q) then s.dropPending i q true
      else if qcStopped w then s.dropPending i q false
      else if (s.candidate i q w a).isSome then s
      else
        match s.rcbWalk (s.queueEng i q) (qcRcb w) with
        | .meets (.miss va) => s.parkOnce (s.queueEng i q) va 1 (.queue i q 5)
        | _ => s
    | none =>
      match s.meetQcb i q with
      | .miss va => s.parkOnce (s.queueEng i q) va 2 (.queue i q 5)
      | .fault _ _ => s.dropPending i q true
      | .ok => s

/-- The agents of a slice map a pending queue (R341). An unmapping that a decision has begun is finished first. -/
def execQueueMapDecision (slice : SliceId) (s : State) : Host.Outcome State Fault Refusal :=
  .next (
    if !s.featured slice || !s.hasAgent slice then s
    else
      match lowest 256 fun n => (s.qslot slice n).state == 2 && (s.qslot slice n).victim with
      | some n => if s.isParked (.queue slice (s.qslot slice n).q 0) then s else s.agentUnmap slice n
      | none =>
      let qs := (List.range 4096).filter (s.pending slice)
      let s := qs.foldl (fun s (n : Nat) => s.lookPending slice (idx 4096 n)) s
      let cands := ((List.range 4096).filter (s.pending slice)).filterMap fun (n : Nat) =>
        (s.qcbOf slice (idx 4096 n)).bind fun r => s.candidate slice (idx 4096 n) r.1 r.2
      let mapped := (List.range 256).filterMap fun n =>
        let x := s.qslot slice n
        if x.state = 1 then (s.candidate slice x.q x.qcb x.qcba).map fun c => (n, c) else none
      match bestOf (betterPending mapped) cands with
      | none => s
      | some c =>
        let others := cands.filter fun x => x.q != c.q
        let take (s : State) (n : Nat) : State :=
          let w := setWord c.w 28 (setBits (wordAt c.w 28) 7 0 0)
          ((s.mapSlot slice n c.a w).setPend slice c.q false).ageQueues slice others
        match lowest 256 fun n => (s.qslot slice n).state == 0 with
        | some n => take s n
        | none =>
          match bestOf (s.betterVictim slice) mapped with
          | none => s.ageQueues slice cands
          | some v =>
            if v.2.ep < c.ep then
              let t := (s.modSlot slice v.1 fun k => { k with victim := true }).agentUnmap slice v.1
              if (t.qslot slice v.1).state = 0 then take t v.1 else t
            else s.ageQueues slice cands)

end Sys2Proof.Machine
end

