-- ==== Sys2Proof/Machine/Packets.lean ====
section
/-! DEFINITION. Packets of the command queues (R342 to R350): taking and checking one, starting it, holds and waits, the watchdog's
expiry (R352), and the unmapping of a stopped queue. -/

namespace Sys2Proof.Machine

/-! ### Fields of a packet (R342, R343) -/

/-- TYPE. -/
def pkType (w : List W32) : Nat := bitsOf (wordAt w 0) 7 0
/-- BARRIER. -/
def pkBarrier (w : List W32) : Bool := bitAt (wordAt w 0) 8
/-- SYS. -/
def pkSys (w : List W32) : Bool := bitAt (wordAt w 0) 9
/-- FCLASS. -/
def pkClass (w : List W32) : Nat := bitsOf (wordAt w 0) 11 10
/-- HOLD. -/
def pkHold (w : List W32) : Bool := bitAt (wordAt w 0) 12
/-- EARLY. -/
def pkEarly (w : List W32) : Bool := bitAt (wordAt w 1) 0
/-- SMASK. -/
def pkSmask (w : List W32) : BitVec 8 := (wordAt w 1).extractLsb' 8 8

/-- Words i to j of a packet are zero. -/
def pkZero (w : List W32) (i j : Nat) : Bool := (List.range 16).all fun k => !(i ≤ k && k ≤ j) || wordAt w k == 0

/-- The slices that a LAUNCH names: a slice that its partition is handing over is not one of an SMASK (R452). -/
def State.launchSlices (s : State) (i : SliceId) (w : List W32) : List SliceId :=
  if pkSmask w = 0 then [i] else allSlices.filter fun k => bitAt (pkSmask w) k.val && s.leaving (s.partOf! i) != some k

/-- The slice mask of a LAUNCH's grid. -/
def State.launchMask (s : State) (i : SliceId) (w : List W32) : BitVec 8 :=
  match s.leaving (s.partOf! i) with
  | some k => putBit (pkSmask w) k.val false
  | none => pkSmask w

/-- The point of an FCLASS (R17, R347). -/
def classPoint (c : Nat) : BitVec 3 := if c = 0 then 3 else if c = 1 then 5 else 7

/-- The three pairs of a BARRIER_AND, those in use. -/
def pkPairs (w : List W32) : List (Word × Word) :=
  ([2, 6, 10].map fun i => (dwordAt w i, dwordAt w (i + 2))).filter fun p => p.1 != 0

/-! ### Checks (R33, R233, R349, R380) -/

/-- A format slot word of a launch record is accepted (R233). -/
def slotWordOk (x : W32) : Bool :=
  bitsOf x 13 12 != 3 && bitsOf x 15 14 != 3 && decide (bitsOf x 5 0 ≤ 0x0E) && decide (bitsOf x 11 6 ≤ 0x0E) && bitsOf x 31 16 == 0
    && !((bitsOf x 13 12 == 1 || bitsOf x 13 12 == 2) && bitsOf x 5 0 == 0)

/-- A launch record is accepted (R33, R233, R380). -/
def lrecOk (w : List W32) : Bool :=
  bitsOf (wordAt w 0) 7 0 == 1 && bitsOf (wordAt w 0) 31 15 == 0 && bitsOf (wordAt w 1) 7 5 == 0 && bitsOf (wordAt w 1) 31 24 == 0
    && bitsOf (wordAt w 4) 31 11 == 0 && bitsOf (wordAt w 6) 31 3 == 0 && ((List.range 44).all fun i => wordAt w (20 + i) == 0)
    && lrCount w != 0 && decide (1 ≤ lrGroups w) && decide (lrGroups w ≤ 16)
    && allotOk (BitVec.ofNat 64 (lrVallot w)) && lrLp w % 4 == 0 && decide (lrLp w ≤ 1024)
    && decide (lrSpad w + lrGroups w * 96 * lrLp w ≤ 0x80000) && decide (1 ≤ lrNbW w) && decide (lrNbW w ≤ 6)
    && decide (1 ≤ lrNbH w) && decide (lrNbH w ≤ 4) && lrCount w % (lrNbW w * lrNbH w) == 0 && bitsOf (wordAt w 8) 1 0 == 0
    && allotOk (BitVec.ofNat 64 (lrSpawnVallot w)) && decide (lrSpawnSpad w ≤ 0x80000)
    && (List.range 8).all fun i => slotWordOk (wordAt w (12 + i))

/-- Code 0x02: a must-be-zero bit is set, HOLD is misused, SMASK is invalid, or an address is misaligned. -/
def State.malformed (s : State) (i : SliceId) (w : List W32) : Bool :=
  let t := pkType w
  let p := s.partOf! i
  let al (k n : Nat) : Bool := (dwordAt w k).toNat % n == 0
  !(bitsOf (wordAt w 0) 31 13 == 0 && al 14 8 && !(pkHold w && (t != 1 || pkClass w == 3))
    && (match t with
        | 1 => bitsOf (wordAt w 1) 7 1 == 0 && bitsOf (wordAt w 1) 31 16 == 0 && pkZero w 6 13 && al 2 256 && al 4 256
                && (s.launchSlices i w).all (s.member p) && !(s.launchSlices i w).isEmpty
        | 2 => bitsOf (wordAt w 1) 31 1 == 0 && pkZero w 6 13 && al 2 8
        | 3 => bitsOf (wordAt w 1) 31 2 == 0 && pkZero w 6 13 && al 2 8
        | 4 => wordAt w 1 == 0 && al 2 8 && al 6 8 && al 10 8
        | 5 => wordAt w 1 == 0 && pkZero w 4 13 && al 2 128
        | 6 => wordAt w 1 == 0
        | _ => pkZero w 1 13))

/-- What the check of a packet comes to. -/
inductive PacketCheck where
  | pass
  | fail (code : Nat)
  | miss (va : Word) (k : Kind)

/-- What an access of the agent comes to, for the check. -/
def checkMeet (m : EngMeet) (k : Kind) (next : PacketCheck) : PacketCheck :=
  match m with
  | .ok => next
  | .miss va => .miss va k
  | .fault _ _ => .fail 0x04

/-- The region blocks of a LAUNCH: the grid's is at grid level and its parent is the queue's (R348). -/
def State.checkGrcb (s : State) (e : EngId) (w : List W32) (qrcb : Word) : PacketCheck :=
  match s.rcbWalk e (dwordAt w 4) with
  | .ok ((_, x) :: (b, _) :: _) => if rcbLevel x = 3 && b = qrcb then .pass else .fail 0x06
  | .ok _ => .fail 0x06
  | .bad => .fail 0x06
  | .meets m => checkMeet m 1 .pass

/-- The check of R349 on a packet of a queue that has been copied. -/
def State.checkPacket (s : State) (i : SliceId) (q : QIdx) (qrcb : Word) (w : List W32) : PacketCheck :=
  let e := s.queueEng i q
  let t := pkType w
  if !(decide (1 ≤ t) && decide (t ≤ 7)) then .fail 0x01
  else if s.malformed i w then .fail 0x02
  else
    match t with
    | 1 => checkMeet (s.meet e 1 (dwordAt w 2) 256) 1
        (if lrecOk (s.engWords e 1 (dwordAt w 2) 64) then s.checkGrcb e w qrcb else .fail 0x03)
    | 2 => checkMeet (s.meet e 3 (dwordAt w 2) 8) 3 .pass
    | 3 => checkMeet (s.meet e 7 (dwordAt w 2) 8) 7 .pass
    | 4 => (pkPairs w).foldr (fun p next => checkMeet (s.meet e 7 p.1 8) 7 next) .pass
    | 5 => checkMeet (s.meet e 5 (dwordAt w 2) 128) 5 .pass
    | _ => .pass

/-! ### Starting a packet (R343 to R348) -/

/-- The grid of a LAUNCH. -/
def State.newGrid (s : State) (i : SliceId) (q : QIdx) (pidx : Word) (w lrec : List W32) (ns : List (Word × List W32)) : Grid :=
  let ten := (atLevel ns 1).getD (0, [])
  { part := s.partOf! i, slice := i, q := q, pidx := pidx, grcb := dwordAt w 4, tenant := ten.1, domains := walkDomains ns,
    uid := (wordAt ten.2 4).extractLsb' 16 16, asid := BitVec.ofNat 16 (effAsid ns), prio := BitVec.ofNat 3 (effPriority ns),
    weight := effWeight (fromLevel ns 1), occLim := contextLimit ns, csBase := (dwordAt ten.2 8).toNat, csLim := (dwordAt ten.2 10).toNat, lrec := lrec,
    smask := s.launchMask i w, early := pkEarly w, chain := ns.map fun n => (n.1, n.2.take 16),
    ticket := Config.gridTicket s.nextId % max 1 (s.chipSize (s.partOf! i) / 8) * 8 }

/-- The chain of a STORAGE packet, issued by the serving agent. -/
def State.packetChain (s : State) (i : SliceId) (q : QIdx) (w : List W32) : AsyncOp :=
  let f : Fetcher := .puppet ⟨i, idx 144 q.val⟩
  { s.asyncFor f (.storq (dwordAt w 2) []) (packetScope w) 0 with token := .none }

/-- What starting a packet does of its own, once it stands in the list of started packets. The words are a copy of the packet's, and for a
LAUNCH its record's. -/
def State.startOwn (s : State) (i : SliceId) (slot : Nat) (x : Started) (lrec : List W32) : State :=
  let w := x.words
  let e := s.queueEng i x.q
  let add (s : State) (x : Started) : State := { s with started := s.started ++ [x] }
  match pkType w with
  | 1 =>
    match s.rcbWalk e (dwordAt w 4) with
    | .ok ns =>
      let n := s.nextId
      let r := s.newGrid i x.q x.pidx w lrec ns
      add ({ s.takeId with grids := tabSet s.grids n r }.chipWrite (.chip r.part r.ticket) (natToBytes 0 8)) { x with grid := some n }
    | _ => s
  | 2 =>
    let old : Word := BitVec.ofNat 64 (bytesToNat (s.engBytes e 3 (dwordAt w 2) 8))
    let new := if bitAt (wordAt w 1) 0 then dwordAt w 4 else old + dwordAt w 4
    let (t, wct) := s.engWrite e (dwordAt w 2) (natToBytes new.toNat 8)
    add t { x with due := true, wct := wct }
  | 5 =>
    let o := s.packetChain i x.q w
    add { s.takeId with asyncs := s.asyncs ++ [o] } { x with chain := some o.id }
  | 6 =>
    let s := s.modSlot i slot fun k => { k with qcb := setDword (setDword k.qcb 24 (dwordAt w 2)) 26 s.now }
    add s { x with due := true }
  | 7 => add s { x with due := true }
  | _ => (add s x).modSlot i slot fun k => { k with blk := 1 }

/-- A packet fails its check: its queue stops, but for a region block only after the agent has read it again for 1,000 ptick (R377). -/
def State.failPacket (s : State) (i : SliceId) (slot : Nat) (code : Nat) (pidx : Word) (w : List W32) : State :=
  let k := s.qslot i slot
  if code = 0x06 then
    match k.rcbSince with
    | none => s.modSlot i slot fun k => { k with rcbSince := some s.now }
    | some t =>
      if s.passed t 1000 then (s.modSlot i slot fun k => { k with rcbSince := none }).stopQueue i k.q code pidx w false else s
  else s.stopQueue i k.q code pidx w false

/-- Starts a packet that has passed its check and its waits: the agent writes w0 = 0 in the ring and advances RDIDX. The region blocks of
a LAUNCH are read, and the signal of a SIGNAL is met, as they stand now. A miss is waited for. -/
def State.startPacket (s : State) (i : SliceId) (slot : Nat) (pidx : Word) (ws : List W32) : State :=
  let k := s.qslot i slot
  let q := k.q
  let e := s.queueEng i q
  let at' := qcRing k.qcb + BitVec.ofNat 64 (pidx.toNat % qcSize k.qcb * 64)
  let look := match pkType ws with
    | 1 => s.checkGrcb e ws (qcRcb k.qcb)
    | 2 => checkMeet (s.meet e 3 (dwordAt ws 2) 8) 3 .pass
    | _ => .pass
  match checkMeet (s.meet e 2 at' 4) 2 look with
  | .miss va m => s.parkOnce e va m (.queue i q 0)
  | .fail code => s.failPacket i slot code pidx (ws.take 16)
  | .pass =>
    let s := (s.engWrite e at' (natToBytes 0 4)).1
    let s := s.modSlot i slot fun k => { k with blk := 0, held := none, copy := [], rcbSince := none, qcb := setDword k.qcb 6 (pidx + 1) }
    s.startOwn i slot { slice := i, q := q, pidx := pidx, words := ws.take 16 } (ws.drop 16)

/-- A packet that has passed its check starts, or waits: for every earlier packet when BARRIER is set, or at a HOLD (R345, R347). -/
def State.admitPacket (s : State) (i : SliceId) (slot : Nat) (pidx : Word) (ws : List W32) : State :=
  let k := s.qslot i slot
  if pkBarrier ws && s.queueBusy i k.q then s.modSlot i slot fun k => { k with blk := 3, held := some (pidx, ws) }
  else if pkType ws = 1 && pkHold ws then s.modSlot i slot fun k => { k with blk := 2, held := some (pidx, ws) }
  else s.startPacket i slot pidx ws

/-- How often CAP has become 1 on some slices. -/
def State.capsOf (s : State) (is : List SliceId) : Nat := (is.map fun i => (s.slice i).caps).foldl (· + ·) 0

/-- The agent takes the packet at RDIDX of a mapped queue and checks it; it takes one only of the type given, or one of no type. While the check
waits on a miss, the copy stands (R344). -/
def State.takeRing (s : State) (i : SliceId) (slot type : Nat) : State :=
  let k := s.qslot i slot
  let q := k.q
  let e := s.queueEng i q
  let pidx := qcRd k.qcb
  let at' := qcRing k.qcb + BitVec.ofNat 64 (pidx.toNat % qcSize k.qcb * 64)
  if s.isParked (.queue i q 0) then s
  else
    match if k.copy.isEmpty then s.meetBoth e at' 64 else .ok with
    | .miss va => s.parkOnce e va 1 (.queue i q 0)
    | .fault _ _ => s.draw.stopQueue i q 0x04 pidx s.freeCopy false
    | .ok =>
      let w := if k.copy.isEmpty then s.engWords e 1 at' 16 else k.copy
      let known := decide (1 ≤ pkType w) && decide (pkType w ≤ 7)
      if known && pkType w ≠ type then s
      else
        match s.checkPacket i q (qcRcb k.qcb) w with
        | .miss va m => (s.modSlot i slot fun k => { k with copy := w }).parkOnce e va m (.queue i q 0)
        | .fail code => (s.modSlot i slot fun k => { k with evt := false }).failPacket i slot code pidx w
        | .pass =>
          let lrec := if pkType w = 1 then s.engWords e 1 (dwordAt w 2) 64 else []
          let s := s.modSlot i slot fun k =>
            { k with evt := false, copy := [], holdSince := s.now, holdCaps := s.capsOf (s.launchSlices i w), rcbSince := none }
          let s := if pkType w = 1 && pkClass w ≠ 3 then s.requestPoints (s.launchSlices i w) (classPoint (pkClass w)) else s
          s.admitPacket i slot pidx (w ++ lrec)

/-- The agent that holds a slot's service ticket looks at its queue for a packet of a type. -/
def State.takePacket (s : State) (i : SliceId) (slot : HwSlot) (type : Nat) : State :=
  let k := s.qslot i slot.val
  if k.state ≠ 1 || k.stop || qcStopped k.qcb || !s.featured i || !s.hasAgent i then s
  else if k.blk = 3 then
    match k.held with
    | some (pidx, ws) => if pkType ws = type && !s.queueBusy i k.q then s.admitPacket i slot.val pidx ws else s
    | none => s
  else if k.blk ≠ 0 || s.queueWaits i k.q then s
  else if qcWr k.qcb = qcRd k.qcb then s.modSlot i slot.val fun k => { k with evt := false }
  else s.takeRing i slot.val type

/-- LAUNCH. -/
def execLaunch (slice : SliceId) (slot : HwSlot) (s : State) : Host.Outcome State Fault Refusal := .next (s.takePacket slice slot 1)
/-- SIGNAL. -/
def execSignal (slice : SliceId) (slot : HwSlot) (s : State) : Host.Outcome State Fault Refusal := .next (s.takePacket slice slot 2)
/-- WAIT. -/
def execWait (slice : SliceId) (slot : HwSlot) (s : State) : Host.Outcome State Fault Refusal := .next (s.takePacket slice slot 3)
/-- BARRIER_AND. -/
def execBarrierAnd (slice : SliceId) (slot : HwSlot) (s : State) : Host.Outcome State Fault Refusal := .next (s.takePacket slice slot 4)
/-- STORAGE. -/
def execStorage (slice : SliceId) (slot : HwSlot) (s : State) : Host.Outcome State Fault Refusal := .next (s.takePacket slice slot 5)
/-- MARKER. -/
def execMarker (slice : SliceId) (slot : HwSlot) (s : State) : Host.Outcome State Fault Refusal := .next (s.takePacket slice slot 6)
/-- NOP. -/
def execNop (slice : SliceId) (slot : HwSlot) (s : State) : Host.Outcome State Fault Refusal := .next (s.takePacket slice slot 7)

/-! ### Waits and holds (R343, R346, R347) -/

/-- A signal value meets a WAIT's condition: 0 ≥, 1 =, 2 ≠, 3 <, read signed. -/
def waitMet (cc : Nat) (v limit : Word) : Bool :=
  match cc with
  | 0 => decide (limit.toInt ≤ v.toInt)
  | 1 => v == limit
  | 2 => v != limit
  | _ => decide (v.toInt < limit.toInt)

/-- The signals that a started WAIT or BARRIER_AND has still to find met: the first word of its fields, address, condition, value. A pair of a
BARRIER_AND that has been met is not read again. -/
def Started.signals (x : Started) : List (Nat × Word × Nat × Word) :=
  if pkType x.words = 3 then [(2, dwordAt x.words 2, bitsOf (wordAt x.words 1) 1 0, dwordAt x.words 4)]
  else (([2, 6, 10].filter fun i => dwordAt x.words i != 0 && !x.met.contains i).map fun i =>
    (i, dwordAt x.words i, 0, dwordAt x.words (i + 2)))

/-- The last completion time of the line at an address, which a read of it returns (R311). -/
def State.lineTime (s : State) (e : EngId) (va : Word) : Word :=
  match s.engPlace e va with
  | .global asid x =>
    match s.reach e.part asid x 7 with
    | .ok pa _ => tabGet 0 (s.slice (s.home e.part (x.toNat / 64)).1).lineWct (pa / 64)
    | _ => 0
  | _ => 0

/-- The started WAIT or BARRIER_AND of a queue. -/
def State.waiter (s : State) (i : SliceId) (q : QIdx) : Option Started :=
  s.started.find? fun x => x.slice == i && x.q == q && (pkType x.words == 3 || pkType x.words == 4) && !x.due

/-- A WAIT or BARRIER_AND reads its signals. A signal that cannot be read stops the queue with code 0x04. -/
def State.tryWaiter (s : State) (x : Started) : State :=
  let e := s.queueEng x.slice x.q
  let put (y : Started) : State := { s with started := s.started.map fun z => if z = x then y else z }
  if s.isParked (.queue x.slice x.q 0) then s
  else
    match s.meetList e 7 (x.signals.map fun t => (t.2.1, 8)) with
    | .miss va => s.parkOnce e va 7 (.queue x.slice x.q 0)
    | .fault _ _ => (s.retirePacket x).stopQueue x.slice x.q 0x04 x.pidx x.words false
    | .ok =>
      let val (a : Word) : Word := BitVec.ofNat 64 (bytesToNat (s.engBytes e 7 a 8))
      let hit := x.signals.filter fun t => waitMet t.2.2.1 (val t.2.1) t.2.2.2
      if hit.isEmpty && !x.signals.isEmpty then s
      else put { x with met := x.met ++ hit.map (·.1), due := decide (hit.length = x.signals.length),
                        wct := (hit.map fun t => s.lineTime e t.2.1).foldl later x.wct }

/-- A WAIT or BARRIER_AND of a queue finds its signals met (R346), be the queue mapped or not (R341, item 6). -/
def execWaitSatisfied (slice : SliceId) (q : QIdx) (s : State) : Host.Outcome State Fault Refusal :=
  .next (match s.waiter slice q with
    | some x => if s.hasAgent slice then s.tryWaiter x else s
    | none => s)

/-- A hold ends: the point is reached on every slice named, CAP has become 1 on one since, or 100 µs have passed (R347). -/
def State.holdOver (s : State) (i : SliceId) (k : QSlot) (w : List W32) : Bool :=
  ((s.launchSlices i w).all fun j => bitsOf (s.sliceReg j 0x400) 2 0 == (classPoint (pkClass w)).toNat)
    || decide (k.holdCaps < s.capsOf (s.launchSlices i w)) || s.passed k.holdSince 100000

/-- A held LAUNCH starts. -/
def execLaunchHoldEnd (slice : SliceId) (slot : HwSlot) (s : State) : Host.Outcome State Fault Refusal :=
  .next (
    let k := s.qslot slice slot.val
    match k.held with
    | some (pidx, ws) =>
      if k.state = 1 && k.blk = 2 && s.hasAgent slice && s.holdOver slice k ws && !s.isParked (.queue slice k.q 0) then
        s.startPacket slice slot.val pidx ws
      else s
    | none => s)

/-- A stopped queue whose started packets have completed is unmapped (R350). -/
def execQueueStoppedUnmap (slice : SliceId) (slot : HwSlot) (s : State) : Host.Outcome State Fault Refusal :=
  .next (
    let k := s.qslot slice slot.val
    if k.state = 0 || !qcStopped k.qcb || s.queueBusy slice k.q || !s.hasAgent slice || s.isParked (.queue slice k.q 0) then s
    else s.agentUnmap slice slot.val)

/-! ### Watchdogs (R352) -/

/-- The watchdog of a started packet runs: that of a STORAGE packet always, that of a LAUNCH while a group of its grid is resident and none
is stopped by the debugger. -/
def State.dogRuns (s : State) (x : Started) : Bool :=
  if x.due then false
  else
    match x.grid with
    | some n =>
      let gs := s.allGroups.filter fun g => (s.group g).grid == n && (s.group g).resident
      !gs.isEmpty && !gs.any fun g => (s.group g).dbg
    | none => x.chain.isSome

/-- Time passes: the counts that run grow. -/
def State.passTime (s : State) (n : Nat) : State :=
  let s := { s with started := s.started.map fun x => if s.dogRuns x then { x with count := x.count + n } else x }
  { s with now := s.now + BitVec.ofNat 64 n }

/-- The watchdog limit of a queue in ptick. -/
def State.dogLimit (s : State) (i : SliceId) (q : QIdx) : Nat :=
  match s.qcbOf i q with
  | some (w, _) => (if wordAt w 18 = 0 then (s.sliceReg i 0x422).toNat else (wordAt w 18).toNat) * 1000
  | none => (s.sliceReg i 0x422).toNat * 1000

/-- A started packet. -/
def State.startedAt (s : State) (i : SliceId) (q : QIdx) (pidx : Word) : Option Started :=
  s.started.find? fun x => x.slice == i && x.q == q && x.pidx == pidx && !x.due

/-- A packet's count reaches its limit. -/
def execQueueWatchdogExpiry (slice : SliceId) (q : QIdx) (pidx : Word) (s : State) : Host.Outcome State Fault Refusal :=
  .next (match s.startedAt slice q pidx with
    | some x =>
      if (x.grid.isSome || x.chain.isSome) && !x.expired && decide (s.dogLimit slice q ≤ x.count) then
        let t := { s with started := s.started.map fun y => if y = x then { y with expired := true } else y }
        t.fwEvent ((t.server slice q).getD ⟨slice, idx 144 (q.val % 144)⟩) 0x06
          (match t.slotOf slice q with | some n => n | none => 0x100 + q.val)
      else s
    | none => s)

end Sys2Proof.Machine
end

