-- ==== Sys2Proof/Machine/Agents.lean ====
section
/-! DEFINITION. The instructions of the puppet slot (R170 to R176, R340, R460): tickets, rectangles, hardware queue slots, region control
blocks, firmware events, `iret` and `opreq`; and the start of an agent on an image. -/

namespace Sys2Proof.Machine

/-! ### Starting an agent (R460, R462) -/

/-- The address in the firmware store of the entry of an image (R447, R459). -/
def State.imageEntry (s : State) (p : PartId) (gen : Nat) : Word :=
  let base := gen % 2 * 0x800000
  let w := bytesToNat ((List.range 8).map fun i => s.imageByte p (base + 24 + i))
  BitVec.ofNat 64 (base + 256 + w)

/-- Starts a puppet slot at the entry of an image, with a value in `s1`: NEST and `CORE.PHVEC` are 0 and the scalar registers zero. -/
def State.startAgent (s : State) (c : CoreRef) (p : PartId) (gen : Nat) (s1 : Word) : State :=
  let s := s.setCoreReg c 0x1B0 (BitVec.ofNat 64 gen)
  let s := s.setCoreReg c 0x103 (putBit (s.coreReg c 0x103) 8 false)
  let s := s.setCoreReg c 0x104 0
  let entry := s.imageEntry p gen
  s.modPuppet c fun a =>
    { a with running := true, stopped := false, parked := false,
             sc := { a.sc with s := [(1, s1)], spc := entry, wait := .none, remote := false, frozen := false } }

/-- `PRC.FWSTAT` with one agent fewer to reach TGT; a rollback ends with the last (R461). -/
def State.agentArrived (s : State) (p : PartId) : State :=
  s.modPart p fun q =>
    let left := bitsOf q.fwstat 63 48 - 1
    let w := setBits q.fwstat 63 48 left
    if left = 0 && bitsOf w 33 32 == 2 then
      { q with fwstat := setBits w 33 32 0, images := q.images.filter fun e => e.1 == bitsOf w 31 16 }
    else { q with fwstat := w }

/-- The generation that an agent runs, and the one it is to run. -/
def State.agentGen (s : State) (c : CoreRef) : Nat := bitsOf (s.coreReg c 0x1B0) 15 0
/-- TGT of a partition. -/
def State.targetGen (s : State) (p : PartId) : Nat := bitsOf (s.part p).fwstat 31 16

/-! ### Accesses of an agent's instruction -/

/-- Bytes that the executing agent's instruction needs: a miss parks and the instruction waits; a fault enters the handler. -/
def State.withBytes (s : State) (m : EngMeet) (k : Kind) (act : State → State) : State :=
  match s.curFetcher, m with
  | some f, .miss va => (s.parkOnce { a := s.cur, part := s.agentPart s.cur, asid := s.agentAsid s.cur } va k (.memop f 0)).waitOn .remoteLoad
  | _, .fault c va => s.raiseAfar s.cur c va 0 s.word s.spc
  | _, _ => act s

/-- The executing agent as an engine. -/
def State.curEng (s : State) : EngId := { a := s.cur, part := s.agentPart s.cur, asid := s.agentAsid s.cur }

/-- The core whose puppet slot executes. -/
def State.curCore (s : State) : CoreRef := agentCore s.cur

/-- The form of a privileged instruction (R56, R73). -/
def agentForm (reads : List (BitVec 6)) (d : Option (BitVec 6)) : Form := { reads := reads, dest := d, slots := .puppetOnly }

/-! ### tkclaim (R171, R460) -/

/-- The identity of an agent, 1 to 1,152. -/
def agentId (c : CoreRef) : Word := BitVec.ofNat 64 (c.slice.val * 144 + c.core.val + 1)

/-- What a ticket operation leaves, and its result. -/
def ticketOp (mode : Nat) (id old limit : Word) : Word × Word :=
  match mode with
  | 0 => (if old < limit then old + 1 else old, old)
  | 1 => if old = 0 then (id, 0) else (old, old)
  | _ => if old = id then (0, 0) else (old, old)

/-- The offset of a ticket in the partition's chip scratchpad, when the address is one of it. -/
def State.ticketAt (s : State) (p : PartId) (a : Word) : Option Nat :=
  match s.placeOf s.cur (s.agentAsid s.cur) none a with
  | .chip q off => if q = p && a.toNat % 8 = 0 then some off else none
  | _ => none

/-- A claim of an agent whose generation is not TGT: the agent moves to that image instead (R460). -/
def State.switchAgent (s : State) (c : CoreRef) (p : PartId) : State :=
  ((s.startAgent c p (s.targetGen p) (BitVec.ofNat 64 (s.agentGen c))).modPuppet c fun a => { a with checked := bitsOf (s.part p).fwstat 33 32 == 2 }).agentArrived p

/-- An agent that runs the image it is to roll back to counts as returned at its next claim. -/
def State.noteReturn (s : State) (c : CoreRef) (p : PartId) : State :=
  if bitsOf (s.part p).fwstat 33 32 = 2 && !(s.core c).puppet.checked then
    (s.modPuppet c fun a => { a with checked := true }).agentArrived p
  else s

/-- `tkclaim`: an acq_rel at partition scope at the ticket's home. -/
def State.claim (s : State) (d a b : BitVec 6) (mode : Nat) : State :=
  s.issue (agentForm [a, b] (some d)) fun s =>
    let c := s.curCore
    let p := s.agentPart s.cur
    if s.agentGen c ≠ s.targetGen p then s.switchAgent c p
    else if !s.fenceDone 1#2 5 then s.waitOn .stall
    else
      match s.ticketAt p (s.sreg a) with
      | none => s.puppetFault c 0x05 s.spc
      | some off =>
        let s := s.noteReturn c p
        let old : Word := BitVec.ofNat 64 (bytesToNat (s.chipRead (.chip p off) 8))
        let r := ticketOp mode (agentId c) old (s.sreg b)
        (s.chipWrite (.chip p off) (natToBytes r.1.toNat 8)).result d r.2

/-- `tkclaim.count`. -/
def execTkclaimCount (d a b : BitVec 6) (s : State) : Host.Outcome State Fault Refusal := .next (s.claim d a b 0)
/-- `tkclaim.acq`. -/
def execTkclaimAcq (d a b : BitVec 6) (s : State) : Host.Outcome State Fault Refusal := .next (s.claim d a b 1)
/-- `tkclaim.rel`. -/
def execTkclaimRel (d a b : BitVec 6) (s : State) : Host.Outcome State Fault Refusal := .next (s.claim d a b 2)

/-! ### gplace (R172) -/

/-- The shape in a register, when it is within the limits of R26. -/
def shapeOf (x : Word) : Option (Nat × Nat) :=
  let w := bitsOf x 2 0
  let h := bitsOf x 5 3
  if 1 ≤ w && w ≤ 6 && 1 ≤ h && h ≤ 4 then some (w, h) else none

/-- `gplace`: reserves the first rectangle, d = p + 1. -/
def execGplace (d a b : BitVec 6) (s : State) : Host.Outcome State Fault Refusal :=
  .next (s.issue (agentForm [a, b] (some d)) fun s =>
    let c := s.curCore
    match shapeOf (s.sreg a) with
    | none => s.result d 0
    | some (w, h) =>
      match findRect (tabGet 0 (s.slice c.slice).occMap c.cluster) ((s.sreg b).extractLsb' 0 24) w h with
      | none => s.result d 0
      | some p => (s.setRect c.slice c.cluster p w h true).result d (BitVec.ofNat 64 (p + 1)))

/-- `gplace.rel`: clears the rectangle at p. DESIGN CHOICE (log 148): where the rectangle does not lie inside the cluster, which R172 leaves open,
bits that wrap into the next row are cleared too and those from 24 up do not exist. -/
def execGplaceRel (d a b : BitVec 6) (s : State) : Host.Outcome State Fault Refusal :=
  .next (s.issue (agentForm [a, b] (some d)) fun s =>
    let c := s.curCore
    match shapeOf (s.sreg a) with
    | none => s.result d 0
    | some (w, h) => (s.setRect c.slice c.cluster (bitsOf (s.sreg b) 4 0) w h false).result d 0)

/-! ### qslot (R173, R350) -/

/-- The status 2 of a MAP: the pending bit of the block's queue is cleared, and the queue-error event raised. -/
def State.mapRefused (s : State) (i : SliceId) (w : List W32) : State := (s.setPend i (qcIdx w) false).raiseSource i 0x2

/-- MAP into a slot: the statuses 1, 2, 4 in their order. A block that stands elsewhere than its directory entry says fails its check. -/
def State.slotMap (s : State) (d : BitVec 6) (i : SliceId) (n : Nat) (a : Word) : State :=
  let e := s.curEng
  if (s.qslot i n).state ≠ 0 then s.result d 1
  else if a.toNat % 128 ≠ 0 then (s.raiseSource i 0x2).result d 2
  else
    s.withBytes (s.meetBoth e a 128) 2 fun s =>
      let w := s.engWords e 1 a 32
      if !qcMapOk w then (s.mapRefused i w).result d 2
      else
        s.withBytes (s.meet e 1 (s.dirAddr i (qcIdx w)) 8) 1 fun s =>
          let entry := s.dirEntry i (qcIdx w)
          if !bitAt entry 0 || entryQcb entry ≠ a then (s.mapRefused i w).result d 2
          else if (s.slotOf i (qcIdx w)).isSome then s.result d 4
          else (s.mapSlot i n a w).result d 0

/-- An operand that breaks a must leaves the operation unpredictable (R6): free bits decide whether it is made, and else d is free and nothing
else happens. -/
def State.ifKept (s : State) (ok : Bool) (d : BitVec 6) (act : State → State) : State :=
  if ok then act s else if bitAt s.freeWord 0 then act s.draw else s.draw.result d s.draw.freeWord

/-- s[b][63:8] is zero, as R173 asks. -/
def slotNumberOk (x : Word) : Bool := bitsOf x 63 8 == 0

/-- `qslot.map`. -/
def execQslotMap (d a b : BitVec 6) (s : State) : Host.Outcome State Fault Refusal :=
  .next (s.issue (agentForm [a, b] (some d)) fun s => s.ifKept (slotNumberOk (s.sreg b)) d fun s =>
    s.slotMap d s.curCore.slice (bitsOf (s.sreg b) 7 0) (s.sreg a))

/-- UNMAP of a slot: it is unmapping while the block meets a miss (R339), and stays mapped when the block cannot be written. -/
def State.slotUnmap (s : State) (d : BitVec 6) (i : SliceId) (n : Nat) : State :=
  if (s.qslot i n).state = 0 then s.result d 3
  else
    let m := s.meetBoth s.curEng (s.qslot i n).qcba 128
    let moved : BitVec 2 := match m with | .fault _ _ => 1 | _ => 2
    (s.modSlot i n fun k => { k with state := moved }).withBytes m 2 fun s => (s.unmapSlot i n).result d 0

/-- `qslot.unmap`. -/
def execQslotUnmap (d a b : BitVec 6) (s : State) : Host.Outcome State Fault Refusal :=
  .next (s.issue (agentForm [a, b] (some d)) fun s =>
    s.ifKept (slotNumberOk (s.sreg b) && (s.sreg a).toNat % 128 == 0) d fun s => s.slotUnmap d s.curCore.slice (bitsOf (s.sreg b) 7 0))

/-- `qslot.stat`. -/
def execQslotStat (d a b : BitVec 6) (s : State) : Host.Outcome State Fault Refusal :=
  .next (s.issue (agentForm [b] (some d)) fun s =>
    let _ := a
    s.ifKept (slotNumberOk (s.sreg b)) d fun s => s.result d (s.slotWord' s.curCore.slice (bitsOf (s.sreg b) 7 0)))

/-! ### rcbld (R174) -/

/-- `rcbld` of one word. -/
def State.loadRcb (s : State) (d a : BitVec 6) (bw : Bool) : State :=
  s.issue (agentForm [a] (some d)) fun s =>
    match s.rcbWalk s.curEng (s.sreg a) with
    | .ok ns => s.result d (rcbValue ns bw)
    | .bad => s.puppetFault s.curCore 0x06 s.spc
    | .meets m => s.withBytes m 1 fun s => s

/-- `rcbld`. -/
def execRcbld (d a : BitVec 6) (s : State) : Host.Outcome State Fault Refusal := .next (s.loadRcb d a false)
/-- `rcbld.bw`. -/
def execRcbldBw (d a : BitVec 6) (s : State) : Host.Outcome State Fault Refusal := .next (s.loadRcb d a true)

/-! ### evwait (R175, R340) -/

/-- Some slot of a slice is mapped. -/
def State.anyMapped (s : State) (i : SliceId) : Bool := (s.slice i).slots.any fun e => e.2.state != 0

/-- Some other agent of the slice is at work. -/
def State.otherUnparked (s : State) (c : CoreRef) : Bool :=
  (s.coresOf c.slice).any fun k => k != c && (let p := (s.core k).puppet; p.running && !p.parked && !p.stopped)

/-- `evwait`: the oldest event, 0xFF after an overflow; with none the agent parks, or reads 0. -/
def State.eventWait (s : State) (d : BitVec 6) (poll : Bool) : State :=
  s.issue (agentForm [] (some d)) fun s =>
    let c := s.curCore
    let p := (s.core c).puppet
    if p.overflow then (s.modPuppet c fun p => { p with overflow := false }).result d 0xFF
    else
      match p.events with
      | e :: es => (s.modPuppet c fun p => { p with events := es }).result d e
      | [] =>
        if poll || (s.anyMapped c.slice && !s.otherUnparked c) then s.result d 0
        else (s.modPuppet c fun p => { p with parked := true }).waitOn .event

/-- `evwait`. -/
def execEvwait (d : BitVec 6) (s : State) : Host.Outcome State Fault Refusal := .next (s.eventWait d false)
/-- `evwait.poll`. -/
def execEvwaitPoll (d : BitVec 6) (s : State) : Host.Outcome State Fault Refusal := .next (s.eventWait d true)

/-! ### iret and opreq (R170) -/

/-- `iret`: the return from the agent's handler. -/
def execIret (s : State) : Host.Outcome State Fault Refusal :=
  .next (s.issue (agentForm [] none) fun s =>
    let c := s.curCore
    (s.setCoreReg c 0x103 (putBit (s.coreReg c 0x103) 8 false)).setSpc (s.coreReg c 0x105))

/-- The slices that an `opreq` names; `none` when the request is refused. -/
def State.opreqSlices (s : State) (x : Word) : Option (List SliceId) :=
  let i := s.curCore.slice
  let is := if bitsOf x 15 8 = 0 then [i] else allSlices.filter fun k => bitAt x (8 + k.val)
  if bitsOf x 7 3 ≠ 0 || bitsOf x 63 16 ≠ 0 || bitsOf x 2 0 = 0 || !is.all (s.member (s.agentPart s.cur)) then none else some is

/-- `opreq`. -/
def execOpreq (d a : BitVec 6) (s : State) : Host.Outcome State Fault Refusal :=
  .next (s.issue (agentForm [a] (some d)) fun s =>
    match s.opreqSlices (s.sreg a) with
    | none => s.result d 0
    | some is =>
      let t := s.requestPoints is ((s.sreg a).extractLsb' 0 3)
      let i := if is.contains s.curCore.slice then s.curCore.slice else is.headD 0
      t.result d (t.sliceReg i 0x400))

end Sys2Proof.Machine
end

