-- ==== Sys2Proof/Machine/Arith.lean ====
section
/-! DEFINITION. Scalar arithmetic and logic (R148, R149, R150). -/

namespace Sys2Proof.Machine

/-! ### Shared results -/

/-- The number of leading zeros of a word; 64 for 0. -/
def clzWord (x : Word) : Nat := if x = 0 then 64 else 63 - Nat.log2 x.toNat
/-- The number of trailing zeros of a word; 64 for 0. -/
def ctzWord (x : Word) : Nat := ((List.range 64).find? (bitAt x)).getD 64
/-- The number of ones in a word. -/
def popcWord (x : Word) : Nat := ((List.range 64).filter (bitAt x)).length
/-- The shift count of a word. -/
def shiftOf (y : Word) : Nat := bitsOf y 5 0

/-- Signed division, truncating; by zero it gives −1 (R148). -/
def divS (x y : Word) : Word := if y = 0 then -1 else ofInt 64 (Int.tdiv x.toInt y.toInt)
/-- Unsigned division; by zero it gives all ones. -/
def divU (x y : Word) : Word := if y = 0 then BitVec.allOnes 64 else BitVec.ofNat 64 (x.toNat / y.toNat)
/-- Signed remainder with the sign of the dividend; by zero it gives the dividend. -/
def remS (x y : Word) : Word := if y = 0 then x else ofInt 64 (x.toInt - y.toInt * Int.tdiv x.toInt y.toInt)
/-- Unsigned remainder; by zero it gives the dividend. -/
def remU (x y : Word) : Word := if y = 0 then x else BitVec.ofNat 64 (x.toNat % y.toNat)
/-- Bits [127:64] of the signed product. -/
def mulHighS (x y : Word) : Word := ofInt 64 ((x.toInt * y.toInt) / 2 ^ 64)
/-- Bits [127:64] of the unsigned product. -/
def mulHighU (x y : Word) : Word := BitVec.ofNat 64 (x.toNat * y.toNat / 2 ^ 64)

/-- A two-source instruction: d receives a function of s[a] and s[b]. -/
def State.alu (s : State) (d a b : BitVec 6) (f : Word → Word → Word) : State :=
  s.issue (form3 d a b) fun s => s.result d (f (s.sreg a) (s.sreg b))

/-- A one-source instruction: d receives a function of s[a]. -/
def State.alu1 (s : State) (d a : BitVec 6) (f : Word → Word) : State :=
  s.issue (form2 d a) fun s => s.result d (f (s.sreg a))

/-! ### Major 0x01 (R148) -/

/-- `add`. -/
def execAdd (d a b : BitVec 6) (s : State) : Host.Outcome State Fault Refusal := .next (s.alu d a b fun x y => x + y)
/-- `sub`. -/
def execSub (d a b : BitVec 6) (s : State) : Host.Outcome State Fault Refusal := .next (s.alu d a b fun x y => x - y)
/-- `and`. -/
def execAnd (d a b : BitVec 6) (s : State) : Host.Outcome State Fault Refusal := .next (s.alu d a b fun x y => x &&& y)
/-- `or`. -/
def execOr (d a b : BitVec 6) (s : State) : Host.Outcome State Fault Refusal := .next (s.alu d a b fun x y => x ||| y)
/-- `xor`. -/
def execXor (d a b : BitVec 6) (s : State) : Host.Outcome State Fault Refusal := .next (s.alu d a b fun x y => x ^^^ y)
/-- `shl`. -/
def execShl (d a b : BitVec 6) (s : State) : Host.Outcome State Fault Refusal := .next (s.alu d a b fun x y => x <<< shiftOf y)
/-- `shr`. -/
def execShr (d a b : BitVec 6) (s : State) : Host.Outcome State Fault Refusal := .next (s.alu d a b fun x y => x >>> shiftOf y)
/-- `sra`. -/
def execSra (d a b : BitVec 6) (s : State) : Host.Outcome State Fault Refusal :=
  .next (s.alu d a b fun x y => x.sshiftRight (shiftOf y))
/-- `mul`. -/
def execMul (d a b : BitVec 6) (s : State) : Host.Outcome State Fault Refusal := .next (s.alu d a b fun x y => x * y)
/-- `mulh`. -/
def execMulh (d a b : BitVec 6) (s : State) : Host.Outcome State Fault Refusal := .next (s.alu d a b mulHighS)
/-- `mulhn`. -/
def execMulhn (d a b : BitVec 6) (s : State) : Host.Outcome State Fault Refusal := .next (s.alu d a b mulHighU)
/-- `div`. -/
def execDiv (d a b : BitVec 6) (s : State) : Host.Outcome State Fault Refusal := .next (s.alu d a b divS)
/-- `divn`. -/
def execDivn (d a b : BitVec 6) (s : State) : Host.Outcome State Fault Refusal := .next (s.alu d a b divU)
/-- `rem`. -/
def execRem (d a b : BitVec 6) (s : State) : Host.Outcome State Fault Refusal := .next (s.alu d a b remS)
/-- `remn`. -/
def execRemn (d a b : BitVec 6) (s : State) : Host.Outcome State Fault Refusal := .next (s.alu d a b remU)
/-- `min`. -/
def execMin (d a b : BitVec 6) (s : State) : Host.Outcome State Fault Refusal :=
  .next (s.alu d a b fun x y => if y.slt x then y else x)
/-- `max`. -/
def execMax (d a b : BitVec 6) (s : State) : Host.Outcome State Fault Refusal :=
  .next (s.alu d a b fun x y => if x.slt y then y else x)
/-- `minn`. -/
def execMinn (d a b : BitVec 6) (s : State) : Host.Outcome State Fault Refusal :=
  .next (s.alu d a b fun x y => if y < x then y else x)
/-- `maxn`. -/
def execMaxn (d a b : BitVec 6) (s : State) : Host.Outcome State Fault Refusal :=
  .next (s.alu d a b fun x y => if x < y then y else x)
/-- `slt`. -/
def execSlt (d a b : BitVec 6) (s : State) : Host.Outcome State Fault Refusal := .next (s.alu d a b fun x y => boolWord (x.slt y))
/-- `sltn`. -/
def execSltn (d a b : BitVec 6) (s : State) : Host.Outcome State Fault Refusal :=
  .next (s.alu d a b fun x y => boolWord (decide (x < y)))
/-- `seq`. -/
def execSeq (d a b : BitVec 6) (s : State) : Host.Outcome State Fault Refusal := .next (s.alu d a b fun x y => boolWord (x == y))
/-- `clz`. -/
def execClz (d a : BitVec 6) (s : State) : Host.Outcome State Fault Refusal := .next (s.alu1 d a fun x => BitVec.ofNat 64 (clzWord x))
/-- `ctz`. -/
def execCtz (d a : BitVec 6) (s : State) : Host.Outcome State Fault Refusal := .next (s.alu1 d a fun x => BitVec.ofNat 64 (ctzWord x))
/-- `popc`. -/
def execPopc (d a : BitVec 6) (s : State) : Host.Outcome State Fault Refusal :=
  .next (s.alu1 d a fun x => BitVec.ofNat 64 (popcWord x))
/-- `sel`: d is read as the condition, then written. -/
def execSel (d a b : BitVec 6) (s : State) : Host.Outcome State Fault Refusal :=
  .next (s.issue { reads := [d, a, b], dest := some d } fun s => s.result d (if s.sreg d ≠ 0 then s.sreg a else s.sreg b))

/-! ### Immediate forms and the scaled add (R149, R150) -/

/-- `addi`. -/
def execAddi (d a : BitVec 6) (i : BitVec 14) (s : State) : Host.Outcome State Fault Refusal :=
  .next (s.alu1 d a fun x => x + i.signExtend 64)
/-- `andi`. -/
def execAndi (d a : BitVec 6) (i : BitVec 14) (s : State) : Host.Outcome State Fault Refusal :=
  .next (s.alu1 d a fun x => x &&& i.setWidth 64)
/-- `ori`. -/
def execOri (d a : BitVec 6) (i : BitVec 14) (s : State) : Host.Outcome State Fault Refusal :=
  .next (s.alu1 d a fun x => x ||| i.setWidth 64)
/-- `xori`. -/
def execXori (d a : BitVec 6) (i : BitVec 14) (s : State) : Host.Outcome State Fault Refusal :=
  .next (s.alu1 d a fun x => x ^^^ i.setWidth 64)
/-- `shli`. -/
def execShli (d a sh : BitVec 6) (s : State) : Host.Outcome State Fault Refusal := .next (s.alu1 d a fun x => x <<< sh.toNat)
/-- `shri`. -/
def execShri (d a sh : BitVec 6) (s : State) : Host.Outcome State Fault Refusal := .next (s.alu1 d a fun x => x >>> sh.toNat)
/-- `srai`. -/
def execSrai (d a sh : BitVec 6) (s : State) : Host.Outcome State Fault Refusal :=
  .next (s.alu1 d a fun x => x.sshiftRight sh.toNat)
/-- `slti`. -/
def execSlti (d a : BitVec 6) (i : BitVec 14) (s : State) : Host.Outcome State Fault Refusal :=
  .next (s.alu1 d a fun x => boolWord (x.slt (i.signExtend 64)))
/-- `ldi`. -/
def execLdi (d : BitVec 6) (i : BitVec 20) (s : State) : Host.Outcome State Fault Refusal :=
  .next (s.issue { dest := some d } fun s => s.result d (i.signExtend 64))
/-- `ldu`: d is read as a source. -/
def execLdu (d : BitVec 6) (i : BitVec 20) (s : State) : Host.Outcome State Fault Refusal :=
  .next (s.issue (form2 d d) fun s => s.result d ((s.sreg d <<< 20) ||| i.setWidth 64))
/-- `adda`. -/
def execAdda (d a b : BitVec 6) (k : BitVec 3) (s : State) : Host.Outcome State Fault Refusal :=
  .next (s.alu d a b fun x y => x + (y <<< k.toNat))

end Sys2Proof.Machine
end

