-- ==== Sys2Proof/Machine/Exchange.lean ====
section
/-! DEFINITION. Exchange between clusters: `xpair` and its posts (R223), `xswap` (R224, R225), and their events. -/

namespace Sys2Proof.Machine

/-! ### Pairing (R223) -/

/-- The token of a post that pairs with a group. -/
def pairedToken (g : GroupRef) : Word :=
  BitVec.ofNat 64 (1 + g.core.val * 256 + g.slot.val * 65536 + g.at.cluster * 2 ^ 21 + g.slice.val * 2 ^ 24)

/-- Two posts match: each names the slice and cluster in which the other was made. -/
def Post.matches' (x y : Post) : Bool :=
  x.key == y.key && x.part == y.part && x.toSlice == y.fromSlice && x.toCluster.toNat == y.fromCluster
    && y.toSlice == x.fromSlice && y.toCluster.toNat == x.fromCluster

/-- The posts that a slice's pair table holds. -/
def State.posts (s : State) (i : SliceId) : List Post := (s.slice i).pairTab.filter (·.answer.isNone)

/-- The oldest waiting post that a new one matches. -/
def State.matchOf (s : State) (p : Post) : Option Post := (s.posts p.toSlice).find? p.matches'

/-- Takes a post away. -/
def State.dropPost (s : State) (i : SliceId) (id : Nat) : State :=
  s.modSlice i fun k => { k with pairTab := k.pairTab.filter fun q => q.id != id }

/-- A post leaves its table with what its token takes. -/
def State.answerPost (s : State) (x : Post) (v : Word) : State :=
  s.modSlice x.fromSlice fun k =>
    { k with pairTab := (k.pairTab.filter fun q => q.id != x.id) ++ [{ x with answer := some v }] }

/-- Writes the tokens of the posts of a slice that have left the table, when they can be written. -/
def State.writePosts (s : State) (i : SliceId) : State :=
  (s.slice i).pairTab.foldl (fun s x =>
    match x.answer with
    | some v => if s.tokenReady x.token then (s.dropPost i x.id).putToken x.token v false else s
    | none => s) s

/-- One half of a new pair, at the group behind a post: the group itself, or its saved section. A pair that a group still holds ends. -/
def State.joinPair (s : State) (x : Post) (id : Nat) (partner : GroupRef) : State :=
  let new : Pair := { id := id, key := x.key, partner := partner }
  match x.token with
  | .area _ sect _ =>
    let mine (a : SavedArea) (y : SavedGroup) : Bool := a.part == x.part && y.sect == sect
    let olds := s.saved.flatMap fun a => (a.groups.filter (mine a)).filterMap (·.v.pair)
    let join (v : Group) : Group := { (match v.pair with | some p => v.settleSwaps p | none => v) with pair := some new }
    let s := { s with saved := s.saved.map fun (a : SavedArea) =>
      { a with groups := a.groups.map fun (y : SavedGroup) => if mine a y then { y with v := join y.v } else y } }
    olds.foldl (fun s p => s.endHalves p.id) s
  | .reg f _ =>
    let g := (fetcherGroup f).getD x.g
    (s.endPair g).modGroup g fun v => { v with pair := some new }
  | .none => s

/-- Two posts pair: both groups take their half, and both tokens are written. -/
def State.pairUp (s : State) (x y : Post) : State :=
  let id := s.nextId
  let s := (s.takeId.joinPair x id y.g).joinPair y id x.g
  (((s.answerPost x (pairedToken y.g)).answerPost y (pairedToken x.g)).writePosts x.fromSlice).writePosts y.fromSlice

/-- `xpair` when it issues: the group's pair ends, and the post is answered, paired or entered in the table. -/
def State.doXpair (s : State) (g : GroupRef) (d : BitVec 6) (a : Word) (key : W32) : State :=
  let s := s.endPair g
  let cl := a.extractLsb' 0 3
  let p : Post := { id := s.nextId, g := g, fromSlice := g.slice, fromCluster := g.at.cluster, key := key, part := (s.group g).part,
                    toSlice := idx 8 (bitsOf a 5 3), toCluster := cl, token := .reg (.scalar g) d, posted := s.now }
  let answer (s : State) (st : Nat) : State := s.writeToken (.scalar g) d (BitVec.ofNat 64 st) false
  if bitsOf a 63 6 ≠ 0 || 5 < cl.toNat || !s.member p.part p.toSlice || (p.toSlice = g.slice && cl.toNat = g.at.cluster) then answer s 0x82
  else
    match s.matchOf p with
    | some q => s.takeId.pairUp p q
    | none =>
      if 64 ≤ (s.posts g.slice).length then answer s 0x81
      else s.takeId.modSlice g.slice fun k => { k with pairTab := k.pairTab ++ [p] }

/-- `xpair` (R223). -/
def execXpair (d a b : BitVec 6) (s : State) : Host.Outcome State Fault Refusal :=
  .next (s.issue { reads := [a, b], token := some d, slots := .groupOnly } fun s =>
    match s.cur with
    | .scalar g => ((s.setPending d).doXpair g d (s.sreg a) ((s.sreg b).extractLsb' 0 32)).advance
    | _ => s)

/-- A post has waited 1,000,000 ptick without a match. -/
def State.endPost (s : State) (slice : SliceId) (id : Nat) : State :=
  match (s.posts slice).find? fun q => q.id == id with
  | some q => if s.passed q.posted 1000000 then (s.answerPost q 0x80).writePosts slice else s
  | none => s

/-- The timeout of a post. -/
def execXpairTimeout (slice : SliceId) (id : Nat) (s : State) : Host.Outcome State Fault Refusal := .next (s.endPost slice id)

/-! ### xswap (R224, R225) -/

/-- Sends source A of a group's pair to the other half (step 1 of R224). -/
def State.sendSwap (s : State) (g : GroupRef) (p : Pair) (a : List Word) : State :=
  let s := s.modGroup g fun v => { v with pair := some { p with sends := p.sends + 1 } }
  if p.ended then s
  else s.otherHalf g p.id fun q => { q with unmatched := q.unmatched ++ [a] }

/-- What the n-th `xswap` of a group completes with: the value that has arrived for it, or zeros when none can arrive any more, with the
pair after it. -/
def Group.swapValue (v : Group) (n : Nat) (given : Option (List Word)) : Option (List Word × Option Pair) :=
  match given, v.pair with
  | some vals, _ => some (vals, v.pair)
  | none, none => some ([], none)
  | none, some p =>
    if n ≠ p.recvs + 1 then none
    else
      match p.unmatched with
      | vals :: rest => some (vals, some { p with recvs := n, unmatched := rest })
      | [] => if p.ended then some ([], some { p with recvs := n }) else none

/-- `xswap`: it sends at its issue, for all 96 lanes, and waits for the partner's value. With no pair it completes at once with 0. -/
def State.doXswap (s : State) (w : LaneWord) : State :=
  s.laneWaiting (.xswap w) w
    (fun x t =>
      match (t.group x.g).pair with
      | none => (t, .swap 0 t.now.toNat (some []))
      | some p => (t.sendSwap x.g p x.a.vals, .swap (p.sends + 1) t.now.toNat none))
    fun x h t =>
      match h.kind with
      | .swap n _ given =>
        (match (t.group x.g).swapValue n given with
         | some (vals, p) => (t.modGroup x.g fun v => { v with pair := p }).laneDone x h w vals
         | none => t)
      | _ => t

/-- `xswap`. -/
def execXswap (w : LaneWord) (s : State) : Host.Outcome State Fault Refusal := .next (s.doXswap w)

/-- The partner's value arrives at a split that waits for it. -/
def execXswapArrival (g : GroupRef) (split : Fin 4) (s : State) : Host.Outcome State Fault Refusal :=
  .next (match s.laneFetch g split, (s.group g).heldOf split.val with
    | .ok ws, some h =>
      (match decodeLaneWords ws, h.kind with
       | some (.ok (.xswap w)), .swap _ _ _ =>
         if (s.group g).st == .active then { ({ s with cur := .lane g split }).doXswap w with cur := s.cur } else s
       | _, _ => s)
    | _, _ => s)

end Sys2Proof.Machine
end

