-- ==== Sys2Proof/Machine/Halts.lean ====
section
/-! DEFINITION. What follows a halt: stop records and their header (R423 to R425, R504), the reset of a fault domain (R428, R353), and the
commands on fault domains but DUMP and LOAD (R426, R427, R439, R440). -/

namespace Sys2Proof.Machine

/-! ### Domains -/

/-- The words of a domain's RCB, when it can be read (R375). -/
def State.domainRcb (s : State) (p : PartId) (dom : Word) : Option (List W32) :=
  if s.meet (partEng p) 1 dom 256 = .ok then some (s.engWords (partEng p) 1 dom 64) else none

/-- The hardware knows the domain: from a grid, a saved area or a halt. -/
def State.knowsDomain (s : State) (p : PartId) (dom : Word) : Bool :=
  s.grids.any (fun e => e.2.inDomain p dom) || s.saved.any (fun a => a.part == p && a.doms.contains dom)
    || s.halts.any fun h => h.part == p && h.dom == dom

/-- An address names a fault domain of the partition (R29). -/
def State.domainExists (s : State) (p : PartId) (dom : Word) : Bool :=
  s.knowsDomain p dom ||
    (match s.rcbWalk (partEng p) dom with
     | .ok ((_, w) :: _) => rcbFd w || rcbLevel w == 0
     | _ => false)

/-- The first domain lies in the second's subtree, as far as a grid or an area shows it. -/
def State.domainWithin (s : State) (p : PartId) (inner outer : Word) : Bool :=
  let chain (ds : List Word) : Bool := ds.contains inner && (ds.dropWhile (· != inner)).contains outer
  inner == outer || s.grids.any (fun e => e.2.part == p && chain e.2.domains) || s.saved.any fun a => a.part == p && chain a.doms

/-! ### Stop records (R423 to R425, R504) -/

/-- The record of a stopped group (KIND 1). -/
def State.groupRecord (s : State) (g : GroupRef) : List W32 :=
  let v := s.group g
  let tok := v.sc.pend ||| v.sc.loadPend
  let bit (b : Bool) (n : Nat) : Nat := if b then 2 ^ n else 0
  [BitVec.ofNat 32 (1 + v.faultCode.toNat * 256 + bit v.origin 16 + bit v.faultPrec 17 + bit v.faultLane 18 + v.faultSplit.val * 2 ^ 19),
   BitVec.ofNat 32 (g.core.val + g.slot.val * 256 + g.slice.val * 8192),
   ((s.wgOf g).map (·.idx)).getD 0,
   if v.faultLane then (v.split v.faultSplit.val).pc.setWidth 32 else 0,
   v.sc.spc.extractLsb' 0 32, v.sc.spc.extractLsb' 32 32, v.faultAddr.extractLsb' 0 32, v.faultAddr.extractLsb' 32 32,
   tok.extractLsb' 0 32, tok.extractLsb' 32 32,
   BitVec.ofNat 32 (v.stopBatch.toNat + min 255 v.stopAsync * 2 ^ 16 + v.faultDetail.toNat * 2 ^ 24),
   v.faultInstr, v.stoppedAt.extractLsb' 0 32, v.stoppedAt.extractLsb' 32 32, 0]

/-- The record of an engine or of a save (KIND 2 to 5). -/
def StopUnit.words (u : StopUnit) : List W32 :=
  [BitVec.ofNat 32 (u.kind + u.cause.toNat * 256 + (if u.origin then 2 ^ 16 else 0)),
   BitVec.ofNat 32 (u.g.core.val + u.g.slot.val * 256 + u.g.slice.val * 8192), u.wg, 0, u.pc.extractLsb' 0 32, u.pc.extractLsb' 32 32,
   u.addr.extractLsb' 0 32, u.addr.extractLsb' 32 32, 0, 0, BitVec.ofNat 32 (u.detail.toNat * 2 ^ 24), u.instr,
   u.time.extractLsb' 0 32, u.time.extractLsb' 32 32, 0]

/-- Words 0 to 14 with their check code in word 15. -/
def sealed (ws : List W32) : List W32 := ws ++ [(crcWords ws).setWidth 32]

/-- A record to be written: where its unit stands, whether it raised the halt in the halt's own ptick, and its words. -/
structure StopRec where
  g      : GroupRef
  raised : Bool
  words  : List W32

/-- One place before another: lower slice, core, slot. -/
def refBefore (a b : GroupRef) : Bool :=
  if a.slice ≠ b.slice then decide (a.slice < b.slice) else if a.core ≠ b.core then decide (a.core < b.core) else decide (a.slot < b.slot)

/-- The records that a halt has still to write: groups whose record does not stand, and units. -/
def State.dueRecords (s : State) (h : Halt) : List StopRec :=
  let gs := (s.domainGroups h.part h.dom).filter fun g => (s.group g).halted && !h.recorded.contains g
  (gs.map fun g => { g := g, raised := (s.group g).origin && (s.group g).faultAt == h.at', words := s.groupRecord g : StopRec })
    ++ (h.units.drop h.unitsDone).map fun u => { g := u.g, raised := u.origin && u.time == h.at', words := u.words : StopRec }

/-- The record that FIRST names among those of the halt's own ptick, as an index. -/
def firstOfRecords : List (Nat × StopRec) → Option (Nat × StopRec)
  | [] => none
  | x :: xs =>
    match firstOfRecords xs with
    | none => if x.2.raised then some x else none
    | some y => if x.2.raised && refBefore x.2.g y.2.g then some x else some y

/-- The header of a stop area. -/
def stopHeader (h : Halt) (done : Word) (gen : W32) : List W32 :=
  sealed ([BitVec.ofNat 32 (1 + h.cause.toNat * 256), BitVec.ofNat 32 h.count, BitVec.ofNat 32 h.dropped, h.first,
    h.at'.extractLsb' 0 32, h.at'.extractLsb' 32 32, done.extractLsb' 0 32, done.extractLsb' 32 32, gen] ++ List.replicate 6 0)

/-- Stores and atomics of a halted domain's groups that have not been performed are discarded whole (R316, R422). -/
def State.discardStores (s : State) (h : Halt) : State :=
  (s.domainGroups h.part h.dom).foldl (fun s g =>
    s.modGroup g fun v => { v with sc := { v.sc with memq := v.sc.memq.filter fun o => o.kind.reads } }) s

/-- Writes the records at their places in the area; those beyond STOPN are not written. -/
def State.writeRecords (s : State) (p : PartId) (area : Word) (room : Nat) : List (Nat × StopRec) → State
  | [] => s
  | (n, r) :: rest =>
    let s := if n < room then (s.engWrite (partEng p) (area + BitVec.ofNat 64 (64 * (n + 1))) (wordsToBytes (sealed r.words))).1 else s
    s.writeRecords p area room rest

/-- Where the records of a halt go: nowhere, or the area with its room; or what reaching it meets. -/
inductive StopArea where
  | none
  | at' (a : Word) (room : Nat)
  | meets (va : Word) (k : Kind)

/-- The stop area of a domain. An area that cannot be reached for a fault takes nothing. -/
def State.stopArea (s : State) (h : Halt) : StopArea :=
  let e := partEng h.part
  match s.meet e 1 h.dom 256 with
  | .miss va => .meets va 1
  | .fault _ _ => .none
  | .ok =>
    let w := s.engWords e 1 h.dom 64
    let a := dwordAt w 12
    let n := (wordAt w 14).toNat
    let need := min n (h.count + (s.dueRecords h).length)
    if a = 0 then .none
    else
      match s.meetBoth e a (64 * (need + 1)) with
      | .miss va => .meets va 2
      | .fault _ _ => .none
      | .ok => .at' a n

/-- Replaces a halt. -/
def State.setHalt (s : State) (h : Halt) : State :=
  { s with halts := s.halts.map fun x => if x.part = h.part && x.dom = h.dom then h else x }

/-- Writes the due records of a halt, and then its header as a release at `.sys`; source 0x5 follows (R425). -/
def State.writeHalt (s : State) (h : Halt) (a : Option (Word × Nat)) : State :=
  let s := s.discardStores h
  let due := s.dueRecords h
  let recs := due.zipIdx.map fun e => (h.count + e.2, e.1)
  let room := (a.map (·.2)).getD 0
  let h' : Halt :=
    { h with count := h.count + due.length,
             dropped := h.dropped + (recs.filter fun e => decide (room ≤ e.1)).length,
             first := if h.written || 0x20 ≤ h.cause.toNat then h.first else
               (match firstOfRecords recs with
                | some (n, _) => if n < room then BitVec.ofNat 32 n else h.first
                | none => h.first),
             written := true, unitsDone := h.units.length,
             recorded := h.recorded ++ ((s.domainGroups h.part h.dom).filter fun g => (s.group g).halted && !h.recorded.contains g) }
  let s := s.setHalt h'
  let s := match a with
    | none => s
    | some (area, n) =>
      let old := wordAt (s.engWords (partEng h.part) 1 (area + 32) 1) 0
      let s := s.writeRecords h.part area n recs
      (s.engWrite (partEng h.part) area (wordsToBytes (stopHeader h' s.now (if h.written then old else old + 1)))).1
  s.raisePartSource h.part 0x5

/-- An all-or-nothing store of the domain that has begun is still at work. -/
def State.storeBegun (s : State) (h : Halt) : Bool := s.asyncs.any fun o => s.ofDomain h.part h.dom o && o.whole

/-- The stop records of a halt are written (R423 to R425). The same event adds the record of a fault that arrives from afar after the
header. -/
def execHaltStopRecords (part : PartId) (dom : Word) (s : State) : Host.Outcome State Fault Refusal :=
  .next (match s.halts.find? fun h => h.part == part && h.dom == dom with
    | none => s
    | some h =>
      if s.storeBegun h || (h.written && (s.dueRecords h).isEmpty) then s
      else
        match s.stopArea h with
        | .meets va k =>
          (match s.lowestSlice part with
           | some i => s.parkOnce (partEng part) va k (.save ⟨i, 0⟩)
           | none => s)
        | .none => s.writeHalt h none
        | .at' a n => s.writeHalt h (some (a, n)))

/-! ### The reset of a domain (R428) -/

/-- A requester is a group, or an operation of a group, of a domain. -/
def State.reqInDomain (s : State) (p : PartId) (dom : Word) (r : Requester) : Bool :=
  let ofGroup (g : GroupRef) : Bool := (s.group g).st != .free && (s.gridOf g).inDomain p dom
  match r with
  | .memop f _ => ((fetcherGroup f).map ofGroup).getD false
  | .fetch f => ((fetcherGroup f).map ofGroup).getD false
  | .asyncOp id => s.asyncs.any fun o => o.id == id && s.ofDomain p dom o
  | .matop c id => (s.core c).mops.any fun o => o.id == id && ofGroup ⟨c.slice, c.core, o.slot⟩
  | .queue _ _ _ => false
  | .saved q id => q == p && s.saved.any fun a => a.part == p && a.doms.contains dom && a.groups.any fun x => x.v.sc.memq.any (·.id == id)
  | .save _ => false

/-- Bog entries and waiting misses of a domain are discarded without fault. -/
def State.dropParked (s : State) (p : PartId) (dom : Word) : State :=
  let gone (e : BogEntry) : Bool := e.used && s.reqInDomain p dom e.who
  allSlices.foldl (fun t i =>
    t.modSlice i fun k =>
      { k with bog := k.bog.filter fun e => !gone e.2, missq := k.missq.filter fun e => !gone e,
               heldRecs := k.heldRecs.filter fun e => !gone e.2 }) s

/-- The workgroups of a domain on a core are freed, with their queues and those that an exited workgroup of its neighbourhoods has left (R320,
R330), and the domain's spawn bins. -/
def State.resetCore (s : State) (p : PartId) (dom : Word) (c : CoreRef) : State :=
  let mine (n : Nat) : Bool := (tabGet {} s.grids n).inDomain p dom
  let ns := ((s.core c).wgs.filter fun e => mine e.2.grid).map (·.1)
  let s := ((s.slotsOf c).filter fun g => (s.group g).st != .free && mine (s.group g).grid).foldl (fun s g => (s.endPair g).dropPosts g) s
  let s := ns.foldl (fun s n => (s.freeWg c n).releaseQueues c fun q => q.owner == n) s
  let s := s.releaseQueues c fun q => match q.nbh.bind (tabFind s.nbhs) with | some nb => mine nb.grid | none => false
  s.modCore c fun k =>
    { k with bins := k.bins.filter fun e => !mine e.2.grid,
             preempt := if (k.preempt.state = 1 || k.preempt.state = 2) && ns.contains k.preempt.wg
               then { k.preempt with state := 3, result := 0x82, stamp := s.now } else k.preempt }

/-- Neighbourhoods of a domain go; the reservation bits of their cores that still wait are cleared. -/
def State.resetNbhs (s : State) (p : PartId) (dom : Word) : State :=
  s.nbhs.foldl (fun s e =>
    if (tabGet {} s.grids e.2.grid).inDomain p dom then
      let s := e.2.waitingK.foldl (fun s k => let c := e.2.coreAt k; s.setRect c.slice c.cluster c.inCluster 1 1 false) s
      { s with nbhs := tabDel s.nbhs e.1 }
    else s) s

/-- The saved areas of a domain are marked; their pairs end, their posts and loads go. -/
def State.resetAreas (s : State) (p : PartId) (dom : Word) : State :=
  let mine (a : SavedArea) : Bool := a.part == p && a.doms.contains dom
  let sects := (s.saved.filter mine).flatMap fun a => a.groups.map (·.sect)
  let ids := (s.saved.filter mine).flatMap fun a => a.groups.filterMap fun x => x.v.pair.map (·.id)
  let s := allSlices.foldl (fun s i => s.modSlice i fun k =>
    { k with pairTab := k.pairTab.filter fun x => match x.token with | .area q sect _ => !(q == p && sects.contains sect) | _ => true }) s
  let s := s.allGroups.foldl (fun s g => match (s.group g).pair with
    | some x => if ids.contains x.id then s.modGroup g fun v => { v with pair := some { x with ended := true } } else s
    | none => s) s
  let lost (x : SavedGroup) : SavedGroup :=
    match x.v.pair with
    | some y => if ids.contains y.id then { x with v := { x.v with pair := some { y with ended := true } } } else x
    | none => x
  { s with saved := s.saved.map fun a =>
      if mine a then { a with dead := true, groups := [], idxs := [] } else { a with groups := a.groups.map lost } }

/-- The first packet of a queue among some. -/
def firstOfQueue : List Started → List Started
  | [] => []
  | x :: xs => x :: (firstOfQueue xs).filter fun y => !(y.slice == x.slice && y.q == x.q)

/-- Each queue with a started LAUNCH of a domain stops once, those with an expired one first: the packet named is the expired one, else one whose
grid's fault raised the halt, else the first. The packets are incomplete for ever, and CSIG is not updated (R353, R428). -/
def State.stopLaunches (s : State) (p : PartId) (dom : Word) (code : Started → Nat) : State :=
  let mine (x : Started) : Bool := match x.grid with | some n => (tabGet {} s.grids n).inDomain p dom | none => false
  let xs := s.started.filter fun x => mine x && !x.due
  let s := { s with started := s.started.filter fun x => !(mine x && !x.due) }
  let of (c : Nat) : List Started := xs.filter fun x => code x == c
  (firstOfQueue (of 0x08 ++ of 0x07 ++ of 0x0A)).foldl (fun s x => s.stopQueue x.slice x.q (code x) x.pidx x.words true) s

/-- Resets a fault domain. -/
def State.resetDomain (s : State) (p : PartId) (dom : Word) (code : Started → Nat) : State :=
  let within := s.halts.filter fun h => h.part == p && s.domainWithin p h.dom dom
  let s := s.dropParked p dom
  let s := s.dropAsyncs (s.ofDomain p dom)
  let s := s.allCores.foldl (fun s c => s.resetCore p dom c) s
  let s := ((s.resetNbhs p dom).resetAreas p dom).stopLaunches p dom code
  let s := { s with grids := tabMap (fun _ (r : Grid) => if r.inDomain p dom then { r with ended := true, live := 0 } else r) s.grids }
  { s with halts := s.halts.filter fun h => !within.any fun x => x.part == h.part && x.dom == h.dom }

/-- The code with which a LAUNCH's queue stops at a reset: 0x07 when its grid raised the halt by a fault, else 0x0A. -/
def State.resetCode (s : State) (p : PartId) (dom : Word) (x : Started) : Nat :=
  if s.halts.any fun h => h.part == p && s.domainWithin p h.dom dom && h.raiser.isSome && h.raiser == x.grid then 0x07 else 0x0A

/-- Every halt that covers a domain has its records written. -/
def State.recordsDone (s : State) (p : PartId) (dom : Word) : Bool :=
  s.halts.all fun h => !(h.part == p && (s.domainWithin p dom h.dom || s.domainWithin p h.dom dom)) || (h.written && (s.dueRecords h).isEmpty)

/-! ### Commands (R426, R427) -/

/-- ACTION. -/
def fdAction (cmd : Word) : Nat := bitsOf cmd 3 0
/-- DOM as an address. -/
def fdDom (cmd : Word) : Word := BitVec.ofNat 64 (bitsOf cmd 39 8 * 65536)
/-- The group named. -/
def fdGroup (cmd : Word) : Option GroupRef :=
  if bitsOf cmd 47 40 < 144 then some ⟨idx 8 (bitsOf cmd 55 53), idx 144 (bitsOf cmd 47 40), idx 32 (bitsOf cmd 52 48)⟩ else none

/-- A command completes with a result. -/
def State.fdDone (s : State) (i : SliceId) (r : Nat) : State :=
  s.setSliceReg i 0x432 (BitVec.ofNat 64 (r * 256 + s.stampBits 48 * 65536))

/-- A command with an action, on a slice that has none in progress and for a domain that exists. -/
def State.fdCommand (s : State) (i : SliceId) (cmd : Word) (action : Nat) (act : PartId → Word → State) : State :=
  if fdAction cmd ≠ action || bitAt (s.sliceReg i 0x432) 0 then s
  else
    match s.partOf i with
    | none => s.fdDone i 0x80
    | some p => if s.domainExists p (fdDom cmd) then act p (fdDom cmd) else s.fdDone i 0x80

/-- HALT. -/
def execFdHalt (slice : SliceId) (cmd : Word) (s : State) : Host.Outcome State Fault Refusal :=
  .next (s.fdCommand slice cmd 1 fun p dom =>
    (if s.isHalted p [dom] then s else s.raiseHalt p dom 0x20 none).fdDone slice 0x01)

/-- A RESET in progress on a slice goes on once the stop records are written (R428). -/
def State.tryReset (s : State) (i : SliceId) : State :=
  let cmd := s.sliceReg i 0x430
  if !bitAt (s.sliceReg i 0x432) 0 || fdAction cmd ≠ 2 then s
  else
    match s.partOf i with
    | none => (s.setSliceReg i 0x430 0).fdDone i 0x80
    | some p =>
      if s.recordsDone p (fdDom cmd) then
        ((s.resetDomain p (fdDom cmd) (s.resetCode p (fdDom cmd))).setSliceReg i 0x430 0).fdDone i 0x01
      else s

/-- The domain, or one that holds it, is halted. -/
def State.domainHalted (s : State) (p : PartId) (dom : Word) : Bool := s.halts.any fun h => h.part == p && s.domainWithin p dom h.dom

/-- RESET: the domain is halted, and the reset follows its stop records. BUSY is set meanwhile. -/
def execFdReset (slice : SliceId) (cmd : Word) (s : State) : Host.Outcome State Fault Refusal :=
  .next (s.fdCommand slice cmd 2 fun p dom =>
    let s := (s.setSliceReg slice 0x432 (putBit (s.sliceReg slice 0x432) 0 true)).setSliceReg slice 0x430 cmd
    (if s.domainHalted p dom then s else s.raiseHalt p dom 0x20 none).tryReset slice)

/-- A debugger stop ends: the group is ready (R48). -/
def State.debugResume (s : State) (g : GroupRef) : State :=
  s.modGroup g fun v => { v with st := .ready, dbg := false, stepDone := false, readyAt := s.now, aged := false, stamp := s.now }

/-- ATTACH. -/
def execFdAttach (slice : SliceId) (cmd : Word) (s : State) : Host.Outcome State Fault Refusal :=
  .next (s.fdCommand slice cmd 3 fun p dom =>
    (s.modPart p fun q => if q.debuggers.contains dom then q else { q with debuggers := q.debuggers ++ [dom] }).fdDone slice 0x01)

/-- DETACH: groups stopped by the debugger are resumed. -/
def execFdDetach (slice : SliceId) (cmd : Word) (s : State) : Host.Outcome State Fault Refusal :=
  .next (s.fdCommand slice cmd 4 fun p dom =>
    let s := s.modPart p fun q => { q with debuggers := q.debuggers.filter (· != dom) }
    let gs := (s.domainGroups p dom).filter fun g => (s.group g).dbg && !(s.group g).halted
    (gs.foldl State.debugResume s).fdDone slice 0x01)

/-- A group action: a debugger is attached, and the group named is resident in the domain. -/
def State.fdOnGroup (s : State) (i : SliceId) (cmd : Word) (action : Nat) (act : GroupRef → State) : State :=
  s.fdCommand i cmd action fun p dom =>
    if !(s.part p).debuggers.contains dom then s.fdDone i 0x81
    else
      match fdGroup cmd with
      | none => s.fdDone i 0x82
      | some g =>
        if s.member p g.slice && (s.group g).resident && (s.gridOf g).inDomain p dom then act g else s.fdDone i 0x82

/-- An action on a group that the debugger has stopped; one stopped by a halt is refused. -/
def State.fdOnStopped (s : State) (i : SliceId) (cmd : Word) (action : Nat) (act : GroupRef → State) : State :=
  s.fdOnGroup i cmd action fun g =>
    if (s.group g).halted then s.fdDone i 0x83 else if (s.group g).dbg && (s.group g).st == .stopped then act g else s.fdDone i 0x82

/-- STOP (R439). A group being saved, or stopped already, stays as it is. -/
def execFdStop (slice : SliceId) (cmd : Word) (s : State) : Host.Outcome State Fault Refusal :=
  .next (s.fdOnGroup slice cmd 5 fun g =>
    (if (s.group g).st == .stopped || (s.group g).st == .saving then s else s.debugStop g).fdDone slice 0x01)

/-- RESUME. -/
def execFdResume (slice : SliceId) (cmd : Word) (s : State) : Host.Outcome State Fault Refusal :=
  .next (s.fdOnStopped slice cmd 6 fun g => (s.debugResume g).fdDone slice 0x01)

/-- SSTEP (R440). -/
def execFdSstep (slice : SliceId) (cmd : Word) (s : State) : Host.Outcome State Fault Refusal :=
  .next (s.fdOnStopped slice cmd 7 fun g => ((s.debugResume g).modGroup g fun v => { v with stepping := true }).fdDone slice 0x01)

/-- LSTEP: with nothing in the lane stream it completes at once. -/
def execFdLstep (slice : SliceId) (cmd : Word) (s : State) : Host.Outcome State Fault Refusal :=
  .next (s.fdOnStopped slice cmd 8 fun g =>
    (if (s.group g).laneIdle then s else (s.debugResume g).modGroup g fun v => { v with lstepping := true }).fdDone slice 0x01)

/-- The lane instructions of a group that have issued are complete, but for a `spawn` that has deposited what fits (R440). -/
def Group.stepHeldDone (v : Group) : Bool :=
  v.held.all fun h => match h.kind with | .spawn _ first => v.performedTo first | _ => false

/-- A step is over: its word or lane instruction has completed, or nothing is left for the lane stream to take (R440). -/
def execStepEnd (g : GroupRef) (s : State) : Host.Outcome State Fault Refusal :=
  .next (
    let v := s.group g
    if v.resident && v.st != .stopped && v.st != .saving
        && ((v.stepping && v.stepDone) || (v.lstepping && ((v.stepDone && v.stepHeldDone) || v.laneIdle))) then
      (s.modGroup g fun v => { v with stepDone := false }).debugStop g
    else s)

/-! ### Expired packets (R353) -/

/-- The agent that takes the expiry of a LAUNCH: the domain is halted with cause 0x21, and once its stop records are written it is reset;
queues with an expired packet stop with code 0x08. -/
def execLaunchExpiryReset (slice : SliceId) (q : QIdx) (pidx : Word) (s : State) : Host.Outcome State Fault Refusal :=
  .next (match s.startedAt slice q pidx with
    | some x =>
      (match x.expired, x.grid with
       | true, some n =>
         let r := tabGet {} s.grids n
         let dom := r.domains.headD 0
         if !s.domainHalted r.part dom then s.raiseHalt r.part dom 0x21 none
         else if s.recordsDone r.part dom then
           s.resetDomain r.part dom fun y => if y.expired then 0x08 else s.resetCode r.part dom y
         else s
       | _, _ => s)
    | none => s)

/-- The first n bytes of some writes. -/
def takeWrites : Nat → List (Word × List Byte) → List (Word × List Byte)
  | _, [] => []
  | n, (va, bs) :: rest => if n = 0 then [] else (va, bs.take n) :: takeWrites (n - bs.length) rest

/-- What a chain would write, when everything that it reads is there. -/
def State.chainWrites (s : State) (o : AsyncOp) (w : List W32) : List (Word × List Byte) :=
  let tagRun := if chDec w = 1 then [(dwordAt w 14, 16)] else []
  if !s.chainOk o.part w then []
  else if chSrck w = 1 then
    match Config.nvmeRead (wordAt w 4) ((wordAt w 5).extractLsb' 0 16) (dwordAt w 2) (chLen w) with
    | none => []
    | some src => (s.chainStages o.part w src (s.engBytes o.eng 5 (dwordAt w 14) 16)).writes
  else if s.meetList o.eng 5 ((dwordAt w 2, chLen w) :: tagRun) = .ok then
    (s.chainStages o.part w (s.engBytes o.eng 5 (dwordAt w 2) (chLen w)) (s.engBytes o.eng 5 (dwordAt w 14) 16)).writes
  else []

/-- Cancels a chain: some flits of its stream have been written, a free number of them, or all when only its record is left; the completion
record says status 0x87. -/
def State.cancelChain (s : State) (o : AsyncOp) (w : List W32) : State :=
  let ws := if o.stage = 0 then s.chainWrites o w else []
  let total := (ws.map fun e => e.2.length).foldl (· + ·) 0
  let ws := takeWrites (s.freeWord.toNat % (total / 32 + 1) * 32) ws
  let ws := if s.meetList o.eng 6 (ws.map fun e => (e.1, e.2.length)) = .ok then ws else []
  let kept := (ws.map fun e => e.2.length).foldl (· + ·) 0
  let stat := dwordAt w 22
  let rec' := if o.stage = 0 then chainRecord { status := 0x87, rdb := (s.freeLane 1).toNat, writes := ws, wrb := kept } s.now
    else setDword (setWord (bytesToWords 8 (o.buf.headD [])) 0 0x87) 6 s.now
  let s := ws.foldl (fun s e => (s.engWrite o.eng e.1 e.2).1) s.draw
  if s.meet o.eng 6 stat 32 = .ok then (s.engWrite o.eng stat (wordsToBytes rec')).1 else s

/-- The agent that takes the expiry of a STORAGE packet cancels its chain and stops the queue with code 0x08. -/
def execStorageExpiryCancel (slice : SliceId) (q : QIdx) (pidx : Word) (s : State) : Host.Outcome State Fault Refusal :=
  .next (match s.startedAt slice q pidx with
    | some x =>
      (match x.expired, s.asyncs.find? fun o => some o.id == x.chain with
       | true, some o =>
         if o.done then s
         else
           let ws := match o.kind with
             | .storq desc [] => if s.meet o.eng 5 desc 128 = .ok then s.engWords o.eng 5 desc 32 else []
             | .storq _ ws => ws
             | _ => []
           let s := if ws.isEmpty then s else s.cancelChain o ws
           let s := s.dropAsync o.id
           (s.retirePacket x).stopQueue slice q 0x08 pidx x.words true
       | _, _ => s)
    | none => s)

end Sys2Proof.Machine
end

