-- ==== Sys2Proof/Machine/Sections.lean ====
section
/-! DEFINITION. Group sections of a saved context (R433, R505): writing and reading one, with the spill formats of R181; DUMP and LOAD of
R441. -/

namespace Sys2Proof.Machine

/-! ### Numbers and masks as bytes -/

/-- n bytes of a mask (R2, R433). -/
def maskBytes (m : Mask) : List Byte := natToBytes m.toNat 12

/-- The number in n bytes from an offset. -/
def numAt (bs : List Byte) (off n : Nat) : Nat := bytesToNat ((bs.drop off).take n)

/-- The 64-bit value at an offset. -/
def wordAtOff (bs : List Byte) (off : Nat) : Word := BitVec.ofNat 64 (numAt bs off 8)

/-- A mask at an offset. -/
def maskAt (bs : List Byte) (off : Nat) : Mask := BitVec.ofNat 96 (numAt bs off 12)

/-- A number rounded up to a multiple of 64. -/
def up64 (n : Nat) : Nat := (n + 63) / 64 * 64

/-! ### Vector data (R178, R181) -/

/-- The spill format that the spill engine takes. -/
def VReg.spillCode (r : VReg) : BitVec 3 :=
  match r.shape with
  | .u => 1
  | .a => 2
  | .g =>
    if lanes.all fun l => ((r.data.getD l 0).extractLsb' 0 8).signExtend 32 == r.data.getD l 0 then 4
    else if lanes.all fun l => ((r.data.getD l 0).extractLsb' 0 16).signExtend 32 == r.data.getD l 0 then 3
    else 0

/-- The bytes that a spill format takes. -/
def spillBytes (c : Nat) : Nat :=
  match c with
  | 1 => 4
  | 2 => 8
  | 3 => 192
  | 4 => 96
  | _ => 384

/-- A register's data in a spill format. -/
def VReg.spillData (r : VReg) (c : BitVec 3) : List Byte :=
  match c.toNat with
  | 1 => natToBytes r.base.toNat 4
  | 2 => natToBytes r.base.toNat 4 ++ natToBytes r.step.toNat 4
  | 3 => lanes.flatMap fun l => natToBytes (r.data.getD l 0).toNat 2
  | 4 => lanes.flatMap fun l => natToBytes (r.data.getD l 0).toNat 1
  | _ => lanes.flatMap fun l => natToBytes (r.lane l).toNat 4

/-- The code of a shape. -/
def Shape.code : Shape → Nat
  | .u => 0
  | .a => 1
  | .g => 2

/-- The 12 bytes of a descriptor. -/
def VReg.descBytes (r : VReg) (c : BitVec 3) : List Byte :=
  natToBytes (r.shape.code + c.toNat * 4) 4 ++ natToBytes (if r.shape = .g then 0 else r.base.toNat) 4
    ++ natToBytes (if r.shape = .a then r.step.toNat else 0) 4

/-- A register from its descriptor and its data. -/
def readVReg (desc data : List Byte) : VReg :=
  let w := numAt desc 0 4
  let c : BitVec 3 := BitVec.ofNat 3 (w / 4)
  let shape : Shape := match w % 4 with | 0 => .u | 1 => .a | _ => .g
  let vals : List W32 :=
    match c.toNat with
    | 3 => lanes.map fun l => (BitVec.ofNat 16 (numAt data (2 * l) 2)).signExtend 32
    | 4 => lanes.map fun l => (BitVec.ofNat 8 (numAt data l 1)).signExtend 32
    | _ => lanes.map fun l => BitVec.ofNat 32 (numAt data (4 * l) 4)
  match shape with
  | .g => { shape := .g, spill := c, data := vals }
  | x => { shape := x, spill := c, base := BitVec.ofNat 32 (numAt desc 4 4), step := if x = .a then BitVec.ofNat 32 (numAt desc 8 4) else 0 }

/-! ### Lane queue entries (R505) -/

/-- The 32 bytes of an entry. -/
def LaneEntry.bytes : LaneEntry → List Byte
  | .block a m _ => natToBytes 1 8 ++ natToBytes a.toNat 8 ++ maskBytes m ++ natToBytes 0 4
  | .lput n wide x => natToBytes (2 + (if wide then 8 else 0) + n.toNat * 16) 8 ++ natToBytes x.toNat 8 ++ natToBytes 0 16
  | .lget d n wide l =>
    natToBytes (3 + (if wide then 8 else 0) + n.toNat * 16 + d.toNat * 2048) 8 ++ natToBytes l.toNat 8 ++ natToBytes 0 16
  | .sigrst => natToBytes 4 8 ++ natToBytes 0 24

/-- The entry in 32 bytes. The rounding mode of a block has no place there. -/
def readEntry (bs : List Byte) (rnd : BitVec 3) : LaneEntry :=
  let w := wordAtOff bs 0
  match bitsOf w 2 0 with
  | 1 => .block (wordAtOff bs 8) (maskAt bs 16) rnd
  | 2 => .lput (BitVec.ofNat 7 (bitsOf w 10 4)) (bitAt w 3) (wordAtOff bs 8)
  | 3 => .lget (BitVec.ofNat 6 (bitsOf w 16 11)) (BitVec.ofNat 7 (bitsOf w 10 4)) (bitAt w 3) (wordAtOff bs 8)
  | _ => .sigrst

/-- The rounding mode of an entry. -/
def LaneEntry.rnd? : LaneEntry → Option (BitVec 3)
  | .block _ _ r => some r
  | _ => none

/-! ### Writing a section -/

/-- What stands in a section beside the registers: STATE, FORCED, the barrier, and how each vector register is stored. -/
structure SectInfo where
  st     : Nat
  wait   : Nat
  forced : Bool
  /-- Count and generation of the barrier that the group has arrived at. -/
  bar    : Nat × Nat := (0, 0)
  spill  : Nat → BitVec 3
  /-- The vector registers that are clean, in an incremental save. -/
  clean  : BitVec 128 := 0

/-- The WAIT code of a scalar stream's or a split's wait (R438). -/
def Wait.code : Wait → Nat
  | .token => 1
  | .queue => 2
  | .barrier => 3
  | .mwait => 4
  | .lsync => 5
  | .monitor => 6
  | .remoteLoad => 7
  | .spawnBin => 8
  | .xswap => 9
  | _ => 0

/-- The code of a split's wait. -/
def SplitWait.code : SplitWait → Nat
  | .queue _ _ _ _ => 2
  | .remoteLoad _ => 7
  | _ => 0

/-- The code of what a lane instruction that has issued waits for. -/
def HeldKind.code : HeldKind → Nat
  | .fill => 2
  | .spawn _ _ => 8
  | .swap _ _ _ => 9
  | .watch _ => 6

/-- The code of what a record's split waits for. -/
def Group.splitCode (v : Group) (k : Nat) : Nat :=
  match v.heldOf k with
  | some h => h.kind.code
  | none => (v.split k).wait.code

/-- WAIT of a group: its scalar stream's, or, when that waits on nothing or on its lane stream, that of its lowest waiting split. -/
def Group.waitCode (v : Group) : Nat :=
  let lane := ((List.range 4).map fun k => if (v.split k).used then v.splitCode k else 0).find? (· != 0)
  match v.sc.wait.code, lane with
  | 0, some x => x
  | 5, some x => x
  | x, _ => x

/-- STATE of a group, but for one being saved (R438). -/
def GState.code : GState → Nat
  | .free => 0
  | .ready => 1
  | .active => 2
  | .blocked => 3
  | .saving => 4
  | .stopped => 5
  | .exited => 6

/-- The valid latches, in increasing number. -/
def Group.validLatches (v : Group) : List Nat := (List.range 8).filter fun n => (tabGet {} v.bl n).valid

/-- A bit as a number. -/
def bitNum (b : Bool) (n : Nat) : Nat := if b then 2 ^ n else 0

/-- A mask of four records by a test. -/
def recBits (v : Group) (f : Split → Bool) : Nat :=
  ((List.range 4).map fun k => bitNum ((v.split k).used && f (v.split k)) k).foldl (· + ·) 0

/-- Bytes 0x000 to 0x3F7 of a section of a given size. -/
def sectFixedBytes (v : Group) (x : SectInfo) (size : Nat) : List Byte :=
  let c := v.sc
  let valid := (v.validLatches.map (2 ^ ·)).foldl (· + ·) 0
  let (num, nb) := match v.arrived with | some (n, nb, _) => (n, nb) | none => (0, false)
  let watch : Watch := c.watch.getD { addr := 0 }
  let blk : Block := v.block.getD { addr := 0, mask := 0, rnd := 0 }
  let p : Pair := v.pair.getD { id := 0, key := 0, partner := ⟨0, 0, 0⟩ }
  (List.range 64).flatMap (fun i => natToBytes (c.read (BitVec.ofNat 6 i)).toNat 8)
    ++ natToBytes (x.st + x.wait * 8 + bitNum x.forced 7 + valid * 256 + bitNum (!v.lwatch.isEmpty) 16 + bitNum c.watch.isSome 17
        + bitNum v.arrived.isSome 18 + num * 2 ^ 19 + bitNum nb 23 + size * 2 ^ 32) 8
    ++ natToBytes c.spc.toNat 8
    ++ (List.range 4).flatMap (fun k => natToBytes (if (v.split k).used then (v.split k).pc.toNat else 0) 4)
    ++ (List.range 4).flatMap (fun k => maskBytes (if (v.split k).used then (v.split k).mask else 0))
    ++ maskBytes (maskOf fun l => (tabFind v.waiting l).isSome)
    ++ natToBytes (recBits v (fun _ => true) + recBits v (·.join.isSome) * 16 + recBits v (·.bhv) * 256 + recBits v (·.merge) * 4096
        + v.lq.length * 2 ^ 16) 4
    ++ natToBytes v.fpc.toNat 8 ++ natToBytes v.sig.toNat 8 ++ natToBytes c.wct.toNat 8 ++ natToBytes (v.nreg + v.want * 256) 8
    ++ (List.range 4).flatMap (fun k => natToBytes (if (v.split k).used then (v.split k).bh.toNat else 0) 4)
    ++ natToBytes (c.pend ||| c.loadPend).toNat 8
    ++ natToBytes v.nextBatch.toNat 8
    ++ (List.range 7).flatMap (fun n => maskBytes (v.pred n)) ++ natToBytes 0 12
    ++ natToBytes watch.addr.toNat 8 ++ natToBytes watch.value.toNat 8
    ++ natToBytes c.deadline.toNat 8 ++ natToBytes (if v.arrived.isSome then x.bar.2 + x.bar.1 * 2 ^ 32 else 0) 8 ++ natToBytes 0 32
    ++ (List.range 16).flatMap (fun n => let b : Binding := tabGet {} v.binds n; natToBytes (b.hq.toNat + b.k.toNat * 16 + bitNum b.valid 9) 4)
    ++ natToBytes p.key.toNat 8 ++ natToBytes (if v.pair.isSome then (pairedToken p.partner).toNat else 0) 8
    ++ natToBytes p.sends 8 ++ natToBytes p.recvs 8 ++ natToBytes p.unmatched.length 8 ++ natToBytes 0 24
    ++ natToBytes x.clean.toNat 16
    ++ natToBytes blk.addr.toNat 8 ++ maskBytes blk.mask ++ maskBytes blk.finished ++ natToBytes 0 8

/-- The lane watches: 16 bytes a lane, the address with its width in bit 63 and, in bit 62, whether one is armed; then the value. -/
def lwatchBytes (v : Group) : List Byte :=
  lanes.flatMap fun l =>
    match tabFind v.lwatch l with
    | some w => natToBytes (w.addr.toNat % 2 ^ 62 + bitNum true 62 + bitNum w.wide 63) 8 ++ natToBytes w.value.toNat 8
    | none => natToBytes 0 16

/-- Lane values of 64 bits. -/
def laneWordsBytes (vs : List Word) : List Byte := lanes.flatMap fun l => natToBytes (laneVal vs l).toNat 8

/-- The parts of a section from 0x400 up to the vector data. -/
def sectMiddle (v : Group) (x : SectInfo) : List Byte :=
  ((List.range 16).flatMap fun i => match v.lq[i]? with | some e => e.bytes | none => natToBytes 0 32)
    ++ (if v.lwatch.isEmpty then [] else lwatchBytes v)
    ++ ((v.pair.map (·.unmatched)).getD []).flatMap laneWordsBytes
    ++ v.validLatches.flatMap (fun n => laneWordsBytes (tabGet {} v.bl n).data)
    ++ (List.range v.nreg).flatMap fun n => (v.vreg n).descBytes (x.spill n)

/-- A run of bytes at an offset. -/
abbrev Run := Nat × List Byte

/-- The vector data of registers from an offset; a clean one leaves its bytes as they are. The runs, and the offset of the end. -/
def vdataRuns (v : Group) (x : SectInfo) : List Nat → Nat → List Run × Nat
  | [], off => ([], off)
  | n :: ns, off =>
    let (rest, e) := vdataRuns v x ns (off + spillBytes (x.spill n).toNat)
    (if x.clean.getLsbD n then (rest, e) else ((off, (v.vreg n).spillData (x.spill n)) :: rest, e))

/-- A section: its size and its runs, by offset. -/
def sectRuns (v : Group) (x : SectInfo) : Nat × List Run :=
  let mid := sectMiddle v x
  let (data, size) := vdataRuns v x (List.range v.nreg) (0x400 + mid.length)
  let fixed := sectFixedBytes v x size
  (size, (0, fixed ++ natToBytes (crc16 fixed).toNat 8) :: (0x400, mid) :: data)

/-! ### Reading a section -/

/-- What a write of `GRP.FPC` stores: its reserved fields read 0, and a rounding mode of 0 or 7 is 1 (R142). -/
def storedFpc (x : Word) : Word :=
  let y := x &&& 0xFFFFFFFF000000F7
  if bitsOf y 2 0 = 0 || bitsOf y 2 0 = 7 then setBits y 2 0 1 else y

/-- The parts of a section that stand at offsets of their own: lane watches, unmatched values, latches, descriptors, vector data. -/
structure SectMap where
  size   : Nat
  watch  : Nat
  unm    : Nat
  unmN   : Nat
  latch  : Nat
  valid  : List Nat
  desc   : Nat
  nreg   : Nat
  data   : Nat

/-- Where a section's parts stand. -/
def sectMap (bs : List Byte) : SectMap :=
  let w := wordAtOff bs 0x200
  let unmN := numAt bs 0x3A0 8 % 4096
  let valid := (List.range 8).filter fun n => bitAt w (8 + n)
  let unm := 0x600 + (if bitAt w 16 then 1536 else 0)
  let latch := unm + 768 * unmN
  let desc := latch + 768 * valid.length
  let nreg := min 128 (numAt bs 0x278 1)
  { size := bitsOf w 63 32, watch := 0x600, unm := unm, unmN := unmN, latch := latch, valid := valid, desc := desc, nreg := nreg,
    data := desc + 12 * nreg }

/-- The check code of a section holds. -/
def sectCrcOk (bs : List Byte) : Bool := numAt bs 0x3F8 2 == (crc16 (bs.take sectFixed)).toNat

/-- The offsets of the vector data of each register. -/
def sectDataOffs (bs : List Byte) (m : SectMap) : List Nat :=
  ((List.range m.nreg).foldl (fun (acc : List Nat × Nat) n =>
    (acc.1 ++ [acc.2], acc.2 + spillBytes (numAt bs (m.desc + 12 * n) 4 / 4 % 8))) ([], m.data)).1

/-- Lane values of 64 bits from an offset. -/
def laneWordsAt' (bs : List Byte) (off : Nat) : List Word := lanes.map fun l => wordAtOff bs (off + 8 * l)

/-- The vector registers of a section. `src` gives the bytes from which a register's data is read: its own section, or that of BASE. -/
def readVregs (bs : List Byte) (m : SectMap) (src : Nat → List Byte) : Tab VReg :=
  (List.zip (List.range m.nreg) (sectDataOffs bs m)).map fun e =>
    (e.1, readVReg ((bs.drop (m.desc + 12 * e.1)).take 12) (((src e.1).drop e.2).take 384))

/-- The scalar registers of a section. -/
def readSregs (bs : List Byte) : Tab Word :=
  ((List.range 64).drop 1).map fun i => (i, storedIn (BitVec.ofNat 6 i) (wordAtOff bs (8 * i)))

/-- The predicates of a section. -/
def readPreds (bs : List Byte) : Tab Mask := (List.range 7).map fun n => (n, maskAt bs (0x2A0 + 12 * n))

/-- A split record of a section; `old` is what the hardware keeps of it beside. -/
def readSplit (bs : List Byte) (k : Nat) (old : Split) (laneN : Nat) : Split :=
  let w := numAt bs 0x25C 4
  let on (b : Nat) : Bool := w / 2 ^ (b + k) % 2 == 1
  { old with
    used := true, pc := BitVec.ofNat 24 (numAt bs (0x210 + 4 * k) 4), mask := maskAt bs (0x220 + 12 * k),
    bh := BitVec.ofNat 32 (numAt bs (0x280 + 4 * k) 4), bhv := on 8, merge := on 12,
    join := if on 4 then some (old.join.getD laneN) else none }

/-- The state of a saved group by its STATE code. -/
def stateOf (n : Nat) : GState := if n = 5 then .stopped else if n = 3 then .blocked else .ready

/-- The group of a section, over what the hardware keeps of it beside (for an area that it does not know, nothing but the group's place).
`lost` gives the program counter of a waiting lane of which nothing is kept. -/
def readSection (bs : List Byte) (src : Nat → List Byte) (old : Group) (lost : Nat → BitVec 24) : Group :=
  let m := sectMap bs
  let w := wordAtOff bs 0x200
  let rw := numAt bs 0x25C 4
  let tok := wordAtOff bs 0x290
  let st := stateOf (bitsOf w 2 0)
  let fpc := storedFpc (wordAtOff bs 0x260)
  let rnd : BitVec 3 := fpc.extractLsb' 0 3
  let waitMask := maskAt bs 0x250
  let addr := wordAtOff bs 0x3D0
  let loads := old.sc.memq.foldl (fun (x : Word) o => match o.dest with | .sreg d => putBit x d.toNat (d != 0) | _ => x) 0
  { old with
    st := st, dbg := st = .stopped, halted := false,
    sc := { old.sc with
      s := readSregs bs, spc := wordAtOff bs 0x208, pend := tok &&& ~~~loads, loadPend := tok &&& loads, wct := wordAtOff bs 0x270,
      watch := if bitAt w 17 then some { addr := wordAtOff bs 0x300, value := wordAtOff bs 0x308 } else none,
      deadline := wordAtOff bs 0x310, wait := if st = .blocked then old.sc.wait else .none, frozen := false },
    fpc := fpc, sig := wordAtOff bs 0x268, nreg := m.nreg, want := 0,
    v := readVregs bs m src, p := readPreds bs,
    bl := m.valid.zipIdx.map fun e => (e.1, { valid := true, data := laneWordsAt' bs (m.latch + 768 * e.2) }),
    binds := ((List.range 16).map fun n =>
      let x := numAt bs (0x340 + 4 * n) 4
      (n, ({ valid := x / 512 % 2 == 1, hq := BitVec.ofNat 4 x, k := BitVec.ofNat 5 (x / 16) } : Binding))).filter fun e => e.2.valid,
    lq := (List.range (rw / 2 ^ 16 % 32)).map fun i =>
      readEntry ((bs.drop (0x400 + 32 * i)).take 32) (((old.lq[i]?).bind LaneEntry.rnd?).getD rnd),
    block := if addr = 0 then none
      else some { addr := addr, mask := maskAt bs 0x3D8, rnd := (old.block.map (·.rnd)).getD rnd, finished := maskAt bs 0x3E4,
                  first := (old.block.map (·.first)).getD 0 },
    splits := ((List.range 4).filter fun k => rw / 2 ^ k % 2 == 1).map fun k => (k, readSplit bs k (old.split k) old.laneN),
    waiting := (maskLanes waitMask).map fun l => (l, (tabFind old.waiting l).getD (lost l)),
    lwatch := if bitAt w 16 then
        (lanes.filter fun l => bitAt (wordAtOff bs (m.watch + 16 * l)) 62).map fun l =>
          let a := wordAtOff bs (m.watch + 16 * l)
          (l, { addr := a &&& 0x00FFFFFFFFFFFFFF, wide := bitAt a 63, value := wordAtOff bs (m.watch + 16 * l + 8) })
      else [],
    batches := [], nextBatch := BitVec.ofNat 4 (numAt bs 0x298 1), unfenced := [], msync := [],
    arrived := if bitAt w 18 then some (bitsOf w 22 19, bitAt w 23, numAt bs 0x318 4) else none }

/-! ### DUMP and LOAD (R441) -/

/-- STATE and the rest of a section of a resident group, each register stored by `spill`. -/
def State.sectInfo (s : State) (g : GroupRef) (forced : Bool) (st : Nat) (spill : Nat → BitVec 3) : SectInfo :=
  let v := s.group g
  { st := st, wait := v.waitCode, forced := forced, spill := spill,
    bar := match v.arrived with | some (n, nb, gen) => ((s.barrier g nb n).count, gen) | none => (0, 0) }

/-- The DUMP and LOAD buffer of a slice. -/
def State.fdBuf (s : State) (i : SliceId) : Word := s.sliceReg i 0x431 &&& 0x00FFFFFFFFFFFFC0

/-- Runs written from a base address. -/
def State.writeRuns (s : State) (e : EngId) (base : Word) (runs : List Run) : State :=
  runs.foldl (fun s r => (s.engWrite e (base + BitVec.ofNat 64 r.1) r.2).1) s

/-- What writing runs from a base address meets. -/
def State.meetRuns (s : State) (e : EngId) (base : Word) (runs : List Run) : EngMeet :=
  s.meetList e 6 (runs.map fun r => (base + BitVec.ofNat 64 r.1, r.2.length))

/-- DUMP: the named stopped group's section, with SPILL 0 throughout. A buffer that cannot be reached is invalid. -/
def execFdDump (slice : SliceId) (cmd : Word) (s : State) : Host.Outcome State Fault Refusal :=
  .next (s.fdOnGroup slice cmd 9 fun g =>
    if (s.group g).st != .stopped then s.fdDone slice 0x82
    else
      let e := partEng (s.group g).part
      let (_, runs) := sectRuns (s.group g) (s.sectInfo g false 5 fun _ => 0)
      match s.meetRuns e (s.fdBuf slice) runs with
      | .ok => (s.writeRuns e (s.fdBuf slice) runs).fdDone slice 0x01
      | _ => s.fdDone slice 0x84)

/-- What LOAD takes of a section. -/
def Group.loadSection (v : Group) (bs : List Byte) : Group :=
  let m := sectMap bs
  { v with sc := { v.sc with s := readSregs bs }, p := readPreds bs, fpc := storedFpc (wordAtOff bs 0x260), v := readVregs bs m fun _ => bs, cleanV := 0 }

/-- LOAD: `s1` to `s63`, `p0` to `p6`, `GRP.FPC` and the vector data. -/
def execFdLoad (slice : SliceId) (cmd : Word) (s : State) : Host.Outcome State Fault Refusal :=
  .next (s.fdOnStopped slice cmd 10 fun g =>
    let e := partEng (s.group g).part
    let a := s.fdBuf slice
    if s.meet e 5 a 0x600 ≠ .ok then s.fdDone slice 0x84
    else
      let size := bitsOf (wordAtOff (s.engBytes e 5 (a + 0x200) 8) 0) 63 32
      if size < 0x600 || 0x40000 < size || s.meet e 5 a size ≠ .ok then s.fdDone slice 0x84
      else
        let bs := s.engBytes e 5 a size
        if !sectCrcOk bs || (sectMap bs).nreg ≠ (s.group g).nreg then s.fdDone slice 0x84
        else (s.modGroup g fun v => v.loadSection bs).fdDone slice 0x01)

end Sys2Proof.Machine
end

