-- ==== Sys2Proof/Machine/LaneMem.lean ====
section
/-! DEFINITION. Lane loads, stores and atomics (R278 to R281) and the lane watches (R283). -/

namespace Sys2Proof.Machine

/-! ### Fields and addresses (R278, R279) -/

/-- SIZE of the control field. -/
def sizeField (w : LaneWord) : Nat := bitsOf w.imm 26 24

/-- The bytes that each lane moves. -/
def laneBytes (w : LaneWord) : Nat :=
  match sizeField w with
  | 0 => if is64 w.typ then 8 else 4
  | 1 => 1
  | 2 => 1
  | _ => 2

/-- SIZE asks for sign extension. -/
def laneSigned (w : LaneWord) : Bool := sizeField w == 1 || sizeField w == 3

/-- OFF, a signed 24-bit offset. -/
def laneOff (w : LaneWord) : Word := (w.imm.extractLsb' 0 24).signExtend 64

/-- The start of a level's window in the window region, and a bound that no window of the level passes: 0 `.lp`, 1 `.cp`, 2 `.nb`,
3 `.cl`, 4 `.ch` (R260). -/
def levelWindow (lvl : Fin 6) : Nat × Nat :=
  match lvl.val with
  | 0 => (0x20000000, 0x100000000)
  | 1 => (0, 0x80000)
  | 2 => (0x01000000, 0x01000000)
  | 3 => (0x02000000, 0x00C00000)
  | _ => (0x10000000, 0x10000000)

/-- The place of a lane's access of n bytes at a sum of its address source, its offset and its stride, and the address that a window
access stands at. An offset beyond the window is unmapped and reaches no other window. -/
def State.levelPlace (s : State) (a : Agent) (lvl : Fin 6) (lane n : Nat) (sum : Word) : Place × Word :=
  if lvl.val = 5 then
    let va := alignTo n sum
    (s.placeOf a (s.agentAsid a) (some lane) va, va)
  else
    let off := (sum.extractLsb' 0 32).toNat / n * n
    let (base, size) := levelWindow lvl
    if off < size then (s.windowPlace a (some lane) (base + off), BitVec.ofNat 64 (windowBase + base + off)) else (.unmapped, 0)

/-- The address of lane L: `ld` and `st` go on from lane 0's value, by the width in each lane but under `.lp`; `ldg` and `stsc` take each
lane's own. -/
def laneSum (lvl : Fin 6) (each : Bool) (n : Nat) (w : LaneWord) (a : List Word) (l : Nat) : Word :=
  if each then laneVal a l + laneOff w
  else laneVal a 0 + laneOff w + (if lvl.val = 0 then 0 else BitVec.ofNat 64 (l * n))

/-! ### Issue -/

/-- Where the values of a lane access go. -/
def laneDest (x : LaneIn) (w : LaneWord) : AccDest := .lane w.dst x.wides.dst x.acted x.zero (capOf w)

/-- Issues an access in the lanes acted on, in increasing lane order, and moves the split on (R280). It fills the entry reserved already, if
there is one. -/
def State.laneAccess (s : State) (x : LaneIn) (o : MemOp) (at' : Nat → Place × Word) (value expect : Nat → Word) : State :=
  let ls := maskLanes x.acted
  let ps := ls.map fun l => (l, at' l)
  let accs := ps.map fun e => { lane := e.1, place := e.2.1, value := value e.1, expect := expect e.1 : LaneAcc }
  (s.issueOp { o with id := x.op, accs := accs, split := some x.k, word := s.word } (ps.map (·.2.2))).laneNext x.g x.k

/-- `ld` and `ldg`. -/
def State.laneLoad (s : State) (i : Instr) (w : LaneWord) (lvl : Fin 6) (each : Bool) : State :=
  s.laneIssue i w fun x t =>
    let n := laneBytes w
    t.laneAccess x { id := 0, kind := .load, width := n, signed := laneSigned w, accs := [], dest := laneDest x w }
      (fun l => t.levelPlace t.cur lvl l n (laneSum lvl each n w x.a.vals l)) (fun _ => 0) (fun _ => 0)

/-- `st` and `stsc`. -/
def State.laneStore (s : State) (i : Instr) (w : LaneWord) (lvl : Fin 6) (each : Bool) : State :=
  s.laneIssue i w fun x t =>
    let n := laneBytes w
    t.laneAccess x { id := 0, kind := .store, width := n, accs := [] }
      (fun l => t.levelPlace t.cur lvl l n (laneSum lvl each n w x.a.vals l)) (laneVal x.b.vals) (fun _ => 0)

/-- `ld.lvl`. -/
def execLd (lvl : Fin 6) (w : LaneWord) (s : State) : Host.Outcome State Fault Refusal := .next (s.laneLoad (.ld lvl w) w lvl false)
/-- `ldg.lvl`. -/
def execLdg (lvl : Fin 6) (w : LaneWord) (s : State) : Host.Outcome State Fault Refusal := .next (s.laneLoad (.ldg lvl w) w lvl true)
/-- `st.lvl`. -/
def execSt (lvl : Fin 6) (w : LaneWord) (s : State) : Host.Outcome State Fault Refusal := .next (s.laneStore (.st lvl w) w lvl false)
/-- `stsc.lvl`. -/
def execStsc (lvl : Fin 6) (w : LaneWord) (s : State) : Host.Outcome State Fault Refusal :=
  .next (s.laneStore (.stsc lvl w) w lvl true)

/-- `amo.op.order.scope` (R281). -/
def execAmo (op : BitVec 3) (order : BitVec 2) (w : LaneWord) (s : State) : Host.Outcome State Fault Refusal :=
  .next (s.laneIssue (.amo op order w) w fun x t =>
    let n := if is64 w.typ then 8 else 4
    t.laneAccess x
      { id := 0, kind := .amo op (!isUnsigned w.typ), width := n, accs := [], dest := laneDest x w, scope := w.modf.extractLsb' 1 3,
        order := order }
      (fun l => t.levelPlace t.cur 5 l n (laneVal x.a.vals l + laneOff w)) (laneVal x.b.vals) (laneVal x.c.vals))

/-! ### Watches (R283) -/

/-- `lwatch`: arms a watch in each lane acted on and loads the watched words. -/
def execLwatch (w : LaneWord) (s : State) : Host.Outcome State Fault Refusal :=
  .next (s.laneIssue (.lwatch w) w fun x t =>
    let n := if is64 w.typ then 8 else 4
    let va (l : Nat) : Word := alignTo n (laneVal x.a.vals l + laneOff w)
    let t := t.modGroup x.g fun v =>
      { v with lwatchAt := s.now, lwatch := (maskLanes x.acted).foldl (fun tb l => tabSet tb l { addr := va l, wide := n == 8 }) v.lwatch }
    t.laneAccess x { id := 0, kind := .watch, width := n, accs := [], dest := laneDest x w }
      (fun l => t.levelPlace t.cur 5 l n (va l)) (fun _ => 0) (fun _ => 0))

/-- What the lanes of a watch read: the values by lane, whether one is still missing, and whether one faulted. -/
structure WatchRead where
  vals  : List (Nat × Word) := []
  /-- A word could not be read yet. -/
  missing : Bool := false
  fault : Option (Cause × Word) := none

/-- Reads the watched words of some lanes; one whose translation misses is parked and gives no value. -/
def State.readWatches (s : State) (a : Agent) (tb : Tab Watch) : List Nat → WatchRead → State × WatchRead
  | [], r => (s, r)
  | l :: ls, r =>
    match tabFind tb l with
    | none => s.readWatches a tb ls r
    | some w =>
      match s.readWatch a (if w.wide then 8 else 4) (some l) w.addr with
      | .value t v => t.readWatches a tb ls { r with vals := r.vals ++ [(l, v)] }
      | .miss => (s.parkWatch a w.addr).readWatches a tb ls { r with missing := true }
      | .fault t c => (t, { r with fault := some (c, w.addr) })

/-- A value cut to the width of a watch. -/
def cutTo (n : Nat) (y : Word) : Word := BitVec.ofNat 64 (y.toNat % 2 ^ (8 * n))

/-- The bytes of the word that a lane watch instruction watches. -/
def watchBytes (w : LaneWord) : Nat := if is64 w.typ then 8 else 4

/-- The lane watches of an instruction's lanes take the values that it compares with. -/
def Group.watchFor (v : Group) (x : LaneIn) (n : Nat) (now : Word) : Group :=
  { v with lwatchAt := now, lwatch := (maskLanes x.acted).foldl (fun tb l => match tabFind tb l with
      | some e => tabSet tb l { e with value := cutTo n (laneVal x.b.vals l) }
      | none => tb) v.lwatch }

/-- `lwatch.w`: waits until a watched value differs from B, or for its deadline, and until every watched word can be read, since each armed
lane takes its word as read at completion. The values compared are kept beside the watches. -/
def State.doLwatchW (s : State) (w : LaneWord) : State :=
  let n := watchBytes w
  s.laneWaiting (.lwatchW w) w
    (fun x t => (t.modGroup x.g fun v => v.watchFor x n t.now, .watch (if w.imm = 0 then 0 else t.now + w.imm.setWidth 64)))
    fun x h t =>
      match h.kind with
      | .watch deadline =>
        let (u, r) := t.readWatches t.cur (t.group x.g).lwatch (maskLanes x.acted) {}
        let differs := r.vals.any fun e => e.2 != cutTo n (laneVal x.b.vals e.1)
        let late := deadline != 0 && decide (deadline ≤ t.now)
        (match r.fault with
         | some (c, va) => t.raiseAfar t.cur c va (if c = .translation then 7 else 0) t.word 0
         | none =>
           if (differs || late) && !r.missing then
             u.laneDone x h w
               (lanes.map fun l => match r.vals.find? fun e => e.1 == l with | some e => e.2 | none => laneVal x.b.vals l)
           else u.modGroup x.g fun v => v.watchFor x n t.now)
      | _ => t

/-- `lwatch.w`. -/
def execLwatchW (w : LaneWord) (s : State) : Host.Outcome State Fault Refusal := .next (s.doLwatchW w)

end Sys2Proof.Machine
end

