-- ==== Sys2Proof/Machine/Waits.lean ====
section
/-! DEFINITION. What groups wait for, and when they leave the active set and are ready again (R45, R46, R48, R189), and the monitors (R282,
R283). -/

namespace Sys2Proof.Machine

/-! ### The conditions of scalar streams (R45) -/

/-- The watched word of an agent differs from the value that its wait holds, or the deadline has passed (R282). -/
def State.watchMet (s : State) (a : Agent) : Bool :=
  let c := s.scOf a
  match c.watch with
  | none => true
  | some w =>
    (c.deadline != 0 && decide (c.deadline ≤ s.now)) ||
      (match s.readWatch a 8 none w.addr with
       | .value _ v => v != w.value
       | .miss => false
       | .fault _ _ => true)

/-- The queue condition of a scalar stream's wait: bits [3:0] of the mask name the queue, bit 4 says push (R328). It takes its turn among
those that wait (R327). -/
def State.queueMet (s : State) (g : GroupRef) (no : Nat) (m : Word) : Bool :=
  let pops := if bitAt m 4 then [] else [bitsOf m 3 0]
  let dst := if bitAt m 4 then some (bitsOf m 3 0) else none
  match s.stepNames g pops dst with
  | .ready _ _ => !s.queueHeld g no pops dst
  | .blocked _ => false

/-- The condition on which a group's scalar stream is blocked is met (R45). -/
def State.scalarMet (s : State) (g : GroupRef) : Bool :=
  let v := s.group g
  match v.sc.wait with
  | .token => v.sc.pend &&& v.sc.waitMask == 0
  | .remoteLoad => v.sc.loadPend &&& v.sc.waitMask == 0
  | .queue => s.queueMet g v.sc.waitNo v.sc.waitMask
  | .mwait => (List.range 16).all fun n => !bitAt v.sc.waitMask n || s.batchDone g (tabGet [] v.batches n)
  | .lsync => v.laneIdle
  | .monitor => s.watchMet (.scalar g)
  | _ => false

/-! ### The conditions of splits (R45, R189) -/

/-- The lines that the lane watches of a group notify on: the first 16 distinct ones, in increasing lane number (R283). -/
def Group.notified (v : Group) : List Nat := ((v.lwatch.map fun e => e.2.addr.toNat / 64).eraseDups).take 16

/-- The condition of a waiting `lwatch.w`: in some lane acted on the watched value differs, or the deadline has passed. A lane on a line that
does not notify is read again once 1,024 ptick have passed (R283). -/
def State.laneWatchMet (s : State) (x : LaneIn) (n : Nat) (deadline : Word) : Bool :=
  let v := s.group x.g
  (deadline != 0 && decide (deadline ≤ s.now)) ||
    ((maskLanes x.acted).any fun l =>
      match tabFind v.lwatch l with
      | none => false
      | some w =>
        (v.notified.contains (w.addr.toNat / 64) || s.passed v.lwatchAt 1024) &&
        match s.readWatch (.lane x.g x.k) (if w.wide then 8 else 4) (some l) w.addr with
        | .value _ y => y != cutTo n (laneVal x.b.vals l)
        | .miss => false
        | .fault _ _ => true)

/-- The instruction at which a split stands. -/
def State.splitInstr (s : State) (g : GroupRef) (k : Fin 4) : Option (Instr × LaneWord) :=
  match s.laneFetch g k with
  | .ok ws =>
    (match decodeLaneWords ws with
     | some (.ok i) => (laneOpcode i).map fun e => (i, e.2)
     | _ => none)
  | .error _ => none

/-- A lane instruction that waits after its issue can go on: `spawn` when the payload of its first lane left has room (R50, R200). -/
def State.heldMet (s : State) (g : GroupRef) (k : Fin 4) (h : HeldOp) : Bool :=
  let operands := (s.splitInstr g k).map fun e => (s.laneIn g k ((s.group g).heldMask k.val h) e.1 e.2 h.pops h.op, e.2)
  match h.kind, operands with
  | .fill, _ => popsFilled h.pops
  | .swap n _ given, _ => ((s.group g).swapValue n given).isSome
  | .spawn done first, some (x, _) =>
    (s.group g).performedTo first &&
      (match maskLanes (x.acted &&& ~~~done) with
       | [] => true
       | l :: _ => (s.deposit g.at (s.group g).grid (s.spawnEntry x l) 0).isSome)
  | .watch d, some (x, w) => s.laneWatchMet x (watchBytes w) d
  | _, none => true

/-- What a split waits on is there, or it waits on nothing. -/
def State.splitMet (s : State) (g : GroupRef) (k : Fin 4) : Bool :=
  let v := s.group g
  match v.heldOf k.val, (v.split k.val).wait with
  | some h, _ => s.heldMet g k h
  | none, .queue _ no pops dst =>
    (match s.stepNames g pops dst with
     | .ready _ _ => !s.queueHeld g no pops dst
     | .blocked _ => false)
  | none, .remoteLoad _ => (match s.splitInstr g k with | some (i, w) => !awaitsLoad v i w | none => true)
  | none, .fetch => false
  | none, .none => v.joinReady k.val

/-- A split is at a blocking point, if what it waits on is not there: a remote load, or the value of an `xswap`, once 512 cclk have passed
(R45, R224). -/
def State.splitBlocks (s : State) (g : GroupRef) (k : Fin 4) : Bool :=
  let v := s.group g
  let late (since : Nat) : Bool := decide (since + s.cclkTicks g.slice 512 ≤ s.now.toNat)
  match (v.heldOf k.val).map fun (h : HeldOp) => h.kind, (v.split k.val).wait with
  | some (.swap _ since _), _ => late since
  | some (.spawn _ first), _ => v.performedTo first
  | some (.watch _), _ => true
  | some .fill, _ => false
  | none, .queue _ _ _ _ => true
  | none, .remoteLoad since => late since
  | none, _ => false

/-- The records of a group whose splits have not reached the end of the block. -/
def Group.liveSplits (v : Group) : List (Fin 4) := [0, 1, 2, 3].filter fun k => (v.split k.val).used && !(v.split k.val).atEnd

/-- The lane stream runs a block of which no split can issue (R189), or its next entry waits for a load. -/
def State.laneStuck (s : State) (g : GroupRef) : Bool :=
  let v := s.group g
  if v.block.isSome then v.liveSplits.all fun k => !s.splitMet g k
  else
    match v.lq with
    | .lput n wide _ :: _ => !v.regsSettled n.toNat wide
    | .lget _ n wide _ :: _ => !v.regsSettled n.toNat wide
    | _ => false

/-- The lane stream is at a blocking point (R189). -/
def State.laneBlocked (s : State) (g : GroupRef) : Bool :=
  (s.group g).block.isSome && s.laneStuck g && (s.group g).liveSplits.any (s.splitBlocks g)

/-- The scalar stream is at a blocking point. -/
def Group.scBlocked (v : Group) : Bool :=
  match v.sc.wait with
  | .token => true
  | .queue => true
  | .barrier => true
  | .mwait => true
  | .lsync => true
  | .monitor => true
  | .remoteLoad => v.sc.remote
  | _ => false

/-- The scalar stream waits or is frozen without being at a blocking point. -/
def Group.scStalled (v : Group) : Bool :=
  v.sc.frozen || v.sc.wait == .stall || v.sc.wait == .grow || (v.sc.wait == .remoteLoad && !v.sc.remote)

/-! ### Leaving the active set, and waking (R45, R46, R48) -/

/-- The group leaves the active set at a blocking point: one stream is at one, and the other is idle, at one, or stalled (R46). -/
def State.mustLeave (s : State) (g : GroupRef) : Bool :=
  let v := s.group g
  let sc := v.scBlocked && !s.scalarMet g
  (sc && (v.laneIdle || s.laneStuck g)) || (s.laneBlocked g && (sc || v.scStalled))

/-- A group at a blocking point leaves the active set: it is Blocked, and its latches are lost (R46, R48). -/
def State.leaveActive (s : State) (g : GroupRef) : State :=
  if (s.group g).st == .active && s.mustLeave g then
    ((s.modGroup g Group.loseLatches).setGState g .blocked).count g.at 0x0B (s.tenantOf (.scalar g))
  else s

/-- The same, as an event. -/
def execLeaveActiveSet (g : GroupRef) (s : State) : Host.Outcome State Fault Refusal := .next (s.leaveActive g)

/-- A blocked group is ready. -/
def State.makeReady (s : State) (g : GroupRef) : State :=
  if (s.group g).st == .blocked then (s.modGroup g fun v => { v with readyAt := s.now, aged := false }).setGState g .ready else s

/-- The condition on which a blocked group waits is met: nothing keeps it out of the active set any more. -/
def State.wakes (s : State) (g : GroupRef) : Bool :=
  let v := s.group g
  (v.scBlocked && s.scalarMet g) || (v.block.isSome && v.liveSplits.any (s.splitMet g)) || !s.mustLeave g

/-- A blocked group's wait condition is met: it is ready (R45, R48). -/
def execGroupWake (g : GroupRef) (s : State) : Host.Outcome State Fault Refusal := .next (if s.wakes g then s.makeReady g else s)

/-- What the active set of a core does of itself (R44 to R46): remote-load waits become blocking points, groups leave it and are ready again,
long-waiting ones are aged, and one is admitted. -/
def State.coreTurn (s : State) (c : CoreRef) : State :=
  let each (s : State) (f : GroupRef → State → State) : State := (s.slotsOf c).foldl (fun s g => f g s) s
  let s := each s fun g s => s.remoteBlock g
  let s := each s fun g s => s.leaveActive g
  let s := each s fun g s => if s.wakes g then s.makeReady g else s
  (each s fun g s => s.ageGroup g).admitNext c

/-! ### Monitors (R282, R283) -/

/-- A watch re-reads its word: a wait that finds another value, or whose deadline has passed, ends, and a blocked group is ready; a wake
that finds the value unchanged waits again, unseen. -/
def State.rereadWatch (s : State) (f : Fetcher) : State :=
  match f with
  | .scalar g =>
    if (s.group g).sc.wait != .monitor then s
    else if s.watchMet (.scalar g) then (s.modSc (.scalar g) fun c => { c with wait := .none, watchAt := s.now }).makeReady g
    else s.modSc (.scalar g) fun c => { c with watchAt := s.now }
  | .puppet c =>
    if (s.core c).puppet.sc.wait != .monitor then s
    else s.modSc (.puppet c) fun k => { k with wait := if s.watchMet (.puppet c) then .none else k.wait, watchAt := s.now }
  | .lane g k =>
    match (s.group g).heldOf k.val with
    | some h =>
      (match h.kind with
       | .watch _ =>
         if s.heldMet g k h then s.makeReady g
         else if s.passed (s.group g).lwatchAt 1024 then s.modGroup g fun v => { v with lwatchAt := s.now }
         else s
       | _ => s)
    | none => s

/-- A write to a watched line wakes its watches (R282). -/
def execMonitorWake (g : Fetcher) (s : State) : Host.Outcome State Fault Refusal := .next (s.rereadWatch g)
/-- A watched word is re-read at least every 1,024 ptick (R282). -/
def execWatchReread (g : Fetcher) (s : State) : Host.Outcome State Fault Refusal := .next (s.rereadWatch g)
/-- The deadline of an `mwaitv` passes (R282). -/
def execMwaitvDeadline (f : Fetcher) (s : State) : Host.Outcome State Fault Refusal :=
  let c := s.scOf (fetcherAgent f)
  .next (if c.wait == .monitor && c.deadline != 0 && decide (c.deadline ≤ s.now) then s.rereadWatch f else s)

/-- The deadline of the `lwatch.w` at which a split waits. -/
def Group.watchDeadline (v : Group) (k : Nat) : Word :=
  match (v.heldOf k).map fun (h : HeldOp) => h.kind with | some (.watch d) => d | _ => 0

/-- The deadline of an `lwatch.w` passes (R283). -/
def execLwatchDeadline (g : GroupRef) (split : Fin 4) (s : State) : Host.Outcome State Fault Refusal :=
  let d := (s.group g).watchDeadline split.val
  .next (if d != 0 && decide (d ≤ s.now) then s.rereadWatch (.lane g split) else s)

end Sys2Proof.Machine
end

