-- ==== Sys2Proof/Machine/Saves.lean ====
section
/-! DEFINITION. Pre-emption (R430 to R432, R434, R437): requests, the wait, the stop of the groups, the layout and the writing of a save
area, and what goes on for the groups that have been saved. -/

namespace Sys2Proof.Machine

/-! ### What a request saves (R36, R430) -/

/-- A workgroup of a request: its core, its number there, and itself. -/
structure SaveWg where
  c : CoreRef
  n : Nat
  w : Workgroup

/-- What stands on a core for an exited workgroup of a neighbourhood: its queues, until the last group of the neighbourhood exits (R320). -/
def State.leftQueues (s : State) (n : Nat) (nb : Nbh) (k : Nat) : Option SaveWg :=
  ((s.core (nb.coreAt k)).hq.find? fun q => q.2.carved && q.2.nbh == some n).map fun q =>
    ⟨nb.coreAt k, q.2.owner, { grid := nb.grid, idx := BitVec.ofNat 32 (nb.first + k), groups := 0, spadLen := 0, lpLen := 0, matrix := false,
                               nbh := some n, k := k }⟩

/-- The workgroup of a request, or the workgroups of its whole neighbourhood in order of k. Of one that has exited the queues are left
(R329). -/
def State.saveSet (s : State) (c : CoreRef) (e : Preempt) : List SaveWg :=
  match e.nbh with
  | none => match tabFind (s.core c).wgs e.wg with | some w => [⟨c, e.wg, w⟩] | none => []
  | some n =>
    match tabFind s.nbhs n with
    | none => []
    | some nb => (List.range (nb.w * nb.h)).filterMap fun k =>
        match (s.core (nb.coreAt k)).wgs.find? fun x => x.2.nbh == some n with
        | some x => some ⟨nb.coreAt k, x.1, x.2⟩
        | none => s.leftQueues n nb k

/-- The groups of a workgroup that have not exited. -/
def State.liveGroups (s : State) (x : SaveWg) : List GroupRef :=
  (s.slotsOf x.c).filter fun g => (s.group g).resident && (s.group g).wg == x.n

/-- The groups of a request. -/
def State.saveGroups (s : State) (xs : List SaveWg) : List GroupRef := xs.flatMap s.liveGroups

/-- A core of the neighbourhood of a request has still to start its workgroup. -/
def State.saveStarts (s : State) (e : Preempt) : Bool :=
  match e.nbh with
  | some n => ((tabFind s.nbhs n).map fun x => !x.waitingK.isEmpty).getD false
  | none => false

/-- Changes the pre-emption engine of a core. -/
def State.modPreempt (s : State) (c : CoreRef) (f : Preempt → Preempt) : State := s.modCore c fun k => { k with preempt := f k.preempt }

/-- The engine changes its state, with a result. -/
def State.preemptTo (s : State) (c : CoreRef) (st : BitVec 2) (r : BitVec 8) : State :=
  s.modPreempt c fun e => { e with state := st, result := r, stamp := s.now }

/-! ### Requests (R430, R431) -/

/-- SLOT of a command. -/
def preSlot (cmd : Word) : Nat := bitsOf cmd 4 0
/-- MODE. -/
def preMode (cmd : Word) : Nat := bitsOf cmd 6 5
/-- INCR. -/
def preIncr (cmd : Word) : Bool := bitAt cmd 7

/-- AREA of `CORE.PRESAVE`. -/
def State.preArea (s : State) (c : CoreRef) : Word := s.coreReg c 0x1A0 &&& 0x00FFFFFFFFFFFF00

/-- A request of a save. -/
def State.requestSave (s : State) (c : CoreRef) (cmd : Word) (forced : Bool) : State :=
  let e := (s.core c).preempt
  let g : GroupRef := ⟨c.slice, c.core, idx 32 (preSlot cmd)⟩
  let v := s.group g
  if e.state = 1 || e.state = 2 then s
  else if v.st == .free || (s.wgOf g).isNone then s.preemptTo c 3 0x84
  else if s.gridHalted v.grid then s.preemptTo c 3 0x82
  else
    s.modPreempt c fun e =>
      { e with state := 1, result := 0, stamp := s.now, wg := v.wg, nbh := (s.wgOf g).bind (·.nbh), forced := forced,
               incr := preIncr cmd, area := s.preArea c, since := s.now, graceOver := false }

/-- MODE 0: at blocking points only. -/
def execPreemptBlocking (c : CoreRef) (cmd : Word) (s : State) : Host.Outcome State Fault Refusal :=
  .next (if preMode cmd = 0 then s.requestSave c cmd false else s)

/-- MODE 1: forced after the grace. -/
def execPreemptForced (c : CoreRef) (cmd : Word) (s : State) : Host.Outcome State Fault Refusal :=
  .next (if preMode cmd = 1 then s.requestSave c cmd true else s)

/-- MODE 2: a cancel acts while the engine waits. -/
def execPreemptCancel (c : CoreRef) (s : State) : Host.Outcome State Fault Refusal :=
  .next (if (s.core c).preempt.state = 1 then s.preemptTo c 3 0x02 else s)

/-! ### The wait (R431) -/

/-- A group is ready for a MODE 0 save: Blocked, with every stream that is at a blocking point, and every split that waits, at a barrier, a
pop of an empty queue, or a load from beyond the core past 512 cclk. -/
def State.saveReady (s : State) (g : GroupRef) : Bool :=
  let v := s.group g
  let n := s.cclkTicks g.slice 512
  let lane := (List.range 4).all fun k =>
    !(v.split k).used || (v.split k).atEnd ||
      ((v.heldOf k).isNone &&
        match (v.split k).wait with
        | .none => true
        | .queue push _ _ _ => !push
        | .remoteLoad since => decide (since + n ≤ s.now.toNat)
        | _ => false)
  v.st == .blocked && lane &&
    (match v.sc.wait with
     | .token => false
     | .mwait => false
     | .monitor => false
     | .queue => !bitAt v.sc.waitMask 4
     | .lsync => s.laneStuck g
     | _ => true)

/-- A group stops issuing for a save. A waiting `vgrow.w` is reissued on restore (R159). -/
def State.holdGroup (s : State) (g : GroupRef) : State :=
  s.modGroup g fun v =>
    if v.st == .saving || v.halted then v
    else
      { v with st := .saving, stamp := s.now, want := 0,
               sc := if v.sc.wait = .grow then { v.sc with wait := .none } else v.sc }

/-- Saving begins. -/
def State.beginSave (s : State) (c : CoreRef) (gs : List GroupRef) : State := (gs.foldl State.holdGroup s).preemptTo c 2 0

/-- The grace of a forced request is over: every group that has not exited stops, with its latches. -/
def execPreemptGraceExpiry (c : CoreRef) (s : State) : Host.Outcome State Fault Refusal :=
  .next (
    let e := (s.core c).preempt
    let gs := s.saveGroups (s.saveSet c e)
    if e.state = 1 && e.forced && !gs.isEmpty && s.passed e.since (bitsOf (s.coreReg c 0x1A3) 31 0) then
      (s.modPreempt c fun e => { e with graceOver := true }).beginSave c gs
    else s)

/-- A request whose groups have all exited saves nothing (R430). -/
def State.preemptSettle (s : State) (c : CoreRef) : State :=
  let e := (s.core c).preempt
  if e.state = 1 && (s.saveGroups (s.saveSet c e)).isEmpty && !s.saveStarts e then s.preemptTo c 3 0x04 else s

/-! ### The area (R432, R434) -/

/-- A part of an area: its size and its runs. -/
abbrev AreaPart := Nat × List Run

/-- Parts laid out from an offset, each at a multiple of 64: their starts, and the end. -/
def partStarts : List AreaPart → Nat → List Nat × Nat
  | [], off => ([], off)
  | (n, _) :: ps, off => let (ss, e) := partStarts ps (up64 off + n); (up64 off :: ss, e)

/-- The runs of parts at their starts. -/
def partRuns (ps : List AreaPart) (off : Nat) : List Run :=
  (List.zip ps (partStarts ps off).1).flatMap fun e => e.1.2.map fun r => (e.2 + r.1, r.2)

/-- A part written whole. -/
def wholePart (bs : List Byte) : AreaPart := (bs.length, [(0, bs)])

/-- The bytes of a matrix register's data. -/
def State.matData (s : State) (c : CoreRef) (n : Nat) : List Byte :=
  if n < 8 then memRead (s.tile c n).data 0 8192
  else (List.range 4096).flatMap fun i => natToBytes (tabGet 0 (s.acc c (n - 8)).elems i).toNat 12

/-- The size of a matrix register's data. -/
def matSize (n : Nat) : Nat := if n < 8 then 8192 else 49152

/-- The matrix registers of a core that are present. -/
def State.matPresent (s : State) (c : CoreRef) : List Nat :=
  (List.range 12).filter fun n => bitAt (s.matStatus c n) 38 || bitAt (s.matStatus c n) 39

/-- The queues that a workgroup owns, by number. -/
def State.ownedQueues (s : State) (c : CoreRef) (n : Nat) : List (Nat × HwQueue) := (s.core c).hq.filter fun e => e.2.carved && e.2.owner == n

/-- A queue of an area: HQ in bits [3:0], W in bit 4, DEPTH in [20:8], COUNT in [44:32], then its entries. -/
def queueBytes (n : Nat) (q : HwQueue) : List Byte :=
  natToBytes (n + bitNum q.wide 4 + q.depth * 256 + q.entries.length * 2 ^ 32) 8
    ++ q.entries.flatMap fun e => if q.wide then lanes.flatMap fun l => natToBytes (e.lanes.getD l 0).toNat 4 else natToBytes e.value.toNat 8

/-- The header of a workgroup. -/
def State.wgHeader (s : State) (x : SaveWg) (cleanM : BitVec 12) (cleanS : BitVec 128) : List Byte :=
  let ps := if x.w.matrix then s.matPresent x.c else []
  let pres := (ps.map (2 ^ ·)).foldl (· + ·) 0
  let ws : List W32 :=
    [BitVec.ofNat 32 ((s.liveGroups x).length + x.w.k * 32), x.w.idx, BitVec.ofNat 32 x.w.spadLen, BitVec.ofNat 32 x.w.lpLen,
     BitVec.ofNat 32 (pres + bitNum (ps.any (· < 8)) 12 + cleanM.toNat * 2 ^ 13), BitVec.ofNat 32 (s.ownedQueues x.c x.n).length, 0, 0,
     cleanS.extractLsb' 0 32, cleanS.extractLsb' 32 32, cleanS.extractLsb' 64 32, cleanS.extractLsb' 96 32, 0, 0, 0]
  wordsToBytes (ws ++ [(crcWords ws).setWidth 32])

/-- The data of matrix registers from an offset; a clean one leaves its bytes as they were. -/
def State.matRuns (s : State) (c : CoreRef) (clean : BitVec 12) : List Nat → Nat → List Run × Nat
  | [], off => ([], off)
  | n :: ns, off =>
    let (rest, e) := s.matRuns c clean ns (off + matSize n)
    (if clean.getLsbD n then (rest, e) else ((off, s.matData c n) :: rest, e))

/-- The matrix part: status words with DIRTY cleared, headers, data, and scale memory. -/
def State.matPart (s : State) (c : CoreRef) (clean : BitVec 12) : AreaPart :=
  let ps := s.matPresent c
  let head := (List.range 12).flatMap (fun n => natToBytes (putBit (s.matStatus c n) 39 false).toNat 8)
    ++ (List.range 12).flatMap fun n => wordsToBytes (if n < 8 then (List.range 8).map (wordAt (s.tile c n).hdr) else accHdr (s.acc c (n - 8)))
  let (rs, e) := s.matRuns c clean ps head.length
  let scale := ps.any (· < 8)
  (e + (if scale then 16384 else 0), (0, head) :: rs ++ if scale then [(e, memRead (s.core c).scale 0 16384)] else [])

/-- The scratchpad part: the allocation by chunks of 4 KiB, and the lane-private slices of every group. -/
def spadPart (w : Workgroup) (clean : BitVec 128) : AreaPart :=
  let n := w.groups * 96 * w.lpLen
  (w.spadLen + n,
   ((List.range ((w.spadLen + 4095) / 4096)).filterMap fun i =>
      if clean.getLsbD i then none else some (4096 * i, memRead w.spad (4096 * i) (min 4096 (w.spadLen - 4096 * i))))
     ++ [(w.spadLen, memRead w.lp 0 n)])

/-- Vector registers that await a lane load. -/
def Group.awaitedRegs (v : Group) : List Nat :=
  v.sc.memq.flatMap fun o => match o.dest with | .lane dst wide _ _ _ => codeRegs dst wide | _ => []

/-- STATE that a section records: stopped, blocked or ready. -/
def State.sectState (s : State) (g : GroupRef) : Nat :=
  let v := s.group g
  if v.dbg || v.halted then 5 else if s.mustLeave g then 3 else 1

/-- The section of a group in a save. -/
def State.sectPart (s : State) (forced incr : Bool) (g : GroupRef) : AreaPart :=
  let v := s.group g
  let x := s.sectInfo g forced (s.sectState g) fun n => if v.awaitedRegs.contains n then 0 else (v.vreg n).spillCode
  let clean : BitVec 128 := if incr then (List.range v.nreg).foldl (fun (m : BitVec 128) n =>
    if v.cleanV.getLsbD n && !v.awaitedRegs.contains n then putBit m n true else m) 0 else 0
  let x := { x with wait := if x.st = 3 then x.wait else if x.st = 1 then 0 else x.wait, clean := clean }
  sectRuns (if forced then v else v.loseLatches) x

/-- The parts of a workgroup: header, queues, matrix state, scratchpad, and the sections of its groups. -/
def State.wgParts (s : State) (forced incr : Bool) (x : SaveWg) : List AreaPart :=
  let ps := s.matPresent x.c
  let cleanM : BitVec 12 := if incr then ps.foldl (fun (m : BitVec 12) n => if x.w.cleanM.getLsbD n then putBit m n true else m) 0 else 0
  let cleanS : BitVec 128 := if incr then x.w.cleanS &&& BitVec.ofNat 128 (2 ^ ((x.w.spadLen + 4095) / 4096) - 1) else 0
  [wholePart (s.wgHeader x cleanM cleanS), wholePart ((s.ownedQueues x.c x.n).flatMap fun e => queueBytes e.1 e.2)]
    ++ (if x.w.matrix then [s.matPart x.c cleanM] else []) ++ [spadPart x.w cleanS]
    ++ (s.liveGroups x).map (s.sectPart forced incr)

/-- The area relative to which an incremental save is made: that last restored in full; 0 for none. -/
def saveBase (xs : List SaveWg) : Word :=
  match xs.filter fun x => x.w.groups != 0 with
  | [] => 0
  | x :: rest => if rest.all fun y => y.w.base == x.w.base then x.w.base else 0

/-- The header of an area. -/
def State.areaHeader (s : State) (e : Preempt) (xs : List SaveWg) (incr : Bool) (grcb : Word) (size : Nat) : List Byte :=
  let nb := (e.nbh.bind fun n => tabFind s.nbhs n)
  let base := if incr then saveBase xs else 0
  let ws : List W32 :=
    [BitVec.ofNat 32 (1 + bitNum e.nbh.isSome 8 + bitNum e.graceOver 9 + bitNum incr 10 + xs.length * 2 ^ 11),
     BitVec.ofNat 32 ((nb.map fun n => n.w + n.h * 8).getD 0), grcb.extractLsb' 0 32, grcb.extractLsb' 32 32,
     base.extractLsb' 0 32, base.extractLsb' 32 32, s.now.extractLsb' 0 32, s.now.extractLsb' 32 32, BitVec.ofNat 32 size]
      ++ List.replicate 54 0
  wordsToBytes (ws ++ [(crcWords ws).setWidth 32])

/-- The save is incremental. -/
def saveIncr (e : Preempt) (xs : List SaveWg) : Bool := e.incr && saveBase xs != 0

/-- All parts of an area after its header. -/
def State.areaParts (s : State) (e : Preempt) (xs : List SaveWg) : List AreaPart := xs.flatMap (s.wgParts e.graceOver (saveIncr e xs))

/-- The runs of an area. -/
def State.areaRuns (s : State) (e : Preempt) (xs : List SaveWg) (grcb : Word) : List Run :=
  let ps := s.areaParts e xs
  (0, s.areaHeader e xs (saveIncr e xs) grcb (partStarts ps 256).2) :: partRuns ps 256

/-! ### When the area can be written (R432) -/

/-- The group has only loads left that are parked whole, or that what is before them holds back, and that its section has a place for; and
fences. -/
def State.onlyParked (s : State) (g : GroupRef) : Bool :=
  (withPrefix [] (s.group g).sc.memq).all fun e =>
    let o := e.2
    o.kind == .fence
      || (o.kind.reads && ((o.parked && (s.unparked (.scalar g) o).isEmpty) || !s.mayPerform (.scalar g) e.1 o)
        && (match o.dest with
            | .lane dst _ _ _ cap => cap.isNone && (isV dst || isP dst || dst == 0xFF)
            | _ => true))

/-- Matrix operations are complete, stores and atomics performed, queue entries filled, and none popped before it is filled. -/
def State.saveQuiet (s : State) (xs : List SaveWg) : Bool :=
  xs.all fun x =>
    let gs := s.liveGroups x
    (gs.all fun g => s.onlyParked g && (s.group g).sc.popped.isNone && ((s.group g).held.all fun h => h.kind != .fill)
        && !(s.core g.at).mops.any fun o => o.slot == g.slot)
      && (s.ownedQueues x.c x.n).all fun q => q.2.entries.all (·.filled)

/-! ### What goes on for saved groups (R225, R269, R290, R432) -/

/-- A group of a save, with the place of its section and of its workgroup's local memories. -/
structure SavedPlace where
  g     : GroupRef
  sect  : Word
  spad  : Word
  scale : Option Word
  len   : Nat

/-- The places of the groups of one workgroup, given the starts of its parts. -/
def State.placesOf (s : State) (area : Word) (x : SaveWg) (ps : List AreaPart) (starts : List Nat) : List SavedPlace :=
  let at' (i : Nat) : Word := area + BitVec.ofNat 64 (starts.getD i 0)
  let k := if x.w.matrix then 3 else 2
  let scale := if x.w.matrix && (s.matPresent x.c).any (· < 8)
    then some (at' 2 + BitVec.ofNat 64 ((ps.getD 2 (0, [])).1 - 16384)) else none
  (s.liveGroups x).zipIdx.map fun e => { g := e.1, sect := at' (k + 1 + e.2), spad := at' k, scale := scale, len := x.w.spadLen }

/-- The places of every group of a request. -/
def State.savedPlaces (s : State) (e : Preempt) (area : Word) : List SaveWg → List Nat → List SavedPlace
  | [], _ => []
  | x :: xs, starts =>
    let ps := s.wgParts e.graceOver false x
    s.placesOf area x ps (starts.take ps.length) ++ s.savedPlaces e area xs (starts.drop ps.length)

/-- Asynchronous operations of saved groups write into the area from now on. -/
def AsyncOp.retarget (o : AsyncOp) (ps : List SavedPlace) : AsyncOp :=
  match ps.find? fun p => fetcherGroup o.issuer == some p.g && !o.saved with
  | some p =>
    { o with saved := true, spadAt := some p.spad, scaleAt := p.scale, spadLen := p.len,
             token := match o.token with | .reg _ d => .area o.part p.sect d | t => t }
  | none => o

/-- Posts of saved groups. -/
def Post.retarget (x : Post) (ps : List SavedPlace) : Post :=
  match x.token with
  | .reg f d =>
    (match ps.find? fun p => fetcherGroup f == some p.g with
     | some p => { x with token := .area x.part p.sect d }
     | none => x)
  | _ => x

/-- Parked accesses of saved groups: a load keeps its number, and an access without a value none. -/
def BogEntry.retarget (e : BogEntry) (part : PartId) (ps : List SavedPlace) : BogEntry :=
  let mine (f : Fetcher) : Bool := ps.any fun p => fetcherGroup f == some p.g
  match e.who with
  | .memop f id => if mine f then { e with who := .saved part id } else e
  | .fetch f => if mine f then { e with who := .saved part 0 } else e
  | _ => e

/-- Everything that goes on for saved groups takes their places in the area. -/
def State.retargetAll (s : State) (part : PartId) (ps : List SavedPlace) : State :=
  let s := { s with asyncs := s.asyncs.map fun o => o.retarget ps }
  allSlices.foldl (fun s i => s.modSlice i fun k =>
    { k with pairTab := k.pairTab.map fun x => x.retarget ps, bog := tabMap (fun _ e => e.retarget part ps) k.bog,
             missq := k.missq.map fun e => e.retarget part ps, heldRecs := k.heldRecs.map fun e => (e.1, e.2.retarget part ps) }) s

/-- What the hardware keeps of a saved group. -/
def State.savedGroup (s : State) (p : SavedPlace) : SavedGroup :=
  let v := s.group p.g
  { sect := p.sect, was := p.g, v := { v with pair := v.pair.map fun x => { x with unmatched := [] } } }

/-- The entry of a saved area. -/
def State.savedArea (s : State) (e : Preempt) (xs : List SaveWg) (ps : List SavedPlace) (gridNo : Nat) : SavedArea :=
  let r := tabGet {} s.grids gridNo
  { part := r.part, area := e.area, doms := r.domains, grid := gridNo, dead := s.gridHalted gridNo, asid := r.asid,
    groups := ps.map s.savedGroup, idxs := xs.map (·.w.idx),
    trigs := (ps.filter fun p => (s.group p.g).trig).map fun p => (((s.wgOf p.g).map (·.idx)).getD 0, (s.group p.g).gix),
    untriggered := ps.any fun p => !(s.group p.g).trig }

/-- The slots, registers, scratchpad and queues of a request are released. -/
def State.releaseSaved (s : State) (e : Preempt) (xs : List SaveWg) : State :=
  let s := xs.foldl (fun s x => (s.freeWg x.c x.n).releaseQueues x.c fun q => q.owner == x.n) s
  match e.nbh with
  | some n =>
    (match tabFind s.nbhs n with
     | some nb =>
       (List.range (nb.w * nb.h)).foldl (fun s k => s.releaseQueues (nb.coreAt k) fun q => q.nbh == some n)
         { s with nbhs := tabDel s.nbhs n }
     | none => s)
  | none => s

/-- Writes the area, and lets go of the workgroups. -/
def State.writeArea (s : State) (c : CoreRef) (e : Preempt) (xs : List SaveWg) (gridNo : Nat) (runs : List Run) : State :=
  let r := tabGet {} s.grids gridNo
  let ps := s.savedPlaces e e.area xs (partStarts (s.areaParts e xs) 256).1
  let a := s.savedArea e xs ps gridNo
  let s := (s.writeRuns (partEng r.part) e.area runs).retargetAll r.part ps
  let s := { s with saved := a :: s.saved.filter fun b => !(b.part == a.part && b.area == a.area) }
  (s.releaseSaved e xs).preemptTo c 3 0x01

/-- A save whose area cannot be written ends, and its groups go on. -/
def State.abandonSave (s : State) (c : CoreRef) (gs : List GroupRef) : State :=
  (gs.foldl (fun s g => if (s.group g).st == .saving then s.setGState g (if (s.group g).dbg then .stopped else .ready) else s) s).preemptTo c 3 0x81

/-- Goes on with a save that has begun. -/
def State.goOnSaving (s : State) (c : CoreRef) : State :=
  let e := (s.core c).preempt
  let xs := s.saveSet c e
  let gs := s.saveGroups xs
  let s := gs.foldl State.holdGroup s
  let gridNo := (xs.head?.map (·.w.grid)).getD 0
  let r := tabGet {} s.grids gridNo
  if s.saveStarts e || !s.saveQuiet xs then s
  else if s.gridHalted gridNo && !(r.domains.all fun d => s.recordsDone r.part d) then s
  else
    let runs := s.areaRuns e xs r.grcb
    match s.meetRuns (partEng r.part) e.area runs with
    | .ok => s.writeArea c e xs gridNo runs
    | .miss va => s.parkOnce (partEng r.part) va 6 (.save c)
    | .fault _ _ => s.abandonSave c gs

/-- A save goes on: it begins once every group is ready, and writes its area once all that it waits for is over. -/
def execPreemptSave (c : CoreRef) (s : State) : Host.Outcome State Fault Refusal :=
  .next (
    let e := (s.core c).preempt
    let gs := s.saveGroups (s.saveSet c e)
    if e.state = 1 && !gs.isEmpty && gs.all s.saveReady && !s.saveStarts e then s.beginSave c gs
    else if e.state = 2 then s.goOnSaving c
    else s)

end Sys2Proof.Machine
end

