-- ==== Sys2Proof/Machine/Restores.lean ====
section
/-! DEFINITION. Restoration (R435): reading a save area, its checks, and reinstating the workgroups it holds (R36, R434, R437). -/

namespace Sys2Proof.Machine

/-! ### Reading an area (R432) -/

/-- One workgroup of an area: its header words, its saved queues, and where its parts stand. -/
structure AreaWg where
  hdr    : List W32
  queues : List (Nat × HwQueue)
  matrix : Option Nat
  spad   : Nat
  /-- Offset and size of each group section. -/
  sects  : List (Nat × Nat)

/-- WGIDX. -/
def AreaWg.idx (x : AreaWg) : W32 := wordAt x.hdr 1
/-- k. -/
def AreaWg.k (x : AreaWg) : Nat := bitsOf (wordAt x.hdr 0) 9 5
/-- SPAD_BYTES. -/
def AreaWg.spadLen (x : AreaWg) : Nat := (wordAt x.hdr 2).toNat
/-- LP_BYTES. -/
def AreaWg.lpLen (x : AreaWg) : Nat := (wordAt x.hdr 3).toNat
/-- Matrix registers present. -/
def AreaWg.present (x : AreaWg) : List Nat := (List.range 12).filter fun n => bitAt (wordAt x.hdr 4) n
/-- Matrix registers clean. -/
def AreaWg.cleanM (x : AreaWg) : BitVec 12 := (wordAt x.hdr 4).extractLsb' 13 12
/-- Scratchpad chunks clean. -/
def AreaWg.cleanS (x : AreaWg) : BitVec 128 := wordAt x.hdr 11 ++ wordAt x.hdr 10 ++ wordAt x.hdr 9 ++ wordAt x.hdr 8

/-- A spawned workgroup (R52). -/
def AreaWg.spawned (x : AreaWg) : Bool := x.idx == 0xFFFFFFFF

/-- Saved queues from an offset: the queues, and the end. -/
def readQueues (bs : List Byte) : Nat → Nat → List (Nat × HwQueue) × Nat
  | 0, off => ([], off)
  | n + 1, off =>
    let w := wordAtOff bs off
    let wide := bitAt w 4
    let count := bitsOf w 44 32
    let size := if wide then 384 else 8
    let es := (List.range count).map fun i =>
      let b := (bs.drop (off + 8 + i * size)).take size
      if wide then ({ wide := true, lanes := lanes.map fun l => BitVec.ofNat 32 (numAt b (4 * l) 4) } : QEntry) else { value := wordAtOff b 0 }
    let (rest, e) := readQueues bs n (off + 8 + count * size)
    ((bitsOf w 3 0, { carved := true, wide := wide, depth := bitsOf w 20 8, entries := es }) :: rest, e)

/-- Group sections from an offset: offset and size of each, and the end. -/
def readSects (bs : List Byte) : Nat → Nat → List (Nat × Nat) × Nat
  | 0, off => ([], off)
  | n + 1, off =>
    let b := up64 off
    let size := numAt bs (b + 0x204) 4
    let (rest, e) := readSects bs n (b + size)
    ((b, size) :: rest, e)

/-- The size of a matrix part. -/
def matPartSize (present : List Nat) : Nat :=
  480 + (present.map matSize).foldl (· + ·) 0 + (if present.any (· < 8) then 16384 else 0)

/-- The workgroups of an area, `n` of them from an offset. `matrix` and `groups` are what the launch record gives an ordinary one. One without
groups has left only its queues. -/
def readAreaWgs (bs : List Byte) (matrix : Bool) (groups : Nat) : Nat → Nat → List AreaWg
  | 0, _ => []
  | n + 1, off =>
    let h := up64 off
    let hdr := bytesToWords 16 ((bs.drop h).take 64)
    let x : AreaWg := { hdr := hdr, queues := [], matrix := none, spad := 0, sects := [] }
    let (qs, e) := readQueues bs (min 16 (wordAt hdr 5).toNat) (up64 (h + 64))
    let mat := matrix && !x.spawned && bitsOf (wordAt hdr 0) 4 0 != 0
    let m := up64 e
    let e := if mat then m + matPartSize x.present else e
    let sp := up64 e
    let (ss, e) := readSects bs (bitsOf (wordAt hdr 0) 4 0) (sp + x.spadLen + (if x.spawned then 1 else groups) * 96 * x.lpLen)
    { x with queues := qs, matrix := if mat then some m else none, spad := sp, sects := ss } :: readAreaWgs bs matrix groups n e

/-- A header of an area holds: SAVER and its check code. -/
def areaHdrOk (w : List W32) : Bool := bitsOf (wordAt w 63) 15 0 == (crcWords ((List.range 63).map (wordAt w))).toNat

/-- A workgroup's header and the sections of its groups hold. -/
def AreaWg.crcOk (x : AreaWg) (bs : List Byte) : Bool :=
  bitsOf (wordAt x.hdr 15) 15 0 == (crcWords ((List.range 15).map (wordAt x.hdr))).toNat
    && x.sects.all fun e => sectCrcOk ((bs.drop e.1).take 0x400)

/-- The header of BASE agrees with that of an increment (R434). -/
def baseAgrees (w b : List W32) : Bool :=
  areaHdrOk b && !bitAt (wordAt b 0) 10 && bitsOf (wordAt b 0) 8 0 == bitsOf (wordAt w 0) 8 0 && bitsOf (wordAt b 0) 15 11 == bitsOf (wordAt w 0) 15 11
    && wordAt b 1 == wordAt w 1 && dwordAt b 2 == dwordAt w 2 && wordAt b 8 == wordAt w 8

/-- An area as it has been read: its header, its bytes, and those from which clean items are taken. -/
structure AreaRead where
  w    : List W32
  bs   : List Byte
  base : List Byte

/-- What reading an area comes to. -/
inductive AreaGot where
  | got (a : AreaRead)
  | miss (va : Word)
  | invalid
  | crc

/-- Reads an area, and its BASE when it is an incremental one. -/
def State.readArea (s : State) (p : PartId) (area : Word) : AreaGot :=
  let e := partEng p
  match s.meet e 5 area 256 with
  | .miss va => .miss va
  | .fault _ _ => .invalid
  | .ok =>
    let w := s.engWords e 5 area 64
    let size := (wordAt w 8).toNat
    if !areaHdrOk w then .crc
    else if bitsOf (wordAt w 0) 7 0 ≠ 1 || size < 256 then .invalid
    else
      match s.meet e 5 area size with
      | .miss va => .miss va
      | .fault _ _ => .invalid
      | .ok =>
        let bs := s.engBytes e 5 area size
        let base := dwordAt w 4
        if !bitAt (wordAt w 0) 10 || base = 0 then .got ⟨w, bs, bs⟩
        else
          match s.meet e 5 base size with
          | .miss va => .miss va
          | .fault _ _ => .invalid
          | .ok => if baseAgrees w (s.engWords e 5 base 64) then .got ⟨w, bs, s.engBytes e 5 base size⟩ else .invalid

/-! ### Room (R32, R329) -/

/-- The core that a workgroup of an area goes to: the engine's own, or its core of the rectangle at P. -/
def targetCore (c : CoreRef) (cmd : Word) (w : List W32) (x : AreaWg) : CoreRef :=
  if bitAt (wordAt w 0) 8 then
    let nw := max 1 (bitsOf (wordAt w 1) 2 0)
    clusterCore c.slice c.cluster (bitsOf cmd 4 0 + x.k / nw * 6 + x.k % nw)
  else c

/-- The rectangle of a neighbourhood lies in the cluster. -/
def rectFits (cmd : Word) (w : List W32) : Bool :=
  let p := bitsOf cmd 4 0
  !bitAt (wordAt w 0) 8 || (decide (p < 24) && decide (p % 6 + bitsOf (wordAt w 1) 2 0 ≤ 6) && decide (p / 6 + bitsOf (wordAt w 1) 5 3 ≤ 4))

/-- The group slots' registers that a workgroup of an area takes. -/
def AreaWg.regs (x : AreaWg) (bs : List Byte) : Nat := (x.sects.map fun e => min 128 (numAt bs (e.1 + 0x278) 1)).foldl (· + ·) 0

/-- A core has room for a workgroup of an area. -/
def Core.areaRoom (c : Core) (x : AreaWg) (bs : List Byte) (groups : Nat) (tenant : Word) : Bool :=
  decide (x.sects.length ≤ c.slotsFree.length) && decide (x.regs bs ≤ c.regsFree)
    && decide (x.spadLen + groups * 96 * x.lpLen + (x.queues.map fun q => q.2.bytes).foldl (· + ·) 0 ≤ c.spadFree)
    && !(x.matrix.isSome && c.matrixHeld) && (c.entryFor tenant).isSome

/-- The saved queue numbers are free on a core. -/
def Core.queuesFree (c : Core) (x : AreaWg) : Bool := x.queues.all fun q => !(tabGet {} c.hq q.1).carved

/-! ### Reinstating a workgroup -/

/-- The source of an item: the area's own bytes, or those of BASE when it is clean. -/
def AreaRead.src (a : AreaRead) (clean : Bool) : List Byte := if clean then a.base else a.bs

/-- n bytes of a source from an offset. -/
def cut (bs : List Byte) (off n : Nat) : List Byte := (bs.drop off).take n

/-- The scratchpad of a workgroup of an area. -/
def AreaRead.spadOf (a : AreaRead) (x : AreaWg) : Memory :=
  (List.range ((x.spadLen + 4095) / 4096)).foldl (fun m i =>
    memWrite m (4096 * i) (cut (a.src (x.cleanS.getLsbD i)) (x.spad + 4096 * i) (min 4096 (x.spadLen - 4096 * i)))) []

/-- The offsets of the data of the matrix registers present. -/
def matOffs : List Nat → Nat → List (Nat × Nat)
  | [], _ => []
  | n :: ns, off => (n, off) :: matOffs ns (off + matSize n)

/-- A tile register of an area. -/
def AreaRead.tileOf (a : AreaRead) (x : AreaWg) (m n : Nat) (offs : List (Nat × Nat)) : TileReg :=
  let st := wordAtOff a.bs (m + 8 * n)
  let data := match offs.find? fun e => e.1 == n with
    | some e => memWrite [] 0 (cut (a.src (x.cleanM.getLsbD n)) e.2 8192)
    | none => []
  { hdr := bytesToWords 8 (cut a.bs (m + 96 + 32 * n) 32), data := data, inuse := bitAt st 38, dirty := bitAt st 39 }

/-- An accumulator of an area. -/
def AreaRead.accOf (a : AreaRead) (x : AreaWg) (m n : Nat) (offs : List (Nat × Nat)) : AccReg :=
  let st := wordAtOff a.bs (m + 8 * (n + 8))
  let es := match offs.find? fun e => e.1 == n + 8 with
    | some e =>
      let bs := cut (a.src (x.cleanM.getLsbD (n + 8))) e.2 49152
      accTable fun i => BitVec.ofNat 96 (numAt bs (12 * i) 12)
    | none => []
  { efmt := BitVec.ofNat 6 (bitsOf st 37 32), elems := es, nanc := st.extractLsb' 0 32, inuse := bitAt st 38, dirty := bitAt st 39 }

/-- Matrix state of an area, into a core. -/
def Core.restoreMatrix (c : Core) (a : AreaRead) (x : AreaWg) (m : Nat) : Core :=
  let offs := matOffs x.present (m + 480)
  let scaleAt := m + matPartSize x.present - 16384
  { c with tiles := (List.range 8).map fun n => (n, a.tileOf x m n offs),
           accs := (List.range 4).map fun n => (n, a.accOf x m n offs),
           scale := if x.present.any (· < 8) then memWrite [] 0 (cut a.bs scaleAt 16384) else [], mops := [], mlog := [] }

/-- What the hardware still holds of a group of an area. -/
def State.keptGroup (s : State) (p : PartId) (sect : Word) : Option SavedGroup :=
  (s.saved.filter fun a => a.part == p && !a.dead).findSome? fun a => a.groups.find? fun x => x.sect == sect

/-- The pair of a restored group. Unmatched values in the section come before those sent since. A pair of which the hardware holds
nothing has ended. -/
def restoredPair (bs : List Byte) (kept : Option SavedGroup) (id : Nat) : Option Pair :=
  let m := sectMap bs
  let key : W32 := BitVec.ofNat 32 (numAt bs 0x380 4)
  let unm := (List.range m.unmN).map fun i => laneWordsAt' bs (m.unm + 768 * i)
  let there := wordAtOff bs 0x388 != 0
  match kept with
  | some x => x.v.pair.map fun p =>
      if there && p.key == key then
        { p with sends := numAt bs 0x390 8, recvs := numAt bs 0x398 8, unmatched := unm ++ p.unmatched }
      else p
  | none =>
    if there then
      some { id := id, key := key, partner := ⟨idx 8 (bitsOf (wordAtOff bs 0x388) 26 24), idx 144 (bitsOf (wordAtOff bs 0x388) 15 8),
               idx 32 (bitsOf (wordAtOff bs 0x388) 20 16)⟩, sends := numAt bs 0x390 8, recvs := numAt bs 0x398 8, unmatched := unm, ended := true }
    else none

/-- A group of an area, as it stands in its new place. -/
def State.restoredGroup (s : State) (a : AreaRead) (area : Word) (gridNo wgNo : Nat) (nbh : Bool) (c : CoreRef) (at' : Nat × Nat) (i : Nat) : Group :=
  let r := tabGet {} s.grids gridNo
  let bs := cut a.bs at'.1 at'.2
  let base := cut a.base at'.1 at'.2
  let kept := s.keptGroup r.part (area + BitVec.ofNat 64 at'.1)
  let clean : BitVec 128 := BitVec.ofNat 128 (numAt bs 0x3C0 16)
  let old : Group := match kept with | some x => x.v | none => { gix := i }
  let v := readSection bs (fun n => if clean.getLsbD n then base else bs) old fun l => (s.freeLane l).extractLsb' 0 24
  let incr := bitAt (wordAt a.w 0) 10
  { v with
    st := if v.st == .blocked && kept.isNone then .ready else v.st,
    part := r.part, grid := gridNo, wg := wgNo, nbh := nbh, ten := s.tenIndex c r, prio := r.prio, readyAt := s.now, stamp := s.now,
    aged := false, young := false, faultCode := 0, origin := false, pair := restoredPair bs kept s.nextId,
    cleanV := if incr then clean else BitVec.ofNat 128 (2 ^ v.nreg - 1) }

/-- A restored group: its section's address, where it stood, and where it stands. -/
structure Return where
  sect : Word
  was  : Option SavedGroup
  g    : GroupRef
  wgNo : Nat
  bs   : List Byte

/-- Puts a workgroup of an area onto a core. -/
def State.restoreWg (s : State) (a : AreaRead) (area : Word) (gridNo : Nat) (nbh : Option Nat) (c : CoreRef) (x : AreaWg) : State × List Return :=
  let r := tabGet {} s.grids gridNo
  let s := (s.bindTenant c r).enterCluster c gridNo
  let incr := bitAt (wordAt a.w 0) 10
  let groups := if x.spawned then 1 else lrGroups r.lrec
  let wgNo := s.nextId
  let s := s.takeId
  let w : Workgroup :=
    { grid := gridNo, idx := x.idx, groups := groups, spadLen := x.spadLen, lpLen := x.lpLen, matrix := x.matrix.isSome, spawned := x.spawned,
      nbh := nbh, k := x.k, spad := a.spadOf x, lp := memWrite [] 0 (cut a.bs (x.spad + x.spadLen) (groups * 96 * x.lpLen)),
      cleanS := if incr then x.cleanS else BitVec.allOnes 128, cleanM := if incr then x.cleanM else BitVec.allOnes 12,
      base := if incr then dwordAt a.w 4 else area }
  let slots := (s.core c).slotsFree
  let places := x.sects.zipIdx.map fun e => (e.1, e.2, slots.getD e.2 0)
  let s := s.modCore c fun k =>
    let k := match x.matrix with | some m => k.restoreMatrix a x m | none => k
    { k with wgs := if x.sects.isEmpty then k.wgs else tabSet k.wgs wgNo w,
             hq := x.queues.foldl (fun t q => tabSet t q.1 { q.2 with owner := wgNo, nbh := nbh }) k.hq }
  places.foldl (fun (acc : State × List Return) e =>
    let v := acc.1.restoredGroup a area gridNo wgNo nbh.isSome c e.1 e.2.1
    let g : GroupRef := ⟨c.slice, c.core, idx 32 e.2.2⟩
    let sect := area + BitVec.ofNat 64 e.1.1
    let ret : Return := { sect := sect, was := acc.1.keptGroup r.part sect, g := g, wgNo := wgNo, bs := cut a.bs e.1.1 0x400 }
    ((acc.1.takeId.draw).setGroup g v, acc.2 ++ [ret])) (s, [])

/-! ### What comes back to the groups -/

/-- An asynchronous operation writes into its group again. -/
def AsyncOp.comeBack (o : AsyncOp) (rs : List Return) : AsyncOp :=
  match o.token with
  | .area _ sect d =>
    (match rs.find? fun r => r.sect == sect with
     | some r => { o with saved := false, issuer := .scalar r.g, wg := r.wgNo, token := .reg (.scalar r.g) d, spadAt := none, scaleAt := none }
     | none => o)
  | _ => o

/-- So does a post. -/
def Post.comeBack (x : Post) (rs : List Return) : Post :=
  match x.token with
  | .area _ sect d => (match rs.find? fun r => r.sect == sect with | some r => { x with token := .reg (.scalar r.g) d, g := r.g } | none => x)
  | _ => x

/-- A parked load is its group's again. -/
def BogEntry.comeBack (e : BogEntry) (part : PartId) (rs : List Return) : BogEntry :=
  match e.who with
  | .saved p id =>
    if p ≠ part then e
    else
      (match rs.find? fun r => (r.was.map fun x => x.v.sc.memq.any (·.id == id)).getD false with
       | some r => { e with who := .memop (.scalar r.g) id }
       | none => e)
  | _ => e

/-- Everything that went on for the groups comes back to them. -/
def State.comeBack (s : State) (part : PartId) (rs : List Return) : State :=
  let s := { s with asyncs := s.asyncs.map fun o => if o.part = part then o.comeBack rs else o }
  allSlices.foldl (fun s i => s.modSlice i fun k =>
    { k with pairTab := k.pairTab.map fun x => if x.part = part then x.comeBack rs else x, bog := tabMap (fun _ e => e.comeBack part rs) k.bog,
             missq := k.missq.map fun e => e.comeBack part rs, heldRecs := k.heldRecs.map fun e => (e.1, e.2.comeBack part rs) }) s

/-- A group saved at a barrier stands at it again, without arriving again. -/
def State.standAt (s : State) (r : Return) : State :=
  match (s.group r.g).arrived with
  | none => s
  | some (n, nb, gen) =>
    let b := s.barrier r.g nb n
    s.setBarrier r.g nb n { count := numAt r.bs 0x31C 4, arrived := b.arrived ++ [r.g], gen := gen }

/-- Watches are re-read, and a group whose wait ends by that is ready (R284). -/
def State.rereadAll (s : State) (g : GroupRef) : State :=
  [0, 1, 2, 3].foldl (fun s k => s.rereadWatch (.lane g k)) (s.rereadWatch (.scalar g))

/-- Puts the workgroups of an area onto their cores. -/
def State.restoreWgs (s : State) (a : AreaRead) (area cmd : Word) (gridNo : Nat) (nbh : Option Nat) (c : CoreRef) :
    List AreaWg → State × List Return
  | [] => (s, [])
  | x :: xs =>
    let (s, rs) := s.restoreWg a area gridNo nbh (targetCore c cmd a.w x) x
    let (s, qs) := s.restoreWgs a area cmd gridNo nbh c xs
    (s, rs ++ qs)

/-- Reinstates everything in an area. -/
def State.reinstate (s : State) (c : CoreRef) (p : PartId) (area cmd : Word) (a : AreaRead) (gridNo : Nat) (xs : List AreaWg) : State :=
  let isN := bitAt (wordAt a.w 0) 8
  let w := bitsOf (wordAt a.w 1) 2 0
  let h := bitsOf (wordAt a.w 1) 5 3
  let id := s.nextId
  let s := if isN then
      let first := match xs with | x :: _ => x.idx.toNat - x.k | [] => 0
      let nb : Nbh := { grid := gridNo, w := w, h := h, slice := c.slice, core0 := c.cluster * 24 + bitsOf cmd 4 0, alive := (xs.filter fun x => !x.sects.isEmpty).length, first := first }
      ({ s.takeId with nbhs := tabSet s.nbhs id nb }).setRect c.slice c.cluster (bitsOf cmd 4 0) w h false
    else s
  let (s, rs) := s.restoreWgs a area cmd gridNo (if isN then some id else none) c xs
  let s := rs.foldl State.standAt (s.comeBack p rs)
  let s := { s with saved := s.saved.filter fun b => !(b.part == p && b.area == area) }
  (rs.foldl (fun s r => s.rereadAll r.g) s).preemptTo c 3 0x03

/-! ### RESTCMD -/

/-- The grid of an area: that of a known one, or a grid of the partition that the area's GRCB names. -/
def State.areaGrid (s : State) (p : PartId) (area grcb : Word) : Option Nat :=
  match s.saved.find? fun a => a.part == p && a.area == area with
  | some a => some a.grid
  | none => (s.grids.find? fun e => e.2.part == p && e.2.grcb == grcb && !e.2.ended).map (·.1)

/-- A failed integrity check: the halt line of the domain, cause 0x22, and nothing is restored. -/
def State.badArea (s : State) (c : CoreRef) (gridNo : Option Nat) : State :=
  let s := match gridNo with
    | some n =>
      let r : Grid := tabGet {} s.grids n
      s.raiseHalt r.part (r.domains.headD 0) 0x22 (some n)
    | none => s
  s.preemptTo c 3 0x81

/-- The area has been marked by a reset, or its domain is halted. -/
def State.areaDead (s : State) (p : PartId) (area : Word) (gridNo : Nat) : Bool :=
  (s.saved.any fun a => a.part == p && a.area == area && a.dead) || s.gridHalted gridNo

/-- The checks of an area that has been read, and its restoration. -/
def State.checkArea (s : State) (c : CoreRef) (p : PartId) (area cmd : Word) (a : AreaRead) : State :=
  match s.areaGrid p area (dwordAt a.w 2) with
  | none => s.preemptTo c 3 0x81
  | some n =>
    let r := tabGet {} s.grids n
    let groups := lrGroups r.lrec
    let xs := readAreaWgs a.bs (lrMatrix r.lrec) groups (bitsOf (wordAt a.w 0) 15 11) 256
    let core (x : AreaWg) : Core := s.core (targetCore c cmd a.w x)
    if !xs.all (·.crcOk a.bs) then s.badArea c (some n)
    else if s.areaDead p area n then s.preemptTo c 3 0x82
    else if !(rectFits cmd a.w && xs.all fun x => (core x).areaRoom x a.bs (if x.spawned then 1 else groups) r.tenant) then s.preemptTo c 3 0x80
    else if !xs.all fun x => (core x).queuesFree x then s.preemptTo c 3 0x83
    else s.reinstate c p area cmd a n xs

/-- Tries a restore. One whose area cannot be read for a miss waits and is tried again. -/
def State.tryRestore (s : State) (c : CoreRef) (cmd : Word) : State :=
  let p := s.partOf! c.slice
  let area := cmd &&& 0x00FFFFFFFFFFFF00
  let s := s.modPreempt c fun e => { e with rest := none }
  match s.readArea p area with
  | .miss va => (s.parkOnce (partEng p) va 5 (.save c)).modPreempt c fun e => { e with rest := some cmd }
  | .invalid => s.preemptTo c 3 0x81
  | .crc => s.badArea c ((s.saved.find? fun a => a.part == p && a.area == area).map (·.grid))
  | .got a => s.checkArea c p area cmd a

/-- A write of `CORE.RESTCMD`; while a save waits or is under way it does nothing. -/
def execRestcmd (c : CoreRef) (cmd : Word) (s : State) : Host.Outcome State Fault Refusal :=
  .next (
    let e := (s.core c).preempt
    if e.state = 1 || e.state = 2 || (s.partOf c.slice).isNone then s else s.tryRestore c cmd)

/-- A restore that waits for its area is tried again once no miss holds it. -/
def State.restoreSettle (s : State) (c : CoreRef) : State :=
  match (s.core c).preempt.rest with
  | some cmd => if s.isParked (.save c) then s else s.tryRestore c cmd
  | none => s

end Sys2Proof.Machine
end

