-- ==== Sys2Proof/Machine/MemEvents.lean ====
section
/-! DEFINITION. Releases of parked accesses (R271, R272, R432), the writes that drop cached translations and lines (R386), and the miss ring's
registers (R387). -/

namespace Sys2Proof.Machine

/-! ### Bog entries -/

/-- An entry of a controller. -/
def State.bogAt (s : State) (i : SliceId) (key : Nat) : BogEntry := tabGet {} (s.slice i).bog key

/-- Frees an entry; waiting misses go on. -/
def State.freeEntry (s : State) (i : SliceId) (key : Nat) : State := (s.modSlice i fun k => { k with bog := tabDel k.bog key }).pump i

/-- Whether an access would be parked again. -/
def State.stillMisses (s : State) (e : BogEntry) : Bool := s.reach (s.reqPart e.who) e.asid e.va e.kind.toNat == .miss

/-! ### Loads of saved groups (R269, R432) -/

/-- Takes a load off what is kept of a saved group, or changes it. -/
def State.setSavedOp (s : State) (p : PartId) (id : Nat) (new : Option MemOp) : State :=
  { s with saved := s.saved.map fun (a : SavedArea) =>
      if a.part = p then
        { a with groups := a.groups.map fun (x : SavedGroup) =>
            { x with v := { x.v with sc := { x.v.sc with memq := x.v.sc.memq.filterMap fun o => if o.id = id then new else some o } } } }
      else a }

/-- Lane values that overwrite the lanes acted on in a run of bytes. -/
def patchLanes (old : List Byte) (acted : Mask) (vals : Nat → W32) : List Byte :=
  lanes.flatMap fun l => if acted.getLsbD l then natToBytes (vals l).toNat 4 else (old.drop (4 * l)).take 4

/-- Writes lane values into the vector data of a section, which is saved unpacked. -/
def State.sectVector (s : State) (p : PartId) (sect : Word) (n : Nat) (acted : Mask) (vals : Nat → W32) : State :=
  let e := partEng p
  let bs := s.engBytes e 6 sect (bitsOf (s.sectWord p sect 0x200) 63 32)
  let m := sectMap bs
  let at' := (sectDataOffs bs m).getD n 0
  let desc := natToBytes 2 4 ++ natToBytes 0 8
  let old := readVReg ((bs.drop (m.desc + 12 * n)).take 12) ((bs.drop at').take 384)
  let data := patchLanes ((List.range 96).flatMap fun l => natToBytes (old.lane l).toNat 4) acted vals
  if n < m.nreg then
    ((s.engWrite e (sect + BitVec.ofNat 64 (m.desc + 12 * n)) desc).1.engWrite e (sect + BitVec.ofNat 64 at') data).1
  else s

/-- Writes the values of a finished load of a saved group into its section. -/
def State.deliverSaved (s : State) (p : PartId) (x : SavedGroup) (o : MemOp) : State :=
  match o.dest with
  | .sreg d =>
    let v := match o.got with | (_, v) :: _ => o.extend v 64 | [] => 0
    let mask := putBit (s.sectWord p x.sect 0x290) d.toNat false
    (s.sectPut p x.sect (8 * d.toNat) (natToBytes (if d = 0 then 0 else (storedIn d v).toNat) 8)).sectPut p x.sect 0x290 (natToBytes mask.toNat 8)
  | .lane dst wide acted zero _ =>
    let val (l : Nat) : Word := match o.got.find? fun e => e.1 == l with | some e => o.extend e.2 (if wide then 64 else 32) | none => 0
    let m : Mask := if zero then fullMask else acted
    let at' (half l : Nat) : W32 := if acted.getLsbD l then (val l).extractLsb' (32 * half) 32 else 0
    if isV dst then
      ((codeRegs dst wide).zipIdx).foldl (fun s e => s.sectVector p x.sect e.1 m (at' e.2)) s
    else if isP dst then
      let old := BitVec.ofNat 96 (bytesToNat (s.engBytes (partEng p) 6 (x.sect + BitVec.ofNat 64 (0x2A0 + 12 * (dst.toNat % 8))) 12))
      let new : Mask := lanes.foldl (fun (w : Mask) l => if m.getLsbD l then putBit w l (acted.getLsbD l && bitAt (val l) 0) else w) old
      if dst.toNat % 8 < 7 then s.sectPut p x.sect (0x2A0 + 12 * (dst.toNat % 8)) (maskBytes new) else s
    else s
  | .none => s

/-- The line's last completion time goes into the saved `GRP.WCT` with the value of a load (R311). -/
def State.savedTimes (s : State) (p : PartId) (x : SavedGroup) (asid : W16) (va : Word) : State :=
  match s.reach p asid va 1 with
  | .ok pa _ =>
    let t := tabGet 0 (s.slice (s.home p (va.toNat / 64)).1).lineWct (pa / 64)
    let cov := tabGet 0 s.lineCov (pa / 64)
    let put (c : Scalar) : Scalar := { c.mergeWct t with obs := later c.obs cov }
    let s := s.sectPut p x.sect 0x270 (natToBytes (later (s.sectWord p x.sect 0x270) t).toNat 8)
    { s with saved := s.saved.map fun (a : SavedArea) =>
        if a.part = p then
          { a with groups := a.groups.map fun (y : SavedGroup) => if y.sect = x.sect then { y with v := { y.v with sc := put y.v.sc } } else y }
        else a }
  | _ => s

/-- A load of a saved group performs the access that a retry has let through. -/
def State.performSaved (s : State) (p : PartId) (id : Nat) (asid : W16) (va : Word) : State :=
  match (s.saved.filter fun a => a.part == p && !a.dead).findSome? fun a => a.groups.find? fun x => x.v.sc.memq.any (·.id == id) with
  | none => s
  | some x =>
    match x.v.sc.memq.find? (·.id == id) with
    | none => s
    | some o =>
      let mine (y : LaneAcc) : Bool := match y.place with | .global b u => b == asid && u == va | _ => false
      match o.accs.find? mine with
      | none => s
      | some y =>
        let e : EngId := { a := .none, part := p, asid := asid }
        let v : Word := BitVec.ofNat 64 (bytesToNat (s.engBytes e 1 va o.width))
        let o' := { o with got := o.got ++ [(y.lane, v)], accs := o.accs.filter fun z => z.lane != y.lane }
        let s := s.savedTimes p x asid va
        if o'.accs.isEmpty then (s.deliverSaved p x o').setSavedOp p id none else s.setSavedOp p id (some o')

/-- The grid of a saved group that has a load in flight. -/
def State.savedGrid (s : State) (p : PartId) (id : Nat) : Option Nat :=
  ((s.saved.filter fun a => a.part == p && !a.dead).find? fun a => a.groups.any fun x => x.v.sc.memq.any (·.id == id)).map (·.grid)

/-- A load of a saved group faults: it is discarded, and the halt line of its domain is raised. -/
def State.faultSaved (s : State) (p : PartId) (id : Nat) (c : Cause) : State :=
  match s.savedGrid p id with
  | some n =>
    let r : Grid := tabGet {} s.grids n
    let s := s.setSavedOp p id none
    if s.isHalted p r.domains then s else s.raiseHalt p (r.domains.headD 0) c.code (some n)
  | none => s

/-! ### Retry (R271, R272) -/

/-- Performs the access of an entry that no longer misses. What an engine, a fetch or an agent asked for goes on by that unit's own events. -/
def State.performEntry (s : State) (e : BogEntry) : State :=
  match e.who with
  | .memop f id =>
    let a := fetcherAgent f
    (match (s.scOf a).memq.find? (·.id == id) with
     | some o =>
       let mine (x : LaneAcc) : Bool := match x.place with | .global b u => b == e.asid && u == e.va | _ => false
       (match o.accs.find? mine with
        | some x => s.performOp a o [x]
        | none => s)
     | none => s)
  | .saved p id =>
    (match s.reach p e.asid e.va e.kind.toNat with
     | .dyke => s.faultSaved p id .dyke
     | .ok _ _ =>
       (match s.readRun { a := .none, part := p, asid := e.asid } 1 e.va.toNat 1 with
        | (s, .fault c _) => s.faultSaved p id c
        | (s, _) => s.performSaved p id e.asid e.va)
     | .miss => s)
  | _ => s

/-- Retries an entry: it is freed and its access performed, or it is parked again, with a record when `first`. -/
def State.retryEntry (s : State) (i : SliceId) (key : Nat) (first : Bool) : State :=
  let e := s.bogAt i key
  if s.stillMisses e then
    let e := { e with since := s.now }
    let s := s.modSlice i fun k => { k with bog := tabSet k.bog key e }
    if first then s.record i key e else s
  else (s.freeEntry i key).performEntry e

/-- The key of an entry of a controller. -/
def bogKey (ctl : Fin 2) (entry : BitVec 10) : Nat := ctl.val * 1024 + entry.toNat

/-- ACTION 0: retries one entry. -/
def execBogRetry (slice : SliceId) (ctl : Fin 2) (entry : BitVec 10) (s : State) : Host.Outcome State Fault Refusal :=
  .next (if (s.bogAt slice (bogKey ctl entry)).used then s.retryEntry slice (bogKey ctl entry) true else s)

/-- Retries entries in turn; of each controller, the first that is parked again writes the record of its page. -/
def State.retryKeys (s : State) (i : SliceId) (noted : List Nat) : List Nat → State
  | [] => s
  | key :: keys =>
    let again := s.stillMisses (s.bogAt i key)
    let t := s.retryEntry i key (!noted.contains (key / 1024))
    t.retryKeys i (if again then key / 1024 :: noted else noted) keys

/-- ACTION 2: retries every entry of the slice parked on the entry's ASID and 4 KiB page. -/
def execBogRetryPage (slice : SliceId) (ctl : Fin 2) (entry : BitVec 10) (s : State) : Host.Outcome State Fault Refusal :=
  .next (
    let e := s.bogAt slice (bogKey ctl entry)
    if !e.used then s
    else
      let keys := ((s.slice slice).bog.map (·.1)).eraseDups.filter fun n =>
        let x := s.bogAt slice n
        x.used && x.asid == e.asid && x.va.toNat / 4096 == e.va.toNat / 4096
      s.retryKeys slice [] keys)

/-! ### Fatal release (R272) -/

/-- The save, the restore, or the stop area that an engine's access was for comes to nothing. -/
def State.faultSave (s : State) (c : CoreRef) : State :=
  let e := (s.core c).preempt
  if e.rest.isSome then (s.modPreempt c fun e => { e with rest := none }).preemptTo c 3 0x81
  else if e.state = 2 then s.abandonSave c (s.saveGroups (s.saveSet c e))
  else
    s.halts.foldl (fun s h =>
      if h.part == s.partOf! c.slice then
        match s.stopArea h with
        | .meets _ _ => s.writeHalt h none
        | _ => s
      else s) s

/-- Discards the access of an entry with the fatal-translation fault of its requester. -/
def State.fatalEntry (s : State) (e : BogEntry) : State :=
  match e.who with
  | .memop f id =>
    let a := fetcherAgent f
    (match (s.scOf a).memq.find? (·.id == id) with
     | some o => s.dropOp a o .translation e.va
     | none =>
       if id = 0 then s.raiseAfar a .translation e.va e.kind ((s.fetchAt a (codeAddr (s.scOf a).spc)).getD 0) (s.scOf a).spc else s)
  | .fetch f => (s.setFrozen f false).raiseAfar (fetcherAgent f) .translation e.va 4 0 e.va
  | .asyncOp id =>
    (match s.asyncs.find? fun o => o.id == id with
     | some o => s.settleAsync o (.fault s .translation e.va e.kind.toNat)
     | none => s)
  | .matop c id =>
    (match (s.core c).mops.find? (·.id == id) with
     | some m =>
       let g := matGroup c m
       s.unitFault 2 g (s.group g).grid (((s.wgOf g).map (·.idx)).getD 0) m.word .translation e.va e.kind m.instr
     | none => s)
  | .queue i q n =>
    (match n with
     | 0 =>
       (match s.waiter i q, s.slotOf i q with
        | some x, _ => (s.retirePacket x).stopQueue i q 0x04 x.pidx x.words false
        | none, some n =>
          let k := s.qslot i n
          let copy := match k.held with | some (_, ws) => ws | none => if k.copy.isEmpty then s.freeCopy else k.copy
          if k.state = 2 && qcStopped k.qcb then (s.modSlot i n fun _ => {}).sliceEvent i 0x03 n (q.val % 144)
          else (s.modSlot i n fun k => { k with state := 1, victim := false }).draw.stopQueue i q 0x04 (qcRd k.qcb) copy false
        | none, none => s)
     | 1 =>
       ({ s with kicks := match s.kicks.find? fun (k : Kick) => k.slice == i && k.q == q with | some k => s.kicks.erase k | none => s.kicks }).raiseSource i 0x2
     | 2 =>
       (match s.started.find? fun x => x.slice == i && x.q == q && x.due && x.parked with
        | some x => (s.retirePacket x).stopQueue i q 0x04 x.pidx x.words true
        | none => s)
     | 4 =>
       (s.modSlice i fun k => { k with stops := match k.stops.find? fun (x : QStop) => x.q == q with | some x => k.stops.erase x | none => k.stops }).raiseSource i 0x2
     | 5 => s.dropPending i q true
     | _ =>
       let t := s.modSlice i fun k => { k with handlers := match k.handlers.find? fun h => h.1 == q with
                                                | some h => k.handlers.erase h | none => k.handlers }
       (match t.qcbOf i q with
        | some (w, _) => t.setQcb i q (setWord w 0 (putBit (wordAt w 0) 9 true))
        | none => t).raiseSource i 0x2)
  | .saved p id => s.faultSaved p id .translation
  | .save c => s.faultSave c

/-- ACTION 1: the fatal release of one entry. -/
def execBogFatal (slice : SliceId) (ctl : Fin 2) (entry : BitVec 10) (s : State) : Host.Outcome State Fault Refusal :=
  .next (
    let e := s.bogAt slice (bogKey ctl entry)
    if e.used then (s.freeEntry slice (bogKey ctl entry)).fatalEntry e else s)

/-! ### Dropping translations and lines (R386) -/

/-- A write of `SLICE.WCINV`. The model walks the tables at every access that the L2 does not hold, so that no cached entry is left to drop:
BUSY reads 0. -/
def execWcinvWrite (slice : SliceId) (value : Word) (s : State) : Host.Outcome State Fault Refusal :=
  .next (let _ := slice; let _ := value; s)

/-- The physical lines that a flush names: those cached under the ASID in the 64 KiB region. -/
def flushLines (k : Slice) (asid : W16) (region : Nat) : List Nat :=
  (k.l2.filter fun e => e.2.key / 2 ^ 58 == asid.toNat && e.2.key % 2 ^ 58 / 1024 == region).map (·.1)

/-- Flushes one slice's lines: each leaves its segment, and its lease is waited for. -/
def State.flushSlice (s : State) (asid : W16) (region : Nat) (s0 : State) (i : SliceId) : State × Word :=
  (flushLines (s0.slice i) asid region).foldl (fun (acc : State × Word) pl =>
    (acc.1.dropLine i pl, later acc.2 (tabGet 0 (s0.slice i).leases pl))) (s, 0)

/-- A write of `SLICE.L2FLUSH`: every line of the region on every slice of the partition is written back and invalidated; BUSY reads 1 until
every lease on them has expired. -/
def execL2flushWrite (slice : SliceId) (value : Word) (s : State) : Host.Outcome State Fault Refusal :=
  .next (match s.partOf slice with
    | none => s
    | some p =>
      let asid : W16 := value.extractLsb' 0 16
      let region := bitsOf value 55 16
      let r := (s.memberSlices p).foldl (fun (acc : State × Word) i =>
        let t := acc.1.flushSlice asid region s i
        (t.1, later acc.2 t.2)) (s, 0)
      r.1.modSlice slice fun k => { k with flushUntil := later k.flushUntil r.2 })

/-! ### The miss ring (R387) -/

/-- What `SLICE.MRBASE` stores: the address, and LOG from 4 to 16. -/
def ringWord (v : Word) : Word :=
  BitVec.ofNat 64 (bitsOf v 55 12 * 4096 + max 4 (min 16 (bitsOf v 4 0)))

/-- A write of `SLICE.MRBASE`: held records are released. Written 0 after it has been non-zero, source 0x8 may be raised for it again. -/
def execMrbaseWrite (slice : SliceId) (value : Word) (s : State) : Host.Outcome State Fault Refusal :=
  .next (
    let t := s.setSliceReg slice 0x763 (ringWord value)
    let t := if t.ringBase slice = 0 && s.ringBase slice ≠ 0 then t.modSlice slice fun k => { k with noRingRaised := false } else t
    (t.noteFull slice s).pump slice)

/-- A write of `SLICE.MRRD`: the kernel's read count. -/
def execMrrdWrite (slice : SliceId) (value : Word) (s : State) : Host.Outcome State Fault Refusal :=
  .next (((s.setSliceReg slice 0x765 value).noteFull slice s).pump slice)

end Sys2Proof.Machine
end

