-- ==== Sys2Proof/Machine/Counters.lean ====
section
/-! DEFINITION. Counters that time or software changes: HBM credits (R405), seep counters (R406, R407), the fault injector's control (R418) and
performance counters (R413). -/

namespace Sys2Proof.Machine

/-- Bytes of a memory controller in one µs: half of a slice's 7.2 TB/s. -/
def controllerShare : Nat := 3600000

/-- What a credit rises by in one µs, and its cap. -/
def creditRise (share : Nat) : Nat := share * controllerShare / 65536

/-- The tenants of a partition's grids, with their effective HBMSH as it stands. -/
def State.hbmShares (s : State) (p : PartId) : List (Word × Nat) :=
  let ts := ((s.grids.filter fun e => e.2.part == p && !e.2.ended).map fun e => e.2.tenant).eraseDups
  ts.filterMap fun t =>
    match s.rcbWalk (partEng p) t with
    | .ok ns => if effShare ns = 0 then none else some (t, effShare ns)
    | _ => none

/-- Each µs the credit of every tenant with a share rises at a controller. -/
def execHbmCreditRefill (slice : SliceId) (ctl : Fin 2) (s : State) : Host.Outcome State Fault Refusal :=
  .next (match s.partOf slice with
    | none => s
    | some p =>
      let k := s.slice slice
      if !s.passed (tabGet 0 k.creditSince ctl.val) 1000 then s
      else
        let old : List Credit := tabGet [] k.credits ctl.val
        let new := (s.hbmShares p).map fun t =>
          let c : Int := match old.find? fun x => x.tenant == t.1 with | some x => x.credit | none => 0
          ({ tenant := t.1, share := t.2, credit := min (c + creditRise t.2) (creditRise t.2) } : Credit)
        s.modSlice slice fun k =>
          { k with credits := tabSet k.credits ctl.val new, creditSince := tabSet k.creditSince ctl.val s.now })

/-- A seep counter leaks: it falls by 1, and is armed again below MARK / 2. -/
def Seep.leak (c : Seep) (mark : Nat) (now : Word) : Seep :=
  if c.value = 0 then c
  else
    let v := c.value.toNat - 1
    { value := BitVec.ofNat 16 v, armed := c.armed || decide (2 * v < mark), stamp := now }

/-- At the end of a leak interval every counter of the kind falls by 1. -/
def execSeepLeak (slice : SliceId) (kind : Fin 3) (s : State) : Host.Outcome State Fault Refusal :=
  .next (
    let mark := s.seepMark slice kind.val
    if s.passed (tabGet 0 (s.slice slice).seepSince kind.val) (s.seepLeak slice kind.val) then
      s.modSlice slice fun k =>
        { k with seep := tabMap (fun n c => if seepKind n = kind.val then c.leak mark s.now else c) k.seep,
                 seepSince := tabSet k.seepSince kind.val s.now }
    else s)

/-- What a write of `SLICE.SEEPCFGn` stores. -/
def seepCfgWord (v : Word) : Word :=
  BitVec.ofNat 64 ((if bitsOf v 15 0 = 0 then 256 else bitsOf v 15 0) + bitsOf v 23 16 * 2 ^ 16
    + (if bitsOf v 47 24 = 0 then 1 else bitsOf v 47 24) * 2 ^ 24)

/-- A write of `SLICE.SEEPCFGn`: it restarts the kind's interval. -/
def execSeepcfgWrite (slice : SliceId) (kind : Fin 3) (value : Word) (s : State) : Host.Outcome State Fault Refusal :=
  .next ((s.setSliceReg slice (0x425 + kind.val) (seepCfgWord value)).modSlice slice fun k =>
    { k with seepSince := tabSet k.seepSince kind.val s.now })

/-- The slice belongs to a partition whose TEST bit is set. -/
def State.testSlice (s : State) (i : SliceId) : Bool := match s.partOf i with | some p => bitAt (s.pmap p) 9 | none => false

/-- A write of `SLICE.FIJCTL`: EN is stored 1 only where TEST is set. -/
def execFijctlWrite (slice : SliceId) (value : Word) (s : State) : Host.Outcome State Fault Refusal :=
  .next (s.setSliceReg slice 0x42C (putBit (value &&& 0x000007FFFFFFFFFF) 42 (bitAt value 42 && s.testSlice slice)))

/-- A write of `CORE.PMCn`: COUNT takes the value, and a 1 in OVF clears it. -/
def execPmcWrite (c : CoreRef) (n : Fin 8) (value : Word) (s : State) : Host.Outcome State Fault Refusal :=
  .next (
    let old := s.coreReg c (0x168 + n.val)
    s.setCoreReg c (0x168 + n.val) (putBit (value &&& 0x0000FFFFFFFFFFFF) 48 (bitAt old 48 && !bitAt value 48)))

end Sys2Proof.Machine
end

