-- ==== Sys2Proof/Machine/Inbound.lean ====
section
/-! DEFINITION. Accesses to HBM that come from outside the compute die: host cores (R274, R313, R453), upstream functions (R455) and
packets from the optical ports (R391, R392, R448). -/

namespace Sys2Proof.Machine

/-- An L1 lease on a physical line has not expired (R274, R309). -/
def State.leased (s : State) (pl : Nat) : Bool := match tabFind s.leaseAll pl with | some t => decide (s.now ≤ t) | none => false

/-- The directory recalls or invalidates every L2 copy of a physical line (R274). -/
def State.recall (s : State) (pl : Nat) : State := allSlices.foldl (fun s i => s.dropLine i pl) s

/-- The physical lines of a run of bytes. -/
def linesOf (pa n : Nat) : List Nat := (List.range ((pa + n + 63) / 64 - pa / 64)).map (pa / 64 + ·)

/-- A store from outside the die can complete: no lease on its lines is left (R274, R313). -/
def State.outsideReady (s : State) (pa n : Nat) : Bool := (linesOf pa n).all fun l => !s.leased l

/-- A store from outside the die: the device copies of its lines leave, and the bytes are written. -/
def State.outsideStore (s : State) (pa : Nat) (bs : List Byte) : State :=
  ((linesOf pa bs.length).foldl State.recall s).hbmWrite pa bs

/-- An address names HBM. -/
def inHbm (pa n : Nat) : Bool := decide (pa + n ≤ 2 ^ 40)

/-- The opportunities of a load from outside the die (R417): of the L2 that holds the line, else of HBM. -/
def State.outsideErrors (s : State) (pa : Nat) : State :=
  let t : SliceId := idx 8 (pa / 2 ^ 37)
  match allSlices.find? fun i => (tabFind (s.slice i).l2 (pa / 64)).isSome with
  | some i => (s.readLine i t pa 1).1
  | none =>
    let (s, a) := (s.injectCorrected t 0 fun x => s.hbmChannel t (pa % 2 ^ 37) * 16 + x % 16).opportunity t 1
    if a then (s.raiseSource t 0xA).poisonLine (pa / 64) else s

/-- A load of n bytes of HBM from outside the die: what it reads is kept. -/
def State.outsideLoad (s : State) (pa n : Nat) : State :=
  let s := s.outsideErrors pa
  { s with outRead := s.hbmRead pa n }

end Sys2Proof.Machine
end

