-- ==== Sys2Proof/Machine/Links.lean ====
section
/-! DEFINITION. Links: flits and packets (R355 to R362), flow control (R363), replay and training (R364 to R366), abort records and the link log
(R367), the port registers (R368, R415). -/

namespace Sys2Proof.Machine

/-! ### Ports (R355) -/

/-- The segment is live (R15, R442). -/
def liveSeg (i : SliceId) (seg : Nat) : Bool := (Config.fuseMap i).getLsbD seg

/-- The link of a port number exists on the slice. -/
def portExists (i : SliceId) (p : Nat) : Bool :=
  if p < 8 then true
  else if p = 8 then i.val % 4 != 0
  else if p = 9 then i.val % 4 != 3
  else if p = 10 then true
  else if 0x10 ≤ p && p < 0x50 then liveSeg i (p - 0x10)
  else decide (0x50 ≤ p) && decide (p < 0x56)

/-- The port is a crossbar channel. -/
def isChannel (p : Nat) : Bool := decide (0x10 ≤ p)

/-- The channel index of R373 of a channel's port. -/
def chanOf (p : Nat) : Nat := p - 0x10

/-- The ring positions of the senders of a port: the six clusters of a home channel, the live segments of a reply channel, one elsewhere. -/
def senders (i : SliceId) (p : Nat) : List Nat :=
  if p < 0x10 then [0]
  else if p < 0x50 then List.range 6
  else List.range ((List.range 64).filter (liveSeg i)).length

/-- Flits of a receive buffer (R363), of a replay store (R364), and the training budget in ptick (R365). -/
def bufferSize (p : Nat) : Nat := if p < 8 then 2048 else 256
/-- Flits of a sender's replay store. -/
def replaySize (p : Nat) : Nat := if p < 8 then 1024 else 256
/-- The budget from entering TRAINING or RETRAIN to UP. -/
def trainBudget (p : Nat) : Nat := if p < 8 then 50000 else 2000

/-- A port. -/
def State.port (s : State) (i : SliceId) (p : Nat) : Port := tabGet {} (s.slice i).ports p
/-- Changes a port. -/
def State.modPort (s : State) (i : SliceId) (p : Nat) (f : Port → Port) : State :=
  s.modSlice i fun k => { k with ports := tabSet k.ports p (f (tabGet {} k.ports p)) }
/-- A sender's direction. -/
def Port.dir (x : Port) (r : Nat) : LinkDir := tabGet {} x.dirs r
/-- Changes a sender's direction. -/
def Port.modDir (x : Port) (r : Nat) (f : LinkDir → LinkDir) : Port := { x with dirs := tabSet x.dirs r (f (x.dir r)) }
/-- The receive side of a class. -/
def Port.cls (x : Port) (c : Nat) : Reasm := tabGet {} x.asm c
/-- Changes the receive side of a class. -/
def Port.modCls (x : Port) (c : Nat) (f : Reasm → Reasm) : Port := { x with asm := tabSet x.asm c (f (x.cls c)) }

/-- HI and LO in flits: of `SLICE.LNKCFGn`, and the edges' reset values on a channel, which has no such register. -/
def State.portHi (s : State) (i : SliceId) (p : Nat) : Nat := if isChannel p then 128 else bitsOf (s.sliceReg i (0x6B0 + p)) 7 0 * 8
/-- The resume mark. -/
def State.portLo (s : State) (i : SliceId) (p : Nat) : Nat := if isChannel p then 64 else bitsOf (s.sliceReg i (0x6B0 + p)) 15 8 * 8

/-- A field of `SLICE.LNKERRn` counts one more, to 65,535 (R415). -/
def State.linkError (s : State) (i : SliceId) (p : Nat) (field : Nat) : State :=
  if isChannel p then s
  else
    let w := s.sliceReg i (0x690 + p)
    let lo := 16 * field
    s.setSliceReg i (0x690 + p) (setBits w (lo + 15) lo (min 65535 (bitsOf w (lo + 15) lo + 1)))

/-- The marble's holder of a channel: the ring position that sends; 0 on a port that is no channel. -/
def State.holder (s : State) (i : SliceId) (p : Nat) : Nat := if isChannel p then bitsOf (s.sliceReg i (0x6C0 + chanOf p)) 29 24 else 0

/-! ### Channels (R369, R373) -/

/-- The port of a channel. -/
def chanPort (ch : Nat) : Nat := ch + 0x10
/-- `SLICE.CHSTATn`. -/
def State.chstat (s : State) (i : SliceId) (ch : Nat) : Word := s.sliceReg i (0x6C0 + ch)
/-- `SLICE.CHCFGn`. -/
def State.chcfg (s : State) (i : SliceId) (ch : Nat) : Word := s.sliceReg i (0x710 + ch)
/-- Changes `SLICE.CHSTATn`. -/
def State.modChstat (s : State) (i : SliceId) (ch : Nat) (f : Word → Word) : State := s.setSliceReg i (0x6C0 + ch) (f (s.chstat i ch))
/-- What a channel holds beside its registers. -/
def State.channel (s : State) (i : SliceId) (ch : Nat) : Channel := tabGet {} (s.slice i).chans ch
/-- Changes it. -/
def State.modChannel (s : State) (i : SliceId) (ch : Nat) (f : Channel → Channel) : State :=
  s.modSlice i fun k => { k with chans := tabSet k.chans ch (f (tabGet {} k.chans ch)) }
/-! ### Flits (R356) -/

/-- One step of CRC-12 over a byte. -/
def crc12Byte (crc : BitVec 12) (b : Byte) : BitVec 12 :=
  (List.range 8).foldl (fun c n => if c.getLsbD 11 != b.getLsbD (7 - n) then (c <<< 1) ^^^ 0x80F else c <<< 1) crc

/-- CHK of a flit. -/
def flitChk (hdr : W32) (payload : List Byte) : BitVec 12 :=
  (payload ++ [hdr.extractLsb' 0 8, hdr.extractLsb' 8 8, (hdr.extractLsb' 16 4).setWidth 8]).foldl crc12Byte 0xFFF

/-- A flit with its CHK. -/
def sealFlit (hdr : W32) (payload : List Byte) : Flit := { hdr := setBits hdr 31 20 (flitChk hdr payload).toNat, payload := payload }

/-- Class of a flit. -/
def flitCls (f : Flit) : Nat := bitsOf f.hdr 1 0
/-- CONT. -/
def flitCont (f : Flit) : Bool := bitAt f.hdr 2
/-- EOP. -/
def flitEop (f : Flit) : Bool := bitAt f.hdr 3
/-- PSN. -/
def flitPsn (f : Flit) : Bool := bitAt f.hdr 4
/-- SEQ. -/
def flitSeq (f : Flit) : BitVec 12 := f.hdr.extractLsb' 8 12
/-- CTYPE. -/
def flitCtype (f : Flit) : Byte := f.payload.getD 0 0
/-- Argument byte n of a control flit. -/
def flitArg (f : Flit) (n : Nat) : Byte := f.payload.getD n 0
/-- Bytes 1 and 2 of a control flit as a SEQ. -/
def flitArgSeq (f : Flit) : BitVec 12 := (flitArg f 2 ++ flitArg f 1).extractLsb' 0 12

/-- CHK and the must-be-zero bits are right. -/
def flitGood (f : Flit) : Bool :=
  f.payload.length == 32 && bitsOf f.hdr 7 5 == 0 && bitsOf f.hdr 31 20 == (flitChk f.hdr f.payload).toNat

/-- A data flit. -/
def dataFlit (cls : Nat) (cont eop psn : Bool) (seq : BitVec 12) (payload : List Byte) : Flit :=
  sealFlit (BitVec.ofNat 32 (cls + (if cont then 4 else 0) + (if eop then 8 else 0) + (if psn then 16 else 0) + seq.toNat * 256)) payload

/-- A control flit before its SEQ is known: CTYPE and its first arguments. -/
def ctlFlit (ctype : Nat) (args : List Byte) : Flit :=
  { hdr := 11, payload := (BitVec.ofNat 8 ctype :: args ++ List.replicate 31 0).take 32 }

/-- The two bytes of a SEQ. -/
def seqBytes (q : BitVec 12) : List Byte := natToBytes q.toNat 2

/-! ### Packets (R357) -/

/-- A packet header: w0 to w3. -/
def packetHeader (f : List Byte) : List W32 := bytesToWords 4 (f.take 16)
/-- PTYPE. -/
def hdrPtype (h : List W32) : Nat := bitsOf (wordAt h 0) 7 0
/-- LEN. -/
def hdrLen (h : List W32) : Nat := bitsOf (wordAt h 0) 31 16
/-- IDEM of a packet type. -/
def idemOf (ptype : Nat) : Bool := decide (1 ≤ ptype) && decide (ptype ≤ 4)
/-- Flits of a packet. -/
def packetFlits (len : Nat) : Nat := (16 + len + 31) / 32

/-- The header's words of a packet. -/
def makeHeader (ptype len : Nat) (dst src : W16) (addr : Word) : List W32 :=
  [BitVec.ofNat 32 (ptype + (if idemOf ptype then 256 else 0) + len * 65536), src ++ dst, addr.extractLsb' 0 32, addr.extractLsb' 32 32]

/-- Cuts bytes into flit payloads, the last one padded with zeros. -/
def flitsOf : Nat → List Byte → List (List Byte)
  | 0, _ => []
  | n + 1, bs => (bs ++ List.replicate 32 0).take 32 :: flitsOf n (bs.drop 32)

/-- The flit payloads of a packet. -/
def packetBytes (h : List W32) (payload : List Byte) : List (List Byte) := flitsOf (packetFlits payload.length) (wordsToBytes h ++ payload)

/-- A packet that has been put together is malformed. -/
def badPacket (flits : List (List Byte)) : Bool :=
  let h := packetHeader (flits.getD 0 [])
  !(decide (1 ≤ hdrPtype h) && decide (hdrPtype h ≤ 8)) || decide (4096 < hdrLen h) || flits.length != packetFlits (hdrLen h)
    || bitsOf (wordAt h 0) 15 9 != 0

/-- A packet joins the end of a direction's queue. -/
def State.queuePacket (s : State) (i : SliceId) (p r : Nat) (cls : Nat) (flits : List (List Byte)) (tenant : Option (PartId × W16)) : State :=
  s.modPort i p fun x =>
    { x.modDir r fun d => { d with txq := d.txq ++ [{ num := x.nextPkt, cls := cls, flits := flits, tenant := tenant }] } with
      nextPkt := x.nextPkt + 1 }

/-! ### Abort records and the link log (R367) -/

/-- An abort record. -/
def abortWords (kind cls port : Nat) (i : SliceId) (flits : Nat) (h : List W32) (now : Word) : List W32 :=
  [BitVec.ofNat 32 (kind + cls * 256 + port * 65536 + i.val * 2 ^ 24), BitVec.ofNat 32 (flits + hdrPtype h * 256 + bitsOf (wordAt h 1) 31 16 * 65536),
   wordAt h 2, wordAt h 3, now.extractLsb' 0 32, now.extractLsb' 32 32, 0, 0]

/-- A record is written into a slice's link log, and the link event is raised. -/
def State.logAbort (s : State) (i : SliceId) (ws : List W32) : State :=
  let n := bitsOf (s.sliceReg i 0x709) 31 0
  let base := bitsOf (s.sliceReg i 0x708) 55 8 * 256
  let s := s.setSliceReg i 0x709 (BitVec.ofNat 64 ((n + 1) % 2 ^ 32))
  let s := if base = 0 then s else { s with mem := memWrite s.mem (base + n % 256 * 32) (wordsToBytes ws) }
  s.raiseSource i 0x3

/-- A free choice among the ports of a slice that lead on: the optical ports and edges but the one given, of those that are UP when any is. -/
def State.wayOn (s : State) (i : SliceId) (p : Nat) (up : Bool) : Option Nat :=
  let ps := (List.range 11).filter fun q => q != p && portExists i q && (!up || (s.port i q).st == 2)
  ps[s.freeWord.toNat % max ps.length 1]?

/-- The record of a packet sets out for the packet's destination: within the slice it arrives, else it is an urgent packet for a further link. -/
def State.sendAbort (s : State) (i : SliceId) (kind cls port flits : Nat) (h : List W32) : State :=
  let ws := abortWords kind cls port i flits h s.now
  let dst := wordAt h 1
  if bitsOf dst 2 0 = i.val then s.modSlice i fun k => { k with aborts := k.aborts ++ [ws] }
  else
    let q := ((s.wayOn i 11 true).or (s.wayOn i 11 false)).getD 0
    let head := makeHeader 8 32 (dst.extractLsb' 0 16) (BitVec.ofNat 16 (i.val + bitsOf dst 15 13 * 8192)) 0
    s.draw.queuePacket i q 0 2 (packetBytes head (wordsToBytes ws)) none

/-- An abort record arrives and is written. -/
def execAbortRecord (slice : SliceId) (words : List W32) (s : State) : Host.Outcome State Fault Refusal :=
  .next (if (s.slice slice).aborts.contains words then
      (s.modSlice slice fun k => { k with aborts := k.aborts.erase words }).logAbort slice words
    else s)

/-! ### States (R365, R366) -/

/-- A port takes a state, at a time that its stamp keeps. -/
def State.linkTo (s : State) (i : SliceId) (p : Nat) (st : BitVec 3) : State :=
  s.modPort i p fun x => { x with st := st, stamp := s.now, since := s.now }

/-- The link event. -/
def State.linkEvent (s : State) (i : SliceId) : State := s.raiseSource i 0x3

/-- A relayed copy ends poisoned: with one flit more when flits of it have gone, else not at all (R366). -/
def State.endRelay (s : State) (i : SliceId) (p c : Nat) : State :=
  let cut (d : LinkDir) : LinkDir :=
    { d with txq := d.txq.filterMap fun (t : TxPacket) =>
        if t.relay == some (p, c) && !t.closed then
          (if t.sent = 0 then none
           else some { t with closed := true, poisoned := true, flits := t.flits.take t.sent ++ [List.replicate 32 0], relay := none })
        else some t }
  s.modSlice i fun k => { k with ports := tabMap (fun _ (x : Port) => { x with dirs := tabMap (fun _ d => cut d) x.dirs }) k.ports }

/-- The receiver ends an open packet of a class: an abort record of a kind, and the relayed copy poisoned. -/
def State.endOpen (s : State) (i : SliceId) (p c kind : Nat) : State :=
  let a := (s.port i p).cls c
  if a.isOpen then
    let h := packetHeader (a.flits.getD 0 [])
    ((s.sendAbort i kind c p a.flits.length h).endRelay i p c).modPort i p fun x =>
      x.modCls c fun q => { q with isOpen := false, flits := [], fill := q.fill - a.flits.length }
  else s

/-- What a failure does at a port: the open packets end, pauses clear, SEQ starts again, and what was accepted last is kept for TRAIN. -/
def State.breakLink (s : State) (i : SliceId) (p : Nat) : State :=
  ([0, 1, 2].foldl (fun s c => s.endOpen i p c 1) s).modPort i p fun x =>
    { x with rxp := 0, txp := 0, ctlq := [], sentTrain := false,
             dirs := tabMap (fun _ (d : LinkDir) => { d with gotTrain := false, txSeq := 0, resend := [], naks := 0,
                                                             lastSeq := if x.st = 2 then d.rxSeq - 1 else d.lastSeq,
                                                             rxSeq := 0, unacked := 0, nakOut := false }) x.dirs }

/-- The TRAIN flits of a port, one for each sender of a channel. -/
def trainFlits (i : SliceId) (p : Nat) (x : Port) : List Flit :=
  (senders i p).map fun r =>
    ctlFlit 5 (seqBytes (x.dir r).lastSeq ++ [if x.firstTrain then 1 else 0, BitVec.ofNat 8 (if isChannel p then r else 0)])

/-- Training starts. The TRAIN flits of the first training after power-on say so. -/
def State.startTrain (s : State) (i : SliceId) (p : Nat) : State :=
  s.modPort i p fun x => { x with ctlq := trainFlits i p x, firstTrain := false }

/-- A link failure or a protocol error: RETRAIN. -/
def State.linkFailure (s : State) (i : SliceId) (p : Nat) : State :=
  if (s.port i p).st = 2 then
    ((((s.breakLink i p).linkTo i p 3).modPort i p fun x => { x with retr := min 255 (x.retr + 1) }).startTrain i p).linkEvent i
  else s

/-- Flits of a packet that the far end has accepted, by the SEQ it accepted last. -/
def TxPacket.accepted (t : TxPacket) (d : LinkDir) (last : BitVec 12) : Nat :=
  let after := match d.replay.findIdx? fun k => flitSeq k.flit == last with
    | some n => d.replay.drop (n + 1)
    | none => d.replay
  t.sent - (after.filter fun k => k.pkt == t.num).length

/-- The header of a packet being sent. -/
def TxPacket.header (t : TxPacket) : List W32 := packetHeader (t.flits.getD 0 [])

/-- The originator of a lost packet receives a failure completion: a thread of the source's cluster that waits on a message, a free one of them,
takes it as poisoned data, and a puppet slot as cause 0x09 (R169, R275, R366). -/
def State.failOriginator (s : State) (h : List W32) : State :=
  let src := bitsOf (wordAt h 1) 31 16
  let i : SliceId := idx 8 (src % 8)
  let cores := (s.coresOf i).filter fun c => src / 8 % 8 == 1 && c.cluster == src / 64 % 128
  let agents := (cores.filter fun c => (s.core c).puppet.sc.wait == .mailbox).map Agent.puppet
  let swaps := (cores.flatMap s.slotsOf).flatMap fun g => (s.group g).held.filterMap fun (e : HeldOp) =>
    match e.kind with
    | .swap .. => some (Agent.lane g (((([0, 1, 2, 3] : List (Fin 4)).find? fun k => e.lanes &&& ((s.group g).split k.val).mask != 0)).getD 0))
    | _ => none
  let all := agents ++ swaps
  match all[s.freeWord.toNat % max all.length 1]? with
  | some (.puppet c) =>
    let n := (s.core c).puppet.letter
    let t := s.draw.modPart (s.agentPart (.puppet c)) fun q => { q with inbox := q.inbox.filter fun l => l.num != n }
    t.raiseAfar (.puppet c) .poisoned 0 0 0 (t.core c).puppet.sc.spc
  | some a => s.draw.raiseAfar a .poisoned 0 0 0 (s.scOf a).spc
  | none => s

/-- A sender acts on its kept flits' packets (R366). Of a packet lost it writes a record of kind 2 into its own slice's log. -/
def State.resolveKept (s : State) (i : SliceId) (p r : Nat) (last : BitVec 12) : State :=
  let d := (s.port i p).dir r
  let lost := d.txq.filter fun (t : TxPacket) =>
    let n := t.accepted d last
    decide (0 < n) && !(t.closed && n == t.flits.length) && !bitAt (wordAt t.header 0) 8
  let q := d.txq.filterMap fun (t : TxPacket) =>
    let n := t.accepted d last
    if t.sent = 0 then some t
    else if t.closed && n == t.flits.length then none
    else if n = 0 || bitAt (wordAt t.header 0) 8 then some { t with sent := 0, since := 0 }
    else none
  let s := s.modPort i p fun x => x.modDir r fun d => { d with txq := q, replay := [], resend := [], gotTrain := true }
  lost.foldl (fun s t => (s.logAbort i (abortWords 2 t.cls p i (t.accepted d last) t.header s.now)).failOriginator t.header) s

/-- Both ends have received TRAIN: UP, with a link event after a failure. -/
def State.tryUp (s : State) (i : SliceId) (p : Nat) : State :=
  let x := s.port i p
  if (x.st = 1 || x.st = 3) && x.sentTrain && (senders i p).all fun r => (x.dir r).gotTrain then
    let t := s.linkTo i p 2
    if x.st = 3 then t.linkEvent i else t
  else s

/-- Lock is obtained. -/
def execLinkLockObtained (slice : SliceId) (port : PortId) (s : State) : Host.Outcome State Fault Refusal :=
  .next (if portExists slice port.val && (s.port slice port.val).st == 0 then
      ((s.breakLink slice port.val).linkTo slice port.val 1).startTrain slice port.val
    else s)

/-- Lock is lost while data flows. -/
def execLinkLockLost (slice : SliceId) (port : PortId) (s : State) : Host.Outcome State Fault Refusal :=
  .next (if portExists slice port.val then s.linkFailure slice port.val else s)

/-- The training budget has passed. -/
def execLinkTrainTimeout (slice : SliceId) (port : PortId) (s : State) : Host.Outcome State Fault Refusal :=
  let x := s.port slice port.val
  .next (if (x.st == 1 || x.st == 3) && s.passed x.since (trainBudget port.val) then
      (s.linkTo slice port.val 0).linkEvent slice
    else s)

/-- The reset values of HI and LO, and the largest HI, of a port. -/
def lnkMarks (p : Nat) : Nat × Nat × Nat := if p < 8 then (128, 64, 240) else (16, 8, 16)

/-- A write of `SLICE.LNKCFGn` (R368): EN = 0 disables the port at once, and its open packets end as on a failure. -/
def execLnkcfgWrite (slice : SliceId) (port : PortId) (value : Word) (s : State) : Host.Outcome State Fault Refusal :=
  .next (
    let p := port.val
    if !portExists slice p || isChannel p then s
    else
      let m := lnkMarks p
      let hi := bitsOf value 7 0
      let lo := bitsOf value 15 8
      let bad := decide (hi ≤ lo) || decide (m.2.2 < hi)
      let s := s.setSliceReg slice (0x6B0 + p)
        (BitVec.ofNat 64 ((if bad then m.1 + m.2.1 * 256 else hi + lo * 256) + if bitAt value 16 then 65536 else 0))
      let st := (s.port slice p).st
      if !bitAt value 16 then (if st = 4 then s else (s.breakLink slice p).linkTo slice p 4)
      else if st = 4 then s.linkTo slice p 0
      else s)

/-! ### Receiving (R356, R357, R362 to R364) -/

/-- A flit is not accepted: it is counted, and a NAK names the SEQ expected (R364). -/
def State.rejectFlit (s : State) (i : SliceId) (p r : Nat) : State :=
  (s.linkError i p 0).modPort i p fun x =>
    { x.modDir r fun d => { d with nakOut := true } with
      ctlq := x.ctlq ++ [ctlFlit 2 (seqBytes (x.dir r).rxSeq ++ [BitVec.ofNat 8 (if isChannel p then r else 0)])] }

/-- The class's fill has reached HI: PAUSE (R363). -/
def State.pauseAtHi (s : State) (i : SliceId) (p c : Nat) : State :=
  let x := s.port i p
  if decide (s.portHi i p ≤ (x.cls c).fill) && !bitAt x.txp c then
    s.modPort i p fun x =>
      { x.modCls c fun q => { q with since := 0 } with txp := putBit x.txp c true, ctlq := x.ctlq ++ [ctlFlit 3 [BitVec.ofNat 8 (2 ^ c)]] }
  else s

/-- Packets leave a class's buffer; at LO it sends RESUME (R363). -/
def State.drainClass (s : State) (i : SliceId) (p c n : Nat) : State :=
  let s := s.modPort i p fun x => x.modCls c fun q => { q with fill := q.fill - n }
  let x := s.port i p
  if decide ((x.cls c).fill ≤ s.portLo i p) && bitAt x.txp c then
    s.modPort i p fun x => { x with txp := putBit x.txp c false, ctlq := x.ctlq ++ [ctlFlit 4 [BitVec.ofNat 8 (2 ^ c)]] }
  else s

/-- A packet passes the dyke entry of a port of its slice in one direction (R392). A crossbar channel has none. -/
def State.packetPasses (s : State) (i : SliceId) (p : Nat) (inward : Bool) (h : List W32) : Bool :=
  let pid : PartId := idx 8 (bitsOf (wordAt h 1) 31 29)
  let e := s.sliceReg i (0x780 + p)
  if 11 ≤ p then true
  else if hdrPtype h = 1 || hdrPtype h = 3 || hdrPtype h = 5 then
    s.dykePort i p pid inward (dwordAt h 2).toNat (hdrPtype h != 3) (hdrPtype h != 1)
  else bitAt e 16 && bitAt e (if inward then pid.val else 8 + pid.val)

/-- A packet that has reached its slice: an abort record waits to be logged, and a write from an optical port is performed. What any other
packet brings about is the work of the event that performs it. -/
def State.landPacket (s : State) (i : SliceId) (p : Nat) (h : List W32) (payload : List Byte) : State :=
  if hdrPtype h = 8 then s.modSlice i fun k => { k with aborts := k.aborts ++ [bytesToWords 8 payload] }
  else if hdrPtype h = 3 && decide (p < 8) && inHbm (dwordAt h 2).toNat (hdrLen h) then
    s.outsideStore (dwordAt h 2).toNat (payload.take (hdrLen h))
  else s

/-- The first flit of a packet for another slice starts its copy towards a further link. -/
def State.startRelay (s : State) (i : SliceId) (p c : Nat) (flit : List Byte) (eop : Bool) : State :=
  if isChannel p || bitsOf (wordAt (packetHeader flit) 1) 2 0 == i.val then s
  else
    match s.wayOn i p true with
    | none => s.draw
    | some q =>
      s.draw.modPort i q fun x =>
        { x.modDir 0 fun d => { d with txq := d.txq ++ [{ num := x.nextPkt, cls := c, flits := [flit], closed := eop,
                                                          relay := if eop then none else some (p, c) }] } with
          nextPkt := x.nextPkt + 1 }

/-- A further flit joins the copy being relayed. -/
def State.feedRelay (s : State) (i : SliceId) (p c : Nat) (flit : List Byte) (eop : Bool) : State :=
  let add (d : LinkDir) : LinkDir :=
    { d with txq := d.txq.map fun (t : TxPacket) =>
        if t.relay == some (p, c) && !t.closed then { t with flits := t.flits ++ [flit], closed := eop, relay := if eop then none else t.relay }
        else t }
  s.modSlice i fun k => { k with ports := tabMap (fun _ (x : Port) => { x with dirs := tabMap (fun _ d => add d) x.dirs }) k.ports }

/-- The last flit of a packet: poisoned and malformed packets are discarded and counted, one that a dyke fails is discarded, and any other
for this slice is delivered. -/
def State.endPacket (s : State) (i : SliceId) (p c : Nat) (psn : Bool) : State :=
  let a := (s.port i p).cls c
  let h := packetHeader (a.flits.getD 0 [])
  let close (s : State) : State := s.modPort i p fun x => x.modCls c fun q => { q with isOpen := false, flits := [] }
  if psn then ((close (s.linkError i p 2)).endRelay i p c).drainClass i p c a.flits.length
  else if badPacket a.flits then
    (((close (s.linkError i p 1)).sendAbort i 3 c p a.flits.length h).endRelay i p c).drainClass i p c a.flits.length
  else if !s.packetPasses i p true h then ((close s).endRelay i p c).drainClass i p c a.flits.length
  else if isChannel p || bitsOf (wordAt h 1) 2 0 == i.val then (close s).landPacket i p h (a.flits.flatten.drop 16)
  else close s

/-- The flit breaks the reassembly rules (R362). -/
def protocolError (a : Reasm) (f : Flit) : Bool := ((flitCont f) != a.isOpen) || ((flitPsn f) && !(flitEop f))

/-- A flit is accepted. -/
def State.acceptFlit (s : State) (i : SliceId) (p r : Nat) (f : Flit) : State :=
  let c := (flitCls f)
  let ack := decide (63 ≤ ((s.port i p).dir r).unacked) || bitAt s.freeWord 0
  let s := s.draw.modPort i p fun x =>
    let y := x.modDir r fun d => { d with rxSeq := d.rxSeq + 1, nakOut := false, unacked := if ack then 0 else d.unacked + 1 }
    let y := y.modCls c fun q => { q with isOpen := true, flits := q.flits ++ [f.payload], fill := q.fill + 1 }
    if ack then { y with ctlq := y.ctlq ++ [ctlFlit 1 (seqBytes (flitSeq f) ++ [BitVec.ofNat 8 (if isChannel p then r else 0)])] } else y
  let s := s.pauseAtHi i p c
  let last := (flitEop f) && !(flitPsn f)
  let a := (s.port i p).cls c
  if last && (badPacket a.flits || !s.packetPasses i p true (packetHeader (a.flits.getD 0 []))) then s.endPacket i p c false
  else
  let s := if (flitCont f) then (if (flitPsn f) then s else s.feedRelay i p c f.payload last) else s.startRelay i p c f.payload last
  if (flitEop f) then s.endPacket i p c (flitPsn f) else s

/-- A data flit arrives at a port (R356). -/
def execDataFlitReceive (slice : SliceId) (port : PortId) (f : Flit) (s : State) : Host.Outcome State Fault Refusal :=
  .next (
    let p := port.val
    let x := s.port slice p
    let r := s.holder slice p
    let d := x.dir r
    if !portExists slice p || x.st != 2 || (flitCls f) = 3 then s
    else if d.nakOut && (flitSeq f) != d.rxSeq then s
    else if !(flitGood f) || (flitSeq f) != d.rxSeq then s.rejectFlit slice p r
    else if protocolError (x.cls (flitCls f)) f then s.linkFailure slice p
    else s.acceptFlit slice p r f)

/-- The SEQ of a control flit is the one expected. TRAIN tells of a count that starts again, and the control flits of a channel come by the
opposite one. -/
def Port.seqOk (x : Port) (p ctype : Nat) (f : Flit) : Bool := ctype == 5 || isChannel p || flitSeq f == (x.dir 0).rxSeq

/-- A control flit of a type arrives while the link is in one of some states: it is checked (R356, R362), and acts. -/
def State.controlFlit (s : State) (i : SliceId) (p ctype : Nat) (f : Flit) (sts : List Nat) (act : State → State) : State :=
  let x := s.port i p
  if !portExists i p || (flitCls f) != 3 || (flitCtype f).toNat != ctype || !sts.contains x.st.toNat then s
  else if flitGood f && (flitCont f || (flitPsn f && !flitEop f)) then s.linkFailure i p
  else if !(flitGood f) || !(flitEop f) || !x.seqOk p ctype f then (if x.st = 2 then s.rejectFlit i p (s.holder i p) else s)
  else act s

/-- The ring position a control flit names in a byte. -/
def flitPos (f : Flit) (p n : Nat) : Nat := if isChannel p then (flitArg f n).toNat else 0

/-- Flits up to a SEQ are acknowledged: packets all of whose flits are leave. -/
def LinkDir.acked (d : LinkDir) (seq : BitVec 12) : LinkDir :=
  match d.replay.findIdx? fun k => flitSeq k.flit == seq with
  | none => d
  | some n =>
    let left := d.replay.drop (n + 1)
    { d with replay := left, naks := 0, resend := d.resend.filter fun f => left.any fun k => k.flit == f,
             txq := d.txq.filter fun (t : TxPacket) => !(t.closed && t.sent == t.flits.length && !left.any fun k => k.pkt == t.num) }

/-- ACK (R360). -/
def execAck (slice : SliceId) (port : PortId) (f : Flit) (s : State) : Host.Outcome State Fault Refusal :=
  .next (s.controlFlit slice port.val 1 f [2] fun s => s.modPort slice port.val fun x => x.modDir (flitPos f port.val 3) fun d => d.acked (flitArgSeq f))

/-- A direction after a NAK: the kept flits from the SEQ named are to be sent again; NAKs for one SEQ are counted. -/
def LinkDir.naked (d : LinkDir) (seq : BitVec 12) : LinkDir :=
  let n := if d.nakSeq = seq then d.naks + 1 else 1
  { d with naks := n, nakSeq := seq,
           resend := match d.replay.findIdx? fun k => flitSeq k.flit == seq with
             | some m => (d.replay.drop m).map (·.flit)
             | none => d.resend }

/-- NAK (R364): the eighth for one SEQ is a link failure. -/
def execNak (slice : SliceId) (port : PortId) (f : Flit) (s : State) : Host.Outcome State Fault Refusal :=
  .next (s.controlFlit slice port.val 2 f [2] fun s =>
    let r := flitPos f port.val 3
    let s := s.modPort slice port.val fun x => x.modDir r fun d => d.naked (flitArgSeq f)
    if 8 ≤ ((s.port slice port.val).dir r).naks then s.linkFailure slice port.val else s)

/-- PAUSE (R363). -/
def execPause (slice : SliceId) (port : PortId) (f : Flit) (s : State) : Host.Outcome State Fault Refusal :=
  .next (s.controlFlit slice port.val 3 f [2] fun s =>
    s.modPort slice port.val fun x => { x with rxp := x.rxp ||| (flitArg f 1).extractLsb' 0 3 })

/-- RESUME (R363). -/
def execResume (slice : SliceId) (port : PortId) (f : Flit) (s : State) : Host.Outcome State Fault Refusal :=
  .next (s.controlFlit slice port.val 4 f [2] fun s =>
    s.modPort slice port.val fun x => { x with rxp := x.rxp &&& ~~~(flitArg f 1).extractLsb' 0 3 })

/-- TRAIN (R365, R366). At a port that is UP it tells of the far end's failure. -/
def execTrain (slice : SliceId) (port : PortId) (f : Flit) (s : State) : Host.Outcome State Fault Refusal :=
  .next (s.controlFlit slice port.val 5 f [1, 2, 3] fun s =>
    let s := s.linkFailure slice port.val
    ((s.resolveKept slice port.val (flitPos f port.val 4) (flitArgSeq f)).tryUp slice port.val))

/-- A control flit of an unassigned CTYPE is discarded and counted. -/
def execControlFlitUnknownCtype (slice : SliceId) (port : PortId) (f : Flit) (s : State) : Host.Outcome State Fault Refusal :=
  .next (if (flitCtype f).toNat = 0 || 5 < (flitCtype f).toNat then
      s.controlFlit slice port.val (flitCtype f).toNat f [1, 2, 3] fun s => s.linkError slice port.val 3
    else s)

/-- PAUSE is repeated every 256 flit times while the fill stays at or above HI (R363). -/
def execPauseRepeat (slice : SliceId) (port : PortId) (cls : Fin 3) (s : State) : Host.Outcome State Fault Refusal :=
  .next (
    let p := port.val
    let x := s.port slice p
    if portExists slice p && x.st == 2 && decide (s.portHi slice p ≤ (x.cls cls.val).fill) && decide (256 ≤ (x.cls cls.val).since) then
      s.modPort slice p fun x =>
        { x.modCls cls.val fun q => { q with since := 0 } with txp := putBit x.txp cls.val true, ctlq := x.ctlq ++ [ctlFlit 3 [BitVec.ofNat 8 (2 ^ cls.val)]] }
    else s)

/-- Packets leave a receive buffer: flits of packets that are whole. -/
def execReceiveBufferDrain (slice : SliceId) (port : PortId) (cls : Fin 3) (n : Nat) (s : State) : Host.Outcome State Fault Refusal :=
  .next (
    let a := (s.port slice port.val).cls cls.val
    if portExists slice port.val && decide (n ≤ a.fill - a.flits.length) then s.drainClass slice port.val cls.val n else s)

/-! ### Sending (R361, R364) -/

/-- A packet has a flit that can be sent. -/
def TxPacket.ready (t : TxPacket) : Bool := decide (t.sent < t.flits.length)
/-- A packet is open. -/
def TxPacket.isOpen (t : TxPacket) : Bool := decide (0 < t.sent) && !(t.closed && t.sent == t.flits.length)

/-- The packet of a class that a direction sends next: its open one, else the first one not begun. -/
def LinkDir.nextOf (d : LinkDir) (c : Nat) : Option TxPacket :=
  match d.txq.find? fun t => t.cls == c && t.isOpen with
  | some t => if t.ready then some t else none
  | none => d.txq.find? fun t => t.cls == c && t.sent == 0 && t.ready

/-- The sender of the open packet of a class. -/
def Port.opener (x : Port) (rs : List Nat) (c : Nat) : Option Nat := rs.find? fun r => (x.dir r).txq.any fun t => t.cls == c && t.isOpen

/-- A sender has a flit of a class that it may send: the class is not paused, and no other sender has its open packet. -/
def Port.canSend (x : Port) (rs : List Nat) (r c : Nat) : Bool :=
  !bitAt x.rxp c && ((x.dir r).nextOf c).isSome && (match x.opener rs c with | some o => o == r | none => true)

/-- The highest class that a sender requests: that of the kept flit it is to send again, when there is one. -/
def Port.request (x : Port) (rs : List Nat) (r : Nat) : Option Nat :=
  match (x.dir r).resend with
  | f :: _ => if bitAt x.rxp (flitCls f) then none else some (flitCls f)
  | [] => [2, 1, 0].find? (x.canSend rs r)

/-- A flit of a class is due under items 2 and 3 of R361 for a sender's open packet. -/
def Port.due (x : Port) (r c : Nat) : Bool :=
  decide (c < 2) && !bitAt x.rxp c && (x.dir r).txq.any fun t => t.cls == c && t.isOpen && t.ready && decide ((if c = 0 then 31 else 15) ≤ t.since)

/-- The class whose flit the sender sends next (R361, items 2 to 4). -/
def Port.choice (x : Port) (rs : List Nat) (r : Nat) : Option Nat :=
  if x.due r 0 then some 0 else if x.due r 1 then some 1 else x.request rs r

/-- A data flit waits. -/
def Port.waiting (x : Port) (rs : List Nat) (r : Nat) : Bool := (x.request rs r).isSome

/-- The time of a flit: every open packet has been without one, and every class without a PAUSE, for one flit time more. -/
def Port.tick (x : Port) (ctl : Bool) : Port :=
  { x with ctlHist := (ctl :: x.ctlHist).take 8, asm := tabMap (fun _ (a : Reasm) => { a with since := a.since + 1 }) x.asm,
           dirs := tabMap (fun _ (d : LinkDir) => { d with txq := d.txq.map fun t => { t with since := t.since + 1 } }) x.dirs }

/-- A flit goes onto the wire of a port. Injections on an optical port or an edge: a wrong CHK, or a link failure (R417). -/
def State.putFlit (s : State) (i : SliceId) (p : Nat) (f : Flit) : State :=
  if isChannel p then s.modPort i p fun x => { x with wire := f :: x.wire }
  else
    let (s, bad) := s.opportunity i 7
    let (s, fail) := s.opportunity i 8
    let s := s.modPort i p fun x => { x with wire := (if bad then { f with hdr := f.hdr ^^^ 0x100000 } else f) :: x.wire }
    if fail then s.linkFailure i p else s

/-- The ring position that a control flit names: none is named by PAUSE and RESUME. -/
def ctlPos (f : Flit) : Nat :=
  match (flitCtype f).toNat with | 1 => (flitArg f 3).toNat | 2 => (flitArg f 3).toNat | 5 => (flitArg f 4).toNat | _ => 0

/-- The live segments of a slice, in order: the ring positions of a reply channel. -/
def liveList (i : SliceId) : List Nat := (List.range 64).filter (liveSeg i)

/-- The control flit that goes next on a port, with the port whose link it serves. On a channel it is one for a sender of the opposite channels:
the receiving segment or cluster sends it (R369). -/
def State.ctlSource (s : State) (i : SliceId) (p : Nat) : Option (Nat × Flit) :=
  let qs := if p < 0x10 then [p] else if p < 0x50 then (List.range 6).map (0x50 + ·) else (liveList i).map (0x10 + ·)
  let mine (f : Flit) : Bool :=
    if p < 0x10 then true else if p < 0x50 then (liveList i)[ctlPos f]? == some (p - 0x10) else ctlPos f == p - 0x50
  qs.findSome? fun q => match (s.port i q).ctlq with
    | f :: _ => if mine f && (s.port i q).st != 0 && (s.port i q).st != 4 then some (q, f) else none
    | [] => none

/-- The control flit that is first of a link goes, on its own port or on the opposite channel. It carries the SEQ of the data flit to come.
`waited`: a data flit was waiting. -/
def State.sendControl (s : State) (i : SliceId) (p q : Nat) (f : Flit) (waited : Bool) : State :=
  let s := s.modPort i p fun x => x.tick waited
  let s := s.modPort i q fun x =>
    { x with ctlq := x.ctlq.drop 1, sentTrain := x.sentTrain || ((flitCtype f) == 5 && x.ctlq.length == 1) }
  let d := (s.port i p).dir (s.holder i p)
  let seq := match d.resend with | k :: _ => flitSeq k | [] => d.txSeq
  let g := sealFlit (setBits f.hdr 19 8 seq.toNat) f.payload
  (s.putFlit i p g).tryUp i q

/-- A kept flit goes again. -/
def State.sendAgain (s : State) (i : SliceId) (p r : Nat) (f : Flit) : State :=
  (s.modPort i p fun x => (x.tick false).modDir r fun d => { d with resend := d.resend.drop 1 }).putFlit i p f

/-- The next flit of a packet goes and is kept. The first flit of a packet on an optical port or an edge counts its payload for its tenant
(R408). -/
def State.sendData (s : State) (i : SliceId) (p r : Nat) (t : TxPacket) : State :=
  let d := (s.port i p).dir r
  let last := t.closed && t.sent + 1 == t.flits.length
  let f := dataFlit t.cls (t.sent != 0) last (last && t.poisoned) d.txSeq (t.flits.getD t.sent [])
  let s := s.modPort i p fun x => (x.tick false).modDir r fun d =>
    { d with txSeq := d.txSeq + 1, replay := d.replay ++ [{ pkt := t.num, flit := f }],
             txq := d.txq.map fun u => if u.num == t.num then { u with sent := u.sent + 1, since := 0 } else u }
  let s := match t.tenant with
    | some (q, uid) => if t.sent = 0 && !isChannel p then s.addUsage q uid fun u => { u with linkb := u.linkb + BitVec.ofNat 64 (hdrLen t.header) } else s
    | none => s
  s.putFlit i p f

/-- Packets that the port's dyke entry does not let out leave the queue (R392). -/
def State.dropBarred (s : State) (i : SliceId) (p r : Nat) : State :=
  s.modPort i p fun x => x.modDir r fun d => { d with txq := d.txq.filter fun t => t.sent != 0 || s.packetPasses i p false t.header }

/-! ### The marble (R369, R501) -/

/-- The holder of a channel releases the marble. -/
def State.releases (s : State) (i : SliceId) (ch : Nat) : Bool :=
  let p := chanPort ch
  let x := s.port i p
  let rs := senders i p
  let r := s.holder i p
  let others := rs.filter (· != r)
  let mine := x.choice rs r
  let higher := others.any fun q => match x.request rs q, mine with
    | some c, some m => decide (m < c)
    | some _, none => true
    | none, _ => false
  let due := others.any fun q => x.due q 0 || x.due q 1
  let atEnd := (s.channel i ch).atEnd && decide (bitsOf (s.chcfg i ch) 39 32 ≤ (s.channel i ch).sent)
    && others.any fun q => (x.request rs q).isSome
  higher || due || atEnd

/-- The sender to which the marble goes: that of the open packet of the highest class requested or due, else the next in ring order that
requests the class. -/
def State.nextHolder (s : State) (i : SliceId) (ch : Nat) : Nat :=
  let p := chanPort ch
  let x := s.port i p
  let rs := senders i p
  let r := s.holder i p
  let c := ([2, 1, 0].find? fun c => rs.any fun q => x.request rs q == some c || x.due q c).getD 0
  match x.opener rs c with
  | some o => o
  | none =>
    let ring := (rs.filter (decide <| r < ·)) ++ rs.filter (decide <| · ≤ r)
    (ring.find? fun q => x.request rs q == some c).getD r

/-- The marble passes: for 2 cclk nothing is sent. -/
def State.passMarble (s : State) (i : SliceId) (ch : Nat) : State :=
  let h := s.nextHolder i ch
  (s.modChstat i ch fun x => setBits x 29 24 h).modChannel i ch fun c => { c with sent := 0, atEnd := false, passAt := some s.now }

/-- The marble is on its way. -/
def State.passing (s : State) (i : SliceId) (ch : Nat) : Bool :=
  match (s.channel i ch).passAt with | some t => !s.passed t (s.cclkTicks i 2) | none => false

/-- A reassignment keeps the sender off the channel (R467): of the channel's cluster, or of the sending cluster. -/
def State.reassigning (s : State) (i : SliceId) (p r : Nat) : Bool :=
  isChannel p && bitAt (s.sliceReg i (0x4E4 + if p < 0x50 then r else p - 0x50)) 4

/-- The traffic of R358 that a port's units send: a packet that may join a direction's queue, every part of it free within R357 and R358. -/
def State.traffic (s : State) (i : SliceId) (p r : Nat) : State :=
  let w := s.freeWord
  let s := s.draw
  if !bitAt w 0 then s
  else
    let ptype := 1 + bitsOf w 3 1 % 7
    let len := if ptype = 5 || ptype = 6 then bitsOf w 20 8 % 17 else bitsOf w 20 8 % 4097
    let cls := if ptype = 5 || ptype = 6 then 2 else if ptype = 7 then 1 + bitsOf w 21 21 else if ptype = 3 || ptype = 4 then bitsOf w 22 21 % 3
      else bitsOf w 21 21
    let g : Grid := tabGet {} s.grids (bitsOf w 40 23)
    let h := makeHeader ptype len (BitVec.ofNat 16 (bitsOf w 63 48)) (BitVec.ofNat 16 (i.val + bitsOf w 47 41 % 64 * 8 + g.part.val * 8192)) s.freeWord
    (s.queuePacket i p r cls (packetBytes h ((List.range len).map fun n => (s.freeElem (n + 1)).extractLsb' 0 8)) (some (g.part, g.uid))).draw

/-- A flit time of a link direction (R361). -/
def State.flitTime (s : State) (i : SliceId) (p : Nat) : State :=
  let r := s.holder i p
  let s := if isChannel p then s else s.dropBarred i p r
  let x := s.port i p
  let d := x.dir r
  let rs := senders i p
  let full := decide (replaySize p ≤ d.replay.length)
  let free := !s.reassigning i p r
  let held := x.ctlHist.countP id
  let data : State :=
    match d.resend with
    | f :: _ => if free && !bitAt x.rxp (flitCls f) then s.sendAgain i p r f else s.modPort i p fun x => x.tick false
    | [] =>
      match (if full || !free then none else (x.choice rs r).bind d.nextOf) with
      | some t => s.sendData i p r t
      | none => s.modPort i p fun x => x.tick false
  let waits := x.waiting rs r && free && (!full || !d.resend.isEmpty)
  if isChannel p && s.passing i (chanOf p) then s.modPort i p fun x => x.tick false
  else if isChannel p && x.st == 2 && s.releases i (chanOf p) then (s.modPort i p fun x => x.tick false).passMarble i (chanOf p)
  else
    match s.ctlSource i p with
    | some (q, c) => if x.st = 2 && decide (2 ≤ held) && waits then data else s.sendControl i p q c waits
    | none => if x.st = 2 then data else s

/-- PAUSE is repeated where 256 flit times have passed since the last (R363). -/
def State.repeatPauses (s : State) (i : SliceId) (p : PortId) : State :=
  ([0, 1, 2] : List (Fin 3)).foldl (fun s c => match execPauseRepeat i p c s with | .next t => t | _ => s) s

/-- A sender of a channel requests it: the idle count starts again (R372), and the holder's flits are counted (R369). -/
def State.channelUse (s : State) (i : SliceId) (p : Nat) (before : Port) : State :=
  if isChannel p then
    let rs := senders i p
    let r := s.holder i p
    let requested := rs.any fun q => (before.request rs q).isSome
    let went := ((s.port i p).dir r).txSeq != (before.dir r).txSeq || ((s.port i p).dir r).resend != (before.dir r).resend
    let eop := match (s.port i p).wire with | f :: _ => flitEop f | [] => false
    let c : Channel := tabGet {} (s.slice i).chans (chanOf p)
    s.modSlice i fun k =>
      { k with chans := tabSet k.chans (chanOf p)
                  { c with lastReq := if requested then s.now else c.lastReq, sent := if went then c.sent + 1 else c.sent,
                                atEnd := if went then eop else c.atEnd } }
  else s

/-- A flit boundary of a link: the next flit is chosen and sent; then traffic may join the queue of one of the senders. -/
def execFlitSend (slice : SliceId) (port : PortId) (s : State) : Host.Outcome State Fault Refusal :=
  .next (
    let p := port.val
    let x := s.port slice p
    if !portExists slice p || x.st = 0 || x.st = 4 then s
    else
      let s := ((s.flitTime slice p).channelUse slice p x).repeatPauses slice port
      let rs := senders slice p
      s.draw.traffic slice p (rs.getD (s.freeWord.toNat % max rs.length 1) 0))

end Sys2Proof.Machine
end

