-- ==== Sys2Proof/Machine/Photonics.lean ====
section
/-! DEFINITION. The photonic crossbar (R369 to R373, R501) and photonic service (R466 to R468). -/

namespace Sys2Proof.Machine

/-! ### Channels -/

/-- WIDTH. -/
def State.chWidth (s : State) (i : SliceId) (ch : Nat) : Nat := bitsOf (s.chstat i ch) 3 0
/-- A wake is under way. -/
def State.waking (s : State) (i : SliceId) (ch : Nat) : Bool := bitAt (s.chstat i ch) 20

/-- The channels that a slice has. -/
def slicesChannels (i : SliceId) : List Nat := (List.range 70).filter fun ch => portExists i (chanPort ch)

/-- SHIFT of a cluster. -/
def State.ringShift (s : State) (i : SliceId) (c : Nat) : Nat := bitsOf (s.sliceReg i (0x4E4 + c)) 2 0
/-- The rings that carry a logical wavelength of a channel (R371). -/
def State.ringsOf (s : State) (i : SliceId) (ch lam : Nat) : List Nat :=
  if ch < 64 then (List.range 6).map fun c => 16 * c + (lam + s.ringShift i c) % 8
  else [16 * (ch - 64) + 8 + (lam + s.ringShift i (ch - 64)) % 8]
/-- A ring is locked. -/
def State.ringLocked (s : State) (i : SliceId) (n : Nat) : Bool := bitAt (s.sliceReg i (0x484 + n)) 31
/-- A reassignment of a cluster is under way. -/
def State.phBusy (s : State) (i : SliceId) (c : Nat) : Bool := bitAt (s.sliceReg i (0x4E4 + c)) 4
/-- A reassignment holds a channel's width (R467). -/
def State.chanBusy (s : State) (i : SliceId) (ch : Nat) : Bool :=
  if ch < 64 then (List.range 6).any (s.phBusy i) else s.phBusy i (ch - 64)

/-- The widest width whose wavelengths are all locked; 1 when the first is not. -/
def widest (locked : Nat) : Nat := if locked % 256 = 255 then 8 else if locked % 16 = 15 then 4 else if locked % 4 = 3 then 2 else 1

/-- Sets WIDTH, with the stamp of a change. -/
def State.setWidth (s : State) (i : SliceId) (ch w : Nat) : State :=
  s.modChstat i ch fun x => if bitsOf x 3 0 = w then x else setBits (setBits x 3 0 w) 63 32 (s.stampBits 32)

/-- Ends a wake. -/
def State.endWake (s : State) (i : SliceId) (ch : Nat) : State :=
  (s.modChstat i ch fun x => putBit x 20 false).modChannel i ch fun c => { c with wakingMask := 0 }

/-- A narrowing to MINW (R372): the wavelengths at and above it are parked, and a wake under way ends. During a reassignment it waits. -/
def State.narrow (s : State) (i : SliceId) (ch : Nat) : State :=
  let m := bitsOf (s.chcfg i ch) 3 0
  if s.chanBusy i ch then s.modChannel i ch fun c => { c with parkWaits := true }
  else if m ≤ s.chWidth i ch then
    (((s.endWake i ch).modChstat i ch fun x => setBits x 11 4 (bitsOf x 11 4 % 2 ^ m)).setWidth i ch m)
  else s

/-- The stripe widens to the widest width whose wavelengths are locked, when that is wider and no reassignment holds it. -/
def State.widen (s : State) (i : SliceId) (ch : Nat) : State :=
  let w := widest (bitsOf (s.chstat i ch) 11 4)
  if !s.chanBusy i ch && decide (s.chWidth i ch < w) then s.setWidth i ch w else s

/-- A wake of every parked wavelength begins, unless one is under way. -/
def State.wake (s : State) (i : SliceId) (ch : Nat) : State :=
  let locked := bitsOf (s.chstat i ch) 11 4
  if s.waking i ch || locked = 255 then s
  else
    (s.modChstat i ch fun x => putBit x 20 true).modChannel i ch fun c =>
      { c with wakeAt := s.now, wakingMask := BitVec.ofNat 8 (255 - locked) }

/-- The photonic-service event (R468): its cause, what it names, and whether a reassignment failed. -/
def State.phEvent (s : State) (i : SliceId) (cause what : Nat) (failed : Bool) : State :=
  let a := bitsOf (s.sliceReg i 0x4EA) 7 0
  if h : a < 144 then s.fwEvent ⟨i, ⟨a, h⟩⟩ 0x07 (cause + what * 256 + if failed then 65536 else 0) else s

/-- The idle time of a channel has passed (R372). -/
def execChannelIdlePark (slice : SliceId) (chan : ChanId) (s : State) : Host.Outcome State Fault Refusal :=
  .next (
    let ch := chan.val
    let x := s.port slice (chanPort ch)
    let rs := senders slice (chanPort ch)
    let cfg := s.chcfg slice ch
    if portExists slice (chanPort ch) && bitAt cfg 4 && !(rs.any fun r => (x.request rs r).isSome)
        && s.passed (s.channel slice ch).lastReq (bitsOf cfg 31 16) then s.narrow slice ch
    else s)

/-- PARKNOW. -/
def execParknow (slice : SliceId) (chan : ChanId) (s : State) : Host.Outcome State Fault Refusal :=
  .next (if portExists slice (chanPort chan.val) then s.narrow slice chan.val else s)

/-- What a write of `SLICE.CHCFGn` stores. -/
def chcfgWord (v : Word) : Word :=
  let m := bitsOf v 3 0
  let mark := bitsOf v 15 8
  let hold := bitsOf v 39 32
  BitVec.ofNat 64 ((if m = 1 || m = 2 || m = 4 || m = 8 then m else 8) + (if bitAt v 4 then 16 else 0) + (if mark = 0 then 1 else mark) * 256
    + bitsOf v 31 16 * 65536 + (if hold = 0 then 1 else hold) * 2 ^ 32)

/-- A write of `SLICE.CHCFGn` (R372, R373). -/
def execChcfgWrite (slice : SliceId) (chan : ChanId) (value : Word) (s : State) : Host.Outcome State Fault Refusal :=
  .next (
    let ch := chan.val
    if !portExists slice (chanPort ch) then s
    else
      let s := s.setSliceReg slice (0x710 + ch) (chcfgWord value)
      let s := if s.chWidth slice ch < bitsOf (s.chcfg slice ch) 3 0 then s.wake slice ch else s
      if bitAt value 40 then s.narrow slice ch else s)

/-- Flits that wait in a sender's queue. -/
def LinkDir.depth (d : LinkDir) : Nat := (d.txq.map fun (t : TxPacket) => t.flits.length - t.sent).sum + d.resend.length

/-- A sender's queue has reached WAKEMARK. -/
def execChannelWake (slice : SliceId) (chan : ChanId) (s : State) : Host.Outcome State Fault Refusal :=
  .next (
    let p := chanPort chan.val
    let mark := bitsOf (s.chcfg slice chan.val) 15 8
    if portExists slice p && decide (s.chWidth slice chan.val < 8)
        && (senders slice p).any fun r => decide (mark ≤ ((s.port slice p).dir r).depth) then s.wake slice chan.val
    else s)

/-- A woken wavelength locks: at the flit boundary the stripe widens as far as it can (R372). -/
def execWavelengthLocked (slice : SliceId) (chan : ChanId) (lam : Fin 8) (s : State) : Host.Outcome State Fault Refusal :=
  .next (
    let ch := chan.val
    let c := s.channel slice ch
    if portExists slice (chanPort ch) && s.waking slice ch && bitAt c.wakingMask lam.val && (s.ringsOf slice ch lam.val).all (s.ringLocked slice) then
      let s := (s.modChstat slice ch fun x => putBit x (4 + lam.val) true).modChannel slice ch fun c =>
        { c with wakingMask := putBit c.wakingMask lam.val false }
      let s := s.widen slice ch
      if (s.channel slice ch).wakingMask = 0 then s.endWake slice ch else s
    else s)

/-- 1,500 ptick after a wake began: the wavelengths not locked are marked, and the wake ends (R372). -/
def execChannelWakeTimeout (slice : SliceId) (chan : ChanId) (s : State) : Host.Outcome State Fault Refusal :=
  .next (
    let ch := chan.val
    let c := s.channel slice ch
    if portExists slice (chanPort ch) && s.waking slice ch && s.passed c.wakeAt 1500 then
      let s := (s.modChstat slice ch fun x => setBits x 19 12 (bitsOf x 19 12 ||| c.wakingMask.toNat)).endWake slice ch
      s.phEvent slice 2 ch false
    else s)

/-! ### The marble (R369, R501) -/

/-- The marble passes. -/
def execMarblePass (slice : SliceId) (chan : ChanId) (s : State) : Host.Outcome State Fault Refusal :=
  .next (
    let ch := chan.val
    if portExists slice (chanPort ch) && s.releases slice ch then s.passMarble slice ch else s)

/-! ### Rings (R466 to R468) -/

/-- SAT of a `SLICE.PHRINGn` word. -/
def ringSat (v : Word) : Word := putBit v 30 (bitsOf v 9 0 == 0 || bitsOf v 9 0 == 1023)

/-- LOCK of a ring takes a value. -/
def State.setRingLock (s : State) (i : SliceId) (n : Nat) (b : Bool) : State :=
  let v := s.sliceReg i (0x484 + n)
  if bitAt v 31 = b then s else s.setSliceReg i (0x484 + n) (setBits (putBit v 31 b) 63 32 (s.stampBits 32))

/-- Starts a reassignment (R467): BUSY, SHIFT, and every ring's DAC takes NEXT. -/
def execPhmapApply (slice : SliceId) (cluster : ClusterId) (value : Word) (s : State) : Host.Outcome State Fault Refusal :=
  .next (
    if bitAt value 3 && !s.phBusy slice cluster.val then
      let s := s.setSliceReg slice (0x4E4 + cluster.val) (BitVec.ofNat 64 (bitsOf value 2 0 + 16))
      let s := s.modSlice slice fun k => { k with reassign := tabSet k.reassign cluster.val s.now }
      (List.range 16).foldl (fun s r =>
        let n := 16 * cluster.val + r
        let v := s.sliceReg slice (0x484 + n)
        if bitsOf v 9 0 = bitsOf v 19 10 then s
        else (s.setSliceReg slice (0x484 + n) (ringSat (setBits v 9 0 (bitsOf v 19 10)))).setRingLock slice n false) s
    else s)

/-- The wavelengths of a channel's present width of which a ring of the cluster is not locked. -/
def State.failedWaves (s : State) (i : SliceId) (ch c : Nat) : List Nat :=
  (List.range (s.chWidth i ch)).filter fun lam => (s.ringsOf i ch lam).any fun n => n / 16 == c && !s.ringLocked i n

/-- Wavelengths of a channel failed: FAIL is marked, LOCKED clears, and the channel goes on at the widest locked width. -/
def State.failWaves (s : State) (i : SliceId) (ch : Nat) (ls : List Nat) : State :=
  if ls.isEmpty then s
  else
    let s := s.modChstat i ch fun x => ls.foldl (fun x l => putBit (putBit x (12 + l) true) (4 + l) false) x
    s.setWidth i ch (min (s.chWidth i ch) (widest (bitsOf (s.chstat i ch) 11 4)))

/-- The channels that a cluster's rings carry. -/
def clusterChannels (i : SliceId) (c : Nat) : List Nat := (slicesChannels i).filter fun ch => ch < 64 || ch == 64 + c

/-- What waited for a reassignment to end: widenings and narrowings. -/
def State.afterReassign (s : State) (i : SliceId) (c : Nat) : State :=
  (clusterChannels i c).foldl (fun s ch =>
    let s := if s.waking i ch then s.widen i ch else s
    if (s.channel i ch).parkWaits && !s.chanBusy i ch then (s.modChannel i ch fun x => { x with parkWaits := false }).narrow i ch else s) s

/-- Rings lock during a reassignment; it ends when the rings of the present widths are locked, or when 1,500 ptick have passed (R467). -/
def execReassignEnd (slice : SliceId) (cluster : ClusterId) (locked : BitVec 16) (s : State) : Host.Outcome State Fault Refusal :=
  .next (
    let c := cluster.val
    if !s.phBusy slice c then s
    else
      let s := (List.range 16).foldl (fun s r => if bitAt locked r then s.setRingLock slice (16 * c + r) true else s) s
      let fails := (clusterChannels slice c).map fun ch => (ch, s.failedWaves slice ch c)
      let failed := fails.any fun e => !e.2.isEmpty
      if failed && !s.passed (tabGet 0 (s.slice slice).reassign c) 1500 then s
      else
        let s := fails.foldl (fun s e => s.failWaves slice e.1 e.2) s
        let s := s.setSliceReg slice (0x4E4 + c) (putBit (s.sliceReg slice (0x4E4 + c)) 4 false)
        (s.afterReassign slice c).phEvent slice 3 c failed)

/-- A reading of a ring's monitor outside a reassignment: below LOWMARK a locked ring loses its lock (R468), and the channels whose wavelength it
carries lose theirs; at or above it, a ring that has lost it locks. -/
def execRingLockLost (slice : SliceId) (ring : Fin 96) (mon : BitVec 10) (s : State) : Host.Outcome State Fault Refusal :=
  .next (
    let n := ring.val
    let c := n / 16
    let low := decide (mon.toNat < bitsOf (s.sliceReg slice 0x4EA) 17 8)
    if s.phBusy slice c then s
    else if low && s.ringLocked slice n then
      let s := s.setRingLock slice n false
      let s := (clusterChannels slice c).foldl (fun s ch =>
        match (List.range 8).find? fun lam => (s.ringsOf slice ch lam).contains n with
        | some lam =>
          let active := decide (lam < s.chWidth slice ch)
          let s := s.modChstat slice ch fun x => putBit x (4 + lam) false
          if active then s.linkFailure slice (chanPort ch) else s
        | none => s) s
      s.phEvent slice 1 n false
    else if !low && !s.ringLocked slice n then
      let s := s.setRingLock slice n true
      (clusterChannels slice c).foldl (fun s ch =>
        match (List.range (s.chWidth slice ch)).find? fun lam => (s.ringsOf slice ch lam).contains n with
        | some lam => if (s.ringsOf slice ch lam).all (s.ringLocked slice) then s.modChstat slice ch fun x => putBit x (4 + lam) true else s
        | none => s) s
    else s)

end Sys2Proof.Machine
end

