-- ==== Sys2Proof/Machine/Endpoints.lean ====
section
/-! DEFINITION. Upstream endpoint functions (R455 to R458). -/

namespace Sys2Proof.Machine

/-- `SLICE.EPSTATp`. -/
def State.epstat (s : State) (i : SliceId) (p : Nat) : Word := s.sliceReg i (0x4EB + p)
/-- Changes it; a change takes the stamp. -/
def State.setEpstat (s : State) (i : SliceId) (p : Nat) (v : Word) : State :=
  if bitsOf v 31 0 = bitsOf (s.epstat i p) 31 0 then s else s.setSliceReg i (0x4EB + p) (setBits v 63 32 (s.stampBits 32))
/-- The function's BAR0 base, the log of its size, and its BAR2 page. -/
def State.epBars (s : State) (i : SliceId) (p : Nat) : Nat × Nat × Nat :=
  let l := tabGet [] (s.slice i).ep p
  ((l.getD 0 0).toNat, (l.getD 1 0).toNat, (l.getD 2 0).toNat)
/-- The physical address of the BAR2 page. -/
def State.epPage (s : State) (i : SliceId) (p : Nat) : Nat := (s.epBars i p).2.2

/-! ### MSI-X (R457) -/

/-- The function or a table entry is masked. -/
def State.msixMasked (s : State) (i : SliceId) (p v : Nat) : Bool :=
  tabGet false (s.slice i).epMask p || (memGet s.mem (s.epPage i p + 0x800 + 16 * v + 12)).getLsbD 0

/-- The pending bits of the page. -/
def State.msixPending (s : State) (i : SliceId) (p : Nat) : Byte := memGet s.mem (s.epPage i p + 0xC00)
/-- Sets a pending bit. -/
def State.setMsixPending (s : State) (i : SliceId) (p v : Nat) (b : Bool) : State :=
  { s with mem := memSet s.mem (s.epPage i p + 0xC00) (putBit (s.msixPending i p) v b) }
/-- Sends the message of a table entry. -/
def State.sendMsix (s : State) (i : SliceId) (p v : Nat) : State := s.modSlice i fun k => { k with epMsis := (p, v) :: k.epMsis }

/-- Messages that are pending and no longer masked go. -/
def State.flushMsix (s : State) (i : SliceId) (p : Nat) : State :=
  (List.range 4).foldl (fun s v =>
    if bitAt (s.msixPending i p) v && !s.msixMasked i p v then (s.setMsixPending i p v false).sendMsix i p v else s) s

/-- Messages of the endpoints of a slice go when whatever write has unmasked them. -/
def State.flushEndpoints (s : State) (i : SliceId) : State :=
  ([0, 1] : List Nat).foldl (fun s p => if bitAt (s.epstat i p) 0 then s.flushMsix i p else s) s

/-- A write of `SLICE.EPMSIp`: the vector's message, or its pending bit. -/
def execEpmsiWrite (slice : SliceId) (port : Fin 2) (value : Word) (s : State) : Host.Outcome State Fault Refusal :=
  .next (
    let p := port.val
    let v := bitsOf value 1 0
    if !bitAt (s.epstat slice p) 0 then s
    else if s.msixMasked slice p v then s.setMsixPending slice p v true
    else s.sendMsix slice p v)

/-! ### Inbound requests -/

/-- The function performs inbound requests: its link is up, no reset is under way, and it is not in D3hot. -/
def State.epServes (s : State) (i : SliceId) (p : Nat) : Bool :=
  let w := s.epstat i p
  bitAt w 0 && bitAt w 1 && !bitAt w 2 && !tabGet false (s.slice i).epD3 p

/-- The doorbell of the function mailbox: DBELL, and source 0xB. -/
def State.ringMailbox (s : State) (i : SliceId) (p : Nat) : State := (s.setEpstat i p (putBit (s.epstat i p) 3 true)).raiseSource i 0xB

/-- An inbound request to one of the two BARs. A store waits for leases on its lines (R274). -/
def State.inbound (s : State) (i : SliceId) (p : Nat) (bar2 : Bool) (off : Nat) (acc : ExtAccess) : State :=
  let b := s.epBars i p
  let base := if bar2 then b.2.2 else b.1
  let size := if bar2 then 4096 else 2 ^ b.2.1
  let n := match acc with | .load n => n | .store n _ => n
  let part := s.partOf! i
  if !s.epServes i p || n = 0 || 8 < n || size < off + n then s
  else
    match acc with
    | .load n => if s.dykePort i (11 + p) part true (base + off) true false then s.outsideLoad (base + off) n else s
    | .store n v =>
      if !s.dykePort i (11 + p) part true (base + off) false true || !s.outsideReady (base + off) n then s
      else
        let s := s.outsideStore (base + off) (natToBytes v.toNat n)
        if bar2 && off = 0x40 && n = 8 then s.ringMailbox i p
        else if bar2 && 0x800 ≤ off && off < 0x840 then s.flushMsix i p
        else s

/-- An inbound request of the upstream host. -/
def execEpInboundRequest (slice : SliceId) (port : Fin 2) (bar2 : Bool) (off : Nat) (acc : ExtAccess) (s : State) :
    Host.Outcome State Fault Refusal := .next (s.inbound slice port.val bar2 off acc)

/-- An upstream 8-byte store to the doorbell of the function mailbox. -/
def execEpDoorbell (slice : SliceId) (port : Fin 2) (value : Word) (s : State) : Host.Outcome State Fault Refusal :=
  .next (s.inbound slice port.val true 0x40 (.store 8 value))

/-! ### Link and configuration -/

/-- The link comes up. -/
def execEpLinkUp (slice : SliceId) (port : Fin 2) (s : State) : Host.Outcome State Fault Refusal :=
  let w := s.epstat slice port.val
  .next (if bitAt w 0 && !bitAt w 1 then s.setEpstat slice port.val (putBit w 1 true) else s)

/-- A hot reset or link-down (R458): the link falls, so that outbound accesses abort; the BAR2 page is zeroed, and source 0x7 is raised. -/
def execEpHotReset (slice : SliceId) (port : Fin 2) (s : State) : Host.Outcome State Fault Refusal :=
  let p := port.val
  let w := s.epstat slice p
  .next (if bitAt w 0 then
      let s := s.setEpstat slice p (putBit (putBit w 1 false) 2 true)
      let s := s.outsideStore (s.epPage slice p) (List.replicate 4096 0)
      let s := s.modSlice slice fun k => { k with epD3 := tabDel k.epD3 p, epMask := tabDel k.epMask p, epCfg := tabDel k.epCfg p }
      (s.setEpstat slice p (putBit (s.epstat slice p) 2 false)).raiseSource slice 0x7
    else s)

/-- What a 32-bit word of the configuration space keeps of a write: the command register, the BARs' address bits, the interrupt line, and the
two capability words (R456). -/
def epCfgMask (off size : Nat) : W32 :=
  if off = 0x04 then 0xFFFF
  else if off = 0x10 then ~~~(BitVec.ofNat 32 (2 ^ size - 1))
  else if off = 0x14 then ~~~(BitVec.ofNat 32 ((2 ^ size - 1) / 2 ^ 32))
  else if off = 0x18 then 0xFFFFF000
  else if off = 0x1C then 0xFFFFFFFF
  else if off = 0x3C then 0xFF
  else if off = Config.pmControlOffset then 0x3
  else if off = Config.msixControlOffset then 0xC0000000
  else 0

/-- What a 32-bit word of the configuration space reads (R456): what the rule fixes, what has been written, and else what the base specification
gives. -/
def State.epConfig (s : State) (i : SliceId) (p off : Nat) : W32 :=
  let kept : W32 := tabGet 0 (tabGet [] (s.slice i).epCfg p) off
  let other : W32 := Config.pciRegister off
  if off = 0x00 then (0x7B08 : BitVec 16) ++ Config.endpointId.extractLsb' 0 16
  else if off = 0x04 then other.extractLsb' 16 16 ++ kept.extractLsb' 0 16
  else if off = 0x08 then (0x120000 : BitVec 24) ++ Config.endpointId.extractLsb' 16 8
  else if off = 0x0C then other &&& 0xFF00FFFF
  else if off = 0x10 then kept ||| 0xC
  else if off = 0x18 then kept ||| 0x4
  else if off = 0x14 || off = 0x1C then kept
  else if off = 0x20 || off = 0x24 || off = 0x30 then 0
  else if off = 0x3C then (other &&& 0xFFFF0000) ||| (kept &&& 0xFF)
  else if off = Config.pmControlOffset then (other &&& 0xFFFFFFFC) ||| (kept &&& 0x3)
  else if off = Config.msixControlOffset then (other &&& 0x0000FFFF) ||| 0x00030000 ||| (kept &&& 0xC0000000)
  else if off = Config.msixControlOffset + 4 then 0x802
  else if off = Config.msixControlOffset + 8 then 0xC02
  else other

/-- A write of the function's configuration space: the power state and the function mask take effect. -/
def execEpConfigWrite (slice : SliceId) (port : Fin 2) (off : Nat) (value : W32) (s : State) : Host.Outcome State Fault Refusal :=
  .next (
    let p := port.val
    let w := s.epstat slice p
    if !bitAt w 0 || !bitAt w 1 || bitAt w 2 then s
    else
      let v := value &&& epCfgMask off (s.epBars slice p).2.1
      let s := s.modSlice slice fun k =>
        { k with epCfg := tabSet k.epCfg p (tabSet (tabGet [] k.epCfg p) off v),
                 epD3 := if off = Config.pmControlOffset then tabSet k.epD3 p (bitsOf v 1 0 == 3) else k.epD3,
                 epMask := if off = Config.msixControlOffset then tabSet k.epMask p (bitAt v 30) else k.epMask }
      s.flushMsix slice p)

end Sys2Proof.Machine
end

