-- ==== Sys2Proof/Machine/SysRegs.lean ====
section
/-! DEFINITION. System registers: which numbers exist and who reaches them (R140, R165), what each reads, the effect of reading an RC field
and of a write (R8 to R10, R141 to R147), `sysrd` and `syswr`, and the unassigned words (R85). -/

namespace Sys2Proof.Machine

/-! ### Numbers (R140) -/

/-- A number is in a range. -/
def inRange (n lo hi : Nat) : Bool := decide (lo ≤ n) && decide (n ≤ hi)

/-- The `GRP.*` numbers (R141). -/
def grpNumber (n : Nat) : Bool :=
  inRange n 0x000 0x004 || n == 0x008 || inRange n 0x010 0x019 || inRange n 0x020 0x024
/-- The `CORE.*` numbers. -/
def coreNumber (n : Nat) : Bool :=
  inRange n 0x100 0x105 || n == 0x120 || inRange n 0x130 0x19F || inRange n 0x1A0 0x1A4 || n == 0x1B0
/-- The `SLICE.*` numbers. -/
def sliceNumber (n : Nat) : Bool :=
  n == 0x400 || inRange n 0x410 0x411 || inRange n 0x420 0x42D || inRange n 0x430 0x432 || inRange n 0x440 0x4EF
    || inRange n 0x500 0x705 || inRange n 0x708 0x709 || inRange n 0x710 0x755 || inRange n 0x760 0x769 || inRange n 0x770 0x78D
    || inRange n 0x790 0x7FF
/-- The `PRC.*` mirror numbers. -/
def prcNumber (n : Nat) : Bool := inRange n 0x800 0x80A || inRange n 0x810 0x81F || inRange n 0x840 0x84F

/-- The number is assigned. -/
def sysNumber (n : Nat) : Bool := grpNumber n || coreNumber n || sliceNumber n || prcNumber n

/-- The issuing slot may reach the number (R140). -/
def mayReach (puppet : Bool) (n : Nat) : Bool :=
  if puppet then decide (0x100 ≤ n) || n == 0x000 || n == 0x024 else decide (n < 0x100) || n == 0x100 || n == 0x400

/-! ### Reading -/

/-- `GRP.SPLIT` (R143). -/
def Group.splitWord (v : Group) : Word :=
  BitVec.ofNat 64 (recBits v (fun _ => true) + v.waiting.length * 256 + bitNum v.block.isSome 15)

/-- `GRP.STATUS` (R146). -/
def State.statusWord (s : State) (g : GroupRef) : Word :=
  let v := s.group g
  BitVec.ofNat 64 (bitNum (v.block.isSome || !v.lq.isEmpty) 0 + v.lq.length * 2 + bitNum v.trig 6 + bitNum v.nbh 7 + v.ten.toNat * 2 ^ 8
    + g.slot.val * 2 ^ 12 + v.prio.toNat * 2 ^ 17 + min 255 (s.asyncCount g) * 2 ^ 20)

/-- A `GRP.*` register of a group (R141). -/
def State.readGrp (s : State) (g : GroupRef) (n : Nat) : Word :=
  let v := s.group g
  let mask (k : Nat) : Mask := if (v.split k).used then (v.split k).mask else 0
  let wt := maskOf fun l => (tabFind v.waiting l).isSome
  if n = 0x000 then v.sc.spc
  else if n < 0x005 then (if (v.split (n - 1)).used then (v.split (n - 1)).pc.setWidth 64 else 0)
  else if n = 0x008 then v.splitWord
  else if n < 0x018 then (if n % 2 = 0 then (mask ((n - 0x010) / 2)).extractLsb' 0 64 else ((mask ((n - 0x010) / 2)).extractLsb' 64 32).setWidth 64)
  else if n = 0x018 then wt.extractLsb' 0 64
  else if n = 0x019 then (wt.extractLsb' 64 32).setWidth 64
  else if n = 0x020 then v.fpc
  else if n = 0x021 then v.sig
  else if n = 0x022 then v.sc.wct
  else if n = 0x023 then BitVec.ofNat 64 (v.nreg + v.want * 256)
  else s.statusWord g

/-- `GRP.STATUS` of a puppet slot: the asynchronous operations its agent has issued and not complete. -/
def State.puppetStatus (s : State) (c : CoreRef) : Word :=
  BitVec.ofNat 64 (min 255 (s.asyncs.countP fun o => o.issuer == .puppet c && !o.saved) * 2 ^ 20)

/-- A participant of a group's barrier, stopped by the debugger, has not arrived (R438). -/
def State.dbgBlocked (s : State) (g : GroupRef) : Bool :=
  match (s.group g).arrived with
  | some (n, nb, _) =>
    let b := s.barrier g nb n
    (s.barrierGroups g nb).any fun h => (s.group h).dbg && !b.arrived.contains h
  | none => false

/-- `CORE.GSTATn` (R438). -/
def State.gstat (s : State) (g : GroupRef) : Word :=
  let v := s.group g
  BitVec.ofNat 64 (v.st.code + v.waitCode * 8 + bitNum (s.dbgBlocked g) 7 + bitNum v.dbg 8 + bitNum v.halted 9
    + bitNum (v.stepping || v.lstepping) 10 + v.ten.toNat * 2 ^ 16 + bitsOf v.stamp 39 0 * 2 ^ 24)

/-- A `CORE.*` register (R140). -/
def State.readCore (s : State) (c : CoreRef) (n : Nat) : Word :=
  let k := s.core c
  if n = 0x100 then s.now
  else if inRange n 0x130 0x13F then
    let b : SpawnBin := tabGet {} k.bins (n - 0x130)
    BitVec.ofNat 64 (min 96 b.payloads.length + bitNum b.wait 7 + bitNum b.valid 8 + if b.valid then bitsOf b.expiry 47 0 * 2 ^ 16 else 0)
  else if inRange n 0x140 0x14F then
    let b : SpawnBin := tabGet {} k.bins (n - 0x140)
    if b.valid then b.entry &&& 0x00FFFFFFFFFFFFFC else 0
  else if inRange n 0x150 0x15F then
    let b : SpawnBin := tabGet {} k.bins (n - 0x150)
    let r : Grid := tabGet {} s.grids b.grid
    if b.valid then BitVec.ofNat 64 (bitsOf r.grcb 55 8) else 0
  else if inRange n 0x170 0x17F then
    let d : Deficit := tabGet {} k.deficits (n - 0x170)
    BitVec.ofNat 64 ((ofInt 16 d.deficit).toNat + d.weight % 256 * 2 ^ 16 + bitNum d.bound 24)
  else if inRange n 0x180 0x19F then s.gstat ⟨c.slice, c.core, idx 32 (n - 0x180)⟩
  else if n = 0x1A1 || n = 0x1A4 then 0
  else if n = 0x1A2 then BitVec.ofNat 64 (k.preempt.state.toNat + k.preempt.result.toNat * 2 ^ 8 + bitsOf k.preempt.stamp 47 0 * 2 ^ 16)
  else s.coreReg c n

/-- `SLICE.OCCDATA` (R404). -/
def State.occData (s : State) (i : SliceId) : Word :=
  let sel := s.sliceReg i 0x423
  let o : Occ := tabGet {} (s.slice i).occ (bitsOf sel 5 0 * 64 + bitsOf sel 11 6)
  let lim := if o.valid then s.softLimit (s.partOf! i) o.asid else 0
  BitVec.ofNat 64 (o.asid.toNat + o.lines % 32768 * 2 ^ 16 + bitNum o.valid 31 + lim * 2 ^ 32 + bitNum (lim != 0 && decide (lim ≤ o.lines)) 47)

/-- `SLICE.SEEPDATA` (R406). -/
def State.seepData (s : State) (i : SliceId) : Word :=
  let c : Seep := tabGet {} (s.slice i).seep (bitsOf (s.sliceReg i 0x428) 13 0)
  BitVec.ofNat 64 (c.value.toNat + bitNum c.armed 16 + bitsOf c.stamp 31 0 * 2 ^ 32)

/-- `SLICE.CROOMn` of a core (R348). -/
def Core.roomWord (c : Core) : Word :=
  BitVec.ofNat 64 (c.slotsFree.length + c.regsFree / 8 * 2 ^ 6 + c.spadFree / 1024 * 2 ^ 14 + bitNum (!c.matrixHeld) 24
    + (c.deficits.countP fun e => e.2.bound) * 2 ^ 25)

/-- `SLICE.LNKSTATn` (R368). -/
def State.lnkstat (s : State) (i : SliceId) (p : Nat) : Word :=
  let x := s.port i p
  let opened (c : Nat) : Bool := (x.dir 0).txq.any fun t => t.cls == c && t.isOpen
  BitVec.ofNat 64 (x.st.toNat + x.rxp.toNat * 16 + x.txp.toNat * 256 + (bitNum (opened 0) 12 + bitNum (opened 1) 13 + bitNum (opened 2) 14)
    + x.retr * 2 ^ 16 + bitsOf x.stamp 39 0 * 2 ^ 24)

/-- A `SLICE.*` register. MON of a ring is a reading: a free value. -/
def State.readSlice (s : State) (i : SliceId) (n : Nat) : Word :=
  let k := s.slice i
  if n = 0x410 || n = 0x430 || n = 0x761 || n = 0x768 || n = 0x4ED || n = 0x4EE then 0
  else if n = 0x411 then
    let used (c : Nat) : Nat := k.bog.countP fun e => e.2.used && e.1 / 1024 == c
    BitVec.ofNat 64 (used 0 + used 1 * 2 ^ 16)
  else if n = 0x421 then BitVec.ofNat 64 ((0x30 + i.val) * 2 ^ 40 + 0x1000000000)
  else if n = 0x424 then s.occData i
  else if n = 0x429 then s.seepData i
  else if inRange n 0x480 0x483 then
    BitVec.ofNat 64 (((List.range 64).map fun b => bitNum ((s.qslot i ((n - 0x480) * 64 + b)).evt) b).foldl (· + ·) 0)
  else if inRange n 0x484 0x4E3 then setBits (s.sliceReg i n) 29 20 (bitsOf s.freeWord 9 0)
  else if n = 0x4EF then Config.endpointId.setWidth 64 &&& 0xFFFFFF
  else if inRange n 0x500 0x5FF then s.slotWord' i (n - 0x500)
  else if inRange n 0x600 0x68F then (s.core ⟨i, idx 144 (n - 0x600)⟩).roomWord
  else if inRange n 0x690 0x69F || inRange n 0x6B0 0x6BF then (if portExists i (n % 16) then s.sliceReg i n else 0)
  else if inRange n 0x6A0 0x6AF then (if portExists i (n - 0x6A0) then s.lnkstat i (n - 0x6A0) else 0)
  else if inRange n 0x6C0 0x705 then (if portExists i (n - 0x6C0 + 0x10) then s.sliceReg i n else 0)
  else if inRange n 0x710 0x755 then (if portExists i (n - 0x710 + 0x10) then s.sliceReg i n else 0)
  else if n = 0x762 then BitVec.ofNat 64 (bitNum (decide (s.now ≤ k.flushUntil) && k.flushUntil != 0) 1)
  else s.sliceReg i n

/-- A `PRC.*` mirror, as a slot or host core of a partition reads it. Mirrors of operating points outside its partition read 0 (R19). -/
def State.readPrc (s : State) (p : Option PartId) (n : Nat) : Word :=
  if n < 0x808 then Config.fuseMap (idx 8 n)
  else if n = 0x808 then (match p with | some p => (s.part p).fwstat | none => 0)
  else if n = 0x80A then (match p with | some p => (s.part p).featacc | none => 0)
  else if inRange n 0x810 0x817 then
    (match p with | some p => if s.member p (idx 8 n) then s.sliceReg (idx 8 n) 0x400 else 0 | none => 0)
  else s.prcReg n

/-- What the puppet slot of a core, or the aperture of its slice, reads at a number. -/
def State.readSys (s : State) (c : CoreRef) (n : Nat) : Word :=
  if n < 0x400 then s.readCore c n
  else if n < 0x800 then s.readSlice c.slice n
  else s.readPrc (s.partOf c.slice) n

/-- What a read of a number clears: its RC fields (R9). -/
def State.clearRead (s : State) (i : SliceId) (n : Nat) : State :=
  if n = 0x42D then s.setSliceReg i n 0
  else if n = 0x4EB || n = 0x4EC then
    (if bitsOf (s.sliceReg i n) 31 16 = 0 then s else s.setSliceReg i n (setBits (setBits (s.sliceReg i n) 31 16 0) 63 32 (s.stampBits 32)))
  else if inRange n 0x690 0x69F then s.setSliceReg i n 0
  else if inRange n 0x6A0 0x6AF then s.modPort i (n - 0x6A0) fun x => { x with retr := 0 }
  else if inRange n 0x484 0x4E3 then s.draw
  else s

/-! ### Writing -/

/-- What a meaning leaves. -/
def ran (o : Host.Outcome State Fault Refusal) (s : State) : State := match o with | .next t => t | _ => s

/-- A write of `SLICE.FDCMD` (R426, R427). -/
def State.writeFdcmd (s : State) (i : SliceId) (v : Word) : State :=
  ran (match fdAction v with
    | 1 => execFdHalt i v s
    | 2 => execFdReset i v s
    | 3 => execFdAttach i v s
    | 4 => execFdDetach i v s
    | 5 => execFdStop i v s
    | 6 => execFdResume i v s
    | 7 => execFdSstep i v s
    | 8 => execFdLstep i v s
    | 9 => execFdDump i v s
    | 10 => execFdLoad i v s
    | _ => .next s) s

/-- A write of `SLICE.BOGCTL` (R271). -/
def State.writeBogctl (s : State) (i : SliceId) (v : Word) : State :=
  let ctl : Fin 2 := idx 2 (bitsOf v 10 10)
  let e : BitVec 10 := v.extractLsb' 0 10
  ran (match bitsOf v 12 11 with
    | 0 => execBogRetry i ctl e s
    | 1 => execBogFatal i ctl e s
    | 2 => execBogRetryPage i ctl e s
    | _ => .next s) s

/-- A write of `CORE.PRECMD` (R430). -/
def State.writePrecmd (s : State) (c : CoreRef) (v : Word) : State :=
  ran (match preMode v with
    | 0 => execPreemptBlocking c v s
    | 1 => execPreemptForced c v s
    | 2 => execPreemptCancel c s
    | _ => .next s) s

/-- A write of `SLICE.PHRINGn` (R466): DAC and NEXT, while no reassignment of the cluster is under way (R467). -/
def State.writeRing (s : State) (i : SliceId) (n : Nat) (v : Word) : State :=
  if s.phBusy i (n / 16) then s
  else s.setSliceReg i (0x484 + n) (ringSat (setBits (s.sliceReg i (0x484 + n)) 19 0 (bitsOf v 19 0)))

/-- A write of a `CORE.*` register (R9). -/
def State.writeCore (s : State) (c : CoreRef) (n : Nat) (v : Word) : State :=
  if n = 0x103 then s.setCoreReg c n (putBit (s.coreReg c n) 8 (bitAt v 8))
  else if n = 0x104 || n = 0x105 then s.setCoreReg c n v
  else if n = 0x120 then s.setCoreReg c n (BitVec.ofNat 64 (if bitsOf v 19 0 = 0 then 2000 else bitsOf v 19 0))
  else if inRange n 0x160 0x167 then s.setCoreReg c n (v &&& 0x3FFFFFF)
  else if inRange n 0x168 0x16F then ran (execPmcWrite c (idx 8 (n - 0x168)) v s) s
  else if n = 0x1A0 then s.setCoreReg c n (v &&& 0x00FFFFFFFFFFFF00)
  else if n = 0x1A1 then s.writePrecmd c v
  else if n = 0x1A3 then s.setCoreReg c n (BitVec.ofNat 64 (if bitsOf v 31 0 = 0 then 20000 else bitsOf v 31 0))
  else if n = 0x1A4 then ran (execRestcmd c v s) s
  else s

/-- A write of a `SLICE.*` register (R9). -/
def State.writeSlice (s : State) (i : SliceId) (n : Nat) (v : Word) : State :=
  let old := s.sliceReg i n
  if n = 0x400 then s.setSliceReg i n (putBit old 7 (bitAt old 7 && !bitAt v 7))
  else if n = 0x410 then s.writeBogctl i v
  else if n = 0x420 then s.setSliceReg i n (v &&& 0x00FFFFFFFFFFFF80)
  else if n = 0x422 then s.setSliceReg i n (v &&& 0xFFFFFFFF)
  else if n = 0x423 then s.setSliceReg i n (v &&& 0xFFF)
  else if inRange n 0x425 0x427 then ran (execSeepcfgWrite i (idx 3 (n - 0x425)) v s) s
  else if n = 0x428 then s.setSliceReg i n (v &&& 0x3FFF)
  else if n = 0x42B then s.setSliceReg i n (if v = 0 then 1 else v)
  else if n = 0x42C then ran (execFijctlWrite i v s) s
  else if n = 0x430 then s.writeFdcmd i v
  else if n = 0x431 then s.setSliceReg i n (v &&& 0x00FFFFFFFFFFFFC0)
  else if inRange n 0x440 0x47F then s.setSliceReg i n (old &&& ~~~v)
  else if inRange n 0x484 0x4E3 then s.writeRing i (n - 0x484) v
  else if inRange n 0x4E4 0x4E9 then ran (execPhmapApply i (idx 6 (n - 0x4E4)) v s) s
  else if n = 0x4EA then s.setSliceReg i n (v &&& 0x3FFFF)
  else if n = 0x4EB || n = 0x4EC then
    (if bitAt old 3 && bitAt v 3 then s.setSliceReg i n (setBits (putBit old 3 false) 63 32 (s.stampBits 32)) else s)
  else if n = 0x4ED || n = 0x4EE then ran (execEpmsiWrite i (idx 2 (n - 0x4ED)) v s) s
  else if inRange n 0x6B0 0x6BF then ran (execLnkcfgWrite i (idx 86 (n - 0x6B0)) v s) s
  else if inRange n 0x6C0 0x705 then s.setSliceReg i n (setBits old 19 12 (bitsOf (old &&& ~~~v) 19 12))
  else if n = 0x708 then s.setSliceReg i n (v &&& 0x00FFFFFFFFFFFF00)
  else if inRange n 0x710 0x755 then ran (execChcfgWrite i (idx 70 (n - 0x710)) v s) s
  else if n = 0x760 then s.setSliceReg i n (v &&& 0x00FFFFFFFFF80000)
  else if n = 0x761 then ran (execWcinvWrite i v s) s
  else if n = 0x763 then ran (execMrbaseWrite i v s) s
  else if n = 0x765 then ran (execMrrdWrite i v s) s
  else if n = 0x768 then ran (execL2flushWrite i v s) s
  else s

/-- A write by the puppet slot of a core, or through the aperture of its slice. The PRC mirrors take no write. -/
def State.writeSys (s : State) (c : CoreRef) (n : Nat) (v : Word) : State :=
  if n < 0x400 then s.writeCore c n v else if n < 0x800 then s.writeSlice c.slice n v else s

/-! ### sysrd and syswr (R165) -/

/-- The fault of a number: unassigned, or out of the slot's reach. -/
def sysFault (puppet : Bool) (n : Nat) : Option Cause :=
  if !sysNumber n then some .illegalEncoding else if !mayReach puppet n then some .privilege else none

/-- What the executing agent reads at a number. -/
def State.readAs (s : State) (a : Agent) (n : Nat) : Word :=
  match agentGroup a with
  | some g => if n < 0x100 then s.readGrp g n else s.readSys g.at n
  | none => if n = 0x000 then (s.scOf a).spc else if n = 0x024 then s.puppetStatus (agentCore a) else s.readSys (agentCore a) n

/-- `sysrd`. -/
def execSysrd (d : BitVec 6) (num : BitVec 13) (s : State) : Host.Outcome State Fault Refusal :=
  .next (match sysFault (agentPuppet s.cur) num.toNat with
    | some c => s.raise c
    | none => s.issue { dest := some d } fun s =>
      (s.clearRead (agentCore s.cur).slice num.toNat).result d (s.readAs s.cur num.toNat))

/-- What the executing agent's write does. -/
def State.writeAs (s : State) (a : Agent) (n : Nat) (v : Word) : State :=
  match agentGroup a with
  | some g => if n = 0x020 then s.modGroup g fun x => { x with fpc := storedFpc v } else s
  | none => if n < 0x100 then s else s.writeSys (agentCore a) n v

/-- `syswr`. -/
def execSyswr (a : BitVec 6) (num : BitVec 13) (s : State) : Host.Outcome State Fault Refusal :=
  .next (match sysFault (agentPuppet s.cur) num.toNat with
    | some c => s.raise c
    | none => s.issue { reads := [a] } fun s => (s.writeAs s.cur num.toNat (s.sreg a)).advance)

/-! ### Register accesses as events -/

/-- A register write that the puppet slot of a core or the aperture makes (R8, R9, R454). -/
def execRegisterWrite (c : CoreRef) (num : BitVec 13) (value : Word) (s : State) : Host.Outcome State Fault Refusal :=
  .next (if sysNumber num.toNat && decide (0x100 ≤ num.toNat) then s.writeSys c num.toNat value else s)

/-- A read of a register with an RC field (R9, R10). -/
def execRegisterReadClear (c : CoreRef) (num : BitVec 13) (s : State) : Host.Outcome State Fault Refusal :=
  .next (if sysNumber num.toNat && decide (0x100 ≤ num.toNat) then
      { s.clearRead c.slice num.toNat with outRead := s.readSys c num.toNat }
    else s)

/-! ### Unassigned words (R73, R85, R86) -/

/-- A word that encodes no instruction raises illegal-instruction. -/
def execUnassignedInstruction (w : W32) (s : State) : Host.Outcome State Fault Refusal := .next (({ s with word := w } : State).raise .illegalInstruction)

end Sys2Proof.Machine
end

