-- ==== Sys2Proof/Machine/Prc.lean ====
section
/-! DEFINITION. The Package Root Controller's messages that one partition's kernel and agents send (R24, R176, R309, R393, R395, R411,
R443 to R445, R455, R459 to R465), and OWNERKEY. -/

namespace Sys2Proof.Machine

/-! ### Frames and replies (R443, R444) -/

/-- OP of a frame. -/
def frOp (w : List W32) : Nat := bitsOf (wordAt w 0) 7 0
/-- The 16 words of a frame. -/
def frame16 (w : List W32) : List W32 := (List.range 16).map (wordAt w)

/-- What the PRC answers: STATUS, REASON, and the reply values. -/
structure Reply where
  status : Nat := 0
  reason : Nat := 0
  values : List (Nat × W32) := []
  deriving DecidableEq, Repr

/-- Accepted. -/
def accepted : Reply := {}
/-- Refused for a reason. -/
def refused (reason : Nat) : Reply := { status := 1, reason := reason }

/-- The reply over the same frame. -/
def replyFrame (w : List W32) (r : Reply) : List W32 :=
  r.values.foldl (fun w e => setWord w e.1 e.2) (setWord (frame16 w) 1 (BitVec.ofNat 32 (r.status + r.reason * 256)))

/-- The messages of R444. -/
def knownOp (op : Nat) : Bool := (decide (1 ≤ op) && decide (op ≤ 0x0D)) || (decide (0x10 ≤ op) && decide (op ≤ 0x14))

/-- The reply reaches an agent: it overwrites the buffer, d takes the status, and the stream goes on (R176). -/
def State.answerAgent (s : State) (p : PartId) (c : CoreRef) (num : Nat) (va : Word) (d : BitVec 6) (w : List W32) (r : Reply) : State :=
  let a := (s.core c).puppet
  if a.letter ≠ num || a.sc.wait ≠ .mailbox then s
  else
    let e : EngId := { a := .puppet c, part := p, asid := Config.rootAsid p }
    let s := if s.meet e 2 va 64 == .ok then (s.engWrite e va (wordsToBytes w)).1 else s
    s.modPuppet c fun a => { a with sc := { a.sc.write d (BitVec.ofNat 64 r.status) with spc := a.sc.spc + 4, wait := .none } }

/-- The reply reaches the host mailbox, and source 0x0 is raised. -/
def State.answerHost (s : State) (p : PartId) (w : List W32) (r : Reply) : State :=
  (s.modPart p fun q =>
    { q with mbox := w, mboxBusy := false, mboxStatus := BitVec.ofNat 8 r.status, mboxStamp := s.now }).raisePartSource p 0x0

/-- The PRC writes its reply, and the message leaves its partition's queue. -/
def State.answer (s : State) (by' : Sender) (w : List W32) (r : Reply) : State :=
  let rep := replyFrame w r
  match by' with
  | .management => { s with prc := { s.prc with mgmt := rep :: s.prc.mgmt } }
  | .kernel p =>
    match (s.part p).inbox with
    | [] => s
    | l :: rest =>
      let s := s.modPart p fun q => { q with inbox := rest }
      match l.agent with
      | some (c, va, d) => s.answerAgent p c l.num va d rep r
      | none => s.answerHost p rep r

/-- The PRC comes to a message: it is the oldest of its partition (R445). A message of the management interface comes with its event. -/
def State.awaits (s : State) (by' : Sender) (w : List W32) : Bool :=
  match by' with
  | .management => true
  | .kernel p => match (s.part p).inbox with | l :: _ => l.words == frame16 w | [] => false

/-- Whether R444 permits a sender: kernels and agents, or the management interface. -/
def permitted (by' : Sender) (kernel mgmt : Bool) : Bool := match by' with | .kernel _ => kernel | .management => mgmt

/-- The PRC handles a message of one OP; `act` answers it, or leaves it to wait, in the state that `wait` gives. -/
def State.handle (s : State) (by' : Sender) (m : Frame) (op : Nat) (kernel mgmt : Bool) (act : State → Option (State × Reply))
    (wait : State → State := id) : State :=
  let w := frame16 m.words
  if !s.awaits by' w then s
  else if !knownOp (frOp w) then s.answer by' w { status := 3 }
  else if frOp w ≠ op then s
  else if bitsOf (wordAt w 0) 15 8 ≠ 0 then s.answer by' w (refused 0x01)
  else if !permitted by' kernel mgmt then s.answer by' w (refused 0x02)
  else
    match act s with
    | some (s, r) => s.answer by' w r
    | none => wait s

/-- A message that only kernels and agents send. -/
def State.kernelMessage (s : State) (by' : Sender) (m : Frame) (op : Nat) (act : PartId → List W32 → State → Option (State × Reply))
    (wait : PartId → State → State := fun _ s => s) : State :=
  s.handle by' m op true false (fun s => match by' with | .kernel p => act p (frame16 m.words) s | .management => none)
    fun s => match by' with | .kernel p => wait p s | .management => s

/-! ### Sending (R176, R443) -/

/-- A frame joins a partition's queue. -/
def State.sendLetter (s : State) (p : PartId) (l : Letter) : State := s.modPart p fun q => { q with inbox := q.inbox ++ [l] }

/-- `prcmsg`: sends the 64 bytes at s[a] and waits for the reply. A misaligned address breaks a must: the aligned bytes are sent, or nothing is
(R6). -/
def execPrcmsg (d a : BitVec 6) (s : State) : Host.Outcome State Fault Refusal :=
  .next (s.issue (agentForm [a] (some d)) fun s =>
    let c := s.curCore
    let p := s.agentPart s.cur
    let va := s.sreg a &&& ~~~63#64
    if (s.scOf s.cur).wait = .mailbox then s
    else if !(s.scOf s.cur).memq.isEmpty then s.waitOn .stall
    else
      s.ifKept ((s.sreg a).toNat % 64 == 0) d fun s => s.withBytes (s.meet s.curEng 1 va 64) 1 fun s => s.withBytes (s.meet s.curEng 2 va 64) 2 fun s =>
        let n := s.nextId
        let l : Letter := { agent := some (c, va, d), num := n, words := s.engWords s.curEng 1 va 16 }
        ((s.takeId.sendLetter p l).modPuppet c fun x => { x with letter := n }).waitOn .mailbox)

/-- An 8-byte store to offset 0x040 of the host mailbox; ignored while BUSY. -/
def execHostMailboxSend (part : PartId) (s : State) : Host.Outcome State Fault Refusal :=
  .next (if !s.partValid part || (s.part part).mboxBusy then s
    else (s.sendLetter part { words := frame16 (s.part part).mbox }).modPart part fun q => { q with mboxBusy := true })

/-! ### The partition map -/

/-- Changes a partition's entry: GEN rises, and the stamp is taken (R390). -/
def State.changePmap (s : State) (p : PartId) (f : Word → Word) : State :=
  let w := f (s.pmap p)
  (s.setPrcReg (0x840 + p.val) (setBits w 63 48 (bitsOf w 63 48 + 1))).setPrcReg (0x848 + p.val) s.now

/-! ### FEAT and LEASE (R24, R309) -/

/-- The feature word. -/
def State.acceptFeatures (s : State) (p : PartId) (v : Word) : State × Reply :=
  if (s.part p).featLocked then (s, { status := 2 })
  else if v &&& ~~~s.prcReg 0x809 ≠ 0 then (s, refused 0x01)
  else ((s.modPart p fun q => { q with featacc := v, featLocked := true }).fwEventAll p 0x08 0, accepted)

/-- FEAT. -/
def execFeat (by' : Sender) (m : Frame) (s : State) : Host.Outcome State Fault Refusal :=
  .next (s.kernelMessage by' m 0x01 fun p w s => some (s.acceptFeatures p (dwordAt w 2)))

/-- LEASE: leases granted from now on. -/
def execLease (by' : Sender) (m : Frame) (s : State) : Host.Outcome State Fault Refusal :=
  .next (s.kernelMessage by' m 0x05 fun p w s =>
    let l := bitsOf (wordAt w 2) 12 0
    if l < 16 || 4096 < l then some (s, refused 0x01) else some (s.changePmap p fun x => setBits x 24 12 l, accepted))

/-! ### DYKE (R391, R393) -/

/-- The words of a range: PID, R, W, V and BASE; LIMIT. -/
def rangeWord (p : PartId) (r w : Bool) (base : Nat) : Word :=
  BitVec.ofNat 64 (p.val + (if r then 8 else 0) + (if w then 16 else 0) + 32 + base)

/-- A slice has a dyke entry for a port: one whose link exists, or one of its PCIe ports and its UCIe link (R355, R391). -/
def hasDyke (i : SliceId) (port : Nat) : Bool := portExists i port || (decide (11 ≤ port) && decide (port ≤ 13))

/-- Writes range j of a port's entry, with the entry's stamp; a port that names nothing has none. -/
def State.setRange (s : State) (i : SliceId) (port j : Nat) (b l : Word) : State :=
  if !hasDyke i port then s else
  let n := 0x790 + 2 * (4 * port + j)
  let s := (s.setSliceReg i n b).setSliceReg i (n + 1) l
  s.setSliceReg i (0x780 + port) (setBits (s.sliceReg i (0x780 + port)) 63 24 (s.stampBits 40))

/-- Every page of a physical range is of the partition: HBM or a window of its member slices. -/
def State.ownRange (s : State) (p : PartId) (lo hi : Nat) : Bool :=
  let top := hi - 1
  if top < 2 ^ 40 then (List.range 8).all fun i => !(decide (lo / 2 ^ 37 ≤ i) && decide (i ≤ top / 2 ^ 37)) || s.member p (idx 8 i)
  else
    decide (lo / 2 ^ 40 = top / 2 ^ 40) &&
      (match targetOf lo with
       | .pcie t _ => s.member p t
       | .aperture t _ => s.member p t
       | _ => false)

/-- The port is one of the two PCIe ports and carries an endpoint function. -/
def State.endpointPort (s : State) (i : SliceId) (port : Nat) : Bool :=
  (port = 11 || port = 12) && bitAt (s.epstat i (port - 11)) 0

/-- DYKE: one range of one port, on every member slice. -/
def State.grantDyke (s : State) (p : PartId) (w : List W32) : State × Reply :=
  let port := bitsOf (wordAt w 2) 3 0
  let j := bitsOf (wordAt w 2) 5 4
  let base := (dwordAt w 4).toNat
  let lim := (dwordAt w 6).toNat
  let v := bitAt (wordAt w 3) 2
  if 14 ≤ port then (s, refused 0x01)
  else if v && (base % 4096 ≠ 0 || lim % 4096 ≠ 0 || lim ≤ base || 2 ^ 48 ≤ lim) then (s, refused 0x01)
  else if v && !s.ownRange p base lim then (s, refused 0x01)
  else if (s.memberSlices p).any fun i => s.endpointPort i port then (s, refused 0x01)
  else
    let b : Word := if v then rangeWord p (bitAt (wordAt w 3) 0) (bitAt (wordAt w 3) 1) base else 0
    let l : Word := if v then dwordAt w 6 else 0
    ((s.memberSlices p).foldl (fun s i => s.setRange i port j b l) s, accepted)

/-- DYKE. -/
def execDyke (by' : Sender) (m : Frame) (s : State) : Host.Outcome State Fault Refusal :=
  .next (s.kernelMessage by' m 0x03 fun p w s => some (s.grantDyke p w))

/-! ### ROUTE (R394, R395) -/

/-- Writes an entry of a slice: a pending event goes when the entry enables it. -/
def State.setRoute (s : State) (i : SliceId) (src : Nat) (v : W32) : State :=
  let n := 0x770 + src
  let pend := bitAt (s.sliceReg i n) 27
  let e : Word := BitVec.ofNat 64 (bitsOf v 26 0 + s.stampBits 32 * 2 ^ 32)
  if bitAt e 11 && pend then (s.setSliceReg i n e).raiseSource i src else s.setSliceReg i n (putBit e 27 pend)

/-- ROUTE: the entry of one source, on every member slice. -/
def State.route (s : State) (p : PartId) (w : List W32) : State × Reply :=
  let src := bitsOf (wordAt w 2) 3 0
  let v := wordAt w 3
  if 12 ≤ src || bitsOf v 20 19 = 3 || (bitsOf v 20 19 = 2 && bitsOf v 26 21 = 0) || (bitAt v 11 && bitsOf v 10 0 = 0) then (s, refused 0x01)
  else if !s.member p (idx 8 (bitsOf v 18 16)) then (s, refused 0x01)
  else ((s.memberSlices p).foldl (fun s i => s.setRoute i src v) s, accepted)

/-- ROUTE. -/
def execRoute (by' : Sender) (m : Frame) (s : State) : Host.Outcome State Fault Refusal :=
  .next (s.kernelMessage by' m 0x04 fun p w s => some (s.route p w))

/-! ### Keys (R447, R465) -/

/-- KEYLOAD: the blob is read and zeroed. -/
def State.loadKey (s : State) (p : PartId) (w : List W32) : State × Reply :=
  let kind := bitsOf (wordAt w 2) 9 8
  let slot := bitsOf (wordAt w 2) 7 0
  let va := dwordAt w 3
  let e := partEng p
  if kind = 3 then (s, refused 0x01)
  else if kind ≠ 0 && (s.meet e 1 va 64 != .ok || s.meet e 2 va 64 != .ok) then (s, refused 0x01)
  else
    let bs := s.engBytes e 1 va (if kind = 1 then 32 else 64)
    let s := if s.meet e 2 va 64 == .ok then (s.engWrite e va (List.replicate 64 0)).1 else s
    (s.modPart p fun q =>
      { q with keys := if kind = 0 then tabDel q.keys slot else tabSet q.keys slot (BitVec.ofNat 2 kind, bs) }, accepted)

/-- KEYLOAD. -/
def execKeyload (by' : Sender) (m : Frame) (s : State) : Host.Outcome State Fault Refusal :=
  .next (s.kernelMessage by' m 0x07 fun p w s => some (s.loadKey p w))

/-- OWNERKEY: an owner slot takes the digest of the owner's two public keys. -/
def execOwnerkey (by' : Sender) (m : Frame) (s : State) : Host.Outcome State Fault Refusal :=
  .next (s.handle by' m 0x14 false true fun s =>
    let w := frame16 m.words
    some ({ s with prc := { s.prc with owners := tabSet s.prc.owners (bitsOf (wordAt w 2) 2 0) ((w.drop 3).take 12) } }, accepted))

/-! ### Output (R411, R463, R464) -/

/-- Bytes of a fixed length. -/
def fixedBytes (n : Nat) (bs : List Byte) : List Byte := (List.range n).map fun i => bs.getD i 0

/-- Bytes that a message asks for: into the buffer of a partition, or with the reply to the management interface. -/
def State.putOut (s : State) (by' : Sender) (va : Word) (bs : List Byte) : State × Reply :=
  match by' with
  | .kernel p => if s.meet (partEng p) 2 va bs.length == .ok then ((s.engWrite (partEng p) va bs).1, accepted) else (s, refused 0x01)
  | .management => ({ s with prc := { s.prc with mgmt := bytesToWords ((bs.length + 3) / 4) bs :: s.prc.mgmt } }, accepted)

/-- The signatures of some bytes by AK-R and AK-S. -/
def signatures (bs : List Byte) : List Byte := fixedBytes 384 (Config.signature 0 bs) ++ fixedBytes 7856 (Config.signature 1 bs)

/-- Puts a counter set among others in increasing UID. -/
def insertUsage (u : Usage) : List Usage → List Usage
  | [] => [u]
  | x :: xs => if u.uid ≤ x.uid then u :: x :: xs else x :: insertUsage u xs

/-- The sets of a partition, an epoch and a UID range, in increasing UID. -/
def State.usageSets (s : State) (p : PartId) (epoch lo hi : Nat) : List Usage :=
  ((s.part p).usage.filter fun u => u.epoch.toNat == epoch && decide (lo ≤ u.uid.toNat) && decide (u.uid.toNat ≤ hi)).foldr insertUsage []

/-- An entry of a snapshot. -/
def Usage.bytes (u : Usage) : List Byte := [u.uid.setWidth 64, u.issue, u.mstep, u.hbmb, u.linkb].flatMap fun x => natToBytes x.toNat 8

/-- The record of a snapshot, signed. CUT is the time of the request. -/
def State.snapshot (s : State) (p : PartId) (epoch : Nat) (w : List W32) (us : List Usage) : List Byte :=
  let head : List W32 := [BitVec.ofNat 32 (1 + p.val * 256 + epoch * 65536), BitVec.ofNat 32 us.length, s.now.extractLsb' 0 32, s.now.extractLsb' 32 32,
    wordAt w 6, wordAt w 7, wordAt w 8, wordAt w 9, Config.moduleSerial.extractLsb' 0 32, Config.moduleSerial.extractLsb' 32 32, 0, 0, 0, 0, 0, 0]
  let body := wordsToBytes head ++ us.flatMap Usage.bytes
  body ++ signatures body

/-- USNAP. -/
def State.usnap (s : State) (by' : Sender) (w : List W32) : State × Reply :=
  let p : PartId := match by' with | .kernel p => p | .management => idx 8 (bitsOf (wordAt w 10) 2 0)
  let epoch := match by' with | .kernel _ => bitsOf (s.prcReg (0x818 + p.val)) 15 0 | .management => bitsOf (wordAt w 10) 31 16
  let us := s.usageSets p epoch (wordAt w 4).toNat (wordAt w 5).toNat
  if 1024 < us.length then (s, refused 0x01) else s.putOut by' (dwordAt w 2) (s.snapshot p epoch w us)

/-- USNAP. -/
def execUsnap (by' : Sender) (m : Frame) (s : State) : Host.Outcome State Fault Refusal :=
  .next (s.handle by' m 0x06 true true fun s => some (s.usnap by' (frame16 m.words)))

/-- Header and body of an image that stands as bytes (R447). -/
def signedPart (h : List W32) : Nat := 256 + (dwordAt h 4).toNat

/-- The header and body of an agent image in the firmware store (R459). -/
def State.agentImage (s : State) (p : PartId) (gen : Nat) : List Byte :=
  let base := gen % 2 * 0x800000
  let h := bytesToWords 64 ((List.range 256).map fun i => s.imageByte p (base + i))
  (List.range (min (signedPart h) 0x800000)).map fun i => s.imageByte p (base + i)

/-- The attestation report of a partition, signed. -/
def State.report (s : State) (p : PartId) (w : List W32) : List Byte :=
  let q := s.part p
  let gen := bitsOf q.fwstat 15 0
  let body := natToBytes (1 + p.val * 256 + bitsOf (s.prcReg (0x818 + p.val)) 15 0 * 65536) 8 ++ natToBytes s.now.toNat 8
    ++ wordsToBytes ((w.drop 4).take 4) ++ natToBytes Config.moduleSerial.toNat 8 ++ natToBytes q.featacc.toNat 8 ++ natToBytes (s.pmap p).toNat 8
    ++ List.replicate 8 0 ++ fixedBytes 48 Config.prcFirmwareDigest ++ fixedBytes 48 (sha384 (s.agentImage p gen)) ++ fixedBytes 48 q.bootm
    ++ fixedBytes 48 (wordsToBytes (tabGet [] s.prc.owners q.owner)) ++ allSlices.flatMap (fun i => natToBytes (Config.fuseMap i).toNat 8)
    ++ natToBytes gen 8 ++ List.replicate 56 0
  body ++ signatures body

/-- ATTEST. The frame of the management interface names no partition: a free value does. -/
def execAttest (by' : Sender) (m : Frame) (s : State) : Host.Outcome State Fault Refusal :=
  .next (s.handle by' m 0x0A true true fun s =>
    let w := frame16 m.words
    let p : PartId := match by' with | .kernel p => p | .management => idx 8 (bitsOf s.freeWord 2 0)
    some (s.draw.putOut by' (dwordAt w 2) (s.report p w)))

/-- CERT: a certificate, preceded by its length. -/
def execCert (by' : Sender) (m : Frame) (s : State) : Host.Outcome State Fault Refusal :=
  .next (s.handle by' m 0x0B true true fun s =>
    let w := frame16 m.words
    let c := Config.certificate (bitsOf (wordAt w 4) 1 0)
    some (s.putOut by' (dwordAt w 2) (natToBytes c.length 4 ++ c)))

/-! ### Firmware images (R447, R459, R461) -/

/-- The fields of an image header that are the same for both kinds. -/
def headerOk (h : List W32) (kind : Nat) : Bool :=
  wordAt h 0 == 0x4E594D49 && bitsOf (wordAt h 1) 7 0 == kind && bitsOf (wordAt h 1) 31 8 == 0 && wordAt h 3 == 0
    && (List.range 44).all fun k => wordAt h (20 + k) == 0

/-- Both signatures of an image verify under two public keys. `bs` holds header, body and signatures. -/
def imageVerifies (n : Nat) (bs : List Byte) (keys : List Byte × List Byte) : Bool :=
  Config.verifies 0 (bs.take n) ((bs.drop n).take 384) keys.1 && Config.verifies 1 (bs.take n) ((bs.drop (n + 384)).take 7856) keys.2

/-- Every agent of a partition has its check of the image still to send, or its return still to make. -/
def State.uncheckAll (s : State) (p : PartId) : State := (s.agentsOf p).foldl (fun s c => s.modPuppet c fun a => { a with checked := false }) s

/-- An accepted image: it stands in the store, and every agent is told. -/
def State.offer (s : State) (p : PartId) (bs : List Byte) : State :=
  let old := bitsOf (s.part p).fwstat 15 0
  let tgt := (old + 1) % 65536
  let n := (s.agentsOf p).length
  let s := s.modPart p fun q =>
    { q with images := tabSet q.images tgt (memWrite [] 0 bs), fwSince := s.now,
             fwstat := BitVec.ofNat 64 (old + tgt * 2 ^ 16 + 2 ^ 32 + n * 2 ^ 48) }
  (s.uncheckAll p).fwEventAll p 0x04 tgt

/-- FWOFFER. -/
def State.fwoffer (s : State) (p : PartId) (va : Word) : State × Reply :=
  let e := partEng p
  if bitsOf (s.part p).fwstat 33 32 ≠ 0 then (s, refused 0x03)
  else if s.meet e 1 va 256 != .ok then (s, refused 0x01)
  else
    let h := s.engWords e 1 va 64
    let n := signedPart h
    if !headerOk h 2 || 0x800000 < n + 8240 then (s, refused 0x04)
    else if s.meet e 1 va (n + 8240) != .ok then (s, refused 0x01)
    else
      let bs := s.engBytes e 1 va (n + 8240)
      if imageVerifies n bs Config.firmwareKeys && decide (Config.firmwareMinimum ≤ (wordAt h 2).toNat) then (s.offer p bs, accepted)
      else (s, refused 0x04)

/-- FWOFFER. -/
def execFwoffer (by' : Sender) (m : Frame) (s : State) : Host.Outcome State Fault Refusal :=
  .next (s.kernelMessage by' m 0x08 fun p w s => some (s.fwoffer p (dwordAt w 2)))

/-- A switch fails: the agents go back to OLD. -/
def State.rollBack (s : State) (p : PartId) : State :=
  let n := (s.agentsOf p).length
  (s.modPart p fun q =>
    { q with fwstat := setBits (setBits (setBits q.fwstat 31 16 (bitsOf q.fwstat 15 0)) 33 32 2) 63 48 n }).uncheckAll p

/-- Every agent has passed: the switch ends. -/
def State.endSwitch (s : State) (p : PartId) : State :=
  if (s.agentsOf p).all fun c => (s.core c).puppet.checked then
    s.modPart p fun q =>
      { q with fwstat := setBits (setBits q.fwstat 15 0 (bitsOf q.fwstat 31 16)) 33 32 0,
               images := q.images.filter fun e => e.1 == bitsOf q.fwstat 31 16 }
  else s

/-- A partition's firmware switch is under way. -/
def State.switching (s : State) (p : PartId) : Bool := bitsOf (s.part p).fwstat 33 32 == 1

/-- FWCHK of an agent. -/
def State.fwchk (s : State) (p : PartId) (w : List W32) (c : Option CoreRef) : State × Reply :=
  if !s.switching p || bitsOf (wordAt w 2) 31 16 ≠ s.targetGen p then (s, refused 0x06)
  else if !bitAt (wordAt w 2) 0 then (s.rollBack p, accepted)
  else
    match c with
    | some c => ((s.modPuppet c fun a => { a with checked := true }).endSwitch p, accepted)
    | none => (s, accepted)

/-- The agent that sent the oldest message of a partition. -/
def State.headAgent (s : State) (p : PartId) : Option CoreRef :=
  match (s.part p).inbox with
  | l :: _ => l.agent.map (·.1)
  | [] => none

/-- FWCHK: an agent's check of the image it runs. A frame of the host mailbox names no agent. -/
def execFwchk (by' : Sender) (m : Frame) (c : CoreRef) (s : State) : Host.Outcome State Fault Refusal :=
  .next (s.kernelMessage by' m 0x09 fun p w s =>
    match s.headAgent p with
    | some k => if k = c then some (s.fwchk p w (some c)) else none
    | none => some (s.fwchk p w none))

/-- A FWCHK is missing 100 ms after the offer. -/
def execFwSwitchTimeout (part : PartId) (s : State) : Host.Outcome State Fault Refusal :=
  .next (if s.switching part && s.passed (s.part part).fwSince 100000000 && !((s.agentsOf part).all fun c => (s.core c).puppet.checked)
    then s.rollBack part else s)

/-! ### EPCFG (R455) -/

/-- The ranges of an endpoint's port: BAR0, the BAR2 page, and the outbound window. -/
def State.endpointRanges (s : State) (p : PartId) (i : SliceId) (port : Nat) : State :=
  let b := s.epBars i port
  let q := 11 + port
  let out := (0x10 + i.val) * 2 ^ 40 + port * 2 ^ 39
  let put (s : State) (j lo n : Nat) : State := s.setRange i q j (rangeWord p true true lo) (BitVec.ofNat 64 (lo + n))
  (put (put (put s 0 b.1 (2 ^ b.2.1)) 1 b.2.2 4096) 2 out (2 ^ 39)).setRange i q 3 0 0

/-- EPCFG: a PCIe port becomes an endpoint function. -/
def State.epcfg (s : State) (p : PartId) (w : List W32) : State × Reply :=
  let i : SliceId := idx 8 (bitsOf (wordAt w 2) 2 0)
  let port : Fin 2 := idx 2 (bitsOf (wordAt w 2) 3 3)
  let bar0 := (dwordAt w 3).toNat
  let size := bitsOf (wordAt w 5) 5 0
  let page := (dwordAt w 6).toNat
  let inMember (a : Nat) : Bool := decide (a < 2 ^ 40) && s.member p (idx 8 (a / 2 ^ 37))
  if !bitAt (s.part p).featacc 3 || !s.member p i || bitAt (s.epstat i port.val) 0 || Config.portBifurcated i port then (s, refused 0x01)
  else if size < 20 || 36 < size || bar0 % 2 ^ size ≠ 0 || page % 4096 ≠ 0 || !inMember bar0 || !inMember page then (s, refused 0x01)
  else
    let s := s.modSlice i fun k =>
      { k with ep := tabSet k.ep port.val [BitVec.ofNat 64 bar0, BitVec.ofNat 64 size, BitVec.ofNat 64 page],
               epD3 := tabDel k.epD3 port.val, epMask := tabDel k.epMask port.val, epCfg := tabDel k.epCfg port.val }
    ((s.setEpstat i port.val (putBit (s.epstat i port.val) 0 true)).endpointRanges p i port.val, accepted)

/-- EPCFG. -/
def execEpcfg (by' : Sender) (m : Frame) (s : State) : Host.Outcome State Fault Refusal :=
  .next (s.kernelMessage by' m 0x0D fun p w s => some (s.epcfg p w))

end Sys2Proof.Machine
end

