-- ==== Sys2Proof/Machine/Form.lean ====
section
/-! DEFINITION. Forming a partition: clearing slices, dykes, routes and the start of the agents (R14, R391, R395, R446), and the address-range
table (R381, R383). -/

namespace Sys2Proof.Machine

/-! ### Slices as a set (R13, R14) -/

/-- The slice beyond an edge port (R355). -/
def neighbour (i : SliceId) (port : Nat) : Option SliceId :=
  if port = 8 then (if i.val % 4 = 0 then none else some (i - 1))
  else if port = 9 then (if i.val % 4 = 3 then none else some (i + 1))
  else if port = 10 then some (i + 4)
  else none

/-- Slices reached from some slices of a set in one step. -/
def reachOnce (is seen : List SliceId) : List SliceId :=
  is.filter fun k => seen.contains k || seen.any fun i => [8, 9, 10].any fun q => neighbour i q == some k

/-- A non-empty set of slices is edge-connected. -/
def edgeConnected (is : List SliceId) : Bool :=
  match is with
  | [] => false
  | i :: _ => (List.range 8).foldl (fun seen _ => reachOnce is seen) [i] == is

/-- The slices of a mask. -/
def maskSlices (m : Nat) : List SliceId := allSlices.filter fun i => m.testBit i.val

/-- The mask of some slices. -/
def slicesMask (is : List SliceId) : Nat := (is.map fun i => 2 ^ i.val).sum

/-- The live L2 segments of a slice (R15, R442). -/
def liveCount (i : SliceId) : Nat := ((List.range 64).filter fun k => bitAt (Config.fuseMap i) k).length

/-! ### Dykes (R446, step 3) -/

/-- The maximal runs of consecutive slices of an increasing list: the first, and one past the last. -/
def sliceRuns (is : List SliceId) : List (Nat × Nat) :=
  is.foldr (fun i rs =>
    match rs with
    | (a, b) :: rest => if i.val + 1 = a then (i.val, b) :: rest else (i.val, i.val + 1) :: (a, b) :: rest
    | [] => [(i.val, i.val + 1)]) []

/-- The four ranges that pass the HBM of some slices: the words of each. -/
def hbmRanges (p : PartId) (is : List SliceId) : List (Word × Word) :=
  let rs := (sliceRuns is).map fun r => (rangeWord p true true (r.1 * 2 ^ 37), BitVec.ofNat 64 (r.2 * 2 ^ 37))
  (List.range 4).map fun j => rs.getD j (0, 0)

/-- Writes the four ranges of a port. -/
def State.setRanges (s : State) (i : SliceId) (port : Nat) (rs : List (Word × Word)) : State :=
  rs.zipIdx.foldl (fun s e => s.setRange i port e.2 e.1.1 e.1.2) s

/-- Writes a port's entry, with its stamp; a port that names nothing has none (R355). -/
def State.setDyke (s : State) (i : SliceId) (port v : Nat) : State :=
  if !hasDyke i port then s else s.setSliceReg i (0x780 + port) (BitVec.ofNat 64 (v + s.stampBits 40 * 2 ^ 24))

/-- The ranges of a port that passes a partition: the HBM of its slices, but an endpoint function keeps its own (R450, R458). -/
def State.formRanges (s : State) (p : PartId) (is : List SliceId) (i : SliceId) (port : Nat) : State :=
  if s.endpointPort i port then s else s.setRanges i port (hbmRanges p is)

/-- A port passes a partition in both directions. -/
def State.openPort (s : State) (p : PartId) (is : List SliceId) (i : SliceId) (port : Nat) : State :=
  (s.setDyke i port (2 ^ p.val + 2 ^ (8 + p.val) + 2 ^ 16)).formRanges p is i port

/-- A port passes nothing. -/
def State.closePort (s : State) (i : SliceId) (port : Nat) : State :=
  (s.setRanges i port [(0, 0), (0, 0), (0, 0), (0, 0)]).setDyke i port 0

/-- A port of a member slice passes the partition: every port but an edge to a slice that is no member. -/
def portOpens (is : List SliceId) (i : SliceId) (port : Nat) : Bool :=
  if 8 ≤ port && port ≤ 10 then (match neighbour i port with | some k => is.contains k | none => false) else true

/-- Programs every dyke entry of a partition's slices. -/
def State.formDykes (s : State) (p : PartId) (is : List SliceId) : State :=
  is.foldl (fun s i => (List.range 14).foldl (fun s q => if portOpens is i q then s.openPort p is i q else s.closePort i q) s) s

/-- Programs anew the HBM ranges of every port that passes the partition, for some slices' HBM. -/
def State.reformRanges (s : State) (p : PartId) (is : List SliceId) : State :=
  (s.memberSlices p).foldl (fun s i => (List.range 14).foldl (fun s q =>
    if bitAt (s.sliceReg i (0x780 + q)) 16 then s.formRanges p is i q else s) s) s

/-! ### Routes (R395) -/

/-- The routes of a slice of a partition just formed: source 0x0 alone, to hart 0 of the lowest member slice. -/
def State.formRoutes (s : State) (lowest i : SliceId) : State :=
  (List.range 16).foldl (fun s n =>
    s.setSliceReg i (0x770 + n) (BitVec.ofNat 64 ((if n = 0 then 0x801 + lowest.val * 2 ^ 16 else 0) + s.stampBits 32 * 2 ^ 32))) s

/-- Every route of a slice is disabled. -/
def State.closeRoutes (s : State) (i : SliceId) : State :=
  (List.range 16).foldl (fun s n =>
    s.setSliceReg i (0x770 + n) (setBits (putBit (s.sliceReg i (0x770 + n)) 11 false) 63 32 (s.stampBits 32))) s

/-! ### Clearing (R446, step 1) -/

/-- What a slice keeps when its cores are held in reset and its memories zeroed: its registers, ports, channels and counters of the die. -/
def Slice.cleared (k : Slice) : Slice :=
  { regs := k.regs, ports := k.ports, chans := k.chans, aborts := k.aborts, seep := k.seep, seepSince := k.seepSince, opNext := k.opNext, opSince := k.opSince,
    caps := k.caps,
    art := k.art, ep := k.ep, epD3 := k.epD3, epMask := k.epMask, epCfg := k.epCfg, epMsis := k.epMsis, lockFails := k.lockFails,
    reassign := k.reassign }

/-- The slice that an agent or engine of a core works from. -/
def fetcherSlice (f : Fetcher) : SliceId := (agentCore (fetcherAgent f)).slice

/-- Clears some slices: their cores and host cores are held in reset; their HBM, L2, chip scratchpad, core scratchpads and registers read
zero; what ran there is gone. -/
def State.clearSlices (s : State) (is : List SliceId) : State :=
  let inHbm (a : Nat) : Bool := is.any fun i => i.val == a / 2 ^ 37
  let homed (p : PartId) (off : Nat) : Bool := match s.chipHome p off with | some h => is.contains h.1 | none => false
  let s := allParts.foldl (fun t p => t.modPart p fun q => { q with chip := q.chip.filter fun e => !homed p e.1 }) s
  let s := is.foldl (fun s i => s.modSlice i Slice.cleared) (s.dropAsyncs fun o => is.contains (fetcherSlice o.issuer))
  { s with
    mem := s.mem.filter fun e => !inHbm e.1
    poison := s.poison.filter fun l => !inHbm (l * 64)
    started := s.started.filter fun x => !is.contains x.slice
    kicks := s.kicks.filter fun k => !is.contains k.slice
    nbhs := tabFilter (fun _ n => !is.contains n.slice) s.nbhs }

/-- `SLICE.HBMIL` as the PRC writes it. -/
def State.setInterleave (s : State) (i : SliceId) : State :=
  let c := Config.interleave i
  s.setSliceReg i 0x769 (BitVec.ofNat 64 ((if c.1 then 1 else 0) + 2 * c.2.val))

/-- The injector of a slice stops (R418). -/
def State.stopInjector (s : State) (i : SliceId) : State := s.setSliceReg i 0x42C (putBit (s.sliceReg i 0x42C) 42 false)

/-! ### Agents (R446, step 6) -/

/-- The agents of some slices start a partition's image, and learn which rings did not lock at slice reset (R466). -/
def State.startAgents (s : State) (p : PartId) (is : List SliceId) : State :=
  is.foldl (fun s i =>
    let s := (List.range 144).foldl (fun s c => s.startAgent ⟨i, idx 144 c⟩ p (s.targetGen p) 0) s
    let s := (s.slice i).lockFails.foldl (fun s n => s.phEvent i 1 n false) s
    s.modSlice i fun k => { k with held := false, lockFails := [] }) s

/-! ### Address-range table (R381, R383) -/

/-- The entries of an image: 24 words each. -/
def artEntries (ws : List W32) : List (List W32) := (List.range 64).map fun e => (ws.drop (24 * e)).take 24

/-- An entry passes its check, for a number of segments. -/
def artEntryOk (nseg : Nat) (e : List W32) : Bool :=
  let n := (artSet e).length
  let dv := bitsOf (wordAt e 0) 17 8
  let st := bitsOf (wordAt e 0) 7 1
  bitsOf (wordAt e 0) 31 18 == 0 && wordAt e 1 == 0 && wordAt e 6 == 0 && wordAt e 7 == 0
    && (!bitAt (wordAt e 0) 0 ||
      (decide (1 ≤ st) && decide (st ≤ 64) && decide (1 ≤ dv) && dv == n && (artSet e).all (decide <| · < nseg)
        && (dwordAt e 2).toNat % 64 == 0 && (dwordAt e 4).toNat % 64 == 0 && decide ((dwordAt e 2).toNat < (dwordAt e 4).toNat)))

/-- The last lease granted for a line of some slices, of lines that they hold or have held, has expired (R309, R383). -/
def State.leasesOver (s : State) (is : List SliceId) : Bool :=
  is.all fun i => (s.slice i).leases.all (fun e => decide (e.2 < s.now)) && (s.slice i).horizon.all (fun e => decide (e.2 < s.now))

/-- Every L2 line of a partition's slices is written back and leaves. -/
def State.dropAllLines (s : State) (p : PartId) : State :=
  (s.memberSlices p).foldl (fun s i =>
    ((s.slice i).l2.map fun e => e.1).foldl (fun s pl => s.dropLine i pl) s) s

/-- A table is loaded on a slice. -/
def State.setArt (s : State) (i : SliceId) (es : List (List W32)) (image : Word) : State :=
  let s := s.modSlice i fun k => { k with art := es.zipIdx.map fun e => (e.2, e.1) }
  let g := s.sliceReg i 0x767
  (s.setSliceReg i 0x766 (image &&& 0x00FFFFFFFFFFF000)).setSliceReg i 0x767
    (BitVec.ofNat 64 ((bitsOf g 15 0 + 1) % 65536 + s.stampBits 40 * 2 ^ 24))

/-! ### A partition -/

/-- Everything of a partition that runs or is saved is gone, with its fault domains and what the PRC holds for it but its usage and its
firmware store. -/
def State.dropPartition (s : State) (p : PartId) : State :=
  let s := s.modPart p fun q =>
    { usage := q.usage, images := q.images.filter fun e => e.1 == bitsOf q.fwstat 15 0, owner := q.owner, fuseArgs := q.fuseArgs,
      fwstat := BitVec.ofNat 64 (bitsOf q.fwstat 15 0 * 65537) }
  let s := s.dropAsyncs fun o => o.part == p
  { s with
    halts := s.halts.filter fun h => h.part != p
    saved := s.saved.filter fun a => a.part != p
    grids := tabMap (fun _ (r : Grid) => if r.part == p then { r with ended := true, live := 0 } else r) s.grids }

/-- Forms a partition: steps 1 to 6 of R446 on a list of slices, with the arguments of FUSE. -/
def State.formPartition (s : State) (p : PartId) (is : List SliceId) (w : List W32) : State :=
  let lease := bitsOf (wordAt w 3) 12 0
  let s := s.clearSlices is
  let s := is.foldl (fun s i => (s.setInterleave i).setArt i [] 0) s
  let s := s.formDykes p is
  let s := is.foldl (fun s i => s.formRoutes (is.headD 0) i) s
  let n := (is.map liveCount).sum
  let s := s.changePmap p fun x =>
    BitVec.ofNat 64 (slicesMask is + 2 ^ 8 + bitsOf (wordAt w 2) 8 8 * 2 ^ 9 + (if lease = 0 then 256 else lease) * 2 ^ 12 + n * 2 ^ 25
      + bitsOf x 63 48 * 2 ^ 48)
  let s := s.setPrcReg (0x818 + p.val) (BitVec.ofNat 64 ((bitsOf (s.prcReg (0x818 + p.val)) 15 0 + 1) % 65536))
  s.startAgents p is

end Sys2Proof.Machine
end

