-- ==== Sys2Proof/Machine/Handover.lean ====
section
/-! DEFINITION. ARTLOAD (R381, R383) and the hand-over of a slice from one partition to another (R450 to R452, R483, R484). -/

namespace Sys2Proof.Machine

/-- A boot fetch is under way: FUSE, UNFUSE, MOVE and RESETP wait, one at a time across the module (R445). -/
def State.booting (s : State) : Bool := allParts.any fun p => (s.part p).boot.isSome

/-- MOVING of a partition's entry. -/
def State.moving (s : State) (p : PartId) : Bool := bitAt (s.pmap p) 10

/-- The member slices of a partition but one. -/
def State.without (s : State) (p : PartId) (i : SliceId) : List SliceId := (s.memberSlices p).filter (· != i)
/-- The member slices of a partition and one more. -/
def State.joined (s : State) (p : PartId) (i : SliceId) : List SliceId := allSlices.filter fun k => s.member p k || k == i

/-! ### Steps -/

/-- Changes a partition's hand-over. -/
def State.modMove (s : State) (p : PartId) (f : Move → Move) : State := s.modPart p fun q => { q with move := q.move.map f }

/-- A step has ended: the next one begins, and source 0x9 is raised at the leaving partition's kernel. -/
def State.nextMoveStep (s : State) (p : PartId) : State := (s.modMove p fun m => { m with step := m.step + 1 }).raisePartSource p 0x9

/-- The leaving slice holds no group, no spawn bin with a payload, no mapped slot and no running host core of its partition. -/
def State.drained (s : State) (i : SliceId) : Bool :=
  ((s.coresOf i).all fun c =>
    (s.slotsOf c).all (fun g => (s.group g).st == .free) && (s.core c).wgs.isEmpty && (s.core c).bins.all fun e => !e.2.valid)
    && (s.slice i).slots.all (fun e => e.2.state == 0) && (s.slice i).hostHeld

/-- Step 4: no edge of the partition passes towards the slice, nothing passes its own ports, its routes are disabled, and it is no member. -/
def State.cutSlice (s : State) (p : PartId) (i : SliceId) : State :=
  let s := (List.range 14).foldl (fun s q => s.closePort i q) s
  let s := (s.without p i).foldl (fun s k =>
    (List.range 14).foldl (fun s q => if neighbour k q == some i then s.closePort k q else s) s) s
  let s := (s.closeRoutes i).stopInjector i
  let s := s.modSlice i fun k => { k with cores := tabMap (fun _ c => { c with puppet := { c.puppet with running := false } }) k.cores }
  s.changePmap p fun w => putBit w i.val false

/-- Step 5: the slice is cleared and joins the other partition. -/
def State.joinSlice (s : State) (p q : PartId) (i : SliceId) : State :=
  let art := s.artOf q
  let image := match s.lowestSlice q with | some k => s.sliceReg k 0x766 | none => 0
  let is := s.joined q i
  let s := (s.dropAllLines q).clearSlices [i]
  let s := [0, 1].foldl (fun s n =>
    if bitAt (s.epstat i n) 0 then (s.setSliceReg i (0x4EB + n) (BitVec.ofNat 64 (s.stampBits 32 * 2 ^ 32))).modSlice i fun k => { k with ep := tabDel k.ep n } else s) s
  let s := (s.setInterleave i).setArt i art image
  let s := s.formDykes q is
  let s := s.formRoutes (is.headD i) i
  let s := s.changePmap q fun w =>
    putBit (setBits (setBits w 7 0 (slicesMask is)) 34 25 ((is.map liveCount).sum)) 10 false
  let s := (s.changePmap p fun w => putBit w 10 false).modPart p fun x => { x with move := none }
  let s := (s.startAgents q [i]).modSlice i fun k => { k with hostHeld := false }
  (s.raisePartSource p 0x9).raisePartSource q 0x9

/-- One hand-over goes on by itself: from step 1 when the slice is drained, and through steps 4 and 5. -/
def State.advanceMove (s : State) (p : PartId) : State :=
  match (s.part p).move with
  | none => s
  | some m =>
    if m.step = 1 && m.acked && s.drained m.slice then s.nextMoveStep p
    else if m.step = 4 then (s.cutSlice p m.slice).nextMoveStep p
    else if m.step = 5 && s.leasesOver (s.memberSlices m.toPart) then s.joinSlice p m.toPart m.slice
    else s

/-! ### Abandoning (R450) -/

/-- What every abandon ends with: MOVING is cleared in both entries, and source 0x9 is raised at both kernels. -/
def State.endAbandon (s : State) (p : PartId) (m : Move) (nseg : Option Nat) : State :=
  let s := s.modPart p fun x => { x with move := none, abandonAtArt := false }
  let s := s.changePmap p fun w =>
    let w := putBit w 10 false
    match nseg with | some n => setBits w 34 25 n | none => w
  let s := s.changePmap m.toPart fun w => putBit w 10 false
  let s := s.modSlice m.slice fun k => { k with hostHeld := false }
  (s.raisePartSource p 0x9).raisePartSource m.toPart 0x9

/-- Undoes the steps of a hand-over that stands before step 4. -/
def State.abandonHandover (s : State) (p : PartId) (m : Move) (nseg : Option Nat) : State :=
  let s := if 2 ≤ m.step then s.reformRanges p (s.memberSlices p) else s
  s.endAbandon p m nseg

/-! ### ARTLOAD -/

/-- Whether an image may be loaded now, during a hand-over, and for how many segments: from step 2 on no entry holds a segment of the leaving
slice, and the load of step 3 is numbered without them (R451, R452). -/
def State.artSegments (s : State) (p : PartId) (es : List (List W32)) : Option Nat :=
  let all := (s.liveSegs p).length
  match (s.part p).move with
  | some m =>
    let left := ((s.liveSegs p).filter fun x => x.1 != m.slice).length
    if m.step = 3 then some left
    else if m.step = 2 && es.any fun e => bitAt (wordAt e 0) 0 && (artSet e).any fun k => (((s.liveSegs p).getD k (m.slice, 0)).1 == m.slice)
    then none
    else some all
  | none => some all

/-- The load of step 3 has been made: chip-scratchpad bytes past the new size are discarded and NSEG written; the step ends, or a held abandon
takes effect. -/
def State.afterArtload (s : State) (p : PartId) (n : Nat) : State :=
  match (s.part p).move with
  | some m =>
    if m.step = 3 then
      let s := s.modPart p fun x => { x with chip := x.chip.filter fun e => e.1 < n * 0x80000 }
      let all := (s.liveSegs p).length
      let s := s.changePmap p fun w => setBits w 34 25 n
      if (s.part p).abandonAtArt then s.abandonHandover p m (some all) else s.nextMoveStep p
    else s
  | none => s

/-- ARTLOAD: the check, and the load once every lease of the partition has expired. -/
def State.artload (s : State) (p : PartId) (va : Word) : Option (State × Reply) :=
  let e := partEng p
  if va.toNat % 4096 ≠ 0 || s.meet e 1 va 6144 != .ok then some (s, refused 0x01)
  else
    let es := artEntries (s.engWords e 1 va 1536)
    match s.artSegments p es with
    | none => some (s, refused 0x01)
    | some n =>
      if !es.all (artEntryOk n) then some (s, refused 0x01)
      else if !s.leasesOver (s.memberSlices p) then none
      else
        let s := s.dropAllLines p
        let s := (s.memberSlices p).foldl (fun s i => s.setArt i es va) s
        some (s.afterArtload p n, accepted)

/-- The partition's requests to its L2 segments are held at the crossbar, or released (R383). -/
def State.holdForArt (s : State) (b : Bool) (p : PartId) : State := s.modPart p fun x => { x with artHold := b }

/-- ARTLOAD. -/
def execArtload (by' : Sender) (m : Frame) (s : State) : Host.Outcome State Fault Refusal :=
  .next (s.kernelMessage by' m 0x02 (fun p w s => (s.artload p (dwordAt w 2)).map fun r => (r.1.holdForArt false p, r.2))
    fun p s => s.holdForArt true p)

/-! ### MOVE (R450) -/

/-- The slice and the two partitions of a MOVE frame. -/
def mvSlice (w : List W32) : SliceId := idx 8 (bitsOf (wordAt w 2) 2 0)
/-- From. -/
def mvFrom (w : List W32) : PartId := idx 8 (bitsOf (wordAt w 2) 5 3)
/-- To. -/
def mvTo (w : List W32) : PartId := idx 8 (bitsOf (wordAt w 2) 8 6)
/-- Abandon. -/
def mvAbandon (w : List W32) : Bool := bitAt (wordAt w 2) 9

/-- A MOVE is refused with reason 0x05. -/
def State.moveRefused (s : State) (w : List W32) : Bool :=
  let i := mvSlice w
  let p := mvFrom w
  let q := mvTo w
  !s.member p i || !edgeConnected (s.without p i) || !s.partValid q || p == q || !edgeConnected (s.joined q i) || s.moving p || s.moving q

/-- A MOVE begins: MOVING in both entries, a notice to both kernels, and kind 0x05 to each agent of the slice. -/
def State.startMove (s : State) (w : List W32) : State :=
  let i := mvSlice w
  let p := mvFrom w
  let q := mvTo w
  let s := (s.changePmap p fun x => putBit x 10 true).changePmap q fun x => putBit x 10 true
  let s := s.modPart p fun x => { x with move := some { slice := i, toPart := q }, abandonAtArt := false }
  let s := (s.raisePartSource p 0x0).raisePartSource q 0x0
  (List.range 144).foldl (fun s c => s.fwEvent ⟨i, idx 144 c⟩ 0x05 (bitsOf (wordAt w 0) 31 16)) s

/-- MOVE. -/
def execMove (by' : Sender) (m : Frame) (s : State) : Host.Outcome State Fault Refusal :=
  let w := frame16 m.words
  .next (if mvAbandon w && frOp w = 0x12 then s
    else s.handle by' m 0x12 false true fun s =>
      if s.booting then none
      else if s.moveRefused w then some (s, refused 0x05)
      else some (s.startMove w, accepted))

/-- The abandon of a hand-over: before step 4, for the same slice and partitions. While the ARTLOAD of step 3 is held it waits for it. -/
def State.abandon (s : State) (w : List W32) : State × Reply :=
  let p := mvFrom w
  match (s.part p).move with
  | none => (s, refused 0x06)
  | some m =>
    if m.slice ≠ mvSlice w || m.toPart ≠ mvTo w || 4 ≤ m.step then (s, refused 0x06)
    else if m.step = 3 && (match (s.part p).inbox with | l :: _ => frOp l.words == 0x02 | [] => false) then
      (s.modPart p fun x => { x with abandonAtArt := true }, accepted)
    else (s.abandonHandover p m none, accepted)

/-- MOVE with abandon. -/
def execMoveAbandon (by' : Sender) (m : Frame) (s : State) : Host.Outcome State Fault Refusal :=
  let w := frame16 m.words
  .next (if !mvAbandon w && frOp w = 0x12 then s
    else s.handle by' m 0x12 false true fun s => if s.booting then none else some (s.abandon w))

/-! ### MOVEACK (R451, R484) -/

/-- A controller of the slice holds a parked access. -/
def State.bogUsed (s : State) (i : SliceId) : Bool := (s.slice i).bog.any (fun e => e.2.used) || !(s.slice i).missq.isEmpty

/-- MOVEACK. -/
def State.moveack (s : State) (p : PartId) (n : Nat) : State × Reply :=
  match (s.part p).move with
  | none => (s, refused 0x06)
  | some m =>
    if n ≠ m.step then (s, refused 0x06)
    else if n = 1 then ((s.modMove p fun x => { x with acked := true }).modSlice m.slice fun k => { k with hostHeld := true }, accepted)
    else if n = 2 then
      (if s.bogUsed m.slice then (s, refused 0x03) else ((s.reformRanges p (s.without p m.slice)).nextMoveStep p, accepted))
    else (s, accepted)

/-- MOVEACK. -/
def execMoveack (by' : Sender) (m : Frame) (s : State) : Host.Outcome State Fault Refusal :=
  .next (s.kernelMessage by' m 0x0C fun p w s => some (s.moveack p (bitsOf (wordAt w 2) 2 0)))

end Sys2Proof.Machine
end

