-- ==== Sys2Proof/Machine/Boot.lean ====
section
/-! DEFINITION. FUSE, UNFUSE and RESETP (R446, R449), the boot of a partition from the network (R447, R448), and resets and power (R16, R18,
R397, R462, R466). -/

namespace Sys2Proof.Machine

/-! ### The boot image (R447) -/

/-- The HBM base of a partition's lowest member slice. -/
def State.bootBase (s : State) (p : PartId) : Nat := (((s.lowestSlice p).map (·.val)).getD 0) * 2 ^ 37

/-- Bytes of the two appended public keys. -/
def keyBytes : Nat := Config.publicKeySizes.1 + Config.publicKeySizes.2

/-- The header of the image that has landed. -/
def State.bootHeader (s : State) (p : PartId) : List W32 := bytesToWords 64 (memRead s.mem (s.bootBase p) 256)

/-- The image passes every check of R447. -/
def State.bootChecks (s : State) (p : PartId) : Bool :=
  let h := s.bootHeader p
  let n := signedPart h
  let bs := memRead s.mem (s.bootBase p) (n + 8240 + keyBytes)
  let keys := bs.drop (n + 8240)
  let digest := wordsToBytes ((h.drop 8).take 12)
  headerOk h 1 && digest == wordsToBytes (tabGet [] s.prc.owners (s.part p).owner) && digest == fixedBytes 48 (sha384 keys)
    && imageVerifies n bs (keys.take Config.publicKeySizes.1, keys.drop Config.publicKeySizes.1)

/-- The partition is freed (R449): no port passes, no route is enabled, VALID is clear, and its slices are held in reset. -/
def State.freePartition (s : State) (p : PartId) : State :=
  let is := s.memberSlices p
  let s := is.foldl (fun s i =>
    let s := (List.range 14).foldl (fun s q => s.setDyke i q 0) s
    let s := (s.closeRoutes i).stopInjector i
    s.modSlice i fun k => { k with cores := [], held := true, hostHeld := true }) s
  s.changePmap p fun w => putBit w 8 false

/-- The boot ends: the frame that waits for it is answered with n and the outcome. UNFUSE then frees the partition. -/
def State.endBoot (s : State) (p : PartId) (f : BootFetch) (r : Reply) : State :=
  let s := s.modPart p fun x => { x with boot := none }
  if f.thenFree then (s.freePartition p).answer .management f.frame accepted
  else s.answer .management f.frame { r with values := [(2, BitVec.ofNat 32 p.val)] }

/-- The image is good: BOOTM is recorded, and hart 0 of the lowest member slice's host chiplet is released. -/
def State.releaseHost (s : State) (p : PartId) (f : BootFetch) : State :=
  let h := s.bootHeader p
  let base := s.bootBase p
  let s := s.modPart p fun x =>
    { x with bootm := sha384 (memRead s.mem base (signedPart h)), booted := true,
             hart0 := some (BitVec.ofNat 64 (base + 256) + dwordAt h 6, BitVec.ofNat 64 p.val, BitVec.ofNat 64 base) }
  let s := (s.memberSlices p).foldl (fun s i => s.modSlice i fun k => { k with hostHeld := false }) s
  s.endBoot p f accepted

/-! ### The fetch (R448) -/

/-- The payload of a request for a window. -/
def bootRequest (args : List W32) (f : BootFetch) : List W32 :=
  [BitVec.ofNat 32 (1 + f.tries * 65536), BitVec.ofNat 32 (bitsOf (wordAt args 4) 9 0), wordAt args 5, wordAt args 6,
   Config.moduleSerial.extractLsb' 0 32, Config.moduleSerial.extractLsb' 32 32, BitVec.ofNat 32 f.offset, BitVec.ofNat 32 (f.offset / 2 ^ 32),
   0x100000, 0, 0, 0]

/-- The SRC of a PRC message of a partition: the PRC of its lowest member slice (R391). -/
def prcEndpoint (p : PartId) (i : SliceId) : W16 := BitVec.ofNat 16 (i.val + 5 * 8 + p.val * 2 ^ 13)

/-- Sends the request for the window, in the urgent class. The destination and the tag are not given: free values. -/
def State.sendBootRequest (s : State) (p : PartId) (i : SliceId) (f : BootFetch) : State :=
  let h := makeHeader 7 48 (s.freeWord.extractLsb' 0 16) (prcEndpoint p i) s.draw.freeWord
  let s := s.draw.draw.queuePacket i f.port 0 2 (packetBytes h (wordsToBytes (bootRequest (s.part p).fuseArgs f))) none
  s.modPart p fun x => { x with boot := some { f with since := s.now } }

/-- The fetch has failed on every port. -/
def State.bootFailed (s : State) (p : PartId) (f : BootFetch) : State := s.endBoot p f (refused (if f.sigFail then 0x04 else 0x07))

/-- The fetch stands at another port, from the image's start. -/
def BootFetch.onPort (f : BootFetch) (n : Nat) : BootFetch := { f with port := n, tries := 1, offset := 0, total := 0 }

/-- Asks for the window through the fetch's port, or through the next one that is UP. -/
def State.bootAsk (s : State) (p : PartId) (f : BootFetch) : State :=
  match s.lowestSlice p with
  | none => s.bootFailed p f
  | some i =>
    match (List.range 8).find? fun q => decide (f.port ≤ q) && (s.port i q).st == 2 with
    | none => s.bootFailed p f
    | some q => s.sendBootRequest p i (if q = f.port then f else f.onPort q)

/-- The fetch moves to the next port. -/
def State.bootNextPort (s : State) (p : PartId) (f : BootFetch) : State := s.bootAsk p (f.onPort (f.port + 1))

/-- The window is asked for again, up to 4 tries on a port. -/
def State.bootRetry (s : State) (p : PartId) (f : BootFetch) : State :=
  if f.tries < 4 then s.bootAsk p { f with tries := f.tries + 1 } else s.bootNextPort p f

/-- A window has been written: the next is asked for, or the image is checked. -/
def State.windowWritten (s : State) (p : PartId) (f : BootFetch) (total : Nat) : State :=
  let f := if f.offset = 0 then { f with total := total } else f
  let want := signedPart (s.bootHeader p) + 8240 + keyBytes
  if f.total ≠ want || 2 ^ 36 < f.total then s.bootFailed p f
  else if f.offset + 0x100000 < f.total then s.bootAsk p { f with offset := f.offset + 0x100000, tries := 1 }
  else if s.bootChecks p then s.releaseHost p f
  else s.bootNextPort p { f with sigFail := true }

/-- A completion names the window that was asked for. -/
def completes (args : List W32) (f : BootFetch) (w : List W32) : Bool :=
  let r := bootRequest args f
  bitsOf (wordAt w 0) 7 0 == 2 && bitsOf (wordAt w 0) 31 16 == f.tries && (List.range 7).all fun k => wordAt w (k + 1) == wordAt r (k + 1)

/-- A completion message of the boot server. -/
def execBootFetchCompletion (part : PartId) (words : List W32) (s : State) : Host.Outcome State Fault Refusal :=
  .next (match (s.part part).boot with
    | none => s
    | some f =>
      if !completes (s.part part).fuseArgs f words then s
      else
        match bitsOf (wordAt words 0) 15 8 with
        | 0 => s.windowWritten part f (dwordAt words 10).toNat
        | 3 => s.bootRetry part f
        | _ => s.bootNextPort part f)

/-- No completion within 100 ms. -/
def execBootFetchTimeout (part : PartId) (s : State) : Host.Outcome State Fault Refusal :=
  .next (match (s.part part).boot with
    | none => s
    | some f => if s.passed f.since 100000000 then s.bootRetry part f else s)

/-! ### FUSE, RESETP and UNFUSE -/

/-- Forms a partition and boots it; the frame is answered when the boot ends. -/
def State.fusePartition (s : State) (p : PartId) (is : List SliceId) (args frame : List W32) (thenFree : Bool) : State :=
  let s := s.formPartition p is args
  let s := s.modPart p fun x => { x with owner := bitsOf (wordAt args 2) 11 9, fuseArgs := args }
  s.bootAsk p { frame := frame, thenFree := thenFree }

/-- Why FUSE is refused, or the number that it takes. -/
def State.fuseCheck (s : State) (w : List W32) : Sum Nat PartId :=
  let is := maskSlices (bitsOf (wordAt w 2) 7 0)
  let lease := bitsOf (wordAt w 3) 12 0
  match allParts.find? fun p => !s.partValid p with
  | none => .inl 0x05
  | some p =>
    if is.any (fun i => (s.partOf i).isSome) || !edgeConnected is then .inl 0x05
    else if (lease ≠ 0 && (lease < 16 || 4096 < lease)) || tabGet [] s.prc.owners (bitsOf (wordAt w 2) 11 9) == [] then .inl 0x01
    else .inr p

/-- FUSE. -/
def execFuse (by' : Sender) (m : Frame) (s : State) : Host.Outcome State Fault Refusal :=
  let w := frame16 m.words
  .next (if s.booting then s
    else if frOp w = 0x10 && bitsOf (wordAt w 0) 15 8 = 0 && permitted by' false true then
      match s.fuseCheck w with
      | .inl r => s.answer by' w (refused r)
      | .inr p => s.fusePartition p (maskSlices (bitsOf (wordAt w 2) 7 0)) w w false
    else s.handle by' m 0x10 false true fun _ => none)

/-- The hand-over that a partition takes part in: its leaving partition, and the move. -/
def State.moveOf (s : State) (p : PartId) : Option (PartId × Move) :=
  allParts.findSome? fun r =>
    match (s.part r).move with
    | some m => if r = p || m.toPart = p then some (r, m) else none
    | none => none

/-- A reset of a partition ends its hand-over: before step 4 it is abandoned, and from there on it completes first (R452). -/
def State.endHandover (s : State) (p : PartId) : State :=
  match s.moveOf p with
  | none => s
  | some (r, m) =>
    if m.step < 4 then s.abandonHandover r m none
    else
      let s := if m.step = 4 then (s.cutSlice r m.slice).nextMoveStep r else s
      s.joinSlice r m.toPart m.slice

/-- The endpoint functions of a slice are cleared. -/
def State.clearEndpoints (s : State) (i : SliceId) : State :=
  let s := [0, 1].foldl (fun s n => if bitAt (s.epstat i n) 0 then s.setEpstat i n 0 else s) s
  s.modSlice i fun k => { k with ep := [], epD3 := [], epMask := [], epCfg := [] }

/-- RESETP on a partition: its domains, queue slots, keys and endpoint functions are gone, and it is formed and booted again. -/
def State.resetPart (s : State) (p : PartId) (frame : List W32) (thenFree : Bool) : State :=
  let s := s.endHandover p
  let is := s.memberSlices p
  let args := (s.part p).fuseArgs
  let s := is.foldl State.clearEndpoints s
  (s.dropPartition p).fusePartition p is args frame thenFree

/-- RESETP or UNFUSE. -/
def State.resetMessage (s : State) (by' : Sender) (m : Frame) (op : Nat) (thenFree : Bool) : State :=
  let w := frame16 m.words
  let p : PartId := idx 8 (bitsOf (wordAt w 2) 2 0)
  if s.booting then s
  else if frOp w = op && bitsOf (wordAt w 0) 15 8 = 0 && permitted by' false true then
    (if s.partValid p then s.resetPart p w thenFree else s.answer by' w (refused 0x01))
  else s.handle by' m op false true fun _ => none

/-- UNFUSE. -/
def execUnfuse (by' : Sender) (m : Frame) (s : State) : Host.Outcome State Fault Refusal := .next (s.resetMessage by' m 0x11 true)
/-- RESETP. -/
def execResetp (by' : Sender) (m : Frame) (s : State) : Host.Outcome State Fault Refusal := .next (s.resetMessage by' m 0x13 false)

/-! ### Agents (R462) -/

/-- The PRC restarts an agent stopped by a nested fault; after 8 restarts within 1 s it leaves it stopped, and sends a notice. -/
def execAgentRestart (c : CoreRef) (s : State) : Host.Outcome State Fault Refusal :=
  .next (
    let a := (s.core c).puppet
    if !a.stopped || a.leftStopped then s
    else
      let recent := a.restarts.filter fun t => !s.passed t 1000000000
      match s.partOf c.slice with
      | none => s
      | some p =>
        if 8 ≤ recent.length then (s.modPuppet c fun x => { x with leftStopped := true, restarts := recent }).raisePartSource p 0x0
        else
          (s.startAgent c p (s.agentGen c) (s.coreReg c 0x103)).modPuppet c fun x => { x with restarts := s.now :: recent })

/-! ### Operating points (R18, R19) -/

/-- A change of operating point completes; a request that came meanwhile is then taken. -/
def execOpChangeComplete (slice : SliceId) (s : State) : Host.Outcome State Fault Refusal :=
  .next (
    let w := s.sliceReg slice 0x400
    if !bitAt w 6 then s
    else
      let s := s.setSliceReg slice 0x400 (setBits (putBit (setBits w 2 0 (bitsOf w 5 3)) 6 false) 63 16 (s.stampBits 48))
      match (s.slice slice).opNext with
      | none => s
      | some p => (s.modSlice slice fun k => { k with opNext := none }).requestPoint slice p)

/-- The slices at the highest operating point above OP0 that no change is lowering already. -/
def State.highestSlices (s : State) : List SliceId :=
  let tgt (i : SliceId) : Nat := bitsOf (s.sliceReg i 0x400) 5 3
  let is := allSlices.filter fun i => decide (0 < tgt i)
  let top := is.foldl (fun m i => max m (tgt i)) 0
  is.filter fun i => tgt i == top

/-- The draw has stood above 6.2 kW for 100 µs: a slice of the highest point is lowered by one point, and its cap field is set. Which of several is
a free choice. -/
def execPowerCapLower (s : State) : Host.Outcome State Fault Refusal :=
  .next (
    match s.highestSlices with
    | [] => s
    | i :: is =>
      let k := (i :: is).getD (bitsOf s.freeWord 31 0 % (is.length + 1)) i
      let s := s.draw
      let w := s.sliceReg k 0x400
      let s := s.modSlice k fun x => { x with opNext := none, opSince := s.now, caps := if bitAt w 7 then x.caps else x.caps + 1 }
      s.setSliceReg k 0x400 (putBit (putBit (setBits w 5 3 (bitsOf w 5 3 - 1)) 6 true) 7 true))

/-! ### Resets (R397, R466) -/

/-- A ring that did not lock at slice reset: its channels read the wavelength as failed. -/
def State.ringFailed (s : State) (i : SliceId) (n : Nat) : State :=
  let s := s.setRingLock i n false
  let c := n / 16
  let r := n % 16
  let s := (slicesChannels i).foldl (fun s ch =>
    if (ch < 64 && r < 8) || (ch = 64 + c && 8 ≤ r) then s.failWaves i ch [r % 8] else s) s
  s.modSlice i fun k => { k with lockFails := k.lockFails ++ [n] }

/-- Slice reset: every register and counter of the slice takes its reset value, and its rings lock but those named. What its memory holds
stays; what ran on the slice is gone. -/
def execSliceReset (slice : SliceId) (unlocked : BitVec 96) (s : State) : Host.Outcome State Fault Refusal :=
  .next (
    let mem := s.mem
    let poison := s.poison
    let chips := allParts.map fun p => (s.part p).chip
    let s := { s.clearSlices [slice] with mem := mem, poison := poison }
    let s := allParts.foldl (fun s p => s.modPart p fun q => { q with chip := chips.getD p.val [] }) s
    let s := s.setSlice slice {}
    ((List.range 96).filter fun n => bitAt unlocked n).foldl (fun s n => s.ringFailed slice n) s)

/-- Module power-on reset: the whole module at its reset values, with the time base at zero. The moves to come are the run's own. -/
def execModulePowerOnReset (s : State) : Host.Outcome State Fault Refusal :=
  .next { State.reset with schedule := s.schedule, fresh := s.fresh }

end Sys2Proof.Machine
end

