-- ==== Sys2Proof/Machine/HostSide.lean ====
section
/-! DEFINITION. A load or store of a host core (R274, R313, R443, R453, R454). -/

namespace Sys2Proof.Machine

/-- What a load of a host core returns. -/
def State.hostReads (s : State) (v : Word) : State := { s with outRead := v }

/-- What the status word at offset 0x048 of the host mailbox reads. -/
def Part.mailboxStatus (q : Part) : Word :=
  BitVec.ofNat 64 ((if q.mboxBusy then 1 else 0) + q.mboxStatus.toNat * 256 + bitsOf q.mboxStamp 47 0 * 65536)

/-- An access to the host mailbox of a partition. -/
def State.hostMailbox (s : State) (p : PartId) (off : Nat) (acc : ExtAccess) : State :=
  let q := s.part p
  match acc with
  | .load n =>
    if off + n ≤ 64 then s.hostReads (BitVec.ofNat 64 (bytesToNat (((wordsToBytes (frame16 q.mbox)).drop off).take n)))
    else if off = 0x48 && n = 8 then s.hostReads q.mailboxStatus
    else s.hostReads 0
  | .store n v =>
    if off + n ≤ 64 then
      let bs := wordsToBytes (frame16 q.mbox)
      s.modPart p fun q => { q with mbox := bytesToWords 16 (bs.take off ++ natToBytes v.toNat n ++ bs.drop (off + n)) }
    else if off = 0x40 && n = 8 then ran (execHostMailboxSend p s) s
    else s

/-- The core and the register number that an offset of the aperture of a slice names (R453). -/
def apertureReg (t : SliceId) (off : Nat) : Option (CoreRef × Nat) :=
  let c := (off - 0x100000000) / 0x2000
  let n := (off - 0x100000000) % 0x2000 / 8
  if 0x400 * 8 ≤ off && off < 0x800 * 8 then some (⟨t, 0⟩, off / 8)
  else if 0x100000000 ≤ off && off < 0x200000000 then (if c < 144 && 0x100 ≤ n && n < 0x400 then some (⟨t, idx 144 c⟩, n) else none)
  else if 0x200000000 + 0x800 * 8 ≤ off && off < 0x200000000 + 0xC00 * 8 then some (⟨t, 0⟩, (off - 0x200000000) / 8)
  else none

/-- A register that the puppet slot alone reaches: the spawn timers, bins and grids, and the pre-emption engine (R331, R430). -/
def slotOnly (n : Nat) : Bool := (decide (0x120 ≤ n) && decide (n ≤ 0x15F)) || (decide (0x1A0 ≤ n) && decide (n ≤ 0x1A4))

/-- The offset names a doorbell page: the queue, and the offset in the page. -/
def apertureDoorbell (off : Nat) : Option (QIdx × Nat) :=
  if 0x1000000000 ≤ off && off < 0x1000000000 + 4096 * 4096 then some (idx 4096 ((off - 0x1000000000) / 4096), off % 4096) else none

/-- An access to the aperture of a slice. A register access is an aligned 8-byte access; any other reads 0 and is discarded. -/
def State.hostAperture (s : State) (t : SliceId) (off : Nat) (acc : ExtAccess) : State :=
  match apertureDoorbell off, apertureReg t off, acc with
  | some (q, o), _, .store n v => ran (execDoorbellKick t q o n v s) s
  | none, some (c, n), .load 8 =>
    if off % 8 = 0 && sysNumber n && !slotOnly n then (s.hostReads (s.readSys c n)).clearRead t n else s.hostReads 0
  | none, some (c, n), .store 8 v => if off % 8 = 0 && sysNumber n && !slotOnly n then s.writeSys c n v else s
  | _, _, .load _ => s.hostReads 0
  | _, _, .store _ _ => s

/-- An access to a PCIe window, which the dykes pass. -/
def State.hostPcie (s : State) (t : SliceId) (port : Nat) (acc : ExtAccess) : State :=
  match acc with
  | .load n =>
    if s.epDown t port then (s.epAbort t port).hostReads (BitVec.ofNat 64 (2 ^ (8 * n) - 1))
    else s.draw.hostReads (BitVec.ofNat 64 ((Config.externalRead s.fresh).toNat % 2 ^ (8 * n)))
  | .store _ _ => if s.epDown t port then s.epAbort t port else s

/-- Whether a host core's access passes the dykes (R391, R392, R454): in at port 13 of its slice, and across the edges to another slice. Its
partition's mailbox and apertures it reaches by its membership. -/
def State.hostPasses (s : State) (i : SliceId) (p : PartId) (pa : Nat) (load : Bool) : Bool :=
  match targetOf pa with
  | .hbm t => s.dykePort i 13 p true pa load (!load) && s.dykeCross p t pa load (!load)
  | .pcie t port =>
    s.dykePort i 13 p true pa load (!load) && s.dykeCross p t pa load (!load) && s.dykePort t (11 + port) p false pa load (!load)
  | .mailbox => true
  | .aperture t _ => s.member p t
  | .nothing => false

/-- An access of a host core of a partition, which the dykes have passed. A store to HBM waits while a lease on its lines lasts. -/
def State.hostPerform (s : State) (p : PartId) (pa : Nat) (acc : ExtAccess) : State :=
  match targetOf pa with
  | .hbm _ =>
    (match acc with
     | .load n => s.outsideLoad pa n
     | .store n v => if s.outsideReady pa n then s.outsideStore pa (natToBytes v.toNat n) else s)
  | .pcie t port => s.hostPcie t port acc
  | .mailbox => s.hostMailbox p (pa % 2 ^ 40) acc
  | .aperture t off => s.hostAperture t off acc
  | .nothing => s

/-- A load or store of 1 to 8 bytes of a host core that runs. -/
def execHostAccess (slice : SliceId) (hart : Fin 16) (pa : BitVec 48) (acc : ExtAccess) (s : State) : Host.Outcome State Fault Refusal :=
  let _ := hart
  .next (match s.partOf slice with
    | none => s
    | some p =>
      let load := match acc with | .load _ => true | .store _ _ => false
      let n := match acc with | .load n => n | .store n _ => n
      if (s.slice slice).hostHeld || n = 0 || 8 < n || 2 ^ 48 < pa.toNat + n || !s.hostPasses slice p pa.toNat load || !s.hostPasses slice p (pa.toNat + n - 1) load then s
      else s.hostPerform p pa.toNat acc)

end Sys2Proof.Machine
end

