-- ==== Sys2Proof/Machine/Dispatch.lean ====
section
/-! DEFINITION. The dispatch: one arm per operation or event of the table. -/

namespace Sys2Proof.Machine

/-- Executes one instruction, or lets one event happen. -/
def exec (i : Instr) (s : State) : Host.Outcome State Fault Refusal :=
  match i with
  | .add d a b => Sys2Proof.Machine.execAdd d a b s
  | .sub d a b => Sys2Proof.Machine.execSub d a b s
  | .and d a b => Sys2Proof.Machine.execAnd d a b s
  | .or d a b => Sys2Proof.Machine.execOr d a b s
  | .xor d a b => Sys2Proof.Machine.execXor d a b s
  | .shl d a b => Sys2Proof.Machine.execShl d a b s
  | .shr d a b => Sys2Proof.Machine.execShr d a b s
  | .sra d a b => Sys2Proof.Machine.execSra d a b s
  | .mul d a b => Sys2Proof.Machine.execMul d a b s
  | .mulh d a b => Sys2Proof.Machine.execMulh d a b s
  | .mulhn d a b => Sys2Proof.Machine.execMulhn d a b s
  | .div d a b => Sys2Proof.Machine.execDiv d a b s
  | .divn d a b => Sys2Proof.Machine.execDivn d a b s
  | .rem d a b => Sys2Proof.Machine.execRem d a b s
  | .remn d a b => Sys2Proof.Machine.execRemn d a b s
  | .min d a b => Sys2Proof.Machine.execMin d a b s
  | .max d a b => Sys2Proof.Machine.execMax d a b s
  | .minn d a b => Sys2Proof.Machine.execMinn d a b s
  | .maxn d a b => Sys2Proof.Machine.execMaxn d a b s
  | .slt d a b => Sys2Proof.Machine.execSlt d a b s
  | .sltn d a b => Sys2Proof.Machine.execSltn d a b s
  | .seq d a b => Sys2Proof.Machine.execSeq d a b s
  | .clz d a => Sys2Proof.Machine.execClz d a s
  | .ctz d a => Sys2Proof.Machine.execCtz d a s
  | .popc d a => Sys2Proof.Machine.execPopc d a s
  | .sel d a b => Sys2Proof.Machine.execSel d a b s
  | .addi d a imm => Sys2Proof.Machine.execAddi d a imm s
  | .andi d a imm => Sys2Proof.Machine.execAndi d a imm s
  | .ori d a imm => Sys2Proof.Machine.execOri d a imm s
  | .xori d a imm => Sys2Proof.Machine.execXori d a imm s
  | .shli d a sh => Sys2Proof.Machine.execShli d a sh s
  | .shri d a sh => Sys2Proof.Machine.execShri d a sh s
  | .srai d a sh => Sys2Proof.Machine.execSrai d a sh s
  | .slti d a imm => Sys2Proof.Machine.execSlti d a imm s
  | .ldi d imm => Sys2Proof.Machine.execLdi d imm s
  | .ldu d imm => Sys2Proof.Machine.execLdu d imm s
  | .adda d a b k => Sys2Proof.Machine.execAdda d a b k s
  | .beq a b off => Sys2Proof.Machine.execBeq a b off s
  | .bne a b off => Sys2Proof.Machine.execBne a b off s
  | .blt a b off => Sys2Proof.Machine.execBlt a b off s
  | .bge a b off => Sys2Proof.Machine.execBge a b off s
  | .bltn a b off => Sys2Proof.Machine.execBltn a b off s
  | .bgen a b off => Sys2Proof.Machine.execBgen a b off s
  | .br off => Sys2Proof.Machine.execBr off s
  | .call off => Sys2Proof.Machine.execCall off s
  | .jr a => Sys2Proof.Machine.execJr a s
  | .callr a => Sys2Proof.Machine.execCallr a s
  | .ret => Sys2Proof.Machine.execRet s
  | .lds d a wid off => Sys2Proof.Machine.execLds d a wid off s
  | .sts d a wid off => Sys2Proof.Machine.execSts d a wid off s
  | .amos d a b op order scope => Sys2Proof.Machine.execAmos d a b op order scope s
  | .fence order scope => Sys2Proof.Machine.execFence order scope s
  | .mwatch d a => Sys2Proof.Machine.execMwatch d a s
  | .mwaitv d a b => Sys2Proof.Machine.execMwaitv d a b s
  | .lrun a imm => Sys2Proof.Machine.execLrun a imm s
  | .lput n a => Sys2Proof.Machine.execLput n a s
  | .lputW n a => Sys2Proof.Machine.execLputW n a s
  | .lget d n b => Sys2Proof.Machine.execLget d n b s
  | .lgetW d n b => Sys2Proof.Machine.execLgetW d n b s
  | .lsync => Sys2Proof.Machine.execLsync s
  | .tcopy d a b scope n => Sys2Proof.Machine.execTcopy d a b scope n s
  | .mloop c a b bsrc asrc k n => Sys2Proof.Machine.execMloop c a b bsrc asrc k n s
  | .mvec c a b v k n => Sys2Proof.Machine.execMvec c a b v k n s
  | .mzero g => Sys2Proof.Machine.execMzero g s
  | .mzeroRel kind g => Sys2Proof.Machine.execMzeroRel kind g s
  | .mload m kind n => Sys2Proof.Machine.execMload m kind n s
  | .mdrain m o k n => Sys2Proof.Machine.execMdrain m o k n s
  | .mcvt d acc src o k => Sys2Proof.Machine.execMcvt d acc src o k s
  | .mstat d kind g => Sys2Proof.Machine.execMstat d kind g s
  | .mstatClr d g => Sys2Proof.Machine.execMstatClr d g s
  | .mfence d => Sys2Proof.Machine.execMfence d s
  | .mwaitImm n => Sys2Proof.Machine.execMwaitImm n s
  | .mwaitReg a => Sys2Proof.Machine.execMwaitReg a s
  | .mready a => Sys2Proof.Machine.execMready a s
  | .bar a id => Sys2Proof.Machine.execBar a id s
  | .barNb a id => Sys2Proof.Machine.execBarNb a id s
  | .trigger => Sys2Proof.Machine.execTrigger s
  | .exit => Sys2Proof.Machine.execExit s
  | .yield => Sys2Proof.Machine.execYield s
  | .qcfg d a => Sys2Proof.Machine.execQcfg d a s
  | .qmap d a => Sys2Proof.Machine.execQmap d a s
  | .qlen d q => Sys2Proof.Machine.execQlen d q s
  | .qpeek d q => Sys2Proof.Machine.execQpeek d q s
  | .qpeekPop d q => Sys2Proof.Machine.execQpeekPop d q s
  | .qpeekPush a q => Sys2Proof.Machine.execQpeekPush a q s
  | .qflush d q => Sys2Proof.Machine.execQflush d q s
  | .vgrow d a => Sys2Proof.Machine.execVgrow d a s
  | .vgrowW d a => Sys2Proof.Machine.execVgrowW d a s
  | .vshrink d a => Sys2Proof.Machine.execVshrink d a s
  | .pref a kind off => Sys2Proof.Machine.execPref a kind off s
  | .sysrd d num => Sys2Proof.Machine.execSysrd d num s
  | .syswr a num => Sys2Proof.Machine.execSyswr a num s
  | .trap code => Sys2Proof.Machine.execTrap code s
  | .brk code => Sys2Proof.Machine.execBrk code s
  | .sigrst => Sys2Proof.Machine.execSigrst s
  | .xpair d a b => Sys2Proof.Machine.execXpair d a b s
  | .tstore d a b scope => Sys2Proof.Machine.execTstore d a b scope s
  | .storq d a scope => Sys2Proof.Machine.execStorq d a scope s
  | .tkclaimCount d a b => Sys2Proof.Machine.execTkclaimCount d a b s
  | .tkclaimAcq d a b => Sys2Proof.Machine.execTkclaimAcq d a b s
  | .tkclaimRel d a b => Sys2Proof.Machine.execTkclaimRel d a b s
  | .gplace d a b => Sys2Proof.Machine.execGplace d a b s
  | .gplaceRel d a b => Sys2Proof.Machine.execGplaceRel d a b s
  | .qslotMap d a b => Sys2Proof.Machine.execQslotMap d a b s
  | .qslotUnmap d a b => Sys2Proof.Machine.execQslotUnmap d a b s
  | .qslotStat d a b => Sys2Proof.Machine.execQslotStat d a b s
  | .rcbld d a => Sys2Proof.Machine.execRcbld d a s
  | .rcbldBw d a => Sys2Proof.Machine.execRcbldBw d a s
  | .evwait d => Sys2Proof.Machine.execEvwait d s
  | .evwaitPoll d => Sys2Proof.Machine.execEvwaitPoll d s
  | .iret => Sys2Proof.Machine.execIret s
  | .opreq d a => Sys2Proof.Machine.execOpreq d a s
  | .prcmsg d a => Sys2Proof.Machine.execPrcmsg d a s
  | .unassignedInstruction w => Sys2Proof.Machine.execUnassignedInstruction w s
  | .iadd w => Sys2Proof.Machine.execIadd w s
  | .isub w => Sys2Proof.Machine.execIsub w s
  | .imul w => Sys2Proof.Machine.execImul w s
  | .imad w => Sys2Proof.Machine.execImad w s
  | .imulh w => Sys2Proof.Machine.execImulh w s
  | .iabs w => Sys2Proof.Machine.execIabs w s
  | .ineg w => Sys2Proof.Machine.execIneg w s
  | .imin w => Sys2Proof.Machine.execImin w s
  | .imax w => Sys2Proof.Machine.execImax w s
  | .iand w => Sys2Proof.Machine.execIand w s
  | .ior w => Sys2Proof.Machine.execIor w s
  | .ixor w => Sys2Proof.Machine.execIxor w s
  | .inot w => Sys2Proof.Machine.execInot w s
  | .ishl w => Sys2Proof.Machine.execIshl w s
  | .ishr w => Sys2Proof.Machine.execIshr w s
  | .isra w => Sys2Proof.Machine.execIsra w s
  | .ibfe w => Sys2Proof.Machine.execIbfe w s
  | .ibfi w => Sys2Proof.Machine.execIbfi w s
  | .ipopc w => Sys2Proof.Machine.execIpopc w s
  | .iclz w => Sys2Proof.Machine.execIclz w s
  | .isel w => Sys2Proof.Machine.execIsel w s
  | .imov w => Sys2Proof.Machine.execImov w s
  | .icmp cc w => Sys2Proof.Machine.execIcmp cc w s
  | .fadd w => Sys2Proof.Machine.execFadd w s
  | .fsub w => Sys2Proof.Machine.execFsub w s
  | .fmul w => Sys2Proof.Machine.execFmul w s
  | .ffma w => Sys2Proof.Machine.execFfma w s
  | .fmin w => Sys2Proof.Machine.execFmin w s
  | .fmax w => Sys2Proof.Machine.execFmax w s
  | .fabs w => Sys2Proof.Machine.execFabs w s
  | .fneg w => Sys2Proof.Machine.execFneg w s
  | .fsel w => Sys2Proof.Machine.execFsel w s
  | .fclass w => Sys2Proof.Machine.execFclass w s
  | .fcmp cc w => Sys2Proof.Machine.execFcmp cc w s
  | .cvt w => Sys2Proof.Machine.execCvt w s
  | .rqnt w => Sys2Proof.Machine.execRqnt w s
  | .fseed fn w => Sys2Proof.Machine.execFseed fn w s
  | .frange w => Sys2Proof.Machine.execFrange w s
  | .fscale w => Sys2Proof.Machine.execFscale w s
  | .fexpo w => Sys2Proof.Machine.execFexpo w s
  | .fmant w => Sys2Proof.Machine.execFmant w s
  | .lperm w => Sys2Proof.Machine.execLperm w s
  | .lrot w => Sys2Proof.Machine.execLrot w s
  | .lbcast w => Sys2Proof.Machine.execLbcast w s
  | .lred op w => Sys2Proof.Machine.execLred op w s
  | .lscan op w => Sys2Proof.Machine.execLscan op w s
  | .xswap w => Sys2Proof.Machine.execXswap w s
  | .ld lvl w => Sys2Proof.Machine.execLd lvl w s
  | .st lvl w => Sys2Proof.Machine.execSt lvl w s
  | .ldg lvl w => Sys2Proof.Machine.execLdg lvl w s
  | .stsc lvl w => Sys2Proof.Machine.execStsc lvl w s
  | .amo op order w => Sys2Proof.Machine.execAmo op order w s
  | .lwatch w => Sys2Proof.Machine.execLwatch w s
  | .lwatchW w => Sys2Proof.Machine.execLwatchW w s
  | .lbr w => Sys2Proof.Machine.execLbr w s
  | .lbrc w => Sys2Proof.Machine.execLbrc w s
  | .ljoin w => Sys2Proof.Machine.execLjoin w s
  | .lend w => Sys2Proof.Machine.execLend w s
  | .spawn w => Sys2Proof.Machine.execSpawn w s
  | .lvote k w => Sys2Proof.Machine.execLvote k w s
  | .lsig w => Sys2Proof.Machine.execLsig w s
  | .laneBlockStart g => Sys2Proof.Machine.execLaneBlockStart g s
  | .lputEntryTaken g => Sys2Proof.Machine.execLputEntryTaken g s
  | .lgetEntryTaken g => Sys2Proof.Machine.execLgetEntryTaken g s
  | .sigrstEntryTaken g => Sys2Proof.Machine.execSigrstEntryTaken g s
  | .splitStarvationDemote g => Sys2Proof.Machine.execSplitStarvationDemote g s
  | .joinTimeout g rec => Sys2Proof.Machine.execJoinTimeout g rec s
  | .groupAdmit c => Sys2Proof.Machine.execGroupAdmit c s
  | .admissionAgeing g => Sys2Proof.Machine.execAdmissionAgeing g s
  | .remoteLoadBlock g => Sys2Proof.Machine.execRemoteLoadBlock g s
  | .leaveActiveSet g => Sys2Proof.Machine.execLeaveActiveSet g s
  | .groupWake g => Sys2Proof.Machine.execGroupWake g s
  | .remoteLoadReply f k => Sys2Proof.Machine.execRemoteLoadReply f k s
  | .fetchMiss f => Sys2Proof.Machine.execFetchMiss f s
  | .fetchFill f => Sys2Proof.Machine.execFetchFill f s
  | .exitComplete g => Sys2Proof.Machine.execExitComplete g s
  | .spawnTimerExpiry c bin => Sys2Proof.Machine.execSpawnTimerExpiry c bin s
  | .spawnLaunch c bin => Sys2Proof.Machine.execSpawnLaunch c bin s
  | .workgroupPlace c grid => Sys2Proof.Machine.execWorkgroupPlace c grid s
  | .nbhCoreStartOnRoom c => Sys2Proof.Machine.execNbhCoreStartOnRoom c s
  | .vgrowGrant g => Sys2Proof.Machine.execVgrowGrant g s
  | .vgrowTimeout g => Sys2Proof.Machine.execVgrowTimeout g s
  | .mloopStep c => Sys2Proof.Machine.execMloopStep c s
  | .mvecStep c => Sys2Proof.Machine.execMvecStep c s
  | .mzeroComplete c => Sys2Proof.Machine.execMzeroComplete c s
  | .mloadComplete c => Sys2Proof.Machine.execMloadComplete c s
  | .mdrainComplete c => Sys2Proof.Machine.execMdrainComplete c s
  | .mcvtComplete c => Sys2Proof.Machine.execMcvtComplete c s
  | .tcopyComplete op => Sys2Proof.Machine.execTcopyComplete op s
  | .tstoreComplete op => Sys2Proof.Machine.execTstoreComplete op s
  | .storageChainStart op => Sys2Proof.Machine.execStorageChainStart op s
  | .storageChainComplete op => Sys2Proof.Machine.execStorageChainComplete op s
  | .xpairTimeout slice id => Sys2Proof.Machine.execXpairTimeout slice id s
  | .xswapArrival g split => Sys2Proof.Machine.execXswapArrival g split s
  | .monitorWake g => Sys2Proof.Machine.execMonitorWake g s
  | .watchReread g => Sys2Proof.Machine.execWatchReread g s
  | .mwaitvDeadline f => Sys2Proof.Machine.execMwaitvDeadline f s
  | .lwatchDeadline g split => Sys2Proof.Machine.execLwatchDeadline g split s
  | .bogRetry slice ctl entry => Sys2Proof.Machine.execBogRetry slice ctl entry s
  | .bogFatal slice ctl entry => Sys2Proof.Machine.execBogFatal slice ctl entry s
  | .bogRetryPage slice ctl entry => Sys2Proof.Machine.execBogRetryPage slice ctl entry s
  | .memorySideFault f code addr detail => Sys2Proof.Machine.execMemorySideFault f code addr detail s
  | .l1LeaseExpiry c line => Sys2Proof.Machine.execL1LeaseExpiry c line s
  | .hostAccess slice hart pa acc => Sys2Proof.Machine.execHostAccess slice hart pa acc s
  | .wcinvWrite slice value => Sys2Proof.Machine.execWcinvWrite slice value s
  | .l2flushWrite slice value => Sys2Proof.Machine.execL2flushWrite slice value s
  | .mrbaseWrite slice value => Sys2Proof.Machine.execMrbaseWrite slice value s
  | .mrrdWrite slice value => Sys2Proof.Machine.execMrrdWrite slice value s
  | .doorbellKick slice q offset size value => Sys2Proof.Machine.execDoorbellKick slice q offset size value s
  | .queueMapDecision slice => Sys2Proof.Machine.execQueueMapDecision slice s
  | .launch slice slot => Sys2Proof.Machine.execLaunch slice slot s
  | .signal slice slot => Sys2Proof.Machine.execSignal slice slot s
  | .wait slice slot => Sys2Proof.Machine.execWait slice slot s
  | .barrierAnd slice slot => Sys2Proof.Machine.execBarrierAnd slice slot s
  | .storage slice slot => Sys2Proof.Machine.execStorage slice slot s
  | .marker slice slot => Sys2Proof.Machine.execMarker slice slot s
  | .nop slice slot => Sys2Proof.Machine.execNop slice slot s
  | .waitSatisfied slice slot => Sys2Proof.Machine.execWaitSatisfied slice slot s
  | .launchHoldEnd slice slot => Sys2Proof.Machine.execLaunchHoldEnd slice slot s
  | .queueStoppedUnmap slice slot => Sys2Proof.Machine.execQueueStoppedUnmap slice slot s
  | .queueWatchdogExpiry slice q pidx => Sys2Proof.Machine.execQueueWatchdogExpiry slice q pidx s
  | .launchExpiryReset slice q pidx => Sys2Proof.Machine.execLaunchExpiryReset slice q pidx s
  | .storageExpiryCancel slice q pidx => Sys2Proof.Machine.execStorageExpiryCancel slice q pidx s
  | .opChangeComplete slice => Sys2Proof.Machine.execOpChangeComplete slice s
  | .powerCapLower => Sys2Proof.Machine.execPowerCapLower s
  | .agentRestart c => Sys2Proof.Machine.execAgentRestart c s
  | .dataFlitReceive slice port f => Sys2Proof.Machine.execDataFlitReceive slice port f s
  | .abortRecord slice words => Sys2Proof.Machine.execAbortRecord slice words s
  | .ack slice port f => Sys2Proof.Machine.execAck slice port f s
  | .nak slice port f => Sys2Proof.Machine.execNak slice port f s
  | .pause slice port f => Sys2Proof.Machine.execPause slice port f s
  | .resume slice port f => Sys2Proof.Machine.execResume slice port f s
  | .train slice port f => Sys2Proof.Machine.execTrain slice port f s
  | .pauseRepeat slice port cls => Sys2Proof.Machine.execPauseRepeat slice port cls s
  | .linkLockObtained slice port => Sys2Proof.Machine.execLinkLockObtained slice port s
  | .linkLockLost slice port => Sys2Proof.Machine.execLinkLockLost slice port s
  | .linkTrainTimeout slice port => Sys2Proof.Machine.execLinkTrainTimeout slice port s
  | .lnkcfgWrite slice port value => Sys2Proof.Machine.execLnkcfgWrite slice port value s
  | .marblePass slice chan => Sys2Proof.Machine.execMarblePass slice chan s
  | .channelIdlePark slice chan => Sys2Proof.Machine.execChannelIdlePark slice chan s
  | .parknow slice chan => Sys2Proof.Machine.execParknow slice chan s
  | .chcfgWrite slice chan value => Sys2Proof.Machine.execChcfgWrite slice chan value s
  | .channelWake slice chan => Sys2Proof.Machine.execChannelWake slice chan s
  | .wavelengthLocked slice chan lam => Sys2Proof.Machine.execWavelengthLocked slice chan lam s
  | .channelWakeTimeout slice chan => Sys2Proof.Machine.execChannelWakeTimeout slice chan s
  | .phmapApply slice cluster value => Sys2Proof.Machine.execPhmapApply slice cluster value s
  | .reassignEnd slice cluster locked => Sys2Proof.Machine.execReassignEnd slice cluster locked s
  | .ringLockLost slice ring mon => Sys2Proof.Machine.execRingLockLost slice ring mon s
  | .hbmCreditRefill slice ctl => Sys2Proof.Machine.execHbmCreditRefill slice ctl s
  | .seepLeak slice kind => Sys2Proof.Machine.execSeepLeak slice kind s
  | .seepcfgWrite slice kind value => Sys2Proof.Machine.execSeepcfgWrite slice kind value s
  | .fijctlWrite slice value => Sys2Proof.Machine.execFijctlWrite slice value s
  | .pmcWrite c n value => Sys2Proof.Machine.execPmcWrite c n value s
  | .registerReadClear c num => Sys2Proof.Machine.execRegisterReadClear c num s
  | .registerWrite c num value => Sys2Proof.Machine.execRegisterWrite c num value s
  | .haltStopRecords part dom => Sys2Proof.Machine.execHaltStopRecords part dom s
  | .fdHalt slice cmd => Sys2Proof.Machine.execFdHalt slice cmd s
  | .fdReset slice cmd => Sys2Proof.Machine.execFdReset slice cmd s
  | .fdAttach slice cmd => Sys2Proof.Machine.execFdAttach slice cmd s
  | .fdDetach slice cmd => Sys2Proof.Machine.execFdDetach slice cmd s
  | .fdStop slice cmd => Sys2Proof.Machine.execFdStop slice cmd s
  | .fdResume slice cmd => Sys2Proof.Machine.execFdResume slice cmd s
  | .fdSstep slice cmd => Sys2Proof.Machine.execFdSstep slice cmd s
  | .fdLstep slice cmd => Sys2Proof.Machine.execFdLstep slice cmd s
  | .fdDump slice cmd => Sys2Proof.Machine.execFdDump slice cmd s
  | .fdLoad slice cmd => Sys2Proof.Machine.execFdLoad slice cmd s
  | .stepEnd g => Sys2Proof.Machine.execStepEnd g s
  | .preemptBlocking c cmd => Sys2Proof.Machine.execPreemptBlocking c cmd s
  | .preemptForced c cmd => Sys2Proof.Machine.execPreemptForced c cmd s
  | .preemptCancel c => Sys2Proof.Machine.execPreemptCancel c s
  | .preemptGraceExpiry c => Sys2Proof.Machine.execPreemptGraceExpiry c s
  | .preemptSave c => Sys2Proof.Machine.execPreemptSave c s
  | .restcmd c cmd => Sys2Proof.Machine.execRestcmd c cmd s
  | .hostMailboxSend part => Sys2Proof.Machine.execHostMailboxSend part s
  | .feat by' m => Sys2Proof.Machine.execFeat by' m s
  | .artload by' m => Sys2Proof.Machine.execArtload by' m s
  | .dyke by' m => Sys2Proof.Machine.execDyke by' m s
  | .route by' m => Sys2Proof.Machine.execRoute by' m s
  | .lease by' m => Sys2Proof.Machine.execLease by' m s
  | .usnap by' m => Sys2Proof.Machine.execUsnap by' m s
  | .keyload by' m => Sys2Proof.Machine.execKeyload by' m s
  | .fwoffer by' m => Sys2Proof.Machine.execFwoffer by' m s
  | .fwchk by' m c => Sys2Proof.Machine.execFwchk by' m c s
  | .fwSwitchTimeout part => Sys2Proof.Machine.execFwSwitchTimeout part s
  | .attest by' m => Sys2Proof.Machine.execAttest by' m s
  | .cert by' m => Sys2Proof.Machine.execCert by' m s
  | .moveack by' m => Sys2Proof.Machine.execMoveack by' m s
  | .epcfg by' m => Sys2Proof.Machine.execEpcfg by' m s
  | .fuse by' m => Sys2Proof.Machine.execFuse by' m s
  | .bootFetchCompletion part words => Sys2Proof.Machine.execBootFetchCompletion part words s
  | .bootFetchTimeout part => Sys2Proof.Machine.execBootFetchTimeout part s
  | .unfuse by' m => Sys2Proof.Machine.execUnfuse by' m s
  | .move by' m => Sys2Proof.Machine.execMove by' m s
  | .moveAbandon by' m => Sys2Proof.Machine.execMoveAbandon by' m s
  | .resetp by' m => Sys2Proof.Machine.execResetp by' m s
  | .ownerkey by' m => Sys2Proof.Machine.execOwnerkey by' m s
  | .epDoorbell slice port value => Sys2Proof.Machine.execEpDoorbell slice port value s
  | .epmsiWrite slice port value => Sys2Proof.Machine.execEpmsiWrite slice port value s
  | .epHotReset slice port => Sys2Proof.Machine.execEpHotReset slice port s
  | .sliceReset slice unlocked => Sys2Proof.Machine.execSliceReset slice unlocked s
  | .modulePowerOnReset => Sys2Proof.Machine.execModulePowerOnReset s
  | .storePerformedAtHome f k => Sys2Proof.Machine.execStorePerformedAtHome f k s
  | .writeCompleteAtScope f => Sys2Proof.Machine.execWriteCompleteAtScope f s
  | .flitSend slice port => Sys2Proof.Machine.execFlitSend slice port s
  | .controlFlitUnknownCtype slice port f => Sys2Proof.Machine.execControlFlitUnknownCtype slice port f s
  | .receiveBufferDrain slice port cls n => Sys2Proof.Machine.execReceiveBufferDrain slice port cls n s
  | .epLinkUp slice port => Sys2Proof.Machine.execEpLinkUp slice port s
  | .epInboundRequest slice port bar2 off acc => Sys2Proof.Machine.execEpInboundRequest slice port bar2 off acc s
  | .epConfigWrite slice port off value => Sys2Proof.Machine.execEpConfigWrite slice port off value s

end Sys2Proof.Machine
end

