-- ==== Sys2Proof/Machine/Settle.lean ====
section
/-! DEFINITION. What the units of the module that act of themselves do after every turn: the doorbell units and handler rings (R337, R351),
resets that wait for stop records (R428), spawn bins (R51, R332), waiting `vgrow.w` requests (R159), tokens of posts (R223), pre-emption requests
with nothing left to save, restores that wait (R430, R435), hand-overs (R451), and endpoint messages (R457). -/

namespace Sys2Proof.Machine

/-- The bins of a core that are full, or wait for room, launch as far as there is room, lowest first; a waiting one has the first claim on what
has been freed (R51, R332). -/
def State.launchBins (s : State) (c : CoreRef) : State :=
  (List.range 16).foldl (fun s n => ran (execSpawnLaunch c (idx 16 n) s) s) s

/-- Registers that have entered the pool go to the waiting `vgrow.w` requests, in the order of request (R159). -/
def State.grantAll (s : State) (c : CoreRef) : State :=
  let waiting := (s.slotsOf c).filter fun g => (s.group g).want != 0
  waiting.foldl (fun s _ => waiting.foldl (fun s g => ran (execVgrowGrant g s) s) s) s

/-- What the units of a core do: spawn launches, grants, and the pre-emption engine. -/
def State.settleCore (s : State) (c : CoreRef) : State := (((s.launchBins c).grantAll c).preemptSettle c).restoreSettle c

/-- What follows every turn. -/
def State.settleAll (s : State) : State :=
  let s := s.settle
  let s := allSlices.foldl State.flushEndpoints (allSlices.foldl State.writePosts (allSlices.foldl State.tryReset s))
  let s := s.allCores.foldl State.settleCore s
  allParts.foldl State.advanceMove s

/-- A turn's end: the units settle when a next state has been reached. -/
def settled (o : Host.Outcome State Fault Refusal) : Host.Outcome State Fault Refusal :=
  match o with
  | .next s => .next s.settleAll
  | .fault r => .fault r
  | .refused r => .refused r

end Sys2Proof.Machine
end

