-- ==== Sys2Proof/Machine/Due.lean ====
section
/-! DEFINITION. The passing of time, one ptick after another: what the spec lets happen by time alone happens when it is due (R16, R18, R44 to R46,
R51, R159, R223, R282, R283, R352, R365, R372, R405, R406). -/

namespace Sys2Proof.Machine

/-! ### The end of a ptick -/

/-- The spawn timers of a core that expire in this ptick launch, lowest bin first; a bin that fills in the same ptick has launched already
(R51, R332). -/
def State.expireBins (s : State) (c : CoreRef) : State :=
  (List.range 16).foldl (fun s n =>
    let b := tabGet {} (s.core c).bins n
    if b.valid && decide (b.expiry ≤ s.now) && !s.gridHalted b.grid then s.launchBin c n else s) s

/-! ### What a new ptick brings -/

/-- Something that happens, as an event of the table does. -/
abbrev Happening := State → Host.Outcome State Fault Refusal

/-- The events of a scalar stream's watch. -/
def watchEvents (f : Fetcher) (c : Scalar) (now : Word) : List Happening :=
  if c.wait = .monitor then
    [execMwaitvDeadline f] ++ (if c.watchAt.toNat + 1024 ≤ now.toNat then [execWatchReread f] else [])
  else []

/-- What is due for a group: its watches, the release of its writes, its exit. -/
def groupEvents (g : GroupRef) (v : Group) (now : Word) : List Happening :=
  watchEvents (.scalar g) v.sc now
    ++ (([0, 1, 2, 3] : List (Fin 4)).flatMap fun k =>
          match (v.heldOf k.val).map fun (h : HeldOp) => h.kind with
          | some (.watch _) => [execLwatchDeadline g k, execWatchReread (.lane g k)]
          | _ => [])
    ++ (if v.sc.memq.any (·.kind == .fence) || v.sc.wait == .stall then [execWriteCompleteAtScope (.scalar g)] else [])
    ++ (if v.exiting then [execExitComplete g] else []) ++ (if v.want ≠ 0 then [execVgrowTimeout g] else [])

/-- What is due on a core. -/
def coreEvents (c : CoreRef) (k : Core) (now : Word) : List Happening :=
  (k.groups.flatMap fun e => groupEvents ⟨c.slice, c.core, idx 32 e.1⟩ e.2 now) ++ watchEvents (.puppet c) k.puppet.sc now
    ++ (if k.puppet.sc.memq.any (·.kind == .fence) || k.puppet.sc.wait == .stall then [execWriteCompleteAtScope (.puppet c)] else [])
    ++ (if k.preempt.state = 1 && k.preempt.forced then [execPreemptGraceExpiry c] else [])
    ++ (if k.puppet.stopped && !k.puppet.leftStopped then [execAgentRestart c] else [])

/-- What is due on a slice. -/
def sliceEvents (i : SliceId) (k : Slice) (now : Word) : List Happening :=
  (if bitAt (tabGet 0 k.regs 0x400) 6 && decide (k.opSince.toNat + 40000 ≤ now.toNat) then [execOpChangeComplete i] else [])
    ++ [execHbmCreditRefill i 0, execHbmCreditRefill i 1, execSeepLeak i 0, execSeepLeak i 1, execSeepLeak i 2]
    ++ (k.pairTab.map fun p => execXpairTimeout i p.id)
    ++ (k.ports.flatMap fun e => if h : e.1 < 86 then [execLinkTrainTimeout i ⟨e.1, h⟩] else [])
    ++ (if k.held then [] else (List.finRange 70).flatMap fun n => [execChannelWakeTimeout i n, execChannelIdlePark i n, execChannelWake i n])
    ++ (k.reassign.flatMap fun e => if h : e.1 < 6 then (if e.2.toNat + 1500 ≤ now.toNat then [execReassignEnd i ⟨e.1, h⟩ 0] else []) else [])
    ++ (k.slots.flatMap fun e => if h : e.1 < 256 then [execLaunchHoldEnd i ⟨e.1, h⟩] else [])
    ++ (k.cores.flatMap fun e => if h : e.1 < 144 then coreEvents ⟨i, ⟨e.1, h⟩⟩ e.2 now else [])

/-- Everything that time alone brings about. An event that is not due changes nothing. -/
def State.dueEvents (s : State) : List Happening :=
  (s.slices.flatMap fun e => if h : e.1 < 8 then sliceEvents ⟨e.1, h⟩ e.2 s.now else [])
    ++ (s.started.map fun x => execQueueWatchdogExpiry x.slice x.q x.pidx)
    ++ (s.prc.parts.flatMap fun e => if h : e.1 < 8 then [execFwSwitchTimeout ⟨e.1, h⟩, execBootFetchTimeout ⟨e.1, h⟩]
          ++ (if e.2.artHold then e.2.inbox.head?.toList.map fun (l : Letter) => execArtload (.kernel ⟨e.1, h⟩) ⟨l.words⟩ else []) else [])

/-- The lines of a core's L1 whose leases have expired are gone (R264). -/
def State.expireL1 (s : State) (c : CoreRef) : State :=
  s.modCore c fun k => { k with l1 := k.l1.filter fun x => decide (s.now ≤ x.expiry) }

/-- The soft limits follow the region blocks, each µs (R378, R402). -/
def State.tickLimits (s : State) : State := if s.now.toNat % 1000 = 0 then s.refreshLimits else s

/-- One ptick passes. -/
def State.tick (s : State) : State :=
  let s := (s.allCores.foldl State.expireBins s).passTime 1
  let s := s.tickLimits
  let s := s.dueEvents.foldl (fun s f => ran (f { s with cur := .none, word := 0 }) s) s
  (s.allCores.foldl (fun s c => (s.expireL1 c).coreTurn c) s).settleAll

/-- Some ptick pass, one after another. -/
def State.passTicks (s : State) : Nat → State
  | 0 => s
  | n + 1 => s.tick.passTicks n

end Sys2Proof.Machine
end

