-- ==== Sys2Proof/Machine/Schedule.lean ====
section
/-! DEFINITION. The issue choice and its charges (R40, R47, R399 to R401), the counts of an issue (R408, R414), and the guards on
streams that may issue. -/

namespace Sys2Proof.Machine

/-! ### Charges (R195, R212, R400) -/

/-- A lane instruction reads across lanes (R220 to R222). -/
def readsAcross (i : Instr) : Bool :=
  match i with
  | .lperm _ => true
  | .lrot _ => true
  | .lbcast _ => true
  | .lred _ _ => true
  | .lscan _ _ => true
  | _ => false

/-- The cclk that one beat of a lane instruction occupies in its pipe. -/
def beatCost (i : Instr) (w : LaneWord) : Nat :=
  let e := is64 w.typ
  let two := if e then 2 else 1
  match i with
  | .cvt _ => if cvt64 (bitsOf w.imm 5 0) || cvt64 (bitsOf w.imm 11 6) then 2 else 1
  | .rqnt _ => 1
  | .fseed _ _ => 1
  | .lred _ _ => 2 * two
  | .lscan _ _ => 2 * two
  | .lperm _ => two
  | .lrot _ => two
  | .lbcast _ => two
  | .xswap _ => two
  | .ld _ _ => two
  | .st _ _ => two
  | .ldg _ _ => two
  | .stsc _ _ => two
  | .amo _ _ _ => two
  | .lwatch _ => two
  | .lwatchW _ => two
  | _ => if isLaneControl i then 1 else if w.typ = 7#4 then 4 else two

/-- The vector registers that a lane instruction writes. -/
def destRegs (i : Instr) (w : LaneWord) : List Nat := codeRegs w.dst (laneWides i w).dst

/-- Registers that a lane instruction converts before a partial write (R180). -/
def convertBeats (v : Group) (i : Instr) (w : LaneWord) (acted : Mask) : Nat :=
  if acted = fullMask then 0 else ((destRegs i w).filter fun n => (v.vreg n).shape != .g).length

/-- Registers that a lane instruction unpacks (R181). -/
def unpackBeats (v : Group) (i : Instr) (w : LaneWord) : Nat :=
  (((laneSources i w).flatMap fun e => codeRegs e.1 e.2).eraseDups.filter fun n => (v.vreg n).spill = 3 || (v.vreg n).spill = 4).length

/-- The beats of a lane instruction that are not skipped (R40). -/
def laneBeats (v : Group) (k : Fin 4) (i : Instr) (w : LaneWord) : Nat :=
  let m := (v.split k.val).mask
  if zeroing w || readsAcross i || convertBeats v i w (actedMask v (v.split k.val).mask w) ≠ 0 then 3
  else ((List.range 3).filter fun b => m.extractLsb' (32 * b) 32 != 0).length

/-- The charge of a lane instruction. -/
def laneCharge (v : Group) (k : Fin 4) (i : Instr) (w : LaneWord) : Nat :=
  laneBeats v k i w * beatCost i w + convertBeats v i w (actedMask v (v.split k.val).mask w) + unpackBeats v i w

/-- A tenant's deficit, and its ISSUE counter, take a charge (R401, R408). -/
def State.charge (s : State) (g : GroupRef) (n : Nat) : State :=
  let ten := (s.group g).ten.toNat
  let p := (s.group g).part
  let uid := s.uidOf (.scalar g)
  let s := s.modCore g.at fun c =>
    let d := tabGet {} c.deficits ten
    { c with deficits := tabSet c.deficits ten { d with deficit := satInt (d.deficit - n) (-32768) 32767 } }
  s.addUsage p uid fun u => { u with issue := u.issue + BitVec.ofNat 64 n }

/-- Counts an event of an agent n times. -/
def State.countMany (s : State) (a : Agent) (code : Nat) : Nat → State
  | 0 => s
  | n + 1 => (s.countFor a code).countMany a code n

/-! ### After an issue -/

/-- The group issued: it is the one ready for the fewest cclk, and no longer aged (R44, R401). A step is done (R440). -/
def Group.haveIssued (v : Group) (now : Word) : Group :=
  { v with readyAt := now, aged := false, stepDone := v.stepping || v.lstepping }

/-- What follows the issue of a scalar word: the charge and the count (R400, R414). `g` stands as it did before. -/
def State.scalarIssued (s : State) (f : Fetcher) : State :=
  match f with
  | .puppet c => (s.countFor (.puppet c) 0x02).modCore c fun k => { k with starve := 0 }
  | .scalar g => ((s.charge g 1).countFor (.scalar g) 0x02).modGroup g fun v => v.haveIssued s.now
  | .lane _ _ => s

/-- The register cache of a group after an instruction, and how many of the registers read it held (R187): it keeps the six registers used last
(DESIGN CHOICE, log 141; unsafe for a statement about events 0x05 and 0x06). -/
def Group.cacheUse (v : Group) (i : Instr) (w : LaneWord) : List Nat × Nat × Nat :=
  let use (t : List Nat) (n : Nat) : List Nat := (n :: t.filter (· != n)).take 6
  let reads := ((laneSources i w).flatMap fun e => codeRegs e.1 e.2).eraseDups
  let (t, hits) := reads.foldl (fun (a : List Nat × Nat) n => (use a.1 n, if a.1.contains n then a.2 + 1 else a.2)) (v.rcache, 0)
  ((destRegs i w).foldl use t, hits, reads.length - hits)

/-- What follows the issue of a lane instruction of a group that stood as `v` does. -/
def State.laneHasIssued (s : State) (g : GroupRef) (k : Fin 4) (v : Group) (i : Instr) : State :=
  match laneOpcode i with
  | none => s
  | some (_, w) =>
    let b := laneBeats v k i w
    let cv := convertBeats v i w (actedMask v (v.split k.val).mask w)
    let s := s.charge g (laneCharge v k i w)
    let a : Agent := .lane g k
    let s := (((s.countMany a 0x03 b).countMany a 0x04 (3 - b)).countMany a 0x0E cv).countMany a 0x0F (unpackBeats v i w)
    let (cache, hits, misses) := v.cacheUse i w
    let s := (s.countMany a 0x05 hits).countMany a 0x06 misses
    (((s.beatErrors g.at b).maskErrors g).modGroup g fun v => { v.haveIssued s.now with rcache := cache })

/-! ### Who may issue -/

/-- A scalar stream may issue: the group is active and its sequencer not frozen, or the puppet slot runs and is not parked or stopped
(R44, R58, R175). A step runs one stream for one word (R440). -/
def State.scalarMay (s : State) (f : Fetcher) : Bool :=
  match f with
  | .scalar g =>
    let v := s.group g
    v.st == .active && !v.sc.frozen && !v.stepDone && !v.lstepping
  | .puppet c =>
    let p := (s.core c).puppet
    p.running && !p.parked && !p.stopped && !p.sc.frozen
  | .lane _ _ => false

/-- A lane stream may go on. -/
def State.laneMay (s : State) (g : GroupRef) : Bool :=
  let v := s.group g
  v.st == .active && !v.stepDone && !v.stepping

/-! ### The choice (R401) -/

/-- How many replenishments it takes until one of some tenants has a positive deficit. -/
def State.rounds (s : State) (c : CoreRef) (tens : List Nat) : Nat :=
  (tens.map fun t =>
    let d := s.deficit c t
    if 0 < d.deficit then 0 else (-d.deficit).toNat / max d.weight 1 + 1).foldl min 65536

/-- Replenishes every bound entry a number of times. -/
def State.replenish (s : State) (c : CoreRef) (n : Nat) : State :=
  if n = 0 then s
  else
    s.modCore c fun k =>
      { k with deficits := tabMap (fun _ d =>
          if d.bound then { d with deficit := min (d.deficit + (n * d.weight : Nat)) ((4 * d.weight : Nat) : Int) } else d) k.deficits }

/-- The tenant's next choice has been made: none of its groups is put back by `yield` any more (R163). -/
def State.clearYield (s : State) (c : CoreRef) (ten : BitVec 4) : State :=
  s.modCore c fun k => { k with groups := tabMap (fun _ v => if v.ten = ten then { v with young := false } else v) k.groups }

/-- Chooses among candidate groups: the state after replenishment, and the group. -/
def State.choose (s : State) (c : CoreRef) (cands : List GroupRef) : Option (State × GroupRef) :=
  let tens := (cands.map fun g => (s.group g).ten.toNat).eraseDups
  let s := s.replenish c (s.rounds c tens)
  (s.firstOf c cands).map fun g => (s.clearYield c (s.group g).ten, g)

end Sys2Proof.Machine
end

