-- ==== Sys2Proof/Machine/Run.lean ====
section
/-! DEFINITION. What each turn of the schedule does: a stream fetches, decodes and runs its next instruction, a core fills an issue
position (R401), or an event happens. Also what placing a word for a stream to fetch next takes. -/

namespace Sys2Proof.Machine

/-- Goes on from a next state. -/
def andThen (o : Host.Outcome State Fault Refusal) (f : State → State) : Host.Outcome State Fault Refusal :=
  match o with
  | .next s => .next (f s)
  | .fault r => .fault r
  | .refused r => .refused r

/-! ### Scalar streams -/

/-- Words that the puppet slot may not issue, by their major and selector alone (R167). -/
def barredWord (w : W32) : Bool :=
  let m := fMajor w
  m == 0x19 || m == 0x1A || m == 0x22 || (decide (0x1C ≤ m) && decide (m ≤ 0x1F)) || m == 0x20 || m == 0x21 || m == 0x23 || m == 0x27
    || (m == 0x26 && fSel2 w == 2)

/-- The fault of a word with a bad encoding, in the order of R73; a word barred from the puppet slot is illegal there first. -/
def wordFault (w : W32) (puppet : Bool) (e : EncFault) : Cause :=
  if puppet && barredWord w then .illegalInstruction
  else if privilegedWord w && !puppet then .privilege
  else Cause.ofEnc e

/-- The scalar word went through: its stream does not wait at it. -/
def State.wordIssued (t : State) (f : Fetcher) : Bool :=
  match f with
  | .scalar g => (t.group g).sc.wait == .none || (t.group g).st != .active
  | .puppet c => (t.core c).puppet.sc.wait == .none && !(t.core c).puppet.parked
  | .lane _ _ => false

/-- What follows a scalar word's meaning: the charge and the counts, when it issued. A word that raised a precise fault did not (R12). -/
def State.afterScalar (s : State) (f : Fetcher) (t : State) : State :=
  if t.wordIssued f && !s.faulted t (fetcherAgent f) then t.scalarIssued f else t

/-- The state in which an agent's word executes. -/
def State.executing (s : State) (a : Agent) (w : W32) : State := { s with cur := a, word := w }

/-- A scalar stream fetches its next word and runs it; a word that the cluster does not hold is a miss (R58). -/
def runScalar (f : Fetcher) (s : State) : Host.Outcome State Fault Refusal :=
  let a := fetcherAgent f
  match s.fetchAt a (codeAddr (s.scOf a).spc) with
  | none => execFetchMiss f s
  | some w =>
    match decodeScalar w with
    | .ok i => andThen (exec i (s.executing a w)) (s.afterScalar f)
    | .error e => .next (s.afterScalar f ((s.executing a w).raise (wordFault w (agentPuppet a) e)))

/-! ### Lane streams -/

/-- A lane instruction of the group has issued. -/
def State.laneWentOn (s t : State) (g : GroupRef) : Bool := (t.group g).laneN != (s.group g).laneN

/-- A lane instruction of the group has issued, or has raised a fault. -/
def State.laneActed (s t : State) (g : GroupRef) : Bool := s.laneWentOn t g || (t.group g).st != .active

/-- What follows a lane instruction's meaning: the charge and the counts, when it issued; and starving lanes get a record (R43). -/
def State.afterLane (s : State) (g : GroupRef) (k : Fin 4) (i : Instr) (t : State) : State :=
  if s.laneWentOn t g then (t.laneHasIssued g k (s.group g) i).modGroup g Group.demote else t

/-- A split fetches its next instruction and runs it. -/
def runSplit (g : GroupRef) (k : Fin 4) (s : State) : Host.Outcome State Fault Refusal :=
  match s.laneFetch g k with
  | .error _ => execFetchMiss (.lane g k) s
  | .ok ws =>
    match decodeLaneWords ws with
    | none => .next s
    | some (.error e) => .next ((s.executing (.lane g k) (leadWord ws)).raise (Cause.ofEnc e))
    | some (.ok i) => andThen (exec i (s.executing (.lane g k) (leadWord ws))) (s.afterLane g k i)

/-- The split would issue. -/
def State.splitReady (s : State) (g : GroupRef) (k : Nat) : Bool :=
  ((s.group g).split k).wait != .fetch &&
    (match runSplit g (idx 4 k) s with
     | .next t => s.laneActed t g
     | _ => true)

/-- The first of some splits that can issue, with the state in which those before it have said what they wait on. -/
def State.firstSplit (s : State) (g : GroupRef) : List Nat → State × Option (Nat × List Nat)
  | [] => (s, none)
  | k :: ks =>
    if ((s.group g).split k).wait = .fetch then s.firstSplit g ks
    else
      match runSplit g (idx 4 k) s with
      | .next t => if s.laneActed t g then (s, some (k, ks)) else t.firstSplit g ks
      | _ => (s, some (k, ks))

/-- The split from which the lane sequencer of a group issues next, and those after it in the order of choice (R43). -/
def State.nextSplit (s : State) (g : GroupRef) : State × Option (Nat × List Nat) := s.firstSplit g (s.group g).candidates

/-- Issues from a split; the ready ones after it have been passed over (R43). -/
def issueSplit (g : GroupRef) (k : Nat) (ks : List Nat) (s : State) : Host.Outcome State Fault Refusal :=
  andThen (runSplit g (idx 4 k) s) fun t => t.modGroup g fun v => v.passOver k (ks.filter (s.splitReady g))

/-- The lane stream takes its next entry (R39, R154). -/
def takeEntry (g : GroupRef) (s : State) : Host.Outcome State Fault Refusal :=
  match (s.group g).lq with
  | [] => .next s
  | .block _ _ _ :: _ => execLaneBlockStart g s
  | .lput _ _ _ :: _ => execLputEntryTaken g s
  | .lget _ _ _ _ :: _ => execLgetEntryTaken g s
  | .sigrst :: _ => execSigrstEntryTaken g s

/-- The lane stream of a group goes on: it takes an entry, or its sequencer issues from a split. -/
def runLane (g : GroupRef) (s : State) : Host.Outcome State Fault Refusal :=
  if (s.group g).block.isNone then takeEntry g s
  else
    match s.nextSplit g with
    | (t, some (k, ks)) => issueSplit g k ks t
    | (t, none) => .next t

/-! ### Issue positions (R47, R401) -/

/-- Lets a stream that cannot issue say so: it freezes at a miss or records what it waits on. The state, and whether it can issue. -/
def State.probe (s : State) (may : Bool) (o : Host.Outcome State Fault Refusal) (went : State → Bool) : State × Bool :=
  if !may then (s, false)
  else
    match o with
    | .next t => if went t then (s, true) else (t, false)
    | _ => (s, true)

/-- Of some groups, those whose scalar stream can take a position. -/
def State.scalarCandidates (s : State) : List GroupRef → State × List GroupRef
  | [] => (s, [])
  | g :: gs =>
    let (s, b) := s.probe (s.scalarMay (.scalar g)) (runScalar (.scalar g) s) (·.wordIssued (.scalar g))
    let (s, r) := s.scalarCandidates gs
    (s, if b then g :: r else r)

/-- Of some groups, those whose lane stream can take a position. -/
def State.laneCandidates (s : State) : List GroupRef → State × List GroupRef
  | [] => (s, [])
  | g :: gs =>
    let (s, b) :=
      if s.laneMay g && (s.group g).block.isSome then
        match s.nextSplit g with
        | (t, some _) => (t, true)
        | (t, none) => (t, false)
      else (s, false)
    let (s, r) := s.laneCandidates gs
    (s, if b then g :: r else r)

/-- Whether the puppet slot has a ready instruction. -/
def State.puppetReady (s : State) (c : CoreRef) : State × Bool :=
  s.probe (s.scalarMay (.puppet c)) (runScalar (.puppet c) s) (·.wordIssued (.puppet c))

/-- The puppet slot has had, or not had, a ready instruction in one more cclk in which it did not issue (R47). -/
def State.countStarve (s : State) (c : CoreRef) : State :=
  let (s, b) := s.puppetReady c
  s.modCore c fun k => { k with starve := if b then k.starve + 1 else 0 }

/-- The lane streams of a core's active groups that run no block take their next entries (R39, R154). -/
def takeEntries (c : CoreRef) (s : State) : State :=
  (s.activeGroups c).foldl (fun s g => if s.laneMay g && (s.group g).block.isNone then ran (takeEntry g s) s else s) s

/-- A cclk of a core begins: it is counted, the lane pipes move on by a beat, groups leave the active set, wake and are admitted (R44 to
R46), lane streams take entries, and a puppet slot held out for seven cclk takes scalar position 1 outright (R47). -/
def State.beginCclk (s : State) (c : CoreRef) : State :=
  let s := ((s.count c 0x01 none).modCore c fun k =>
    { k with filled := 0, pos0 := none, pos0Puppet := false, pipes := tabMap (fun _ n => n - 1) k.pipes }).coreTurn c
  let s := (takeEntries c s).countStarve c
  if 8 ≤ (s.core c).starve then ran (runScalar (.puppet c) (s.modCore c fun k => { k with filled := 2 })) s else s

/-- The puppet slot takes a scalar position that no group takes, unless it has the other one of the cclk (R40). -/
def runPuppetPosition (c : CoreRef) (pos : Nat) (s : State) : Host.Outcome State Fault Refusal :=
  if (s.core c).pos0Puppet then .next s
  else
    let (s, b) := s.puppetReady c
    if b then runScalar (.puppet c) (s.modCore c fun k => { k with pos0Puppet := pos = 0 }) else .next s

/-- A core fills a scalar position. -/
def runScalarPosition (c : CoreRef) (pos : Nat) (s : State) : Host.Outcome State Fault Refusal :=
  let (s, cs) := s.scalarCandidates ((s.activeGroups c).filter fun g => pos = 0 || (s.core c).pos0 != some g.slot)
  match s.choose c cs with
  | some (s, g) => runScalar (.scalar g) (s.modCore c fun k => if pos = 0 then { k with pos0 := some g.slot } else k)
  | none => runPuppetPosition c pos s

/-- A lane pipe can accept a first beat (R40). -/
def State.pipeFree (s : State) (c : CoreRef) (pipe : Nat) : Bool := tabGet 0 (s.core c).pipes pipe == 0

/-- What a core chooses for a lane pipe: the state after the choice, the group and the split, with the splits after it. -/
def State.laneChoice (s : State) (c : CoreRef) : State × Option (GroupRef × Nat × List Nat) :=
  let (s, cs) := s.laneCandidates (s.activeGroups c)
  match s.choose c cs with
  | none => (s, none)
  | some (s, g) =>
    match s.nextSplit g with
    | (s, some (k, ks)) => (s, some (g, k, ks))
    | (s, none) => (s, none)

/-- Issues the choice for a lane pipe, which its beats occupy from then on. -/
def issueInPipe (c : CoreRef) (pipe : Nat) (g : GroupRef) (k : Nat) (ks : List Nat) (s : State) : Host.Outcome State Fault Refusal :=
  let n := match s.splitInstr g (idx 4 k) with | some (i, w) => laneCharge (s.group g) (idx 4 k) i w | none => 1
  issueSplit g k ks (s.modCore c fun x => { x with pipes := tabSet x.pipes pipe n, filled := x.filled ||| BitVec.ofNat 4 (4 * 2 ^ pipe) })

/-- A core fills a lane pipe. When pipe 1 would then take a lower-numbered split of the same group, that one's instruction takes effect
first (R183). -/
def runLanePosition (c : CoreRef) (pipe : Nat) (s : State) : Host.Outcome State Fault Refusal :=
  if !s.pipeFree c pipe then .next s
  else
    match s.laneChoice c with
    | (s, none) => .next s
    | (s, some (g, k, ks)) =>
      let alone := issueInPipe c pipe g k ks s
      if pipe = 0 && s.pipeFree c 1 then
        match alone with
        | .next t =>
          (match t.laneChoice c with
           | (_, some (h, j, js)) =>
             if h = g && decide (j < k) && s.splitReady g j then
               match issueInPipe c 1 g j js s with
               | .next u => issueInPipe c 0 g k ks u
               | x => x
             else alone
           | _ => alone)
        | x => x
      else alone

/-- A core fills one of its issue positions: scalar 0, scalar 1, lane pipe 0, lane pipe 1. A position filled already is that of the next
cclk. -/
def runPosition (c : CoreRef) (pos : Fin 4) (s : State) : Host.Outcome State Fault Refusal :=
  let s := if pos.val = 0 || bitAt ((s.core c).filled.setWidth 64) pos.val then s.beginCclk c else s
  if bitAt ((s.core c).filled.setWidth 64) pos.val then .next s
  else if pos.val < 2 then
    runScalarPosition c pos.val (s.modCore c fun k => { k with filled := k.filled ||| BitVec.ofNat 4 (2 ^ pos.val) })
  else runLanePosition c (pos.val - 2) s

/-! ### Turns -/

/-- A group's scalar stream moves by itself, which counts as a cclk of its core: a puppet slot held out for seven goes first (R47, R62). -/
def runScalarAlone (g : GroupRef) (s : State) : Host.Outcome State Fault Refusal :=
  if 7 ≤ (s.core g.at).starve && (s.puppetReady g.at).2 then runScalar (.puppet g.at) s
  else andThen (runScalar (.scalar g) s) (·.countStarve g.at)

/-- Who moves. -/
def runMover (m : Mover) (s : State) : Host.Outcome State Fault Refusal :=
  match m with
  | .scalar g => if s.scalarMay (.scalar g) then runScalarAlone g s else .next s
  | .puppet c => if s.scalarMay (.puppet c) then runScalar (.puppet c) s else .next s
  | .lane g => if s.laneMay g then runLane g s else .next s
  | .position c pos => runPosition c pos s
  | .event i => exec i { s with cur := .none, word := 0 }
  | .idle => .next s

/-- The lane instructions of a group that have issued and can now go on do so: of an active group any, of another one that popped an entry
before it was filled (R46, R189, R323). -/
def State.goOnHeld (s : State) (g : GroupRef) : State :=
  if (s.group g).held.isEmpty then s
  else
    ([0, 1, 2, 3] : List (Fin 4)).foldl (fun s k =>
      match (s.group g).heldOf k.val with
      | some h =>
        if (s.group g).resident && ((s.group g).st == .active || h.kind == .fill) && s.heldMet g k h then ran (runSplit g k s) s else s
      | none => s) s

/-- A `qpeek.pop` whose entry has been filled completes. -/
def State.goOnPopped (s : State) (g : GroupRef) : State :=
  match (s.group g).sc.popped with
  | some e => if (s.group g).resident && e.filled && !(s.group g).sc.frozen then ran (runScalar (.scalar g) s) s else s
  | none => s

/-- What had issued and waited goes on. -/
def State.goOn (s : State) : State := s.allGroups.foldl (fun s g => (s.goOnHeld g).goOnPopped g) s

/-- A turn: time passes, its mover moves, what had issued and waited goes on, and the units of the module settle. -/
def runTurn (t : Turn) (s : State) : Host.Outcome State Fault Refusal :=
  settled (andThen (runMover t.who (s.passTicks t.elapsed)) State.goOn)

/-! ### Placing a word -/

/-- The core on which a placed word runs. -/
def firstCore : CoreRef := ⟨0, 0⟩
/-- The group that runs a placed word. -/
def firstGroup : GroupRef := ⟨0, 0, 0⟩

/-- A group that can run: one in the slot already is made active; else one is placed, of a grid of one workgroup that owns the matrix
registers, with the largest allotment and scratchpad. -/
def State.readyGroup (s : State) : State :=
  if (s.group firstGroup).resident then
    s.modGroup firstGroup fun v =>
      { v with st := .active, stepping := false, lstepping := false, stepDone := false, sc := { v.sc with frozen := false, wait := .none } }
  else
    let n := s.nextId
    let s := { s.takeId with grids := tabSet s.grids n { live := 1, claimed := 1 } }
    (s.modCore firstCore fun k =>
      { k with wgs := tabSet k.wgs n { grid := n, idx := 0, groups := 1, spadLen := 0x80000, lpLen := 0, matrix := true },
               deficits := tabSet k.deficits 0 { bound := true, weight := 1, deficit := 1 } }).setGroup firstGroup
      { st := .active, grid := n, wg := n, nreg := 128, sc := { s := [(60, 0xFFFFFFFF), (61, 0xFFFFFFFF), (62, 0xFFFFFFFF)] } }

/-- A puppet slot that can run. -/
def State.readyPuppet (s : State) : State :=
  s.modPuppet firstCore fun p =>
    { p with running := true, parked := false, stopped := false, sc := { p.sc with frozen := false, wait := .none } }

/-- Puts words where an agent's instruction cache holds them, from an address upward. -/
def State.placeCode (s : State) (a : Agent) (addr : Word) (ws : List W32) : State :=
  s.putCode (agentCore a).slice (agentCore a).cluster
    (ws.zipIdx.map fun e => { space := s.codeSpace a, addr := addr + BitVec.ofNat 64 (4 * e.2), word := e.1 })

/-- Makes a mover the next one, with no time passing before it. -/
def State.nextMover (s : State) (m : Mover) : State := { s with schedule := ⟨0, m⟩ :: s.schedule }

/-- Stores an instruction's words where the next step fetches them. -/
def State.placeWord (s : State) (nbits w : Nat) : State :=
  let word (k : Nat) : W32 := BitVec.ofNat 32 (w >>> (32 * k))
  if nbits ≤ 32 then
    if privilegedWord (word 0) then
      let s := s.readyPuppet
      (s.placeCode (.puppet firstCore) (codeAddr (s.scOf (.puppet firstCore)).spc) [word 0]).nextMover (.puppet firstCore)
    else
      let s := s.readyGroup.modCore firstCore fun k => { k with starve := 0 }
      (s.placeCode (.scalar firstGroup) (codeAddr (s.scOf (.scalar firstGroup)).spc) [word 0]).nextMover (.scalar firstGroup)
  else
    let s := s.readyGroup.modGroup firstGroup fun v =>
      { v with block := some { addr := 0, mask := fullMask, rnd := 1 }, waiting := [], held := [],
               splits := [(0, { used := true, mask := fullMask, bh := bhStart, bhv := true })] }
    (s.placeCode (.lane firstGroup 0) 0 ((List.range (nbits / 32)).map word)).nextMover (.lane firstGroup)

end Sys2Proof.Machine
end

