-- ==== Sys2Proof/Machine/Step.lean ====
section
/-! DEFINITION. One step of the module: the head of the schedule moves. With nothing scheduled, time passes. -/

namespace Sys2Proof.Machine

/-- One step. -/
def step (s : State) : Host.Outcome State Fault Refusal :=
  match s.schedule with
  | [] => runTurn ⟨1, .idle⟩ s
  | t :: rest => runTurn t { s with schedule := rest }

/-- The state with an instruction stored where the next step fetches it, bit 0 of `w` the least significant bit of its first word. -/
def State.withFetchWord (s : State) (nbits w : Nat) : State := s.placeWord nbits w

end Sys2Proof.Machine
end

