-- ==== Sys2Proof/Safety.lean ====
section
/-! DEFINITION. What counts as a safe run, and the terms that claims use: when a scalar word or a lane instruction issues, and what
a result leaves behind it. -/

namespace Sys2Proof.Machine

/-- A step that goes on. -/
def goesOn (o : Host.Outcome State Fault Refusal) : Bool :=
  match o with
  | .next _ => true
  | _ => false

/-- The memories of the module keep their canonical form: HBM, and every partition's chip scratchpad. -/
def State.memoriesWf (s : State) : Bool := Memory.wf s.mem && s.prc.parts.all fun e => Memory.wf e.2.chip

/-! ### Scalar words -/

/-- The executing agent is the scalar stream of a group or a puppet slot. -/
def State.inScalar (s : State) : Prop :=
  match s.cur with
  | .scalar _ => True
  | .puppet _ => True
  | _ => False

/-- Nothing holds a scalar word back that reads some registers and writes others (R138, R139, R276): no source is a pending token, none
of the registers awaits a load, and no destination is a pending token. -/
def State.canIssue (s : State) (reads dests : List (BitVec 6)) : Prop :=
  s.inScalar ∧ (∀ r ∈ reads, r ≠ 0 → (s.scOf s.cur).pend.getLsbD r.toNat = false)
    ∧ (∀ r ∈ reads ++ dests, r ≠ 0 → (s.scOf s.cur).loadPend.getLsbD r.toNat = false)
    ∧ ∀ d ∈ dests, (s.scOf s.cur).pend.getLsbD d.toNat = false

/-- Two states differ at most in the scalar side of the agent that executes: no other agent, no memory, no special register of a core,
slice or the PRC, and not the time. -/
def State.onlyScalarSide (s t : State) : Prop := t = s.modSc s.cur fun _ => t.scOf s.cur

/-- A word has executed whose only result is a value for a scalar register (R137): a write of `s0` is discarded, every other scalar
register keeps its value, and the stream stands at the next word. -/
def State.wrote (s t : State) (d : BitVec 6) (v : Word) : Prop :=
  s.onlyScalarSide t ∧ (∀ r, t.sreg r = if r = d ∧ d ≠ 0 then storedIn d v else s.sreg r) ∧ t.spc = s.spc + 4
    ∧ (t.scOf s.cur).pend = (s.scOf s.cur).pend ∧ (t.scOf s.cur).loadPend = (s.scOf s.cur).loadPend
    ∧ (t.scOf s.cur).memq = (s.scOf s.cur).memq ∧ (t.scOf s.cur).watch = (s.scOf s.cur).watch ∧ ∀ a, memGet t.mem a = memGet s.mem a

/-- The instruction executes and its only result is a value for a scalar register. -/
def State.gives (s : State) (i : Instr) (d : BitVec 6) (v : Word) : Prop := ∃ t, exec i s = .next t ∧ s.wrote t d v

/-- A word has executed that only moves its stream: to an address, with every register and all else as it was. -/
def State.went (s t : State) (pc : Word) : Prop :=
  s.onlyScalarSide t ∧ (∀ r, t.sreg r = s.sreg r) ∧ t.spc = pc ∧ (t.scOf s.cur).pend = (s.scOf s.cur).pend
    ∧ (t.scOf s.cur).memq = (s.scOf s.cur).memq ∧ ∀ a, memGet t.mem a = memGet s.mem a

/-- The instruction executes and only moves its stream. -/
def State.goesTo (s : State) (i : Instr) (pc : Word) : Prop := ∃ t, exec i s = .next t ∧ s.went t pc

/-- The instruction executes, and a statement holds of the next state. -/
def State.does (s : State) (i : Instr) (p : State → Prop) : Prop := ∃ t, exec i s = .next t ∧ p t

/-- Every byte of HBM reads as before. -/
def State.sameMemory (s t : State) : Prop := ∀ a, memGet t.mem a = memGet s.mem a

/-- Every scalar register of the executing agent reads as before. -/
def State.sameRegs (s t : State) : Prop := ∀ r, t.sreg r = s.sreg r

/-- The stream moved past the word, and neither a scalar register nor a byte of HBM changed. -/
def State.passedWord (s t : State) : Prop := s.sameRegs t ∧ t.spc = s.spc + 4 ∧ s.sameMemory t

/-- The stream still stands at the word, and neither a scalar register nor a byte of HBM changed. -/
def State.heldAt (s t : State) : Prop := s.sameRegs t ∧ t.spc = s.spc ∧ s.sameMemory t

/-- The fault injector of every slice is off (R416). -/
def State.injectorOff (s : State) : Prop := ∀ i : SliceId, (s.sliceReg i 0x42C).getLsbD 42 = false

/-- A virtual address names a global location: its top byte is zero and it lies outside the window region (R259, R268). -/
def isGlobal (va : Word) : Prop := bitsOf va 63 56 = 0 ∧ bitsOf va 55 48 ≠ 0xFF

/-- The executing agent's operations in flight are those of before and one more, a scalar access of `n` bytes to a global address; every
register that it writes awaits the reply, and the value of every register and byte of HBM is as before (R276). -/
def State.sentScalar (s t : State) (kind : AccKind) (n : Nat) (va value expect : Word) (dest : Option (BitVec 6)) (order : BitVec 2) (scope : BitVec 3) :
    Prop :=
  (∃ o : MemOp, (t.scOf s.cur).memq = (s.scOf s.cur).memq ++ [o] ∧ o.kind = kind ∧ o.width = n ∧ o.got = [] ∧ o.order = order ∧ o.scope = scope
    ∧ o.accs = [{ lane := 0, place := .global (s.agentAsid s.cur) va, value := value, expect := expect }]
    ∧ o.dest = match dest with | some d => .sreg d | none => .none)
  ∧ (∀ r, (t.scOf s.cur).loadPend.getLsbD r = ((s.scOf s.cur).loadPend.getLsbD r || decide (∃ d ∈ dest, d ≠ 0 ∧ d.toNat = r)))
  ∧ s.passedWord t

/-- The instruction executes: its destination holds a value and every other scalar register, and every byte of HBM, is as before; the stream
stands at the next word; and a statement holds of the next state. -/
def State.yields (s : State) (i : Instr) (d : BitVec 6) (v : Word) (p : State → Prop) : Prop :=
  s.does i fun t => (∀ r, t.sreg r = if r = d ∧ d ≠ 0 then storedIn d v else s.sreg r) ∧ t.spc = s.spc + 4 ∧ s.sameMemory t ∧ p t

/-- The instruction raises a precise fault of the executing group at its word (R420). -/
def State.faults (s : State) (i : Instr) (g : GroupRef) (code : BitVec 8) : Prop :=
  s.does i fun t => (t.group g).faultCode = code ∧ (t.group g).faultPrec = true ∧ (t.group g).faultLane = false
    ∧ (t.group g).sc.spc = (s.group g).sc.spc ∧ s.sameMemory t

/-- Every group keeps its vector registers, predicates, latches, signature, control word and lane queue. -/
def State.sameLanes (s t : State) : Prop :=
  ∀ g, (t.group g).v = (s.group g).v ∧ (t.group g).p = (s.group g).p ∧ (t.group g).bl = (s.group g).bl ∧ (t.group g).sig = (s.group g).sig
    ∧ (t.group g).fpc = (s.group g).fpc ∧ (t.group g).lq = (s.group g).lq

/-- Every hardware queue is as before. -/
def State.sameQueues (s t : State) : Prop := ∀ q, t.queue q = s.queue q

/-- Everything that a group has issued has been performed, and its lane stream is idle: `lsync` and a release at a scope wait for nothing. -/
def State.settledAt (s : State) (g : GroupRef) (scope : BitVec 3) : Prop :=
  (s.group g).lq = [] ∧ (s.group g).block = none ∧ (s.group g).sc.memq = [] ∧ s.streamReleased (.scalar g) scope = true

/-! ### Lane instructions -/

/-- Split `k` of group `g` has a lane instruction that issues (R86, R186, R280, R323, R326): a block runs, the encoding, registers, latches and
queue names pass their checks, no register awaits a load, nothing issued waits there, and the queue step takes place: it pops the filled entries
`pops` and leaves `u`. -/
def State.laneMayIssue (s : State) (g : GroupRef) (k : Fin 4) (i : Instr) (w : LaneWord) (pops : List (Nat × QEntry)) (u : State) : Prop :=
  let v := s.group g
  s.cur = .lane g k ∧ v.block.isSome ∧ v.heldOf k.val = none ∧ (v.split k.val).used = true ∧ (v.split k.val).atEnd = false
    ∧ laneFault (v.split k.val).pc.toNat i = none ∧ beyondAllotment i w v.nreg = false ∧ awaitsLoad v i w = false ∧ lostLatch v i w = false
    ∧ s.queueMisuse g i w = false ∧ s.queueStep g (s.splitNo g k) i w = .ready pops u ∧ popsFilled pops = true

/-- What lane `l` reads from a source: 0 is A, 1 is B, 2 is C and 3 is the prefix's D. -/
def State.operand (s : State) (g : GroupRef) (k : Fin 4) (i : Instr) (w : LaneWord) (pops : List (Nat × QEntry)) (n : Fin 4) (l : Nat) : Word :=
  let ws := laneWides i w
  let read (c : BitVec 8) (wide : Bool) : Word := laneVal (s.source g k pops i w c wide).vals l
  match n.val with
  | 0 => read w.sa ws.a
  | 1 => read w.sb ws.b
  | 2 => read w.sc ws.c
  | _ => read (dCode w) ws.d

/-- The split is the only record in use and no lane waits. -/
def Group.alone (v : Group) (k : Fin 4) : Prop := (∀ j < 4, j ≠ k.val → (v.split j).used = false) ∧ v.waiting = []

/-- Beside the group's own lane side nothing has changed: no other group, no scalar side, no memory and no register of a core, slice or the PRC
but the event counters. -/
def State.onlyLanes (s t : State) (g : GroupRef) : Prop :=
  (t.group g).lq = (s.group g).lq ∧ (t.group g).binds = (s.group g).binds ∧ (t.group g).nreg = (s.group g).nreg ∧ (∀ h, h ≠ g → t.group h = s.group h)
    ∧ s.sameMemory t ∧ (∀ i n, t.sliceReg i n = s.sliceReg i n) ∧ (∀ c n, n < 0x168 ∨ 0x170 ≤ n → t.coreReg c n = s.coreReg c n)
    ∧ t.prc = s.prc

/-- The split has gone on to the next instruction, when it is alone (R42). -/
def State.laneMoved (s t : State) (g : GroupRef) (k : Fin 4) : Prop :=
  let x := (s.group g).split k.val
  (s.group g).alone k → (t.group g).block = (s.group g).block ∧ ((t.group g).split k.val).pc = x.pc + 1 ∧ ((t.group g).split k.val).mask = x.mask
    ∧ ((t.group g).split k.val).wait = .none

/-- Values stand in a destination, and nothing else of the vector registers, predicates, latches and queues has changed (R182, R184, R188, R324,
R325). A lane acted on takes its value, cut to the destination's width; another lane takes 0 with a zeroing prefix, and else keeps what it
held. A queue takes one more entry: every lane's value, or that of the lowest lane acted on. `u` has the queues as the pops left them. -/
def State.laneLeaves (s u t : State) (g : GroupRef) (w : LaneWord) (wide : Bool) (acted : Mask) (f : Nat → Word) : Prop :=
  let v := s.group g
  let v' := t.group g
  let n := w.dst.toNat
  let value (l : Nat) : Word := if wide then f l else ((f l).extractLsb' 0 32).setWidth 64
  let put (l : Nat) (old : Word) : Word := if acted.getLsbD l then value l else if zeroing w then 0 else old
  (∀ m l, l < 96 → (v'.vreg m).lane l =
      if isV w.dst = true ∧ m = n then (put l (((v.vreg m).lane l).setWidth 64)).extractLsb' 0 32
      else if isV w.dst = true ∧ wide = true ∧ m = n + 1 then (put l ((v.vreg m).lane l ++ 0#32)).extractLsb' 32 32
      else (v.vreg m).lane l)
  ∧ (∀ m l, m < 7 → l < 96 → (v'.pred m).getLsbD l =
      if isP w.dst = true ∧ m = n % 8 then decide (put l (boolWord ((v.pred m).getLsbD l)) ≠ 0) else (v.pred m).getLsbD l)
  ∧ (∀ m < 8, let old := tabGet {} v.bl m
      if w.cap = true ∧ m = w.latch.toNat then (tabGet {} v'.bl m).valid = true ∧ ∀ l < 96, (tabGet {} v'.bl m).data.getD l 0 = put l (old.data.getD l 0)
      else tabGet {} v'.bl m = old)
  ∧ (isQ w.dst = false → u.sameQueues t)
  ∧ (∀ q, isQ w.dst = true → s.boundQueue g (n % 16) = some q → (∀ p, p ≠ q → t.queue p = u.queue p) ∧ ∃ e : QEntry, e.filled = true
      ∧ (t.queue q).entries = (u.queue q).entries ++ [e]
      ∧ if (u.queue q).wide then ∀ l < 96, e.lanes.getD l 0 = if acted.getLsbD l then (f l).extractLsb' 0 32 else 0
        else (acted = 0 → e.value = 0) ∧ ∀ l < 96, acted.getLsbD l = true → (∀ m < l, acted.getLsbD m = false) → e.value = value l)

/-- The lanes that an instruction acts on in a split (R182, R183). -/
def State.acted (s : State) (g : GroupRef) (k : Fin 4) (w : LaneWord) : Mask := actedMask (s.group g) ((s.group g).split k.val).mask w

/-- A lane instruction that issues completes: its destination takes `f` of its operands lane by lane, and `p` holds of the operands and the next
state. -/
def State.laneYields (s : State) (g : GroupRef) (k : Fin 4) (i : Instr) (w : LaneWord) (f : (Fin 4 → Nat → Word) → Nat → Word)
    (p : (Fin 4 → Nat → Word) → State → Prop) : Prop :=
  ∀ pops u, s.laneMayIssue g k i w pops u →
    let v := s.operand g k i w pops
    s.does i fun t => s.laneLeaves u t g w (laneWides i w).dst (s.acted g k w) (f v) ∧ s.laneMoved t g k ∧ s.onlyLanes t g
      ∧ (t.group g).sc = (s.group g).sc ∧ p v t

/-- The floating-point control word after an instruction that takes `steps` steps of the LFSR and raises conditions (R142): its flags join, its LFSR has
stepped, and the rest is as before. -/
def State.fpcAfter (s t : State) (g : GroupRef) (steps : Nat) (raised : Nat → Prop) : Prop :=
  let c := (s.group g).fpc
  let c' := (t.group g).fpc
  bitsOf c' 3 0 = bitsOf c 3 0 ∧ bitsOf c' 31 8 = bitsOf c 31 8 ∧ c'.extractLsb' 32 32 = lfsrStep^[steps] (c.extractLsb' 32 32)
    ∧ ∀ j < 4, c'.getLsbD (4 + j) = true ↔ (c.getLsbD (4 + j) = true ∨ raised j)

/-- A floating-point lane instruction completes: in each lane acted on, each of its `count` elements in turn is `el` of the mode, the LFSR's contribution,
the operands, the lane and the element, and the lane's value is `pack` of them; under the stochastic mode an instruction that rounds steps the
LFSR before each element, lane after lane (R123, R124, R206). -/
def State.laneFloats (s : State) (g : GroupRef) (k : Fin 4) (i : Instr) (w : LaneWord) (rounds : Bool) (count : Nat) (pack : Nat → List Nat → Word)
    (el : Nat → Nat → (Fin 4 → Nat → Word) → Nat → Nat → Nat × Conds) : Prop :=
  let acted := s.acted g k w
  let mode := laneRnd (s.group g) w
  let stoch := rounds && mode == 6
  let lf : W32 := (s.group g).fpc.extractLsb' 32 32
  let before (l : Nat) : Nat := (List.range l).countP fun m => acted.getLsbD m
  let r (l e : Nat) : Nat := lfsrR (lfsrStep^[if stoch then count * before l + e + 1 else 0] lf)
  let one (v : Fin 4 → Nat → Word) (l e : Nat) : Nat × Conds := el mode.toNat (r l e) v l e
  s.laneYields g k i w (fun v l => pack l ((List.range count).map fun e => (one v l e).1)) fun v t =>
    s.fpcAfter t g (if stoch then count * before 96 else 0) fun j =>
      ∃ l e, l < 96 ∧ e < count ∧ acted.getLsbD l = true ∧ (one v l e).2.getLsbD j = true

/-- A lane access of a split to global addresses has been sent: the group's operations in flight are those of before and one more, with an access
for each lane acted on in increasing order, of stores to one address the last lane's alone; its queue destination has an entry reserved for it; and the registers are as before (R280, R281, R323). -/
def State.sentLanes (s u t : State) (g : GroupRef) (k : Fin 4) (w : LaneWord) (kind : AccKind) (n : Nat) (va value expect : Nat → Word)
    (dest : AccDest) (order : BitVec 2) (scope : BitVec 3) : Prop :=
  (∃ o : MemOp, (t.group g).sc.memq = (s.group g).sc.memq ++ [o] ∧ o.kind = kind ∧ o.width = n ∧ o.got = [] ∧ o.dest = dest ∧ o.order = order
    ∧ o.scope = scope ∧ o.split = some k
    ∧ o.accs = ((maskLanes (s.acted g k w)).filter fun l =>
        kind != .store || (maskLanes (s.acted g k w)).all fun m => decide (m ≤ l) || va m != va l).map (fun l =>
        { lane := l, place := .global (s.agentAsid s.cur) (va l), value := value l, expect := expect l : LaneAcc })
    ∧ ∀ q, t.queue q = if dest ≠ .none ∧ isQ w.dst = true ∧ s.boundQueue g (w.dst.toNat % 16) = some q
        then { u.queue q with entries := (u.queue q).entries ++ [{ filled := false, op := o.id }] } else u.queue q)
  ∧ s.laneMoved t g k ∧ s.onlyLanes t g ∧ (∀ m l, ((t.group g).vreg m).lane l = ((s.group g).vreg m).lane l) ∧ (t.group g).p = (s.group g).p
  ∧ (t.group g).bl = (s.group g).bl ∧ (t.group g).fpc = (s.group g).fpc ∧ (∀ r, (t.group g).sc.read r = (s.group g).sc.read r)
  ∧ (t.group g).sc.spc = (s.group g).sc.spc

end Sys2Proof.Machine
end

