-- ==== Sys2Proof/WellFormed.lean ====
section
/-! DEFINITION. Which instructions are well formed: those whose words raise no fault by their encoding alone (R69 to R82). The
checks themselves stand in `Decode.lean`. -/

namespace Sys2Proof

/-- An instruction whose words raise no encoding fault. An event has no words; an unassigned word is well formed as a word that
names no instruction only when the decoder reads it so. -/
def Instr.wellFormed (i : Instr) : Bool :=
  match i with
  | .unassignedInstruction w =>
    match decodeScalar w with
    | .ok (.unassignedInstruction _) => true
    | _ => false
  | i => (encodingFault i).isNone

end Sys2Proof
end

