-- ==== Sys2Proof/Certificates/Slice0/Obligations.lean ====
section
/-! DEFINITION. The statements about the model. Each docstring names the rules of the spec that a statement formalises, or says that it rests on
a choice of the model and names the log entry. -/

open Sys2Proof Sys2Proof.Machine

/-! ### Words, decoding and steps -/

/-- R67 to R72, R74, R84: words of the spec's examples and the instructions that they hold. -/
def Obligations.DecodedWords : Prop :=
  decodeScalar 0x0871BFFC = .ok (.addi 7 6 0x3FFC) ∧ decodeScalar 0x0481C700 = .ok (.add 8 7 7)
  ∧ decodeScalar 0x30503FFD = .ok (.bne 5 0 0x3FFD) ∧ decodeScalar 0x5C00001E = .ok (.fence 3 6)
  ∧ decodeScalar 0x84000020 = .ok .exit ∧ decodeScalar 0x6860C010 = .ok (.lput 70 3)
  ∧ decodeScalar 0x547137FE = .ok (.sts 7 4 6 0x7FE) ∧ decodeScalar 0x588109F5 = .ok (.amos 8 4 9 7 2 5)
  ∧ decodeScalar 0x7C024030 = .ok (.mwaitReg 9) ∧ decodeScalar 0x88A00160 = .ok (.qpeekPop 10 0)
  ∧ decodeScalar 0xC08A0001 = .ok (.tkclaimAcq 8 40 0) ∧ decodeScalar 0x96A00441 = .ok (.sysrd 42 0x441)
  ∧ decodeLaneWords [0x00400605, 0xFDFE3200, 0x00000001]
      = some (.ok (.iadd { pre := none, typ := 0, nwb := false, dst := 3, sa := 2, sb := 0xFE, sc := 0xFF, modf := 1, cap := true, latch := 1, mbz := 0, imm := 1 }))
  ∧ decodeLaneWords [0xF21FE000, 0xB1400C05, 0xFFFE0000, 0x00000000]
      = some (.ok (.ld 5 { pre := some { pred := 1, zero := false, rnd := 0, d := 0xFF, low := 0 }, typ := 0, nwb := false, dst := 6, sa := 2, sb := 0xFF,
                           sc := 0xFF, modf := 0, cap := false, latch := 0, mbz := 0, imm := 0 }))

/-- The scalar half of R67 to R72: what the encoder writes the decoder reads back, and every word that the decoder accepts is the word of
what it read. -/
def Obligations.ScalarWordsRoundTrip : Prop :=
  (∀ (i : Instr) (w : W32), i.wellFormed → encodeScalar i = some w → decodeScalar w = .ok i)
  ∧ ∀ (w : W32) (i : Instr), decodeScalar w = .ok i → encodeScalar i = some w

/-- R74, R81, R84: the words of every lane instruction, with or without a prefix and with every field at every value, decode to it; and what the
decoder reads as a lane instruction has the words that it was read from. -/
def Obligations.LaneWordsRoundTrip : Prop :=
  (∀ i : Instr, (laneOpcode i).isSome → decodeLaneWords (encode i) = some (.ok i))
  ∧ ∀ (ws : List W32) (i : Instr), decodeLaneWords ws = some (.ok i) → (laneOpcode i).isSome → encode i = ws.take (encode i).length

/-- R58, R63, R73: a turn of a scalar stream that may issue, whose word the cluster holds, is the meaning of the decoded word, the word and the
agent set down; what an issue is charged follows it, then the count of the cclk for the puppet slot's claim (R47), what had issued and waited, and
what the units of the module do of themselves. A word that decodes to no instruction raises its fault. A puppet slot that has been held out
for seven cclk has the first claim and is left out here. -/
def Obligations.StepRunsScalarWord : Prop :=
  ∀ (s : State) (n : Nat) (m : Mover) (f : Fetcher) (rest : List Turn) (w : W32),
    s.schedule = ⟨n, m⟩ :: rest → ((∃ g, m = .scalar g ∧ f = .scalar g) ∨ ∃ c, m = .puppet c ∧ f = .puppet c) →
    let s' := ({ s with schedule := rest }).passTicks n
    let a := fetcherAgent f
    let after (t : State) : State :=
      match f with
      | .scalar g => ((s'.afterScalar f t).countStarve g.at).goOn
      | _ => (s'.afterScalar f t).goOn
    s'.scalarMay f = true → s'.fetchAt a (codeAddr (s'.scOf a).spc) = some w → (∀ g, f = .scalar g → (s'.core g.at).starve < 7) →
    (∀ i, decodeScalar w = .ok i → step s = settled (andThen (exec i { s' with cur := a, word := w }) after))
    ∧ ∀ e, decodeScalar w = .error e →
      step s = .next (after (({ s' with cur := a, word := w } : State).raise (wordFault w (agentPuppet a) e))).settleAll

/-- R43, R58, R65: a turn of a lane stream whose first candidate split has its instruction at hand, and whose instruction issues, is the
meaning of that instruction for that split, with its charge, the search for starving lanes and the count of the splits passed over; and a turn
of an event is the meaning of the event. With nothing scheduled one ptick passes. -/
def Obligations.StepRunsLaneAndEvent : Prop :=
  (∀ (s : State) (n : Nat) (g : GroupRef) (rest : List Turn) (k : Fin 4) (ks : List Nat) (ws : List W32) (i : Instr) (t : State),
    s.schedule = ⟨n, .lane g⟩ :: rest →
    let s' := ({ s with schedule := rest }).passTicks n
    let u := (t.laneHasIssued g k (s'.group g) i).modGroup g Group.demote
    s'.laneMay g = true → (s'.group g).block.isSome → (s'.group g).candidates = k.val :: ks → ((s'.group g).split k.val).wait ≠ .fetch →
    s'.laneFetch g k = .ok ws → decodeLaneWords ws = some (.ok i) →
    exec i { s' with cur := .lane g k, word := leadWord ws } = .next t → s'.laneWentOn t g = true → s'.laneActed u g = true →
    step s = .next ((u.modGroup g fun v => v.passOver k.val (ks.filter (s'.splitReady g))).goOn.settleAll))
  ∧ (∀ (s : State) (n : Nat) (i : Instr) (rest : List Turn), s.schedule = ⟨n, .event i⟩ :: rest →
    step s = settled (andThen (exec i { ({ s with schedule := rest } : State).passTicks n with cur := .none, word := 0 }) State.goOn))
  ∧ ∀ s : State, s.schedule = [] → step s = .next s.tick.goOn.settleAll

/-! ### Scalar arithmetic, branches and calls -/

/-- R148, with R137: what each instruction of major 0x01 leaves in its destination, with x and y its sources: nothing else changes but
the position of the stream. -/
def Obligations.ScalarArithmetic : Prop :=
  ∀ (s : State) (d a b : BitVec 6),
    let x := s.sreg a
    let y := s.sreg b
    (s.canIssue [a, b] [d] →
      s.gives (.add d a b) d (x + y) ∧ s.gives (.sub d a b) d (x - y) ∧ s.gives (.and d a b) d (x &&& y)
      ∧ s.gives (.or d a b) d (x ||| y) ∧ s.gives (.xor d a b) d (x ^^^ y)
      ∧ s.gives (.shl d a b) d (x <<< (y.toNat % 64)) ∧ s.gives (.shr d a b) d (x >>> (y.toNat % 64))
      ∧ s.gives (.sra d a b) d (BitVec.ofInt 64 (x.toInt / 2 ^ (y.toNat % 64)))
      ∧ s.gives (.mul d a b) d (x * y)
      ∧ s.gives (.mulh d a b) d (BitVec.ofInt 64 (x.toInt * y.toInt / 2 ^ 64))
      ∧ s.gives (.mulhn d a b) d (BitVec.ofNat 64 (x.toNat * y.toNat / 2 ^ 64))
      ∧ s.gives (.div d a b) d (if y = 0 then -1 else BitVec.ofInt 64 (x.toInt.tdiv y.toInt))
      ∧ s.gives (.divn d a b) d (if y = 0 then BitVec.allOnes 64 else BitVec.ofNat 64 (x.toNat / y.toNat))
      ∧ s.gives (.rem d a b) d (if y = 0 then x else BitVec.ofInt 64 (x.toInt - y.toInt * x.toInt.tdiv y.toInt))
      ∧ s.gives (.remn d a b) d (if y = 0 then x else BitVec.ofNat 64 (x.toNat % y.toNat))
      ∧ s.gives (.min d a b) d (if x.toInt ≤ y.toInt then x else y) ∧ s.gives (.max d a b) d (if x.toInt ≤ y.toInt then y else x)
      ∧ s.gives (.minn d a b) d (if x.toNat ≤ y.toNat then x else y) ∧ s.gives (.maxn d a b) d (if x.toNat ≤ y.toNat then y else x)
      ∧ s.gives (.slt d a b) d (if x.toInt < y.toInt then 1 else 0) ∧ s.gives (.sltn d a b) d (if x.toNat < y.toNat then 1 else 0)
      ∧ s.gives (.seq d a b) d (if x = y then 1 else 0))
    ∧ (s.canIssue [a] [d] →
      (∃ n ≤ 64, s.gives (.clz d a) d (BitVec.ofNat 64 n) ∧ (∀ i < n, x.getLsbD (63 - i) = false) ∧ (n < 64 → x.getLsbD (63 - n) = true))
      ∧ (∃ n ≤ 64, s.gives (.ctz d a) d (BitVec.ofNat 64 n) ∧ (∀ i < n, x.getLsbD i = false) ∧ (n < 64 → x.getLsbD n = true))
      ∧ s.gives (.popc d a) d (BitVec.ofNat 64 ((List.range 64).countP fun i => x.getLsbD i)))
    ∧ (s.canIssue [d, a, b] [d] → s.gives (.sel d a b) d (if s.sreg d ≠ 0 then x else y))

/-- R149 and R150: the immediate forms and the scaled add. -/
def Obligations.ScalarImmediates : Prop :=
  ∀ (s : State) (d a b : BitVec 6) (i : BitVec 14) (sh : BitVec 6) (j : BitVec 20) (k : BitVec 3),
    let x := s.sreg a
    (s.canIssue [a] [d] →
      s.gives (.addi d a i) d (x + i.signExtend 64) ∧ s.gives (.andi d a i) d (x &&& i.setWidth 64)
      ∧ s.gives (.ori d a i) d (x ||| i.setWidth 64) ∧ s.gives (.xori d a i) d (x ^^^ i.setWidth 64)
      ∧ s.gives (.shli d a sh) d (x <<< sh.toNat) ∧ s.gives (.shri d a sh) d (x >>> sh.toNat)
      ∧ s.gives (.srai d a sh) d (BitVec.ofInt 64 (x.toInt / 2 ^ sh.toNat))
      ∧ s.gives (.slti d a i) d (if x.toInt < i.toInt then 1 else 0))
    ∧ (s.canIssue [] [d] → s.gives (.ldi d j) d (j.signExtend 64))
    ∧ (s.canIssue [d] [d] → s.gives (.ldu d j) d ((s.sreg d <<< 20) ||| j.setWidth 64))
    ∧ (s.canIssue [a, b] [d] → s.gives (.adda d a b k) d (x + (s.sreg b <<< k.toNat)))

/-- R151, R152 and R153: where each branch, call and jump goes, and what `call` and `callr` leave in `lk`. -/
def Obligations.ScalarTransfers : Prop :=
  ∀ (s : State) (a b : BitVec 6) (off : BitVec 14) (far : BitVec 26),
    let x := s.sreg a
    let y := s.sreg b
    let target : Word := s.spc + BitVec.ofInt 64 (4 * off.toInt)
    let next : Word := s.spc + 4
    let clear (v : Word) : Word := BitVec.ofNat 64 (v.toNat / 4 * 4)
    let calls (i : Instr) (pc : Word) : Prop :=
      ∃ t, exec i s = .next t ∧ s.onlyScalarSide t ∧ t.spc = pc ∧ (∀ r, t.sreg r = if r = 63 then next else s.sreg r)
        ∧ ∀ n, memGet t.mem n = memGet s.mem n
    (s.canIssue [a, b] [] →
      s.goesTo (.beq a b off) (if x = y then target else next) ∧ s.goesTo (.bne a b off) (if x = y then next else target)
      ∧ s.goesTo (.blt a b off) (if x.toInt < y.toInt then target else next) ∧ s.goesTo (.bge a b off) (if y.toInt ≤ x.toInt then target else next)
      ∧ s.goesTo (.bltn a b off) (if x.toNat < y.toNat then target else next) ∧ s.goesTo (.bgen a b off) (if y.toNat ≤ x.toNat then target else next))
    ∧ (s.canIssue [] [] → s.goesTo (.br far) (s.spc + BitVec.ofInt 64 (4 * far.toInt)))
    ∧ (s.canIssue [] [63] → calls (.call far) (s.spc + BitVec.ofInt 64 (4 * far.toInt)))
    ∧ (s.canIssue [a] [] → s.goesTo (.jr a) (clear x))
    ∧ (s.canIssue [a] [63] → calls (.callr a) (clear x))
    ∧ (s.canIssue [63] [] → s.goesTo .ret (clear (s.sreg 63)))

/-! ### Faults of scalar words -/

/-- R56, R73, R166, R419, R420: in a group `trap` raises the software-trap fault with its code, a word that encodes no instruction raises
illegal-instruction, and a word of the puppet slot raises privilege: precisely, at the word, with what the stop record will say of it. -/
def Obligations.GroupFaultsOfWords : Prop :=
  ∀ (s : State) (g : GroupRef) (d a b : BitVec 6) (code : BitVec 12) (w : W32),
    s.cur = .scalar g → (s.group g).faultCode = 0 →
    let raised (i : Instr) (c : BitVec 8) (addr : Word) (word : W32) : Prop := s.does i fun t =>
      (t.group g).faultCode = c ∧ (t.group g).faultPrec = true ∧ (t.group g).faultLane = false ∧ (t.group g).faultAddr = addr
        ∧ (t.group g).faultInstr = word ∧ (t.group g).sc.spc = (s.group g).sc.spc ∧ s.sameMemory t
    raised (.trap code) 0x0E (code.setWidth 64) s.word ∧ raised (.unassignedInstruction w) 0x01 0 w
    ∧ ∀ i ∈ [Instr.tkclaimCount d a b, .tkclaimAcq d a b, .tkclaimRel d a b, .gplace d a b, .gplaceRel d a b, .qslotMap d a b, .qslotUnmap d a b,
             .qslotStat d a b, .rcbld d a, .rcbldBw d a, .evwait d, .evwaitPoll d, .iret, .opreq d a, .prcmsg d a],
        raised i 0x05 0 s.word

/-- R167, R168, R169: a fault in the puppet slot writes `CORE.PEPC` and `CORE.PCAUSE` with NEST = 1 and enters the handler at `CORE.PHVEC`; with
NEST = 1 already the agent stops where it stands. `trap` enters with cause 0x0A; an unassigned word, and the words that the puppet slot
has no unit for, with cause 0x01. -/
def Obligations.PuppetFaultEntry : Prop :=
  ∀ (s : State) (c : CoreRef) (d a b : BitVec 6) (code : BitVec 12) (w : W32) (n : BitVec 7) (q id : BitVec 4) (off : BitVec 14),
    s.cur = .puppet c →
    let enters (i : Instr) (cause : Nat) : Prop := s.does i fun t =>
      t.coreReg c 0x105 = s.spc
      ∧ t.coreReg c 0x103 = BitVec.ofNat 64 (cause + 256 + s.now.toNat % 2 ^ 48 * 65536)
      ∧ (if (s.coreReg c 0x103).getLsbD 8 then t.spc = s.spc ∧ (t.core c).puppet.stopped = true
         else t.spc = s.coreReg c 0x104 ∧ (t.core c).puppet.stopped = (s.core c).puppet.stopped)
      ∧ (t.core c).puppet.events = (s.core c).puppet.events ∧ s.sameRegs t ∧ s.sameMemory t ∧ (∀ g, t.group g = s.group g) ∧ t.halts = s.halts
    enters (.trap code) 0x0A ∧ enters (.unassignedInstruction w) 0x01
    ∧ ∀ i ∈ [Instr.lrun a off, .lput n a, .lputW n a, .lget d n b, .lgetW d n b, .lsync, .vgrow d a, .vgrowW d a, .vshrink d a, .bar a id, .barNb a id,
             .trigger, .exit, .yield, .sigrst, .mloop a a b false false 0 0, .mvec a a 0 0 0 0, .mzero 0, .mload a false 0, .mdrain a b 0 0,
             .mcvt 0 false 0 b 0, .mstat d false 0, .mstatClr d 0, .mfence d, .mwaitImm 0, .mwaitReg a, .mready a, .qcfg d a, .qmap d a, .qlen d q,
             .qpeek d q, .qpeekPop d q, .qpeekPush a q, .qflush d q, .xpair d a b],
        enters i 0x01

/-! ### The lane queue -/

/-- R154 to R158, R166: `lrun`, `lput`, `lget` and `sigrst` each append one entry, with what they read at issue; `lget` makes its register a
pending token unless it is `s0`; while the queue holds 16 entries the stream stalls at the word; `lsync` goes on once the lane
queue is empty and the lane stream idle. -/
def Obligations.LaneQueueWords : Prop :=
  ∀ (s : State) (g : GroupRef) (d a b : BitVec 6) (n : BitVec 7) (off : BitVec 14),
    s.cur = .scalar g →
    let v := s.group g
    let appends (i : Instr) (e : LaneEntry) (pend : Option (BitVec 6)) : Prop :=
      if v.lq.length < 16 then
        s.does i fun t => s.passedWord t ∧ (t.group g).lq = v.lq ++ [e] ∧
          ∀ r, (t.group g).sc.pend.getLsbD r = (v.sc.pend.getLsbD r || decide (∃ d ∈ pend, d ≠ 0 ∧ d.toNat = r))
      else s.does i fun t => s.heldAt t ∧ (t.group g).lq = v.lq ∧ (t.group g).sc.pend = v.sc.pend ∧ (t.group g).sc.wait = .stall
    (s.canIssue [a, 60, 61, 62] [] →
      appends (.lrun a off)
        (.block (BitVec.ofNat 64 ((s.sreg a + BitVec.ofInt 64 (4 * off.toInt)).toNat / 4 * 4))
          ((s.sreg 62).extractLsb' 0 32 ++ (s.sreg 61).extractLsb' 0 32 ++ (s.sreg 60).extractLsb' 0 32) (v.fpc.extractLsb' 0 3)) none)
    ∧ (s.canIssue [a] [] →
        (n.toNat < v.nreg → appends (.lput n a) (.lput n false (s.sreg a)) none)
        ∧ (n.toNat % 2 = 0 → n.toNat + 1 < v.nreg → appends (.lputW n a) (.lput n true (s.sreg a)) none))
    ∧ (s.canIssue [b] [d] →
        (n.toNat < v.nreg → appends (.lget d n b) (.lget d n false (s.sreg b)) (some d))
        ∧ (n.toNat % 2 = 0 → n.toNat + 1 < v.nreg → appends (.lgetW d n b) (.lget d n true (s.sreg b)) (some d)))
    ∧ appends .sigrst .sigrst none
    ∧ (if v.lq = [] ∧ v.block = none then s.does .lsync s.passedWord
       else s.does .lsync fun t => s.heldAt t ∧ (t.group g).sc.wait = .lsync)

/-- R39, R156, R157, R166, R202: what the lane stream does with the entry that it takes: a block starts with split 0 at its start and the initial
mask, and an empty mask ends it at once; `lput` writes every lane of the register, and of its partner with `.w`; `lget` writes its
register with the lane's value, which is 0 at or beyond lane 96, and ends its pending state; `sigrst` sets `GRP.SIG` to 0. -/
def Obligations.LaneQueueEntriesTaken : Prop :=
  ∀ (s : State) (g : GroupRef) (rest : List LaneEntry),
    let v := s.group g
    v.st = .active → v.block = none → v.sc.memq = [] →
    (∀ addr m rnd, v.lq = .block addr m rnd :: rest → s.does (.laneBlockStart g) fun t =>
      (t.group g).lq = rest ∧
        (if m = 0 then (t.group g).block = none
         else (∃ b, (t.group g).block = some b ∧ b.addr = addr ∧ b.mask = m ∧ b.rnd = rnd ∧ b.finished = 0) ∧ (t.group g).waiting = []
           ∧ ((t.group g).split 0).used = true ∧ ((t.group g).split 0).pc = 0 ∧ ((t.group g).split 0).mask = m
           ∧ ((t.group g).split 0).bh = 0x9E3779B9 ∧ ∀ k, k ≠ 0 → ((t.group g).split k).used = false))
    ∧ (∀ n wide x, v.lq = .lput n wide x :: rest → s.does (.lputEntryTaken g) fun t =>
      (t.group g).lq = rest ∧ (∀ l, (t.group g).laneOf n.toNat wide l = if wide then x else (x.extractLsb' 0 32).setWidth 64)
        ∧ (∀ m l, m ≠ n.toNat → (wide = true → m ≠ n.toNat + 1) → ((t.group g).vreg m).lane l = (v.vreg m).lane l)
        ∧ (t.group g).sc = v.sc ∧ (t.group g).p = v.p ∧ s.sameMemory t)
    ∧ (∀ d n wide l, v.lq = .lget d n wide l :: rest → s.does (.lgetEntryTaken g) fun t =>
      (t.group g).lq = rest
        ∧ (∀ r, (t.group g).sc.read r = if r = d ∧ d ≠ 0 then storedIn d (if 96 ≤ l.toNat then 0 else v.laneOf n.toNat wide l.toNat) else v.sc.read r)
        ∧ (d ≠ 0 → (t.group g).sc.pend.getLsbD d.toNat = false)
        ∧ (∀ m k, ((t.group g).vreg m).lane k = (v.vreg m).lane k) ∧ s.sameMemory t)
    ∧ (v.lq = .sigrst :: rest → s.does (.sigrstEntryTaken g) fun t =>
      (t.group g).lq = rest ∧ (t.group g).sig = 0 ∧ (t.group g).sc = v.sc ∧ (t.group g).v = v.v ∧ s.sameMemory t)

/-- R43, R198: with waiting lanes and no record freed in the last 4,096 lane instructions of the group, the record held longest takes the waiting
lanes of the lowest program counter, and its own lanes wait at theirs; the checks of R42 follow. A joining split becomes ready when 4,096 lane instructions of the group have issued since it was marked. -/
def Obligations.SplitStarvationAndJoin : Prop :=
  ∀ (s : State) (g : GroupRef) (k : Fin 4),
    let v := s.group g
    (∀ pc o, o < 4 → v.freedN + 4096 ≤ v.laneN → (∀ j, j < 4 → (v.split j).used = true ∧ (v.split j).atEnd = false) →
      (∀ i j, i < 4 → j < 4 → i ≠ j → (v.split i).pc ≠ (v.split j).pc) → (∀ j l, j < 4 → tabFind v.waiting l ≠ some (v.split j).pc) →
      (∃ l, tabFind v.waiting l = some pc) → (∀ e ∈ v.waiting, e.1 < 96 ∧ pc ≤ e.2) →
      (∀ j, j < 4 → j ≠ o → (v.split o).taken < (v.split j).taken ∨ (v.split o).taken = (v.split j).taken ∧ o < j) →
      let x := v.split o
      s.does (.splitStarvationDemote g) fun t =>
        ((t.group g).split o).used = true ∧ ((t.group g).split o).pc = pc ∧ ((t.group g).split o).taken = v.laneN
          ∧ (∀ l, l < 96 → ((t.group g).split o).mask.getLsbD l = decide (tabFind v.waiting l = some pc))
          ∧ (∀ l, l < 96 → tabFind (t.group g).waiting l
              = if x.mask.getLsbD l then some x.pc else if tabFind v.waiting l = some pc then none else tabFind v.waiting l)
          ∧ (∀ j, j < 4 → j ≠ o → (t.group g).split j = v.split j)
          ∧ (t.group g).freedN = v.laneN ∧ (t.group g).sc = v.sc ∧ (t.group g).v = v.v ∧ s.sameMemory t)
    ∧ (∀ n, (v.split k.val).used = true → (v.split k.val).join = some n → n + 4096 ≤ v.laneN → (v.split k.val).atEnd = false → v.heldOf k.val = none →
      s.does (.joinTimeout g k) fun t => k.val ∈ (t.group g).candidates ∧ ((t.group g).split k.val).joinOk = true
        ∧ ((t.group g).split k.val).pc = (v.split k.val).pc
        ∧ ((t.group g).split k.val).mask = (v.split k.val).mask ∧ (t.group g).sc = v.sc ∧ s.sameMemory t)


/-! ### Scalar memory -/

/-- R263, R276, R277, R282: a scalar access to a global address that the L1 does not serve joins the accesses in flight, at its address
aligned, with what it stores; its destination awaits the reply and the stream goes on. `mwatch` arms the watch as well. -/
def Obligations.ScalarAccessesSent : Prop :=
  ∀ (s : State) (d a b : BitVec 6) (wid : BitVec 3) (off : BitVec 11) (op : BitVec 3) (order : BitVec 2) (scope : BitVec 3),
    let n : Nat := 2 ^ (wid.toNat / 2)
    let va : Word := BitVec.ofNat 64 ((s.sreg a + BitVec.ofInt 64 (off.toInt * (n : Int))).toNat / n * n)
    let va8 : Word := BitVec.ofNat 64 ((s.sreg a).toNat / 8 * 8)
    let noCopy (va : Word) : Prop := isGlobal va ∧ s.l1Line (agentCore s.cur) (s.agentAsid s.cur) (va.toNat / 64) = none
    (s.canIssue [a] [d] → wid ≠ 7 → noCopy va → s.does (.lds d a wid off) fun t => s.sentScalar t .load n va 0 0 (some d) 0 0)
    ∧ (s.canIssue [a, d] [] → wid.getLsbD 0 = false → isGlobal va → s.does (.sts d a wid off) fun t => s.sentScalar t .store n va (s.sreg d) 0 none 0 0)
    ∧ (s.canIssue [a, b, d] [d] → scope ≠ 0 → scope ≠ 7 → isGlobal va8 →
        s.does (.amos d a b op order scope) fun t => s.sentScalar t (.amo op true) 8 va8 (s.sreg b) (s.sreg d) (some d) order scope)
    ∧ (s.canIssue [a] [d] → noCopy va8 → s.does (.mwatch d a) fun t => s.sentScalar t .watch 8 va8 0 0 (some d) 0 0
        ∧ ∃ w, (t.scOf s.cur).watch = some w ∧ w.addr = va8)

/-- R260, R262, R276, R277: in the core scratchpad window, with no access in flight and no drain of the group that an `mwait` has still to cover, `lds` delivers its value at once, extended by its width
code, `sts` changes the bytes that it stores and no other, and `amos` leaves its new value and delivers the old one. -/
def Obligations.ScratchpadAccesses : Prop :=
  ∀ (s : State) (g : GroupRef) (w : Workgroup) (d a b : BitVec 6) (wid : BitVec 3) (off : BitVec 11) (op : BitVec 3) (order : BitVec 2) (scope : BitVec 3),
    s.cur = .scalar g → s.wgOf g = some w → (s.group g).sc.memq = [] → (s.group g).loose = [] → s.injectorOff →
    let c := g.at
    let k := (s.group g).wg
    let n : Nat := 2 ^ (wid.toNat / 2)
    let va := scalarAddr (s.sreg a) wid off
    let x := va.toNat - 0x00FF000000000000
    let va8 := alignTo 8 (s.sreg a)
    let x8 := va8.toNat - 0x00FF000000000000
    let within (va : Word) (n : Nat) : Prop := 0x00FF000000000000 ≤ va.toNat ∧ va.toNat - 0x00FF000000000000 + n ≤ w.spadLen ∧ w.spadLen ≤ 0x80000
    let value (x n : Nat) : Nat := bytesToNat (s.chipRead (.spad c k x) n)
    let holds (t : State) (x n : Nat) (v : Word) : Prop := ∀ y, t.chipRead (.spad c k y) 1
        = if x ≤ y ∧ y < x + n then [BitVec.ofNat 8 (v.toNat / 2 ^ (8 * (y - x)))] else s.chipRead (.spad c k y) 1
    let loaded : Word := if wid.getLsbD 0 then BitVec.ofNat 64 (value x n)
      else BitVec.ofInt 64 (if 2 ^ (8 * n - 1) ≤ value x n then (value x n : Int) - 2 ^ (8 * n) else value x n)
    (s.canIssue [a] [d] → wid ≠ 7 → within va n → s.does (.lds d a wid off) fun t =>
        (∀ r, t.sreg r = if r = d ∧ d ≠ 0 then storedIn d loaded else s.sreg r) ∧ t.spc = s.spc + 4 ∧ s.sameMemory t
          ∧ (t.group g).sc.loadPend.getLsbD d.toNat = false ∧ (t.group g).sc.memq = [] ∧ holds t x 0 0 ∧ (t.group g).v = (s.group g).v)
    ∧ (s.canIssue [a, d] [] → wid.getLsbD 0 = false → within va n → s.does (.sts d a wid off) fun t =>
        s.passedWord t ∧ holds t x n (s.sreg d) ∧ (t.group g).sc.memq = [] ∧ (t.group g).v = (s.group g).v)
    ∧ (s.canIssue [a, b, d] [d] → scope ≠ 0 → scope ≠ 7 → within va8 8 → order = 0 →
        let old : Word := BitVec.ofNat 64 (value x8 8)
        s.does (.amos d a b op order scope) fun t =>
          holds t x8 8 (match op.toNat with
            | 0 => old + s.sreg b
            | 1 => old &&& s.sreg b
            | 2 => old ||| s.sreg b
            | 3 => old ^^^ s.sreg b
            | 4 => if (s.sreg b).toInt < old.toInt then s.sreg b else old
            | 5 => if old.toInt < (s.sreg b).toInt then s.sreg b else old
            | 6 => s.sreg b
            | _ => if old = s.sreg d then s.sreg b else old)
          ∧ (∀ r, t.sreg r = if r = d ∧ d ≠ 0 then storedIn d old else s.sreg r) ∧ t.spc = s.spc + 4 ∧ s.sameMemory t)

/-- R265, R267, R276, R277, R310, R365: the oldest access in flight of an agent, to a page that its home maps into HBM, the links to the home being
UP and no ARTLOAD holding requests (R383), is performed there: a load or
atomic delivers the value that it finds, and its register no longer awaits it; a store or atomic changes the bytes that it writes and no
other byte. -/
def Obligations.AccessesPerformedAtHome : Prop :=
  ∀ (s : State) (f : Fetcher) (o : MemOp) (x : LaneAcc) (asid : W16) (va : Word) (pa : Nat) (hc : Bool) (i : SliceId),
    let a := fetcherAgent f
    (s.scOf a).memq = [o] → o.accs = [x] → o.got = [] → x.place = .global asid va → s.unparked a o = [x] →
    s.reach (s.agentPart a) asid va o.kind.code = .ok pa hc → targetOf pa = .hbm i → s.poisoned pa o.width (o.kind = .store) = false → s.injectorOff →
    s.homeOpen a (s.home (s.agentPart a) (va.toNat / 64)).1 = true →
    let old := s.hbmRead pa o.width
    let keeps (t : State) : Prop := s.sameMemory t
    let writes (t : State) (v : Word) : Prop := ∀ y, memGet t.mem y
        = if pa ≤ y ∧ y < pa + o.width then BitVec.ofNat 8 (v.toNat / 2 ^ (8 * (y - pa))) else memGet s.mem y
    let delivers (t : State) (d : BitVec 6) (v : Word) : Prop := (t.scOf a).memq = [] ∧ (t.scOf a).loadPend.getLsbD d.toNat = false
        ∧ ∀ r, (t.scOf a).read r = if r = d ∧ d ≠ 0 then storedIn d v else (s.scOf a).read r
    (∀ d, (o.kind = .load ∨ o.kind = .watch) → o.dest = .sreg d → s.does (.remoteLoadReply f 0) fun t => keeps t ∧ delivers t d (o.extend old 64))
    ∧ (o.kind = .store → o.dest = .none → s.does (.storePerformedAtHome f 0) fun t => writes t x.value ∧ (t.scOf a).memq = []
        ∧ ∀ r, (t.scOf a).read r = (s.scOf a).read r)
    ∧ (∀ d op sg, o.kind = .amo op sg → o.dest = .sreg d → o.order = 0 → s.does (.storePerformedAtHome f 0) fun t =>
        writes t (amoNew op sg o.width old x.value x.expect) ∧ delivers t d old)

/-- R282, R306, R312: a fence waits until the lane stream is idle; it then goes on, and unless what its order waits for has happened it stands among
the accesses in flight, ahead of those that issue after it. The times until which older copies may live are the model's own (log entry 149).
`mwaitv` answers at once with no watch armed, with another value, or past its deadline, and else waits. -/
def Obligations.FencesAndWatchWaits : Prop :=
  ∀ (s : State) (d a b : BitVec 6) (order : BitVec 2) (scope : BitVec 3),
    let c := s.scOf s.cur
    let idle : Prop := ∀ g, s.cur = .scalar g → (s.group g).lq = [] ∧ (s.group g).block = none
    let inNbh : Prop := ∃ g, s.cur = .scalar g ∧ (s.group g).nbh = true
    let cover : Word := if c.wait = .stall then c.cover else (s.core (agentCore s.cur)).cov
    let complete : Prop := (scope.toNat ≤ 2 ∨ scope = 3 ∧ ¬inNbh) ∨ (c.obs.toNat < s.now.toNat ∧ (cover = 0 ∨ cover.toNat < s.now.toNat)
      ∧ (scope.toNat ≤ 4 ∧ c.wct.toNat < s.now.toNat ∨ 4 < scope.toNat ∧ c.wct.toNat + 3 ≤ s.now.toNat))
    let done : Prop := if order = 0 then ∀ o ∈ c.memq, o.kind.returns = false ∧ o.kind ≠ .fence else c.memq = [] ∧ complete
    (s.canIssue [] [] → scope ≠ 0 → scope ≠ 7 →
      (¬idle → s.does (.fence order scope) fun t => s.heldAt t ∧ (t.scOf s.cur).wait = .stall)
      ∧ (idle → done → s.does (.fence order scope) fun t => s.passedWord t ∧ (t.scOf s.cur).memq = c.memq)
      ∧ (idle → ¬done → s.does (.fence order scope) fun t => s.passedWord t ∧ ∃ o : MemOp, (t.scOf s.cur).memq = c.memq ++ [o] ∧ o.kind = .fence
          ∧ o.order = order ∧ o.scope = scope ∧ o.accs = []))
    ∧ (s.canIssue [a, b] [d] → c.watch = none → s.gives (.mwaitv d a b) d (s.sreg b))
    ∧ (s.canIssue [a, b] [d] → c.memq = [] → s.injectorOff → ∀ (w : Watch) (pa : Nat) (hc : Bool) (i : SliceId), c.watch = some w → isGlobal w.addr →
        s.reach (s.agentPart s.cur) (s.agentAsid s.cur) w.addr 7 = .ok pa hc → targetOf pa = .hbm i → s.poisoned pa 8 false = false →
        s.homeOpen s.cur (s.home (s.agentPart s.cur) (w.addr.toNat / 64)).1 = true →
        let v := s.hbmRead pa 8
        s.does (.mwaitv d a b) fun t => s.sameMemory t ∧
          if v ≠ s.sreg b then t.spc = s.spc + 4 ∧ ∀ r, t.sreg r = if r = d ∧ d ≠ 0 then storedIn d v else s.sreg r
          else if s.sreg a ≠ 0 ∧ (s.sreg a).toNat ≤ s.now.toNat then t.spc = s.spc + 4 ∧ ∀ r, t.sreg r = if r = d ∧ d ≠ 0 then storedIn d (s.sreg b) else s.sreg r
          else s.heldAt t ∧ (t.scOf s.cur).wait = .monitor ∧ (t.scOf s.cur).deadline = s.sreg a)

/-- R45, R282, R283, R312: a stream that waits on a watch goes on when its word is found changed or its deadline passes, and a blocked group whose
stream does becomes ready. A stalled release goes on once nothing is in flight, and a fence leaves the accesses in flight once all before it is
over. -/
def Obligations.WatchAndReleaseWakes : Prop :=
  ∀ (s : State) (g : GroupRef) (c : CoreRef) (k : Fin 4) (f : Fetcher) (w : Watch) (pa : Nat) (hc : Bool) (i : SliceId),
    s.injectorOff → isGlobal w.addr → targetOf pa = .hbm i →
    let wakes (a : Agent) (i : Instr) : Prop := s.does i fun t =>
      (t.scOf a).wait = .none ∧ (t.scOf a).spc = (s.scOf a).spc ∧ (∀ r, (t.scOf a).read r = (s.scOf a).read r) ∧ s.sameMemory t
    let readied (i : Instr) : Prop := s.does i fun t => (t.group g).st = (if (s.group g).st = .blocked then .ready else (s.group g).st)
      ∧ (∀ r, (t.group g).sc.read r = (s.group g).sc.read r) ∧ s.sameMemory t
    let watched (a : Agent) (n : Nat) : Prop := (s.scOf a).memq = [] ∧ s.poisoned pa n false = false
      ∧ s.reach (s.agentPart a) (s.agentAsid a) w.addr 7 = .ok pa hc
      ∧ s.homeOpen a (s.home (s.agentPart a) (w.addr.toNat / 64)).1 = true
    (let a := Agent.scalar g
     (s.group g).sc.wait = .monitor → (s.group g).sc.watch = some w → watched a 8 → s.hbmRead pa 8 ≠ w.value →
      wakes a (.monitorWake (.scalar g)) ∧ wakes a (.watchReread (.scalar g)) ∧ readied (.monitorWake (.scalar g)) ∧ readied (.watchReread (.scalar g)))
    ∧ ((s.group g).sc.wait = .monitor → (s.group g).sc.deadline ≠ 0 → (s.group g).sc.deadline.toNat ≤ s.now.toNat →
        wakes (.scalar g) (.mwaitvDeadline (.scalar g)) ∧ readied (.mwaitvDeadline (.scalar g)))
    ∧ (let a := Agent.puppet c
       (s.core c).puppet.sc.wait = .monitor → (s.core c).puppet.sc.watch = some w → watched a 8 → s.hbmRead pa 8 ≠ w.value →
        wakes a (.monitorWake (.puppet c)) ∧ wakes a (.watchReread (.puppet c)))
    ∧ (∀ h dl, (s.group g).heldOf k.val = some h → h.kind = .watch dl → dl ≠ 0 → dl.toNat ≤ s.now.toNat → readied (.lwatchDeadline g k))
    ∧ (let a := fetcherAgent f
       ((s.scOf a).wait = .stall → (s.scOf a).memq = [] → wakes a (.writeCompleteAtScope f))
       ∧ ((s.scOf a).wait ≠ .stall → (∀ o ∈ (s.scOf a).memq.head?, o.kind ≠ .fence) → s.does (.writeCompleteAtScope f) fun t => t = s)
       ∧ ∀ o rest, (s.scOf a).memq = o :: rest → o.kind = .fence → o.order = 0 ∨ s.released a o = true → (∀ x ∈ rest.head?, x.kind ≠ .fence) →
          (s.scOf a).wait ≠ .stall → s.does (.writeCompleteAtScope f) fun t =>
            (t.scOf a).memq = rest ∧ (t.scOf a).spc = (s.scOf a).spc ∧ (∀ r, (t.scOf a).read r = (s.scOf a).read r) ∧ s.sameMemory t)


/-! ### Reset and memory -/

/-- R16, R18, R19, R23, R331, R333, R373, R389, R390, R397, R407, R416, R430, R446, R455, R460, R466, R467: what module power-on reset leaves: the time base 0, no core occupied and no
partition formed, every slice held in reset, and the registers whose reset value is not 0. That HBM reads as zero is the model's
choice (log entry 4). -/
def Obligations.ResetLeaves : Prop :=
  let s := State.reset
  s.now = 0 ∧ (∀ i, (s.slice i).held = true ∧ (s.slice i).cores = []) ∧ (∀ g, (s.group g).st = .free)
  ∧ (∀ p, s.partValid p = false ∧ s.pmap p = 0x100000 ∧ (s.part p).chip = []) ∧ s.prcReg 0x809 = 0xF ∧ s.halts = [] ∧ s.grids = [] ∧ s.asyncs = []
  ∧ (∀ i n, s.sliceReg i n =
      if n = 0x400 then 0x2D else if n = 0x422 then 1000000 else if n = 0x425 ∨ n = 0x426 ∨ n = 0x427 then 0x3E8100100 else if n = 0x42B then 1
      else if 0x484 ≤ n ∧ n ≤ 0x4E3 then 0x80080200 else if n = 0x4EA then 0x4000 else if 0x6B0 ≤ n ∧ n ≤ 0x6B7 then 0x14080
      else if 0x6B8 ≤ n ∧ n ≤ 0x6BF then 0x10810 else if 0x6C0 ≤ n ∧ n ≤ 0x705 then 0xFF8 else if 0x710 ≤ n ∧ n ≤ 0x755 then 0x1010001008
      else if n = 0x769 then 1 else 0)
  ∧ (∀ c n, s.coreReg c n = if n = 0x120 then 2000 else if n = 0x1A3 then 20000 else if n = 0x1B0 then 1 else 0)
  ∧ (∀ c r, (s.core c).puppet.sc.read r = 0) ∧ (∀ a, memGet s.mem a = 0) ∧ s.memoriesWf = true

/-- R2 (little-endian): a store of `n` bytes to HBM leaves byte `k` of the value at the k-th address from the first, every other byte as it was, and the
memory in its canonical form; and a read of `n` bytes finds the number. -/
def Obligations.HbmBytes : Prop :=
  ∀ (m : Memory) (a n x : Nat), Memory.wf m = true →
    let m' := memWriteLE m a n x
    Memory.wf m' = true ∧ (∀ y, memGet m' y = if a ≤ y ∧ y < a + n then BitVec.ofNat 8 (x / 2 ^ (8 * (y - a))) else memGet m y)
    ∧ memReadLE m' a n = x % 2 ^ (8 * n) ∧ ∀ m'', Memory.wf m'' = true → (∀ y, memGet m'' y = memGet m' y) → m'' = m'

/-- R2, with the canonical form in which the model keeps HBM and the chip scratchpads: from every state whose memories have the form, a step leads to one whose
memories have it. That reset has it is part of `ResetLeaves`. -/
def Obligations.MemoriesStayCanonical : Prop := ∀ s t : State, s.memoriesWf = true → step s = .next t → t.memoriesWf = true

/-! ### Queues, barriers and the end of a group -/

/-- R326, R328: the scalar queue instructions on a bound queue: `qlen` counts the filled entries, `qpeek` reads the head, `qpeek.pop` takes it,
`qpeek.push` appends, `qflush` discards what is filled; a pop of an empty queue and a push to a full one wait; an unbound name, and a push to
a 384-byte queue, are queue-misuse. A step that another waiter could take goes to the one that began to wait first (R327). -/
def Obligations.ScalarQueueWords : Prop :=
  ∀ (s : State) (g : GroupRef) (d a : BitVec 6) (n : BitVec 4) (q : CoreRef × Nat),
    s.cur = .scalar g → (s.group g).sc.popped = none →
    let v := s.queue q
    let first (dst : Option Nat) : Prop := s.queueHeld g (s.scalarNo g) (if dst.isSome then [] else [n.toNat]) dst = false
    let head (e : QEntry) : Word := if v.wide then e.lanes.getD 1 0 ++ e.lanes.getD 0 0 else e.value
    let filled := v.entries.filter (·.filled)
    let only (t : State) (es : List QEntry) : Prop :=
      (t.queue q).entries = es ∧ (t.queue q).depth = v.depth ∧ (∀ p, p ≠ q → t.queue p = s.queue p) ∧ s.sameLanes t
    (s.canIssue [] [d] → s.boundQueue g n.toNat = some q →
      s.yields (.qlen d n) d (BitVec.ofNat 64 filled.length) (fun t => only t v.entries)
      ∧ (v.entries = [] → s.yields (.qpeek d n) d 0 (fun t => only t [])
          ∧ s.does (.qpeekPop d n) fun t => s.heldAt t ∧ (t.group g).sc.wait = .queue ∧ only t [])
      ∧ (∀ e es, v.entries = e :: es → e.filled = true → s.yields (.qpeek d n) d (head e) (fun t => only t v.entries)
          ∧ (first none → s.yields (.qpeekPop d n) d (head e) (fun t => only t es)))
      ∧ (∀ e es, v.entries = e :: es → e.filled = false → first none → s.does (.qpeekPop d n) fun t =>
          s.heldAt t ∧ (t.group g).sc.wait = .stall ∧ (t.group g).sc.popped = some e ∧ only t es)
      ∧ s.yields (.qflush d n) d (BitVec.ofNat 64 filled.length) (fun t => only t (v.entries.filter fun e => !e.filled)))
    ∧ (s.canIssue [a] [] → s.boundQueue g n.toNat = some q → v.wide = false →
        (v.entries.length < v.depth → first (some n.toNat) → s.does (.qpeekPush a n) fun t => s.passedWord t ∧ only t (v.entries ++ [{ value := s.sreg a }]))
        ∧ (v.depth ≤ v.entries.length → s.does (.qpeekPush a n) fun t => s.heldAt t ∧ (t.group g).sc.wait = .queue ∧ only t v.entries))
    ∧ ((s.group g).faultCode = 0 → s.canIssue [a] [] → s.boundQueue g n.toNat = some q → v.wide = true → s.faults (.qpeekPush a n) g 0x0C)
    ∧ ((s.group g).faultCode = 0 → s.boundQueue g n.toNat = none →
        (s.canIssue [] [d] → ∀ i ∈ [Instr.qlen d n, .qpeek d n, .qpeekPop d n, .qflush d n], s.faults i g 0x0C)
        ∧ (s.canIssue [a] [] → s.faults (.qpeekPush a n) g 0x0C))

/-- R320, R321, R322: `qcfg` carves the lowest free queue when its request is valid and the scratchpad has room, and answers with its number or
with the first check that failed; `qmap` binds, replaces or unbinds a name once the lane stream is idle. A failed request changes
nothing. -/
def Obligations.QueueCarvingAndBinding : Prop :=
  ∀ (s : State) (g : GroupRef) (d a : BitVec 6),
    s.cur = .scalar g → s.canIssue [a] [d] →
    let x := s.sreg a
    let c := s.core g.at
    let depth := bitsOf x 12 0
    let size := (depth * (if x.getLsbD 16 then 384 else 8) + 31) / 32 * 32
    let invalid : Prop := depth = 0 ∨ 4096 < depth ∨ bitsOf x 15 13 ≠ 0 ∨ bitsOf x 63 17 ≠ 0
    let taken (n : Nat) : Prop := (tabGet {} c.hq n).carved = true
    let name := bitsOf x 3 0
    let kept (t : State) : Prop := s.sameQueues t ∧ (∀ n, t.boundQueue g n = s.boundQueue g n) ∧ s.sameLanes t
    (invalid → s.yields (.qcfg d a) d 0x8200 kept)
    ∧ (¬invalid → (∀ n < 16, taken n) → s.yields (.qcfg d a) d 0x8000 kept)
    ∧ (∀ n < 16, ¬invalid → ¬taken n → (∀ m < n, taken m) →
        (c.spadFree < size → s.yields (.qcfg d a) d 0x8100 kept)
        ∧ (size ≤ c.spadFree → s.yields (.qcfg d a) d (BitVec.ofNat 64 (0x100 + n)) fun t =>
            (t.queue (g.at, n)).carved = true ∧ (t.queue (g.at, n)).depth = depth ∧ (t.queue (g.at, n)).wide = x.getLsbD 16
              ∧ (t.queue (g.at, n)).entries = [] ∧ (t.queue (g.at, n)).owner = (s.group g).wg ∧ (∀ p, p ≠ (g.at, n) → t.queue p = s.queue p) ∧ s.sameLanes t))
    ∧ ((s.group g).lq = [] → (s.group g).block = none →
        let hq := bitsOf x 7 4
        let k := bitsOf x 12 8
        (bitsOf x 63 14 ≠ 0 → s.yields (.qmap d a) d 0x82 kept)
        ∧ (bitsOf x 63 14 = 0 → x.getLsbD 13 = false → s.nbhSize g ≤ k → s.yields (.qmap d a) d 0x82 kept)
        ∧ (bitsOf x 63 14 = 0 → x.getLsbD 13 = false → k < s.nbhSize g →
            (s.mayBind g (s.queue (s.kCore g k, hq)) = true → s.yields (.qmap d a) d 0x01 fun t =>
                t.boundQueue g name = some (s.kCore g k, hq) ∧ (∀ n, n ≠ name → t.boundQueue g n = s.boundQueue g n) ∧ s.sameQueues t ∧ s.sameLanes t)
            ∧ (s.mayBind g (s.queue (s.kCore g k, hq)) = false → s.yields (.qmap d a) d 0x83 kept))
        ∧ (bitsOf x 63 14 = 0 → x.getLsbD 13 = true → s.yields (.qmap d a) d 0x02 fun t =>
            t.boundQueue g name = none ∧ (∀ n, n ≠ name → t.boundQueue g n = s.boundQueue g n) ∧ s.sameQueues t ∧ s.sameLanes t))
    ∧ ((s.group g).lq ≠ [] ∨ (s.group g).block ≠ none → s.does (.qmap d a) fun t => s.heldAt t ∧ (t.group g).sc.wait = .lsync)

/-- R161, R162, R308: once its earlier accesses are complete at the scope, a group arrives at a barrier. The first arrival sets the count of
the generation; the arrival that completes it sends every waiter past its word and opens a new generation; else the group waits. -/
def Obligations.Barriers : Prop :=
  ∀ (s : State) (g : GroupRef) (w : Workgroup) (a : BitVec 6) (id : BitVec 4),
    s.cur = .scalar g → s.canIssue [a] [] → s.wgOf g = some w → (∀ n, w.nbh = some n → (tabFind s.nbhs n).isSome) → (s.group g).arrived = none →
    (s.group g).sc.tokWct = 0 →
    let arrives (i : Instr) (nb : Bool) : Prop :=
      let b := s.barrier g nb id.toNat
      let all := b.arrived ++ [g]
      let count := if b.arrived = [] then bitsOf (s.sreg a) 15 0 else b.count
      let complete : Prop := if count = 0 then (∀ h ∈ s.barrierGroups g nb, h ∈ all) ∧ ¬(nb = true ∧ s.nbhWaits g = true) else count ≤ all.length
      s.settledAt g (if nb then 3 else 2) → all.Nodup →
        (complete → s.does i fun t => s.sameMemory t ∧ (t.barrier g nb id.toNat).arrived = [] ∧ (t.barrier g nb id.toNat).gen = b.gen + 1
          ∧ ∀ h ∈ all, (t.group h).sc.spc = (s.group h).sc.spc + 4 ∧ (t.group h).sc.wait = .none ∧ (t.group h).arrived = none
              ∧ ∀ r, (t.group h).sc.read r = (s.group h).sc.read r)
        ∧ (¬complete → s.does i fun t => s.heldAt t ∧ (t.barrier g nb id.toNat).arrived = all ∧ (t.barrier g nb id.toNat).gen = b.gen
            ∧ (t.barrier g nb id.toNat).count = count ∧ (t.group g).arrived = some (id.toNat, nb, b.gen) ∧ (t.group g).sc.wait = .barrier)
    arrives (.bar a id) false ∧ arrives (.barNb a id) ((s.group g).nbh)

/-- R49, R53, R163: with everything earlier released at partition scope `trigger` sets TRIG; `yield` goes on and makes the group the youngest;
`exit` holds the stream, and completes when the lane stream is idle and every access and operation of the group is complete: the group has then
exited, and its slot is free when it was the last of its workgroup. -/
def Obligations.TriggerYieldExit : Prop :=
  ∀ (s : State) (g : GroupRef) (w : Workgroup),
    s.wgOf g = some w →
    let wgs (t : State) : Option Workgroup := tabFind (t.core g.at).wgs (s.group g).wg
    (s.cur = .scalar g → s.canIssue [] [] →
      (s.settledAt g 5 → s.does .trigger fun t => s.passedWord t ∧ (t.group g).trig = true ∧ s.sameLanes t)
      ∧ (s.does .yield fun t => s.passedWord t ∧ (t.group g).young = true ∧ (t.group g).st = (s.group g).st ∧ s.sameLanes t)
      ∧ (s.does .exit fun t => s.heldAt t ∧ (t.group g).exiting = true ∧ (t.group g).sc.wait = .stall ∧ s.sameLanes t))
    ∧ ((s.group g).exiting = true → (s.group g).sc.wait = .stall → (s.group g).st = .active ∨ (s.group g).st = .blocked → s.settledAt g 5 →
        s.asyncCount g = 0 → (s.group g).sc.engWct.toNat + 3 ≤ s.now.toNat →
        s.does (.exitComplete g) fun t => s.sameMemory t ∧
          ((∀ h ∈ s.slotsOf g.at, h ≠ g → (s.group h).wg = (s.group g).wg → (s.group h).resident = false) → (t.group g).st = .free ∧ wgs t = none)
          ∧ ((∃ h ∈ s.slotsOf g.at, h ≠ g ∧ (s.group h).wg = (s.group g).wg ∧ (s.group h).resident = true) → (t.group g).st = .exited ∧ (wgs t).isSome))

/-- R159, R160: a target that is no multiple of 8 in 8 to 128 answers 0; one that asks for nothing answers NREG; what fits in the pool is granted,
the new registers uniform and 0, and answers the target; else `vgrow` answers NREG and `vgrow.w` waits, for a grant when it fits or until
4,096 cclk have passed. `vshrink` lets the registers from the target on go. -/
def Obligations.RegisterPool : Prop :=
  ∀ (s : State) (g : GroupRef) (d a : BitVec 6),
    let v := s.group g
    let n := (s.sreg a).toNat
    let ok : Prop := n % 8 = 0 ∧ 8 ≤ n ∧ n ≤ 128
    let pool := (s.core g.at).regsFree
    let nreg : Word := BitVec.ofNat 64 v.nreg
    let kept (t : State) : Prop := (t.group g).nreg = v.nreg ∧ s.sameLanes t
    let grown (t : State) (n : Nat) : Prop := (t.group g).nreg = n ∧ (∀ m < v.nreg, (t.group g).vreg m = v.vreg m)
      ∧ (∀ m, v.nreg ≤ m → (t.group g).vreg m = { shape := .u, spill := 0 }) ∧ (t.group g).p = v.p ∧ (t.group g).bl = v.bl
    (s.cur = .scalar g → s.canIssue [a] [d] → v.nreg ≤ 128 →
      (¬ok → s.yields (.vgrow d a) d 0 kept ∧ (v.sc.wait ≠ .grow → s.yields (.vgrowW d a) d 0 kept))
      ∧ (ok → n ≤ v.nreg → s.yields (.vgrow d a) d nreg kept ∧ (v.sc.wait ≠ .grow → s.yields (.vgrowW d a) d nreg kept))
      ∧ (ok → v.nreg < n → n - v.nreg ≤ pool → s.yields (.vgrow d a) d (s.sreg a) (grown · n)
          ∧ (v.sc.wait ≠ .grow → s.yields (.vgrowW d a) d (s.sreg a) (grown · n)))
      ∧ (ok → v.nreg < n → pool < n - v.nreg → s.yields (.vgrow d a) d nreg kept
          ∧ (v.sc.wait ≠ .grow → s.does (.vgrowW d a) fun t => s.heldAt t ∧ (t.group g).want = n ∧ (t.group g).sc.wait = .grow ∧ kept t))
      ∧ (v.lq = [] → v.block = none →
          (¬ok → s.yields (.vshrink d a) d 0 kept) ∧ (ok → v.nreg ≤ n → s.yields (.vshrink d a) d nreg kept)
          ∧ (ok → n < v.nreg → s.yields (.vshrink d a) d (s.sreg a) fun t =>
              (t.group g).nreg = n ∧ (∀ m < n, (t.group g).vreg m = v.vreg m) ∧ (t.group g).p = v.p ∧ (t.group g).bl = v.bl)))
    ∧ (v.want ≠ 0 → v.sc.wait = .grow → v.sc.waitMask = d.setWidth 64 →
        let ends (i : Instr) (x : Nat) (p : State → Prop) : Prop := s.does i fun t =>
          (t.group g).want = 0 ∧ (t.group g).sc.spc = v.sc.spc + 4 ∧ (t.group g).sc.wait = .none
            ∧ (∀ r, (t.group g).sc.read r = if r = d ∧ d ≠ 0 then storedIn d (BitVec.ofNat 64 x) else v.sc.read r) ∧ s.sameMemory t ∧ p t
        (s.passed v.wantSince (s.cclkTicks g.slice 4096) = true → ends (.vgrowTimeout g) v.nreg kept)
        ∧ (s.passed v.wantSince (s.cclkTicks g.slice 4096) = false → v.want - v.nreg ≤ pool → s.askedBefore g = false →
            ends (.vgrowGrant g) v.want (grown · v.want)))


/-! ### The puppet slot -/

/-- R171: what `tkclaim` leaves at a ticket and answers, in each mode; a ticket outside the partition's chip scratchpad, or misaligned, enters the handler
with cause 0x05. The agent runs the image it is to run, and its earlier accesses are complete. -/
def Obligations.PuppetTickets : Prop :=
  ∀ (s : State) (c : CoreRef) (d a b : BitVec 6) (off : Nat),
    s.cur = .puppet c → s.canIssue [a, b] [d] →
    let p := s.partOf! c.slice
    let sc := (s.core c).puppet.sc
    bitsOf (s.coreReg c 0x1B0) 15 0 = bitsOf (s.part p).fwstat 31 16 → sc.memq = [] → sc.tokWct = 0 → s.streamReleased s.cur 5 = true →
    let old : Word := BitVec.ofNat 64 (bytesToNat (s.chipRead (.chip p off) 8))
    let id : Word := BitVec.ofNat 64 (c.slice.val * 144 + c.core.val + 1)
    let claims (i : Instr) (new res : Word) : Prop := s.yields i d res fun t =>
      BitVec.ofNat 64 (bytesToNat (t.chipRead (.chip p off) 8)) = new ∧ (∀ x, x + 8 ≤ off ∨ off + 8 ≤ x → t.chipRead (.chip p x) 8 = s.chipRead (.chip p x) 8)
        ∧ s.sameLanes t
    (s.ticketAt p (s.sreg a) = some off → off + 8 ≤ s.chipSize p →
      claims (.tkclaimCount d a b) (if old.toNat < (s.sreg b).toNat then old + 1 else old) old
      ∧ claims (.tkclaimAcq d a b) (if old = 0 then id else old) (if old = 0 then 0 else old)
      ∧ claims (.tkclaimRel d a b) (if old = id then 0 else old) (if old = id then 0 else old))
    ∧ (s.ticketAt p (s.sreg a) = none → ∀ i ∈ [Instr.tkclaimCount d a b, .tkclaimAcq d a b, .tkclaimRel d a b],
        s.does i fun t => bitsOf (t.coreReg c 0x103) 7 0 = 0x05 ∧ (t.coreReg c 0x103).getLsbD 8 = true ∧ t.coreReg c 0x105 = s.spc
          ∧ s.sameRegs t ∧ s.sameMemory t)

/-- R170, R172, R175: `gplace` takes the first clear rectangle among the cores offered and answers its position plus one, or 0; with release it
clears the rectangle; `evwait` takes the oldest event, or 0xFF after an overflow, or parks, or with poll answers 0; `iret` goes to
`CORE.PEPC` with NEST 0. -/
def Obligations.PuppetPlacesAndEvents : Prop :=
  ∀ (s : State) (c : CoreRef) (d a b : BitVec 6),
    s.cur = .puppet c →
    let map (t : State) : BitVec 24 := tabGet 0 (t.slice c.slice).occMap (c.core.val / 24)
    let w := bitsOf (s.sreg a) 2 0
    let h := bitsOf (s.sreg a) 5 3
    let shape : Prop := 1 ≤ w ∧ w ≤ 6 ∧ 1 ≤ h ∧ h ≤ 4
    let inRect (p j : Nat) : Prop := j < 24 ∧ p % 6 ≤ j % 6 ∧ j % 6 < p % 6 + w ∧ p / 6 ≤ j / 6 ∧ j / 6 < p / 6 + h
    let fits (p : Nat) : Prop := p < 24 ∧ p % 6 + w ≤ 6 ∧ p / 6 + h ≤ 4
      ∧ ∀ j, inRect p j → (s.sreg b).getLsbD j = true ∧ (map s).getLsbD j = false
    let p := (s.core c).puppet
    (s.canIssue [a, b] [d] →
      (¬shape ∨ (∀ q, ¬fits q) → s.yields (.gplace d a b) d 0 fun t => map t = map s)
      ∧ (∀ q, shape → fits q → (∀ r < q, ¬fits r) → s.yields (.gplace d a b) d (BitVec.ofNat 64 (q + 1)) fun t =>
          ∀ j < 24, (map t).getLsbD j = true ↔ ((map s).getLsbD j = true ∨ inRect q j))
      ∧ (¬shape → s.yields (.gplaceRel d a b) d 0 fun t => map t = map s)
      ∧ (∀ q, shape → bitsOf (s.sreg b) 4 0 = q → q % 6 + w ≤ 6 → q / 6 + h ≤ 4 → s.yields (.gplaceRel d a b) d 0 fun t =>
          ∀ j < 24, (map t).getLsbD j = true ↔ ((map s).getLsbD j = true ∧ ¬inRect q j)))
    ∧ (s.canIssue [] [d] →
        (p.overflow = true → ∀ i ∈ [Instr.evwait d, .evwaitPoll d], s.yields i d 0xFF fun t =>
          (t.core c).puppet.overflow = false ∧ (t.core c).puppet.events = p.events)
        ∧ (∀ e es, p.overflow = false → p.events = e :: es → ∀ i ∈ [Instr.evwait d, .evwaitPoll d], s.yields i d e fun t =>
            (t.core c).puppet.events = es)
        ∧ (p.overflow = false → p.events = [] → s.yields (.evwaitPoll d) d 0 (fun t => (t.core c).puppet.events = [])
            ∧ (s.anyMapped c.slice = false → s.does (.evwait d) fun t => s.heldAt t ∧ (t.core c).puppet.parked = true ∧ (t.core c).puppet.sc.wait = .event)))
    ∧ (s.canIssue [] [] → s.does .iret fun t => s.sameRegs t ∧ t.spc = s.coreReg c 0x105 ∧ (t.coreReg c 0x103).getLsbD 8 = false
        ∧ (∀ j < 64, j ≠ 8 → (t.coreReg c 0x103).getLsbD j = (s.coreReg c 0x103).getLsbD j) ∧ s.sameMemory t)

/-- R18, R170: `opreq` answers 0 and asks for nothing when a field is out of range, a slice is foreign, or the point is OP0; with a change in
progress on the executing slice its request waits, the latest winning, and it answers with `SLICE.OPSTAT`; a change that completes makes
the target the point. -/
def Obligations.OperatingPoints : Prop :=
  ∀ (s : State) (c : CoreRef) (d a : BitVec 6) (i : SliceId),
    let x := s.sreg a
    let st := s.sliceReg c.slice 0x400
    let asked (t : State) : Prop := ∀ k, t.sliceReg k 0x400 = s.sliceReg k 0x400 ∧ (t.slice k).opNext = (s.slice k).opNext
    (s.cur = .puppet c → s.canIssue [a] [d] →
      (bitsOf x 7 3 ≠ 0 ∨ bitsOf x 63 16 ≠ 0 ∨ bitsOf x 2 0 = 0 → s.yields (.opreq d a) d 0 asked)
      ∧ ((∃ k : SliceId, x.getLsbD (8 + k.val) = true ∧ s.member (s.partOf! c.slice) k = false) → s.yields (.opreq d a) d 0 asked)
      ∧ (bitsOf x 7 3 = 0 → bitsOf x 63 16 = 0 → bitsOf x 2 0 ≠ 0 → bitsOf x 15 8 = 0 → s.member (s.partOf! c.slice) c.slice = true →
          st.getLsbD 6 = true → s.yields (.opreq d a) d st fun t =>
            (t.slice c.slice).opNext = some (x.extractLsb' 0 3) ∧ t.sliceReg c.slice 0x400 = st))
    ∧ (let w := s.sliceReg i 0x400
       w.getLsbD 6 = true → (s.slice i).opNext = none → s.does (.opChangeComplete i) fun t =>
        bitsOf (t.sliceReg i 0x400) 2 0 = bitsOf w 5 3 ∧ (t.sliceReg i 0x400).getLsbD 6 = false ∧ s.sameMemory t ∧ ∀ g, t.group g = s.group g)

/-- R173, R174, R339: `qslot.map` answers 1 for a busy slot and 2 for a block that is misaligned or fails its check, and maps a block that passes,
with its directory entry naming it and no other slot holding its queue; `qslot.unmap` frees a slot, or answers 3; `qslot.stat` answers with the state word; `rcbld`
answers with the effective values of the walk, or enters the handler with cause 0x06. -/
def Obligations.PuppetSlotsAndBlocks : Prop :=
  ∀ (s : State) (c : CoreRef) (d a b : BitVec 6),
    s.cur = .puppet c →
    let i := c.slice
    let n := bitsOf (s.sreg b) 7 0
    let k := s.qslot i n
    let e : EngId := { a := .puppet c, part := s.partOf! i, asid := Config.rootAsid (s.partOf! i) }
    let w := s.engWords e 1 (s.sreg a) 32
    let q := qcIdx w
    let slots (t : State) : Prop := ∀ m, t.qslot i m = s.qslot i m
    let named : Prop := bitsOf (s.sreg b) 63 8 = 0
    (s.canIssue [a, b] [d] → named →
      (k.state ≠ 0 → s.yields (.qslotMap d a b) d 1 slots)
      ∧ (k.state = 0 → (s.sreg a).toNat % 128 ≠ 0 → s.yields (.qslotMap d a b) d 2 slots)
      ∧ (k.state = 0 → (s.sreg a).toNat % 128 = 0 → s.meetBoth e (s.sreg a) 128 = .ok → qcMapOk w = false → s.yields (.qslotMap d a b) d 2 fun t =>
          slots t ∧ t.pending i q.val = false)
      ∧ (k.state = 0 → (s.sreg a).toNat % 128 = 0 → s.meetBoth e (s.sreg a) 128 = .ok → qcMapOk w = true → s.meet e 1 (s.dirAddr i q) 8 = .ok →
          (s.dirEntry i q).getLsbD 0 = true → entryQcb (s.dirEntry i q) = s.sreg a →
          (s.slotOf i q = none → s.yields (.qslotMap d a b) d 0 fun t => (t.qslot i n).state = 1 ∧ (t.qslot i n).qcba = s.sreg a ∧ (t.qslot i n).qcb = w
            ∧ (t.qslot i n).stop = qcStopped w ∧ ∀ m, m ≠ n → t.qslot i m = s.qslot i m)
          ∧ (s.slotOf i q ≠ none → s.yields (.qslotMap d a b) d 4 slots))
      ∧ (k.state = 0 → (s.sreg a).toNat % 128 = 0 → s.yields (.qslotUnmap d a b) d 3 slots)
      ∧ (k.state ≠ 0 → (s.sreg a).toNat % 128 = 0 → s.meetBoth e k.qcba 128 = .ok → s.does (.qslotUnmap d a b) fun t =>
          (t.qslot i n).state = 0 ∧ (∀ m, m ≠ n → t.qslot i m = s.qslot i m) ∧ t.spc = s.spc + 4 ∧ ∀ r, t.sreg r = if r = d then 0 else s.sreg r))
    ∧ (s.canIssue [b] [d] → (named → s.yields (.qslotStat d a b) d (s.slotWord' i n) slots)
        ∧ (¬named → s.does (.qslotStat d a b) fun t => slots t ∧ t.spc = s.spc + 4 ∧ s.sameMemory t ∧ ∀ r, r ≠ d → t.sreg r = s.sreg r))
    ∧ (s.canIssue [a] [d] →
        (∀ ns, s.rcbWalk e (s.sreg a) = .ok ns → s.yields (.rcbld d a) d (rcbValue ns false) (fun _ => True)
          ∧ s.yields (.rcbldBw d a) d (rcbValue ns true) fun _ => True)
        ∧ (s.rcbWalk e (s.sreg a) = .bad → ∀ j ∈ [Instr.rcbld d a, .rcbldBw d a], s.does j fun t =>
            bitsOf (t.coreReg c 0x103) 7 0 = 0x06 ∧ (t.coreReg c 0x103).getLsbD 8 = true ∧ t.coreReg c 0x105 = s.spc ∧ s.sameRegs t ∧ s.sameMemory t))


/-! ### System registers and counters -/

/-- R140 to R147, R165: what `sysrd` answers in a group and in the puppet slot; `syswr` stores `GRP.FPC` with a mode of 0 or 7 as 1 and its
reserved bits 0, and ignores read-only registers; in the puppet slot it stores `CORE.PHVEC` and `CORE.PEPC`, clears pending bits by 1s and
leaves the PRC mirrors; a number of the reserved range is illegal-encoding and one beyond a group's reach is privilege. -/
def Obligations.SystemRegisterWords : Prop :=
  ∀ (s : State) (g : GroupRef) (c : CoreRef) (d a : BitVec 6) (num : BitVec 13),
    let v := s.group g
    let x := s.sreg a
    (s.cur = .scalar g → s.canIssue [] [d] →
      s.yields (.sysrd d 0x000) d v.sc.spc s.sameLanes ∧ s.yields (.sysrd d 0x020) d v.fpc s.sameLanes ∧ s.yields (.sysrd d 0x021) d v.sig s.sameLanes
      ∧ s.yields (.sysrd d 0x022) d v.sc.wct s.sameLanes ∧ s.yields (.sysrd d 0x023) d (BitVec.ofNat 64 (v.nreg + v.want * 256)) s.sameLanes
      ∧ s.yields (.sysrd d 0x100) d s.now s.sameLanes ∧ s.yields (.sysrd d 0x400) d (s.sliceReg g.slice 0x400) s.sameLanes)
    ∧ (s.cur = .scalar g → s.canIssue [a] [] →
      (s.does (.syswr a 0x020) fun t => s.passedWord t
        ∧ (∀ j, j < 64 → (t.group g).fpc.getLsbD j =
            if j < 3 then (if bitsOf x 2 0 = 0 ∨ bitsOf x 2 0 = 7 then decide (j = 0) else x.getLsbD j)
            else if j = 3 ∨ (8 ≤ j ∧ j < 32) then false else x.getLsbD j)
        ∧ (t.group g).v = v.v ∧ (t.group g).p = v.p ∧ (t.group g).sig = v.sig)
      ∧ ∀ n ∈ ([0x000, 0x021, 0x022, 0x023, 0x024, 0x100, 0x400] : List (BitVec 13)), s.does (.syswr a n) fun t => s.passedWord t ∧ s.sameLanes t
          ∧ t.sliceReg g.slice 0x400 = s.sliceReg g.slice 0x400)
    ∧ (s.cur = .scalar g → v.faultCode = 0 →
        (0xC00 ≤ num.toNat → s.faults (.sysrd d num) g 0x02 ∧ s.faults (.syswr a num) g 0x02)
        ∧ ∀ n ∈ ([0x103, 0x104, 0x105, 0x120, 0x1A1, 0x410, 0x420, 0x430, 0x760, 0x800, 0x840] : List (BitVec 13)),
            s.faults (.sysrd d n) g 0x05 ∧ s.faults (.syswr a n) g 0x05)
    ∧ (s.cur = .puppet c →
        (s.canIssue [] [d] → ∀ n ∈ ([0x101, 0x102, 0x103, 0x104, 0x105, 0x120] : List (BitVec 13)), s.yields (.sysrd d n) d (s.coreReg c n.toNat) s.sameLanes)
        ∧ (s.canIssue [a] [] →
            (∀ n ∈ ([0x104, 0x105] : List (BitVec 13)), s.does (.syswr a n) fun t => s.passedWord t ∧ t.coreReg c n.toNat = x
              ∧ ∀ m, m ≠ n.toNat → t.coreReg c m = s.coreReg c m)
            ∧ (∀ k < 64, s.does (.syswr a (BitVec.ofNat 13 (0x440 + k))) fun t => s.passedWord t
                ∧ t.sliceReg c.slice (0x440 + k) = s.sliceReg c.slice (0x440 + k) &&& ~~~x ∧ ∀ m, m ≠ 0x440 + k → t.sliceReg c.slice m = s.sliceReg c.slice m)
            ∧ (∀ n ∈ ([0x800, 0x808, 0x80A, 0x810, 0x840] : List (BitVec 13)), s.does (.syswr a n) fun t => s.passedWord t ∧ t.prc = s.prc)))

/-- R9, R405, R406, R407, R413, R416, R417: register writes and reads as events: a count that a read clears; a counter that a write sets, its overflow bit cleared by a
1; the seep configuration with its zero fields replaced, the interval restarted and the counters kept; the injector armed only in a
partition with TEST set; a seep counter that falls by 1 at the end of each interval; and each µs the credit of every tenant with a share rises, to at most one µs's
worth. That a controller's share is 3,600,000 bytes a µs is the model's reading of R405 (log entry 47). -/
def Obligations.CounterRegisters : Prop :=
  ∀ (s : State) (c : CoreRef) (i : SliceId) (n : Fin 8) (kind : Fin 3) (ctl : Fin 2) (v : Word),
    let others (t : State) : Prop := s.sameMemory t ∧ (∀ g, t.group g = s.group g) ∧ t.prc = s.prc ∧ t.now = s.now
    (s.does (.registerReadClear c 0x42D) fun t => t.outRead = s.sliceReg c.slice 0x42D ∧ t.sliceReg c.slice 0x42D = 0 ∧ others t
        ∧ ∀ m, m ≠ 0x42D → t.sliceReg c.slice m = s.sliceReg c.slice m)
    ∧ (s.does (.registerWrite c 0x120 v) fun t => t.coreReg c 0x120 = BitVec.ofNat 64 (if bitsOf v 19 0 = 0 then 2000 else bitsOf v 19 0) ∧ others t
        ∧ ∀ m, m ≠ 0x120 → t.coreReg c m = s.coreReg c m)
    ∧ (s.does (.pmcWrite c n v) fun t => others t ∧ (∀ m, m ≠ 0x168 + n.val → t.coreReg c m = s.coreReg c m)
        ∧ bitsOf (t.coreReg c (0x168 + n.val)) 47 0 = bitsOf v 47 0 ∧ bitsOf (t.coreReg c (0x168 + n.val)) 63 49 = 0
        ∧ (t.coreReg c (0x168 + n.val)).getLsbD 48 = ((s.coreReg c (0x168 + n.val)).getLsbD 48 && !v.getLsbD 48))
    ∧ (s.does (.seepcfgWrite i kind v) fun t => others t ∧ (t.slice i).seep = (s.slice i).seep ∧ tabGet 0 (t.slice i).seepSince kind.val = s.now
        ∧ bitsOf (t.sliceReg i (0x425 + kind.val)) 15 0 = (if bitsOf v 15 0 = 0 then 256 else bitsOf v 15 0)
        ∧ bitsOf (t.sliceReg i (0x425 + kind.val)) 23 16 = bitsOf v 23 16
        ∧ bitsOf (t.sliceReg i (0x425 + kind.val)) 47 24 = (if bitsOf v 47 24 = 0 then 1 else bitsOf v 47 24))
    ∧ (s.does (.fijctlWrite i v) fun t => others t ∧ bitsOf (t.sliceReg i 0x42C) 41 0 = bitsOf v 41 0
        ∧ (t.sliceReg i 0x42C).getLsbD 42 = (v.getLsbD 42 && s.testSlice i))
    ∧ (s.passed (tabGet 0 (s.slice i).seepSince kind.val) (s.seepLeak i kind.val) = true → s.does (.seepLeak i kind) fun t => others t
        ∧ ∀ m (x : Seep), tabFind (s.slice i).seep m = some x →
            let y : Seep := tabGet {} (t.slice i).seep m
            if seepKind m = kind.val ∧ x.value ≠ 0 then y.value = x.value - 1 ∧ y.stamp = s.now
                ∧ y.armed = (x.armed || decide (2 * (x.value.toNat - 1) < s.seepMark i kind.val))
            else y = x)
    ∧ (s.passed (tabGet 0 (s.slice i).seepSince kind.val) (s.seepLeak i kind.val) = false → s.does (.seepLeak i kind) fun t => t = s)
    ∧ (∀ p, s.partOf i = some p → s.passed (tabGet 0 (s.slice i).creditSince ctl.val) 1000 = true → s.does (.hbmCreditRefill i ctl) fun t => others t
        ∧ tabGet 0 (t.slice i).creditSince ctl.val = s.now
        ∧ ∀ e ∈ s.hbmShares p, ∃ x ∈ tabGet [] (t.slice i).credits ctl.val, x.tenant = e.1 ∧ x.share = e.2
            ∧ x.credit = (let old : Int := (((tabGet [] (s.slice i).credits ctl.val).find? fun (y : Credit) => y.tenant == e.1).map (·.credit)).getD 0
                          let rise : Int := (e.2 * 3600000 / 65536 : Nat)
                          min (old + rise) rise))


/-! ### Command queues -/

/-- R338, R342, R343, R346: the agent at a mapped, running queue with a packet left takes the packet at RDIDX when it is of the event's type and
passes its check, with an agent at work and nothing to wait for: RDIDX rises by 1, the packet's header in the ring becomes 0, and the packet has started; SIGNAL,
MARKER and NOP are complete, and WAIT and BARRIER_AND block the slot. With RDIDX = WRIDX nothing starts. -/
def Obligations.QueuePacketsStart : Prop :=
  ∀ (s : State) (i : SliceId) (slot : HwSlot) (ins : Instr) (type : Nat) (hpa : Nat) (hc : Bool) (ht : SliceId),
    let k := s.qslot i slot.val
    let q := k.q
    let e := s.queueEng i q
    let pidx := qcRd k.qcb
    let ring := qcRing k.qcb + BitVec.ofNat 64 (pidx.toNat % qcSize k.qcb * 64)
    let w := s.engWords e 1 ring 16
    (ins, type) ∈ [(Instr.signal i slot, 2), (.wait i slot, 3), (.barrierAnd i slot, 4), (.storage i slot, 5), (.marker i slot, 6), (.nop i slot, 7)] →
    k.state = 1 → k.stop = false → qcStopped k.qcb = false → s.featured i = true → s.hasAgent i = true → k.blk = 0 → s.queueWaits i q = false → k.copy = [] →
    (qcWr k.qcb = pidx → s.does ins fun t => t.started = s.started ∧ s.sameMemory t ∧ qcRd (t.qslot i slot.val).qcb = pidx)
    ∧ (qcWr k.qcb ≠ pidx → s.isParked (.queue i q 0) = false → s.meetBoth e ring 64 = .ok → s.meet e 2 ring 4 = .ok →
        s.reach e.part e.asid ring 2 = .ok hpa hc → isGlobal ring → targetOf hpa = .hbm ht → ring.toNat % 64 = 0 →
        pkType w = type → s.checkPacket i q (qcRcb k.qcb) w = .pass → (pkBarrier w = true → s.queueBusy i q = false) →
        s.does ins fun t => qcRd (t.qslot i slot.val).qcb = pidx + 1 ∧ (type ≠ 2 → memReadLE t.mem hpa 4 = 0)
          ∧ (t.qslot i slot.val).blk = (if type = 3 ∨ type = 4 then 1 else 0)
          ∧ ∃ x : Started, t.started = s.started ++ [x] ∧ x.slice = i ∧ x.q = q ∧ x.pidx = pidx ∧ x.words = w ∧ x.due = decide (type = 2 ∨ type = 6 ∨ type = 7)
            ∧ (type = 5 → ∃ o : AsyncOp, t.asyncs = s.asyncs ++ [o] ∧ x.chain = some o.id ∧ o.kind = .storq (dwordAt w 2) []))

/-- R344, R347, R348: a LAUNCH that passes its check starts a grid, with its record, its blocks' effective values and its slices, its ticket set to 0; one
with HOLD waits with the slot blocked, and starts when the point is reached, a cap has come, or the time is over. Stated of packets that name no
frequency class, and of every held one. Where the ticket stands is the agents' choice, a free value of the model. -/
def Obligations.Launches : Prop :=
  ∀ (s : State) (i : SliceId) (slot : HwSlot) (ns : List (Word × List W32)),
    let k := s.qslot i slot.val
    let q := k.q
    let e := s.queueEng i q
    let starts (ins : Instr) (pidx : Word) (w lrec : List W32) : Prop :=
      let ring := qcRing k.qcb + BitVec.ofNat 64 (pidx.toNat % qcSize k.qcb * 64)
      s.meet e 2 ring 4 = .ok → s.checkGrcb e (w ++ lrec) (qcRcb k.qcb) = .pass →
      ((s.engWrite e ring [0, 0, 0, 0]).1).rcbWalk e (dwordAt w 4) = .ok ns →
      s.does ins fun t => qcRd (t.qslot i slot.val).qcb = pidx + 1 ∧ (t.qslot i slot.val).blk = 0 ∧ (t.qslot i slot.val).held = none
        ∧ ∃ (x : Started) (n : Nat), t.started = s.started ++ [x] ∧ x.q = q ∧ x.pidx = pidx ∧ x.words = w ∧ x.grid = some n ∧ x.due = false
          ∧ let r : Grid := tabGet {} t.grids n
            r.lrec = lrec ∧ r.grcb = dwordAt w 4 ∧ r.domains = walkDomains ns ∧ r.asid = BitVec.ofNat 16 (effAsid ns) ∧ r.prio = BitVec.ofNat 3 (effPriority ns)
              ∧ r.early = (wordAt w 1).getLsbD 0 ∧ r.claimed = 0 ∧ r.live = 0 ∧ r.slice = i ∧ r.q = q
              ∧ (8 ≤ s.chipSize (s.partOf! i) → t.ticketOf r = 0)
    k.state = 1 → s.hasAgent i = true →
    (let ring := qcRing k.qcb + BitVec.ofNat 64 ((qcRd k.qcb).toNat % qcSize k.qcb * 64)
     let w := s.engWords e 1 ring 16
     k.stop = false → qcStopped k.qcb = false → s.featured i = true → k.blk = 0 → s.queueWaits i q = false → k.copy = [] → k.held = none → qcWr k.qcb ≠ qcRd k.qcb → s.isParked (.queue i q 0) = false →
     s.meetBoth e ring 64 = .ok → pkType w = 1 → s.checkPacket i q (qcRcb k.qcb) w = .pass → (pkBarrier w = true → s.queueBusy i q = false) → pkClass w = 3 →
      (pkHold w = false → starts (.launch i slot) (qcRd k.qcb) w (s.engWords e 1 (dwordAt w 2) 64)))
    ∧ (∀ pidx w lrec, k.blk = 2 → k.held = some (pidx, w ++ lrec) → w.length = 16 → pkType w = 1 → s.isParked (.queue i q 0) = false →
        (s.holdOver i k (w ++ lrec) = true → starts (.launchHoldEnd i slot) pidx w lrec)
        ∧ (s.holdOver i k (w ++ lrec) = false → s.does (.launchHoldEnd i slot) fun t => t = s))

/-- R24, R337, R338, R341, R350: a doorbell store of 8 bytes at the page's start moves WRIDX of the mapped queue up and sets its event, or, before the
feature word is accepted, its pending bit; another offset or size does nothing. A stopped queue with nothing started is unmapped. At a decision the one pending queue, whose block passes its check and is
not stopped and whose region blocks resolve, is mapped into the lowest free slot, its AGE 0 and its pending bit clear. -/
def Obligations.QueueKicksAndMapping : Prop :=
  (∀ (s : State) (i : SliceId) (slot : HwSlot) (q : QIdx) (off size n : Nat) (v : Word),
    let e := s.queueEng i q
    (off ≠ 0 ∨ size ≠ 8 → s.does (.doorbellKick i q off size v) fun t => t = s)
    ∧ (s.partOf i ≠ none → s.isParked (.queue i q 1) = false → s.meet e 1 (s.dirAddr i q) 8 = .ok → (s.dirEntry i q).getLsbD 0 = true → s.slotOf i q = some n →
        let w := (s.qslot i n).qcb
        (v.toNat ≤ (qcWr w).toNat → s.does (.doorbellKick i q 0 8 v) fun t => t = s)
        ∧ (s.featured i = false → (qcWr w).toNat < v.toNat → s.does (.doorbellKick i q 0 8 v) fun t =>
            qcWr (t.qslot i n).qcb = v ∧ (t.qslot i n).evt = (s.qslot i n).evt ∧ t.pending i q.val = true ∧ (∀ m, m ≠ n → t.qslot i m = s.qslot i m)
              ∧ s.sameMemory t)
        ∧ (s.featured i = true → (qcWr w).toNat < v.toNat → (v - qcRd w).toNat ≤ qcSize w → s.does (.doorbellKick i q 0 8 v) fun t =>
            qcWr (t.qslot i n).qcb = v ∧ (qcStopped w = false → (t.qslot i n).evt = true) ∧ (∀ m, m ≠ n → t.qslot i m = s.qslot i m) ∧ s.sameMemory t))
    ∧ (let k := s.qslot i slot.val
       let q := k.q
       k.state = 1 → qcStopped k.qcb = true → s.queueBusy i q = false → s.hasAgent i = true → s.isParked (.queue i q 0) = false → s.meetBoth (s.queueEng i q) k.qcba 128 = .ok →
        s.does (.queueStoppedUnmap i slot) fun t => (t.qslot i slot.val).state = 0 ∧ ∀ m, m ≠ slot.val → t.qslot i m = s.qslot i m))
  ∧ ∀ (s : State) (i : SliceId) (q : QIdx) (n : Nat) (w : List W32) (a : Word) (c : QCand),
    s.featured i = true → s.hasAgent i = true → (∀ m < 256, (s.qslot i m).state ≠ 2) → (∀ m < 4096, s.pending i m = true ↔ m = q.val) → s.slotOf i q = none → s.qcbOf i q = some (w, a) → qcMapOk w = true → qcIdx w = q →
    qcStopped w = false → s.candidate i q w a = some c → n < 256 → (s.qslot i n).state = 0 → (∀ m < n, (s.qslot i m).state ≠ 0) →
    s.does (.queueMapDecision i) fun t => (t.qslot i n).state = 1 ∧ (t.qslot i n).qcba = a ∧ qcIdx (t.qslot i n).qcb = q ∧ qcAge (t.qslot i n).qcb = 0
      ∧ qcWr (t.qslot i n).qcb = qcWr w ∧ qcRd (t.qslot i n).qcb = qcRd w ∧ (∀ m, m ≠ n → t.qslot i m = s.qslot i m) ∧ t.pending i q.val = false ∧ s.sameMemory t

/-- R345, R346, R352: a started WAIT whose signal meets its condition is complete, be its queue mapped or not, and one whose signal does not goes on
waiting; so does a BARRIER_AND with the signals that it has not found met yet; a started packet whose count reaches the limit is marked as expired, and the agent that serves the queue is told its slot, or, of an unmapped
queue, its index. -/
def Obligations.WaitsAndWatchdogs : Prop :=
  ∀ (s : State) (i : SliceId) (q : QIdx) (c : CoreRef) (pidx : Word) (x : Started) (hpa : Nat) (hc : Bool) (ht : SliceId),
    (let e := s.queueEng i q
     let a := dwordAt x.words 2
     let cc := bitsOf (wordAt x.words 1) 1 0
     let limit := dwordAt x.words 4
     s.hasAgent i = true → s.waiter i q = some x → x.slice = i → x.q = q → pkType x.words = 3 → s.isParked (.queue i q 0) = false → isGlobal a → a.toNat % 8 = 0 →
     s.reach e.part e.asid a 7 = .ok hpa hc → targetOf hpa = .hbm ht → s.meet e 7 a 8 = .ok →
      let v := s.hbmRead hpa 8
      let met : Prop := if cc = 0 then limit.toInt ≤ v.toInt else if cc = 1 then v = limit else if cc = 2 then v ≠ limit else v.toInt < limit.toInt
      (met → s.does (.waitSatisfied i q) fun t => x ∉ t.started ∧ s.sameMemory t
          ∧ ∃ y ∈ t.started, y.slice = i ∧ y.q = q ∧ y.pidx = x.pidx ∧ y.words = x.words ∧ y.due = true)
      ∧ (¬met → s.does (.waitSatisfied i q) fun t => t = s))
    ∧ (let e := s.queueEng i q
       let left := [2, 6, 10].filter fun n => dwordAt x.words n != 0 && !x.met.contains n
       let met (n : Nat) : Prop := (dwordAt x.words (n + 2)).toInt ≤ (BitVec.ofNat 64 (bytesToNat (s.engBytes e 7 (dwordAt x.words n) 8)) : Word).toInt
       s.hasAgent i = true → s.waiter i q = some x → x.slice = i → x.q = q → pkType x.words = 4 → s.isParked (.queue i q 0) = false →
       (∀ n ∈ left, s.meet e 7 (dwordAt x.words n) 8 = .ok) →
      ((∀ n ∈ left, met n) → s.does (.waitSatisfied i q) fun t => x ∉ t.started ∧ s.sameMemory t
          ∧ ∃ y ∈ t.started, y.slice = i ∧ y.q = q ∧ y.pidx = x.pidx ∧ y.words = x.words ∧ y.due = true)
      ∧ (left ≠ [] → (∀ n ∈ left, ¬met n) → s.does (.waitSatisfied i q) fun t => t = s))
    ∧ (s.startedAt i q pidx = some x → x.grid.isSome = true → x.expired = false →
        (s.dogLimit i q ≤ x.count → s.server i q = some c → (s.core c).puppet.events.length < 64 →
          s.does (.queueWatchdogExpiry i q pidx) fun t => { x with expired := true } ∈ t.started ∧ s.sameMemory t
            ∧ (∀ n, s.slotOf i q = some n → (t.core c).puppet.events = (s.core c).puppet.events ++ [BitVec.ofNat 64 (n * 256 + 0x06)])
            ∧ (s.slotOf i q = none → (t.core c).puppet.events = (s.core c).puppet.events ++ [BitVec.ofNat 64 ((0x100 + q.val) * 256 + 0x06)]))
        ∧ (x.count < s.dogLimit i q → s.does (.queueWatchdogExpiry i q pidx) fun t => t = s))


/-! ### Placement -/

/-- R30, R32, R37, R57, R231, R348: the agent of a core with room places the next workgroup of an open grid: each of its groups starts ready in the next free slot,
with the registers and control words of R37, the ticket's value its workgroup index; the ticket rises by 1. On a reserved core, without room, or
with no ticket left, nothing is placed. -/
def Obligations.WorkgroupPlacement : Prop :=
  ∀ (s : State) (c : CoreRef) (grid : Word),
    let r : Grid := tabGet {} s.grids grid.toNat
    let k := s.core c
    let w := r.lrec
    let tk := s.ticketOf r
    s.gridOpen c grid.toNat = true → r.perClaim = 1 →
    (s.agentRoom c r.need r.tenant = false ∨ s.reserved c = true ∨ lrCount w ≤ tk → s.does (.workgroupPlace c grid) fun t => t = s)
    ∧ (s.agentRoom c r.need r.tenant = true → s.reserved c = false → (s.core c).puppet.running = true → tk < lrCount w →
      s.does (.workgroupPlace c grid) fun t => (r.ticket + 8 ≤ s.chipSize r.part → t.ticketOf r = tk + 1) ∧
        (tabGet {} t.grids grid.toNat).claimed = r.claimed + 1 ∧ (tabGet {} t.grids grid.toNat).live = r.live + 1 ∧ s.sameMemory t
        ∧ (∃ x, tabFind (t.core c).wgs s.nextId = some x ∧ x.grid = grid.toNat ∧ x.idx = BitVec.ofNat 32 tk ∧ x.groups = lrGroups w
            ∧ x.spadLen = lrSpad w ∧ x.lpLen = lrLp w ∧ x.matrix = lrMatrix w ∧ x.spad = [] ∧ x.lp = [])
        ∧ (lrMatrix w = true → (t.core c).tiles = [] ∧ (t.core c).accs = [] ∧ (t.core c).scale = [])
        ∧ ∀ j < lrGroups w, ∃ m, k.slotsFree[j]? = some m ∧
            let v := t.group ⟨c.slice, c.core, idx 32 m⟩
            v.st = .ready ∧ v.sc.spc = dwordAt w 8 ∧ v.wg = s.nextId ∧ v.gix = j ∧ v.grid = grid.toNat ∧ v.nreg = lrVallot w ∧ v.prio = r.prio
              ∧ (∀ x : BitVec 6, v.sc.read x = if x = 1 then BitVec.ofNat 64 tk else if x = 2 then BitVec.ofNat 64 j else if x = 3 then dwordAt w 10
                  else if x = 4 then BitVec.ofNat 64 (2 ^ 8 + 2 ^ 16 + c.core.val / 24 * 2 ^ 24 + c.slice.val * 2 ^ 32)
                  else if x = 60 ∨ x = 61 ∨ x = 62 then 0xFFFFFFFF else 0)
              ∧ v.fpc = startFpc w tk j ∧ v.v = [] ∧ v.p = [] ∧ v.bl = [] ∧ v.binds = [] ∧ v.lq = [] ∧ v.block = none ∧ v.sig = 0 ∧ v.sc.wct = 0)

/-- R35, R36, R172, R175, R348: a claim of a neighbourhood reserves the first rectangle with room and sends each of its agents the start event; a reserved core
starts its own workgroup when it has room, and its reservation ends. -/
def Obligations.NeighbourhoodPlacement : Prop :=
  ∀ (s : State) (c : CoreRef) (grid : Word) (n : Nat) (nb : Nbh),
    (let r : Grid := tabGet {} s.grids grid.toNat
     let room : BitVec 24 := (List.range 24).foldl (fun m j => if s.agentRoom (clusterCore c.slice c.cluster j) r.need r.tenant then putBit m j true else m) 0
     let found := findRect (tabGet 0 (s.slice c.slice).occMap c.cluster) room (lrNbW r.lrec) (lrNbH r.lrec)
     s.gridOpen c grid.toNat = true → r.perClaim ≠ 1 → (s.core c).puppet.running = true → s.ticketOf r * r.perClaim < lrCount r.lrec →
      (found = none → s.does (.workgroupPlace c grid) fun t => t = s)
      ∧ (∀ p, found = some p → s.does (.workgroupPlace c grid) fun t => (tabGet {} t.grids grid.toNat).claimed = r.claimed + 1 ∧ s.sameMemory t
          ∧ (∃ x, tabFind t.nbhs s.nextId = some x ∧ x.grid = grid.toNat ∧ x.w = lrNbW r.lrec ∧ x.h = lrNbH r.lrec ∧ x.core0 = c.cluster * 24 + p
              ∧ x.first = s.ticketOf r * (lrNbW r.lrec * lrNbH r.lrec))
          ∧ ∀ j ∈ rectCores p (lrNbW r.lrec) (lrNbH r.lrec), let a := clusterCore c.slice c.cluster j
              (a ≠ c → (tabGet 0 (t.slice c.slice).occMap c.cluster).getLsbD j = true)
              ∧ ((s.core a).puppet.events.length < 64 → BitVec.ofNat 64 (bitsOf r.grcb 55 8 * 256 + 0x02) ∈ (t.core a).puppet.events)))
    ∧ (let r : Grid := tabGet {} s.grids nb.grid
       s.nbhs.find? (fun e => e.2.waitingK.any fun k => e.2.coreAt k == c) = some (n, nb) → tabFind s.nbhs n = some nb → ∀ k, nb.waitingK.find? (fun k => nb.coreAt k == c) = some k →
        (s.agentRoom c r.need r.tenant = true → s.gridHalted nb.grid = false → s.does (.nbhCoreStartOnRoom c) fun t =>
          (tabGet {} t.grids nb.grid).live = r.live + 1 ∧ t.reserved c = false
            ∧ (∃ x, tabFind (t.core c).wgs s.nextId = some x ∧ x.grid = nb.grid ∧ x.nbh = some n ∧ x.k = k ∧ x.idx = BitVec.ofNat 32 (nb.first + k))
            ∧ (∃ y, tabFind t.nbhs n = some y ∧ y.waitingK = nb.waitingK.filter (· != k) ∧ y.alive = nb.alive + 1))
        ∧ (s.agentRoom c r.need r.tenant = false → s.does (.nbhCoreStartOnRoom c) fun t => t = s))

/-- R51, R52, R332: a bin whose timer has expired, and one that waits or is full, launches a group when the core has room and no bin of a lower number
waits: the group starts with its payloads in `v0`, the count and the bin in `s1` and `s2`, and the bin is free; without room the bin
waits. -/
def Obligations.SpawnLaunches : Prop :=
  ∀ (s : State) (c : CoreRef) (bin : Fin 16) (m : Nat) (ms : List Nat),
    let k := s.core c
    let b : SpawnBin := tabGet {} k.bins bin.val
    let r : Grid := tabGet {} s.grids b.grid
    let w := r.lrec
    let n := b.payloads.length
    let room := k.roomFor r.spawnNeed r.tenant
    b.valid = true → s.gridHalted b.grid = false → n ≤ 96 → (∀ j < bin.val, (tabGet {} k.bins j).wait = false) → k.slotsFree = m :: ms →
    let launches (i : Instr) : Prop :=
      (room = true → s.does i fun t =>
        let v := t.group ⟨c.slice, c.core, idx 32 m⟩
        (tabGet {} (t.core c).bins bin.val).valid = false ∧ (tabGet {} t.grids b.grid).live = r.live + 1 ∧ s.sameMemory t
          ∧ v.st = .ready ∧ v.sc.spc = b.entry ∧ v.nreg = lrSpawnVallot w ∧ v.grid = b.grid
          ∧ v.sc.read 1 = BitVec.ofNat 64 n ∧ v.sc.read 2 = BitVec.ofNat 64 bin.val ∧ v.sc.read 3 = dwordAt w 10
          ∧ (∀ l < 96, (v.vreg 0).lane l = if l < n then b.payloads.getD l 0 else 0)
          ∧ (∀ l < 32, (v.sc.read 60).getLsbD l = decide (l < n) ∧ (v.sc.read 61).getLsbD l = decide (32 + l < n) ∧ (v.sc.read 62).getLsbD l = decide (64 + l < n)))
      ∧ (room = false → s.does i fun t => tabGet {} (t.core c).bins bin.val = { b with wait := true } ∧ s.sameMemory t ∧ ∀ g, t.group g = s.group g)
    (b.expiry.toNat < s.now.toNat → launches (.spawnTimerExpiry c bin)) ∧ (b.wait = true ∨ n = 96 → launches (.spawnLaunch c bin))


/-! ### Lane arithmetic -/

/-- R177, R178, R184, R188, R324, R325: what each lane reads from each operand: a register or a pair, a latch, an entry popped from a queue, a
predicate, its own index, the split, the index in the neighbourhood, IMM32, or 0. -/
def Obligations.LaneOperands : Prop :=
  ∀ (s : State) (g : GroupRef) (k : Fin 4) (pops : List (Nat × QEntry)) (i : Instr) (w : LaneWord) (c : BitVec 8) (wide : Bool) (l : Nat),
    l < 96 →
    let v := s.group g
    let x := laneVal (s.source g k pops i w c wide).vals l
    let n := c.toNat
    let whole := match i with | .cvt _ => wide | _ => is64 w.typ
    (n < 128 → x = if wide then (v.vreg (n + 1)).lane l ++ (v.vreg n).lane l else ((v.vreg n).lane l).setWidth 64)
    ∧ (0x80 ≤ n → n < 0x88 → x = if wide then (tabGet {} v.bl (n - 0x80)).data.getD l 0 else (((tabGet {} v.bl (n - 0x80)).data.getD l 0).extractLsb' 0 32).setWidth 64)
    ∧ (∀ e, 0x90 ≤ n → n < 0xA0 → pops.find? (fun y => y.1 == n - 0x90) = some (n - 0x90, e) →
        x = if e.wide then (e.lanes.getD l 0).setWidth 64 else if whole then e.value else (e.value.extractLsb' 0 32).setWidth 64)
    ∧ (0xA0 ≤ n → n < 0xA7 → x = boolWord ((v.pred (n - 0xA0)).getLsbD l)) ∧ (n = 0xA7 → x = 1)
    ∧ (n = 0xC0 → x = BitVec.ofNat 64 l) ∧ (n = 0xC1 → x = BitVec.ofNat 64 k.val) ∧ (n = 0xC2 → x = BitVec.ofNat 64 (s.kOf g))
    ∧ (n = 0xFE → wide = false ∨ w.typ = 3 → x = w.imm.setWidth 64) ∧ (n = 0xFE → wide = true → w.typ = 2 → x = w.imm.signExtend 64) ∧ (n = 0xFF → x = 0)

/-- R191 to R194: the value that each integer, logic, compare and select instruction leaves in each lane acted on, element by element, with its
operands under their modifiers; nothing else of the machine changes but the position of the split and its signature. -/
def Obligations.LaneInteger : Prop :=
  ∀ (s : State) (g : GroupRef) (k : Fin 4) (w : LaneWord),
    let n := elemWidth w.typ
    let gives (i : Instr) (f : (Fin 4 → Nat → Word) → Nat → Word) : Prop := s.laneYields g k i w f fun _ t => (t.group g).fpc = (s.group g).fpc
    let exact (i : Instr) (f : Int → Int → Int → Int) : Prop := gives i fun v l => byElems w.typ fun e =>
      intWrite w (f (intA w (elemOf n (v 0 l) e)) (intB w (elemOf n (v 1 l) e)) (intC w (elemOf n (v 2 l) e)))
    let bits (i : Instr) (f : Nat → Nat → Nat → Nat) : Prop := gives i fun v l => byElems w.typ fun e =>
      f (elemOf n (v 0 l) e) (elemOf n (v 1 l) e) (elemOf n (v 2 l) e)
    let signed (x : Nat) : Int := if isUnsigned w.typ then x else if 2 ^ (n - 1) ≤ x then (x : Int) - 2 ^ n else x
    let field (b : Nat) : Nat × Nat := (b % 256, min (b / 256 % 256) (n - b % 256))
    exact (.iadd w) (fun x y _ => x + y) ∧ exact (.isub w) (fun x y _ => x - y) ∧ exact (.imul w) (fun x y _ => x * y)
    ∧ exact (.imad w) (fun x y z => x * y + z) ∧ exact (.imulh w) (fun x y _ => x * y / 2 ^ n) ∧ exact (.iabs w) (fun x _ _ => |x|)
    ∧ exact (.ineg w) (fun x _ _ => -x) ∧ exact (.imin w) (fun x y _ => min x y) ∧ exact (.imax w) (fun x y _ => max x y)
    ∧ bits (.iand w) (fun x y _ => x &&& y) ∧ bits (.ior w) (fun x y _ => x ||| y) ∧ bits (.ixor w) (fun x y _ => x ^^^ y)
    ∧ bits (.inot w) (fun x _ _ => 2 ^ n - 1 - x) ∧ bits (.ishl w) (fun x y _ => x * 2 ^ (y % n) % 2 ^ n) ∧ bits (.ishr w) (fun x y _ => x / 2 ^ (y % n))
    ∧ bits (.isra w) (fun x y _ => (((if 2 ^ (n - 1) ≤ x then (x : Int) - 2 ^ n else x) / 2 ^ (y % n)) % 2 ^ n).toNat)
    ∧ bits (.ibfe w) (fun x b _ =>
        let (pos, len) := field b
        let f := x / 2 ^ pos % 2 ^ len
        if len = 0 then 0 else if isUnsigned w.typ || f < 2 ^ (len - 1) then f else 2 ^ n - 2 ^ len + f)
    ∧ bits (.ibfi w) (fun x b z => let (pos, len) := field b; x - x / 2 ^ pos % 2 ^ len * 2 ^ pos + z % 2 ^ len * 2 ^ pos)
    ∧ bits (.ipopc w) (fun x _ _ => (List.range n).countP x.testBit) ∧ bits (.iclz w) (fun x _ _ => n - Nat.size x)
    ∧ gives (.isel w) (fun v l => if v 2 l ≠ 0 then v 0 l else v 1 l) ∧ gives (.imov w) (fun v l => v 0 l)
    ∧ ∀ cc : Fin 6, gives (.icmp cc w) fun v l => byElems w.typ fun e =>
        let x := if negA w then -(if absA w then |signed (elemOf n (v 0 l) e)| else signed (elemOf n (v 0 l) e))
          else if absA w then |signed (elemOf n (v 0 l) e)| else signed (elemOf n (v 0 l) e)
        let y := if negB w then -signed (elemOf n (v 1 l) e) else signed (elemOf n (v 1 l) e)
        if (match cc.val with | 0 => decide (x = y) | 1 => decide (x ≠ y) | 2 => decide (x < y) | 3 => decide (x ≤ y) | 4 => decide (x > y) | _ => decide (x ≥ y))
        then 2 ^ n - 1 else 0

/-- R205 to R214: the element that each floating-point instruction and function helper leaves, the conditions that it raises, and the steps of the
LFSR under the stochastic mode. -/
def Obligations.LaneFloat : Prop :=
  ∀ (s : State) (g : GroupRef) (k : Fin 4) (w : LaneWord),
    let n := elemWidth w.typ
    let f := typeFmt w.typ
    let gives (i : Instr) (rounds : Bool) (el : Nat → Nat → Nat → Nat → Nat → Nat × Conds) : Prop :=
      s.laneFloats g k i w rounds (elemCount w.typ) (fun _ es => packElems n es) fun mode r v l e =>
        el mode r (elemOf n (v 0 l) e) (elemOf n (v 1 l) e) (elemOf n (v 2 l) e)
    let up (x : Nat) : FV := f.decode x
    let all : Nat := 2 ^ n - 1
    gives (.fadd w) true (fun mode r a b _ => floatResult w mode r [floatA w a, floatB w b] ((floatA w a).add (floatB w b) (mode == 4)))
    ∧ gives (.fsub w) true (fun mode r a b _ => floatResult w mode r [floatA w a, floatB w b] ((floatA w a).add (floatB w b).negate (mode == 4)))
    ∧ gives (.fmul w) true (fun mode r a b _ => floatResult w mode r [floatA w a, floatB w b] ((floatA w a).mul (floatB w b)))
    ∧ gives (.ffma w) true (fun mode r a b c => fusedResult w mode r (floatA w a) (floatB w b) (up c))
    ∧ gives (.fmin w) false (fun _ _ a b _ => pickNumber f true (signBits f (absA w) (negA w) a) (signBits f false (negB w) b))
    ∧ gives (.fmax w) false (fun _ _ a b _ => pickNumber f false (signBits f (absA w) (negA w) a) (signBits f false (negB w) b))
    ∧ gives (.fabs w) false (fun _ _ a _ _ => (a % 2 ^ (n - 1), 0))
    ∧ gives (.fneg w) false (fun _ _ a _ _ => (if a < 2 ^ (n - 1) then a + 2 ^ (n - 1) else a - 2 ^ (n - 1), 0))
    ∧ gives (.fclass w) false (fun _ _ a _ _ => (classMask f (up a), 0))
    ∧ (∀ cc : Fin 8, gives (.fcmp cc w) false fun _ _ a b _ =>
        let x := floatA w a
        let y := floatB w b
        let un := x.isNan || y.isNan
        let sig := x.isSig || y.isSig
        match cc.val with
        | 0 => (if !un && x.cmp y == 0 then all else 0, condIf sig condNV)
        | 1 => (if un || x.cmp y != 0 then all else 0, condIf sig condNV)
        | 2 => (if !un && decide (x.cmp y < 0) then all else 0, condIf un condNV)
        | 3 => (if !un && decide (x.cmp y ≤ 0) then all else 0, condIf un condNV)
        | 4 => (if !un && decide (x.cmp y > 0) then all else 0, condIf un condNV)
        | 5 => (if !un && decide (x.cmp y ≥ 0) then all else 0, condIf un condNV)
        | 6 => (if un then 0 else all, condIf sig condNV)
        | _ => (if un then all else 0, condIf sig condNV))
    ∧ (∀ fn : Fin 4, w.typ = 6 → gives (.fseed fn w) false fun _ _ a _ _ => seedOf fn (up a))
    ∧ gives (.frange w) false (fun _ _ a _ _ => frangeOf f (up a))
    ∧ gives (.fscale w) true (fun mode r a b _ => fscaleOf f mode r (satBit w) (up a) (up b))
    ∧ gives (.fexpo w) false (fun _ _ a _ _ => fexpoOf f (up a)) ∧ gives (.fmant w) false (fun _ _ a _ _ => fmantOf f (up a))
    ∧ s.laneYields g k (.fsel w) w (fun v l => if v 2 l ≠ 0 then v 0 l else v 1 l) fun _ t => (t.group g).fpc = (s.group g).fpc

/-- R215 to R222: conversion and requantisation put their elements into the part of the lane that they name; the lane moves read another lane's
source; a reduction leaves in every lane acted on, and a scan in each lane up to it, the combination of the elements of the lanes acted on, and
with no lane acted on nothing is written. -/
def Obligations.LaneConvertAndCross : Prop :=
  ∀ (s : State) (g : GroupRef) (k : Fin 4) (w : LaneWord) (op : Fin 6),
    let v := s.group g
    let n := elemWidth w.typ
    let c := s.cvtCtl g w
    let acted := s.acted g k w
    let mode := laneRnd v w
    let kept (t : State) : Prop := (t.group g).fpc = v.fpc
    let into (n : Nat) (old : Word) (first : Nat) (es : List Nat) : Word := BitVec.ofNat 64
      (old.toNat - old.toNat / 2 ^ (n * first) % 2 ^ (n * es.length) * 2 ^ (n * first) + (packElems n es).toNat * 2 ^ (n * first))
    s.laneFloats g k (.cvt w) w true c.count
      (fun l es => into (codeWidth c.dst) (if c.partial' then v.destOld w.dst (laneWides (.cvt w) w).dst l else 0) c.dstAt es)
      (fun mode r o l e => cvtElement c mode (satBit w) r (o 0 l) (c.srcAt + e))
    ∧ s.laneYields g k (.rqnt w) w (fun o l =>
        let m := if w.imm.getLsbD 16 then 4 else 8
        let q := rqntOf (s.feature v.part 1) w.imm ((o 0 l).extractLsb' 0 32).toInt ((o 1 l).extractLsb' 0 32).toInt
        into m (v.destOld w.dst false l) (bitsOf w.imm 19 17) [(q % 2 ^ m).toNat]) (fun _ t => kept t)
    ∧ s.laneYields g k (.lperm w) w (fun o l => let j := (o 1 l).toNat % 2 ^ 32; if j < 96 then o 0 j else o 3 l) (fun _ t => kept t)
    ∧ s.laneYields g k (.lrot w) w (fun o l => o 0 (((l : Int) - ((o 1 l).extractLsb' 0 32).toInt) % 96).toNat) (fun _ t => kept t)
    ∧ (∀ first, first < 96 → acted.getLsbD first = true → (∀ m < first, acted.getLsbD m = false) →
        s.laneYields g k (.lbcast w) w (fun o l => let j := (o 1 first).toNat % 2 ^ 32; if j < 96 then o 0 j else o 3 l) fun _ t => kept t)
    ∧ (acted ≠ 0 →
        let stoch := redRounds w op && mode == 6
        let lf : W32 := v.fpc.extractLsb' 32 32
        let r (e : Nat) : Nat := lfsrR (lfsrStep^[if stoch then e + 1 else 0] lf)
        let one (o : Fin 4 → Nat → Word) (e : Nat) : Nat × Conds := reduceElems w op mode.toNat (r e) (((List.range 96).filter acted.getLsbD).map fun l => elemOf n (o 0 l) e)
        s.laneYields g k (.lred op w) w (fun o _ => byElems w.typ fun e => (one o e).1)
          (fun o t => s.fpcAfter t g (if stoch then elemCount w.typ else 0) fun j => ∃ e, e < elemCount w.typ ∧ (one o e).2.getLsbD j = true)
        ∧ s.laneFloats g k (.lscan op w) w (redRounds w op) (elemCount w.typ) (fun _ es => packElems n es) fun mode r o l e =>
            reduceElems w op mode r (((List.range (l + 1)).filter acted.getLsbD).map fun l => elemOf n (o 0 l) e))
    ∧ (acted = 0 → ∀ i ∈ [Instr.lred op w, .lscan op w], ∀ pops u, s.laneMayIssue g k i w pops u → s.does i fun t =>
        kept t ∧ s.laneMoved t g k ∧ s.onlyLanes t g ∧ (∀ m l, ((t.group g).vreg m).lane l = (v.vreg m).lane l) ∧ (t.group g).p = v.p ∧ (t.group g).bl = v.bl
          ∧ u.sameQueues t)


/-! ### Lane memory -/

/-- R278 to R281, R323: a lane access to global addresses is sent with one access for each lane acted on, in lane order: `ld` and `st` from lane 0's
address on by the width, `ldg`, `stsc`, the atomics and `lwatch` at each lane's own; `lwatch` arms the lanes' watches as well. In the core scratchpad
window, with nothing in flight, a load leaves each lane's bytes, extended, and a store changes the bytes that it stores, the highest lane last. -/
def Obligations.LaneAccesses : Prop :=
  ∀ (s : State) (g : GroupRef) (k : Fin 4) (w : LaneWord) (op : BitVec 3) (order : BitVec 2) (i : Instr) (pops : List (Nat × QEntry)) (u : State),
    let o := s.operand g k i w pops
    let size := bitsOf w.imm 26 24
    let whole : Nat := if is64 w.typ then 8 else 4
    let n : Nat := if size = 0 then whole else if size ≤ 2 then 1 else 2
    let acted := s.acted g k w
    let sum (l : Nat) : Word := o 0 l + BitVec.ofInt 64 (w.imm.extractLsb' 0 24).toInt
    let run (l : Nat) : Word := o 0 0 + BitVec.ofInt 64 (w.imm.extractLsb' 0 24).toInt + BitVec.ofNat 64 (l * n)
    let at' (n : Nat) (x : Word) : Word := BitVec.ofNat 64 (x.toNat / n * n)
    let global (va : Nat → Word) : Prop := ∀ l < 96, acted.getLsbD l = true → isGlobal (va l)
    let goesOut (va : Nat → Word) : Prop := ∃ l, l < 96 ∧ acted.getLsbD l = true ∧ s.l1Line (agentCore s.cur) (s.agentAsid s.cur) ((va l).toNat / 64) = none
    let dest : AccDest := .lane w.dst (is64 w.typ) acted (zeroing w) (if w.cap then some w.latch else none)
    s.laneMayIssue g k i w pops u →
      (∀ p ∈ [(Instr.ld 5 w, run), (.ldg 5 w, sum)], i = p.1 → let va (l : Nat) := at' n (p.2 l)
        global va → goesOut va → s.does i fun t => s.sentLanes u t g k w .load n va (fun _ => 0) (fun _ => 0) dest 0 0)
      ∧ (∀ p ∈ [(Instr.st 5 w, run), (.stsc 5 w, sum)], i = p.1 → let va (l : Nat) := at' n (p.2 l)
        global va → acted ≠ 0 → s.does i fun t => s.sentLanes u t g k w .store n va (o 1) (fun _ => 0) .none 0 0)
      ∧ (i = .amo op order w → let va (l : Nat) := at' whole (sum l)
        global va → acted ≠ 0 → s.does i fun t =>
          s.sentLanes u t g k w (.amo op (!isUnsigned w.typ)) whole va (o 1) (o 2) dest order (w.modf.extractLsb' 1 3))
      ∧ (i = .lwatch w → let va (l : Nat) := at' whole (sum l)
        global va → goesOut va → s.does i fun t =>
          s.sentLanes u t g k w .watch whole va (fun _ => 0) (fun _ => 0) dest 0 0
            ∧ ∀ l < 96, tabFind (t.group g).lwatch l
                = if acted.getLsbD l then some { addr := va l, wide := is64 w.typ } else tabFind (s.group g).lwatch l)
      ∧ (∀ x : Workgroup, s.wgOf g = some x → x.spadLen ≤ 0x80000 → (s.group g).sc.memq = [] → (s.group g).loose = [] → s.injectorOff →
          (∀ q, ∀ e ∈ (s.queue q).entries, e.filled = true) →
          let place (y : Nat) : Place := .spad g.at (s.group g).wg y
          ∀ p ∈ [(Instr.ld 1 w, run), (.ldg 1 w, sum), (.st 1 w, run), (.stsc 1 w, sum)], i = p.1 →
            let off (l : Nat) : Nat := (p.2 l).toNat % 2 ^ 32 / n * n
            (∀ l < 96, acted.getLsbD l = true → off l + n ≤ x.spadLen) →
            (i = .ld 1 w ∨ i = .ldg 1 w → s.does i fun t =>
              s.laneLeaves u t g w (is64 w.typ) acted (fun l =>
                  let y := bytesToNat (s.chipRead (place (off l)) n)
                  if (size = 1 ∨ size = 3) ∧ 2 ^ (8 * n - 1) ≤ y then BitVec.ofInt 64 ((y : Int) - 2 ^ (8 * n)) else BitVec.ofNat 64 y)
                ∧ s.laneMoved t g k ∧ s.onlyLanes t g ∧ (t.group g).sc = (s.group g).sc ∧ ∀ y, t.chipRead (place y) 1 = s.chipRead (place y) 1)
            ∧ (i = .st 1 w ∨ i = .stsc 1 w → s.does i fun t =>
              let covers (l y : Nat) : Prop := l < 96 ∧ acted.getLsbD l = true ∧ off l ≤ y ∧ y < off l + n
              s.laneMoved t g k ∧ s.onlyLanes t g ∧ (t.group g).sc = (s.group g).sc ∧ (∀ m l, ((t.group g).vreg m).lane l = ((s.group g).vreg m).lane l)
                ∧ (t.group g).p = (s.group g).p ∧ (t.group g).bl = (s.group g).bl ∧ u.sameQueues t
                ∧ (∀ l y, covers l y → (∀ m, l < m → ¬covers m y) → t.chipRead (place y) 1 = [BitVec.ofNat 8 ((o 1 l).toNat / 2 ^ (8 * (y - off l)))])
                ∧ ∀ y, (∀ l, ¬covers l y) → t.chipRead (place y) 1 = s.chipRead (place y) 1))

/-- R283: `lwatch.w` reads the watched words of the lanes acted on; when one differs from source B, or its deadline has passed, each lane acted on takes
the word that it watches, or its source B with no watch armed; else the split waits at the instruction until that deadline, the instruction having
issued (R323), and goes on from there in the same way. -/
def Obligations.LaneWatchWaits : Prop :=
  ∀ (s : State) (g : GroupRef) (k : Fin 4) (w : LaneWord) (pa : Nat → Nat) (pops : List (Nat × QEntry)) (u : State),
    let v := s.group g
    let acted := s.acted g k w
    let n : Nat := if is64 w.typ then 8 else 4
    let readable (l : Nat) : Prop := ∃ (x : Watch) (hc : Bool) (i : SliceId), tabFind v.lwatch l = some x ∧ x.wide = is64 w.typ ∧ isGlobal x.addr
      ∧ s.translate (s.agentPart s.cur) (s.agentAsid s.cur) x.addr 7 = .ok (pa l) hc ∧ targetOf (pa l) = .hbm i ∧ s.poisoned (pa l) n false = false
      ∧ (let home := (s.home (s.agentPart s.cur) (x.addr.toNat / 64)).1
         s.homeOpen s.cur home = true ∧ ∀ e ∈ (s.slice home).l2, e.2.key = lineKey (s.agentAsid s.cur) (x.addr.toNat / 64) → e.1 = pa l / 64)
    let goes (u : State) (pops : List (Nat × QEntry)) (deadline : Word) : Prop :=
      let o := s.operand g k (.lwatchW w) w pops
      let late : Prop := deadline ≠ 0 ∧ deadline.toNat ≤ s.now.toNat
      let takes (f : Nat → Word) : Prop := s.does (.lwatchW w) fun t =>
        s.laneLeaves u t g w (is64 w.typ) acted f ∧ s.laneMoved t g k ∧ s.sameMemory t ∧ ∀ r, (t.group g).sc.read r = v.sc.read r
      let waits : Prop := s.does (.lwatchW w) fun t =>
        (∃ h : HeldOp, (t.group g).heldOf k.val = some h ∧ h.kind = .watch deadline ∧ h.pops = pops
          ∧ ∀ q, isQ w.dst = true → s.boundQueue g (w.dst.toNat % 16) = some q → (t.queue q).entries = (u.queue q).entries ++ [{ filled := false, op := h.op }])
        ∧ ((t.group g).split k.val).pc = (v.split k.val).pc ∧ s.sameMemory t ∧ (isQ w.dst = false → u.sameQueues t)
        ∧ (∀ m l, ((t.group g).vreg m).lane l = (v.vreg m).lane l) ∧ (t.group g).p = v.p ∧ (t.group g).bl = v.bl ∧ ∀ r, (t.group g).sc.read r = v.sc.read r
      ((∀ l < 96, acted.getLsbD l = true → tabFind v.lwatch l = none) → (late → takes (o 1)) ∧ (¬late → waits))
      ∧ (v.sc.memq = [] → s.injectorOff → (∀ l < 96, acted.getLsbD l = true → readable l) →
          let word (l : Nat) : Word := s.hbmRead (pa l) n
          let differs : Prop := ∃ l, l < 96 ∧ acted.getLsbD l = true ∧ word l ≠ (if is64 w.typ then o 1 l else ((o 1 l).extractLsb' 0 32).setWidth 64)
          (differs ∨ late → takes word) ∧ (¬differs → ¬late → waits))
    (v.split k.val).mask ≠ 0 →
      (s.laneMayIssue g k (.lwatchW w) w pops u → goes u pops (if w.imm = 0 then 0 else s.now + w.imm.setWidth 64))
      ∧ ∀ h dl, s.cur = .lane g k → v.held = [h] → v.heldOf k.val = some h → h.kind = .watch dl → (v.split k.val).wait = .none → isQ w.dst = false → goes s h.pops dl

/-! ### Lane control -/

/-- R41, R42, R197 to R199, R201, R202: `lbr` moves its split; `lbrc` divides a split whose lanes disagree: the lowest free record takes the lanes
that go to the target, and with no free record one part waits, that of the higher position; `ljoin` marks the split, and `lend` ends the block once every
split has reached one and what the block's lanes have issued has taken effect; `lvote` tells every lane of the split what its lanes hold; `lsig` checks the block's hash and trackers, folds the hash, and
begins a new block, or raises silent-data-error. -/
def Obligations.LaneControl : Prop :=
  ∀ (s : State) (g : GroupRef) (k : Fin 4) (w : LaneWord),
    let v := s.group g
    let x := v.split k.val
    let target : BitVec 24 := BitVec.ofInt 24 ((x.pc.toNat : Int) + w.imm.toInt)
    let next : BitVec 24 := x.pc + 1
    let runs (i : Instr) (p : (Fin 4 → Nat → Word) → State → Prop) : Prop := ∀ pops u, s.laneMayIssue g k i w pops u → s.does i fun t =>
      s.onlyLanes t g ∧ (t.group g).sc = v.sc ∧ (∀ m l, ((t.group g).vreg m).lane l = (v.vreg m).lane l) ∧ (t.group g).p = v.p ∧ (t.group g).bl = v.bl
        ∧ (t.group g).fpc = v.fpc ∧ u.sameQueues t ∧ p (s.operand g k i w pops) t
    let stands (t : State) (j : Nat) (pc : BitVec 24) (m : Mask) : Prop :=
      ((t.group g).split j).used = true ∧ ((t.group g).split j).pc = pc ∧ ((t.group g).split j).mask = m
    let held (o : Fin 4 → Nat → Word) : Mask := BitVec.ofNat 96 (((List.range 96).filter fun l => x.mask.getLsbD l && (o 0 l).toNat % 2 ^ 32 != 0).map (2 ^ ·)).sum
    (v.alone k →
      runs (.lbr w) (fun _ t => stands t k.val target x.mask ∧ ((t.group g).split k.val).bh = 0x9E3779B9)
      ∧ runs (.lbrc w) (fun o t =>
          (held o = 0 ∨ target = next → stands t k.val next x.mask)
          ∧ (x.mask ≠ 0 → held o = x.mask → stands t k.val target x.mask)
          ∧ (held o ≠ 0 → held o ≠ x.mask → target ≠ next → stands t k.val next (x.mask &&& ~~~held o)
              ∧ ∃ j < 4, j ≠ k.val ∧ (∀ m < j, m = k.val) ∧ stands t j target (held o) ∧ ((t.group g).split j).bh = 0x9E3779B9))
      ∧ runs (.ljoin w) (fun _ t => stands t k.val target x.mask ∧ ((t.group g).split k.val).join = some (v.laneN + 1) ∧ (t.group g).joinReady k.val = true)
      ∧ runs (.lend w) (fun _ t => if v.lanesQuiet then (t.group g).block = none ∧ (t.group g).splits = []
          else (t.group g).block = v.block ∧ stands t k.val x.pc x.mask ∧ ((t.group g).split k.val).atEnd = true))
    ∧ ((∀ j < 4, (v.split j).used = true ∧ (v.split j).atEnd = false) → v.waiting = [] →
        (∀ j < 4, j ≠ k.val → (v.split j).pc ≠ target ∧ (v.split j).pc ≠ next) → (∀ j < 4, ∀ m < j, (v.split j).pc ≠ (v.split m).pc) → target ≠ next →
        runs (.lbrc w) fun o t => held o ≠ 0 → held o ≠ x.mask →
          let fall := x.mask &&& ~~~held o
          let (stay, away, pc) := if next < target then (fall, held o, target) else (held o, fall, next)
          stands t k.val (if next < target then next else target) stay
            ∧ (∀ l < 96, tabFind (t.group g).waiting l = if away.getLsbD l then some pc else none)
            ∧ ∀ j < 4, j ≠ k.val → stands t j (v.split j).pc (v.split j).mask)
    ∧ (∀ j < 4, j ≠ k.val → (v.split j).used = true → (v.split j).atEnd = false → v.waiting = [] →
        (∀ j < 4, ∀ m < j, (v.split j).used = true → (v.split m).used = true → (v.split j).pc ≠ (v.split m).pc) →
        runs (.lend w) fun _ t => (t.group g).block = v.block ∧ stands t k.val x.pc x.mask ∧ ((t.group g).split k.val).atEnd = true
          ∧ stands t j (v.split j).pc (v.split j).mask)
    ∧ (let tells (n : Fin 3) (f : Mask → Word) : Prop :=
        s.laneYields g k (.lvote n w) w (fun o _ => f (held o)) fun _ t => (t.group g).fpc = v.fpc
       tells 0 (fun m => if m = 0 then 0 else 1) ∧ tells 1 (fun m => if m = x.mask then 1 else 0)
        ∧ tells 2 (fun m => BitVec.ofNat 64 ((List.range 96).countP fun l => m.getLsbD l)))
    ∧ (let fails : Prop := bitsOf v.sig 47 32 ≠ bitsOf v.sig 63 48 ∨ x.merge = true ∨ (x.bhv = true ∧ x.bh ≠ w.imm)
       let folded : W32 := (v.sig.extractLsb' 0 32).rotateLeft 5 ^^^ (if x.bhv then x.bh else 0)
       (¬fails → v.alone k → runs (.lsig w) fun _ t => stands t k.val next x.mask ∧ ((t.group g).split k.val).bh = 0x9E3779B9
          ∧ ((t.group g).split k.val).bhv = true ∧ (t.group g).sig.extractLsb' 0 32 = folded)
       ∧ (fails → v.faultCode = 0 → ∀ pops u, s.laneMayIssue g k (.lsig w) w pops u → s.does (.lsig w) fun t =>
          (t.group g).faultCode = 0x0B ∧ (t.group g).faultPrec = true ∧ (t.group g).faultLane = true ∧ (t.group g).faultAddr = w.imm ++ x.bh
            ∧ (t.group g).sig = v.sig ∧ s.sameMemory t))

/-- R50, R51, R200, R308, R331: `spawn`, once the group's accesses before it have been performed, adds the payloads of its lanes in lane order to the
bin of their entry address, or to a free bin, whose timer starts; those that find no room stay with the instruction, at which the split waits, and it goes
on with them in the same way. -/
def Obligations.SpawnDeposits : Prop :=
  ∀ (s : State) (g : GroupRef) (k : Fin 4) (w : LaneWord) (pops : List (Nat × QEntry)) (u : State) (entry : Word),
    let v := s.group g
    let x := v.split k.val
    let c := g.at
    let bin (t : State) (n : Nat) : SpawnBin := tabGet {} (t.core c).bins n
    let hi : W32 := (dwordAt (s.gridOf g).lrec 8).extractLsb' 32 32
    let acted := s.acted g k w
    let ours (n : Nat) : Prop := (bin s n).valid = true ∧ (bin s n).entry = entry ∧ (bin s n).grid = v.grid
    let kept (t : State) : Prop := s.sameMemory t ∧ (t.group g).sc = v.sc ∧ ∀ m l, ((t.group g).vreg m).lane l = (v.vreg m).lane l
    let goes (pops : List (Nat × QEntry)) (done : Mask) (first : Nat) : Prop :=
      let o := s.operand g k (.spawn w) w pops
      let left : Mask := acted &&& ~~~done
      let payloads : List W32 := ((List.range 96).filter left.getLsbD).map fun l => (o 0 l).extractLsb' 0 32
      let moved (t : State) : Prop := s.laneMoved t g k ∧ kept t
      let waits (t : State) (did : Nat → Prop) : Prop := ((t.group g).split k.val).pc = x.pc ∧ kept t ∧ ∃ h : HeldOp, (t.group g).heldOf k.val = some h
        ∧ h.pops = pops ∧ ∃ m, h.kind = .spawn m first ∧ ∀ l < 96, m.getLsbD l = true ↔ did l
      let only (t : State) (n : Nat) : Prop := ∀ m, m ≠ n → bin t m = bin s m
      (∀ l < 96, left.getLsbD l = true → entry = BitVec.ofNat 64 ((hi ++ (o 1 l).extractLsb' 0 32).toNat / 4 * 4)) → left ≠ 0 →
        ((∀ y ∈ v.sc.memq, first ≤ y.id) →
          (∀ n < 16, ours n → (∀ m < n, ¬ours m) → s.does (.spawn w) fun t =>
            let room := 96 - (bin s n).payloads.length
            (payloads.length ≤ room → (bin t n).payloads = (bin s n).payloads ++ payloads ∧ (bin t n).valid = true ∧ (bin t n).entry = entry
                ∧ (bin t n).expiry = (bin s n).expiry ∧ ((bin t n).wait = true ↔ ((bin s n).wait = true ∨ (bin t n).payloads.length = 96)) ∧ only t n ∧ moved t)
            ∧ (room < payloads.length → (bin t n).payloads = (bin s n).payloads ++ payloads.take room ∧ only t n
                ∧ waits t fun l => acted.getLsbD l = true ∧ (done.getLsbD l = true ∨ (List.range l).countP left.getLsbD < room)))
          ∧ (∀ n < 16, (∀ m < 16, ¬ours m) → (bin s n).valid = false → (∀ m < n, (bin s m).valid = true) → s.does (.spawn w) fun t =>
            (bin t n).payloads = payloads ∧ (bin t n).valid = true ∧ (bin t n).entry = entry ∧ (bin t n).grid = v.grid
              ∧ (bin t n).expiry = s.now + BitVec.ofNat 64 (bitsOf (s.coreReg c 0x120) 19 0) ∧ only t n ∧ moved t)
          ∧ ((∀ m < 16, ¬ours m ∧ (bin s m).valid = true) → s.does (.spawn w) fun t =>
            (∀ m, bin t m = bin s m) ∧ waits t fun l => acted.getLsbD l = true ∧ done.getLsbD l = true))
        ∧ (∀ y ∈ v.sc.memq, y.id < first → s.does (.spawn w) fun t => (∀ m, bin t m = bin s m) ∧ waits t fun l => done.getLsbD l = true)
    x.mask ≠ 0 →
      (s.laneMayIssue g k (.spawn w) w pops u → goes pops 0 u.nextId)
      ∧ ∀ h done first, s.cur = .lane g k → v.held = [h] → v.heldOf k.val = some h → h.kind = .spawn done first → x.wait = .none → goes h.pops done first

/-! ### Exchange between clusters -/

/-- R223: `xpair` answers 0x82 for a slice or cluster that cannot be, pairs with the oldest post that names it and that it names, answers 0x81 with 64 posts
waiting, and else waits; a post that has waited 1,000,000 ptick answers 0x80. R224, R225: with no pair `xswap` completes at once with 0; in a pair it sends
source A to its partner and waits, and completes with the partner's value of the same number when it arrives. -/
def Obligations.ClusterExchange : Prop :=
  ∀ (s : State) (g h : GroupRef) (k : Fin 4) (w : LaneWord) (d a b e : BitVec 6) (p q : Pair) (y : Post) (pre post : List Post) (i : SliceId),
    let v := s.group g
    let key : W32 := (s.sreg b).extractLsb' 0 32
    let sl := bitsOf (s.sreg a) 5 3
    let cl := bitsOf (s.sreg a) 2 0
    let table (t : State) (i : SliceId) : List Post := (t.slice i).pairTab
    let kept (t : State) : Prop := s.sameLanes t ∧ ∀ i, table t i = table s i
    let token (h : GroupRef) : Word := BitVec.ofNat 64 (1 + h.core.val * 2 ^ 8 + h.slot.val * 2 ^ 16 + h.core.val / 24 * 2 ^ 21 + h.slice.val * 2 ^ 24)
    let meets (y : Post) : Prop := y.key = key ∧ y.part = v.part ∧ y.toSlice = g.slice ∧ y.toCluster.toNat = g.core.val / 24 ∧ y.fromSlice.val = sl
      ∧ y.fromCluster = cl
    let open' : Prop := ∀ j, ∀ z ∈ table s j, z.answer = none ∧ z.id < s.nextId
    (s.cur = .scalar g → s.canIssue [a, b] [d] → d ≠ 0 → v.pair = none → open' →
      let valid : Prop := bitsOf (s.sreg a) 63 6 = 0 ∧ cl ≤ 5 ∧ (∀ j : SliceId, j.val = sl → s.member v.part j = true) ∧ ¬(sl = g.slice.val ∧ cl = g.core.val / 24)
      (¬valid → s.yields (.xpair d a b) d 0x82 kept)
      ∧ (∀ i : SliceId, i.val = sl → valid → (∀ y ∈ table s i, ¬meets y) →
          (64 ≤ (table s g.slice).length → s.yields (.xpair d a b) d 0x81 kept)
          ∧ ((table s g.slice).length < 64 → s.does (.xpair d a b) fun t => s.passedWord t ∧ (t.group g).sc.pend.getLsbD d.toNat = true ∧ s.sameLanes t
              ∧ (∀ j, j ≠ g.slice → table t j = table s j) ∧ ∃ z : Post, table t g.slice = table s g.slice ++ [z] ∧ z.g = g
                ∧ z.fromSlice = g.slice ∧ z.fromCluster = g.core.val / 24 ∧ z.answer = none ∧ z.key = key ∧ z.part = v.part
                ∧ z.toSlice.val = sl ∧ z.toCluster.toNat = cl ∧ z.token = .reg (.scalar g) d ∧ z.posted = s.now))
      ∧ (valid → table s y.fromSlice = pre ++ y :: post → meets y → (∀ z ∈ pre, ¬meets z) → y.g = h → h ≠ g → y.token = .reg (.scalar h) e → e ≠ 0 →
          (s.group h).pair = none → s.does (.xpair d a b) fun t => s.sameMemory t ∧ t.spc = s.spc + 4
            ∧ table t y.fromSlice = (pre ++ y :: post).filter (fun z => z.id != y.id)
            ∧ (∀ r, t.sreg r = if r = d then storedIn d (token h) else s.sreg r)
            ∧ (∀ r, (t.group h).sc.read r = if r = e then storedIn e (token g) else (s.group h).sc.read r)
            ∧ (t.group g).sc.pend.getLsbD d.toNat = false ∧ (t.group h).sc.pend.getLsbD e.toNat = false
            ∧ ∃ n, (t.group g).pair = some { id := n, key := key, partner := h } ∧ (t.group h).pair = some { id := n, key := key, partner := g }))
    ∧ (table s i = pre ++ y :: post → (∀ z ∈ pre, z.id ≠ y.id) → open' → y.fromSlice = i → y.token = .reg (.scalar h) e → e ≠ 0 →
        (y.posted.toNat + 1000000 ≤ s.now.toNat → s.does (.xpairTimeout i y.id) fun t => s.sameMemory t ∧ (t.group h).sc.pend.getLsbD e.toNat = false
          ∧ table t i = (pre ++ y :: post).filter (fun z => z.id != y.id) ∧ ∀ r, (t.group h).sc.read r = if r = e then storedIn e 0x80 else (s.group h).sc.read r)
        ∧ (s.now.toNat < y.posted.toNat + 1000000 → s.does (.xpairTimeout i y.id) fun t => t = s))
    ∧ ((v.split k.val).mask ≠ 0 →
        (v.pair = none → s.laneYields g k (.xswap w) w (fun _ _ => 0) fun _ t => (t.group g).pair = none)
        ∧ (v.pair = some p → p.ended = false → p.unmatched = [] → h ≠ g → h ∈ s.allGroups → (s.group h).pair = some q → q.id = p.id →
            (∀ x ∈ s.allGroups, x ≠ g → (s.group x).pair.map (·.id) = some p.id → x = h) →
            ∀ pops u, s.laneMayIssue g k (.xswap w) w pops u → s.does (.xswap w) fun t => s.sameMemory t ∧ (t.group g).pair = some { p with sends := p.sends + 1 }
              ∧ ((t.group g).split k.val).pc = (v.split k.val).pc ∧ (∃ x : HeldOp, (t.group g).heldOf k.val = some x ∧ x.kind = .swap (p.sends + 1) s.now.toNat none)
              ∧ (∀ m l, ((t.group g).vreg m).lane l = (v.vreg m).lane l)
              ∧ ∃ vals : List Word, (t.group h).pair = some { q with unmatched := q.unmatched ++ [vals] } ∧ ∀ l < 96, vals.getD l 0 = s.operand g k (.xswap w) w pops 0 l))
    ∧ (∀ n since x ws vals rest, v.st = .active → s.laneFetch g k = .ok ws → decodeLaneWords ws = some (.ok (.xswap w)) →
        v.held = [x] → v.heldOf k.val = some x → x.kind = .swap n since none → (v.split k.val).wait = .none → v.pair = some p → isQ w.dst = false →
        p.unmatched = vals :: rest → n = p.recvs + 1 → s.does (.xswapArrival g k) fun t =>
          (t.group g).pair = some { p with recvs := n, unmatched := rest } ∧ s.laneLeaves s t g w (is64 w.typ) (s.acted g k w) (fun l => vals.getD l 0)
            ∧ s.laneMoved t g k ∧ s.onlyLanes t g ∧ (t.group g).sc = v.sc)


/-! ### The active set, fetch and prefetch -/

/-- R44 to R46, R48, R164, R166, R264: a core with fewer than eight active groups admits the ready one that comes first; a ready group's age and a remote
load's wait count; an active group that waits with its lane stream idle leaves, without its latches, and is ready again when its condition is met; an L1 line
past its lease leaves; `pref` changes no register and no byte, and can put a line into the L1; `brk` stops a group that a debugger watches at the next word. -/
def Obligations.ActiveSetAndPrefetch : Prop :=
  ∀ (s : State) (c : CoreRef) (g : GroupRef) (line : Nat) (a : BitVec 6) (kind : BitVec 2) (off : BitVec 12) (code : BitVec 12),
    let v := s.group g
    let regs (t : State) : Prop := s.sameMemory t ∧ (∀ h r, (t.group h).sc.read r = (s.group h).sc.read r) ∧ ∀ h m, (t.group h).vreg m = (s.group h).vreg m
    let ready (g : GroupRef) : Prop := g ∈ s.slotsOf c ∧ (s.group g).st = .ready
    let count := ((s.slotsOf c).filter fun g => (s.group g).st == .active).length
    (count < 8 → ready g → (∀ h, ready h → h ≠ g → s.comesBefore c g h = true) → s.does (.groupAdmit c) fun t =>
      (t.group g).st = .active ∧ (∀ h, h ≠ g → t.group h = s.group h) ∧ regs t)
    ∧ (8 ≤ count → s.does (.groupAdmit c) fun t => t = s)
    ∧ (v.st = .ready → s.passed v.readyAt (s.cclkTicks g.slice 65536) = true → s.does (.admissionAgeing g) fun t =>
        (t.group g).effPrio = 7 ∧ (t.group g).st = .ready ∧ regs t)
    ∧ (v.sc.wait = .remoteLoad → s.passed v.sc.since (s.cclkTicks g.slice 512) = true → s.does (.remoteLoadBlock g) fun t =>
        (t.group g).scBlocked = true ∧ (t.group g).sc.wait = .remoteLoad ∧ regs t)
    ∧ (v.st = .active → v.sc.wait ∈ [Wait.token, .queue, .barrier, .mwait, .lsync, .monitor] → s.scalarMet g = false → v.lq = [] → v.block = none → s.does (.leaveActiveSet g) fun t =>
        (t.group g).st = .blocked ∧ (t.group g).stamp = s.now ∧ (∀ n, (tabGet {} (t.group g).bl n).valid = false) ∧ (t.group g).sc = v.sc ∧ regs t)
    ∧ (v.st = .active → v.sc.wait = .none → v.block = none → s.does (.leaveActiveSet g) fun t => t = s)
    ∧ (v.st = .blocked → v.sc.wait = .token → v.sc.pend &&& v.sc.waitMask = 0 → s.does (.groupWake g) fun t =>
        (t.group g).st = .ready ∧ (t.group g).readyAt = s.now ∧ (t.group g).sc = v.sc ∧ regs t)
    ∧ (v.st = .blocked → v.sc.wait = .token → v.sc.pend &&& v.sc.waitMask ≠ 0 → v.lq = [] → v.block = none → s.does (.groupWake g) fun t => t = s)
    ∧ (s.does (.l1LeaseExpiry c line) fun t => regs t ∧ ∀ x, x ∈ (t.core c).l1 ↔ (x ∈ (s.core c).l1 ∧ (x.line ≠ line ∨ s.now.toNat ≤ x.expiry.toNat)))
    ∧ (s.canIssue [a] [] → s.does (.pref a kind off) fun t => s.passedWord t ∧ s.sameLanes t
        ∧ ∀ (pa : Nat) (j : SliceId),
          let va := BitVec.ofNat 64 ((s.sreg a + BitVec.ofInt 64 (64 * off.toInt)).toNat / 64 * 64)
          let p := s.agentPart s.cur
          kind = 2 → isGlobal va → s.injectorOff → s.reach p (s.agentAsid s.cur) va 1 = .ok pa false → targetOf pa = .hbm j → s.poisoned pa 64 false = false →
          tabFind (s.slice (s.home p (va.toNat / 64)).1).l2 (pa / 64) = none → s.now.toNat < 2 ^ 63 →
          s.l1Line (agentCore s.cur) (s.agentAsid s.cur) (va.toNat / 64) = none →
          ∃ x, t.l1Line (agentCore s.cur) (s.agentAsid s.cur) (va.toNat / 64) = some x ∧ x.data = memRead s.mem (pa / 64 * 64) 64)
    ∧ (s.canIssue [] [] → ∀ g, s.cur = .scalar g → s.does (.brk code) fun t => s.passedWord t
        ∧ if (s.part (s.group g).part).debuggers.contains (((s.gridOf g).domains.head?).getD 0) then (t.group g).st = .stopped ∧ (t.group g).dbg = true
          else (t.group g).st = (s.group g).st ∧ (t.group g).dbg = (s.group g).dbg)
    ∧ (s.canIssue [] [] → s.cur = .puppet c → s.does (.brk code) s.passedWord)

/-- R58, R66, R269 to R275, R386, R387, R412, R419: a fetch that misses freezes its sequencer and counts; the line that arrives holds the bytes of memory; a parked access
that no longer misses is freed and performed, and one that does stays; a fatal release faults its requester; a memory-side fault is not precise; a flush
leaves no line of its region in the L2; and the miss ring's registers keep what is written. -/
def Obligations.FetchesAndMisses : Prop :=
  ∀ (s : State) (f : Fetcher) (g : GroupRef) (i : SliceId) (ctl : Fin 2) (entry : BitVec 10) (o : MemOp) (x : LaneAcc) (pa : Nat) (hc : Bool)
      (j : SliceId) (value addr : Word) (code detail : BitVec 8) (d : BitVec 6),
    let a := fetcherAgent f
    let pc := codeAddr (s.scOf a).spc
    let key := ctl.val * 1024 + entry.toNat
    let e : BogEntry := tabGet {} (s.slice i).bog key
    let kept (t : State) : Prop := s.sameMemory t ∧ ∀ a r, (t.scOf a).read r = (s.scOf a).read r
    ((∀ g k, f ≠ .lane g k) → s.fetchAt a pc = none → (s.scOf a).frozen = false → s.does (.fetchMiss f) fun t =>
      (t.scOf a).frozen = true ∧ (t.scOf a).spc = (s.scOf a).spc ∧ t.coreReg (agentCore a) 0x101 = s.coreReg (agentCore a) 0x101 + 1 ∧ kept t)
    ∧ (f = .scalar g → s.fetchAt a pc = none → (s.scOf a).frozen = true → s.fetchParked f = false →
        (let base : Word := BitVec.ofNat 64 (pc.toNat / 64 * 64)
         isGlobal base → s.injectorOff → s.reach (s.agentPart a) (s.agentAsid a) base 4 = .ok pa hc → s.poisoned pa 64 false = false → s.does (.fetchFill f) fun t =>
          (t.scOf a).frozen = false ∧ t.fetchAt a pc = some (BitVec.ofNat 32 (memReadLE s.mem (pa + pc.toNat % 64) 4)) ∧ kept t))
    ∧ (e.used = true → s.reach (s.reqPart e.who) e.asid e.va e.kind.toNat = .miss → s.does (.bogRetry i ctl entry) fun t =>
        (tabGet {} (t.slice i).bog key : BogEntry) = { e with since := s.now }
          ∧ ((s.slice i).heldRecs = [] → s.ringRoom i = true → t.sliceReg i 0x764 = s.sliceReg i 0x764 + 1))
    ∧ (e.used = true → e.who = .memop f o.id → (s.slice i).missq = [] → (s.slice i).heldRecs = [] → (s.scOf a).memq = [o] → o.accs = [x] → o.got = [] →
        x.place = .global e.asid e.va → o.kind = .load → o.dest = .sreg d → e.kind = 1 → s.reach (s.agentPart a) e.asid e.va 1 = .ok pa hc → targetOf pa = .hbm j → s.poisoned pa o.width false = false →
        s.injectorOff → s.does (.bogRetry i ctl entry) fun t => (tabGet {} (t.slice i).bog key : BogEntry).used = false ∧ (t.scOf a).memq = [] ∧ s.sameMemory t
          ∧ ∀ r, (t.scOf a).read r = if r = d ∧ d ≠ 0 then storedIn d (o.extend (s.hbmRead pa o.width) 64) else (s.scOf a).read r)
    ∧ (e.used = true → e.who = .memop (.scalar g) o.id → (s.slice i).missq = [] → (s.slice i).heldRecs = [] → (s.group g).sc.memq = [o] → o.split = none →
        (s.group g).faultCode = 0 → (s.group g).resident = true → s.does (.bogFatal i ctl entry) fun t =>
          (tabGet {} (t.slice i).bog key : BogEntry).used = false ∧ (t.group g).sc.memq = [] ∧ (t.group g).faultCode = 0x10 ∧ (t.group g).faultPrec = false
            ∧ (t.group g).faultAddr = e.va ∧ (t.group g).faultInstr = o.word ∧ kept t)
    ∧ (e.used = true → (s.slice i).missq = [] → (s.slice i).heldRecs = [] →
        (let onPage (y : BogEntry) : Prop := y.used = true ∧ y.asid = e.asid ∧ y.va.toNat / 4096 = e.va.toNat / 4096
         (∀ n, onPage (tabGet {} (s.slice i).bog n) → (∃ f, (tabGet {} (s.slice i).bog n).who = .fetch f) ∧
            s.reach (s.reqPart (tabGet {} (s.slice i).bog n).who) e.asid (tabGet {} (s.slice i).bog n).va (tabGet {} (s.slice i).bog n).kind.toNat ≠ .miss) →
         s.does (.bogRetryPage i ctl entry) fun t => kept t ∧ ∀ n, (tabGet {} (t.slice i).bog n : BogEntry).used = true ↔
            ((tabGet {} (s.slice i).bog n : BogEntry).used = true ∧ ¬onPage (tabGet {} (s.slice i).bog n))))
    ∧ (f = .scalar g → (s.group g).resident = true → (s.group g).faultCode = 0 → code ∈ ([0x10, 0x11, 0x12, 0x13, 0x14] : List (BitVec 8)) →
        s.does (.memorySideFault f code addr detail) fun t => (t.group g).faultCode = code ∧ (t.group g).faultPrec = false ∧ (t.group g).faultAddr = addr
          ∧ (t.group g).faultDetail = detail ∧ (t.group g).sc.spc = (s.group g).sc.spc ∧ kept t)
    ∧ (s.does (.wcinvWrite i value) fun t => kept t ∧ (∀ g, t.group g = s.group g) ∧ ∀ k n, t.sliceReg k n = s.sliceReg k n)
    ∧ (∀ p, s.partOf i = some p → s.does (.l2flushWrite i value) fun t => kept t ∧ ∀ k : SliceId, s.member p k = true → ∀ y ∈ (t.slice k).l2,
        ¬(y.2.key / 2 ^ 58 = bitsOf value 15 0 ∧ y.2.key % 2 ^ 58 / 1024 = bitsOf value 55 16) ∧ y ∈ (s.slice k).l2)
    ∧ ((s.slice i).heldRecs = [] → (s.slice i).missq = [] →
        (s.does (.mrbaseWrite i value) fun t => kept t ∧ bitsOf (t.sliceReg i 0x763) 55 12 = bitsOf value 55 12
          ∧ bitsOf (t.sliceReg i 0x763) 4 0 = max 4 (min 16 (bitsOf value 4 0)) ∧ bitsOf (t.sliceReg i 0x763) 11 5 = 0 ∧ bitsOf (t.sliceReg i 0x763) 63 56 = 0)
        ∧ s.does (.mrrdWrite i value) fun t => kept t ∧ t.sliceReg i 0x765 = value)
    ∧ (∀ (hart : Fin 16) (p : PartId) (pa : BitVec 48) (n : Nat), s.partOf i = some p → (s.slice i).hostHeld = false → 0 < n → n ≤ 8 → targetOf pa.toNat = .hbm j → pa.toNat + n ≤ 2 ^ 40 →
        (let passes (load : Bool) : Prop := s.hostPasses i p pa.toNat load = true ∧ s.hostPasses i p (pa.toNat + n - 1) load = true
         (passes true → s.injectorOff → s.poisoned pa.toNat n false = false → s.does (.hostAccess i hart pa (.load n)) fun t => t.outRead = BitVec.ofNat 64 (memReadLE s.mem pa.toNat n) ∧ kept t)
         ∧ (passes false → s.outsideReady pa.toNat n = true → s.does (.hostAccess i hart pa (.store n value)) fun t => ∀ y, memGet t.mem y
            = if pa.toNat ≤ y ∧ y < pa.toNat + n then BitVec.ofNat 8 (value.toNat / 2 ^ (8 * (y - pa.toNat))) else memGet s.mem y)))


/-! ### Copies, tile stores and storage chains -/

/-- R285, R286, R288, R291, R293: `tcopy` with a valid record, `tstore` of a tile whose header passes its checks, and `storq` each send one operation on its way and
make their register its token; a record or header that fails raises header-integrity in a group, and answers 0x81 or 0x82 in the puppet slot. -/
def Obligations.CopiesIssued : Prop :=
  ∀ (s : State) (f : Fetcher) (d a b : BitVec 6) (scope n : BitVec 3),
    ((∃ g, s.cur = .scalar g ∧ f = .scalar g) ∨ ∃ c, s.cur = .puppet c ∧ f = .puppet c) → d ≠ 0 → 2 ≤ scope.toNat → scope.toNat ≤ 6 →
    let puppet := agentPuppet s.cur
    let e : EngId := { a := s.cur, part := s.agentPart s.cur, asid := s.agentAsid s.cur }
    let sends (i : Instr) (kind : AsyncKind) : Prop := s.does i fun t => s.passedWord t ∧ (t.scOf s.cur).pend.getLsbD d.toNat = true
      ∧ ∃ o : AsyncOp, t.asyncs = s.asyncs ++ [o] ∧ o.kind = kind ∧ o.issuer = f ∧ o.part = e.part ∧ o.asid = e.asid ∧ o.scope = scope ∧ o.token = .reg f d
          ∧ o.word = s.spc ∧ o.done = false ∧ o.stage = 0 ∧ o.lock = none ∧ o.wct = 0
    let fails (i : Instr) (status : Nat) : Prop :=
      (∀ g, s.cur = .scalar g → (s.group g).faultCode = 0 → s.faults i g 0x09)
      ∧ (puppet = true → s.yields i d (BitVec.ofNat 64 status) fun t => t.asyncs = s.asyncs ∧ (t.scOf s.cur).pend.getLsbD d.toNat = false)
    (∀ g, s.cur = .scalar g → (s.group g).loose = []) →
    (∀ s', n ≠ 0 → a.toNat + 1 + n.toNat ≤ 59 → s.canIssue ([b] ++ (List.range (n.toNat + 2)).map fun i => a + BitVec.ofNat 6 i) [d] →
      s.mayRead e (s.sreg b) 64 = true → s.meet e 1 (s.sreg b) 64 = .ok → s.readLines e 1 (s.sreg b) 64 = (s', .ok) →
      let r := s'.engWords e 1 (s.sreg b) 16
      let x := s.sreg (a + 1)
      let off := bitsOf x 27 0
      let loff := if puppet then off else if shpDir r = 2 then off % 16384 else off % 0x80000
      let valid := shapeOk r n.toNat (bitsOf x 63 32) (!s.ownsMatrix s.cur)
      let wg := match s.cur with | .scalar g => (s.group g).wg | _ => 0
      let h := bytesToWords 8 (s.chipRead (localPlace f e.part wg loff) 32)
      let localOk : Prop := shpDir r = 1 → shpHdr r = true → hdrOk (s.feature e.part 2) h = true ∧ hdrEfmt h = shpEfmt r ∧ shpRows r ≤ hdrRows h ∧ shpCols r ≤ hdrCols h
      (valid = true → localOk → sends (.tcopy d a b scope n) (.tcopy r (s.sreg a) loff (bitsOf x 63 32)
        ((List.range n.toNat).map fun i => ((s.sreg (a + 2 + BitVec.ofNat 6 i)).extractLsb' 0 32).toInt)))
      ∧ (valid = false → fails (.tcopy d a b scope n) 0x81)
      ∧ (valid = true → shpDir r = 1 → shpHdr r = true → hdrOk (s.feature e.part 2) h = false → fails (.tcopy d a b scope n) 0x82))
    ∧ (s.canIssue [a, b] [d] → s.injectorOff →
        let off := (if puppet then bitsOf (s.sreg a) 27 0 else bitsOf (s.sreg a) 18 0) / 32 * 32
        let rot := bitsOf (s.sreg a) 34 32
        let wg := match s.cur with | .scalar g => (s.group g).wg | _ => 0
        let h := bytesToWords 8 (s.chipRead (localPlace f e.part wg off) 32)
        let good : Prop := hdrOk (s.feature e.part 2) h = true ∧ (rot ≠ 0 → hdrPitch h % 32 = 0)
        (good → sends (.tstore d a b scope) (.tstore off rot (BitVec.ofNat 64 ((s.sreg b).toNat / 32 * 32)) h)) ∧ (¬good → fails (.tstore d a b scope) 0x82))
    ∧ (s.canIssue [a] [d] → sends (.storq d a scope) (.storq (BitVec.ofNat 64 ((s.sreg a).toNat / 128 * 128)) []))

/-- R287, R289 to R292, R294, R314, R315: an operation that can perform its accesses performs them, and its token is written when its writes are complete at its
scope: STATUS in bits 7 to 0 and the completion time above; until then the operation waits with nothing written to its token; a faulted one leaves its
token unwritten. An all-or-nothing store takes the tile's lock, writes one row or the metadata after another, and at last the header with VERSION one up,
with which the lock goes; these steps are the model's grain (log entry 166). A chain reads its descriptor when it starts. A copy into a local tile leaves each element of
the box in its place, and 0 where the box lies outside the tensor. -/
def Obligations.CopiesComplete : Prop :=
  ∀ (s u : State) (o : AsyncOp) (i : Instr) (outcome : EngDone) (g : GroupRef) (d : BitVec 6) (wct va base : Word) (st loff lpitch rot : Nat) (c : Cause) (k : Kind)
      (r h w : List W32) (cs : List Int) (dst desc : Word) (wg : Workgroup),
    s.asyncGoing o.id = some o → o.issuer = .scalar g → o.token = .reg (.scalar g) d → d ≠ 0 →
    let time : Word := if o.wct.toNat < wct.toNat then wct else o.wct
    let complete (time : Word) : Prop := o.scope.toNat ≤ 2 ∨ (o.scope = 3 ∧ o.inNbh = false) ∨ (o.scope.toNat ≤ 4 ∧ time.toNat < s.now.toNat) ∨ time.toNat + 3 ≤ s.now.toNat
    let gone (t : State) : Prop := ∀ x ∈ t.asyncs, x.id ≠ o.id
    let regs (t : State) (v : Word) : Prop := ∀ r, (t.group g).sc.read r = if r = d then storedIn d v else (s.group g).sc.read r
    let ends (v : Nat) : Prop := s.does i fun t => gone t ∧ (t.group g).sc.pend.getLsbD d.toNat = false ∧ regs t (BitVec.ofNat 64 v) ∧ t.mem = u.mem
    let runs : Prop := (i = .tcopyComplete o.id ∧ o.kind = .tcopy r base loff lpitch cs ∧ outcome = s.copy o r base loff lpitch cs)
      ∨ (i = .tstoreComplete o.id ∧ o.kind = .tstore loff rot dst h ∧ outcome = s.unlessLocal o fun s => s.storeTile o loff rot dst h)
      ∨ (i = .storageChainComplete o.id ∧ o.kind = .storq desc w ∧ w ≠ []
          ∧ outcome = if o.stage = 1 then s.recordChain o w else s.chain o w fun s r => s.endChain o w r)
    (runs → o.done = false → outcome = .done u wct st →
      (complete time → ends (st % 256 + bitsOf time 55 0 * 256))
      ∧ (¬complete time → s.does i fun t => (∃ x ∈ t.asyncs, x.id = o.id ∧ x.done = true ∧ x.wct = time ∧ x.status = BitVec.ofNat 8 st)
          ∧ (t.group g).sc.pend = (s.group g).sc.pend ∧ (∀ r, (t.group g).sc.read r = (s.group g).sc.read r) ∧ t.mem = u.mem))
    ∧ (runs → o.done = true → u = s → complete o.wct → ends (o.status.toNat + bitsOf o.wct 55 0 * 256))
    ∧ (runs → o.done = false → outcome = .wait u → s.does i fun t => t = u)
    ∧ (runs → o.done = false → outcome = .fault u c va k → s.does i fun t => gone t ∧ (t.group g).sc.pend = (s.group g).sc.pend
        ∧ ∀ r, (t.group g).sc.read r = (s.group g).sc.read r)
    ∧ (o.kind = .storq desc [] → s.meet o.eng 5 desc 128 = .ok → s.readLines o.eng 5 desc 128 = (u, .ok) → s.does (.storageChainStart o.id) fun t => s.sameMemory t
        ∧ t.asyncs = s.asyncs.map fun x => if x.id = o.id then { o with kind := .storq desc (u.engWords o.eng 5 desc 32) } else x)
    ∧ (o.kind = .tstore loff rot dst h → o.done = false → o.saved = false → o.spadAt = none →
        (let parts := s.storeParts o loff rot dst h
         let p := s.lockPlace o.eng 6 dst
         let now (t : State) (stage : Nat) : Prop := ∃ x ∈ t.asyncs, x.id = o.id ∧ x.stage = stage ∧ x.lock = some p
         s.meetList o.eng 6 ((dst, 32) :: parts.map fun e => (e.1, e.2.length)) = .ok →
          (o.stage = 0 → o.lock = none →
            (p ∉ s.tileLocks → s.does (.tstoreComplete o.id) fun t => s.sameMemory t ∧ p ∈ t.tileLocks ∧ now t 1)
            ∧ (p ∈ s.tileLocks → s.does (.tstoreComplete o.id) fun t => t = s))
          ∧ (∀ e, o.stage ≠ 0 → o.lock = some p → parts[o.stage - 1]? = some e → s.does (.tstoreComplete o.id) fun t =>
            t.mem = (s.engWrite o.eng e.1 e.2).1.mem ∧ t.tileLocks = s.tileLocks ∧ now t (o.stage + 1))
          ∧ (o.stage = parts.length + 1 → o.lock = some p → s.does (.tstoreComplete o.id) fun t =>
            let old := wordAt (s.engWords o.eng 6 dst 8) 4
            t.mem = (s.engWrite o.eng dst (wordsToBytes (hdrSeal (setWord (setWord h 0 (wordAt h 0 ||| 0x1000000)) 4 (old + 1))))).1.mem ∧ p ∉ t.tileLocks)))
    ∧ (i = .tcopyComplete o.id → o.kind = .tcopy r base loff lpitch cs → o.done = false → o.saved = false → o.spadAt = none → o.wct = 0 → complete 0 →
        shpDir r = 0 → shapeOk r cs.length lpitch true = true → tabFind (s.core g.at).wgs o.wg = some wg → loff + 32 + 64 * lpitch ≤ wg.spadLen →
        (let f := shpEfmt r
         let at' (row col : Nat) : List Int := cs.zipIdx.map fun e => e.1 + (if e.2 = 0 then (col : Int) else if e.2 = 1 then (row : Int) else 0)
         let inside (row col : Nat) : Prop := ∀ e ∈ (at' row col).zipIdx, 0 ≤ e.1 ∧ e.1 < (shpSize r e.2 : Int)
         let runs' := (boxElems r base cs).map fun x => (x.2.2.1, elemBytes f)
         s.meetList o.eng 5 runs' = .ok → s.readList o.eng 5 runs' = (u, .ok) → s.does i fun t => gone t ∧ s.sameMemory t
          ∧ ((∀ row < shpRows r, ∀ col < shpCols r, inside row col) → regs t 1)
          ∧ ((∃ row col, row < shpRows r ∧ col < shpCols r ∧ ¬inside row col) → regs t 2)
          ∧ (let tile : TileSrc := { hdr := [], pitch := lpitch, rot := shpRot r, byte := fun y => (t.chipRead (.spad g.at o.wg (loff + 32 + y)) 1).headD 0 }
             ∀ row < shpRows r, ∀ col < shpCols r,
              (inside row col → let x := boxAddr r base (at' row col); tile.code f row col = u.elemAt o.eng f x.1 x.2)
              ∧ (¬inside row col → tile.code f row col = 0))))


/-! ### The matrix pipes -/

/-- R227, R230, R245, R248 to R258: a matrix word of the owning workgroup puts one operation at the end of the pipes and of the group's open batch and gives its
register its status at once; a word whose operands fail a check raises that check's fault, and one of a workgroup that does not own the registers
illegal-instruction; `mloop` and `mvec` of no steps do nothing (what the pipes have completed of late is the group's own here: what an unordered writer of
another group spoils is not spoken of); `mstat`, `mfence`, `mwait` and `mready` answer when what they wait for is complete, and
else hold the stream. -/
def Obligations.MatrixWords : Prop :=
  ∀ (s : State) (g : GroupRef) (c d a b : BitVec 6) (bsrc asrc tile : Bool) (k r v bt : BitVec 3) (n : BitVec 2) (q : BitVec 4),
    s.cur = .scalar g → s.injectorOff → (s.group g).faultCode = 0 → (∀ p ∈ (s.core g.at).mlog, p.slot = g.slot) →
    let core (t : State) := t.core g.at
    let v0 := s.group g
    let ops (t : State) : List Nat := (core t).mops.map (·.id)
    let puts (i : Instr) (kind : MatKind) (p : State → Prop) : Prop := s.does i fun t => s.passedWord t ∧ p t ∧ ∃ m : MatOp, (core t).mops.getLast? = some m
      ∧ ops t = ops s ++ [m.id] ∧ m.kind = kind ∧ m.slot = g.slot ∧ m.word = s.spc ∧ (t.group g).unfenced = v0.unfenced ++ [m.id]
    let accIs (t : State) (n efmt : Nat) (inuse : Bool) : Prop := (t.acc g.at n).efmt.toNat = efmt ∧ (t.acc g.at n).inuse = inuse ∧ (t.acc g.at n).dirty = inuse
      ∧ (t.acc g.at n).elems = (s.acc g.at n).elems ∧ ∀ m, m ≠ n → t.acc g.at m = s.acc g.at m
    let tileIs (t : State) (n : Nat) (hdr : List W32) (inuse : Bool) : Prop := (t.tile g.at n).hdr = hdr ∧ (t.tile g.at n).inuse = inuse
      ∧ (t.tile g.at n).dirty = inuse ∧ (t.tile g.at n).data = (s.tile g.at n).data ∧ ∀ m, m ≠ n → t.tile g.at m = s.tile g.at m
    let still (t : State) : Prop := (core t).mops = (core s).mops ∧ (core t).accs = (core s).accs ∧ (core t).tiles = (core s).tiles
    let idle (n : Nat) : Prop := ∀ o ∈ (core s).mops, o.slot = g.slot → n ∉ o.kind.reads ++ o.kind.writes
    let done (ids : List Nat) : Prop := ∀ x ∈ ids, x ∉ ops s ∧ ∀ o ∈ s.asyncs, o.id ≠ x
    let free (i : Instr) : Prop := scalarReserved i = false
    (s.ownsMatrix s.cur = true →
      (s.canIssue [] [] → (r.toNat < 4 → puts (.mzero r) (.mzero false r false) fun t => accIs t r.toNat 0 true)
        ∧ (r.toNat < 4 → puts (.mzeroRel false r) (.mzero false r true) fun t => accIs t r.toNat 0 false)
        ∧ (puts (.mzeroRel true r) (.mzero true r true) fun t => tileIs t r.toNat resetTileHdr false))
      ∧ (let i := Instr.mloop c a b bsrc asrc k n
         let x := s.sreg c
         free i → s.canIssue ([c] ++ (if asrc then [a, a + 1] else []) ++ if bsrc then [b, b + 1] else []) [] →
         (bitsOf x 3 0 = 0 → s.does i fun t => s.passedWord t ∧ still t)
         ∧ (bitsOf x 3 0 ≠ 0 →
            let sa := s.slotWord g (if x.getLsbD 19 then bitsOf x 18 16 else k.toNat)
            let opnd (desc : Bool) (a : BitVec 6) : Operand := if desc then .desc (s.sreg a) (s.sreg (a + 1)) else .tiles (a.extractLsb' 0 3)
            (∀ o e, s.checkStep g n sa (s.slotWord g k.toNat) (opnd asrc a) (opnd bsrc b) x 64 false = .ok (o, e) → puts i (.mloop o) fun t => accIs t n.toNat (e % 64) true)
            ∧ ∀ f, s.checkStep g n sa (s.slotWord g k.toNat) (opnd asrc a) (opnd bsrc b) x 64 false = .error f → s.faults i g f.code))
      ∧ (let i := Instr.mvec c a bt v k n
         let x := s.sreg c
         free i → s.canIssue [c, a, a + 1] [] →
         (bitsOf x 3 0 = 0 → s.does i fun t => s.passedWord t ∧ still t)
         ∧ (let addr : Word := BitVec.ofNat 64 ((s.sreg a).toNat / 32 * 32)
            ∀ s', bitsOf x 3 0 ≠ 0 → s.mayRead (s.matEng g) addr 32 = true → s.meetHeader g addr (s.sreg (a + 1)) = .ok → s.readHeader g addr (s.sreg (a + 1)) = (s', .ok) →
            let sa := s.slotWord g (if x.getLsbD 19 then bitsOf x 18 16 else k.toNat)
            let check := s'.checkStep g n sa (s.slotWord g k.toNat) (.weights addr (s.sreg (a + 1))) (.tiles bt) x (v.toNat + 1) true
            (∀ o e, check = .ok (o, e) → puts i (.mvec o) fun t => accIs t n.toNat (e % 64) true) ∧ ∀ f, check = .error f → s.faults i g f.code))
      ∧ (let i := Instr.mload a tile r
         let x := s.sreg a
         let y := s.sreg (a + 1)
         let src := s.opTile g (.desc x y) 0 none
         let ok : Prop := hdrRecOk (s.xhdr g) src.hdr src.srec = true ∧ hdrPitch src.hdr = bitsOf y 31 0 ∧ (bitsOf y 34 32 ≠ 0 → hdrPitch src.hdr % 32 = 0)
         free i → s.canIssue [a, a + 1] [] →
         (¬ok → s.faults i g 0x09) ∧ (∀ f, ok → s.mloadFault g tile r y src = some f → s.faults i g f.code)
         ∧ (ok → s.mloadFault g tile r y src = none → puts i (.mload tile r x y src.hdr) fun t =>
            if tile then (t.tile g.at r.toNat).inuse = true ∧ (t.tile g.at r.toNat).dirty = true ∧ hdrRows (t.tile g.at r.toNat).hdr = hdrRows src.hdr
              ∧ hdrCols (t.tile g.at r.toNat).hdr = hdrCols src.hdr ∧ hdrEfmt (t.tile g.at r.toNat).hdr = hdrEfmt src.hdr
            else accIs t r.toNat (hdrEfmt src.hdr) true))
      ∧ (let i := Instr.mdrain a b k n
         let o := s.cvtOp g (s.slotWord g k.toNat) (accFmt (s.acc g.at n.toNat)) (s.sreg b) 64 64
         let kind : MatKind := .mdrain n (s.sreg a) (s.sreg (a + 1)) ((s.sreg b).getLsbD 4) o
         let steps (t : State) (m : Nat) : Prop := (t.group g).fpc.extractLsb' 32 32 = lfsrStep^[m] (v0.fpc.extractLsb' 32 32) ∧ (core t).accs = (core s).accs
         free i → s.canIssue [a, a + 1, b] [] →
         (o.mode ≠ 6 → puts i kind fun t => steps t 0)
         ∧ (o.mode = 6 → v0.lq = [] → v0.block = none → puts i kind fun t => steps t (o.rows * o.cols))
         ∧ (o.mode = 6 → v0.lq ≠ [] ∨ v0.block ≠ none → s.does i fun t => s.heldAt t ∧ (t.group g).sc.wait = .lsync ∧ still t))
      ∧ (let i := Instr.mcvt r tile bt b k
         free i → s.canIssue [b] [] →
         (∀ f, s.mcvtSource g tile bt (s.slotWord g k.toNat) = .error f → s.faults i g f.code)
         ∧ ∀ h f, s.mcvtSource g tile bt (s.slotWord g k.toNat) = .ok (h, f) →
            let o := s.cvtOp g (s.slotWord g k.toNat) f (s.sreg b) (hdrRows h) (hdrCols h)
            (hdrSpar h = 1 ∨ isOperandFmt o.fmt = false → s.faults i g 0x0A)
            ∧ (hdrSpar h ≠ 1 → isOperandFmt o.fmt = true → o.mode ≠ 6 ∨ (v0.lq = [] ∧ v0.block = none) → puts i (.mcvt r tile bt h o) fun t =>
                tileIs t r.toNat (hdrMake o.fmt o.rows o.cols (packedBytes o.fmt o.cols) false 0) true))
      ∧ (s.canIssue [] [d] →
          (tile = true ∨ r.toNat < 4 → let m := if tile then r.toNat else 8 + r.toNat
            (idle m → s.yields (.mstat d tile r) d (s.matStatus g.at m) still)
            ∧ (¬idle m → s.does (.mstat d tile r) fun t => s.heldAt t ∧ (t.group g).sc.wait = .stall ∧ still t))
          ∧ (r.toNat < 4 → idle (8 + r.toNat) → s.yields (.mstatClr d r) d (s.matStatus g.at (8 + r.toNat)) fun t =>
              (t.acc g.at r.toNat).nanc = 0 ∧ (t.acc g.at r.toNat).elems = (s.acc g.at r.toNat).elems ∧ ∀ m, m ≠ r.toNat → t.acc g.at m = s.acc g.at m)
          ∧ (let old : List Nat := tabGet [] v0.batches v0.nextBatch.toNat
             (done old → s.yields (.mfence d) d (v0.nextBatch.setWidth 64) fun t => tabGet [] (t.group g).batches v0.nextBatch.toNat = v0.unfenced
                ∧ (t.group g).unfenced = [] ∧ (t.group g).nextBatch = v0.nextBatch + 1 ∧ still t
                ∧ ∀ m, m ≠ v0.nextBatch.toNat → tabGet [] (t.group g).batches m = tabGet [] v0.batches m)
             ∧ (¬done old → s.does (.mfence d) fun t => s.heldAt t ∧ (t.group g).sc.wait = .stall ∧ (t.group g).unfenced = v0.unfenced)))
      ∧ (∀ (i : Instr) (m : Nat), (i = .mwaitImm q ∧ m = q.toNat ∧ s.canIssue [] []) ∨ (i = .mwaitReg a ∧ m = bitsOf (s.sreg a) 3 0 ∧ s.canIssue [a] []) →
          (done (tabGet [] v0.batches m) → s.does i fun t => s.passedWord t ∧ still t)
          ∧ (¬done (tabGet [] v0.batches m) → s.does i fun t => s.heldAt t ∧ (t.group g).sc.wait = .mwait ∧ (t.group g).sc.waitMask.toNat = 2 ^ m))
      ∧ (s.canIssue [a] [] → v0.sc.wait ≠ .stall →
          let named (m : Nat) : Prop := m < 12 ∧ (bitsOf (s.sreg a) 11 0 = 0 ∨ (s.sreg a).getLsbD m = true)
          let busy : Prop := ∃ o ∈ (core s).mops, o.id < s.nextId ∧ ∃ m ∈ o.kind.reads ++ o.kind.writes, named m
          (¬busy → s.does (.mready a) fun t => s.passedWord t ∧ still t) ∧ (busy → s.does (.mready a) fun t => s.heldAt t ∧ (t.group g).sc.wait = .stall ∧ still t)))
    ∧ (s.ownsMatrix s.cur = false → ∀ i ∈ [Instr.mloop c a b bsrc asrc k n, .mvec c a bt v k n, .mzero r, .mzeroRel tile r, .mload a tile r, .mdrain a b k n,
          .mcvt r tile bt b k, .mstat d tile r, .mstatClr d r, .mfence d, .mwaitImm q, .mwaitReg a, .mready a], free i → s.faults i g 0x01)

/-- R133, R228, R232, R237, R246 to R254: the operation at the head of a pipe takes its step or completes: a step changes only its accumulator, in the columns that it
names, and one of two INT8 tiles adds the exact sum of their products; `mzero` leaves zeros, `mload` the bytes or elements of its tile,
`mdrain` and `mcvt` the converted elements. An operation that another group's has spoiled, or whose operands have been written since it issued, is not
spoken of. -/
def Obligations.MatrixOperations : Prop :=
  ∀ (s : State) (c : CoreRef) (m : MatOp) (w : Workgroup),
    m.spoil = [] → m.spoiled = false → m.hits = [] →
    let g : GroupRef := ⟨c.slice, c.core, m.slot⟩
    let wg := (s.group g).wg
    let gone (t : State) : Prop := (t.core c).mops = (s.core c).mops.filter fun p => p.id != m.id
    let tiles (t : State) (but : Nat) : Prop := ∀ n, n ≠ but → t.tile c n = s.tile c n
    let accs (t : State) (but : Nat) : Prop := ∀ n, n ≠ but → t.acc c n = s.acc c n
    let regs (t : State) : Prop := s.sameMemory t ∧ ∀ h r, (t.group h).sc.read r = (s.group h).sc.read r
    let element (t : State) (n x : Nat) : Acc96 := tabGet 0 (t.acc c n).elems x
    let stepped (i : Instr) (o : StepOp) (again : StepOp → MatKind) : Prop := s.does i fun t => regs t ∧ accs t o.acc.toNat ∧ tiles t 8
      ∧ (∀ x, x < 4096 → o.cols ≤ x % 64 → element t o.acc.toNat x = element s o.acc.toNat x)
      ∧ (o.done + 1 < bitsOf o.ctl 3 0 → (t.core c).mops = (s.core c).mops.map fun p => if p.id = m.id then { m with kind := again { o with done := o.done + 1 } } else p)
      ∧ (bitsOf o.ctl 3 0 ≤ o.done + 1 → gone t)
    (s.pipeHead c false = some m →
      (∀ o, m.kind = .mloop o → stepped (.mloopStep c) o .mloop
        ∧ (∀ (ra rb : BitVec 3) (ha hb : List W32), o.a = .tiles ra → o.b = .tiles rb → o.ah = [ha] → o.bh = [hb] → o.done = 0 → o.depth = 32 → o.cols = 64 →
            bitsOf o.ctl 3 0 = 1 → bitsOf o.ctl 9 8 = 1 → bitsOf o.ctl 11 10 = 1 → bitsOf o.slotA 13 12 = 0 → bitsOf o.slotB 13 12 = 0 →
            (∀ h ∈ [ha, hb], hdrEfmt h = 0x0B ∧ hdrSfmt h = 0 ∧ hdrSpar h = 0) →
            let int8 (r : BitVec 3) (h : List W32) (i j : Nat) : Int :=
              if i < hdrRows h ∧ j < hdrCols h then (memGet (s.tile c r.toNat).data (i * hdrPitch h + j)).toInt else 0
            s.does (.mloopStep c) fun t => gone t ∧ regs t ∧ ∀ i < 64, ∀ j < 64, element t o.acc.toNat (64 * i + j)
              = BitVec.ofInt 96 ((element s o.acc.toNat (64 * i + j)).toInt + ((List.range 32).map fun k => int8 ra ha i k * int8 rb hb k j).sum)))
      ∧ ∀ o addr m1, m.kind = .mvec o → o.a = .weights addr m1 → s.injectorOff →
          s.meetWeights g o addr m1 ((List.range (o.reach (ctlKA o.ctl))).filter fun t => decide (o.done * o.depth / ctlKA o.ctl ≤ t)) = .ok →
          stepped (.mvecStep c) o .mvec)
    ∧ (s.pipeHead c true = some m →
      (∀ n rel, m.kind = .mzero false n rel → s.does (.mzeroComplete c) fun t => gone t ∧ regs t ∧ accs t n.toNat ∧ tiles t 8
        ∧ (∀ x, element t n.toNat x = 0) ∧ (t.acc c n.toNat).nanc = 0)
      ∧ (∀ n rel, m.kind = .mzero true n rel → s.does (.mzeroComplete c) fun t => gone t ∧ regs t ∧ accs t 4 ∧ tiles t n.toNat
        ∧ ∀ x, memGet (t.tile c n.toNat).data x = 0)
      ∧ (∀ n d d1 h, m.kind = .mload true n d d1 h → let src := s.opTile g (.desc d d1) 0 (some h)
          s.does (.mloadComplete c) fun t => gone t ∧ regs t ∧ accs t 4 ∧ tiles t n.toNat
            ∧ ∀ r < hdrRows h, ∀ x < regPitch h, memGet (t.tile c n.toNat).data (r * regPitch h + x) = src.byte (rotated src.pitch src.rot r x))
      ∧ (∀ n d d1 h, m.kind = .mload false n d d1 h → let src := s.opTile g (.desc d d1) 0 (some h)
          s.does (.mloadComplete c) fun t => gone t ∧ regs t ∧ accs t n.toNat ∧ tiles t 8
            ∧ ∀ i < 64, ∀ j < 64, element t n.toNat (64 * i + j) = if i < hdrRows h ∧ j < hdrCols h then BitVec.ofNat 96 (src.code (hdrEfmt h) i j) else 0)
      ∧ (∀ n d d1 atom o, m.kind = .mdrain n d d1 atom o → (atom = true → .spad c wg (descTile d 0) ∉ s.tileLocks) → s.does (.mdrainComplete c) fun t =>
          (t.core c).mops.map (·.id) = ((s.core c).mops.filter fun p => p.id != m.id).map (·.id) ∧ regs t ∧ accs t 4 ∧ tiles t 8
          ∧ (let at' := descTile d 0
             let pitch := bitsOf d1 31 0
             let rot := bitsOf d1 34 32
             let codes := (o.convert fun i j => accValue (s.acc c n.toNat) (o.srcFmt == 14) (s.slotNanz (s.group g).part o.slot) i j).1
             tabFind (s.core c).wgs wg = some w → o.fmt < 64 → o.rows ≤ 64 → o.cols ≤ 64 → packedBytes o.fmt o.cols ≤ pitch → (rot ≠ 0 → pitch % 32 = 0) → at' + 32 + o.rows * pitch ≤ w.spadLen →
              (let h := bytesToWords 8 (t.chipRead (.spad c wg at') 32)
               hdrEfmt h = o.fmt % 64 ∧ hdrRows h = o.rows % 65536 ∧ hdrCols h = o.cols % 65536 ∧ hdrPitch h = pitch ∧ hdrAtom h = atom)
              ∧ (let tile : TileSrc := { hdr := [], pitch := pitch, rot := rot, byte := fun y => (t.chipRead (.spad c wg (at' + 32 + y)) 1).headD 0 }
                 ∀ i < o.rows, ∀ j < o.cols, tile.code o.fmt i j = (((codes.getD i []).getD j 0) % 2 ^ codeWidth o.fmt))
              ∧ ∀ y, y < at' ∨ at' + 32 + o.rows * pitch ≤ y → t.chipRead (.spad c wg y) 1 = s.chipRead (.spad c wg y) 1))
      ∧ (∀ d fromAcc src h o, m.kind = .mcvt d fromAcc src h o → s.does (.mcvtComplete c) fun t => gone t ∧ regs t ∧ accs t 4 ∧ tiles t d.toNat
          ∧ (let nanz := s.slotNanz (s.group g).part o.slot
             let from' := s.opTile g (.tiles src) 0 (some h)
             let codes := (o.convert fun i j => if fromAcc then accValue (s.acc c src.toNat) (o.srcFmt == 14) nanz i j
               else from'.factor o.srcFmt nanz i j).1
             let tile : TileSrc := { hdr := [], pitch := packedBytes o.fmt o.cols, byte := memGet (t.tile c d.toNat).data }
             ∀ i < o.rows, ∀ j < o.cols, tile.code o.fmt i j = (((codes.getD i []).getD j 0) % 2 ^ codeWidth o.fmt))))


/-! ### Links and the photonic crossbar -/

/-- R355 to R368, R415: a data flit whose CHK or SEQ is wrong is answered by one NAK and counted; one that fits the packet open in its class is accepted, and one
that does not is a link failure, as are lost lock and the eighth NAK for one SEQ. A control flit does what its type says: ACK lets go of the
flits up to its SEQ, NAK has those from its SEQ sent again, PAUSE and RESUME stop and free classes, TRAIN brings the port up; one whose CHK, SEQ or EOP is
wrong is answered by a NAK, and one that continues a packet is a link failure. Each flit time sends a control flit, a flit again, or the next of a
packet; a channel's control flits go on the opposite channel. That TRAIN and a channel's control flits are held to no SEQ is the model's choice (log entry
111). -/
def Obligations.LinkFlits : Prop :=
  ∀ (s : State) (i : SliceId) (port : PortId) (f : Flit) (k n : Nat) (cls : Fin 3) (u : TxPacket) (ws : List W32) (value : Word),
    let p := port.val
    let x := s.port i p
    let c := flitCls f
    let a := x.cls c
    let r := s.holder i p
    let d := x.dir r
    let pos (n : Nat) : Nat := if isChannel p then (flitArg f n).toNat else 0
    let lnkerr (t : State) (m : Nat) : Nat := bitsOf (t.sliceReg i (0x690 + p)) (16 * m + 15) (16 * m)
    let counts (t : State) (m : Nat) : Prop := isChannel p = false → ∀ j < 4, lnkerr t j = if j = m then min 65535 (lnkerr s j + 1) else lnkerr s j
    let others (t : State) : Prop := s.sameMemory t ∧ ∀ j q, j ≠ i ∨ q ≠ p → t.port j q = s.port j q
    let event (t : State) : Prop := (s.sliceReg i 0x773).getLsbD 11 = false → (t.sliceReg i 0x773).getLsbD 27 = true
    let rejected (t : State) : Prop := others t ∧ counts t 0 ∧ ((t.port i p).dir r).nakOut = true ∧ ((t.port i p).dir r).rxSeq = d.rxSeq
      ∧ (∀ m, (t.port i p).cls m = x.cls m) ∧ (t.port i p).ctlq = x.ctlq ++ [ctlFlit 2 (seqBytes d.rxSeq ++ [BitVec.ofNat 8 (if isChannel p then r else 0)])]
    let failed (t : State) : Prop := (t.port i p).st = 3 ∧ (t.port i p).retr = min 255 (x.retr + 1) ∧ (t.port i p).rxp = 0 ∧ (t.port i p).txp = 0
      ∧ (t.port i p).ctlq = trainFlits i p { t.port i p with firstTrain := x.firstTrain } ∧ (t.port i p).firstTrain = false ∧ event t
    let tells (ctype : Nat) : Prop := c = 3 ∧ (flitCtype f).toNat = ctype
    let whole : Prop := flitGood f = true ∧ flitCont f = false ∧ flitEop f = true
    let next : Prop := isChannel p = false → flitSeq f = (x.dir 0).rxSeq
    let strays : Prop := flitGood f = true ∧ (flitCont f = true ∨ (flitPsn f = true ∧ flitEop f = false))
    let wrong : Prop := flitGood f = false ∨ (flitCont f = false ∧ flitPsn f = false ∧ flitEop f = false) ∨ (whole ∧ ¬next)
    let sent (t : State) (g : Flit) : Prop := s.sameMemory t ∧ (t.port i p).wire = g :: x.wire
    portExists i p = true → s.injectorOff →
    (x.st = 2 → c < 3 →
      (d.nakOut = true → flitSeq f ≠ d.rxSeq → s.does (.dataFlitReceive i port f) fun t => t = s)
      ∧ (d.nakOut = false → flitGood f = false ∨ flitSeq f ≠ d.rxSeq → s.does (.dataFlitReceive i port f) rejected)
      ∧ (flitGood f = true → flitSeq f = d.rxSeq → flitCont f ≠ a.isOpen ∨ (flitPsn f = true ∧ flitEop f = false) → s.does (.dataFlitReceive i port f) failed)
      ∧ (flitGood f = true → flitSeq f = d.rxSeq → flitCont f = a.isOpen → (flitPsn f = true → flitEop f = true) → s.does (.dataFlitReceive i port f) fun t =>
          ((t.port i p).dir r).rxSeq = d.rxSeq + 1 ∧ ((t.port i p).dir r).nakOut = false ∧ ((t.port i p).cls c).isOpen = !flitEop f
          ∧ (flitEop f = false → s.sameMemory t ∧ ((t.port i p).cls c).flits = a.flits ++ [f.payload] ∧ ((t.port i p).cls c).fill = a.fill + 1)
          ∧ (flitEop f = true → flitPsn f = false → let bytes := (a.flits ++ [f.payload]).flatten
              let h := packetHeader (bytes.take 32)
              let pa := (dwordAt h 2).toNat
              p < 8 → bitsOf (wordAt h 0) 7 0 = 3 → badPacket (a.flits ++ [f.payload]) = false → s.packetPasses i p true (packetHeader ((a.flits ++ [f.payload]).getD 0 [])) = true →
              (a.flits ++ [f.payload]).all (fun b => b.length == 32) = true → bitsOf (wordAt h 1) 2 0 = i.val → pa + hdrLen h ≤ 2 ^ 40 →
              ∀ y, memGet t.mem y = if pa ≤ y ∧ y < pa + hdrLen h then bytes.getD (16 + (y - pa)) 0 else memGet s.mem y)))
    ∧ (x.st = 2 → ∀ e ∈ [(1, Instr.ack i port f), (2, .nak i port f), (3, .pause i port f), (4, .resume i port f)], tells e.1 →
        (wrong → s.does e.2 rejected) ∧ (strays → s.does e.2 failed))
    ∧ (tells 1 → whole → next → x.st = 2 → (x.dir (pos 3)).replay.findIdx? (fun y => flitSeq y.flit == flitArgSeq f) = some k → s.does (.ack i port f) fun t => others t
        ∧ (let left := (x.dir (pos 3)).replay.drop (k + 1)
           ((t.port i p).dir (pos 3)).replay = left ∧ ((t.port i p).dir (pos 3)).naks = 0
           ∧ ∀ v : TxPacket, v ∈ ((t.port i p).dir (pos 3)).txq ↔ (v ∈ (x.dir (pos 3)).txq ∧ ¬(v.closed = true ∧ v.sent = v.flits.length ∧ ∀ y ∈ left, y.pkt ≠ v.num))))
    ∧ (tells 2 → whole → next → x.st = 2 → let e := x.dir (pos 3)
        let naks := if e.nakSeq = flitArgSeq f then e.naks + 1 else 1
        (naks < 8 → e.replay.findIdx? (fun y => flitSeq y.flit == flitArgSeq f) = some k → s.does (.nak i port f) fun t => others t
          ∧ ((t.port i p).dir (pos 3)).naks = naks ∧ ((t.port i p).dir (pos 3)).resend = (e.replay.drop k).map (·.flit) ∧ (t.port i p).st = 2)
        ∧ (8 ≤ naks → s.does (.nak i port f) failed))
    ∧ (tells 3 → whole → next → x.st = 2 → s.does (.pause i port f) fun t => others t ∧ (t.port i p).rxp = x.rxp ||| (flitArg f 1).extractLsb' 0 3)
    ∧ (tells 4 → whole → next → x.st = 2 → s.does (.resume i port f) fun t => others t ∧ (t.port i p).rxp = x.rxp &&& ~~~((flitArg f 1).extractLsb' 0 3))
    ∧ (tells 5 → whole → (x.st = 1 ∨ x.st = 3 → s.does (.train i port f) fun t => ((t.port i p).dir (pos 4)).gotTrain = true
          ∧ (x.sentTrain = true → (∀ q ∈ senders i p, q = pos 4 ∨ (x.dir q).gotTrain = true) → (t.port i p).st = 2)
          ∧ (x.sentTrain = false → (t.port i p).st = x.st))
        ∧ (x.st = 2 → s.does (.train i port f) failed))
    ∧ (c = 3 → (flitCtype f = 0 ∨ 5 < (flitCtype f).toNat) → x.st = 1 ∨ x.st = 2 ∨ x.st = 3 → (whole → next → s.does (.controlFlitUnknownCtype i port f) fun t => others t ∧ counts t 3
          ∧ t.port i p = x)
        ∧ (wrong → x.st = 2 → s.does (.controlFlitUnknownCtype i port f) rejected) ∧ (strays → x.st = 2 → s.does (.controlFlitUnknownCtype i port f) failed))
    ∧ (x.st = 2 → s.portHi i p ≤ (x.cls cls.val).fill → 256 ≤ (x.cls cls.val).since → s.does (.pauseRepeat i port cls) fun t => others t ∧ (t.port i p).txp.getLsbD cls.val = true
        ∧ (t.port i p).ctlq = x.ctlq ++ [ctlFlit 3 [BitVec.ofNat 8 (2 ^ cls.val)]])
    ∧ ((x.cls cls.val).fill < s.portHi i p ∨ (x.cls cls.val).since < 256 → s.does (.pauseRepeat i port cls) fun t => t = s)
    ∧ (let b := x.cls cls.val
       n ≤ b.fill - b.flits.length → s.does (.receiveBufferDrain i port cls n) fun t => others t ∧ ((t.port i p).cls cls.val).fill = b.fill - n
        ∧ (t.port i p).ctlq = if b.fill - n ≤ s.portLo i p ∧ x.txp.getLsbD cls.val = true then x.ctlq ++ [ctlFlit 4 [BitVec.ofNat 8 (2 ^ cls.val)]] else x.ctlq)
    ∧ (x.st = 0 → s.does (.linkLockObtained i port) fun t => s.sameMemory t ∧ (t.port i p).st = 1
        ∧ (t.port i p).ctlq = trainFlits i p { t.port i p with firstTrain := x.firstTrain } ∧ (t.port i p).firstTrain = false)
    ∧ (x.st = 2 → s.does (.linkLockLost i port) fun t => s.sameMemory t ∧ failed t)
    ∧ (x.st = 1 ∨ x.st = 3 → x.since.toNat + (if p < 8 then 50000 else 2000) ≤ s.now.toNat → s.does (.linkTrainTimeout i port) fun t => others t
        ∧ (t.port i p).st = 0 ∧ event t)
    ∧ (isChannel p = false → s.does (.lnkcfgWrite i port value) fun t => s.sameMemory t ∧ (t.sliceReg i (0x6B0 + p)).getLsbD 16 = value.getLsbD 16
        ∧ (let hi := bitsOf value 7 0
           let lo := bitsOf value 15 8
           let bad : Prop := hi ≤ lo ∨ (if p < 8 then 240 else 16) < hi
           (¬bad → t.portHi i p = 8 * hi ∧ t.portLo i p = 8 * lo)
           ∧ (bad → t.portHi i p = (if p < 8 then 1024 else 128) ∧ t.portLo i p = if p < 8 then 512 else 64))
        ∧ (t.port i p).st = if value.getLsbD 16 = false then 4 else if x.st = 4 then 0 else x.st)
    ∧ (ws.length = 8 → ws ∈ (s.slice i).aborts → let no := bitsOf (s.sliceReg i 0x709) 31 0
        let at' := bitsOf (s.sliceReg i 0x708) 55 8 * 256 + no % 256 * 32
        s.does (.abortRecord i ws) fun t => event t ∧ t.sliceReg i 0x709 = BitVec.ofNat 64 ((no + 1) % 2 ^ 32) ∧ (t.slice i).aborts = (s.slice i).aborts.erase ws
          ∧ ∀ y, memGet t.mem y = if bitsOf (s.sliceReg i 0x708) 55 8 ≠ 0 ∧ at' ≤ y ∧ y < at' + 32 then (wordsToBytes ws).getD (y - at') 0 else memGet s.mem y)
    ∧ ((∀ m < 3, (x.cls m).since < 255 ∨ (x.cls m).fill < s.portHi i p) → (isChannel p = true → s.passing i (chanOf p) = false ∧ (x.st = 2 → s.releases i (chanOf p) = false)) →
        ∀ q g, s.ctlSource i p = some (q, g) → (x.st = 1 ∨ x.st = 3 ∨ (x.st = 2 ∧ x.ctlHist.countP id < 2)) → s.does (.flitSend i port) fun t =>
          sent t (sealFlit (setBits g.hdr 19 8 (match d.resend with | y :: _ => (flitSeq y).toNat | [] => d.txSeq.toNat)) g.payload)
            ∧ (t.port i q).ctlq = (s.port i q).ctlq.drop 1)
    ∧ (isChannel p = false → x.st ≠ 0 → x.st ≠ 4 → s.ctlSource i p = x.ctlq.head?.map fun g => (p, g))
    ∧ (x.st = 2 → s.ctlSource i p = none → s.reassigning i p r = false → (isChannel p = true → s.passing i (chanOf p) = false ∧ s.releases i (chanOf p) = false) →
        (∀ g gs, d.resend = g :: gs → x.rxp.getLsbD (flitCls g) = false → s.does (.flitSend i port) fun t => sent t g ∧ ((t.port i p).dir r).resend = gs ∧ ((t.port i p).dir r).txSeq = d.txSeq)
        ∧ (isChannel p = false → d.resend = [] → d.txq = [u] → u.sent < u.flits.length → u.cls < 3 → x.rxp.getLsbD u.cls = false →
            u.sent ≠ 0 ∨ s.packetPasses i p false u.header = true → d.replay.length < (if p < 8 then 1024 else 256) → s.does (.flitSend i port) fun t =>
              (let last := u.closed && u.sent + 1 == u.flits.length
               let g := dataFlit u.cls (u.sent != 0) last (last && u.poisoned) d.txSeq (u.flits.getD u.sent [])
               sent t g ∧ ((t.port i p).dir r).txSeq = d.txSeq + 1 ∧ ((t.port i p).dir r).replay = d.replay ++ [{ pkt := u.num, flit := g }])))

/-- R369 to R373, R466 to R468, R501: the holder releases the marble when another sender requests a higher class or is due a flit, and at a packet's
end after HOLD flits when another requests; it passes within the time of 2 cclk, and goes to a sender that alone requests the channel; a channel that narrows parks the wavelengths at and above MINW, and a
wake asks for every parked one; a woken wavelength that locks may widen the stripe, and those not locked in time are marked; a
reassignment gives every ring of its cluster its next DAC and ends when its rings are locked or its time is over, marking what failed; a
ring whose reading is low loses its lock. That a ring locks again by a reading is the model's choice
(log entry 120). -/
def Obligations.PhotonicEvents : Prop :=
  ∀ (s : State) (i : SliceId) (chan : ChanId) (lam : Fin 8) (cluster : ClusterId) (value : Word) (locked : BitVec 16) (ring : Fin 96) (mon : BitVec 10) (q c : Nat),
    let ch := chan.val
    let p := chanPort ch
    let x := s.port i p
    let r := s.holder i p
    let others (t : State) : Prop := s.sameMemory t ∧ ∀ n, n ≠ ch → t.chstat i n = s.chstat i n
    let field (t : State) (hi lo : Nat) : Nat := bitsOf (t.chstat i ch) hi lo
    let cfg := s.chcfg i ch
    let minw (t : State) : Nat := bitsOf (t.chcfg i ch) 3 0
    let narrowed (t : State) : Prop := others t
      ∧ (s.chanBusy i ch = true → (t.channel i ch).parkWaits = true ∧ t.chstat i ch = s.chstat i ch)
      ∧ (s.chanBusy i ch = false → minw t ≤ field s 3 0 → field t 3 0 = minw t ∧ field t 11 4 = field s 11 4 % 2 ^ minw t ∧ field t 20 20 = 0
          ∧ field t 19 12 = field s 19 12 ∧ field t 29 24 = field s 29 24 ∧ field t 63 32 = if field s 3 0 = minw t then field s 63 32 else s.stampBits 32)
      ∧ (s.chanBusy i ch = false → field s 3 0 < minw t → field t 3 0 = field s 3 0 ∧ field t 11 4 = field s 11 4)
    let woken (t : State) : Prop := others t ∧ field t 11 0 = field s 11 0 ∧ field t 63 21 = field s 63 21
      ∧ (field s 20 20 = 0 → field s 11 4 ≠ 255 → field t 20 20 = 1 ∧ (t.channel i ch).wakeAt = s.now ∧ (t.channel i ch).wakingMask.toNat = 255 - field s 11 4)
      ∧ (field s 20 20 = 1 ∨ field s 11 4 = 255 → field t 20 20 = field s 20 20)
    let passes (t : State) : Prop := others t ∧ field t 29 24 ∈ senders i p ∧ (t.channel i ch).sent = 0 ∧ (t.channel i ch).atEnd = false
      ∧ (t.channel i ch).passAt = some s.now ∧ field t 23 0 = field s 23 0 ∧ field t 63 32 = field s 63 32
    let ringWord (t : State) (n : Nat) : Word := t.sliceReg i (0x484 + n)
    let phmap (t : State) (n : Nat) : Word := t.sliceReg i (0x4E4 + n)
    portExists i p = true →
    (q ∈ senders i p → q ≠ r → (∀ m ∈ senders i p, x.due m 0 = false ∧ x.due m 1 = false ∧ (m ≠ q → x.request (senders i p) m = none)) → (∀ o, x.opener (senders i p) c = some o → o = q) →
        x.request (senders i p) q = some c → s.does (.marblePass i chan) fun t => passes t ∧ field t 29 24 = q)
    ∧ (∀ m ∈ senders i p, m ≠ r → x.due m 0 = true ∨ x.due m 1 = true ∨ (∃ c, x.request (senders i p) m = some c ∧ ∀ b, x.choice (senders i p) r = some b → b < c)
          ∨ ((s.channel i ch).atEnd = true ∧ bitsOf cfg 39 32 ≤ (s.channel i ch).sent ∧ x.request (senders i p) m ≠ none) →
        s.does (.marblePass i chan) passes)
    ∧ (s.releases i ch = false → s.does (.marblePass i chan) fun t => t = s)
    ∧ (cfg.getLsbD 4 = true → (∀ m ∈ senders i p, x.request (senders i p) m = none) → (s.channel i ch).lastReq.toNat + bitsOf cfg 31 16 ≤ s.now.toNat →
        s.does (.channelIdlePark i chan) narrowed)
    ∧ (cfg.getLsbD 4 = false → s.does (.channelIdlePark i chan) fun t => t = s)
    ∧ s.does (.parknow i chan) narrowed
    ∧ (s.does (.chcfgWrite i chan value) fun t =>
        (let m := bitsOf value 3 0
         minw t = (if m = 1 ∨ m = 2 ∨ m = 4 ∨ m = 8 then m else 8) ∧ (t.chcfg i ch).getLsbD 4 = value.getLsbD 4 ∧ bitsOf (t.chcfg i ch) 31 16 = bitsOf value 31 16
          ∧ bitsOf (t.chcfg i ch) 15 8 = max 1 (bitsOf value 15 8) ∧ bitsOf (t.chcfg i ch) 39 32 = max 1 (bitsOf value 39 32))
        ∧ (value.getLsbD 40 = false → field s 3 0 < minw t → woken t) ∧ (value.getLsbD 40 = false → minw t ≤ field s 3 0 → t.chstat i ch = s.chstat i ch)
        ∧ (value.getLsbD 40 = true → minw t ≤ field s 3 0 → narrowed t))
    ∧ (field s 3 0 < 8 → (∃ m ∈ senders i p, bitsOf cfg 15 8 ≤ (x.dir m).depth) → s.does (.channelWake i chan) woken)
    ∧ (field s 20 20 = 1 → (s.channel i ch).wakingMask.getLsbD lam.val = true → (∀ n ∈ s.ringsOf i ch lam.val, (ringWord s n).getLsbD 31 = true) →
        s.does (.wavelengthLocked i chan lam) fun t => others t ∧ (∀ m < 8, (t.chstat i ch).getLsbD (4 + m) = (decide (m = lam.val) || (s.chstat i ch).getLsbD (4 + m)))
          ∧ field t 3 0 = (if s.chanBusy i ch then field s 3 0 else max (field s 3 0) (widest (field t 11 4)))
          ∧ field t 20 20 = if (List.range 8).all (fun m => m == lam.val || !(s.channel i ch).wakingMask.getLsbD m) then 0 else 1)
    ∧ (field s 20 20 = 1 → (s.channel i ch).wakeAt.toNat + 1500 ≤ s.now.toNat → s.does (.channelWakeTimeout i chan) fun t => others t ∧ field t 20 20 = 0
        ∧ field t 19 12 = (field s 19 12 ||| (s.channel i ch).wakingMask.toNat) ∧ field t 11 0 = field s 11 0)
    ∧ (value.getLsbD 3 = true → (phmap s cluster.val).getLsbD 4 = false → s.does (.phmapApply i cluster value) fun t => s.sameMemory t
        ∧ (phmap t cluster.val).toNat = bitsOf value 2 0 + 16 ∧ (∀ n, n / 16 ≠ cluster.val → n < 96 → ringWord t n = ringWord s n)
        ∧ ∀ n, n / 16 = cluster.val → bitsOf (ringWord t n) 9 0 = bitsOf (ringWord s n) 19 10 ∧ bitsOf (ringWord t n) 19 10 = bitsOf (ringWord s n) 19 10
            ∧ ((ringWord t n).getLsbD 31 = true ↔ ((ringWord s n).getLsbD 31 = true ∧ bitsOf (ringWord s n) 9 0 = bitsOf (ringWord s n) 19 10)))
    ∧ ((phmap s cluster.val).getLsbD 4 = true →
        let isLocked (n : Nat) : Bool := (ringWord s n).getLsbD 31 || (n / 16 == cluster.val && locked.getLsbD (n % 16))
        let ended (t : State) : Prop := s.sameMemory t ∧ (phmap t cluster.val).getLsbD 4 = false ∧ bitsOf (phmap t cluster.val) 2 0 = bitsOf (phmap s cluster.val) 2 0
          ∧ ∀ n, n < 96 → (ringWord t n).getLsbD 31 = isLocked n
        ((∀ n, n / 16 = cluster.val → isLocked n = true) → s.does (.reassignEnd i cluster locked) ended)
        ∧ ((tabGet 0 (s.slice i).reassign cluster.val : Word).toNat + 1500 ≤ s.now.toNat → s.does (.reassignEnd i cluster locked) fun t => ended t
            ∧ (ch < 64 ∨ ch = 64 + cluster.val → field s 3 0 ≤ 8 → ∀ m < field s 3 0, (∃ n ∈ s.ringsOf i ch m, n / 16 = cluster.val ∧ isLocked n = false) →
                (t.chstat i ch).getLsbD (12 + m) = true ∧ (t.chstat i ch).getLsbD (4 + m) = false)))
    ∧ (s.phBusy i (ring.val / 16) = false →
        (mon.toNat < bitsOf (s.sliceReg i 0x4EA) 17 8 → (ringWord s ring.val).getLsbD 31 = true → s.does (.ringLockLost i ring mon) fun t => s.sameMemory t
          ∧ (ringWord t ring.val).getLsbD 31 = false ∧ bitsOf (ringWord t ring.val) 63 32 = s.stampBits 32
          ∧ ∀ n < 96, n ≠ ring.val → ringWord t n = ringWord s n)
        ∧ (bitsOf (s.sliceReg i 0x4EA) 17 8 ≤ mon.toNat → (ringWord s ring.val).getLsbD 31 = false → s.does (.ringLockLost i ring mon) fun t => s.sameMemory t
          ∧ (ringWord t ring.val).getLsbD 31 = true ∧ ∀ n < 96, n ≠ ring.val → ringWord t n = ringWord s n))
    ∧ (s.phBusy i (ring.val / 16) = true → s.does (.ringLockLost i ring mon) fun t => t = s)


/-! ### Halts, the debugger, and what expires -/

/-- R48, R353, R422 to R428, R439 to R441, R462, R18: a command on a fault domain is refused when its domain does not exist, and those on a group when no debugger is
attached, the group is not of the domain, or it is halted; HALT stops the domain's groups, RESET waits for the stop records and frees
them, ATTACH and DETACH, STOP, RESUME and the two steps do as they say; the records of a halt are counted and announced; the expiry of
a LAUNCH halts and then resets its domain, that of a chain ends it; an agent that has stopped is restarted up to eight times in a second; and the power cap takes a
slice of the highest operating point down by one. -/
def Obligations.HaltsAndDebugger : Prop :=
  ∀ (s : State) (i : SliceId) (cmd : Word) (p : PartId) (g : GroupRef) (h : Halt) (c : CoreRef) (q : QIdx) (pidx : Word) (x : Started) (o : AsyncOp) (n : Nat),
    let dom := fdDom cmd
    let commands : List (Nat × Instr) := [(1, .fdHalt i cmd), (2, .fdReset i cmd), (3, .fdAttach i cmd), (4, .fdDetach i cmd), (5, .fdStop i cmd), (6, .fdResume i cmd),
      (7, .fdSstep i cmd), (8, .fdLstep i cmd), (9, .fdDump i cmd), (10, .fdLoad i cmd)]
    let busy (t : State) : Bool := (t.sliceReg i 0x432).getLsbD 0
    let done (r : Nat) (t : State) : Prop := t.sliceReg i 0x432 = BitVec.ofNat 64 (r * 256 + s.now.toNat % 2 ^ 48 * 65536)
    let refused (r : Nat) (t : State) : Prop := done r t ∧ s.sameMemory t ∧ (∀ g, t.group g = s.group g) ∧ t.halts = s.halts ∧ ∀ p, t.part p = s.part p
    let v := s.group g
    let readied (t : State) : Prop := (t.group g).st = .ready ∧ (t.group g).dbg = false ∧ (t.group g).readyAt = s.now ∧ (t.group g).sc = v.sc ∧ (t.group g).v = v.v
    let others (t : State) : Prop := s.sameMemory t ∧ (∀ h, h ≠ g → t.group h = s.group h) ∧ t.halts = s.halts
    let announced (k : SliceId) (src : Nat) (t : State) : Prop := (s.sliceReg k (0x770 + src)).getLsbD 11 = false → (t.sliceReg k (0x770 + src)).getLsbD 27 = true
    let isReset (p : PartId) (dom : Word) (t : State) : Prop := (∀ h ∈ t.halts, ¬(h.part = p ∧ h.dom = dom))
      ∧ (∀ o ∈ t.asyncs, o ∈ s.asyncs ∧ s.ofDomain p dom o = false)
      ∧ ∀ (g : GroupRef) (w : Workgroup), s.wgOf g = some w → (tabGet {} s.grids w.grid).inDomain p dom = true → (t.group g).st = .free
    let goes (a : Nat) (I : Instr) : Prop := (a, I) ∈ commands ∧ bitsOf cmd 3 0 = a ∧ busy s = false ∧ s.partOf i = some p ∧ s.domainExists p dom = true
    (∀ a I, (a, I) ∈ commands →
      (bitsOf cmd 3 0 ≠ a ∨ busy s = true → s.does I fun t => t = s)
      ∧ (bitsOf cmd 3 0 = a → busy s = false → s.partOf i = none ∨ (∃ p, s.partOf i = some p ∧ s.domainExists p dom = false) → s.does I (refused 0x80)))
    ∧ (goes 1 (.fdHalt i cmd) → s.does (.fdHalt i cmd) fun t => done 0x01 t ∧ s.sameMemory t ∧ (∃ h ∈ t.halts, h.part = p ∧ h.dom = dom)
        ∧ ((∃ h ∈ s.halts, h.part = p ∧ h.dom = dom) → t.halts = s.halts ∧ ∀ g, t.group g = s.group g)
        ∧ (¬(∃ h ∈ s.halts, h.part = p ∧ h.dom = dom) → (∃ h ∈ t.halts, h.part = p ∧ h.dom = dom ∧ h.cause = 0x20 ∧ h.at' = s.now ∧ h.written = false)
            ∧ ∀ g ∈ s.domainGroups p dom, (t.group g).halted = true ∧ ((s.group g).halted = false → (t.group g).st = .stopped ∧ (t.group g).stoppedAt = s.now)))
    ∧ (goes 2 (.fdReset i cmd) →
        (s.domainHalted p dom = false → s.does (.fdReset i cmd) fun t => busy t = true ∧ t.sliceReg i 0x430 = cmd ∧ s.sameMemory t
          ∧ (∃ h ∈ t.halts, h.part = p ∧ h.dom = dom ∧ h.cause = 0x20) ∧ ∀ g ∈ s.domainGroups p dom, (t.group g).halted = true)
        ∧ (s.domainHalted p dom = true → s.recordsDone p dom = false → s.does (.fdReset i cmd) fun t => busy t = true ∧ t.halts = s.halts ∧ ∀ g, t.group g = s.group g)
        ∧ (s.domainHalted p dom = true → s.recordsDone p dom = true → s.does (.fdReset i cmd) fun t => done 0x01 t ∧ isReset p dom t))
    ∧ (goes 3 (.fdAttach i cmd) → s.does (.fdAttach i cmd) fun t => done 0x01 t ∧ (∀ g, t.group g = s.group g) ∧ ∀ y, y ∈ (t.part p).debuggers ↔ (y = dom ∨ y ∈ (s.part p).debuggers))
    ∧ (goes 4 (.fdDetach i cmd) → s.does (.fdDetach i cmd) fun t => done 0x01 t ∧ (∀ y, y ∈ (t.part p).debuggers ↔ (y ≠ dom ∧ y ∈ (s.part p).debuggers))
        ∧ (g ∈ s.domainGroups p dom → v.dbg = true → v.halted = false → readied t)
        ∧ (g ∉ s.domainGroups p dom ∨ v.dbg = false ∨ v.halted = true → t.group g = v))
    ∧ (∀ a I, goes a I → 5 ≤ a →
        ((s.part p).debuggers.contains dom = false → s.does I (refused 0x81))
        ∧ ((s.part p).debuggers.contains dom = true →
            (fdGroup cmd = none ∨ (fdGroup cmd = some g ∧ (s.member p g.slice = false ∨ v.resident = false ∨ (s.gridOf g).inDomain p dom = false)) → s.does I (refused 0x82))
            ∧ (fdGroup cmd = some g → s.member p g.slice = true → v.resident = true → (s.gridOf g).inDomain p dom = true →
                (a ∈ [6, 7, 8, 10] → v.halted = true → s.does I (refused 0x83))
                ∧ (a ∈ [6, 7, 8, 10] → v.halted = false → v.dbg = false ∨ v.st ≠ .stopped → s.does I (refused 0x82))
                ∧ (a = 5 → v.st ≠ .stopped → v.st ≠ .saving → s.does I fun t => done 0x01 t ∧ others t ∧ (t.group g).st = .stopped ∧ (t.group g).dbg = true
                    ∧ (t.group g).sc = v.sc ∧ announced g.slice 0x6 t)
                ∧ (a = 5 → v.st = .stopped ∨ v.st = .saving → s.does I (refused 0x01))
                ∧ (v.halted = false → v.dbg = true → v.st = .stopped →
                    (a = 6 → s.does I fun t => done 0x01 t ∧ others t ∧ readied t ∧ (t.group g).stepping = v.stepping)
                    ∧ (a = 7 → s.does I fun t => done 0x01 t ∧ others t ∧ readied t ∧ (t.group g).stepping = true ∧ (t.group g).stepDone = false)
                    ∧ (a = 8 → v.laneIdle = false → s.does I fun t => done 0x01 t ∧ others t ∧ readied t ∧ (t.group g).lstepping = true ∧ (t.group g).stepDone = false)
                    ∧ (a = 8 → v.laneIdle = true → s.does I (refused 0x01))
                    ∧ (let bs := s.engBytes (partEng v.part) 5 (s.fdBuf i) (bitsOf (wordAtOff (s.engBytes (partEng v.part) 5 (s.fdBuf i + 0x200) 8) 0) 63 32)
                       let size := bs.length
                       a = 10 → s.meet (partEng v.part) 5 (s.fdBuf i) 0x600 = .ok → size = bitsOf (wordAtOff (s.engBytes (partEng v.part) 5 (s.fdBuf i + 0x200) 8) 0) 63 32 →
                        0x600 ≤ size → size ≤ 0x40000 → s.meet (partEng v.part) 5 (s.fdBuf i) size = .ok →
                        (sectCrcOk bs = false ∨ (sectMap bs).nreg ≠ v.nreg → s.does I (refused 0x84))
                        ∧ (sectCrcOk bs = true → (sectMap bs).nreg = v.nreg → s.does I fun t => done 0x01 t ∧ others t ∧ (t.group g).sc.spc = v.sc.spc
                            ∧ (∀ r : BitVec 6, r ≠ 0 → (t.group g).sc.read r = storedIn r (wordAtOff bs (8 * r.toNat))) ∧ (t.group g).fpc = storedFpc (wordAtOff bs 0x260)
                            ∧ ∀ m < 7, (t.group g).pred m = maskAt bs (0x2A0 + 12 * m))))
                ∧ (a = 10 → v.halted = false → v.dbg = true → v.st = .stopped → s.meet (partEng v.part) 5 (s.fdBuf i) 0x600 ≠ .ok → s.does I (refused 0x84))
                ∧ (a = 9 → v.st ≠ .stopped → s.does I (refused 0x82))
                ∧ (a = 9 → v.st = .stopped → let runs := (sectRuns v (s.sectInfo g false 5 fun _ => 0)).2
                    (s.meetRuns (partEng v.part) (s.fdBuf i) runs ≠ .ok → s.does I (refused 0x84))
                    ∧ (s.meetRuns (partEng v.part) (s.fdBuf i) runs = .ok → s.does I fun t => done 0x01 t ∧ (∀ g, t.group g = s.group g) ∧ t.halts = s.halts
                        ∧ t.mem = (runs.foldl (fun u r => (u.engWrite (partEng v.part) (s.fdBuf i + BitVec.ofNat 64 r.1) r.2).1) s).mem)))))
    ∧ (v.resident = true → v.st ≠ .stopped → v.st ≠ .saving → (v.stepping = true ∧ v.stepDone = true) ∨ (v.lstepping = true ∧ ((v.stepDone = true ∧ v.stepHeldDone = true) ∨ v.laneIdle = true)) →
        s.does (.stepEnd g) fun t => others t ∧ (t.group g).st = .stopped ∧ (t.group g).dbg = true ∧ (t.group g).stepping = false ∧ (t.group g).lstepping = false
          ∧ announced g.slice 0x6 t)
    ∧ (v.stepping = false → v.lstepping = false → s.does (.stepEnd g) fun t => t = s)
    ∧ (s.halts.find? (fun y => y.part == p && y.dom == dom) = some h →
        (h.written = true → s.dueRecords h = [] → s.does (.haltStopRecords p dom) fun t => t = s)
        ∧ (h.written = false → s.storeBegun h = true → s.does (.haltStopRecords p dom) fun t => t = s)
        ∧ (let due := (s.dueRecords h).length
           let writes (room : Nat) (t : State) : Prop := (∃ y ∈ t.halts, y.part = p ∧ y.dom = dom ∧ y.written = true ∧ y.count = h.count + due ∧ y.cause = h.cause ∧ y.at' = h.at'
               ∧ y.dropped = h.dropped + (h.count + due - max h.count (min room (h.count + due))))
             ∧ ∀ k, s.lowestSlice p = some k → announced k 0x5 t
           h.written = false → s.storeBegun h = false →
            (s.stopArea h = .none → s.does (.haltStopRecords p dom) fun t => writes 0 t ∧ s.sameMemory t)
            ∧ ∀ a m, s.stopArea h = .at' a m → s.does (.haltStopRecords p dom) (writes m)))
    ∧ (s.startedAt i q pidx = some x → x.expired = true →
        (x.grid = some n → let r : Grid := tabGet {} s.grids n
          let d := r.domains.headD 0
          (s.domainHalted r.part d = false → s.does (.launchExpiryReset i q pidx) fun t => s.sameMemory t ∧ (∃ y ∈ t.halts, y.part = r.part ∧ y.dom = d ∧ y.cause = 0x21)
            ∧ ∀ g ∈ s.domainGroups r.part d, (t.group g).halted = true)
          ∧ (s.domainHalted r.part d = true → s.recordsDone r.part d = false → s.does (.launchExpiryReset i q pidx) fun t => t = s)
          ∧ (s.domainHalted r.part d = true → s.recordsDone r.part d = true → s.does (.launchExpiryReset i q pidx) (isReset r.part d)))
        ∧ (s.asyncs.find? (fun y => some y.id == x.chain) = some o → o.done = false → s.does (.storageExpiryCancel i q pidx) fun t =>
            (∀ y ∈ t.asyncs, y.id ≠ o.id) ∧ x ∉ t.started)
        ∧ (s.asyncs.find? (fun y => some y.id == x.chain) = some o → o.done = true → s.does (.storageExpiryCancel i q pidx) fun t => t = s))
    ∧ (s.partOf c.slice = some p → let a := (s.core c).puppet
        let recent := a.restarts.countP fun y => decide (s.now.toNat < y.toNat + 1000000000)
        (a.stopped = true → a.leftStopped = false → recent < 8 → s.does (.agentRestart c) fun t => s.sameMemory t ∧ (t.core c).puppet.running = true
          ∧ (t.core c).puppet.stopped = false ∧ (t.core c).puppet.sc.read 1 = s.coreReg c 0x103 ∧ t.coreReg c 0x104 = 0 ∧ (t.coreReg c 0x103).getLsbD 8 = false
          ∧ (t.core c).puppet.sc.spc = s.imageEntry p (bitsOf (s.coreReg c 0x1B0) 15 0))
        ∧ (a.stopped = true → a.leftStopped = false → 8 ≤ recent → s.does (.agentRestart c) fun t => s.sameMemory t ∧ (t.core c).puppet.stopped = true
          ∧ (t.core c).puppet.leftStopped = true)
        ∧ (a.stopped = false → s.does (.agentRestart c) fun t => t = s))
    ∧ (let op (t : State) (k : SliceId) : Word := t.sliceReg k 0x400
       ((∀ k, bitsOf (op s k) 5 3 = 0) → s.does .powerCapLower fun t => t = s)
       ∧ ((∃ k, 0 < bitsOf (op s k) 5 3) → s.does .powerCapLower fun t => s.sameMemory t ∧ ∃ k : SliceId, (∀ j, bitsOf (op s j) 5 3 ≤ bitsOf (op s k) 5 3)
          ∧ bitsOf (op t k) 5 3 + 1 = bitsOf (op s k) 5 3 ∧ (op t k).getLsbD 6 = true ∧ (op t k).getLsbD 7 = true ∧ bitsOf (op t k) 2 0 = bitsOf (op s k) 2 0
          ∧ ∀ j, j ≠ k → op t j = op s j))


/-! ### Pre-emption -/

/-- R430 to R437: a request names a workgroup and waits, or is refused for an empty slot or a halted domain; a cancel ends the wait; at the end of the grace of a forced
request, or when every group is ready, the groups stop; once nothing of theirs is in flight the area is written and the groups' slots are
free; and a restore puts the registers of each section into the group's new slot. -/
def Obligations.PreemptionAndRestore : Prop :=
  ∀ (s : State) (c : CoreRef) (cmd : Word) (I : Instr) (forced : Bool) (p : PartId) (a : AreaRead) (n : Nat) (x : AreaWg),
    let e := (s.core c).preempt
    let g : GroupRef := ⟨c.slice, c.core, idx 32 (bitsOf cmd 4 0)⟩
    let v := s.group g
    let ends (res : BitVec 8) (t : State) : Prop := (t.core c).preempt.state = 3 ∧ (t.core c).preempt.result = res ∧ (t.core c).preempt.stamp = s.now
    let quiet (t : State) : Prop := s.sameMemory t ∧ ∀ g, t.group g = s.group g
    let xs := s.saveSet c e
    let gs := s.saveGroups xs
    let stopped (t : State) : Prop := (t.core c).preempt.state = 2 ∧ (t.core c).preempt.area = e.area ∧ s.sameMemory t ∧ (∀ g, g ∉ gs → t.group g = s.group g)
      ∧ ∀ g ∈ gs, (t.group g).sc.s = (s.group g).sc.s ∧ (t.group g).sc.spc = (s.group g).sc.spc ∧ (t.group g).v = (s.group g).v ∧ (t.group g).bl = (s.group g).bl
          ∧ ((s.group g).halted = false → (t.group g).st = .saving)
    let held := gs.foldl State.holdGroup s
    let no := (xs.head?.map (·.w.grid)).getD 0
    let r : Grid := tabGet {} s.grids no
    let runs := held.areaRuns e xs r.grcb
    let reach := held.meetRuns (partEng r.part) e.area runs
    ((I = .preemptBlocking c cmd ∧ forced = false) ∨ (I = .preemptForced c cmd ∧ forced = true) →
      (bitsOf cmd 6 5 ≠ (if forced then 1 else 0) ∨ e.state = 1 ∨ e.state = 2 → s.does I fun t => t = s)
      ∧ (bitsOf cmd 6 5 = (if forced then 1 else 0) → e.state = 0 ∨ e.state = 3 →
          (v.st = .free ∨ s.wgOf g = none → s.does I fun t => ends 0x84 t ∧ quiet t)
          ∧ (v.st ≠ .free → (s.wgOf g).isSome → s.gridHalted v.grid = true → s.does I fun t => ends 0x82 t ∧ quiet t)
          ∧ (∀ w, v.st ≠ .free → s.wgOf g = some w → s.gridHalted v.grid = false → s.does I fun t => quiet t ∧
              (let y := (t.core c).preempt
               y.state = 1 ∧ y.result = 0 ∧ y.stamp = s.now ∧ y.wg = v.wg ∧ y.nbh = w.nbh ∧ y.forced = forced ∧ y.incr = cmd.getLsbD 7 ∧ y.since = s.now
                ∧ y.area.toNat = bitsOf (s.coreReg c 0x1A0) 55 8 * 256))))
    ∧ (e.state = 1 → s.does (.preemptCancel c) fun t => ends 0x02 t ∧ quiet t)
    ∧ (e.state ≠ 1 → s.does (.preemptCancel c) fun t => t = s)
    ∧ (let grace := e.since.toNat + bitsOf (s.coreReg c 0x1A3) 31 0
       (e.state = 1 → e.forced = true → gs ≠ [] → grace ≤ s.now.toNat → s.does (.preemptGraceExpiry c) fun t => stopped t ∧ (t.core c).preempt.graceOver = true)
       ∧ (e.state ≠ 1 ∨ e.forced = false ∨ s.now.toNat < grace → s.does (.preemptGraceExpiry c) fun t => t = s))
    ∧ (e.state = 1 → gs ≠ [] → (∀ g ∈ gs, s.saveReady g = true) → s.saveStarts e = false → s.does (.preemptSave c) stopped)
    ∧ (e.state = 1 → (∃ g ∈ gs, s.saveReady g = false) → s.does (.preemptSave c) fun t => t = s)
    ∧ (e.state = 2 → held.saveStarts e = false → held.saveQuiet xs = true → held.gridHalted no = false →
        (reach = .ok → s.does (.preemptSave c) fun t => ends 0x01 t ∧ (∀ g ∈ gs, (t.group g).st = .free)
          ∧ t.mem = (runs.foldl (fun u r' => (u.engWrite (partEng r.part) (e.area + BitVec.ofNat 64 r'.1) r'.2).1) held).mem
          ∧ ∃ b ∈ t.saved, b.part = r.part ∧ b.area = e.area ∧ b.grid = no ∧ b.dead = false)
        ∧ (∀ va, reach = .miss va → s.does (.preemptSave c) fun t => (t.core c).preempt = e ∧ ∀ g ∈ gs, (s.group g).halted = false → (t.group g).st = .saving)
        ∧ (∀ va k, reach = .fault k va → s.does (.preemptSave c) fun t => ends 0x81 t ∧ s.sameMemory t
            ∧ ∀ g ∈ gs, (s.group g).halted = false → (t.group g).st = if (s.group g).dbg then .stopped else .ready))
    ∧ (e.state = 2 → held.saveQuiet xs = false → s.does (.preemptSave c) stopped)
    ∧ (e.state = 1 ∨ e.state = 2 ∨ s.partOf c.slice = none → s.does (.restcmd c cmd) fun t => t = s)
    ∧ (e.state = 0 ∨ e.state = 3 → s.partOf c.slice = some p →
        let area := cmd &&& 0x00FFFFFFFFFFFF00
        (s.readArea p area = .invalid → s.does (.restcmd c cmd) fun t => ends 0x81 t ∧ quiet t)
        ∧ (s.readArea p area = .crc → s.does (.restcmd c cmd) fun t => ends 0x81 t ∧ s.sameMemory t
            ∧ ∀ b, s.saved.find? (fun b => b.part == p && b.area == area) = some b → let q : Grid := tabGet {} s.grids b.grid
                ∃ h ∈ t.halts, h.part = q.part ∧ h.dom = q.domains.headD 0)
        ∧ (s.readArea p area = .got a →
            (s.areaGrid p area (dwordAt a.w 2) = none → s.does (.restcmd c cmd) fun t => ends 0x81 t ∧ quiet t)
            ∧ (s.areaGrid p area (dwordAt a.w 2) = some n → let q : Grid := tabGet {} s.grids n
                let groups := lrGroups q.lrec
                readAreaWgs a.bs (lrMatrix q.lrec) groups (bitsOf (wordAt a.w 0) 15 11) 256 = [x] → x.crcOk a.bs = true → bitAt (wordAt a.w 0) 8 = false →
                (s.areaDead p area n = true → s.does (.restcmd c cmd) fun t => ends 0x82 t ∧ quiet t)
                ∧ (s.areaDead p area n = false → let fits := (s.core c).areaRoom x a.bs (if x.spawned then 1 else groups) q.tenant
                    (fits = false → s.does (.restcmd c cmd) fun t => ends 0x80 t ∧ quiet t)
                    ∧ (fits = true → (s.core c).queuesFree x = false → s.does (.restcmd c cmd) fun t => ends 0x83 t ∧ quiet t)
                    ∧ (fits = true → (s.core c).queuesFree x = true → s.does (.restcmd c cmd) fun t => ends 0x03 t ∧ s.sameMemory t
                        ∧ (∀ b ∈ t.saved, ¬(b.part = p ∧ b.area = area))
                        ∧ ∀ j < x.sects.length, let at' := x.sects.getD j (0, 0)
                            let bs := cut a.bs at'.1 at'.2
                            let v := t.group ⟨c.slice, c.core, idx 32 ((s.core c).slotsFree.getD j 0)⟩
                            (∀ r : BitVec 6, r ≠ 0 → v.sc.read r = storedIn r (wordAtOff bs (8 * r.toNat))) ∧ v.sc.spc = wordAtOff bs 0x208
                              ∧ v.fpc = storedFpc (wordAtOff bs 0x260) ∧ v.sig = wordAtOff bs 0x268 ∧ v.grid = n ∧ v.faultCode = 0
                              ∧ ∀ m < 7, v.pred m = maskAt bs (0x2A0 + 12 * m))))))


/-! ### The Package Root Controller -/

/-- R24, R176, R309, R381, R383, R391 to R395, R411, R443 to R447, R451, R455, R459 to R465: a frame joins its partition's queue, and the agent that sent it waits; the
oldest is answered over its own frame: an unlisted OP with status 3, must-be-zero bits that are not with 0x01, a sender not permitted
with 0x02; and each message does what it says, or is refused for its reason; an ARTLOAD that waits for
leases holds the requests of its partition. -/
def Obligations.RootControllerMessages : Prop :=
  ∀ (s : State) (p : PartId) (m : Frame) (l : Letter) (rest : List Letter) (c : CoreRef) (d a : BitVec 6),
    let w := frame16 m.words
    let q := s.part p
    let k : Sender := .kernel p
    let op := bitsOf (wordAt w 0) 7 0
    let answered (status reason : Nat) (t : State) : Prop :=
      (t.part p).inbox = rest
      ∧ (l.agent = none → (t.part p).mbox = replyFrame w { status := status, reason := reason } ∧ (t.part p).mboxBusy = false
          ∧ (t.part p).mboxStatus = BitVec.ofNat 8 status ∧ (t.part p).mboxStamp = s.now)
      ∧ ∀ c va d, l.agent = some (c, va, d) → (s.core c).puppet.letter = l.num → (s.core c).puppet.sc.wait = .mailbox →
          (t.core c).puppet.sc.wait = .none ∧ (t.core c).puppet.sc.spc = (s.core c).puppet.sc.spc + 4
          ∧ ∀ r, (t.core c).puppet.sc.read r = if r = d ∧ d ≠ 0 then storedIn d (BitVec.ofNat 64 status) else (s.core c).puppet.sc.read r
    let told (status reason : Nat) (t : State) : Prop := t.prc.mgmt = replyFrame w { status := status, reason := reason } :: s.prc.mgmt
    let messages : List (Nat × (Sender → Instr)) := [(0x01, fun k => .feat k m), (0x02, fun k => .artload k m), (0x03, fun k => .dyke k m), (0x04, fun k => .route k m),
      (0x05, fun k => .lease k m), (0x06, fun k => .usnap k m), (0x07, fun k => .keyload k m), (0x08, fun k => .fwoffer k m), (0x09, fun k => .fwchk k m c),
      (0x0A, fun k => .attest k m), (0x0B, fun k => .cert k m), (0x0C, fun k => .moveack k m), (0x0D, fun k => .epcfg k m), (0x14, fun k => .ownerkey k m)]
    let head : Prop := q.inbox = l :: rest ∧ l.words = w
    let flags := bitsOf (wordAt w 0) 15 8
    let goes (n : Nat) : Prop := head ∧ op = n ∧ flags = 0
    let part' (t : State) : Part := t.part p
    let out (va : Word) (bytes : List Byte) (I : Sender → Instr) : Prop :=
      (s.meet (partEng p) 2 va bytes.length = .ok → s.does (I k) fun t => answered 0 0 t ∧ (l.agent = none → t.mem = ((s.engWrite (partEng p) va bytes).1).mem))
      ∧ (s.meet (partEng p) 2 va bytes.length ≠ .ok → s.does (I k) (answered 1 0x01))
    (∀ n I, (n, I) ∈ messages →
      (q.inbox = [] ∨ (q.inbox = l :: rest ∧ l.words ≠ w) → s.does (I k) fun t => t = s)
      ∧ (head → (knownOp op = false → s.does (I k) (answered 3 0)) ∧ (knownOp op = true → op ≠ n → s.does (I k) fun t => t = s)
          ∧ (op = n → flags ≠ 0 → s.does (I k) (answered 1 0x01)) ∧ (op = n → flags = 0 → n = 0x14 → s.does (I k) (answered 1 0x02)))
      ∧ (op = n → flags = 0 → n ∉ [0x06, 0x0A, 0x0B, 0x14] → s.does (I .management) (told 1 0x02)))
    ∧ (let v := dwordAt w 2
       goes 0x01 → (q.featLocked = true → s.does (.feat k m) fun t => answered 2 0 t ∧ (part' t).featacc = q.featacc)
        ∧ (q.featLocked = false → v &&& ~~~s.prcReg 0x809 ≠ 0 → s.does (.feat k m) fun t => answered 1 0x01 t ∧ (part' t).featLocked = false)
        ∧ (q.featLocked = false → v &&& ~~~s.prcReg 0x809 = 0 → s.does (.feat k m) fun t => answered 0 0 t ∧ (part' t).featacc = v ∧ (part' t).featLocked = true))
    ∧ (goes 0x02 → let va := dwordAt w 2
        let es := artEntries (s.engWords (partEng p) 1 va 1536)
        (va.toNat % 4096 ≠ 0 ∨ s.meet (partEng p) 1 va 6144 ≠ .ok → s.does (.artload k m) (answered 1 0x01))
        ∧ (va.toNat % 4096 = 0 → s.meet (partEng p) 1 va 6144 = .ok → q.move = none →
            (es.all (artEntryOk (s.liveSegs p).length) = false → s.does (.artload k m) (answered 1 0x01))
            ∧ (es.all (artEntryOk (s.liveSegs p).length) = true → s.leasesOver (s.memberSlices p) = false → s.does (.artload k m) fun t =>
                t = s.modPart p fun x => { x with artHold := true })
            ∧ (es.all (artEntryOk (s.liveSegs p).length) = true → s.leasesOver (s.memberSlices p) = true → s.does (.artload k m) fun t => answered 0 0 t ∧ (part' t).artHold = false
                ∧ ∀ i : SliceId, s.member p i = true → (t.slice i).art.map (·.2) = es ∧ bitsOf (t.sliceReg i 0x767) 15 0 = (bitsOf (s.sliceReg i 0x767) 15 0 + 1) % 65536)))
    ∧ (goes 0x03 → let port := bitsOf (wordAt w 2) 3 0
        let n := 0x790 + 2 * (4 * port + bitsOf (wordAt w 2) 5 4)
        let base := (dwordAt w 4).toNat
        let lim := (dwordAt w 6).toNat
        let v := bitAt (wordAt w 3) 2
        let aligned : Prop := base % 4096 = 0 ∧ lim % 4096 = 0 ∧ base < lim ∧ lim < 2 ^ 48
        let fixed : Prop := ∃ i : SliceId, s.member p i = true ∧ s.endpointPort i port = true
        (14 ≤ port ∨ (v = true ∧ (¬aligned ∨ s.ownRange p base lim = false)) ∨ fixed → s.does (.dyke k m) (answered 1 0x01))
        ∧ (port < 14 → ¬fixed → (v = true → aligned ∧ s.ownRange p base lim = true) → s.does (.dyke k m) fun t => answered 0 0 t
            ∧ ∀ i : SliceId, s.member p i = true → (hasDyke i port = false → t.sliceReg i n = s.sliceReg i n ∧ t.sliceReg i (n + 1) = s.sliceReg i (n + 1))
              ∧ (hasDyke i port = true → t.sliceReg i (n + 1) = (if v then dwordAt w 6 else 0)
              ∧ t.sliceReg i n = if v then BitVec.ofNat 64 (p.val + (if bitAt (wordAt w 3) 0 then 8 else 0) + (if bitAt (wordAt w 3) 1 then 16 else 0) + 32 + base) else 0)))
    ∧ (goes 0x04 → let src := bitsOf (wordAt w 2) 3 0
        let v := wordAt w 3
        let bad : Prop := 12 ≤ src ∨ bitsOf v 20 19 = 3 ∨ (bitsOf v 20 19 = 2 ∧ bitsOf v 26 21 = 0) ∨ (v.getLsbD 11 = true ∧ bitsOf v 10 0 = 0) ∨ s.member p (idx 8 (bitsOf v 18 16)) = false
        (bad → s.does (.route k m) (answered 1 0x01))
        ∧ (¬bad → s.does (.route k m) fun t => answered 0 0 t ∧ ∀ i : SliceId, s.member p i = true → bitsOf (t.sliceReg i (0x770 + src)) 26 0 = bitsOf v 26 0))
    ∧ (goes 0x05 → let n := bitsOf (wordAt w 2) 12 0
        let e := s.prcReg (0x840 + p.val)
        (n < 16 ∨ 4096 < n → s.does (.lease k m) fun t => answered 1 0x01 t ∧ t.prcReg (0x840 + p.val) = e)
        ∧ (16 ≤ n → n ≤ 4096 → s.does (.lease k m) fun t => answered 0 0 t ∧ (let f := t.prcReg (0x840 + p.val)
            bitsOf f 24 12 = n ∧ bitsOf f 63 48 = (bitsOf e 63 48 + 1) % 65536 ∧ bitsOf f 11 0 = bitsOf e 11 0 ∧ bitsOf f 47 25 = bitsOf e 47 25)
            ∧ t.prcReg (0x848 + p.val) = s.now))
    ∧ (goes 0x06 → let epoch := bitsOf (s.prcReg (0x818 + p.val)) 15 0
        let us := s.usageSets p epoch (wordAt w 4).toNat (wordAt w 5).toNat
        (1024 < us.length → s.does (.usnap k m) (answered 1 0x01)) ∧ (us.length ≤ 1024 → out (dwordAt w 2) (s.snapshot p epoch w us) fun k => .usnap k m))
    ∧ (goes 0x07 → let kind := bitsOf (wordAt w 2) 9 8
        let slot := bitsOf (wordAt w 2) 7 0
        let va := dwordAt w 3
        (kind = 3 → s.does (.keyload k m) (answered 1 0x01))
        ∧ (kind = 0 → s.does (.keyload k m) fun t => answered 0 0 t ∧ tabFind (part' t).keys slot = none ∧ ∀ j, j ≠ slot → tabFind (part' t).keys j = tabFind q.keys j)
        ∧ (kind = 1 ∨ kind = 2 → s.meet (partEng p) 1 va 64 ≠ .ok ∨ s.meet (partEng p) 2 va 64 ≠ .ok → s.does (.keyload k m) (answered 1 0x01))
        ∧ (kind = 1 ∨ kind = 2 → s.meet (partEng p) 1 va 64 = .ok → s.meet (partEng p) 2 va 64 = .ok → s.does (.keyload k m) fun t => answered 0 0 t
            ∧ tabFind (part' t).keys slot = some (BitVec.ofNat 2 kind, s.engBytes (partEng p) 1 va (if kind = 1 then 32 else 64))
            ∧ (∀ j, j ≠ slot → tabFind (part' t).keys j = tabFind q.keys j)
            ∧ (l.agent = none → t.mem = ((s.engWrite (partEng p) va (List.replicate 64 0)).1).mem)))
    ∧ (goes 0x08 → let va := dwordAt w 2
        let h := s.engWords (partEng p) 1 va 64
        let n := 256 + (dwordAt h 4).toNat
        let bytes := s.engBytes (partEng p) 1 va (n + 8240)
        let good : Prop := imageVerifies n bytes Config.firmwareKeys = true ∧ Config.firmwareMinimum ≤ (wordAt h 2).toNat
        (bitsOf q.fwstat 33 32 ≠ 0 → s.does (.fwoffer k m) (answered 1 0x03))
        ∧ (bitsOf q.fwstat 33 32 = 0 → s.meet (partEng p) 1 va 256 = .ok →
            (headerOk h 2 = false ∨ 0x800000 < n + 8240 → s.does (.fwoffer k m) (answered 1 0x04))
            ∧ (headerOk h 2 = true → n + 8240 ≤ 0x800000 → s.meet (partEng p) 1 va (n + 8240) = .ok →
                (¬good → s.does (.fwoffer k m) (answered 1 0x04))
                ∧ (good → s.does (.fwoffer k m) fun t => answered 0 0 t ∧ (let f := (part' t).fwstat
                    bitsOf f 15 0 = bitsOf q.fwstat 15 0 ∧ bitsOf f 31 16 = (bitsOf q.fwstat 15 0 + 1) % 65536 ∧ bitsOf f 33 32 = 1 ∧ bitsOf f 63 48 = (s.agentsOf p).length)
                    ∧ (part' t).fwSince = s.now ∧ ∀ c ∈ s.agentsOf p, (t.core c).puppet.checked = false))))
    ∧ (goes 0x09 → ∀ va d', l.agent = some (c, va, d') →
        let open' : Prop := bitsOf q.fwstat 33 32 = 1 ∧ bitsOf (wordAt w 2) 31 16 = bitsOf q.fwstat 31 16
        (¬open' → s.does (.fwchk k m c) (answered 1 0x06))
        ∧ (open' → (wordAt w 2).getLsbD 0 = false → s.does (.fwchk k m c) fun t => answered 0 0 t ∧ bitsOf (part' t).fwstat 33 32 = 2
            ∧ bitsOf (part' t).fwstat 31 16 = bitsOf q.fwstat 15 0 ∧ bitsOf (part' t).fwstat 63 48 = (s.agentsOf p).length)
        ∧ (open' → (wordAt w 2).getLsbD 0 = true → s.does (.fwchk k m c) fun t => answered 0 0 t ∧ (t.core c).puppet.checked = true
            ∧ ((∀ y ∈ s.agentsOf p, y = c ∨ (s.core y).puppet.checked = true) → bitsOf (part' t).fwstat 33 32 = 0 ∧ bitsOf (part' t).fwstat 15 0 = bitsOf q.fwstat 31 16)
            ∧ ((∃ y ∈ s.agentsOf p, y ≠ c ∧ (s.core y).puppet.checked = false) → (part' t).fwstat = q.fwstat)))
    ∧ (let missing : Prop := bitsOf q.fwstat 33 32 = 1 ∧ q.fwSince.toNat + 100000000 ≤ s.now.toNat ∧ ∃ y ∈ s.agentsOf p, (s.core y).puppet.checked = false
       (missing → s.does (.fwSwitchTimeout p) fun t => s.sameMemory t ∧ bitsOf (part' t).fwstat 33 32 = 2 ∧ bitsOf (part' t).fwstat 31 16 = bitsOf q.fwstat 15 0)
       ∧ (¬missing → s.does (.fwSwitchTimeout p) fun t => t = s))
    ∧ (goes 0x0A → out (dwordAt w 2) (s.report p w) fun k => .attest k m)
    ∧ (goes 0x0B → let x := Config.certificate (bitsOf (wordAt w 4) 1 0)
        out (dwordAt w 2) (natToBytes x.length 4 ++ x) fun k => .cert k m)
    ∧ (op = 0x0B → flags = 0 → let x := Config.certificate (bitsOf (wordAt w 4) 1 0)
        s.does (.cert .management m) fun t => ∃ body, t.prc.mgmt = replyFrame w accepted :: body :: s.prc.mgmt ∧ wordAt body 0 = BitVec.ofNat 32 x.length)
    ∧ (goes 0x0C → let n := bitsOf (wordAt w 2) 2 0
        (q.move = none → s.does (.moveack k m) (answered 1 0x06))
        ∧ ∀ y, q.move = some y →
          (n ≠ y.step → s.does (.moveack k m) (answered 1 0x06))
          ∧ (n = 1 → y.step = 1 → s.does (.moveack k m) fun t => answered 0 0 t ∧ (part' t).move = some { y with acked := true } ∧ (t.slice y.slice).hostHeld = true)
          ∧ (n = 2 → y.step = 2 → s.bogUsed y.slice = true → s.does (.moveack k m) fun t => answered 1 0x03 t ∧ (part' t).move = some y)
          ∧ (n = 2 → y.step = 2 → s.bogUsed y.slice = false → s.does (.moveack k m) fun t => answered 0 0 t ∧ (part' t).move = some { y with step := 3 }))
    ∧ (goes 0x0D → let i : SliceId := idx 8 (bitsOf (wordAt w 2) 2 0)
        let port : Fin 2 := idx 2 (bitsOf (wordAt w 2) 3 3)
        let bar0 := (dwordAt w 3).toNat
        let size := bitsOf (wordAt w 5) 5 0
        let page := (dwordAt w 6).toNat
        let own (b : Nat) : Prop := b < 2 ^ 40 ∧ s.member p (idx 8 (b / 2 ^ 37)) = true
        let may : Prop := q.featacc.getLsbD 3 = true ∧ s.member p i = true ∧ (s.epstat i port.val).getLsbD 0 = false ∧ Config.portBifurcated i port = false
          ∧ 20 ≤ size ∧ size ≤ 36 ∧ bar0 % 2 ^ size = 0 ∧ page % 4096 = 0 ∧ own bar0 ∧ own page
        (¬may → s.does (.epcfg k m) (answered 1 0x01))
        ∧ (may → s.does (.epcfg k m) fun t => answered 0 0 t ∧ (t.epstat i port.val).getLsbD 0 = true ∧ t.epBars i port.val = (bar0, size, page)
            ∧ (let n := 0x790 + 8 * (11 + port.val)
               t.sliceReg i n = BitVec.ofNat 64 (p.val + 56 + bar0) ∧ t.sliceReg i (n + 1) = BitVec.ofNat 64 (bar0 + 2 ^ size)
                ∧ t.sliceReg i (n + 2) = BitVec.ofNat 64 (p.val + 56 + page) ∧ t.sliceReg i (n + 3) = BitVec.ofNat 64 (page + 4096))))
    ∧ (op = 0x14 → flags = 0 → s.does (.ownerkey .management m) fun t => told 0 0 t ∧ s.sameMemory t
        ∧ tabGet [] t.prc.owners (bitsOf (wordAt w 2) 2 0) = (w.drop 3).take 12 ∧ ∀ n, n ≠ bitsOf (wordAt w 2) 2 0 → tabGet [] t.prc.owners n = tabGet [] s.prc.owners n)
    ∧ (s.partValid p = true → q.mboxBusy = false → s.does (.hostMailboxSend p) fun t => s.sameMemory t ∧ (part' t).mboxBusy = true
        ∧ (part' t).inbox = q.inbox ++ [{ words := frame16 q.mbox }])
    ∧ (s.partValid p = false ∨ q.mboxBusy = true → s.does (.hostMailboxSend p) fun t => t = s)
    ∧ (let va : Word := BitVec.ofNat 64 ((s.sreg a).toNat / 64 * 64)
       let p := s.agentPart s.cur
       s.cur = .puppet c → s.canIssue [a] [d] →
        ((s.core c).puppet.sc.wait = .mailbox → s.does (.prcmsg d a) fun t => s.heldAt t ∧ (t.core c).puppet.sc.wait = .mailbox ∧ (t.part p).inbox = (s.part p).inbox)
        ∧ ((s.sreg a).toNat % 64 = 0 → (s.core c).puppet.sc.wait ≠ .mailbox → (s.core c).puppet.sc.memq = [] → s.meet s.curEng 1 va 64 = .ok → s.meet s.curEng 2 va 64 = .ok →
            s.does (.prcmsg d a) fun t => s.heldAt t ∧ (t.core c).puppet.sc.wait = .mailbox
              ∧ ∃ n, (t.core c).puppet.letter = n ∧ (t.part p).inbox = (s.part p).inbox ++ [{ agent := some (c, va, d), num := n, words := s.engWords s.curEng 1 va 16 }]))

/-- R12 to R14, R391, R395, R397, R445 to R452, R455 to R458, R466: FUSE forms a partition of edge-connected free slices with its agents running and its memory zero,
and asks for its boot image; the fetch goes through windows, tries and ports to an image that verifies, or fails; RESETP forms again, UNFUSE frees;
MOVE begins a hand-over and its abandon ends one; an upstream endpoint serves its BARs, its doorbell, its messages, its link and its
configuration; and resets leave the reset values. -/
def Obligations.PartitionLifeAndEndpoints : Prop :=
  ∀ (s : State) (m : Frame) (p : PartId) (words : List W32) (f : BootFetch) (i : SliceId) (port : Fin 2) (value : Word) (off n : Nat) (bar2 : Bool) (val : W32)
      (y : Move),
    let w := frame16 m.words
    let op := bitsOf (wordAt w 0) 7 0
    let told (r : Reply) (t : State) : Prop := t.prc.mgmt = replyFrame w r :: s.prc.mgmt
    let goes (n : Nat) : Prop := op = n ∧ bitsOf (wordAt w 0) 15 8 = 0
    let pmap (t : State) (p : PartId) : Word := t.prcReg (0x840 + p.val)
    let runs (is : List SliceId) (t : State) : Prop := ∀ i ∈ is, (∀ k, (t.core ⟨i, k⟩).puppet.running = true ∧ (t.core ⟨i, k⟩).puppet.stopped = false)
      ∧ ∀ g : GroupRef, g.slice = i → (t.group g).st = .free
    let zeroed (is : List SliceId) (t : State) : Prop := ∀ x, memGet t.mem x = if ∃ i ∈ is, i.val = x / 2 ^ 37 then 0 else memGet s.mem x
    let upPort (is : List SliceId) (q : Nat) : Prop := ∃ i, is.head? = some i ∧ q < 8 ∧ (s.port i q).st = 2 ∧ ∀ r < q, (s.port i r).st ≠ 2
    let noPort (is : List SliceId) : Prop := ∀ i, is.head? = some i → ∀ q < 8, (s.port i q).st ≠ 2
    let announced (k : SliceId) (src : Nat) (t : State) : Prop := (s.sliceReg k (0x770 + src)).getLsbD 11 = false → (t.sliceReg k (0x770 + src)).getLsbD 27 = true
    let mine := s.memberSlices p
    (s.booting = true → s.does (.fuse .management m) (fun t => t = s) ∧ s.does (.unfuse .management m) (fun t => t = s) ∧ s.does (.resetp .management m) (fun t => t = s)
      ∧ (goes 0x12 → s.does (.move .management m) (fun t => t = s) ∧ s.does (.moveAbandon .management m) fun t => t = s))
    ∧ (goes 0x10 → s.booting = false → let is := allSlices.filter fun i => (wordAt w 2).getLsbD i.val
        let lease := bitsOf (wordAt w 3) 12 0
        let slot := bitsOf (wordAt w 2) 11 9
        let some' : Prop := ∃ r, s.partValid r = false
        let fits : Prop := some' ∧ (∀ i ∈ is, s.partOf i = none) ∧ edgeConnected is = true
        let good : Prop := (lease = 0 ∨ (16 ≤ lease ∧ lease ≤ 4096)) ∧ tabGet [] s.prc.owners slot ≠ []
        (¬fits → s.does (.fuse .management m) (told { status := 1, reason := 0x05 }))
        ∧ (fits → ¬good → s.does (.fuse .management m) (told { status := 1, reason := 0x01 }))
        ∧ (fits → good → s.partValid p = false → (∀ r < p, s.partValid r = true) → s.does (.fuse .management m) fun t => zeroed is t ∧ runs is t
            ∧ (let e := pmap t p
               bitsOf e 7 0 = bitsOf (wordAt w 2) 7 0 ∧ bitsOf e 8 8 = 1 ∧ bitsOf e 9 9 = bitsOf (wordAt w 2) 8 8 ∧ bitsOf e 24 12 = (if lease = 0 then 256 else lease)
                ∧ bitsOf e 34 25 = (is.map liveCount).sum ∧ bitsOf e 63 48 = (bitsOf (pmap s p) 63 48 + 1) % 65536)
            ∧ bitsOf (t.prcReg (0x818 + p.val)) 15 0 = (bitsOf (s.prcReg (0x818 + p.val)) 15 0 + 1) % 65536
            ∧ (∀ i ∈ is, ∀ n < 16, bitsOf (t.sliceReg i (0x770 + n)) 26 0 = if n = 0 then 0x801 + (is.headD 0).val * 2 ^ 16 else 0)
            ∧ (∀ i ∈ is, ∀ q < 14, hasDyke i q = true → bitsOf (t.sliceReg i (0x780 + q)) 16 0 =
                if (∀ k, neighbour i q = some k → k ∈ is) ∧ (q < 8 ∨ 10 < q ∨ (neighbour i q).isSome) then 2 ^ p.val + 2 ^ (8 + p.val) + 2 ^ 16 else 0)
            ∧ (∀ q, upPort is q → ∃ b, (t.part p).boot = some b ∧ b.port = q ∧ b.tries = 1 ∧ b.offset = 0 ∧ b.since = s.now ∧ b.frame = w ∧ t.prc.mgmt = s.prc.mgmt)
            ∧ (noPort is → (t.part p).boot = none ∧ told { status := 1, reason := 0x07, values := [(2, BitVec.ofNat 32 p.val)] } t)))
    ∧ (let q : PartId := idx 8 (bitsOf (wordAt w 2) 2 0)
       s.booting = false → q = p →
        (∀ n I, (n = 0x11 ∧ I = Instr.unfuse .management m) ∨ (n = 0x13 ∧ I = Instr.resetp .management m) → goes n → s.partValid p = false → s.does I (told { status := 1, reason := 0x01 }))
        ∧ (s.partValid p = true → s.moveOf p = none → mine ≠ [] →
            (goes 0x13 → s.does (.resetp .management m) fun t => zeroed mine t ∧ runs mine t ∧ bitsOf (pmap t p) 8 8 = 1
              ∧ (t.part p).keys = [] ∧ (t.part p).inbox = [] ∧ (t.part p).featLocked = false ∧ (∀ h ∈ t.halts, h.part ≠ p) ∧ (∀ a ∈ t.saved, a.part ≠ p)
              ∧ (∀ q, upPort mine q → ∃ b, (t.part p).boot = some b ∧ b.port = q ∧ b.frame = w ∧ b.thenFree = false)
              ∧ (noPort mine → told { status := 1, reason := 0x07, values := [(2, BitVec.ofNat 32 p.val)] } t))
            ∧ (goes 0x11 → s.does (.unfuse .management m) fun t => zeroed mine t
              ∧ (∀ q, upPort mine q → ∃ b, (t.part p).boot = some b ∧ b.port = q ∧ b.frame = w ∧ b.thenFree = true)
              ∧ (noPort mine → told {} t ∧ bitsOf (pmap t p) 8 8 = 0 ∧ ∀ i ∈ mine, (t.slice i).held = true ∧ (t.slice i).hostHeld = true
                  ∧ ∀ q < 14, hasDyke i q = true → bitsOf (t.sliceReg i (0x780 + q)) 23 0 = 0))))
    ∧ ((s.part p).boot = none → s.does (.bootFetchCompletion p words) (fun t => t = s) ∧ s.does (.bootFetchTimeout p) fun t => t = s)
    ∧ ((s.part p).boot = some f → let k := mine.headD 0
        let again (t : State) : Prop := (t.part p).boot = some { f with tries := f.tries + 1, since := s.now } ∧ s.sameMemory t
        let onPort (q : Nat) (sig : Bool) (t : State) : Prop := s.sameMemory t
          ∧ (t.part p).boot = some { f with port := q, tries := 1, offset := 0, total := 0, since := s.now, sigFail := sig }
        let next (q : Nat) : Prop := f.port < q ∧ q < 8 ∧ (s.port k q).st = 2 ∧ ∀ r, f.port < r → r < q → (s.port k r).st ≠ 2
        let none' : Prop := ∀ r, f.port < r → r < 8 → (s.port k r).st ≠ 2
        let fails (reason : Nat) (t : State) : Prop := f.thenFree = false →
          t.prc.mgmt = replyFrame f.frame { status := 1, reason := reason, values := [(2, BitVec.ofNat 32 p.val)] } :: s.prc.mgmt ∧ (t.part p).boot = none
        let retries (I : Instr) : Prop := (f.tries < 4 → f.port < 8 → (s.port k f.port).st = 2 → s.does I again)
          ∧ (4 ≤ f.tries → (∀ q, next q → s.does I (onPort q f.sigFail)) ∧ (none' → s.does I (fails (if f.sigFail then 0x04 else 0x07))))
        let stat := bitsOf (wordAt words 0) 15 8
        let total := if f.offset = 0 then (dwordAt words 10).toNat else f.total
        let want := 256 + (dwordAt (s.bootHeader p) 4).toNat + 8240 + keyBytes
        mine ≠ [] →
        (f.since.toNat + 100000000 ≤ s.now.toNat → retries (.bootFetchTimeout p))
        ∧ (s.now.toNat < f.since.toNat + 100000000 → s.does (.bootFetchTimeout p) fun t => t = s)
        ∧ (completes (s.part p).fuseArgs f words = false → s.does (.bootFetchCompletion p words) fun t => t = s)
        ∧ (completes (s.part p).fuseArgs f words = true →
            (stat = 3 → retries (.bootFetchCompletion p words))
            ∧ (stat ≠ 0 → stat ≠ 3 → (∀ q, next q → s.does (.bootFetchCompletion p words) (onPort q f.sigFail))
                ∧ (none' → s.does (.bootFetchCompletion p words) (fails (if f.sigFail then 0x04 else 0x07))))
            ∧ (stat = 0 → total ≠ want → s.does (.bootFetchCompletion p words) (fails (if f.sigFail then 0x04 else 0x07)))
            ∧ (stat = 0 → total = want → want ≤ 2 ^ 36 → f.offset + 0x100000 < want → f.port < 8 → (s.port k f.port).st = 2 → s.does (.bootFetchCompletion p words) fun t =>
                s.sameMemory t ∧ (t.part p).boot = some { f with total := total, offset := f.offset + 0x100000, tries := 1, since := s.now })
            ∧ (stat = 0 → total = want → want ≤ 2 ^ 36 → want ≤ f.offset + 0x100000 →
                (s.bootChecks p = true → f.thenFree = false → s.does (.bootFetchCompletion p words) fun t => s.sameMemory t ∧ (t.part p).boot = none ∧ (t.part p).booted = true
                  ∧ t.prc.mgmt = replyFrame f.frame { values := [(2, BitVec.ofNat 32 p.val)] } :: s.prc.mgmt
                  ∧ (t.part p).bootm = sha384 (memRead s.mem (k.val * 2 ^ 37) (256 + (dwordAt (s.bootHeader p) 4).toNat))
                  ∧ (∃ pc, (t.part p).hart0 = some (pc, BitVec.ofNat 64 p.val, BitVec.ofNat 64 (k.val * 2 ^ 37))) ∧ ∀ i ∈ mine, (t.slice i).hostHeld = false)
                ∧ (s.bootChecks p = false → (∀ q, next q → s.does (.bootFetchCompletion p words) (onPort q true)) ∧ (none' → s.does (.bootFetchCompletion p words) (fails 0x04))))))
    ∧ (goes 0x12 → s.booting = false → let i := mvSlice w
        let a := mvFrom w
        let b := mvTo w
        (mvAbandon w = true → s.does (.move .management m) fun t => t = s) ∧ (mvAbandon w = false → s.does (.moveAbandon .management m) fun t => t = s)
        ∧ (mvAbandon w = false → (s.moveRefused w = true → s.does (.move .management m) (told { status := 1, reason := 0x05 }))
            ∧ (s.moveRefused w = false → s.does (.move .management m) fun t => told {} t ∧ s.sameMemory t ∧ (pmap t a).getLsbD 10 = true ∧ (pmap t b).getLsbD 10 = true
                ∧ (t.part a).move = some { slice := i, toPart := b, step := 1, acked := false }))
        ∧ (mvAbandon w = true → ((s.part a).move = none ∨ (∃ y, (s.part a).move = some y ∧ (y.slice ≠ i ∨ y.toPart ≠ b ∨ 4 ≤ y.step)) →
              s.does (.moveAbandon .management m) (told { status := 1, reason := 0x06 }))
            ∧ ((s.part a).move = some y → y.slice = i → y.toPart = b → y.step < 3 → s.does (.moveAbandon .management m) fun t => told {} t ∧ (t.part a).move = none
                ∧ (pmap t a).getLsbD 10 = false ∧ (pmap t b).getLsbD 10 = false)))
    ∧ (let e := s.epstat i port.val
       let bars := s.epBars i port.val
       let page := bars.2.2
       let base := if bar2 then page else bars.1
       let size := if bar2 then 4096 else 2 ^ bars.2.1
       let q := s.partOf! i
       let pending (t : State) (v : Nat) : Bool := (memGet t.mem (page + 0xC00)).getLsbD v
       let masked (v : Nat) : Prop := tabGet false (s.slice i).epMask port.val = true ∨ (memGet s.mem (page + 0x800 + 16 * v + 12)).getLsbD 0 = true
       let mayLoad : Prop := s.epServes i port.val = true ∧ 0 < n ∧ n ≤ 8 ∧ off + n ≤ size ∧ s.dykePort i (11 + port.val) q true (base + off) true false = true
       let mayStore (n off : Nat) : Prop := s.epServes i port.val = true ∧ 0 < n ∧ n ≤ 8 ∧ off + n ≤ size ∧ s.dykePort i (11 + port.val) q true (base + off) false true = true
         ∧ s.outsideReady (base + off) n = true
       let stored (n off : Nat) (t : State) : Prop := ∀ x, memGet t.mem x = if base + off ≤ x ∧ x < base + off + n then BitVec.ofNat 8 (value.toNat / 2 ^ (8 * (x - (base + off)))) else memGet s.mem x
       (s.injectorOff → mayLoad → s.does (.epInboundRequest i port bar2 off (.load n)) fun t => s.sameMemory t ∧ t.outRead = BitVec.ofNat 64 (memReadLE s.mem (base + off) n))
       ∧ (¬mayLoad → s.does (.epInboundRequest i port bar2 off (.load n)) fun t => t = s)
       ∧ (mayStore n off → bar2 = false ∨ off + n ≤ 0x800 → s.does (.epInboundRequest i port bar2 off (.store n value)) (stored n off))
       ∧ (¬mayStore n off → s.does (.epInboundRequest i port bar2 off (.store n value)) fun t => t = s)
       ∧ (bar2 = true → mayStore 8 0x40 → s.does (.epDoorbell i port value) fun t => stored 8 0x40 t ∧ (t.epstat i port.val).getLsbD 3 = true ∧ announced i 0xB t)
       ∧ (bar2 = true → ¬mayStore 8 0x40 → s.does (.epDoorbell i port value) fun t => t = s)
       ∧ (let v := bitsOf value 1 0
          (e.getLsbD 0 = false → s.does (.epmsiWrite i port value) fun t => t = s)
          ∧ (e.getLsbD 0 = true → masked v → s.does (.epmsiWrite i port value) fun t => pending t v = true ∧ (∀ j < 8, j ≠ v → pending t j = pending s j)
              ∧ (t.slice i).epMsis = (s.slice i).epMsis ∧ ∀ x, x ≠ page + 0xC00 → memGet t.mem x = memGet s.mem x)
          ∧ (e.getLsbD 0 = true → ¬masked v → s.does (.epmsiWrite i port value) fun t => s.sameMemory t ∧ (t.slice i).epMsis = (port.val, v) :: (s.slice i).epMsis))
       ∧ (e.getLsbD 0 = true → e.getLsbD 1 = false → s.does (.epLinkUp i port) fun t => s.sameMemory t ∧ (t.epstat i port.val).getLsbD 1 = true
            ∧ bitsOf (t.epstat i port.val) 63 32 = s.stampBits 32)
       ∧ (e.getLsbD 0 = false ∨ e.getLsbD 1 = true → s.does (.epLinkUp i port) fun t => t = s)
       ∧ (e.getLsbD 0 = true → s.does (.epHotReset i port) fun t => (t.epstat i port.val).getLsbD 0 = true ∧ (t.epstat i port.val).getLsbD 1 = false
            ∧ (t.epstat i port.val).getLsbD 2 = false ∧ announced i 0x7 t ∧ tabGet false (t.slice i).epD3 port.val = false ∧ tabGet false (t.slice i).epMask port.val = false
            ∧ ∀ x, memGet t.mem x = if page ≤ x ∧ x < page + 4096 then 0 else memGet s.mem x)
       ∧ (e.getLsbD 0 = false → s.does (.epHotReset i port) fun t => t = s)
       ∧ (e.getLsbD 0 = false ∨ e.getLsbD 1 = false ∨ e.getLsbD 2 = true → s.does (.epConfigWrite i port off val) fun t => t = s)
       ∧ (e.getLsbD 0 = true → e.getLsbD 1 = true → e.getLsbD 2 = false → s.does (.epConfigWrite i port off val) fun t =>
            let kept (o : Nat) : W32 := tabGet 0 (tabGet [] (t.slice i).epCfg port.val) o
            kept off = val &&& epCfgMask off bars.2.1 ∧ (∀ o, o ≠ off → kept o = tabGet 0 (tabGet [] (s.slice i).epCfg port.val) o)
              ∧ (off = 0x04 → kept off = BitVec.ofNat 32 (bitsOf val 15 0)) ∧ (off = 0x18 → kept off = BitVec.ofNat 32 (bitsOf val 31 12 * 4096)
                ∧ t.epConfig i port.val off = BitVec.ofNat 32 (bitsOf val 31 12 * 4096 + 4)))
       ∧ bitsOf (s.epConfig i port.val 0x00) 15 0 = bitsOf Config.endpointId 15 0 ∧ bitsOf (s.epConfig i port.val 0x00) 31 16 = 0x7B08
       ∧ bitsOf (s.epConfig i port.val 0x08) 7 0 = bitsOf Config.endpointId 23 16 ∧ bitsOf (s.epConfig i port.val 0x08) 31 8 = 0x120000
       ∧ bitsOf (s.epConfig i port.val 0x0C) 23 16 = 0 ∧ bitsOf (s.epConfig i port.val 0x3C) 15 8 = 0
       ∧ s.epConfig i port.val 0x20 = 0 ∧ s.epConfig i port.val 0x24 = 0 ∧ s.epConfig i port.val 0x30 = 0)
    ∧ (s.does (.sliceReset i 0) fun t => s.sameMemory t ∧ (∀ n, t.sliceReg i n = sliceRegReset n) ∧ (∀ c n, c.slice = i → t.coreReg c n = coreRegReset n)
        ∧ (∀ g : GroupRef, g.slice = i → (t.group g).st = .free) ∧ ∀ j, j ≠ i → t.slice j = s.slice j)
    ∧ (s.does .modulePowerOnReset fun t => t = { State.reset with schedule := s.schedule, fresh := s.fresh })
end

