-- ==== Sys2Proof/Laws/Tab.lean ====
section
/-! SUPPORT. Laws of tables and byte memories: read after write, and that every memory operation keeps the canonical form. -/

namespace Sys2Proof.Machine

set_option Elab.async false

/-! ### Tables -/

@[simp] theorem tabGet_tabSet {α : Type} (d : α) (t : Tab α) (i j : Nat) (x : α) :
    tabGet d (tabSet t i x) j = if j = i then x else tabGet d t j := by
  induction t with
  | nil => simp [tabSet, tabGet]
  | cons e t ih =>
    obtain ⟨k, v⟩ := e
    unfold tabSet
    split_ifs with h1 h2 <;> simp only [tabGet, ih] <;> split_ifs <;> first | rfl | omega

@[simp] theorem tabFind_tabSet {α : Type} (t : Tab α) (i j : Nat) (x : α) :
    tabFind (tabSet t i x) j = if j = i then some x else tabFind t j := by
  induction t with
  | nil => simp [tabSet, tabFind]
  | cons e t ih =>
    obtain ⟨k, v⟩ := e
    unfold tabSet
    split_ifs with h1 h2 <;> simp only [tabFind, ih] <;> split_ifs <;> first | rfl | omega

theorem tabGet_eq_tabFind {α : Type} (d : α) (t : Tab α) (i : Nat) : tabGet d t i = (tabFind t i).getD d := by
  induction t with
  | nil => rfl
  | cons e t ih => obtain ⟨k, v⟩ := e; simp only [tabGet, tabFind]; split_ifs <;> simp [ih]

/-- What a table holds when a key has been taken out. -/
@[simp] theorem tabFind_tabDel {α : Type} (t : Tab α) (i j : Nat) : tabFind (tabDel t i) j = if j = i then none else tabFind t j := by
  unfold tabDel
  induction t with
  | nil => simp [tabFind]
  | cons e t ih =>
    obtain ⟨k, v⟩ := e
    by_cases h : k = i
    · subst h; simp only [bne_self_eq_false, Bool.false_eq_true, not_false_eq_true, List.filter_cons_of_neg, ih, tabFind]; split_ifs <;> rfl
    · rw [List.filter_cons_of_pos (by simpa using h)]; simp only [tabFind, ih]; split_ifs <;> first | rfl | omega

@[simp] theorem tabGet_tabDel {α : Type} (d : α) (t : Tab α) (i j : Nat) : tabGet d (tabDel t i) j = if j = i then d else tabGet d t j := by
  simp only [tabGet_eq_tabFind, tabFind_tabDel]; split_ifs <;> rfl

/-! ### Byte memories -/

/-- The canonical form, said of all entries at once. -/
theorem Memory.wf_iff (m : Memory) :
    Memory.wf m = true ↔ m.Pairwise (fun a b => a.1 < b.1) ∧ ∀ e ∈ m, e.2 ≠ memDefault := by
  induction m with
  | nil => simp [Memory.wf]
  | cons e t ih =>
    cases t with
    | nil => simp [Memory.wf]
    | cons e' t =>
      simp only [Memory.wf, Bool.and_eq_true, decide_eq_true_eq, ih, List.pairwise_cons, List.mem_cons]
      constructor
      · rintro ⟨⟨hv, hk⟩, ⟨hp, hq⟩, hn⟩
        refine ⟨⟨?_, hp, hq⟩, ?_⟩
        · rintro x (rfl | hx)
          · exact hk
          · exact lt_trans hk (hp x hx)
        · rintro x (rfl | hx)
          · exact hv
          · exact hn x hx
      · rintro ⟨⟨ha, hp, hq⟩, hn⟩
        exact ⟨⟨hn e (.inl rfl), ha e' (.inl rfl)⟩, ⟨hp, hq⟩, fun x hx => hn x (.inr hx)⟩

theorem Memory.wf_tail {e : Nat × Byte} {t : Memory} (h : Memory.wf (e :: t) = true) : Memory.wf t = true := by
  rw [Memory.wf_iff] at h ⊢
  exact ⟨(List.pairwise_cons.1 h.1).2, fun x hx => h.2 x (List.mem_cons_of_mem _ hx)⟩

/-- An address below every listed one reads as the default. -/
theorem memGet_below {m : Memory} {n : Nat} (h : ∀ e ∈ m, n < e.1) : memGet m n = memDefault := by
  induction m with
  | nil => rfl
  | cons e t ih =>
    have := h e List.mem_cons_self
    simp only [memGet]
    rw [if_neg (by omega)]
    exact ih fun x hx => h x (List.mem_cons_of_mem _ hx)

/-- A byte read where entries of one address have been taken out. -/
theorem memGet_filter (m : Memory) (i j : Nat) : memGet (m.filter fun e => e.1 != i) j = if j = i then memDefault else memGet m j := by
  induction m with
  | nil => simp [memGet]
  | cons e t ih =>
    obtain ⟨k, v⟩ := e
    by_cases h : k = i
    · subst h; simp only [bne_self_eq_false, Bool.false_eq_true, not_false_eq_true, List.filter_cons_of_neg, ih, memGet]; split_ifs <;> rfl
    · rw [List.filter_cons_of_pos (by simpa using h)]; simp only [memGet, ih]; split_ifs <;> first | rfl | omega

/-- A byte read where one has been put. -/
theorem memGet_memPut (m : Memory) (i j : Nat) (x : Byte) : memGet (memPut m i x) j = if j = i then x else memGet m j := by
  induction m with
  | nil => simp [memPut, memGet]
  | cons e t ih =>
    obtain ⟨k, v⟩ := e
    unfold memPut
    split_ifs with h1 h2 <;> simp only [memGet, ih] <;> split_ifs <;> first | rfl | omega

/-- Read after write of one byte. -/
@[simp] theorem memGet_memSet (m : Memory) (i j : Nat) (x : Byte) : memGet (memSet m i x) j = if j = i then x else memGet m j := by
  unfold memSet
  split_ifs with h hj
  · rw [memGet_filter, if_pos hj, h]
  · rw [memGet_filter, if_neg hj]
  all_goals rw [memGet_memPut]; simp_all

/-- The addresses that putting a byte lists. -/
theorem mem_memPut {m : Memory} {i : Nat} {x : Byte} {e : Nat × Byte} (h : e ∈ memPut m i x) : e ∈ m ∨ e = (i, x) := by
  induction m with
  | nil => simp_all [memPut]
  | cons a t ih =>
    unfold memPut at h
    split_ifs at h <;> simp only [List.mem_cons] at h ⊢ <;> tauto

/-- Taking entries out keeps the canonical form. -/
theorem filter_wf (m : Memory) (f : Nat × Byte → Bool) (h : Memory.wf m = true) : Memory.wf (m.filter f) = true := by
  rw [Memory.wf_iff] at h ⊢
  exact ⟨h.1.filter _, fun e he => h.2 e (List.mem_of_mem_filter he)⟩

/-- A write of one byte keeps the canonical form. -/
theorem memSet_wf (m : Memory) (i : Nat) (x : Byte) (h : Memory.wf m = true) : Memory.wf (memSet m i x) = true := by
  unfold memSet
  split_ifs with hx
  · exact filter_wf m _ h
  · induction m with
    | nil => simpa [memPut, Memory.wf] using hx
    | cons e t ih =>
      have ht := ih (Memory.wf_tail h)
      rw [Memory.wf_iff] at h ht ⊢
      obtain ⟨hp, hn⟩ := h
      obtain ⟨ha, hq⟩ := List.pairwise_cons.1 hp
      refine ⟨?_, fun a h' => (mem_memPut h').elim (hn a) fun h' => h' ▸ hx⟩
      unfold memPut
      split_ifs with h1 h2
      · exact List.pairwise_cons.2 ⟨fun a h' => (List.mem_cons.1 h').elim (fun h' => h' ▸ h1) fun h' => lt_trans h1 (ha a h'), hp⟩
      · exact List.pairwise_cons.2 ⟨fun a h' => by rw [h2]; exact ha a h', hq⟩
      · refine List.pairwise_cons.2 ⟨fun a h' => ?_, ht.1⟩
        rcases mem_memPut h' with h' | h'
        · exact ha a h'
        · rw [h']; show e.1 < i; omega

/-- A write of several bytes keeps the canonical form. -/
theorem memWrite_wf (m : Memory) (a : Nat) (bs : List Byte) (h : Memory.wf m = true) : Memory.wf (memWrite m a bs) = true := by
  induction bs generalizing m a with
  | nil => exact h
  | cons b bs ih => exact ih _ _ (memSet_wf m a b h)

/-- Read after write of several bytes. -/
@[simp] theorem memGet_memWrite (m : Memory) (a j : Nat) (bs : List Byte) :
    memGet (memWrite m a bs) j = if a ≤ j ∧ j < a + bs.length then bs.getD (j - a) 0 else memGet m j := by
  induction bs generalizing m a with
  | nil => simp only [memWrite, List.length_nil, Nat.add_zero]; rw [if_neg (by omega)]
  | cons b bs ih =>
    simp only [memWrite, ih, memGet_memSet, List.length_cons]
    by_cases h1 : j = a
    · subst h1; simp
    · by_cases h2 : a + 1 ≤ j ∧ j < a + 1 + bs.length
      · rw [if_pos h2, if_pos (by omega)]
        have : j - a = (j - (a + 1)) + 1 := by omega
        rw [this, List.getD_cons_succ]
      · rw [if_neg h2, if_neg h1, if_neg (by omega)]

/-- Two canonical memories that read alike are equal. -/
theorem Memory.ext_of_wf {m n : Memory} (hm : Memory.wf m = true) (hn : Memory.wf n = true) (h : ∀ a, memGet m a = memGet n a) : m = n := by
  induction m generalizing n with
  | nil =>
    cases n with
    | nil => rfl
    | cons e t =>
      exact absurd (by simpa [memGet] using (h e.1).symm) (((Memory.wf_iff _).1 hn).2 e List.mem_cons_self)
  | cons a s ih =>
    have ua := ((Memory.wf_iff _).1 hm).2 a List.mem_cons_self
    have as := (List.pairwise_cons.1 ((Memory.wf_iff _).1 hm).1).1
    cases n with
    | nil => exact absurd (by simpa [memGet] using h a.1) ua
    | cons b t =>
      have ub := ((Memory.wf_iff _).1 hn).2 b List.mem_cons_self
      have bt := (List.pairwise_cons.1 ((Memory.wf_iff _).1 hn).1).1
      have key : a.1 = b.1 := by
        rcases lt_trichotomy a.1 b.1 with hlt | heq | hgt
        · have := h a.1
          rw [memGet_below (m := b :: t) fun e he => (List.mem_cons.1 he).elim (fun e' => e' ▸ hlt) fun he => lt_trans hlt (bt e he)] at this
          exact absurd (by simpa [memGet] using this) ua
        · exact heq
        · have := h b.1
          rw [memGet_below (m := a :: s) fun e he => (List.mem_cons.1 he).elim (fun e' => e' ▸ hgt) fun he => lt_trans hgt (as e he)] at this
          exact absurd (by simpa [memGet] using this.symm) ub
      have val : a.2 = b.2 := by simpa [memGet, key] using h a.1
      rw [Prod.ext key val, ih (Memory.wf_tail hm) (Memory.wf_tail hn) fun x => ?_]
      rcases eq_or_ne x a.1 with rfl | hx
      · rw [memGet_below as, memGet_below fun e he => by rw [key]; exact bt e he]
      · simpa [memGet, hx, key ▸ hx] using h x

end Sys2Proof.Machine
end

