-- ==== Sys2Proof/Laws/State.lean ====
section
/-! SUPPORT. Laws of the state: every field under every named update, and what a unit holds after another unit was changed. -/

namespace Sys2Proof.Machine

set_option Elab.async false

/-! ### Fields under the updates -/

@[simp] theorem State.setSlice_now (s : State) (i : SliceId) (v : Slice) : (s.setSlice i v).now = s.now := rfl
@[simp] theorem State.setSlice_mem (s : State) (i : SliceId) (v : Slice) : (s.setSlice i v).mem = s.mem := rfl
@[simp] theorem State.setSlice_prc (s : State) (i : SliceId) (v : Slice) : (s.setSlice i v).prc = s.prc := rfl
@[simp] theorem State.setSlice_grids (s : State) (i : SliceId) (v : Slice) : (s.setSlice i v).grids = s.grids := rfl
@[simp] theorem State.setSlice_nbhs (s : State) (i : SliceId) (v : Slice) : (s.setSlice i v).nbhs = s.nbhs := rfl
@[simp] theorem State.setSlice_asyncs (s : State) (i : SliceId) (v : Slice) : (s.setSlice i v).asyncs = s.asyncs := rfl
@[simp] theorem State.setSlice_started (s : State) (i : SliceId) (v : Slice) : (s.setSlice i v).started = s.started := rfl
@[simp] theorem State.setSlice_halts (s : State) (i : SliceId) (v : Slice) : (s.setSlice i v).halts = s.halts := rfl
@[simp] theorem State.setSlice_saved (s : State) (i : SliceId) (v : Slice) : (s.setSlice i v).saved = s.saved := rfl
@[simp] theorem State.setSlice_poison (s : State) (i : SliceId) (v : Slice) : (s.setSlice i v).poison = s.poison := rfl
@[simp] theorem State.setSlice_tileLocks (s : State) (i : SliceId) (v : Slice) : (s.setSlice i v).tileLocks = s.tileLocks := rfl
@[simp] theorem State.setSlice_leaseAll (s : State) (i : SliceId) (v : Slice) : (s.setSlice i v).leaseAll = s.leaseAll := rfl
@[simp] theorem State.setSlice_lineCov (s : State) (i : SliceId) (v : Slice) : (s.setSlice i v).lineCov = s.lineCov := rfl
@[simp] theorem State.setSlice_msis (s : State) (i : SliceId) (v : Slice) : (s.setSlice i v).msis = s.msis := rfl
@[simp] theorem State.setSlice_outRead (s : State) (i : SliceId) (v : Slice) : (s.setSlice i v).outRead = s.outRead := rfl
@[simp] theorem State.setSlice_kicks (s : State) (i : SliceId) (v : Slice) : (s.setSlice i v).kicks = s.kicks := rfl
@[simp] theorem State.setSlice_nextId (s : State) (i : SliceId) (v : Slice) : (s.setSlice i v).nextId = s.nextId := rfl
@[simp] theorem State.setSlice_fresh (s : State) (i : SliceId) (v : Slice) : (s.setSlice i v).fresh = s.fresh := rfl
@[simp] theorem State.setSlice_cur (s : State) (i : SliceId) (v : Slice) : (s.setSlice i v).cur = s.cur := rfl
@[simp] theorem State.setSlice_word (s : State) (i : SliceId) (v : Slice) : (s.setSlice i v).word = s.word := rfl
@[simp] theorem State.setSlice_schedule (s : State) (i : SliceId) (v : Slice) : (s.setSlice i v).schedule = s.schedule := rfl

@[simp] theorem State.modSlice_now (s : State) (i : SliceId) (f : Slice → Slice) : (s.modSlice i f).now = s.now := rfl
@[simp] theorem State.modSlice_mem (s : State) (i : SliceId) (f : Slice → Slice) : (s.modSlice i f).mem = s.mem := rfl
@[simp] theorem State.modSlice_prc (s : State) (i : SliceId) (f : Slice → Slice) : (s.modSlice i f).prc = s.prc := rfl
@[simp] theorem State.modSlice_grids (s : State) (i : SliceId) (f : Slice → Slice) : (s.modSlice i f).grids = s.grids := rfl
@[simp] theorem State.modSlice_nbhs (s : State) (i : SliceId) (f : Slice → Slice) : (s.modSlice i f).nbhs = s.nbhs := rfl
@[simp] theorem State.modSlice_asyncs (s : State) (i : SliceId) (f : Slice → Slice) : (s.modSlice i f).asyncs = s.asyncs := rfl
@[simp] theorem State.modSlice_started (s : State) (i : SliceId) (f : Slice → Slice) : (s.modSlice i f).started = s.started := rfl
@[simp] theorem State.modSlice_halts (s : State) (i : SliceId) (f : Slice → Slice) : (s.modSlice i f).halts = s.halts := rfl
@[simp] theorem State.modSlice_saved (s : State) (i : SliceId) (f : Slice → Slice) : (s.modSlice i f).saved = s.saved := rfl
@[simp] theorem State.modSlice_poison (s : State) (i : SliceId) (f : Slice → Slice) : (s.modSlice i f).poison = s.poison := rfl
@[simp] theorem State.modSlice_tileLocks (s : State) (i : SliceId) (f : Slice → Slice) : (s.modSlice i f).tileLocks = s.tileLocks := rfl
@[simp] theorem State.modSlice_leaseAll (s : State) (i : SliceId) (f : Slice → Slice) : (s.modSlice i f).leaseAll = s.leaseAll := rfl
@[simp] theorem State.modSlice_lineCov (s : State) (i : SliceId) (f : Slice → Slice) : (s.modSlice i f).lineCov = s.lineCov := rfl
@[simp] theorem State.modSlice_msis (s : State) (i : SliceId) (f : Slice → Slice) : (s.modSlice i f).msis = s.msis := rfl
@[simp] theorem State.modSlice_outRead (s : State) (i : SliceId) (f : Slice → Slice) : (s.modSlice i f).outRead = s.outRead := rfl
@[simp] theorem State.modSlice_kicks (s : State) (i : SliceId) (f : Slice → Slice) : (s.modSlice i f).kicks = s.kicks := rfl
@[simp] theorem State.modSlice_nextId (s : State) (i : SliceId) (f : Slice → Slice) : (s.modSlice i f).nextId = s.nextId := rfl
@[simp] theorem State.modSlice_fresh (s : State) (i : SliceId) (f : Slice → Slice) : (s.modSlice i f).fresh = s.fresh := rfl
@[simp] theorem State.modSlice_cur (s : State) (i : SliceId) (f : Slice → Slice) : (s.modSlice i f).cur = s.cur := rfl
@[simp] theorem State.modSlice_word (s : State) (i : SliceId) (f : Slice → Slice) : (s.modSlice i f).word = s.word := rfl
@[simp] theorem State.modSlice_schedule (s : State) (i : SliceId) (f : Slice → Slice) : (s.modSlice i f).schedule = s.schedule := rfl

@[simp] theorem State.setCore_now (s : State) (c : CoreRef) (v : Core) : (s.setCore c v).now = s.now := rfl
@[simp] theorem State.setCore_mem (s : State) (c : CoreRef) (v : Core) : (s.setCore c v).mem = s.mem := rfl
@[simp] theorem State.setCore_prc (s : State) (c : CoreRef) (v : Core) : (s.setCore c v).prc = s.prc := rfl
@[simp] theorem State.setCore_grids (s : State) (c : CoreRef) (v : Core) : (s.setCore c v).grids = s.grids := rfl
@[simp] theorem State.setCore_nbhs (s : State) (c : CoreRef) (v : Core) : (s.setCore c v).nbhs = s.nbhs := rfl
@[simp] theorem State.setCore_asyncs (s : State) (c : CoreRef) (v : Core) : (s.setCore c v).asyncs = s.asyncs := rfl
@[simp] theorem State.setCore_started (s : State) (c : CoreRef) (v : Core) : (s.setCore c v).started = s.started := rfl
@[simp] theorem State.setCore_halts (s : State) (c : CoreRef) (v : Core) : (s.setCore c v).halts = s.halts := rfl
@[simp] theorem State.setCore_saved (s : State) (c : CoreRef) (v : Core) : (s.setCore c v).saved = s.saved := rfl
@[simp] theorem State.setCore_poison (s : State) (c : CoreRef) (v : Core) : (s.setCore c v).poison = s.poison := rfl
@[simp] theorem State.setCore_tileLocks (s : State) (c : CoreRef) (v : Core) : (s.setCore c v).tileLocks = s.tileLocks := rfl
@[simp] theorem State.setCore_leaseAll (s : State) (c : CoreRef) (v : Core) : (s.setCore c v).leaseAll = s.leaseAll := rfl
@[simp] theorem State.setCore_lineCov (s : State) (c : CoreRef) (v : Core) : (s.setCore c v).lineCov = s.lineCov := rfl
@[simp] theorem State.setCore_msis (s : State) (c : CoreRef) (v : Core) : (s.setCore c v).msis = s.msis := rfl
@[simp] theorem State.setCore_outRead (s : State) (c : CoreRef) (v : Core) : (s.setCore c v).outRead = s.outRead := rfl
@[simp] theorem State.setCore_kicks (s : State) (c : CoreRef) (v : Core) : (s.setCore c v).kicks = s.kicks := rfl
@[simp] theorem State.setCore_nextId (s : State) (c : CoreRef) (v : Core) : (s.setCore c v).nextId = s.nextId := rfl
@[simp] theorem State.setCore_fresh (s : State) (c : CoreRef) (v : Core) : (s.setCore c v).fresh = s.fresh := rfl
@[simp] theorem State.setCore_cur (s : State) (c : CoreRef) (v : Core) : (s.setCore c v).cur = s.cur := rfl
@[simp] theorem State.setCore_word (s : State) (c : CoreRef) (v : Core) : (s.setCore c v).word = s.word := rfl
@[simp] theorem State.setCore_schedule (s : State) (c : CoreRef) (v : Core) : (s.setCore c v).schedule = s.schedule := rfl

@[simp] theorem State.modCore_now (s : State) (c : CoreRef) (f : Core → Core) : (s.modCore c f).now = s.now := rfl
@[simp] theorem State.modCore_mem (s : State) (c : CoreRef) (f : Core → Core) : (s.modCore c f).mem = s.mem := rfl
@[simp] theorem State.modCore_prc (s : State) (c : CoreRef) (f : Core → Core) : (s.modCore c f).prc = s.prc := rfl
@[simp] theorem State.modCore_grids (s : State) (c : CoreRef) (f : Core → Core) : (s.modCore c f).grids = s.grids := rfl
@[simp] theorem State.modCore_nbhs (s : State) (c : CoreRef) (f : Core → Core) : (s.modCore c f).nbhs = s.nbhs := rfl
@[simp] theorem State.modCore_asyncs (s : State) (c : CoreRef) (f : Core → Core) : (s.modCore c f).asyncs = s.asyncs := rfl
@[simp] theorem State.modCore_started (s : State) (c : CoreRef) (f : Core → Core) : (s.modCore c f).started = s.started := rfl
@[simp] theorem State.modCore_halts (s : State) (c : CoreRef) (f : Core → Core) : (s.modCore c f).halts = s.halts := rfl
@[simp] theorem State.modCore_saved (s : State) (c : CoreRef) (f : Core → Core) : (s.modCore c f).saved = s.saved := rfl
@[simp] theorem State.modCore_poison (s : State) (c : CoreRef) (f : Core → Core) : (s.modCore c f).poison = s.poison := rfl
@[simp] theorem State.modCore_tileLocks (s : State) (c : CoreRef) (f : Core → Core) : (s.modCore c f).tileLocks = s.tileLocks := rfl
@[simp] theorem State.modCore_leaseAll (s : State) (c : CoreRef) (f : Core → Core) : (s.modCore c f).leaseAll = s.leaseAll := rfl
@[simp] theorem State.modCore_lineCov (s : State) (c : CoreRef) (f : Core → Core) : (s.modCore c f).lineCov = s.lineCov := rfl
@[simp] theorem State.modCore_msis (s : State) (c : CoreRef) (f : Core → Core) : (s.modCore c f).msis = s.msis := rfl
@[simp] theorem State.modCore_outRead (s : State) (c : CoreRef) (f : Core → Core) : (s.modCore c f).outRead = s.outRead := rfl
@[simp] theorem State.modCore_kicks (s : State) (c : CoreRef) (f : Core → Core) : (s.modCore c f).kicks = s.kicks := rfl
@[simp] theorem State.modCore_nextId (s : State) (c : CoreRef) (f : Core → Core) : (s.modCore c f).nextId = s.nextId := rfl
@[simp] theorem State.modCore_fresh (s : State) (c : CoreRef) (f : Core → Core) : (s.modCore c f).fresh = s.fresh := rfl
@[simp] theorem State.modCore_cur (s : State) (c : CoreRef) (f : Core → Core) : (s.modCore c f).cur = s.cur := rfl
@[simp] theorem State.modCore_word (s : State) (c : CoreRef) (f : Core → Core) : (s.modCore c f).word = s.word := rfl
@[simp] theorem State.modCore_schedule (s : State) (c : CoreRef) (f : Core → Core) : (s.modCore c f).schedule = s.schedule := rfl

@[simp] theorem State.setGroup_now (s : State) (g : GroupRef) (v : Group) : (s.setGroup g v).now = s.now := rfl
@[simp] theorem State.setGroup_mem (s : State) (g : GroupRef) (v : Group) : (s.setGroup g v).mem = s.mem := rfl
@[simp] theorem State.setGroup_prc (s : State) (g : GroupRef) (v : Group) : (s.setGroup g v).prc = s.prc := rfl
@[simp] theorem State.setGroup_grids (s : State) (g : GroupRef) (v : Group) : (s.setGroup g v).grids = s.grids := rfl
@[simp] theorem State.setGroup_nbhs (s : State) (g : GroupRef) (v : Group) : (s.setGroup g v).nbhs = s.nbhs := rfl
@[simp] theorem State.setGroup_asyncs (s : State) (g : GroupRef) (v : Group) : (s.setGroup g v).asyncs = s.asyncs := rfl
@[simp] theorem State.setGroup_started (s : State) (g : GroupRef) (v : Group) : (s.setGroup g v).started = s.started := rfl
@[simp] theorem State.setGroup_halts (s : State) (g : GroupRef) (v : Group) : (s.setGroup g v).halts = s.halts := rfl
@[simp] theorem State.setGroup_saved (s : State) (g : GroupRef) (v : Group) : (s.setGroup g v).saved = s.saved := rfl
@[simp] theorem State.setGroup_poison (s : State) (g : GroupRef) (v : Group) : (s.setGroup g v).poison = s.poison := rfl
@[simp] theorem State.setGroup_tileLocks (s : State) (g : GroupRef) (v : Group) : (s.setGroup g v).tileLocks = s.tileLocks := rfl
@[simp] theorem State.setGroup_leaseAll (s : State) (g : GroupRef) (v : Group) : (s.setGroup g v).leaseAll = s.leaseAll := rfl
@[simp] theorem State.setGroup_lineCov (s : State) (g : GroupRef) (v : Group) : (s.setGroup g v).lineCov = s.lineCov := rfl
@[simp] theorem State.setGroup_msis (s : State) (g : GroupRef) (v : Group) : (s.setGroup g v).msis = s.msis := rfl
@[simp] theorem State.setGroup_outRead (s : State) (g : GroupRef) (v : Group) : (s.setGroup g v).outRead = s.outRead := rfl
@[simp] theorem State.setGroup_kicks (s : State) (g : GroupRef) (v : Group) : (s.setGroup g v).kicks = s.kicks := rfl
@[simp] theorem State.setGroup_nextId (s : State) (g : GroupRef) (v : Group) : (s.setGroup g v).nextId = s.nextId := rfl
@[simp] theorem State.setGroup_fresh (s : State) (g : GroupRef) (v : Group) : (s.setGroup g v).fresh = s.fresh := rfl
@[simp] theorem State.setGroup_cur (s : State) (g : GroupRef) (v : Group) : (s.setGroup g v).cur = s.cur := rfl
@[simp] theorem State.setGroup_word (s : State) (g : GroupRef) (v : Group) : (s.setGroup g v).word = s.word := rfl
@[simp] theorem State.setGroup_schedule (s : State) (g : GroupRef) (v : Group) : (s.setGroup g v).schedule = s.schedule := rfl

@[simp] theorem State.modGroup_now (s : State) (g : GroupRef) (f : Group → Group) : (s.modGroup g f).now = s.now := rfl
@[simp] theorem State.modGroup_mem (s : State) (g : GroupRef) (f : Group → Group) : (s.modGroup g f).mem = s.mem := rfl
@[simp] theorem State.modGroup_prc (s : State) (g : GroupRef) (f : Group → Group) : (s.modGroup g f).prc = s.prc := rfl
@[simp] theorem State.modGroup_grids (s : State) (g : GroupRef) (f : Group → Group) : (s.modGroup g f).grids = s.grids := rfl
@[simp] theorem State.modGroup_nbhs (s : State) (g : GroupRef) (f : Group → Group) : (s.modGroup g f).nbhs = s.nbhs := rfl
@[simp] theorem State.modGroup_asyncs (s : State) (g : GroupRef) (f : Group → Group) : (s.modGroup g f).asyncs = s.asyncs := rfl
@[simp] theorem State.modGroup_started (s : State) (g : GroupRef) (f : Group → Group) : (s.modGroup g f).started = s.started := rfl
@[simp] theorem State.modGroup_halts (s : State) (g : GroupRef) (f : Group → Group) : (s.modGroup g f).halts = s.halts := rfl
@[simp] theorem State.modGroup_saved (s : State) (g : GroupRef) (f : Group → Group) : (s.modGroup g f).saved = s.saved := rfl
@[simp] theorem State.modGroup_poison (s : State) (g : GroupRef) (f : Group → Group) : (s.modGroup g f).poison = s.poison := rfl
@[simp] theorem State.modGroup_tileLocks (s : State) (g : GroupRef) (f : Group → Group) : (s.modGroup g f).tileLocks = s.tileLocks := rfl
@[simp] theorem State.modGroup_leaseAll (s : State) (g : GroupRef) (f : Group → Group) : (s.modGroup g f).leaseAll = s.leaseAll := rfl
@[simp] theorem State.modGroup_lineCov (s : State) (g : GroupRef) (f : Group → Group) : (s.modGroup g f).lineCov = s.lineCov := rfl
@[simp] theorem State.modGroup_msis (s : State) (g : GroupRef) (f : Group → Group) : (s.modGroup g f).msis = s.msis := rfl
@[simp] theorem State.modGroup_outRead (s : State) (g : GroupRef) (f : Group → Group) : (s.modGroup g f).outRead = s.outRead := rfl
@[simp] theorem State.modGroup_kicks (s : State) (g : GroupRef) (f : Group → Group) : (s.modGroup g f).kicks = s.kicks := rfl
@[simp] theorem State.modGroup_nextId (s : State) (g : GroupRef) (f : Group → Group) : (s.modGroup g f).nextId = s.nextId := rfl
@[simp] theorem State.modGroup_fresh (s : State) (g : GroupRef) (f : Group → Group) : (s.modGroup g f).fresh = s.fresh := rfl
@[simp] theorem State.modGroup_cur (s : State) (g : GroupRef) (f : Group → Group) : (s.modGroup g f).cur = s.cur := rfl
@[simp] theorem State.modGroup_word (s : State) (g : GroupRef) (f : Group → Group) : (s.modGroup g f).word = s.word := rfl
@[simp] theorem State.modGroup_schedule (s : State) (g : GroupRef) (f : Group → Group) : (s.modGroup g f).schedule = s.schedule := rfl

@[simp] theorem State.modPuppet_now (s : State) (c : CoreRef) (f : Puppet → Puppet) : (s.modPuppet c f).now = s.now := rfl
@[simp] theorem State.modPuppet_mem (s : State) (c : CoreRef) (f : Puppet → Puppet) : (s.modPuppet c f).mem = s.mem := rfl
@[simp] theorem State.modPuppet_prc (s : State) (c : CoreRef) (f : Puppet → Puppet) : (s.modPuppet c f).prc = s.prc := rfl
@[simp] theorem State.modPuppet_grids (s : State) (c : CoreRef) (f : Puppet → Puppet) : (s.modPuppet c f).grids = s.grids := rfl
@[simp] theorem State.modPuppet_nbhs (s : State) (c : CoreRef) (f : Puppet → Puppet) : (s.modPuppet c f).nbhs = s.nbhs := rfl
@[simp] theorem State.modPuppet_asyncs (s : State) (c : CoreRef) (f : Puppet → Puppet) : (s.modPuppet c f).asyncs = s.asyncs := rfl
@[simp] theorem State.modPuppet_started (s : State) (c : CoreRef) (f : Puppet → Puppet) : (s.modPuppet c f).started = s.started := rfl
@[simp] theorem State.modPuppet_halts (s : State) (c : CoreRef) (f : Puppet → Puppet) : (s.modPuppet c f).halts = s.halts := rfl
@[simp] theorem State.modPuppet_saved (s : State) (c : CoreRef) (f : Puppet → Puppet) : (s.modPuppet c f).saved = s.saved := rfl
@[simp] theorem State.modPuppet_poison (s : State) (c : CoreRef) (f : Puppet → Puppet) : (s.modPuppet c f).poison = s.poison := rfl
@[simp] theorem State.modPuppet_tileLocks (s : State) (c : CoreRef) (f : Puppet → Puppet) : (s.modPuppet c f).tileLocks = s.tileLocks := rfl
@[simp] theorem State.modPuppet_leaseAll (s : State) (c : CoreRef) (f : Puppet → Puppet) : (s.modPuppet c f).leaseAll = s.leaseAll := rfl
@[simp] theorem State.modPuppet_lineCov (s : State) (c : CoreRef) (f : Puppet → Puppet) : (s.modPuppet c f).lineCov = s.lineCov := rfl
@[simp] theorem State.modPuppet_msis (s : State) (c : CoreRef) (f : Puppet → Puppet) : (s.modPuppet c f).msis = s.msis := rfl
@[simp] theorem State.modPuppet_outRead (s : State) (c : CoreRef) (f : Puppet → Puppet) : (s.modPuppet c f).outRead = s.outRead := rfl
@[simp] theorem State.modPuppet_kicks (s : State) (c : CoreRef) (f : Puppet → Puppet) : (s.modPuppet c f).kicks = s.kicks := rfl
@[simp] theorem State.modPuppet_nextId (s : State) (c : CoreRef) (f : Puppet → Puppet) : (s.modPuppet c f).nextId = s.nextId := rfl
@[simp] theorem State.modPuppet_fresh (s : State) (c : CoreRef) (f : Puppet → Puppet) : (s.modPuppet c f).fresh = s.fresh := rfl
@[simp] theorem State.modPuppet_cur (s : State) (c : CoreRef) (f : Puppet → Puppet) : (s.modPuppet c f).cur = s.cur := rfl
@[simp] theorem State.modPuppet_word (s : State) (c : CoreRef) (f : Puppet → Puppet) : (s.modPuppet c f).word = s.word := rfl
@[simp] theorem State.modPuppet_schedule (s : State) (c : CoreRef) (f : Puppet → Puppet) : (s.modPuppet c f).schedule = s.schedule := rfl

@[simp] theorem State.setCoreReg_now (s : State) (c : CoreRef) (n : Nat) (v : Word) : (s.setCoreReg c n v).now = s.now := rfl
@[simp] theorem State.setCoreReg_mem (s : State) (c : CoreRef) (n : Nat) (v : Word) : (s.setCoreReg c n v).mem = s.mem := rfl
@[simp] theorem State.setCoreReg_prc (s : State) (c : CoreRef) (n : Nat) (v : Word) : (s.setCoreReg c n v).prc = s.prc := rfl
@[simp] theorem State.setCoreReg_grids (s : State) (c : CoreRef) (n : Nat) (v : Word) : (s.setCoreReg c n v).grids = s.grids := rfl
@[simp] theorem State.setCoreReg_nbhs (s : State) (c : CoreRef) (n : Nat) (v : Word) : (s.setCoreReg c n v).nbhs = s.nbhs := rfl
@[simp] theorem State.setCoreReg_asyncs (s : State) (c : CoreRef) (n : Nat) (v : Word) : (s.setCoreReg c n v).asyncs = s.asyncs := rfl
@[simp] theorem State.setCoreReg_started (s : State) (c : CoreRef) (n : Nat) (v : Word) : (s.setCoreReg c n v).started = s.started := rfl
@[simp] theorem State.setCoreReg_halts (s : State) (c : CoreRef) (n : Nat) (v : Word) : (s.setCoreReg c n v).halts = s.halts := rfl
@[simp] theorem State.setCoreReg_saved (s : State) (c : CoreRef) (n : Nat) (v : Word) : (s.setCoreReg c n v).saved = s.saved := rfl
@[simp] theorem State.setCoreReg_poison (s : State) (c : CoreRef) (n : Nat) (v : Word) : (s.setCoreReg c n v).poison = s.poison := rfl
@[simp] theorem State.setCoreReg_tileLocks (s : State) (c : CoreRef) (n : Nat) (v : Word) : (s.setCoreReg c n v).tileLocks = s.tileLocks := rfl
@[simp] theorem State.setCoreReg_leaseAll (s : State) (c : CoreRef) (n : Nat) (v : Word) : (s.setCoreReg c n v).leaseAll = s.leaseAll := rfl
@[simp] theorem State.setCoreReg_lineCov (s : State) (c : CoreRef) (n : Nat) (v : Word) : (s.setCoreReg c n v).lineCov = s.lineCov := rfl
@[simp] theorem State.setCoreReg_msis (s : State) (c : CoreRef) (n : Nat) (v : Word) : (s.setCoreReg c n v).msis = s.msis := rfl
@[simp] theorem State.setCoreReg_outRead (s : State) (c : CoreRef) (n : Nat) (v : Word) : (s.setCoreReg c n v).outRead = s.outRead := rfl
@[simp] theorem State.setCoreReg_kicks (s : State) (c : CoreRef) (n : Nat) (v : Word) : (s.setCoreReg c n v).kicks = s.kicks := rfl
@[simp] theorem State.setCoreReg_nextId (s : State) (c : CoreRef) (n : Nat) (v : Word) : (s.setCoreReg c n v).nextId = s.nextId := rfl
@[simp] theorem State.setCoreReg_fresh (s : State) (c : CoreRef) (n : Nat) (v : Word) : (s.setCoreReg c n v).fresh = s.fresh := rfl
@[simp] theorem State.setCoreReg_cur (s : State) (c : CoreRef) (n : Nat) (v : Word) : (s.setCoreReg c n v).cur = s.cur := rfl
@[simp] theorem State.setCoreReg_word (s : State) (c : CoreRef) (n : Nat) (v : Word) : (s.setCoreReg c n v).word = s.word := rfl
@[simp] theorem State.setCoreReg_schedule (s : State) (c : CoreRef) (n : Nat) (v : Word) : (s.setCoreReg c n v).schedule = s.schedule := rfl

@[simp] theorem State.setSliceReg_now (s : State) (i : SliceId) (n : Nat) (v : Word) : (s.setSliceReg i n v).now = s.now := rfl
@[simp] theorem State.setSliceReg_mem (s : State) (i : SliceId) (n : Nat) (v : Word) : (s.setSliceReg i n v).mem = s.mem := rfl
@[simp] theorem State.setSliceReg_prc (s : State) (i : SliceId) (n : Nat) (v : Word) : (s.setSliceReg i n v).prc = s.prc := rfl
@[simp] theorem State.setSliceReg_grids (s : State) (i : SliceId) (n : Nat) (v : Word) : (s.setSliceReg i n v).grids = s.grids := rfl
@[simp] theorem State.setSliceReg_nbhs (s : State) (i : SliceId) (n : Nat) (v : Word) : (s.setSliceReg i n v).nbhs = s.nbhs := rfl
@[simp] theorem State.setSliceReg_asyncs (s : State) (i : SliceId) (n : Nat) (v : Word) : (s.setSliceReg i n v).asyncs = s.asyncs := rfl
@[simp] theorem State.setSliceReg_started (s : State) (i : SliceId) (n : Nat) (v : Word) : (s.setSliceReg i n v).started = s.started := rfl
@[simp] theorem State.setSliceReg_halts (s : State) (i : SliceId) (n : Nat) (v : Word) : (s.setSliceReg i n v).halts = s.halts := rfl
@[simp] theorem State.setSliceReg_saved (s : State) (i : SliceId) (n : Nat) (v : Word) : (s.setSliceReg i n v).saved = s.saved := rfl
@[simp] theorem State.setSliceReg_poison (s : State) (i : SliceId) (n : Nat) (v : Word) : (s.setSliceReg i n v).poison = s.poison := rfl
@[simp] theorem State.setSliceReg_tileLocks (s : State) (i : SliceId) (n : Nat) (v : Word) : (s.setSliceReg i n v).tileLocks = s.tileLocks := rfl
@[simp] theorem State.setSliceReg_leaseAll (s : State) (i : SliceId) (n : Nat) (v : Word) : (s.setSliceReg i n v).leaseAll = s.leaseAll := rfl
@[simp] theorem State.setSliceReg_lineCov (s : State) (i : SliceId) (n : Nat) (v : Word) : (s.setSliceReg i n v).lineCov = s.lineCov := rfl
@[simp] theorem State.setSliceReg_msis (s : State) (i : SliceId) (n : Nat) (v : Word) : (s.setSliceReg i n v).msis = s.msis := rfl
@[simp] theorem State.setSliceReg_outRead (s : State) (i : SliceId) (n : Nat) (v : Word) : (s.setSliceReg i n v).outRead = s.outRead := rfl
@[simp] theorem State.setSliceReg_kicks (s : State) (i : SliceId) (n : Nat) (v : Word) : (s.setSliceReg i n v).kicks = s.kicks := rfl
@[simp] theorem State.setSliceReg_nextId (s : State) (i : SliceId) (n : Nat) (v : Word) : (s.setSliceReg i n v).nextId = s.nextId := rfl
@[simp] theorem State.setSliceReg_fresh (s : State) (i : SliceId) (n : Nat) (v : Word) : (s.setSliceReg i n v).fresh = s.fresh := rfl
@[simp] theorem State.setSliceReg_cur (s : State) (i : SliceId) (n : Nat) (v : Word) : (s.setSliceReg i n v).cur = s.cur := rfl
@[simp] theorem State.setSliceReg_word (s : State) (i : SliceId) (n : Nat) (v : Word) : (s.setSliceReg i n v).word = s.word := rfl
@[simp] theorem State.setSliceReg_schedule (s : State) (i : SliceId) (n : Nat) (v : Word) : (s.setSliceReg i n v).schedule = s.schedule := rfl

@[simp] theorem State.setPrcReg_now (s : State) (n : Nat) (v : Word) : (s.setPrcReg n v).now = s.now := rfl
@[simp] theorem State.setPrcReg_mem (s : State) (n : Nat) (v : Word) : (s.setPrcReg n v).mem = s.mem := rfl
@[simp] theorem State.setPrcReg_slices (s : State) (n : Nat) (v : Word) : (s.setPrcReg n v).slices = s.slices := rfl
@[simp] theorem State.setPrcReg_grids (s : State) (n : Nat) (v : Word) : (s.setPrcReg n v).grids = s.grids := rfl
@[simp] theorem State.setPrcReg_nbhs (s : State) (n : Nat) (v : Word) : (s.setPrcReg n v).nbhs = s.nbhs := rfl
@[simp] theorem State.setPrcReg_asyncs (s : State) (n : Nat) (v : Word) : (s.setPrcReg n v).asyncs = s.asyncs := rfl
@[simp] theorem State.setPrcReg_started (s : State) (n : Nat) (v : Word) : (s.setPrcReg n v).started = s.started := rfl
@[simp] theorem State.setPrcReg_halts (s : State) (n : Nat) (v : Word) : (s.setPrcReg n v).halts = s.halts := rfl
@[simp] theorem State.setPrcReg_saved (s : State) (n : Nat) (v : Word) : (s.setPrcReg n v).saved = s.saved := rfl
@[simp] theorem State.setPrcReg_poison (s : State) (n : Nat) (v : Word) : (s.setPrcReg n v).poison = s.poison := rfl
@[simp] theorem State.setPrcReg_tileLocks (s : State) (n : Nat) (v : Word) : (s.setPrcReg n v).tileLocks = s.tileLocks := rfl
@[simp] theorem State.setPrcReg_leaseAll (s : State) (n : Nat) (v : Word) : (s.setPrcReg n v).leaseAll = s.leaseAll := rfl
@[simp] theorem State.setPrcReg_lineCov (s : State) (n : Nat) (v : Word) : (s.setPrcReg n v).lineCov = s.lineCov := rfl
@[simp] theorem State.setPrcReg_msis (s : State) (n : Nat) (v : Word) : (s.setPrcReg n v).msis = s.msis := rfl
@[simp] theorem State.setPrcReg_outRead (s : State) (n : Nat) (v : Word) : (s.setPrcReg n v).outRead = s.outRead := rfl
@[simp] theorem State.setPrcReg_kicks (s : State) (n : Nat) (v : Word) : (s.setPrcReg n v).kicks = s.kicks := rfl
@[simp] theorem State.setPrcReg_nextId (s : State) (n : Nat) (v : Word) : (s.setPrcReg n v).nextId = s.nextId := rfl
@[simp] theorem State.setPrcReg_fresh (s : State) (n : Nat) (v : Word) : (s.setPrcReg n v).fresh = s.fresh := rfl
@[simp] theorem State.setPrcReg_cur (s : State) (n : Nat) (v : Word) : (s.setPrcReg n v).cur = s.cur := rfl
@[simp] theorem State.setPrcReg_word (s : State) (n : Nat) (v : Word) : (s.setPrcReg n v).word = s.word := rfl
@[simp] theorem State.setPrcReg_schedule (s : State) (n : Nat) (v : Word) : (s.setPrcReg n v).schedule = s.schedule := rfl

@[simp] theorem State.modPart_now (s : State) (p : PartId) (f : Part → Part) : (s.modPart p f).now = s.now := rfl
@[simp] theorem State.modPart_mem (s : State) (p : PartId) (f : Part → Part) : (s.modPart p f).mem = s.mem := rfl
@[simp] theorem State.modPart_slices (s : State) (p : PartId) (f : Part → Part) : (s.modPart p f).slices = s.slices := rfl
@[simp] theorem State.modPart_grids (s : State) (p : PartId) (f : Part → Part) : (s.modPart p f).grids = s.grids := rfl
@[simp] theorem State.modPart_nbhs (s : State) (p : PartId) (f : Part → Part) : (s.modPart p f).nbhs = s.nbhs := rfl
@[simp] theorem State.modPart_asyncs (s : State) (p : PartId) (f : Part → Part) : (s.modPart p f).asyncs = s.asyncs := rfl
@[simp] theorem State.modPart_started (s : State) (p : PartId) (f : Part → Part) : (s.modPart p f).started = s.started := rfl
@[simp] theorem State.modPart_halts (s : State) (p : PartId) (f : Part → Part) : (s.modPart p f).halts = s.halts := rfl
@[simp] theorem State.modPart_saved (s : State) (p : PartId) (f : Part → Part) : (s.modPart p f).saved = s.saved := rfl
@[simp] theorem State.modPart_poison (s : State) (p : PartId) (f : Part → Part) : (s.modPart p f).poison = s.poison := rfl
@[simp] theorem State.modPart_tileLocks (s : State) (p : PartId) (f : Part → Part) : (s.modPart p f).tileLocks = s.tileLocks := rfl
@[simp] theorem State.modPart_leaseAll (s : State) (p : PartId) (f : Part → Part) : (s.modPart p f).leaseAll = s.leaseAll := rfl
@[simp] theorem State.modPart_lineCov (s : State) (p : PartId) (f : Part → Part) : (s.modPart p f).lineCov = s.lineCov := rfl
@[simp] theorem State.modPart_msis (s : State) (p : PartId) (f : Part → Part) : (s.modPart p f).msis = s.msis := rfl
@[simp] theorem State.modPart_outRead (s : State) (p : PartId) (f : Part → Part) : (s.modPart p f).outRead = s.outRead := rfl
@[simp] theorem State.modPart_kicks (s : State) (p : PartId) (f : Part → Part) : (s.modPart p f).kicks = s.kicks := rfl
@[simp] theorem State.modPart_nextId (s : State) (p : PartId) (f : Part → Part) : (s.modPart p f).nextId = s.nextId := rfl
@[simp] theorem State.modPart_fresh (s : State) (p : PartId) (f : Part → Part) : (s.modPart p f).fresh = s.fresh := rfl
@[simp] theorem State.modPart_cur (s : State) (p : PartId) (f : Part → Part) : (s.modPart p f).cur = s.cur := rfl
@[simp] theorem State.modPart_word (s : State) (p : PartId) (f : Part → Part) : (s.modPart p f).word = s.word := rfl
@[simp] theorem State.modPart_schedule (s : State) (p : PartId) (f : Part → Part) : (s.modPart p f).schedule = s.schedule := rfl

@[simp] theorem State.modGrid_now (s : State) (n : Nat) (f : Grid → Grid) : (s.modGrid n f).now = s.now := rfl
@[simp] theorem State.modGrid_mem (s : State) (n : Nat) (f : Grid → Grid) : (s.modGrid n f).mem = s.mem := rfl
@[simp] theorem State.modGrid_slices (s : State) (n : Nat) (f : Grid → Grid) : (s.modGrid n f).slices = s.slices := rfl
@[simp] theorem State.modGrid_prc (s : State) (n : Nat) (f : Grid → Grid) : (s.modGrid n f).prc = s.prc := rfl
@[simp] theorem State.modGrid_nbhs (s : State) (n : Nat) (f : Grid → Grid) : (s.modGrid n f).nbhs = s.nbhs := rfl
@[simp] theorem State.modGrid_asyncs (s : State) (n : Nat) (f : Grid → Grid) : (s.modGrid n f).asyncs = s.asyncs := rfl
@[simp] theorem State.modGrid_started (s : State) (n : Nat) (f : Grid → Grid) : (s.modGrid n f).started = s.started := rfl
@[simp] theorem State.modGrid_halts (s : State) (n : Nat) (f : Grid → Grid) : (s.modGrid n f).halts = s.halts := rfl
@[simp] theorem State.modGrid_saved (s : State) (n : Nat) (f : Grid → Grid) : (s.modGrid n f).saved = s.saved := rfl
@[simp] theorem State.modGrid_poison (s : State) (n : Nat) (f : Grid → Grid) : (s.modGrid n f).poison = s.poison := rfl
@[simp] theorem State.modGrid_tileLocks (s : State) (n : Nat) (f : Grid → Grid) : (s.modGrid n f).tileLocks = s.tileLocks := rfl
@[simp] theorem State.modGrid_leaseAll (s : State) (n : Nat) (f : Grid → Grid) : (s.modGrid n f).leaseAll = s.leaseAll := rfl
@[simp] theorem State.modGrid_lineCov (s : State) (n : Nat) (f : Grid → Grid) : (s.modGrid n f).lineCov = s.lineCov := rfl
@[simp] theorem State.modGrid_msis (s : State) (n : Nat) (f : Grid → Grid) : (s.modGrid n f).msis = s.msis := rfl
@[simp] theorem State.modGrid_outRead (s : State) (n : Nat) (f : Grid → Grid) : (s.modGrid n f).outRead = s.outRead := rfl
@[simp] theorem State.modGrid_kicks (s : State) (n : Nat) (f : Grid → Grid) : (s.modGrid n f).kicks = s.kicks := rfl
@[simp] theorem State.modGrid_nextId (s : State) (n : Nat) (f : Grid → Grid) : (s.modGrid n f).nextId = s.nextId := rfl
@[simp] theorem State.modGrid_fresh (s : State) (n : Nat) (f : Grid → Grid) : (s.modGrid n f).fresh = s.fresh := rfl
@[simp] theorem State.modGrid_cur (s : State) (n : Nat) (f : Grid → Grid) : (s.modGrid n f).cur = s.cur := rfl
@[simp] theorem State.modGrid_word (s : State) (n : Nat) (f : Grid → Grid) : (s.modGrid n f).word = s.word := rfl
@[simp] theorem State.modGrid_schedule (s : State) (n : Nat) (f : Grid → Grid) : (s.modGrid n f).schedule = s.schedule := rfl

@[simp] theorem State.draw_now (s : State) : (s.draw).now = s.now := rfl
@[simp] theorem State.draw_mem (s : State) : (s.draw).mem = s.mem := rfl
@[simp] theorem State.draw_slices (s : State) : (s.draw).slices = s.slices := rfl
@[simp] theorem State.draw_prc (s : State) : (s.draw).prc = s.prc := rfl
@[simp] theorem State.draw_grids (s : State) : (s.draw).grids = s.grids := rfl
@[simp] theorem State.draw_nbhs (s : State) : (s.draw).nbhs = s.nbhs := rfl
@[simp] theorem State.draw_asyncs (s : State) : (s.draw).asyncs = s.asyncs := rfl
@[simp] theorem State.draw_started (s : State) : (s.draw).started = s.started := rfl
@[simp] theorem State.draw_halts (s : State) : (s.draw).halts = s.halts := rfl
@[simp] theorem State.draw_saved (s : State) : (s.draw).saved = s.saved := rfl
@[simp] theorem State.draw_poison (s : State) : (s.draw).poison = s.poison := rfl
@[simp] theorem State.draw_tileLocks (s : State) : (s.draw).tileLocks = s.tileLocks := rfl
@[simp] theorem State.draw_leaseAll (s : State) : (s.draw).leaseAll = s.leaseAll := rfl
@[simp] theorem State.draw_lineCov (s : State) : (s.draw).lineCov = s.lineCov := rfl
@[simp] theorem State.draw_msis (s : State) : (s.draw).msis = s.msis := rfl
@[simp] theorem State.draw_outRead (s : State) : (s.draw).outRead = s.outRead := rfl
@[simp] theorem State.draw_kicks (s : State) : (s.draw).kicks = s.kicks := rfl
@[simp] theorem State.draw_nextId (s : State) : (s.draw).nextId = s.nextId := rfl
@[simp] theorem State.draw_cur (s : State) : (s.draw).cur = s.cur := rfl
@[simp] theorem State.draw_word (s : State) : (s.draw).word = s.word := rfl
@[simp] theorem State.draw_schedule (s : State) : (s.draw).schedule = s.schedule := rfl

@[simp] theorem State.takeId_now (s : State) : (s.takeId).now = s.now := rfl
@[simp] theorem State.takeId_mem (s : State) : (s.takeId).mem = s.mem := rfl
@[simp] theorem State.takeId_slices (s : State) : (s.takeId).slices = s.slices := rfl
@[simp] theorem State.takeId_prc (s : State) : (s.takeId).prc = s.prc := rfl
@[simp] theorem State.takeId_grids (s : State) : (s.takeId).grids = s.grids := rfl
@[simp] theorem State.takeId_nbhs (s : State) : (s.takeId).nbhs = s.nbhs := rfl
@[simp] theorem State.takeId_asyncs (s : State) : (s.takeId).asyncs = s.asyncs := rfl
@[simp] theorem State.takeId_started (s : State) : (s.takeId).started = s.started := rfl
@[simp] theorem State.takeId_halts (s : State) : (s.takeId).halts = s.halts := rfl
@[simp] theorem State.takeId_saved (s : State) : (s.takeId).saved = s.saved := rfl
@[simp] theorem State.takeId_poison (s : State) : (s.takeId).poison = s.poison := rfl
@[simp] theorem State.takeId_tileLocks (s : State) : (s.takeId).tileLocks = s.tileLocks := rfl
@[simp] theorem State.takeId_leaseAll (s : State) : (s.takeId).leaseAll = s.leaseAll := rfl
@[simp] theorem State.takeId_lineCov (s : State) : (s.takeId).lineCov = s.lineCov := rfl
@[simp] theorem State.takeId_msis (s : State) : (s.takeId).msis = s.msis := rfl
@[simp] theorem State.takeId_outRead (s : State) : (s.takeId).outRead = s.outRead := rfl
@[simp] theorem State.takeId_kicks (s : State) : (s.takeId).kicks = s.kicks := rfl
@[simp] theorem State.takeId_fresh (s : State) : (s.takeId).fresh = s.fresh := rfl
@[simp] theorem State.takeId_cur (s : State) : (s.takeId).cur = s.cur := rfl
@[simp] theorem State.takeId_word (s : State) : (s.takeId).word = s.word := rfl
@[simp] theorem State.takeId_schedule (s : State) : (s.takeId).schedule = s.schedule := rfl

@[simp] theorem State.modSc_now (s : State) (a : Agent) (f : Scalar → Scalar) : (s.modSc a f).now = s.now := by cases a <;> rfl
@[simp] theorem State.modSc_mem (s : State) (a : Agent) (f : Scalar → Scalar) : (s.modSc a f).mem = s.mem := by cases a <;> rfl
@[simp] theorem State.modSc_prc (s : State) (a : Agent) (f : Scalar → Scalar) : (s.modSc a f).prc = s.prc := by cases a <;> rfl
@[simp] theorem State.modSc_grids (s : State) (a : Agent) (f : Scalar → Scalar) : (s.modSc a f).grids = s.grids := by cases a <;> rfl
@[simp] theorem State.modSc_nbhs (s : State) (a : Agent) (f : Scalar → Scalar) : (s.modSc a f).nbhs = s.nbhs := by cases a <;> rfl
@[simp] theorem State.modSc_asyncs (s : State) (a : Agent) (f : Scalar → Scalar) : (s.modSc a f).asyncs = s.asyncs := by cases a <;> rfl
@[simp] theorem State.modSc_started (s : State) (a : Agent) (f : Scalar → Scalar) : (s.modSc a f).started = s.started := by cases a <;> rfl
@[simp] theorem State.modSc_halts (s : State) (a : Agent) (f : Scalar → Scalar) : (s.modSc a f).halts = s.halts := by cases a <;> rfl
@[simp] theorem State.modSc_saved (s : State) (a : Agent) (f : Scalar → Scalar) : (s.modSc a f).saved = s.saved := by cases a <;> rfl
@[simp] theorem State.modSc_poison (s : State) (a : Agent) (f : Scalar → Scalar) : (s.modSc a f).poison = s.poison := by cases a <;> rfl
@[simp] theorem State.modSc_tileLocks (s : State) (a : Agent) (f : Scalar → Scalar) : (s.modSc a f).tileLocks = s.tileLocks := by cases a <;> rfl
@[simp] theorem State.modSc_leaseAll (s : State) (a : Agent) (f : Scalar → Scalar) : (s.modSc a f).leaseAll = s.leaseAll := by cases a <;> rfl
@[simp] theorem State.modSc_lineCov (s : State) (a : Agent) (f : Scalar → Scalar) : (s.modSc a f).lineCov = s.lineCov := by cases a <;> rfl
@[simp] theorem State.modSc_msis (s : State) (a : Agent) (f : Scalar → Scalar) : (s.modSc a f).msis = s.msis := by cases a <;> rfl
@[simp] theorem State.modSc_outRead (s : State) (a : Agent) (f : Scalar → Scalar) : (s.modSc a f).outRead = s.outRead := by cases a <;> rfl
@[simp] theorem State.modSc_kicks (s : State) (a : Agent) (f : Scalar → Scalar) : (s.modSc a f).kicks = s.kicks := by cases a <;> rfl
@[simp] theorem State.modSc_nextId (s : State) (a : Agent) (f : Scalar → Scalar) : (s.modSc a f).nextId = s.nextId := by cases a <;> rfl
@[simp] theorem State.modSc_fresh (s : State) (a : Agent) (f : Scalar → Scalar) : (s.modSc a f).fresh = s.fresh := by cases a <;> rfl
@[simp] theorem State.modSc_cur (s : State) (a : Agent) (f : Scalar → Scalar) : (s.modSc a f).cur = s.cur := by cases a <;> rfl
@[simp] theorem State.modSc_word (s : State) (a : Agent) (f : Scalar → Scalar) : (s.modSc a f).word = s.word := by cases a <;> rfl
@[simp] theorem State.modSc_schedule (s : State) (a : Agent) (f : Scalar → Scalar) : (s.modSc a f).schedule = s.schedule := by cases a <;> rfl

@[simp] theorem State.setSreg_now (s : State) (r : BitVec 6) (v : Word) : (s.setSreg r v).now = s.now := State.modSc_now s _ _
@[simp] theorem State.setSreg_mem (s : State) (r : BitVec 6) (v : Word) : (s.setSreg r v).mem = s.mem := State.modSc_mem s _ _
@[simp] theorem State.setSreg_prc (s : State) (r : BitVec 6) (v : Word) : (s.setSreg r v).prc = s.prc := State.modSc_prc s _ _
@[simp] theorem State.setSreg_grids (s : State) (r : BitVec 6) (v : Word) : (s.setSreg r v).grids = s.grids := State.modSc_grids s _ _
@[simp] theorem State.setSreg_nbhs (s : State) (r : BitVec 6) (v : Word) : (s.setSreg r v).nbhs = s.nbhs := State.modSc_nbhs s _ _
@[simp] theorem State.setSreg_asyncs (s : State) (r : BitVec 6) (v : Word) : (s.setSreg r v).asyncs = s.asyncs := State.modSc_asyncs s _ _
@[simp] theorem State.setSreg_started (s : State) (r : BitVec 6) (v : Word) : (s.setSreg r v).started = s.started := State.modSc_started s _ _
@[simp] theorem State.setSreg_halts (s : State) (r : BitVec 6) (v : Word) : (s.setSreg r v).halts = s.halts := State.modSc_halts s _ _
@[simp] theorem State.setSreg_saved (s : State) (r : BitVec 6) (v : Word) : (s.setSreg r v).saved = s.saved := State.modSc_saved s _ _
@[simp] theorem State.setSreg_poison (s : State) (r : BitVec 6) (v : Word) : (s.setSreg r v).poison = s.poison := State.modSc_poison s _ _
@[simp] theorem State.setSreg_tileLocks (s : State) (r : BitVec 6) (v : Word) : (s.setSreg r v).tileLocks = s.tileLocks := State.modSc_tileLocks s _ _
@[simp] theorem State.setSreg_leaseAll (s : State) (r : BitVec 6) (v : Word) : (s.setSreg r v).leaseAll = s.leaseAll := State.modSc_leaseAll s _ _
@[simp] theorem State.setSreg_lineCov (s : State) (r : BitVec 6) (v : Word) : (s.setSreg r v).lineCov = s.lineCov := State.modSc_lineCov s _ _
@[simp] theorem State.setSreg_msis (s : State) (r : BitVec 6) (v : Word) : (s.setSreg r v).msis = s.msis := State.modSc_msis s _ _
@[simp] theorem State.setSreg_outRead (s : State) (r : BitVec 6) (v : Word) : (s.setSreg r v).outRead = s.outRead := State.modSc_outRead s _ _
@[simp] theorem State.setSreg_kicks (s : State) (r : BitVec 6) (v : Word) : (s.setSreg r v).kicks = s.kicks := State.modSc_kicks s _ _
@[simp] theorem State.setSreg_nextId (s : State) (r : BitVec 6) (v : Word) : (s.setSreg r v).nextId = s.nextId := State.modSc_nextId s _ _
@[simp] theorem State.setSreg_fresh (s : State) (r : BitVec 6) (v : Word) : (s.setSreg r v).fresh = s.fresh := State.modSc_fresh s _ _
@[simp] theorem State.setSreg_cur (s : State) (r : BitVec 6) (v : Word) : (s.setSreg r v).cur = s.cur := State.modSc_cur s _ _
@[simp] theorem State.setSreg_word (s : State) (r : BitVec 6) (v : Word) : (s.setSreg r v).word = s.word := State.modSc_word s _ _
@[simp] theorem State.setSreg_schedule (s : State) (r : BitVec 6) (v : Word) : (s.setSreg r v).schedule = s.schedule := State.modSc_schedule s _ _

@[simp] theorem State.setSpc_now (s : State) (v : Word) : (s.setSpc v).now = s.now := State.modSc_now s _ _
@[simp] theorem State.setSpc_mem (s : State) (v : Word) : (s.setSpc v).mem = s.mem := State.modSc_mem s _ _
@[simp] theorem State.setSpc_prc (s : State) (v : Word) : (s.setSpc v).prc = s.prc := State.modSc_prc s _ _
@[simp] theorem State.setSpc_grids (s : State) (v : Word) : (s.setSpc v).grids = s.grids := State.modSc_grids s _ _
@[simp] theorem State.setSpc_nbhs (s : State) (v : Word) : (s.setSpc v).nbhs = s.nbhs := State.modSc_nbhs s _ _
@[simp] theorem State.setSpc_asyncs (s : State) (v : Word) : (s.setSpc v).asyncs = s.asyncs := State.modSc_asyncs s _ _
@[simp] theorem State.setSpc_started (s : State) (v : Word) : (s.setSpc v).started = s.started := State.modSc_started s _ _
@[simp] theorem State.setSpc_halts (s : State) (v : Word) : (s.setSpc v).halts = s.halts := State.modSc_halts s _ _
@[simp] theorem State.setSpc_saved (s : State) (v : Word) : (s.setSpc v).saved = s.saved := State.modSc_saved s _ _
@[simp] theorem State.setSpc_poison (s : State) (v : Word) : (s.setSpc v).poison = s.poison := State.modSc_poison s _ _
@[simp] theorem State.setSpc_tileLocks (s : State) (v : Word) : (s.setSpc v).tileLocks = s.tileLocks := State.modSc_tileLocks s _ _
@[simp] theorem State.setSpc_leaseAll (s : State) (v : Word) : (s.setSpc v).leaseAll = s.leaseAll := State.modSc_leaseAll s _ _
@[simp] theorem State.setSpc_lineCov (s : State) (v : Word) : (s.setSpc v).lineCov = s.lineCov := State.modSc_lineCov s _ _
@[simp] theorem State.setSpc_msis (s : State) (v : Word) : (s.setSpc v).msis = s.msis := State.modSc_msis s _ _
@[simp] theorem State.setSpc_outRead (s : State) (v : Word) : (s.setSpc v).outRead = s.outRead := State.modSc_outRead s _ _
@[simp] theorem State.setSpc_kicks (s : State) (v : Word) : (s.setSpc v).kicks = s.kicks := State.modSc_kicks s _ _
@[simp] theorem State.setSpc_nextId (s : State) (v : Word) : (s.setSpc v).nextId = s.nextId := State.modSc_nextId s _ _
@[simp] theorem State.setSpc_fresh (s : State) (v : Word) : (s.setSpc v).fresh = s.fresh := State.modSc_fresh s _ _
@[simp] theorem State.setSpc_cur (s : State) (v : Word) : (s.setSpc v).cur = s.cur := State.modSc_cur s _ _
@[simp] theorem State.setSpc_word (s : State) (v : Word) : (s.setSpc v).word = s.word := State.modSc_word s _ _
@[simp] theorem State.setSpc_schedule (s : State) (v : Word) : (s.setSpc v).schedule = s.schedule := State.modSc_schedule s _ _

@[simp] theorem State.advance_now (s : State) : (s.advance).now = s.now := State.modSc_now s _ _
@[simp] theorem State.advance_mem (s : State) : (s.advance).mem = s.mem := State.modSc_mem s _ _
@[simp] theorem State.advance_prc (s : State) : (s.advance).prc = s.prc := State.modSc_prc s _ _
@[simp] theorem State.advance_grids (s : State) : (s.advance).grids = s.grids := State.modSc_grids s _ _
@[simp] theorem State.advance_nbhs (s : State) : (s.advance).nbhs = s.nbhs := State.modSc_nbhs s _ _
@[simp] theorem State.advance_asyncs (s : State) : (s.advance).asyncs = s.asyncs := State.modSc_asyncs s _ _
@[simp] theorem State.advance_started (s : State) : (s.advance).started = s.started := State.modSc_started s _ _
@[simp] theorem State.advance_halts (s : State) : (s.advance).halts = s.halts := State.modSc_halts s _ _
@[simp] theorem State.advance_saved (s : State) : (s.advance).saved = s.saved := State.modSc_saved s _ _
@[simp] theorem State.advance_poison (s : State) : (s.advance).poison = s.poison := State.modSc_poison s _ _
@[simp] theorem State.advance_tileLocks (s : State) : (s.advance).tileLocks = s.tileLocks := State.modSc_tileLocks s _ _
@[simp] theorem State.advance_leaseAll (s : State) : (s.advance).leaseAll = s.leaseAll := State.modSc_leaseAll s _ _
@[simp] theorem State.advance_lineCov (s : State) : (s.advance).lineCov = s.lineCov := State.modSc_lineCov s _ _
@[simp] theorem State.advance_msis (s : State) : (s.advance).msis = s.msis := State.modSc_msis s _ _
@[simp] theorem State.advance_outRead (s : State) : (s.advance).outRead = s.outRead := State.modSc_outRead s _ _
@[simp] theorem State.advance_kicks (s : State) : (s.advance).kicks = s.kicks := State.modSc_kicks s _ _
@[simp] theorem State.advance_nextId (s : State) : (s.advance).nextId = s.nextId := State.modSc_nextId s _ _
@[simp] theorem State.advance_fresh (s : State) : (s.advance).fresh = s.fresh := State.modSc_fresh s _ _
@[simp] theorem State.advance_cur (s : State) : (s.advance).cur = s.cur := State.modSc_cur s _ _
@[simp] theorem State.advance_word (s : State) : (s.advance).word = s.word := State.modSc_word s _ _
@[simp] theorem State.advance_schedule (s : State) : (s.advance).schedule = s.schedule := State.modSc_schedule s _ _

/-! ### Units after an update -/

@[simp] theorem State.slice_setSlice (s : State) (i j : SliceId) (v : Slice) :
    (s.setSlice i v).slice j = if j = i then v else s.slice j := by
  simp [State.slice, State.setSlice, Fin.ext_iff]

@[simp] theorem State.slice_modSlice (s : State) (i j : SliceId) (f : Slice → Slice) :
    (s.modSlice i f).slice j = if j = i then f (s.slice i) else s.slice j := by
  simp [State.modSlice]

@[simp] theorem State.core_setSlice (s : State) (i : SliceId) (v : Slice) (d : CoreRef) :
    (s.setSlice i v).core d = if d.slice = i then tabGet {} v.cores d.core.val else s.core d := by
  simp only [State.core, State.slice_setSlice]; split_ifs <;> rfl

theorem CoreRef.eq_iff (c d : CoreRef) : c = d ↔ c.slice = d.slice ∧ c.core.val = d.core.val := by
  cases c; cases d; simp [Fin.ext_iff]

theorem GroupRef.eq_iff (g h : GroupRef) : g = h ↔ g.at = h.at ∧ g.slot.val = h.slot.val := by
  cases g; cases h; simp [GroupRef.at, Fin.ext_iff, and_assoc]

@[simp] theorem State.core_setCore (s : State) (c d : CoreRef) (v : Core) :
    (s.setCore c v).core d = if d = c then v else s.core d := by
  simp only [State.setCore, State.core_setSlice, tabGet_tabSet, CoreRef.eq_iff d c]
  by_cases h : d.slice = c.slice
  · simp only [h, true_and, if_true, State.core]
  · simp [h]

@[simp] theorem State.slice_setCore (s : State) (c : CoreRef) (i : SliceId) (v : Core) :
    (s.setCore c v).slice i = if i = c.slice then { s.slice i with cores := tabSet (s.slice i).cores c.core.val v } else s.slice i := by
  simp only [State.setCore, State.slice_setSlice]; split_ifs with h <;> simp [h]

@[simp] theorem State.core_modCore (s : State) (c d : CoreRef) (f : Core → Core) :
    (s.modCore c f).core d = if d = c then f (s.core c) else s.core d := by
  simp [State.modCore]

@[simp] theorem State.group_setCore (s : State) (c : CoreRef) (v : Core) (g : GroupRef) :
    (s.setCore c v).group g = if g.at = c then tabGet {} v.groups g.slot.val else s.group g := by
  simp only [State.group, State.core_setCore]; split_ifs <;> rfl

@[simp] theorem State.group_setGroup (s : State) (g h : GroupRef) (v : Group) :
    (s.setGroup g v).group h = if h = g then v else s.group h := by
  simp only [State.setGroup, State.group_setCore, tabGet_tabSet, GroupRef.eq_iff h g]
  by_cases h' : h.at = g.at
  · simp only [h', true_and, if_true, State.group]
  · simp [h']

@[simp] theorem State.core_setGroup (s : State) (g : GroupRef) (v : Group) (c : CoreRef) :
    (s.setGroup g v).core c = if c = g.at then { s.core c with groups := tabSet (s.core c).groups g.slot.val v } else s.core c := by
  simp only [State.setGroup, State.core_setCore]; split_ifs with h <;> simp [h]

@[simp] theorem State.group_modGroup (s : State) (g h : GroupRef) (f : Group → Group) :
    (s.modGroup g f).group h = if h = g then f (s.group g) else s.group h := by
  simp [State.modGroup]

theorem State.group_modCore (s : State) (c : CoreRef) (f : Core → Core) (g : GroupRef) (h : (f (s.core c)).groups = (s.core c).groups) :
    (s.modCore c f).group g = s.group g := by
  simp only [State.modCore, State.group_setCore, h]
  split_ifs with h' <;> simp [State.group, h']

@[simp] theorem State.group_modPuppet (s : State) (c : CoreRef) (f : Puppet → Puppet) (g : GroupRef) :
    (s.modPuppet c f).group g = s.group g := State.group_modCore _ _ _ _ rfl

@[simp] theorem State.core_modPuppet (s : State) (c d : CoreRef) (f : Puppet → Puppet) :
    (s.modPuppet c f).core d = if d = c then { s.core c with puppet := f (s.core c).puppet } else s.core d := by
  simp [State.modPuppet]

@[simp] theorem State.group_setCoreReg (s : State) (c : CoreRef) (n : Nat) (v : Word) (g : GroupRef) :
    (s.setCoreReg c n v).group g = s.group g := State.group_modCore _ _ _ _ rfl

@[simp] theorem State.coreReg_setCoreReg (s : State) (c d : CoreRef) (n m : Nat) (v : Word) :
    (s.setCoreReg c n v).coreReg d m = if d = c ∧ m = n then v else s.coreReg d m := by
  simp only [State.coreReg, State.setCoreReg, State.core_modCore]
  split_ifs with h1 h2 h2 <;> simp_all

theorem State.core_modSlice (s : State) (i : SliceId) (f : Slice → Slice) (c : CoreRef) (h : (f (s.slice i)).cores = (s.slice i).cores) :
    (s.modSlice i f).core c = s.core c := by
  simp only [State.modSlice, State.core_setSlice, h]
  split_ifs with h' <;> simp [State.core, h']

@[simp] theorem State.core_setSliceReg (s : State) (i : SliceId) (n : Nat) (v : Word) (c : CoreRef) :
    (s.setSliceReg i n v).core c = s.core c := State.core_modSlice _ _ _ _ rfl

@[simp] theorem State.group_setSliceReg (s : State) (i : SliceId) (n : Nat) (v : Word) (g : GroupRef) :
    (s.setSliceReg i n v).group g = s.group g := by simp [State.group]

@[simp] theorem State.sliceReg_setSliceReg (s : State) (i j : SliceId) (n m : Nat) (v : Word) :
    (s.setSliceReg i n v).sliceReg j m = if j = i ∧ m = n then v else s.sliceReg j m := by
  simp only [State.sliceReg, State.setSliceReg, State.slice_modSlice]
  split_ifs with h1 h2 h2 <;> simp_all

@[simp] theorem State.prcReg_setPrcReg (s : State) (n m : Nat) (v : Word) :
    (s.setPrcReg n v).prcReg m = if m = n then v else s.prcReg m := by
  simp only [State.prcReg, State.setPrcReg, tabGet_tabSet]

@[simp] theorem State.part_modPart (s : State) (p q : PartId) (f : Part → Part) :
    (s.modPart p f).part q = if q = p then f (s.part p) else s.part q := by
  simp [State.part, State.modPart, Fin.ext_iff]

/-! ### The executing agent -/

/-- The scalar side of an agent after it was changed. -/
@[simp] theorem State.scOf_modSc (s : State) (a : Agent) (f : Scalar → Scalar) (h : a ≠ .none) : (s.modSc a f).scOf a = f (s.scOf a) := by
  cases a <;> simp_all [State.modSc, State.scOf]

/-- Two changes of one scalar side are one. -/
theorem tabSet_tabSet {α : Type} (t : Tab α) (i : Nat) (x y : α) : tabSet (tabSet t i x) i y = tabSet t i y := by
  induction t with
  | nil => simp [tabSet]
  | cons e t ih =>
    obtain ⟨k, v⟩ := e
    simp only [tabSet]
    split_ifs with h1 h2 <;> simp [tabSet, *]

theorem Scalar.read_write (c : Scalar) (r q : BitVec 6) (v : Word) :
    (c.write r v).read q = if q = r then (if r = 0 then 0 else storedIn r v) else c.read q := by
  have key : q.toNat = r.toNat ↔ q = r := ⟨BitVec.eq_of_toNat_eq, fun h => h ▸ rfl⟩
  simp only [Scalar.write, Scalar.read]
  by_cases h0 : r = 0
  · simp only [h0, if_true]; split_ifs <;> rfl
  · simp only [h0, if_false, tabGet_tabSet, key]
    by_cases hq : q = r
    · simp only [hq, h0, if_true, if_false]
    · simp only [hq, if_false]

@[simp] theorem Scalar.read_zero (c : Scalar) : c.read 0 = 0 := by simp [Scalar.read]

end Sys2Proof.Machine
end

