-- ==== Sys2Proof/Laws/Faults.lean ====
section
/-! SUPPORT. Laws of faults: the fault entry of the puppet slot (R168), and what a group's fault leaves recorded (R420, R422). -/

namespace Sys2Proof.Machine

set_option Elab.async false

theorem State.coreReg_modPuppet (s : State) (c d : CoreRef) (f : Puppet → Puppet) (n : Nat) : (s.modPuppet c f).coreReg d n = s.coreReg d n := by
  simp only [State.coreReg, State.core_modPuppet]; split_ifs with h <;> simp [h]

theorem State.puppet_setCoreReg (s : State) (c d : CoreRef) (n : Nat) (v : Word) : ((s.setCoreReg c n v).core d).puppet = (s.core d).puppet := by
  simp only [State.setCoreReg, State.core_modCore]; split_ifs with h <;> simp [h]

/-- What a fault in the puppet slot does: the two records, and the handler's address or the stop (R168). -/
theorem State.puppetFault_spec (s : State) (c : CoreRef) (cause : Nat) (pc : Word) :
    let t := s.puppetFault c cause pc
    t.coreReg c 0x105 = pc ∧ t.coreReg c 0x103 = BitVec.ofNat 64 (cause + 256 + s.stampBits 48 * 65536)
    ∧ (t.core c).puppet.events = (s.core c).puppet.events
    ∧ (∀ r, (t.core c).puppet.sc.read r = (s.core c).puppet.sc.read r)
    ∧ (if bitAt (s.coreReg c 0x103) 8 then (t.core c).puppet.sc.spc = (s.core c).puppet.sc.spc ∧ (t.core c).puppet.stopped = true
       else (t.core c).puppet.sc.spc = s.coreReg c 0x104 ∧ (t.core c).puppet.stopped = (s.core c).puppet.stopped)
    ∧ (∀ g, t.group g = s.group g) ∧ t.halts = s.halts ∧ t.mem = s.mem ∧ t.cur = s.cur := by
  intro t
  unfold t State.puppetFault
  by_cases hn : bitAt (s.coreReg c 0x103) 8 = true
  · simp only [hn, if_true]
    simp [State.coreReg_modPuppet, State.coreReg_setCoreReg, State.core_modPuppet, State.puppet_setCoreReg, State.stampBits]
  · simp only [hn, Bool.false_eq_true, if_false]
    simp [State.coreReg_modPuppet, State.coreReg_setCoreReg, State.core_modPuppet, State.puppet_setCoreReg, State.stampBits, Scalar.read]

/-! ### Halting (R422) -/

/-- What a halt leaves of a group's fault record and its registers. -/
def Group.sameRecord (v u : Group) : Prop :=
  u.faultCode = v.faultCode ∧ u.faultPrec = v.faultPrec ∧ u.faultLane = v.faultLane ∧ u.faultSplit = v.faultSplit ∧ u.faultAddr = v.faultAddr
    ∧ u.faultDetail = v.faultDetail ∧ u.faultInstr = v.faultInstr ∧ u.origin = v.origin ∧ u.faultAt = v.faultAt ∧ u.sc = v.sc ∧ u.v = v.v ∧ u.p = v.p
    ∧ u.part = v.part ∧ u.grid = v.grid ∧ u.wg = v.wg

theorem Group.sameRecord.refl (v : Group) : v.sameRecord v := by simp [Group.sameRecord]

theorem Group.sameRecord.trans {u v w : Group} (h : u.sameRecord v) (k : v.sameRecord w) : u.sameRecord w := by
  unfold Group.sameRecord at *; simp_all

/-- No group's record and no byte of HBM differs. -/
def State.keepsRecords (s t : State) : Prop := (∀ g, (s.group g).sameRecord (t.group g)) ∧ t.mem = s.mem

theorem State.keepsRecords.refl (s : State) : s.keepsRecords s := ⟨fun _ => Group.sameRecord.refl _, rfl⟩

theorem State.keepsRecords.sameGroups (s t : State) (h : ∀ g, t.group g = s.group g) (hm : t.mem = s.mem) : s.keepsRecords t :=
  ⟨fun g => by rw [h g]; exact Group.sameRecord.refl _, hm⟩

theorem State.keepsRecords.trans {s t u : State} (h : s.keepsRecords t) (k : t.keepsRecords u) : s.keepsRecords u :=
  ⟨fun g => (h.1 g).trans (k.1 g), k.2.trans h.2⟩

theorem State.keepsRecords.foldl {α : Type} (l : List α) (f : State → α → State) (h : ∀ (s : State) a, s.keepsRecords (f s a)) (s : State) :
    s.keepsRecords (l.foldl f s) := by
  induction l generalizing s with
  | nil => exact .refl s
  | cons a l ih => exact (h s a).trans (ih _)

theorem State.modGroup_keeps (s : State) (g : GroupRef) (f : Group → Group) (h : (s.group g).sameRecord (f (s.group g))) :
    s.keepsRecords (s.modGroup g f) := by
  refine ⟨fun x => ?_, by simp⟩
  rw [State.group_modGroup]
  split_ifs with e
  · rw [e]; exact h
  · exact Group.sameRecord.refl _

theorem State.modCore_keeps (s : State) (c : CoreRef) (f : Core → Core) (h : (f (s.core c)).groups = (s.core c).groups) :
    s.keepsRecords (s.modCore c f) :=
  ⟨fun g => by rw [State.group_modCore _ _ _ _ h]; exact Group.sameRecord.refl _, by simp⟩

theorem State.endHalves_keeps (s : State) (id : Nat) : s.keepsRecords (s.endHalves id) := by
  unfold State.endHalves
  refine State.keepsRecords.trans (State.keepsRecords.foldl _ _ (fun s g => ?_) s) ⟨fun _ => Group.sameRecord.refl _, rfl⟩
  split_ifs
  · exact State.modGroup_keeps s g _ (by simp [Group.sameRecord])
  · exact .refl s

theorem State.endPair_keeps (s : State) (g : GroupRef) : s.keepsRecords (s.endPair g) := by
  unfold State.endPair
  split
  · exact .refl s
  · exact (State.modGroup_keeps s g (fun v => v.settleSwaps _) (by simp [Group.sameRecord, Group.settleSwaps])).trans
      (State.endHalves_keeps _ _)

theorem State.haltGroup_keeps (s : State) (g : GroupRef) : s.keepsRecords (s.haltGroup g) := by
  unfold State.haltGroup
  split_ifs
  · exact .refl s
  · exact (State.modGroup_keeps s g _ (by simp [Group.sameRecord, Group.loseLatches])).trans (State.endPair_keeps _ g)

theorem State.spoilReg_keeps (s : State) (c : CoreRef) (n : Nat) : s.keepsRecords (s.spoilReg c n) := by
  have := State.modCore_keeps s c (fun x =>
      if n < 8 then { x with tiles := tabSet x.tiles n { tabGet {} x.tiles n with data := memWrite [] 0 (s.freeBytes 8192) } }
      else { x with accs := tabSet x.accs (n - 8) { tabGet {} x.accs (n - 8) with
            elems := (List.range 4096).map fun i => (i, s.freeElem i), nanc := s.freeLane 4096 } }) (by split_ifs <;> rfl)
  exact this.trans ⟨fun _ => Group.sameRecord.refl _, rfl⟩

theorem State.abandonMove_keeps (s : State) (c : CoreRef) (f : MatOp → Bool) : s.keepsRecords (s.abandonMove c f) := by
  unfold State.abandonMove
  split
  · split_ifs
    · exact State.keepsRecords.foldl _ _ (fun s n => State.spoilReg_keeps s c n) s
    · exact .refl s
  · exact .refl s

theorem State.haltMatrix_keeps (s : State) (c : CoreRef) (f : GroupRef → Bool) : s.keepsRecords (s.haltMatrix c f).1 :=
  (State.abandonMove_keeps s c _).trans (State.modCore_keeps _ c _ rfl)

theorem State.haltEngines_keeps (s : State) (p : PartId) (dom : Word) : s.keepsRecords (s.haltEngines p dom).1 :=
  State.keepsRecords.sameGroups _ _ (fun _ => rfl) rfl

/-- Raising a halt line changes no group's fault record and no byte of HBM. -/
theorem State.raiseHalt_keeps (s : State) (p : PartId) (dom : Word) (cause : BitVec 8) (r : Option Nat) :
    s.keepsRecords (s.raiseHalt p dom cause r) := by
  unfold State.raiseHalt
  split_ifs
  · exact .refl s
  · have h1 := State.keepsRecords.foldl (s.domainGroups p dom) State.haltGroup State.haltGroup_keeps s
    have key : ∀ (l : List CoreRef) (f : GroupRef → Bool) (acc : State × List StopUnit),
        acc.1.keepsRecords (l.foldl (fun (acc : State × List StopUnit) c => let (s, u) := acc.1.haltMatrix c f; (s, acc.2 ++ u)) acc).1 := by
      intro l f
      induction l with
      | nil => exact fun acc => .refl _
      | cons c l ih => exact fun acc => (State.haltMatrix_keeps acc.1 c f).trans (ih _)
    have h2 := key ((s.domainGroups p dom).map GroupRef.at).eraseDups (fun g => (s.domainGroups p dom).contains g)
      ((s.domainGroups p dom).foldl State.haltGroup s, [])
    simp only []
    generalize List.foldl (fun (acc : State × List StopUnit) c => _) _ _ = r at h2 ⊢
    exact (h1.trans h2).trans (State.haltEngines_keeps r.1 p dom)

/-- A group's fault: its record holds it, no other group's record changes, and no byte of HBM does. -/
theorem State.groupFault_spec (s : State) (g : GroupRef) (c : Cause) (precise lane : Bool) (split : Fin 4) (addr : Word) (detail : BitVec 8)
    (word : W32) (h : (s.group g).faultCode = 0) :
    let t := s.groupFault g c precise lane split addr detail word
    (t.group g).faultCode = c.code ∧ (t.group g).faultPrec = precise ∧ (t.group g).faultLane = lane ∧ (t.group g).faultSplit = split
    ∧ (t.group g).faultAddr = addr ∧ (t.group g).faultDetail = detail ∧ (t.group g).faultInstr = word ∧ (t.group g).sc = (s.group g).sc
    ∧ t.mem = s.mem ∧ ∀ x, x ≠ g → (s.group x).sameRecord (t.group x) := by
  intro t
  have fin : ∀ u : State, (∀ x, ((s.modGroup g fun v => v.recordFault c precise lane split addr detail word
      (!(s.halts.any fun h => h.part == (s.group g).part && h.written && (s.gridOf g).domains.contains h.dom)) s.now).group x).sameRecord (u.group x))
      → u.mem = s.mem → (u.group g).faultCode = c.code ∧ (u.group g).faultPrec = precise ∧ (u.group g).faultLane = lane ∧ (u.group g).faultSplit = split
        ∧ (u.group g).faultAddr = addr ∧ (u.group g).faultDetail = detail ∧ (u.group g).faultInstr = word ∧ (u.group g).sc = (s.group g).sc
        ∧ u.mem = s.mem ∧ ∀ x, x ≠ g → (s.group x).sameRecord (u.group x) := by
    intro u hu hm
    have hg := hu g
    simp only [State.group_modGroup, if_true, Group.recordFault, h, Group.sameRecord] at hg
    refine ⟨hg.1, hg.2.1, hg.2.2.1, hg.2.2.2.1, hg.2.2.2.2.1, hg.2.2.2.2.2.1, hg.2.2.2.2.2.2.1, hg.2.2.2.2.2.2.2.2.2.1, hm, fun x hx => ?_⟩
    have := hu x
    rwa [State.group_modGroup, if_neg hx] at this
  unfold t State.groupFault
  simp only []
  split_ifs
  · exact fin _ (fun x => Group.sameRecord.refl _) (by simp)
  · exact fin _ (fun x => Group.sameRecord.refl _) (by simp)
  · have := State.raiseHalt_keeps (s.modGroup g fun v => v.recordFault c precise lane split addr detail word
        (!(s.halts.any fun h => h.part == (s.group g).part && h.written && (s.gridOf g).domains.contains h.dom)) s.now)
      (s.group g).part (s.domainOf g) c.code (some ((s.modGroup g fun v => v.recordFault c precise lane split addr detail word
        (!(s.halts.any fun h => h.part == (s.group g).part && h.written && (s.gridOf g).domains.contains h.dom)) s.now).group g).grid)
    exact fin _ this.1 (by simpa using this.2)

end Sys2Proof.Machine
end

