-- ==== Sys2Proof/Laws/Issue.lean ====
section
/-! SUPPORT. Laws of issuing a scalar word: what `issue`, `result`, `setSpc` and `branch` do, so that no proof unfolds them. -/

namespace Sys2Proof.Machine

set_option Elab.async false

/-! ### Bits -/

@[simp] theorem setBits_one_getLsbD (x : Word) (i j : Nat) (b : Bool) (h : j < 64) :
    (putBit x i b).getLsbD j = if j = i then b else x.getLsbD j := by
  unfold putBit setBits
  simp only [show i + 1 - i = 1 by omega, pow_one, Nat.reduceSub, Nat.one_mul]
  simp only [BitVec.getLsbD_or, BitVec.getLsbD_and, BitVec.getLsbD_not, BitVec.getLsbD_ofNat, h, decide_true, Bool.true_and]
  rw [Nat.testBit_two_pow]
  by_cases hij : j = i
  · subst hij; cases b <;> simp
  · have : ¬ i = j := fun h => hij h.symm
    simp [hij, this]

/-- The mask of a set of registers holds exactly their bits, `s0` left out. -/
theorem regMask_getLsbD (rs : List (BitVec 6)) (j : Nat) (h : j < 64) :
    (regMask rs).getLsbD j = decide (∃ r ∈ rs, r ≠ 0 ∧ r.toNat = j) := by
  have key : ∀ (m : Word), (rs.foldl (fun m r => if r = 0 then m else putBit m r.toNat true) m).getLsbD j
      = (m.getLsbD j || decide (∃ r ∈ rs, r ≠ 0 ∧ r.toNat = j)) := by
    induction rs with
    | nil => intro m; simp
    | cons r rs ih =>
      intro m
      rw [List.foldl_cons, ih]
      by_cases h0 : r = 0
      · subst h0; simp
      · rw [if_neg h0, setBits_one_getLsbD _ _ _ _ h]
        have h0' : r ≠ 0#6 := h0
        by_cases hr : j = r.toNat
        · subst hr; simp [h0']
        · have hr' : ¬r.toNat = j := fun h' => hr h'.symm
          simp [hr, hr']
  simpa [regMask] using key 0

/-- A mask of registers meets a set of bits in nothing when none of them is set. -/
theorem and_regMask_eq_zero (x : Word) (rs : List (BitVec 6)) (h : ∀ r ∈ rs, r ≠ 0 → x.getLsbD r.toNat = false) : x &&& regMask rs = 0 := by
  apply BitVec.eq_of_getLsbD_eq
  intro j hj
  rw [BitVec.getLsbD_and, regMask_getLsbD _ _ hj]
  by_cases hx : ∃ r ∈ rs, r ≠ 0 ∧ r.toNat = j
  · obtain ⟨r, hr, h0, rfl⟩ := hx
    simp [h r hr h0]
  · rw [decide_eq_false hx, Bool.and_false]; simp

/-! ### The scalar side -/

@[simp] theorem State.modSc_modSc (s : State) (a : Agent) (f g : Scalar → Scalar) : (s.modSc a f).modSc a g = s.modSc a fun c => g (f c) := by
  cases a with
  | none => rfl
  | scalar x => simp [State.modSc, State.modGroup, State.setGroup, State.setCore, State.setSlice, State.core, State.slice, State.group, tabSet_tabSet]
  | lane x k => simp [State.modSc, State.modGroup, State.setGroup, State.setCore, State.setSlice, State.core, State.slice, State.group, tabSet_tabSet]
  | puppet c => simp [State.modSc, State.modPuppet, State.modCore, State.setCore, State.setSlice, State.core, State.slice, tabSet_tabSet]

/-- A change of the scalar side is one to a fixed value. -/
theorem State.modSc_const (s : State) (a : Agent) (f : Scalar → Scalar) : (s.modSc a fun _ => f (s.scOf a)) = s.modSc a f := by
  cases a <;> rfl

theorem State.cur_ne_none {s : State} (h : s.inScalar) : s.cur ≠ .none := by
  intro h'; simp [State.inScalar, h'] at h

theorem State.onlyScalarSide_modSc (s : State) (f : Scalar → Scalar) (h : s.cur ≠ .none) : s.onlyScalarSide (s.modSc s.cur f) := by
  unfold State.onlyScalarSide
  rw [State.scOf_modSc _ _ _ h, State.modSc_const]

@[simp] theorem Scalar.readTokens_fields (c : Scalar) (rs : List (BitVec 6)) :
    (c.readTokens rs).s = c.s ∧ (c.readTokens rs).pend = c.pend ∧ (c.readTokens rs).loadPend = c.loadPend ∧ (c.readTokens rs).spc = c.spc
      ∧ (c.readTokens rs).memq = c.memq ∧ (c.readTokens rs).watch = c.watch := by
  unfold Scalar.readTokens
  induction rs generalizing c with
  | nil => simp
  | cons r rs ih =>
    rw [List.foldl_cons]
    split_ifs
    · exact ih _
    · exact ih c

@[simp] theorem Scalar.readTokens_read (c : Scalar) (rs : List (BitVec 6)) (r : BitVec 6) : (c.readTokens rs).read r = c.read r := by
  simp [Scalar.read]

/-- Reading tokens changes no register. -/
@[simp] theorem State.sreg_readTokens (s : State) (rs : List (BitVec 6)) (r : BitVec 6) :
    (s.modSc s.cur fun c => c.readTokens rs).sreg r = s.sreg r := by
  simp only [State.sreg, State.modSc_cur]
  by_cases hc : s.cur = .none
  · rw [hc]; rfl
  · rw [State.scOf_modSc _ _ _ hc, Scalar.readTokens_read]

/-- Reading tokens does not move the stream. -/
@[simp] theorem State.spc_readTokens (s : State) (rs : List (BitVec 6)) : (s.modSc s.cur fun c => c.readTokens rs).spc = s.spc := by
  simp only [State.spc, State.modSc_cur]
  by_cases hc : s.cur = .none
  · rw [hc]; rfl
  · rw [State.scOf_modSc _ _ _ hc]; exact (Scalar.readTokens_fields _ _).2.2.2.1

/-! ### Issue -/

/-- A state that differs on the scalar side alone holds no new fault. -/
theorem State.faulted_modSc (s : State) (a : Agent) (f : Scalar → Scalar) : s.faulted (s.modSc a f) a = false := by
  cases a with
  | none => rfl
  | scalar g =>
    simp only [State.faulted, State.modSc, State.group_modGroup, if_true]
    cases h : (s.group g).faultCode == 0 <;> simp_all
  | lane g k =>
    simp only [State.faulted, State.modSc, State.group_modGroup, if_true]
    cases h : (s.group g).faultCode == 0 <;> simp_all
  | puppet c =>
    simp only [State.faulted, State.modSc, State.coreReg, State.core_modPuppet, if_true]
    cases bitAt (tabGet 0 (s.core c).regs 259) 8 <;> cases (s.core c).puppet.stopped <;> simp

/-- A word that changes the scalar side alone keeps what it has read. -/
theorem State.unread_of_onlyScalarSide {s t : State} (h : s.onlyScalarSide t) : s.unread t = t := by
  have : s.faulted t s.cur = false := by rw [h]; exact State.faulted_modSc s s.cur _
  simp [State.unread, this]

/-- A word that passes its checks and waits for nothing acts, its sources read as tokens. -/
theorem State.issue_eq (s : State) (f : Form) (act : State → State) (hf : s.formFault f = none)
    (hp : (s.scOf s.cur).pend &&& regMask f.reads = 0) (hl : (s.scOf s.cur).loadPend &&& regMask f.named = 0)
    (hm : (s.scOf s.cur).misuses f = false) : s.issue f act = s.unread (act (s.modSc s.cur fun c => c.readTokens f.reads)) := by
  unfold State.issue
  rw [hf]
  simp only [hp, hl, hm, ne_eq, not_true_eq_false, if_false, Bool.false_eq_true]

/-- An unrestricted word, whose fields hold no reserved value, issues when nothing holds it back. -/
theorem State.issue_plain (s : State) (f : Form) (act : State → State) (h : s.canIssue f.reads f.dest.toList) (ht : f.token = none)
    (hs : f.slots = .any) (hb : f.bad = false) (hx : f.matrix = false) :
    s.issue f act = s.unread (act (s.modSc s.cur fun c => c.readTokens f.reads)) := by
  obtain ⟨_, hp, hl, hd⟩ := h
  apply State.issue_eq
  · simp [State.formFault, hs, hb, hx]
  · exact and_regMask_eq_zero _ _ hp
  · apply and_regMask_eq_zero
    intro r hr
    apply hl
    simpa [Form.named, ht, Option.toList] using (by cases hd' : f.dest <;> simp_all [Form.named])
  · cases hd' : f.dest with
    | none => simp [Scalar.misuses, ht, hd']
    | some d => simp [Scalar.misuses, ht, hd', bitAt, hd d (by simp [hd'])]

/-! ### Results and moves -/

/-- What a word leaves that writes a register and goes on, after reading its tokens. -/
theorem State.wrote_result (s : State) (rs : List (BitVec 6)) (d : BitVec 6) (v : Word) (h : s.inScalar) :
    s.wrote ((s.modSc s.cur fun c => c.readTokens rs).result d v) d v := by
  have hc := State.cur_ne_none h
  have e : (s.modSc s.cur fun c => c.readTokens rs).result d v
      = s.modSc s.cur fun c => { (c.readTokens rs).write d v with spc := c.spc + 4, wait := .none, remote := false } := by
    simp only [State.result, State.advance, State.setSpc, State.setSreg, State.spc, State.modSc_cur, State.modSc_modSc, State.scOf_modSc _ _ _ hc]
    rw [← State.modSc_const s s.cur (fun c => { (c.readTokens rs).write d v with spc := c.spc + 4, wait := .none, remote := false }),
      ← State.modSc_const s s.cur]
    have : ((s.scOf s.cur).readTokens rs |>.write d v).spc = (s.scOf s.cur).spc := by
      unfold Scalar.write; split_ifs <;> simp
    rw [this]
  have w : ∀ c : Scalar, (c.write d v).pend = c.pend ∧ (c.write d v).loadPend = c.loadPend ∧ (c.write d v).memq = c.memq
      ∧ (c.write d v).watch = c.watch := by
    intro c; unfold Scalar.write; split_ifs <;> simp
  rw [e]
  refine ⟨State.onlyScalarSide_modSc _ _ hc, fun r => ?_, ?_, ?_⟩
  · simp only [State.sreg, State.modSc_cur, State.scOf_modSc _ _ _ hc]
    have := Scalar.read_write ((s.scOf s.cur).readTokens rs) d r v
    rw [Scalar.readTokens_read] at this
    rw [show ∀ c : Scalar, ∀ p w m, ({ c with spc := p, wait := w, remote := m } : Scalar).read r = c.read r from fun _ _ _ _ => rfl, this]
    by_cases h0 : d = 0
    · subst h0
      rw [if_neg (fun h' : r = 0 ∧ (0 : BitVec 6) ≠ 0 => h'.2 rfl), if_pos rfl]
      split_ifs with hr
      · rw [hr]; exact (Scalar.read_zero _).symm
      · rfl
    · rw [if_neg h0]
      by_cases hr : r = d
      · rw [if_pos hr, if_pos ⟨hr, h0⟩]
      · rw [if_neg hr, if_neg fun h' => hr h'.1]
  · simp only [State.spc, State.modSc_cur, State.scOf_modSc _ _ _ hc]
  · simp only [State.scOf_modSc _ _ _ hc, State.modSc_mem, w, Scalar.readTokens_fields, implies_true, and_self]

/-- What a word leaves that only moves its stream. -/
theorem State.went_setSpc (s : State) (rs : List (BitVec 6)) (pc : Word) (h : s.inScalar) :
    s.went ((s.modSc s.cur fun c => c.readTokens rs).setSpc pc) pc := by
  have hc := State.cur_ne_none h
  refine ⟨?_, fun r => ?_, ?_, ?_, ?_, ?_⟩
  · simp only [State.setSpc, State.modSc_cur, State.modSc_modSc]; exact State.onlyScalarSide_modSc _ _ hc
  · simp only [State.setSpc, State.sreg, State.modSc_cur, State.modSc_modSc, State.scOf_modSc _ _ _ hc]
    exact Scalar.readTokens_read _ _ _
  all_goals simp [State.setSpc, State.spc, State.scOf_modSc _ _ _ hc]

/-- A two-source instruction gives its function of the sources. -/
theorem State.wrote_alu (s : State) (d a b : BitVec 6) (f : Word → Word → Word) (h : s.canIssue [a, b] [d]) :
    s.wrote (s.alu d a b f) d (f (s.sreg a) (s.sreg b)) := by
  unfold State.alu
  rw [State.issue_plain _ _ _ h rfl rfl rfl rfl]
  simp only [State.sreg_readTokens]
  have r := State.wrote_result s [a, b] d (f (s.sreg a) (s.sreg b)) h.1
  exact (State.unread_of_onlyScalarSide r.1).symm ▸ r

/-- A one-source instruction gives its function of the source. -/
theorem State.wrote_alu1 (s : State) (d a : BitVec 6) (f : Word → Word) (h : s.canIssue [a] [d]) :
    s.wrote (s.alu1 d a f) d (f (s.sreg a)) := by
  unfold State.alu1
  rw [State.issue_plain _ _ _ h rfl rfl rfl rfl]
  simp only [State.sreg_readTokens]
  have r := State.wrote_result s [a] d (f (s.sreg a)) h.1
  exact (State.unread_of_onlyScalarSide r.1).symm ▸ r

/-- A conditional branch goes to its target when its condition holds, else to the next word. -/
theorem State.went_branch (s : State) (a b : BitVec 6) (off : BitVec 14) (cond : Word → Word → Bool) (h : s.canIssue [a, b] []) :
    s.went (s.branch a b off cond)
      (if cond (s.sreg a) (s.sreg b) then s.spc + (off.signExtend 64 <<< 2) else s.spc + 4) := by
  unfold State.branch
  rw [State.issue_plain _ _ _ h rfl rfl rfl rfl]
  simp only [State.sreg_readTokens, State.advance, State.spc_readTokens]
  split_ifs
  all_goals
    rw [State.unread_of_onlyScalarSide (State.went_setSpc s _ _ h.1).1]
    exact State.went_setSpc s _ _ h.1

end Sys2Proof.Machine
end

