-- ==== Sys2Proof/Laws/Live.lean ====
section
/-! SUPPORT. Laws of the live L2 segments: a slice has 61 to 64 of them, so that a partition with a slice has a chip scratchpad. -/

namespace Sys2Proof.Machine

set_option Elab.async false

/-- The mask of one fused-off segment. -/
def offMask (o : Option (Fin 64)) : Word := match o with | some k => 1 <<< k.val | none => 0

theorem offMask_count (o : Option (Fin 64)) : (List.range 64).countP (offMask o).getLsbD ≤ 1 := by
  match o with
  | none => decide
  | some k => revert k; decide +kernel

theorem fuseMap_eq (i : SliceId) :
    Config.fuseMap i = ~~~(offMask (Config.fusedOff i 0) ||| offMask (Config.fusedOff i 1) ||| offMask (Config.fusedOff i 2)) := rfl

theorem countP_or_le {α : Type} (l : List α) (p q : α → Bool) : l.countP (fun x => p x || q x) ≤ l.countP p + l.countP q := by
  induction l with
  | nil => simp
  | cons a l ih =>
    simp only [List.countP_cons]
    cases p a <;> cases q a <;> simp <;> omega

/-- A slice has 61 to 64 live segments. -/
theorem liveCount_bounds (i : SliceId) : 61 ≤ liveCount i ∧ liveCount i ≤ 64 := by
  have h := List.length_eq_countP_add_countP (p := fun k => bitAt (Config.fuseMap i) k) (l := List.range 64)
  simp only [List.length_range] at h
  rw [liveCount, ← List.countP_eq_length_filter]
  refine ⟨?_, by omega⟩
  have hle : (List.range 64).countP (fun k => decide ¬bitAt (Config.fuseMap i) k = true) ≤ 3 := by
    have e : (List.range 64).countP (fun k => decide ¬bitAt (Config.fuseMap i) k = true)
        = (List.range 64).countP fun k => ((offMask (Config.fusedOff i 0)).getLsbD k || (offMask (Config.fusedOff i 1)).getLsbD k)
            || (offMask (Config.fusedOff i 2)).getLsbD k := by
      refine List.countP_congr fun k hk => ?_
      have : k < 64 := List.mem_range.mp hk
      simp [bitAt, fuseMap_eq, this, or_assoc]
    rw [e]
    have h1 := countP_or_le (List.range 64) (fun k => (offMask (Config.fusedOff i 0)).getLsbD k || (offMask (Config.fusedOff i 1)).getLsbD k)
      (offMask (Config.fusedOff i 2)).getLsbD
    have h2 := countP_or_le (List.range 64) (offMask (Config.fusedOff i 0)).getLsbD (offMask (Config.fusedOff i 1)).getLsbD
    have := offMask_count (Config.fusedOff i 0)
    have := offMask_count (Config.fusedOff i 1)
    have := offMask_count (Config.fusedOff i 2)
    omega
  omega

/-- The chip scratchpad of a partition that hands over no slice has at least 61 segments' bytes for each of its slices (R260). -/
theorem chipSize_ge (s : State) (p : PartId) (h : (s.part p).move = none) : (s.memberSlices p).length * (61 * 0x80000) ≤ s.chipSize p := by
  have e : ∀ l : List SliceId, l.length * 61
      ≤ (l.flatMap fun i => ((List.range 64).filter fun k => bitAt (Config.fuseMap i) k).map fun k => (i, k)).length := by
    intro l
    induction l with
    | nil => simp
    | cons i l ih =>
      have h := (liveCount_bounds i).1
      rw [liveCount] at h
      simp only [List.flatMap_cons, List.length_append, List.length_map, List.length_cons]
      omega
  have h' := e (s.memberSlices p)
  simp only [State.chipSize, State.liveSegs, h, Bool.not_false, List.filter_true]
  omega

/-- With one slice in a partition, every line of it has its home there (R382). -/
theorem home_of_one (s : State) (p : PartId) (l : Nat) (h : s.memberSlices p = [0]) : (s.home p l).1 = 0 := by
  have key : ∀ k, ((s.liveSegs p).getD k (0, 0)).1 = 0 := by
    intro k
    by_cases hlt : k < (s.liveSegs p).length
    · have hm := List.getElem_mem hlt
      rw [List.getD_eq_getElem _ _ hlt]
      generalize (s.liveSegs p)[k] = x at hm ⊢
      simp only [State.liveSegs, h, List.mem_flatMap, List.mem_map] at hm
      obtain ⟨i, hi, k', -, rfl⟩ := hm
      have := List.mem_of_mem_filter hi
      simpa using this
    · rw [List.getD_eq_default _ _ (by omega)]
  exact key _

end Sys2Proof.Machine
end

