-- ==== Sys2Proof/Laws/Memory.lean ====
section
/-! SUPPORT. What the operations on the L2 and HBM change: a store to HBM changes bytes, poison and the marks of matrix operations under way; a
write of an engine changes what its home holds besides. -/

namespace Sys2Proof.Machine

/-- Nothing but what cores hold differs: the registers and L2 lines of every slice, memory, poison and the root controller are the same. -/
structure State.SameDies (s t : State) : Prop where
  mem : t.mem = s.mem
  poison : t.poison = s.poison
  prc : t.prc = s.prc
  now : t.now = s.now
  regs : ∀ i, (t.slice i).regs = (s.slice i).regs
  l2 : ∀ i, (t.slice i).l2 = (s.slice i).l2

theorem State.SameDies.refl (s : State) : s.SameDies s := ⟨rfl, rfl, rfl, rfl, fun _ => rfl, fun _ => rfl⟩

theorem State.SameDies.trans {s t u : State} (h : s.SameDies t) (k : t.SameDies u) : s.SameDies u :=
  ⟨k.mem.trans h.mem, k.poison.trans h.poison, k.prc.trans h.prc, k.now.trans h.now, fun i => (k.regs i).trans (h.regs i), fun i => (k.l2 i).trans (h.l2 i)⟩

theorem State.sameDies_setCore (s : State) (c : CoreRef) (v : Core) : s.SameDies (s.setCore c v) := by
  refine ⟨rfl, rfl, rfl, rfl, fun i => ?_, fun i => ?_⟩ <;>
    · simp only [State.slice_setCore]
      split_ifs <;> rfl

theorem State.sameDies_modCore (s : State) (c : CoreRef) (f : Core → Core) : s.SameDies (s.modCore c f) := s.sameDies_setCore _ _

theorem State.sameDies_modSc (s : State) (a : Agent) (f : Scalar → Scalar) : s.SameDies (s.modSc a f) := by
  match a with
  | .none => exact State.SameDies.refl s
  | .puppet c => exact s.sameDies_setCore c _
  | .scalar g => exact s.sameDies_setCore g.at _
  | .lane g _ => exact s.sameDies_setCore g.at _

theorem State.sameDies_foldl {α : Type} (f : State → α → State) (h : ∀ (s : State) x, s.SameDies (f s x)) (xs : List α) (s : State) : s.SameDies (xs.foldl f s) := by
  induction xs generalizing s with
  | nil => exact .refl s
  | cons x xs ih => exact (h s x).trans (ih _)

/-- Bytes written under a matrix operation are marked in the core's operations only. -/
theorem State.hitOps_sameDies (s : State) (c : CoreRef) (space off n : Nat) : s.SameDies (s.hitOps c space off n) := by
  unfold State.hitOps
  split_ifs
  · exact .refl s
  · exact s.sameDies_modCore _ _

/-- A store to HBM writes its bytes, as `hbmWrite` does, and marks operations. -/
theorem State.hbmStore_sameDies (s : State) (pa : Nat) (bs : List Byte) : (s.hbmWrite pa bs).SameDies (s.hbmStore pa bs) :=
  State.sameDies_foldl _ (fun s c => s.hitOps_sameDies c 2 pa bs.length) _ _

theorem State.l1Update_sameDies (s : State) (c : CoreRef) (pa : Nat) (bs : List Byte) : s.SameDies (s.l1Update c pa bs) := s.sameDies_modCore _ _

theorem State.observe_sameDies (s : State) (a : Agent) (pl : Nat) : s.SameDies (s.observe a pl) := by
  unfold State.observe
  dsimp only
  split_ifs
  · exact .refl s
  · exact (s.sameDies_modSc _ _).trans (State.sameDies_modCore _ _ _)

/-- A line that the die holds already is only used. -/
theorem State.holdLine_held {s : State} {i : SliceId} {pl : Nat} {x : L2Line} (h : tabFind (s.slice i).l2 pl = some x) (seg key : Nat) (hc : Bool)
    (p : PartId) (a : Agent) :
    s.holdLine i seg pl key hc p a
      = s.modSlice i fun k => { k with l2 := tabSet k.l2 pl { x with used := k.l2Uses + 1 }, l2Uses := k.l2Uses + 1 } := by
  simp only [State.holdLine, h]

/-- A copy that leaves an L1 changes nothing but that core. -/
theorem State.l1Stale_sameDies (s : State) (c : CoreRef) (pl : Nat) : s.SameDies (s.l1Stale c pl) := by
  unfold State.l1Stale
  split_ifs
  · exact s.sameDies_modCore _ _
  · exact .refl s

/-- With the injector off no opportunity strikes, and nothing changes. -/
theorem State.opportunity_off {s : State} (h : s.injectorOff) (i : SliceId) (kind : Nat) : s.opportunity i kind = (s, false) := by
  have e : bitAt (s.sliceReg i 0x42C) 42 = false := h i
  simp only [State.opportunity, e, Bool.false_and, Bool.false_eq_true, if_false]

theorem State.readErrors_off {s : State} (h : s.injectorOff) (home holder : SliceId) (pa : Nat) (fill : Bool) : s.readErrors home holder pa fill = (s, false) := by
  cases fill <;> simp [State.readErrors, State.injectCorrected, State.opportunity_off h]

/-- A read at a home then meets only poison. -/
theorem State.readLine_off {s : State} (h : s.injectorOff) (hp : s.poison = []) (i t : SliceId) (pa n : Nat) : s.readLine i t pa n = (s, none) := by
  simp [State.readLine, State.readErrors_off h, State.poisoned, hp]

end Sys2Proof.Machine
end

