-- ==== Sys2Proof/Tests/Slice0.lean ====
section
/-! SUPPORT. Tests of the decoder, the encoder and the checks on fields. The words are the spec's worked words, or the match and field values of the
table of operations put together from that table alone. -/

namespace Sys2Proof.Tests

set_option Elab.async false

/-- The decoder reads a word as an instruction, and the encoder writes that word. -/
def reads (w : W32) (i : Instr) : Bool := decide (decodeScalar w = .ok i) && decide (encodeScalar i = some w)

/-- Fields that differ from one another: TYPE 6, DST v4, SA q0, SB bl6, SC p3, MOD 1010b, CAP 1, LATCH 5. -/
def fields : LaneWord :=
  { pre := none, typ := 6, nwb := false, dst := 4, sa := 0x90, sb := 0x86, sc := 0xA3, modf := 0xA, cap := true, latch := 5, mbz := 0, imm := 0x89ABCDEF }

/-- The decoder reads a lane instruction with those fields, given bits [95:64]. -/
def readsLane (w : W32) (i : LaneWord → Instr) : Bool := decide (decodeLaneWords [w, 0x0D475A00, 0x89ABCDEF] = some (.ok (i fields)))

/-- R148: the ALU set. -/
theorem test_decode_alu :
    reads 0x0553D000 (.add 21 15 16)
    && reads 0x05540401 (.sub 21 16 4)
    && reads 0x068A1602 (.and 40 40 22)
    && reads 0x04DA1603 (.or 13 40 22)
    && reads 0x05395C04 (.xor 19 37 28)
    && reads 0x078CC905 (.shl 56 51 9)
    && reads 0x052B6106 (.shr 18 45 33)
    && reads 0x07550F07 (.sra 53 20 15)
    && reads 0x04A96F08 (.mul 10 37 47)
    && reads 0x07C69509 (.mulh 60 26 21)
    && reads 0x06F37D0A (.mulhn 47 13 61)
    && reads 0x0408210B (.div 0 32 33)
    && reads 0x05F8CD0C (.divn 31 35 13)
    && reads 0x052AF90D (.rem 18 43 57)
    && reads 0x043F4E0E (.remn 3 61 14)
    && reads 0x0403BE0F (.min 0 14 62)
    && reads 0x073CB910 (.max 51 50 57)
    && reads 0x07120C11 (.minn 49 8 12)
    && reads 0x052C7712 (.maxn 18 49 55)
    && reads 0x04A8DB13 (.slt 10 35 27)
    && reads 0x06D9F914 (.sltn 45 39 57)
    && reads 0x04B56115 (.seq 11 21 33)
    && reads 0x05F74016 (.clz 31 29)
    && reads 0x05DC8017 (.ctz 29 50)
    && reads 0x062B0018 (.popc 34 44)
    && reads 0x06F58E19 (.sel 47 22 14) := by
  decide +kernel

/-- R149: immediate forms. -/
theorem test_decode_imm :
    reads 0x095E308B (.addi 21 56 0x308B)
    && reads 0x0EFD3324 (.andi 47 52 0x3324)
    && reads 0x10B44B25 (.ori 11 17 0xB25)
    && reads 0x15E4D57F (.xori 30 19 0x157F)
    && reads 0x1834C01F (.shli 3 19 31)
    && reads 0x186AD02F (.shri 6 43 47)
    && reads 0x1AACA039 (.srai 42 50 57)
    && reads 0x1DEC7ECE (.slti 30 49 0x3ECE)
    && reads 0x2090C08B (.ldi 9 0xC08B)
    && reads 0x270666E8 (.ldu 48 0x666E8) := by
  decide +kernel

/-- R150 to R153: scaled add, branches and calls. -/
theorem test_decode_branch :
    reads 0x2B68E302 (.adda 54 35 35 2)
    && reads 0x2DD49206 (.beq 29 18 0x1206)
    && reads 0x3016BB84 (.bne 1 26 0x3B84)
    && reads 0x35461DC9 (.blt 20 24 0x1DC9)
    && reads 0x3A42BBDC (.bge 36 10 0x3BDC)
    && reads 0x3C580C24 (.bltn 5 32 0xC24)
    && reads 0x419AF5E2 (.bgen 25 43 0x35E2)
    && reads 0x4448BFDD (.br 0x48BFDD)
    && reads 0x483ABE9B (.call 0x3ABE9B)
    && reads 0x4C05C000 (.jr 23)
    && reads 0x4C058020 (.callr 22)
    && reads 0x4C000040 (.ret) := by
  decide +kernel

/-- R276, R277, R282, R306: scalar memory. -/
theorem test_decode_memory :
    reads 0x532BACEA (.lds 50 46 5 0x4EA)
    && reads 0x55F74688 (.sts 31 29 0 0x688)
    && reads 0x5A0D55AA (.amos 32 53 21 5 1 2)
    && reads 0x5C000004 (.fence 0 4)
    && reads 0x60D40000 (.mwatch 13 16)
    && reads 0x61D6F120 (.mwaitv 29 27 49) := by
  decide +kernel

/-- R155 to R158: the lane queue. -/
theorem test_decode_lane_queue :
    reads 0x640A9137 (.lrun 42 0x1137)
    && reads 0x69C64010 (.lput 92 25)
    && reads 0x69B10008 (.lputW 27 4)
    && reads 0x6B597F30 (.lget 53 101 63)
    && reads 0x6BDC7828 (.lgetW 61 49 56)
    && reads 0x68000040 (.lsync) := by
  decide +kernel

/-- R244 to R258, R285: copies and the matrix engines. -/
theorem test_decode_matrix :
    reads 0x6C269C29 (.tcopy 2 26 28 5 1)
    && reads 0x73D5CB56 (.mloop 61 23 11 true false 5 2)
    && reads 0x7778011D (.mvec 55 32 1 0 7 1)
    && reads 0x78000000 (.mzero 0)
    && reads 0x78000018 (.mzeroRel true 0)
    && reads 0x780EC023 (.mload 59 false 3)
    && reads 0x780FA35C (.mdrain 62 35 7 0)
    && reads 0x78518D60 (.mcvt 5 false 6 13 0)
    && reads 0x7B40008A (.mstat 52 true 2)
    && reads 0x79C00095 (.mstatClr 28 5)
    && reads 0x7C100000 (.mfence 1)
    && reads 0x7C000026 (.mwaitImm 6)
    && reads 0x7C054030 (.mwaitReg 21)
    && reads 0x7C0B0040 (.mready 44) := by
  decide +kernel

/-- R161 to R163: barriers, trigger, exit and yield. -/
theorem test_decode_group :
    reads 0x8001400F (.bar 5 15)
    && reads 0x8003A004 (.barNb 14 4)
    && reads 0x84000000 (.trigger)
    && reads 0x84000020 (.exit)
    && reads 0x84000040 (.yield) := by
  decide +kernel

/-- R321, R322, R328: hardware queues. -/
theorem test_decode_queue :
    reads 0x8983C000 (.qcfg 24 15)
    && reads 0x895AC020 (.qmap 21 43)
    && reads 0x8A500042 (.qlen 37 2)
    && reads 0x8B40006B (.qpeek 52 11)
    && reads 0x89900166 (.qpeekPop 25 6)
    && reads 0x880DC261 (.qpeekPush 55 1)
    && reads 0x89F00085 (.qflush 31 5) := by
  decide +kernel

/-- R159, R160, R164 to R166: allotment, prefetch, system registers and traps. -/
theorem test_decode_system :
    reads 0x8EC60000 (.vgrow 44 24)
    && reads 0x8E530001 (.vgrowW 37 12)
    && reads 0x8DDF8020 (.vshrink 29 62)
    && reads 0x90057617 (.pref 21 3 0x617)
    && reads 0x95D01F5C (.sysrd 29 0x1F5C)
    && reads 0x940475E6 (.syswr 17 0x15E6)
    && reads 0x98000912 (.trap 0x912)
    && reads 0x980019E6 (.brk 0x9E6)
    && reads 0x98002000 (.sigrst) := by
  decide +kernel

/-- R223, R291, R293: pairing, tile stores and storage chains. -/
theorem test_decode_copies :
    reads 0x9D75B800 (.xpair 23 22 56)
    && reads 0xA1E17205 (.tstore 30 5 50 5)
    && reads 0xA715C007 (.storq 49 23 7) := by
  decide +kernel

/-- R170 to R176: the puppet slot. -/
theorem test_decode_puppet :
    reads 0xC0B2C900 (.tkclaimCount 11 11 9)
    && reads 0xC21BD801 (.tkclaimAcq 33 47 24)
    && reads 0xC162F402 (.tkclaimRel 22 11 52)
    && reads 0xC43ED300 (.gplace 3 59 19)
    && reads 0xC77E7401 (.gplaceRel 55 57 52)
    && reads 0xC8356600 (.qslotMap 3 21 38)
    && reads 0xCBC9E701 (.qslotUnmap 60 39 39)
    && reads 0xCB640D02 (.qslotStat 54 16 13)
    && reads 0xCCC50000 (.rcbld 12 20)
    && reads 0xCECFC001 (.rcbldBw 44 63)
    && reads 0xD1E00000 (.evwait 30)
    && reads 0xD2D00001 (.evwaitPoll 45)
    && reads 0xD4000000 (.iret)
    && reads 0xD8C28000 (.opreq 12 10)
    && reads 0xDFBB4000 (.prcmsg 59 45) := by
  decide +kernel

/-- R84: lane integer instructions. -/
theorem test_decode_integer :
    readsLane 0x00580921 (.iadd)
    && readsLane 0x00980921 (.isub)
    && readsLane 0x00D80921 (.imul)
    && readsLane 0x01180921 (.imad)
    && readsLane 0x01580921 (.imulh)
    && readsLane 0x01980921 (.iabs)
    && readsLane 0x01D80921 (.ineg)
    && readsLane 0x02180921 (.imin)
    && readsLane 0x02580921 (.imax)
    && readsLane 0x02980921 (.iand)
    && readsLane 0x02D80921 (.ior)
    && readsLane 0x03180921 (.ixor)
    && readsLane 0x03580921 (.inot)
    && readsLane 0x03980921 (.ishl)
    && readsLane 0x03D80921 (.ishr)
    && readsLane 0x04180921 (.isra)
    && readsLane 0x04580921 (.ibfe)
    && readsLane 0x04980921 (.ibfi)
    && readsLane 0x04D80921 (.ipopc)
    && readsLane 0x05180921 (.iclz)
    && readsLane 0x05580921 (.isel)
    && readsLane 0x05980921 (.imov)
    && readsLane 0x08180921 (.icmp 0)
    && readsLane 0x08580921 (.icmp 1)
    && readsLane 0x08980921 (.icmp 2)
    && readsLane 0x08D80921 (.icmp 3)
    && readsLane 0x09180921 (.icmp 4)
    && readsLane 0x09580921 (.icmp 5) := by
  decide +kernel

/-- R84: lane floating-point and conversion instructions. -/
theorem test_decode_floating :
    readsLane 0x40180921 (.fadd)
    && readsLane 0x40580921 (.fsub)
    && readsLane 0x40980921 (.fmul)
    && readsLane 0x40D80921 (.ffma)
    && readsLane 0x41180921 (.fmin)
    && readsLane 0x41580921 (.fmax)
    && readsLane 0x41980921 (.fabs)
    && readsLane 0x41D80921 (.fneg)
    && readsLane 0x42180921 (.fsel)
    && readsLane 0x42580921 (.fclass)
    && readsLane 0x44180921 (.fcmp 0)
    && readsLane 0x44580921 (.fcmp 1)
    && readsLane 0x44980921 (.fcmp 2)
    && readsLane 0x44D80921 (.fcmp 3)
    && readsLane 0x45180921 (.fcmp 4)
    && readsLane 0x45580921 (.fcmp 5)
    && readsLane 0x45980921 (.fcmp 6)
    && readsLane 0x45D80921 (.fcmp 7)
    && readsLane 0x70180921 (.cvt)
    && readsLane 0x70580921 (.rqnt)
    && readsLane 0x80180921 (.fseed 0)
    && readsLane 0x80580921 (.fseed 1)
    && readsLane 0x80980921 (.fseed 2)
    && readsLane 0x80D80921 (.fseed 3)
    && readsLane 0x81180921 (.frange)
    && readsLane 0x81580921 (.fscale)
    && readsLane 0x81980921 (.fexpo)
    && readsLane 0x81D80921 (.fmant) := by
  decide +kernel

/-- R84: cross-lane instructions. -/
theorem test_decode_cross_lane :
    readsLane 0x90180921 (.lperm)
    && readsLane 0x90580921 (.lrot)
    && readsLane 0x90980921 (.lbcast)
    && readsLane 0x94180921 (.lred 0)
    && readsLane 0x94580921 (.lred 1)
    && readsLane 0x94980921 (.lred 2)
    && readsLane 0x94D80921 (.lred 3)
    && readsLane 0x95180921 (.lred 4)
    && readsLane 0x95580921 (.lred 5)
    && readsLane 0x96180921 (.lscan 0)
    && readsLane 0x96580921 (.lscan 1)
    && readsLane 0x96980921 (.lscan 2)
    && readsLane 0x96D80921 (.lscan 3)
    && readsLane 0x97180921 (.lscan 4)
    && readsLane 0x97580921 (.lscan 5)
    && readsLane 0xA0180921 (.xswap) := by
  decide +kernel

/-- R84: lane loads, stores and watches. -/
theorem test_decode_lane_memory :
    readsLane 0xB0180921 (.ld 0)
    && readsLane 0xB0580921 (.ld 1)
    && readsLane 0xB0980921 (.ld 2)
    && readsLane 0xB0D80921 (.ld 3)
    && readsLane 0xB1180921 (.ld 4)
    && readsLane 0xB1580921 (.ld 5)
    && readsLane 0xB2180921 (.st 0)
    && readsLane 0xB2580921 (.st 1)
    && readsLane 0xB2980921 (.st 2)
    && readsLane 0xB2D80921 (.st 3)
    && readsLane 0xB3180921 (.st 4)
    && readsLane 0xB3580921 (.st 5)
    && readsLane 0xB4180921 (.ldg 0)
    && readsLane 0xB4580921 (.ldg 1)
    && readsLane 0xB4980921 (.ldg 2)
    && readsLane 0xB4D80921 (.ldg 3)
    && readsLane 0xB5180921 (.ldg 4)
    && readsLane 0xB5580921 (.ldg 5)
    && readsLane 0xB6180921 (.stsc 0)
    && readsLane 0xB6580921 (.stsc 1)
    && readsLane 0xB6980921 (.stsc 2)
    && readsLane 0xB6D80921 (.stsc 3)
    && readsLane 0xB7180921 (.stsc 4)
    && readsLane 0xB7580921 (.stsc 5)
    && readsLane 0xC8180921 (.lwatch)
    && readsLane 0xC8580921 (.lwatchW) := by
  decide +kernel

/-- R72, R84: lane atomics by operation and order. -/
theorem test_decode_lane_atomics :
    readsLane 0xB8180921 (.amo 0 0)
    && readsLane 0xB8580921 (.amo 0 1)
    && readsLane 0xB8980921 (.amo 0 2)
    && readsLane 0xB8D80921 (.amo 0 3)
    && readsLane 0xB9180921 (.amo 1 0)
    && readsLane 0xB9580921 (.amo 1 1)
    && readsLane 0xB9980921 (.amo 1 2)
    && readsLane 0xB9D80921 (.amo 1 3)
    && readsLane 0xBA180921 (.amo 2 0)
    && readsLane 0xBA580921 (.amo 2 1)
    && readsLane 0xBA980921 (.amo 2 2)
    && readsLane 0xBAD80921 (.amo 2 3)
    && readsLane 0xBB180921 (.amo 3 0)
    && readsLane 0xBB580921 (.amo 3 1)
    && readsLane 0xBB980921 (.amo 3 2)
    && readsLane 0xBBD80921 (.amo 3 3)
    && readsLane 0xBC180921 (.amo 4 0)
    && readsLane 0xBC580921 (.amo 4 1)
    && readsLane 0xBC980921 (.amo 4 2)
    && readsLane 0xBCD80921 (.amo 4 3)
    && readsLane 0xBD180921 (.amo 5 0)
    && readsLane 0xBD580921 (.amo 5 1)
    && readsLane 0xBD980921 (.amo 5 2)
    && readsLane 0xBDD80921 (.amo 5 3)
    && readsLane 0xBE180921 (.amo 6 0)
    && readsLane 0xBE580921 (.amo 6 1)
    && readsLane 0xBE980921 (.amo 6 2)
    && readsLane 0xBED80921 (.amo 6 3)
    && readsLane 0xBF180921 (.amo 7 0)
    && readsLane 0xBF580921 (.amo 7 1)
    && readsLane 0xBF980921 (.amo 7 2)
    && readsLane 0xBFD80921 (.amo 7 3) := by
  decide +kernel

/-- R84: lane control. -/
theorem test_decode_lane_control :
    readsLane 0xD0180921 (.lbr)
    && readsLane 0xD0580921 (.lbrc)
    && readsLane 0xD0980921 (.ljoin)
    && readsLane 0xD0D80921 (.lend)
    && readsLane 0xD1180921 (.spawn)
    && readsLane 0xD1580921 (.lvote 0)
    && readsLane 0xD1980921 (.lvote 1)
    && readsLane 0xD1D80921 (.lvote 2)
    && readsLane 0xD2180921 (.lsig) := by
  decide +kernel

/-! ### Words that the spec writes out -/

/-- Words of the spec's examples (R72, R149 to R166, R223, R249 to R258, R276, R277, R282, R291, R293, R306, R321, R322, R328). -/
theorem test_worked_words :
    reads 0x0871BFFC (.addi 7 6 0x3FFC) && reads 0x30503FFD (.bne 5 0 0x3FFD) && reads 0x2050FF00 (.ldi 5 0xFF00) && reads 0x24500100 (.ldu 5 0x100)
    && reads 0x6860C010 (.lput 70 3) && reads 0x64024000 (.lrun 9 0) && reads 0x68720220 (.lget 7 8 2) && reads 0x0481C700 (.add 8 7 7)
    && reads 0x8C61C001 (.vgrowW 6 7) && reads 0x6D478C12 (.tcopy 20 30 12 2 2) && reads 0x746504E6 (.mvec 6 20 4 7 1 2)
    && reads 0x78028C40 (.mdrain 10 12 0 0) && reads 0x78038028 (.mload 14 true 0) && reads 0x78040029 (.mload 16 true 1)
    && reads 0x78000001 (.mzero 1) && reads 0x78500081 (.mstat 5 false 1) && reads 0x7C900000 (.mfence 9) && reads 0x7C000023 (.mwaitImm 3)
    && reads 0x7C024030 (.mwaitReg 9) && reads 0x7C000040 (.mready 0) := by
  decide +kernel

theorem test_worked_words_more :
    reads 0x9CA2CC00 (.xpair 10 11 12) && reads 0x88518000 (.qcfg 5 6) && reads 0x88720020 (.qmap 7 8) && reads 0x88900042 (.qlen 9 2)
    && reads 0x88A00160 (.qpeekPop 10 0) && reads 0x8802C260 (.qpeekPush 11 0) && reads 0x88C00080 (.qflush 12 0) && reads 0x50512002 (.lds 5 4 4 2)
    && reads 0x547137FE (.sts 7 4 6 0x7FE) && reads 0x588109F5 (.amos 8 4 9 7 2 5) && reads 0x60510000 (.mwatch 5 4) && reads 0x60518720 (.mwaitv 5 6 7)
    && reads 0xA1559705 (.tstore 21 22 23 5) && reads 0xA5864006 (.storq 24 25 6) && reads 0xC08A0001 (.tkclaimAcq 8 40 0) && reads 0xC08A0002 (.tkclaimRel 8 40 0)
    && reads 0xC9C6DA00 (.qslotMap 28 27 26) && reads 0x96A00441 (.sysrd 42 0x441) && reads 0x94072441 (.syswr 28 0x441)
    && reads 0x5C000014 (.fence 2 4) && reads 0x5C00001E (.fence 3 6) && reads 0x68874008 (.lputW 8 29) && reads 0x47FFFFF5 (.br 0x3FFFFF5) := by
  decide +kernel

/-- R86: `(p2) ffma.f32.rtz.z v4, v5, v6, v7`, and the words of other examples of lane instructions. -/
theorem test_worked_lane :
    decodeLaneWords [0xF55FE000, 0x40D8080A, 0x0C0E0000, 0]
      = some (.ok (.ffma { pre := some { pred := 2, zero := true, rnd := 2, d := 0xFF, low := 0 }, typ := 6, nwb := false, dst := 4, sa := 5, sb := 6, sc := 7,
                           modf := 0, cap := false, latch := 0, mbz := 0, imm := 0 }))
    ∧ decodeLaneWords [0x40D80602, 0x05FD0000, 0x3F800000]
      = some (.ok (.ffma { pre := none, typ := 6, nwb := false, dst := 3, sa := 1, sb := 2, sc := 0xFE, modf := 8, cap := false, latch := 0, mbz := 0, imm := 0x3F800000 }))
    ∧ decodeLaneWords [0x70001211, 0xFFFE0000, 0x00000102]
      = some (.ok (.cvt { pre := none, typ := 0, nwb := false, dst := 9, sa := 8, sb := 0xFF, sc := 0xFF, modf := 0, cap := false, latch := 0, mbz := 0, imm := 0x102 }))
    ∧ decodeLaneWords [0x08814380, 0x09FE0000, 0]
      = some (.ok (.icmp 2 { pre := none, typ := 0, nwb := false, dst := 0xA1, sa := 0xC0, sb := 4, sc := 0xFF, modf := 0, cap := false, latch := 0, mbz := 0, imm := 0 }))
    ∧ decodeLaneWords [0xD201FFFF, 0xFFFE0000, 0xC6EF3513]
      = some (.ok (.lsig { pre := none, typ := 0, nwb := false, dst := 0xFF, sa := 0xFF, sb := 0xFF, sc := 0xFF, modf := 0, cap := false, latch := 0, mbz := 0, imm := 0xC6EF3513 })) := by
  decide +kernel

/-- R70, R72, R85: words that name nothing and reserved codes. -/
theorem test_refused_words :
    decodeScalar 0 = .ok (.unassignedInstruction 0) ∧ decodeScalar 0x04000080 ≠ .ok (.add 0 0 0) ∧ decodeScalar 0xC0000003 = .error .illegalEncoding
    ∧ decodeScalar 0x84000021 = .error .illegalEncoding ∧ (∀ i, decodeScalar 0xF0000000 = .ok i → i = .unassignedInstruction 0xF0000000)
    ∧ decodeLaneWords [0xF55FE000, 0xF55FE000, 0, 0] = some (.error .illegalPrefix) := by
  refine ⟨by decide +kernel, by decide +kernel, by decide +kernel, by decide +kernel, ?_, by decide +kernel⟩
  intro i h
  have : decodeScalar 0xF0000000 = .ok (.unassignedInstruction 0xF0000000) := by decide +kernel
  rw [this] at h
  exact (Except.ok.inj h).symm

/-! ### Fields that the checks refuse -/

/-- What the checks on the fields of an instruction answer. -/
def faults (i : Instr) (e : EncFault) : Bool := decide (encodingFault i = some e) && !i.wellFormed

/-- R69, R72, R244, R250, R276, R277, R285, R291, R306: one ill-formed scalar word for each check, beside the forms at its edge that pass. -/
theorem test_ill_formed_scalar :
    faults (.lds 5 4 7 0) .illegalEncoding && faults (.sts 5 4 1 0) .illegalEncoding && faults (.amos 5 4 6 0 0 0) .illegalEncoding
    && faults (.amos 5 4 6 0 0 7) .illegalEncoding && faults (.fence 0 0) .illegalEncoding && faults (.lputW 3 0) .illegalEncoding
    && faults (.lgetW 3 3 0) .illegalEncoding && faults (.tcopy 5 6 7 2 0) .illegalEncoding && faults (.tcopy 5 6 7 1 1) .illegalEncoding
    && faults (.tcopy 5 57 7 2 2) .illegalEncoding && faults (.mloop 0 8 0 false false 0 0) .illegalEncoding
    && faults (.mloop 0 7 0 false true 0 0) .illegalEncoding && faults (.mvec 0 60 0 0 0 0) .illegalEncoding && faults (.mzero 4) .illegalEncoding
    && faults (.mzeroRel false 4) .illegalEncoding && faults (.mload 3 true 0) .illegalEncoding && faults (.mload 2 false 4) .illegalEncoding
    && faults (.mdrain 1 0 0 0) .illegalEncoding && faults (.mcvt 0 true 4 0 0) .illegalEncoding && faults (.mstat 0 false 4) .illegalEncoding
    && faults (.mstatClr 0 4) .illegalEncoding && faults (.tstore 0 0 0 7) .illegalEncoding && faults (.storq 0 0 1) .illegalEncoding
    && (Instr.lds 5 4 6 0).wellFormed && (Instr.tcopy 5 56 7 2 2).wellFormed && (Instr.mvec 0 58 0 0 0 0).wellFormed
    && !(Instr.unassignedInstruction 0x0871BFFC).wellFormed && (Instr.unassignedInstruction 0).wellFormed := by
  decide +kernel

/-- `iadd.i32 v3, v2, v1`: no check refuses it. -/
def plain : LaneWord :=
  { pre := none, typ := 0, nwb := false, dst := 3, sa := 2, sb := 1, sc := 0xFF, modf := 0, cap := false, latch := 0, mbz := 0, imm := 0 }

/-- A prefix that predicates nothing. -/
def pre : Prefix := { pred := 7, zero := false, rnd := 0, d := 0xFF, low := 0 }

/-- `lend`. -/
def bare : LaneWord := { plain with dst := 0xFF, sa := 0xFF, sb := 0xFF }

/-- R74 to R79: one ill-formed lane instruction for each check on its fields. -/
theorem test_ill_formed_lane :
    (Instr.iadd plain).wellFormed
    && faults (.iadd { plain with mbz := 1 }) .illegalEncoding && faults (.iadd { plain with sa := 0x88 }) .illegalEncoding
    && faults (.iadd { plain with sb := 0xA8 }) .illegalEncoding && faults (.iadd { plain with sc := 0 }) .illegalEncoding
    && faults (.iadd { plain with dst := 0x80 }) .illegalEncoding && faults (.iadd { plain with dst := 0xA7 }) .illegalEncoding
    && faults (.iadd { plain with nwb := true }) .illegalEncoding && faults (.iadd { plain with latch := 1 }) .illegalEncoding
    && faults (.iadd { plain with imm := 1 }) .illegalEncoding && faults (.imulh { plain with modf := 1 }) .illegalEncoding
    && faults (.iadd { plain with typ := 1, modf := 8 }) .illegalEncoding && faults (.iadd { plain with typ := 2 }) .illegalEncoding
    && faults (.iadd { plain with typ := 6 }) .illegalType && faults (.iadd { plain with typ := 10 }) .illegalType
    && (Instr.iadd { plain with typ := 2, dst := 4, sb := 6 }).wellFormed && (Instr.iadd { plain with sb := 0xFE, imm := 1 }).wellFormed
    && faults (.lend { bare with cap := true }) .illegalEncoding && faults (.lend { bare with typ := 1 }) .illegalType && (Instr.lend bare).wellFormed := by
  decide +kernel

/-- R81, R82: the rules of the prefix. -/
theorem test_ill_formed_prefix :
    (Instr.iadd { plain with pre := some pre }).wellFormed
    && faults (.iadd { plain with pre := some { pre with low := 1 } }) .illegalEncoding && faults (.fadd { plain with typ := 6, pre := some { pre with rnd := 7 } }) .illegalEncoding
    && faults (.iadd { plain with pre := some { pre with d := 0 } }) .illegalEncoding && faults (.iadd { plain with pre := some { pre with rnd := 1 } }) .illegalPrefix
    && faults (.st 0 { plain with dst := 0xFF, pre := some { pre with zero := true } }) .illegalPrefix && faults (.lend { bare with pre := some pre }) .illegalPrefix := by
  decide +kernel

/-- R80, R215, R216, R219, R278 to R283: what the descriptions say of the control fields. -/
theorem test_ill_formed_control :
    (Instr.cvt { plain with sb := 0xFF, imm := 0x102 }).wellFormed
    && faults (.cvt { plain with sb := 0xFF, imm := 0x100 }) .illegalEncoding && faults (.cvt { plain with sb := 0xFF, imm := 0x200102 }) .illegalEncoding
    && faults (.rqnt { plain with imm := 0x20 }) .illegalEncoding && faults (.ld 5 { plain with sa := 3, sb := 0xFF }) .illegalEncoding
    && faults (.ld 0 { plain with sb := 0xFF, imm := 0x08000000 }) .illegalEncoding && faults (.ld 0 { plain with sa := 0xFE, sb := 0xFF }) .illegalEncoding
    && faults (.amo 0 0 { plain with imm := 0x01000000 }) .illegalEncoding && faults (.amo 0 0 { plain with modf := 1 }) .illegalEncoding
    && faults (.lwatch { plain with sa := 3, sb := 0xFF }) .illegalEncoding && faults (.lend { bare with imm := 1 }) .illegalEncoding
    && decide (laneFault 3 (.lbr { bare with imm := 0xFFFFFFFD }) = none) && decide (laneFault 3 (.lbr { bare with imm := 0xFFFFFFFC }) = some .illegalEncoding) := by
  decide +kernel

/-- What the step fetches is what was stored: `exit` in a scalar stream, `iadd.i32 v3, v2, v1` in a lane stream and `iret` in the puppet slot. -/
theorem test_table_words :
    decodeTableWord 32 0x84000020 = some .exit ∧ decodeTableWord 32 0xD4000000 = some .iret
    ∧ decodeTableWord 96 (0x00400604 + 2 ^ 32 * 0x03FE0000) = some (.iadd plain) := by
  decide +kernel

end Sys2Proof.Tests
end

