-- ==== Sys2Proof/Tests/Standards.lean ====
section
/-! SUPPORT. The published standards at test vectors of their own documents (log entry 138). -/

namespace Sys2Proof.Machine.Tests

set_option Elab.async false

/-- FIPS 180-4: the digest of "abc". -/
theorem test_sha384_abc : sha384 [0x61, 0x62, 0x63] =
    [203, 0, 117, 63, 69, 163, 94, 139, 181, 160, 61, 105, 154, 198, 80, 7, 39, 44, 50, 171,
     14, 222, 209, 99, 26, 139, 96, 90, 67, 255, 91, 237, 128, 134, 7, 43, 161, 231, 204, 35, 88, 186, 236, 161, 52, 200, 37, 167] := by
  decide +kernel
/-- RFC 1951: a block of fixed codes with a copy from one byte back. -/
theorem test_inflate_fixed : inflate [75, 76, 132, 130, 36, 0] = (List.replicate 9 0x61 ++ [0x62], true) := by
  decide +kernel
/-- LZ4 block format: three literals, a copy of nine from three back, one literal. -/
theorem test_lz4_overlap : lz4 [0x35, 1, 2, 3, 3, 0, 0x10, 9] = ([1, 2, 3, 1, 2, 3, 1, 2, 3, 1, 2, 3, 9], true) := by
  decide +kernel

/-- FIPS 197, 5.1.1: the substitution of one byte, both ways. -/
theorem test_aes_sub : aesSub 0x53 = 0xed ∧ aesInvSub 0xed = 0x53 := by decide +kernel
/-- FIPS 197, appendix B, round 1: the first column after MixColumns. -/
theorem test_aes_mix : (aesMix [2, 3, 1, 1] ([0xd4, 0xbf, 0x5d, 0x30] ++ List.replicate 12 0)).take 4 = [0x04, 0x66, 0x81, 0xe5] := by
  decide +kernel

end Sys2Proof.Machine.Tests
end

