-- ==== Sys2Proof/Tests/Worlds.lean ====
section
/-! SUPPORT. Small states for tests and witnesses: a partition of slice 0 whose first GiB is mapped onto itself, with one group and
one agent. -/

namespace Sys2Proof.Machine.Tests

-- One theorem after another: a file of closed evaluations needs no more than one thread.
set_option Elab.async false

/-- The ASID of the partition's agents; the group uses it too. -/
abbrev asid : W16 := Config.rootAsid 0

/-- The page tables: an ASID directory at 0x80000, the root table at 0x200000, and below it one page of 1 GiB at address 0. -/
def tables : Memory :=
  [(0x80000 + 8 * asid.toNat, 0x01), (0x80000 + 8 * asid.toNat + 2, 0x20), (0x200000, 0x01), (0x200002, 0x30), (0x300000, 0x1F)]

/-- The partition's core 0 with a group in slot 0. -/
abbrev c0 : CoreRef := ⟨0, 0⟩
/-- The group in slot 0 of core 0. -/
abbrev g0 : GroupRef := ⟨0, 0, 0⟩
/-- The group in slot 1 of core 0. -/
abbrev g1 : GroupRef := ⟨0, 0, 1⟩

/-- The group of the tests: it owns the matrix registers, with 16 vector registers. -/
def group : Group := { st := .active, grid := 1, wg := 1, nreg := 16 }
/-- Its workgroup. -/
def workgroup : Workgroup := { grid := 1, idx := 0, groups := 1, spadLen := 0x10000, lpLen := 64, matrix := true }
/-- The grid. -/
def grid : Grid := { asid := asid, claimed := 1, live := 1 }
/-- Core 0. -/
def core : Core :=
  { groups := [(0, group)], wgs := [(1, workgroup)], puppet := { running := true }, deficits := [(0, { bound := true, weight := 1, deficit := 1 })] }
/-- Slice 0: its page tables in force. -/
def slice : Slice := { cores := [(0, core)], held := false, hostHeld := false, regs := [(0x760, 0x80000)] }
/-- The root controller: partition 0 has slice 0 and a lease of 256 ptick. -/
def prc : Prc := { regs := [(0x840, 0x0000000002100101)] }

/-- The module, with bytes above the tables. -/
def world (m : Memory) : State :=
  { State.reset with now := 1000, mem := tables ++ m, slices := [(0, slice)], prc := prc, grids := [(1, grid)], nextId := 2 }

/-- A state in which virtual addresses below 1 GiB are physical ones for partition 0. -/
structure Mapped (s : State) : Prop where
  members : s.memberSlices 0 = [0]
  base : s.sliceReg 0 0x760 = 0x80000
  dir : s.tableEntry (0x80000 + 8 * asid.toNat) = 0x200001
  root : s.tableEntry 0x200000 = 0x300001
  leaf : s.tableEntry 0x300000 = 31
  lines : ∀ l e, (s.slice 0).lineOf (lineKey asid l) = some e → e.1 = l ∧ e.2.hc = false

theorem member_zero {s : State} (h : s.memberSlices 0 = [0]) : s.member 0 0 = true :=
  (List.mem_filter.mp (h ▸ List.mem_singleton_self (0 : SliceId) : (0 : SliceId) ∈ s.memberSlices 0)).2

theorem partOf_zero {s : State} (h : s.memberSlices 0 = [0]) : s.partOf 0 = some 0 := by
  have e : allParts = (0 : PartId) :: allParts.tail := by decide
  rw [State.partOf, e]
  exact List.find?_cons_of_pos (by exact member_zero h)

theorem dir_mapped {s : State} (h : Mapped s) : s.asidDir 0 = 0x80000 := by
  have d : bitsOf (0x80000 : Word) 55 19 * 2 ^ 19 = 0x80000 := by decide
  simp only [State.asidDir, partOf_zero h.members, h.members, List.all_cons, List.all_nil, beq_self_eq_true, Bool.true_and, if_true, h.base, d]

/-- A die that holds no line, or one line where its name is mapped. -/
theorem lines_none {k : Slice} (h : k.l2 = []) : ∀ l e, k.lineOf (lineKey asid l) = some e → e.1 = l ∧ e.2.hc = false :=
  fun l e he => by simp [Slice.lineOf, h] at he

theorem lines_one {k : Slice} {pl : Nat} {x : L2Line} (h : k.l2 = [(pl, x)]) (hk : x.key = lineKey asid pl) (hc : x.hc = false) :
    ∀ l e, k.lineOf (lineKey asid l) = some e → e.1 = l ∧ e.2.hc = false := by
  intro l e he
  rw [Slice.lineOf, h, List.find?_singleton, hk] at he
  split at he
  · rename_i heq
    obtain rfl := Option.some.inj he
    exact ⟨Nat.add_left_cancel (eq_of_beq heq), hc⟩
  · cases he

theorem walk_mapped {s : State} (h : Mapped s) (va : Nat) (hv : va < 2 ^ 30) : s.walk 0 asid va = some (va, 31) := by
  have e1 : va / 2 ^ 39 % 131072 = 0 := by omega
  have e2 : va / 2 ^ 30 % 512 = 0 := by omega
  have e3 : va % 2 ^ 30 = va := by omega
  have d2 : bitsOf (0x200001 : Word) 47 20 * 2 ^ 20 = 0x200000 := by decide
  have d3 : entryPa 0x300001 = 0x300000 := by decide
  simp only [State.walk, dir_mapped h, h.dir, d2]
  simp only [State.walkFrom, e1, Nat.mul_zero, Nat.add_zero, h.root, if_true, d3]
  have e2' : va / 2 ^ (12 + 9 * 2) % 512 = 0 := e2
  simp only [e2']
  simp (decide := true) [h.leaf, entryBad, bitAt]
  have e4 : entryPa (31#64) = 0 := by decide
  simp only [e4, Nat.zero_add]
  exact e3

/-- Every address of the partition below 1 GiB has a translation: the physical address that is the virtual one. -/
theorem translate_mapped {s : State} (h : Mapped s) (va : Word) (hv : va.toNat < 2 ^ 30) (k : Nat) : s.translate 0 asid va k = .ok va.toNat false := by
  have hm : s.member 0 0 = true := member_zero h.members
  have ht : targetOf va.toNat = .hbm 0 := by
    have h1 : va.toNat / 2 ^ 40 = 0 := by omega
    have h2 : va.toNat / 2 ^ 37 = 0 := by omega
    simp only [targetOf, h1, h2, if_true]
    rfl
  have ha : kindAllowed 31 k = true := by
    simp only [kindAllowed]
    split_ifs <;> rfl
  simp only [State.translate, home_of_one s 0 _ h.members, walk_mapped h _ hv, ha, State.dykePass, ht, State.dykeCross, hm, Bool.true_or, if_true]
  rfl

/-- Every access of the partition below 1 GiB is allowed at that address. -/
theorem reach_mapped {s : State} (h : Mapped s) (va : Word) (hv : va.toNat < 2 ^ 30) (k : Nat) : s.reach 0 asid va k = .ok va.toNat false := by
  simp only [State.reach, home_of_one s 0 _ h.members]
  split
  · rename_i pl x e
    obtain ⟨h1, h2⟩ := h.lines _ _ e
    simp only at h1 h2
    rw [h1, h2, Nat.div_add_mod']
  · exact translate_mapped h va hv k

theorem memGet_append (m n : Memory) (i : Nat) (h : ∀ e ∈ m, e.1 ≠ i) : memGet (m ++ n) i = memGet n i := by
  induction m with
  | nil => rfl
  | cons e m ih =>
    have h1 : i ≠ e.1 := fun x => h e (by simp) x.symm
    simp only [List.cons_append, memGet, h1, if_false]
    exact ih fun e he => h e (by simp [he])

theorem memGet_low (m : Memory) (h : ∀ e ∈ m, 0x400000 ≤ e.1) (i : Nat) (hi : i < 0x400000) : memGet (tables ++ m) i = memGet tables i := by
  have hm : memGet m i = memDefault := by
    induction m with
    | nil => rfl
    | cons e m ih =>
      have := h e (by simp)
      have h1 : i ≠ e.1 := by omega
      simp only [memGet, h1, if_false]
      exact ih fun e he => h e (by simp [he])
  have key : ∀ t : Memory, memGet (t ++ m) i = memGet t i := by
    intro t
    induction t with
    | nil => exact hm
    | cons e t ih => simp only [List.cons_append, memGet, ih]
  exact key tables

theorem asid_lt : asid.toNat < 65536 := asid.isLt

/-- A state whose memory begins with the tables, and holds nothing else below 4 MiB, is mapped when its slice says so. -/
theorem mapped_of (s : State) (m : Memory) (hm : s.mem = tables ++ m) (h : ∀ e ∈ m, 0x400000 ≤ e.1) (hs : s.memberSlices 0 = [0])
    (hb : s.sliceReg 0 0x760 = 0x80000) (hl : ∀ l e, (s.slice 0).lineOf (lineKey asid l) = some e → e.1 = l ∧ e.2.hc = false := by exact lines_none rfl) : Mapped s := by
  have ha := asid_lt
  have get (i : Nat) (hi : i < 0x400000) : memGet s.mem i = memGet tables i := by rw [hm]; exact memGet_low m h i hi
  have entry (a : Nat) (h8 : a + 8 ≤ 0x400000) : s.tableEntry a = BitVec.ofNat 64 (memReadLE tables a 8) := by
    simp only [State.tableEntry, memReadLE, memRead]
    rw [get _ (by omega), get _ (by omega), get _ (by omega), get _ (by omega), get _ (by omega), get _ (by omega), get _ (by omega), get _ (by omega)]
  have h0 (j : Nat) (hj : j < 8) : memGet tables (0x80000 + 8 * asid.toNat + j) = if j = 0 then 0x01 else if j = 2 then 0x20 else 0 := by
    simp only [tables, memGet]
    split_ifs <;> first | rfl | (exfalso; omega)
  have h1 (j : Nat) (hj : j < 8) : memGet tables (0x200000 + j) = if j = 0 then 0x01 else if j = 2 then 0x30 else 0 := by
    simp only [tables, memGet]
    split_ifs <;> first | rfl | (exfalso; omega)
  have h2 (j : Nat) (hj : j < 8) : memGet tables (0x300000 + j) = if j = 0 then 0x1F else 0 := by
    simp only [tables, memGet]
    split_ifs <;> first | rfl | (exfalso; omega)
  have list (a : Nat) : memRead tables a 8 = (List.range 8).map fun j => memGet tables (a + j) := by
    simp [memRead, List.range_succ, Nat.add_assoc]
  refine ⟨hs, hb, ?_, ?_, ?_, hl⟩
  · rw [entry _ (by omega), memReadLE, list, List.map_congr_left fun j hj => h0 j (List.mem_range.mp hj)]
    decide
  · rw [entry _ (by omega), memReadLE, list, List.map_congr_left fun j hj => h1 j (List.mem_range.mp hj)]
    decide
  · rw [entry _ (by omega), memReadLE, list, List.map_congr_left fun j hj => h2 j (List.mem_range.mp hj)]
    decide

/-- The state has the root controller and the first slice's registers of `world`. -/
theorem members_of {s : State} (h : s.prc = prc) : s.memberSlices 0 = [0] := by
  have : s.member 0 = ({ State.reset with prc := prc } : State).member 0 := by
    funext i
    simp only [State.member, State.partValid, State.pmap, State.prcReg, h]
  rw [State.memberSlices, this]
  decide +kernel

theorem base_of {s : State} (h : (s.slice 0).regs = slice.regs) : s.sliceReg 0 0x760 = 0x80000 := by
  simp only [State.sliceReg, h]
  decide +kernel

/-- Above the tables the memory is what was put there. -/
theorem memGet_high (m : Memory) (i : Nat) (hi : 0x400000 ≤ i) : memGet (tables ++ m) i = memGet m i := by
  refine memGet_append tables m i fun e he => ?_
  have ha := asid_lt
  simp only [tables, List.mem_cons, List.mem_nil_iff, or_false] at he
  rcases he with h | h | h | h | h <;> subst h <;> simp only <;> omega

theorem memRead_high (m : Memory) (n : Nat) : ∀ a, 0x400000 ≤ a → memRead (tables ++ m) a n = memRead m a n := by
  induction n with
  | zero => intros; rfl
  | succ n ih => intro a h; simp only [memRead, memGet_high m a h, ih (a + 1) (by omega)]

/-- What a read of HBM above the tables finds. -/
theorem hbmRead_high {s : State} {m : Memory} (hm : s.mem = tables ++ m) (a n : Nat) (h : 0x400000 ≤ a) : s.hbmRead a n = BitVec.ofNat 64 (memReadLE m a n) := by
  simp only [State.hbmRead, memReadLE, hm, memRead_high m n a h]

/-! ### What agents and engines meet there -/

theorem top_low (va : Word) (h : va.toNat < 2 ^ 30) : bitsOf va 63 56 = 0 ∧ bitsOf va 55 48 = 0 := by
  simp only [bitsOf, Nat.shiftRight_eq_div_pow]
  omega

theorem placeOf_low (s : State) (a : Agent) (id : W16) (l : Option Nat) (va : Word) (h : va.toNat < 2 ^ 30) : s.placeOf a id l va = .global id va := by
  have := top_low va h
  simp [State.placeOf, this.1, this.2]

theorem isGlobal_low (va : Word) (h : va.toNat < 2 ^ 30) : isGlobal va := by
  have := top_low va h
  exact ⟨this.1, by omega⟩

/-- An engine of partition 0. -/
def eng (a : Agent) : EngId := { a := a, part := 0, asid := asid }

theorem engPlace_low (s : State) (a : Agent) (va : Nat) (h : va < 2 ^ 30) :
    s.engPlace (eng a) (BitVec.ofNat 64 va) = .global asid (BitVec.ofNat 64 va) := by
  have : (BitVec.ofNat 64 va).toNat < 2 ^ 30 := by simp only [BitVec.toNat_ofNat]; omega
  simp only [State.engPlace, eng, placeOf_low s a asid none _ this]

theorem reach_nat {s : State} (h : Mapped s) (va : Nat) (hv : va < 2 ^ 30) (k : Nat) : s.reach 0 asid (BitVec.ofNat 64 va) k = .ok va false := by
  have e : (BitVec.ofNat 64 va).toNat = va := by simp only [BitVec.toNat_ofNat]; omega
  rw [reach_mapped h _ (by omega), e]

theorem meetAll_mapped {s : State} (h : Mapped s) (hp : s.poison = []) (a : Agent) (k : Nat) (fuel : Nat) :
    ∀ va n, va + n ≤ 2 ^ 30 → s.meetAll (eng a) k (lineRuns va fuel n) = .ok := by
  induction fuel with
  | zero => intros; rfl
  | succ f ih =>
    intro va n hv
    match n with
    | 0 => rfl
    | n + 1 =>
      have hva : va < 2 ^ 30 := by omega
      have : s.meetRun (eng a) k va (min (n + 1) (64 - va % 64)) = .ok := by
        simp only [State.meetRun, engPlace_low s a va hva]
        simp [eng, reach_nat h va hva, State.poisoned, hp]
      simp only [lineRuns, State.meetAll, this]
      exact ih _ _ (by omega)

/-- An engine's access below 1 GiB meets nothing. -/
theorem meet_mapped {s : State} (h : Mapped s) (hp : s.poison = []) (a : Agent) (k : Nat) (va : Word) (n : Nat) (hv : va.toNat + n ≤ 2 ^ 30) :
    s.meet (eng a) k va n = .ok := meetAll_mapped h hp a k _ _ _ hv

theorem meetBoth_mapped {s : State} (h : Mapped s) (hp : s.poison = []) (a : Agent) (va : Word) (n : Nat) (hv : va.toNat + n ≤ 2 ^ 30) :
    s.meetBoth (eng a) va n = .ok := by
  simp only [State.meetBoth, meet_mapped h hp a _ va n hv]

theorem memRead_add (m : Memory) (a x y : Nat) : memRead m a (x + y) = memRead m a x ++ memRead m (a + x) y := by
  induction x generalizing a with
  | zero => simp [memRead]
  | succ x ih => rw [Nat.succ_add]; simp only [memRead, List.cons_append, ih]; congr 3; omega

theorem bytes_mapped {s : State} (h : Mapped s) (a : Agent) (k : Nat) (fuel : Nat) :
    ∀ va n, va + n ≤ 2 ^ 30 → va % 64 + n ≤ 64 * fuel → (lineRuns va fuel n).flatMap (fun r => s.runBytes (eng a) k r.1 r.2) = memRead s.mem va n := by
  induction fuel with
  | zero =>
    intro va n _ hn
    obtain rfl : n = 0 := by omega
    rfl
  | succ f ih =>
    intro va n hv hn
    match n with
    | 0 => rfl
    | n + 1 =>
      have hva : va < 2 ^ 30 := by omega
      have hrun : ∀ m, s.runBytes (eng a) k va m = memRead s.mem va m := by
        intro m
        have ht : targetOf va = .hbm 0 := by
          have h1 : va / 2 ^ 40 = 0 := by omega
          have h2 : va / 2 ^ 37 = 0 := by omega
          simp only [targetOf, h1, h2, if_true]
          rfl
        have hr := reach_nat h va hva k
        simp only [State.runBytes, engPlace_low s a va hva]
        simp only [eng, hr, ht]
      simp only [lineRuns, List.flatMap_cons, hrun]
      by_cases hf : n + 1 ≤ 64 - va % 64
      · have e1 : min (n + 1) (64 - va % 64) = n + 1 := by omega
        have e0 : ∀ va f, lineRuns va f 0 = [] := by intro va f; cases f <;> rfl
        simp only [e1, Nat.sub_self, e0, List.flatMap_nil, List.append_nil]
      · obtain ⟨k', hk'⟩ : ∃ k', k' = 64 - va % 64 := ⟨_, rfl⟩
        have e1 : min (n + 1) (64 - va % 64) = k' := by omega
        have e2 : n + 1 = k' + (n + 1 - k') := by omega
        rw [e1, ih (va + k') (n + 1 - k') (by omega) (by omega), ← memRead_add, ← e2]

/-- The bytes that an engine reads below 1 GiB are those of HBM. -/
theorem engBytes_mapped {s : State} (h : Mapped s) (a : Agent) (k : Nat) (va : Word) (n : Nat) (hv : va.toNat + n ≤ 2 ^ 30) :
    s.engBytes (eng a) k va n = memRead s.mem va.toNat n := bytes_mapped h a k _ _ _ hv (by omega)

theorem engWords_mapped {s : State} (h : Mapped s) (a : Agent) (k : Nat) (va : Word) (n : Nat) (hv : va.toNat + 4 * n ≤ 2 ^ 30) :
    s.engWords (eng a) k va n = bytesToWords n (memRead s.mem va.toNat (4 * n)) := by
  rw [State.engWords, engBytes_mapped h a k va _ hv]

end Sys2Proof.Machine.Tests
end

