-- ==== Sys2Proof/Tests/Witness1.lean ====
section
/-! SUPPORT. Witnesses for the statements about words, steps, the scalar side and memory: for each, a state and operands that meet its hypotheses,
clause by clause. -/

namespace Sys2Proof.Machine.Tests

-- One theorem after another: a file of closed evaluations needs no more than one thread.
set_option Elab.async false

/-- The scalar stream of the group executes. -/
def inG (s : State) : State := { s with cur := .scalar g0 }
/-- The puppet slot executes. -/
def inP (s : State) : State := { s with cur := .puppet c0 }

/-- With no pending register every word may issue. -/
theorem canIssue_of {s : State} (h : s.inScalar) (hp : (s.scOf s.cur).pend = 0) (hl : (s.scOf s.cur).loadPend = 0) (r d : List (BitVec 6)) : s.canIssue r d := by
  refine ⟨h, ?_, ?_, ?_⟩ <;> intros <;> simp [hp, hl]

theorem inG_world (r d : List (BitVec 6)) (m : Memory) : (inG (world m)).canIssue r d :=
  canIssue_of (by trivial) rfl rfl r d

theorem inP_world (r d : List (BitVec 6)) (m : Memory) : (inP (world m)).canIssue r d :=
  canIssue_of (by trivial) rfl rfl r d

/-! ### Words, decoding and steps -/

theorem witness_ScalarWordsRoundTrip : (Instr.addi 7 6 0x3FFC).wellFormed = true ∧ encodeScalar (.addi 7 6 0x3FFC) = some 0x0871BFFC ∧ decodeScalar 0x84000020 = .ok .exit := by
  decide +kernel

theorem witness_LaneWordsRoundTrip : (laneOpcode (.lend ⟨none, 0, false, 0xFF, 0xFF, 0xFF, 0xFF, 0, false, 0, 0, 0⟩)).isSome = true
    ∧ decodeLaneWords [0xD201FFFF, 0xFFFE0000, 0xC6EF3513]
        = some (.ok (.lsig ⟨none, 0, false, 0xFF, 0xFF, 0xFF, 0xFF, 0, false, 0, 0, 0xC6EF3513⟩)) := by
  decide +kernel

/-- A scalar word, a puppet word and a word with a reserved code placed for the next step. -/
theorem witness_StepRunsScalarWord :
    (∃ rest, (State.reset.withFetchWord 32 0x84000020).schedule = ⟨0, .scalar firstGroup⟩ :: rest)
    ∧ (let s' := ({ State.reset.withFetchWord 32 0x84000020 with schedule := [] }).passTime 0
       s'.scalarMay (.scalar firstGroup) = true ∧ s'.fetchAt (.scalar firstGroup) (codeAddr (s'.scOf (.scalar firstGroup)).spc) = some 0x84000020
        ∧ decodeScalar 0x84000020 = .ok .exit)
    ∧ (∃ rest, (State.reset.withFetchWord 32 0xD4000000).schedule = ⟨0, .puppet firstCore⟩ :: rest)
    ∧ (let s' := ({ State.reset.withFetchWord 32 0xD4000000 with schedule := [] }).passTime 0
       s'.scalarMay (.puppet firstCore) = true ∧ s'.fetchAt (.puppet firstCore) (codeAddr (s'.scOf (.puppet firstCore)).spc) = some 0xD4000000
        ∧ decodeScalar 0xD4000000 = .ok .iret)
    ∧ (let s' := ({ State.reset.withFetchWord 32 0x84000021 with schedule := [] }).passTime 0
       s'.scalarMay (.scalar firstGroup) = true ∧ s'.fetchAt (.scalar firstGroup) (codeAddr (s'.scOf (.scalar firstGroup)).spc) = some 0x84000021
        ∧ decodeScalar 0x84000021 = .error .illegalEncoding) := by
  refine ⟨⟨[], by decide +kernel⟩, by decide +kernel, ⟨[], by decide +kernel⟩, by decide +kernel, by decide +kernel⟩

/-- `imov.i32 v3, v2` placed for the next step, and an event. -/
def laneWord : Nat := 0x05800605 + 2 ^ 32 * 0xFFFE0000

theorem witness_StepRunsLaneAndEvent :
    (∃ rest, (State.reset.withFetchWord 96 laneWord).schedule = ⟨0, .lane firstGroup⟩ :: rest)
    ∧ (let s' := ({ State.reset.withFetchWord 96 laneWord with schedule := [] }).passTime 0
       let w : LaneWord := ⟨none, 0, false, 3, 2, 0xFF, 0xFF, 0, false, 0, 0, 0⟩
       s'.laneMay firstGroup = true ∧ (s'.group firstGroup).block.isSome = true ∧ (s'.group firstGroup).candidates = [0]
        ∧ ((s'.group firstGroup).split 0).wait ≠ .fetch ∧ s'.laneFetch firstGroup 0 = .ok [0x05800605, 0xFFFE0000, 0]
        ∧ decodeLaneWords [0x05800605, 0xFFFE0000, 0] = some (.ok (.imov w))
        ∧ (match exec (.imov w) { s' with cur := .lane firstGroup 0, word := leadWord [0x05800605, 0xFFFE0000, 0] } with
           | .next t => s'.laneWentOn t firstGroup && s'.laneWentOn (t.laneHasIssued firstGroup 0 (s'.group firstGroup) (.imov w)) firstGroup
           | _ => false) = true)
    ∧ State.reset.schedule = [] := by
  refine ⟨⟨[], by decide +kernel⟩, by decide +kernel, rfl⟩

/-! ### The scalar side -/

/-- For the statements whose only hypothesis is that the word issues: the group of `world` and the puppet slot, for every source and destination. -/
theorem witness_ScalarArithmetic_ScalarImmediates_ScalarTransfers (r d : List (BitVec 6)) :
    (inG (world [])).canIssue r d ∧ (inP (world [])).canIssue r d := ⟨inG_world r d [], inP_world r d []⟩

theorem witness_GroupFaultsOfWords : (inG (world [])).cur = .scalar g0 ∧ ((inG (world [])).group g0).faultCode = 0 := by decide +kernel

theorem witness_PuppetFaultEntry : (inP (world [])).cur = .puppet c0 := rfl

/-- The queue with room, and one with 16 entries; `v15` is the last register, `v14` and `v15` the last pair. -/
theorem witness_LaneQueueWords :
    (inG (world [])).cur = .scalar g0 ∧ (inG (world [])).canIssue [5, 60, 61, 62] [] ∧ (inG (world [])).canIssue [5] [6]
    ∧ (15 : BitVec 7).toNat < ((inG (world [])).group g0).nreg ∧ (14 : BitVec 7).toNat % 2 = 0 ∧ (14 : BitVec 7).toNat + 1 < ((inG (world [])).group g0).nreg
    ∧ ((inG (world [])).group g0).lq.length < 16
    ∧ ¬(((inG (world [])).modGroup g0 fun v => { v with lq := List.replicate 16 .sigrst }).group g0).lq.length < 16
    ∧ ((inG (world [])).group g0).lq = [] ∧ ((inG (world [])).group g0).block = none :=
  ⟨rfl, inG_world _ _ _, inG_world _ _ _, by decide +kernel, by decide, by decide +kernel, by decide +kernel, by decide +kernel, by decide +kernel, by decide +kernel⟩

/-- The group with lane-queue entries. -/
def queued (es : List LaneEntry) : State := (world []).modGroup g0 fun v => { v with lq := es }

theorem witness_LaneQueueEntriesTaken (e : LaneEntry) :
    ((queued [e]).group g0).st = .active ∧ ((queued [e]).group g0).block = none ∧ ((queued [e]).group g0).sc.memq = [] ∧ ((queued [e]).group g0).lq = e :: [] := by
  refine ⟨rfl, rfl, rfl, rfl⟩

/-- A group whose lanes wait while four splits hold the records, split 1 the longest; and one whose split 0 joins. -/
def starved : Group :=
  { group with
    laneN := 4196, freedN := 100, waiting := [(4, 9), (5, 9), (6, 30)], block := some { addr := 0, mask := 127, rnd := 1 },
    splits := [(0, { used := true, mask := 1, pc := 5, taken := 90 }), (1, { used := true, mask := 2, pc := 6, taken := 7 }),
               (2, { used := true, mask := 4, pc := 7, taken := 100 }), (3, { used := true, mask := 8, pc := 8, taken := 7 })] }

theorem witness_SplitStarvationAndJoin :
    let v := starved
    v.freedN + 4096 ≤ v.laneN ∧ (∀ j, j < 4 → (v.split j).used = true ∧ (v.split j).atEnd = false)
    ∧ (∀ i j, i < 4 → j < 4 → i ≠ j → (v.split i).pc ≠ (v.split j).pc) ∧ (∀ j l, j < 4 → tabFind v.waiting l ≠ some (v.split j).pc)
    ∧ (∃ l, tabFind v.waiting l = some 9) ∧ (∀ e ∈ v.waiting, e.1 < 96 ∧ (9 : BitVec 24) ≤ e.2)
    ∧ (∀ j, j < 4 → j ≠ 1 → (v.split 1).taken < (v.split j).taken ∨ (v.split 1).taken = (v.split j).taken ∧ 1 < j)
    ∧ (let v := starved.modSplit 0 fun x => { x with join := some 100 }
       (v.split 0).used = true ∧ (v.split 0).join = some 100 ∧ 100 + 4096 ≤ v.laneN ∧ (v.split 0).atEnd = false ∧ v.heldOf 0 = none) := by
  have far : ∀ i, i < 4 → ∀ j, j < 4 → i ≠ j → (starved.split i).pc ≠ (starved.split j).pc := by decide
  refine ⟨by decide, by decide, fun i j hi hj => far i hi j hj, ?_, ⟨4, by decide⟩, by decide, by decide, by decide⟩
  intro j l hj h
  have hw : ∀ l, tabFind starved.waiting l = some 9 ∨ tabFind starved.waiting l = some 30 ∨ tabFind starved.waiting l = none := by
    intro l
    simp only [starved, tabFind]
    split_ifs <;> simp
  have hp : ∀ j, j < 4 → (starved.split j).pc ≠ 9 ∧ (starved.split j).pc ≠ 30 := by decide
  rcases hw l with e | e | e <;> rw [e] at h
  · exact (hp j hj).1 (Option.some.inj h).symm
  · exact (hp j hj).2 (Option.some.inj h).symm
  · cases h

/-! ### Scalar memory -/

theorem witness_ScalarAccessesSent :
    (∀ r d, (inG (world [])).canIssue r d) ∧ isGlobal 0 ∧ isGlobal 0x00FEFFFFFFFFFFF8 ∧ (inG (world [])).l1Line (agentCore (inG (world [])).cur) ((inG (world [])).agentAsid (inG (world [])).cur) 0 = none :=
  ⟨fun r d => inG_world r d [], ⟨by decide, by decide⟩, ⟨by decide, by decide⟩, rfl⟩

/-- `s5` holds an address in the core scratchpad window: its first byte, and its last eight. -/
def spadAt (x : Word) : State := inG ((world []).modGroup g0 fun v => { v with sc := { v.sc with s := [(5, x)] } })

theorem witness_ScratchpadAccesses :
    (∀ x r d, (spadAt x).canIssue r d) ∧ (spadAt 0).cur = .scalar g0 ∧ (spadAt 0).wgOf g0 = some workgroup ∧ ((spadAt 0).group g0).sc.memq = [] ∧ ((spadAt 0).group g0).loose = []
    ∧ (spadAt 0).injectorOff ∧ workgroup.spadLen ≤ 0x80000
    ∧ (let va := scalarAddr ((spadAt 0x00FF000000000000).sreg 5) 6 0
       0x00FF000000000000 ≤ va.toNat ∧ va.toNat - 0x00FF000000000000 + 8 ≤ workgroup.spadLen)
    ∧ (let va := scalarAddr ((spadAt 0x00FF00000000FFF8).sreg 5) 6 0
       0x00FF000000000000 ≤ va.toNat ∧ va.toNat - 0x00FF000000000000 + 8 = workgroup.spadLen)
    ∧ (let va := alignTo 8 ((spadAt 0x00FF00000000FFFF).sreg 5)
       0x00FF000000000000 ≤ va.toNat ∧ va.toNat - 0x00FF000000000000 + 8 = workgroup.spadLen) := by
  refine ⟨fun x r d => canIssue_of (by trivial) rfl rfl r d, rfl, by decide +kernel, by decide +kernel, by decide +kernel, ?_, by decide, by decide +kernel, by decide +kernel, by decide +kernel⟩
  unfold State.injectorOff
  decide +kernel

/-- The group has one access in flight. -/
def inFlight (o : MemOp) : State := (world []).modGroup g0 fun v => { v with sc := { v.sc with memq := [o] } }

theorem inFlight_mapped (o : MemOp) : Mapped (inFlight o) := mapped_of _ [] rfl (by simp) (members_of rfl) (base_of rfl)

/-- A load, a store and an atomic at address 0x1000. -/
theorem witness_AccessesPerformedAtHome (kind : AccKind) (hk : kind = .load ∨ kind = .store ∨ kind = .amo 0 true) :
    let x : LaneAcc := { lane := 0, place := .global asid 0x1000 }
    let o : MemOp := { id := 1, kind := kind, width := 8, accs := [x], dest := if kind = .store then .none else .sreg 5 }
    let s := inFlight o
    (s.scOf (fetcherAgent (.scalar g0))).memq = [o] ∧ s.unparked (.scalar g0) o = [x] ∧ s.reach (s.agentPart (.scalar g0)) asid 0x1000 o.kind.code = .ok 0x1000 false
    ∧ targetOf 0x1000 = .hbm 0 ∧ s.poisoned 0x1000 8 (o.kind = .store) = false ∧ s.injectorOff
    ∧ s.homeOpen (.scalar g0) (s.home (s.agentPart (.scalar g0)) ((0x1000 : Word).toNat / 64)).1 = true := by
  intro x o s
  refine ⟨rfl, ?_, reach_mapped (inFlight_mapped o) 0x1000 (by decide) _, by decide, ?_, ?_, ?_⟩
  · rcases hk with h | h | h <;> subst h <;> rfl
  · rcases hk with h | h | h <;> subst h <;> rfl
  · rcases hk with h | h | h <;> subst h <;> unfold State.injectorOff <;> decide +kernel
  · have : (s.home (s.agentPart (.scalar g0)) ((0x1000 : Word).toNat / 64)).1 = 0 := home_of_one s 0 _ (inFlight_mapped o).members
    rw [this]
    rfl

end Sys2Proof.Machine.Tests
end

