-- ==== Sys2Proof/Tests/Witness2.lean ====
section
/-! SUPPORT. Witnesses for the statements about fences, watches, memory, queues, barriers, the register pool, the puppet slot and system registers. -/

namespace Sys2Proof.Machine.Tests

-- One theorem after another: a file of closed evaluations needs no more than one thread.
set_option Elab.async false

/-- The world with the group changed, its scalar stream executing. -/
def gw (f : Group → Group) : State := inG ((world []).modGroup g0 f)
/-- The world with the puppet slot changed, which executes. -/
def pw (f : Puppet → Puppet) : State := inP ((world []).modPuppet c0 f)
/-- Registers set. -/
def withRegs (rs : Tab Word) (v : Group) : Group := { v with sc := { v.sc with s := rs } }
/-- Registers of the puppet slot set. -/
def withRegsP (rs : Tab Word) (p : Puppet) : Puppet := { p with sc := { p.sc with s := rs } }

theorem mapped_gw (f : Group → Group) : Mapped (gw f) := mapped_of _ [] rfl (by simp) (members_of rfl) (base_of rfl)
theorem mapped_pw (f : Puppet → Puppet) : Mapped (pw f) := mapped_of _ [] rfl (by simp) (members_of rfl) (base_of rfl)

theorem canIssue_gw (f : Group → Group) (hp : ((gw f).scOf (gw f).cur).pend = 0) (hl : ((gw f).scOf (gw f).cur).loadPend = 0) (r d : List (BitVec 6)) :
    (gw f).canIssue r d := canIssue_of (by trivial) hp hl r d

theorem canIssue_pw (f : Puppet → Puppet) (hp : ((pw f).scOf (pw f).cur).pend = 0) (hl : ((pw f).scOf (pw f).cur).loadPend = 0) (r d : List (BitVec 6)) :
    (pw f).canIssue r d := canIssue_of (by trivial) hp hl r d

theorem injectorOff_of {s : State} (h : ∀ i : SliceId, (s.slice i).regs = if i = 0 then slice.regs else []) : s.injectorOff := by
  intro i
  simp only [State.sliceReg, h]
  revert i
  decide +kernel

/-! ### Fences and watches -/

/-- A fence that goes on at once, one that stands behind a load in flight, and one that waits for the lane stream. -/
theorem witness_FencesAndWatchWaits_fence :
    (∀ r d, (gw id).canIssue r d) ∧ ((gw id).group g0).lq = [] ∧ ((gw id).group g0).block = none ∧ ((gw id).scOf (gw id).cur).memq = []
    ∧ ((gw id).scOf (gw id).cur).wct.toNat + 3 ≤ (gw id).now.toNat ∧ ((gw id).scOf (gw id).cur).obs.toNat < (gw id).now.toNat
    ∧ ((gw id).core (agentCore (gw id).cur)).cov = 0
    ∧ (let s := gw fun v => { v with sc := { v.sc with memq := [{ id := 1, kind := .load, width := 8, accs := [] }] } }
       (s.group g0).lq = [] ∧ (s.group g0).block = none ∧ ∃ o ∈ (s.scOf s.cur).memq, o.kind.returns = true)
    ∧ ((gw fun v => { v with lq := [.sigrst] }).group g0).lq ≠ [] := by
  refine ⟨fun r d => canIssue_gw _ rfl rfl r d, by decide +kernel, by decide +kernel, by decide +kernel, by decide +kernel, by decide +kernel, by decide +kernel, by decide +kernel, by decide +kernel⟩

/-- The group watches the eight bytes at 0x400000, which hold 0, and expects a value. -/
def watching (x dl : Word) : State :=
  gw fun v => { v with st := .blocked, sc := { v.sc with s := [(5, dl)], watch := some { addr := 0x400000, value := x }, wait := .monitor, deadline := dl } }

theorem mapped_watching (x dl : Word) : Mapped (watching x dl) := mapped_gw _

/-- Partition 0 has one slice: no link stands between its agents and a home. -/
theorem linked_zero {s : State} (h : Mapped s) (a : Agent) (ha : (agentCore a).slice = 0) (hp : s.agentPart a = 0) (l : Nat)
    (hh : (s.part 0).artHold = false := by rfl) :
    s.homeOpen a (s.home (s.agentPart a) l).1 = true := by
  rw [State.homeOpen, hp, home_of_one s 0 _ h.members, ha, hh]
  rfl

/-- `mwaitv` with no watch; and with a watch at 0x400000: `s5` is a deadline that has passed, and the value found is that of `s6`, 0, or differs from that of
`s5`. -/
theorem witness_FencesAndWatchWaits_mwaitv :
    ((gw id).scOf (gw id).cur).watch = none
    ∧ (let s := watching 0 5
       (∀ r d, s.canIssue r d) ∧ (s.scOf s.cur).memq = [] ∧ s.injectorOff ∧ (s.scOf s.cur).watch = some { addr := 0x400000, value := 0 } ∧ isGlobal 0x400000
        ∧ s.reach (s.agentPart s.cur) (s.agentAsid s.cur) 0x400000 7 = .ok 0x400000 false ∧ targetOf 0x400000 = .hbm 0 ∧ s.poisoned 0x400000 8 false = false
        ∧ s.hbmRead 0x400000 8 = s.sreg 6 ∧ s.hbmRead 0x400000 8 ≠ s.sreg 5 ∧ s.sreg 5 ≠ 0 ∧ (s.sreg 5).toNat ≤ s.now.toNat
        ∧ s.homeOpen s.cur (s.home (s.agentPart s.cur) ((0x400000 : Word).toNat / 64)).1 = true) := by
  refine ⟨rfl, fun r d => canIssue_gw _ rfl rfl r d, rfl, injectorOff_of (by decide +kernel), rfl, ⟨by decide, by decide⟩,
    reach_mapped (mapped_watching 0 5) 0x400000 (by decide) _, by decide, rfl, ?_, ?_, by decide +kernel, by decide +kernel, linked_zero (mapped_watching 0 5) _ rfl rfl _⟩
  · rw [hbmRead_high (m := []) rfl _ _ (by decide)]; decide +kernel
  · rw [hbmRead_high (m := []) rfl _ _ (by decide)]; decide +kernel

/-- A watched word that has changed, a deadline that has passed, a puppet slot that watches, a split whose deadline has passed, a stalled release, and
a fence that is over. -/
theorem witness_WatchAndReleaseWakes :
    (let s := watching 1 5
     s.injectorOff ∧ isGlobal 0x400000 ∧ targetOf 0x400000 = .hbm 0 ∧ (s.group g0).sc.wait = .monitor ∧ (s.group g0).st = .blocked
      ∧ (s.group g0).sc.watch = some { addr := 0x400000, value := 1 } ∧ (s.scOf (.scalar g0)).memq = [] ∧ s.poisoned 0x400000 8 false = false
      ∧ s.reach (s.agentPart (.scalar g0)) (s.agentAsid (.scalar g0)) 0x400000 7 = .ok 0x400000 false ∧ s.hbmRead 0x400000 8 ≠ 1
      ∧ s.homeOpen (.scalar g0) (s.home (s.agentPart (.scalar g0)) ((0x400000 : Word).toNat / 64)).1 = true
      ∧ (s.group g0).sc.deadline ≠ 0 ∧ (s.group g0).sc.deadline.toNat ≤ s.now.toNat)
    ∧ (let s := pw fun p => { p with sc := { p.sc with watch := some { addr := 0x400000, value := 1 }, wait := .monitor } }
       (s.core c0).puppet.sc.wait = .monitor ∧ (s.scOf (.puppet c0)).memq = []
        ∧ s.reach (s.agentPart (.puppet c0)) (s.agentAsid (.puppet c0)) 0x400000 7 = .ok 0x400000 false ∧ s.hbmRead 0x400000 8 ≠ 1
        ∧ s.homeOpen (.puppet c0) (s.home (s.agentPart (.puppet c0)) ((0x400000 : Word).toNat / 64)).1 = true)
    ∧ (let s := gw fun v => { v with splits := [(0, { used := true, mask := 1 })], held := [{ lanes := 1, kind := .watch 5 }] }
       ∃ h, (s.group g0).heldOf 0 = some h ∧ h.kind = .watch 5 ∧ (5 : Word).toNat ≤ s.now.toNat)
    ∧ (let s := gw fun v => { v with sc := { v.sc with wait := .stall } }
       (s.scOf (.scalar g0)).wait = .stall ∧ (s.scOf (.scalar g0)).memq = [])
    ∧ (let o : MemOp := { id := 1, kind := .fence, width := 8, accs := [], order := 2, scope := 5 }
       let s := gw fun v => { v with sc := { v.sc with memq := [o] } }
       (s.scOf (.scalar g0)).memq = [o] ∧ s.released (.scalar g0) o = true ∧ (s.scOf (.scalar g0)).wait ≠ .stall) := by
  refine ⟨⟨injectorOff_of (by decide +kernel), ⟨by decide, by decide⟩, by decide, rfl, rfl, rfl, rfl, rfl,
    reach_mapped (mapped_watching 1 5) 0x400000 (by decide) _, ?_, linked_zero (mapped_watching 1 5) _ rfl rfl _, by decide +kernel, by decide +kernel⟩,
    ⟨rfl, rfl, ?_, ?_, linked_zero (mapped_pw _) _ rfl rfl _⟩, ⟨_, rfl, rfl, by decide +kernel⟩, by decide +kernel, rfl, by decide +kernel, by decide +kernel⟩
  · rw [hbmRead_high (m := []) rfl _ _ (by decide)]; decide +kernel
  · exact reach_mapped (mapped_pw _) 0x400000 (by decide) _
  · rw [hbmRead_high (m := []) rfl _ _ (by decide)]; decide +kernel

/-! ### Memory -/

theorem witness_HbmBytes : Memory.wf [(3, 1), (7, 2)] = true ∧ Memory.wf (memWriteLE [] 0 1 1) = true := by decide

/-- `exit` and `iret` placed for the next step. -/
theorem witness_MemoriesStayCanonical :
    (State.reset.withFetchWord 32 0x84000020).memoriesWf = true ∧ goesOn (step (State.reset.withFetchWord 32 0x84000020)) = true
    ∧ goesOn (step (State.reset.withFetchWord 32 0xD4000000)) = true := by
  decide +kernel

/-! ### Queues, barriers and the end of a group -/

/-- The core with hardware queue 0 carved, and name 3 of the group bound to it. -/
def qw (q : HwQueue) (rs : Tab Word) : State :=
  inG (((world []).modCore c0 fun k => { k with hq := [(0, q)] }).modGroup g0 fun v => { (withRegs rs v) with binds := [(3, { valid := true })] })

theorem witness_ScalarQueueWords :
    (∀ r d, (qw { carved := true, depth := 2 } []).canIssue r d) ∧ (qw { carved := true, depth := 2 } []).cur = .scalar g0
    ∧ ((qw { carved := true, depth := 2 } []).group g0).sc.popped = none
    ∧ (qw { carved := true, depth := 2 } []).queueHeld g0 ((qw { carved := true, depth := 2 } []).scalarNo g0) [3] none = false
    ∧ (qw { carved := true, depth := 2 } []).queueHeld g0 ((qw { carved := true, depth := 2 } []).scalarNo g0) [] (some 3) = false
    ∧ (qw { carved := true, depth := 2 } []).boundQueue g0 3 = some (c0, 0) ∧ (qw { carved := true, depth := 2 } []).boundQueue g0 4 = none
    ∧ ((qw { carved := true, depth := 2 } []).queue (c0, 0)).entries = [] ∧ ((qw { carved := true, depth := 2 } []).queue (c0, 0)).wide = false
    ∧ ((qw { carved := true, depth := 1, entries := [{ value := 9 }] } []).queue (c0, 0)).entries = [{ value := 9 }]
    ∧ ((qw { carved := true, depth := 1, entries := [{ value := 9, filled := false }] } []).queue (c0, 0)).entries = [{ value := 9, filled := false }]
    ∧ ((qw { carved := true, depth := 1, entries := [{ value := 9 }] } []).queue (c0, 0)).depth
        ≤ ((qw { carved := true, depth := 1, entries := [{ value := 9 }] } []).queue (c0, 0)).entries.length
    ∧ ((qw { carved := true, depth := 2, wide := true } []).queue (c0, 0)).wide = true ∧ ((qw { carved := true, depth := 2 } []).group g0).faultCode = 0 := by
  refine ⟨fun r d => canIssue_of (by trivial) (by decide +kernel) (by decide +kernel) r d, rfl, by decide +kernel, by decide +kernel, by decide +kernel, by decide +kernel, by decide +kernel,
    by decide +kernel, by decide +kernel, by decide +kernel, by decide +kernel, by decide +kernel, by decide +kernel, by decide +kernel⟩

/-- A depth of 0, of 4,097 and of 4,096; sixteen queues carved; room for what is asked, and too little. -/
theorem witness_QueueCarvingAndBinding :
    (∀ r d, (qw { carved := true, depth := 2 } []).canIssue r d) ∧ bitsOf (0 : Word) 12 0 = 0 ∧ 4096 < bitsOf (4097 : Word) 12 0
    ∧ ¬(bitsOf (4096 : Word) 12 0 = 0 ∨ 4096 < bitsOf (4096 : Word) 12 0 ∨ bitsOf (4096 : Word) 15 13 ≠ 0 ∨ bitsOf (4096 : Word) 63 17 ≠ 0)
    ∧ (let s := inG ((world []).modCore c0 fun k => { k with hq := (List.range 16).map fun n => (n, { carved := true, depth := 1 }) })
       ∀ n < 16, (tabGet {} (s.core g0.at).hq n).carved = true)
    ∧ (let s := qw { carved := true, depth := 2 } []
       (tabGet {} (s.core g0.at).hq 0).carved = true ∧ (tabGet {} (s.core g0.at).hq 1).carved = false ∧ (4096 * 8 + 31) / 32 * 32 ≤ (s.core g0.at).spadFree
        ∧ (s.core g0.at).spadFree < (4096 * 384 + 31) / 32 * 32 ∧ (s.group g0).lq = [] ∧ (s.group g0).block = none ∧ s.nbhSize g0 = 1
        ∧ s.mayBind g0 (s.queue (s.kCore g0 0, 0)) = false)
    ∧ (let s := qw { carved := true, depth := 2, owner := 1 } []
       s.mayBind g0 (s.queue (s.kCore g0 0, 0)) = true)
    ∧ bitsOf (0x2003 : Word) 63 14 = 0 ∧ (0x2003 : Word).getLsbD 13 = true ∧ bitsOf (0x4000 : Word) 63 14 ≠ 0 := by
  refine ⟨fun r d => canIssue_of (by trivial) (by decide +kernel) (by decide +kernel) r d, ?_⟩
  decide +kernel

/-- The first arrival, with a count of 1, with a count of 2, and with the count of the groups: the one group of the workgroup. -/
theorem witness_Barriers :
    (∀ rs r d, (gw (withRegs rs)).canIssue r d) ∧ (gw (withRegs [])).wgOf g0 = some workgroup ∧ workgroup.nbh = none
    ∧ ((gw (withRegs [])).group g0).arrived = none ∧ ((gw (withRegs [])).group g0).sc.tokWct = 0
    ∧ (gw (withRegs [])).settledAt g0 2 ∧ (gw (withRegs [])).settledAt g0 3 ∧ ((gw (withRegs [])).barrier g0 false 0).arrived = []
    ∧ bitsOf ((gw (withRegs [(5, 1)])).sreg 5) 15 0 ≤ 1 ∧ ¬bitsOf ((gw (withRegs [(5, 2)])).sreg 5) 15 0 ≤ 1
    ∧ (∀ h ∈ (gw (withRegs [])).barrierGroups g0 false, h ∈ [g0]) := by
  refine ⟨fun rs r d => canIssue_gw _ rfl rfl r d, by decide +kernel, rfl, rfl, rfl, ⟨rfl, rfl, rfl, by decide +kernel⟩, ⟨rfl, rfl, rfl, by decide +kernel⟩, by decide +kernel,
    by decide +kernel, by decide +kernel, by decide +kernel⟩

/-- A group that is alone in its workgroup, and one of two. -/
theorem witness_TriggerYieldExit :
    (∀ r d, (gw id).canIssue r d) ∧ (gw id).wgOf g0 = some workgroup ∧ (gw id).settledAt g0 5
    ∧ (let s := gw fun v => { v with exiting := true, sc := { v.sc with wait := .stall } }
       (s.group g0).exiting = true ∧ (s.group g0).st = .active ∧ s.settledAt g0 5 ∧ s.asyncCount g0 = 0
        ∧ (s.group g0).sc.wait = .stall ∧ (s.group g0).sc.engWct.toNat + 3 ≤ s.now.toNat ∧ ∀ h ∈ s.slotsOf g0.at, h ≠ g0 → (s.group h).wg = (s.group g0).wg → (s.group h).resident = false)
    ∧ (let s := (gw fun v => { v with exiting := true, sc := { v.sc with wait := .stall } }).modGroup g1 fun _ => group
       (∃ h ∈ s.slotsOf g0.at, h ≠ g0 ∧ (s.group h).wg = (s.group g0).wg ∧ (s.group h).resident = true) ∧ s.wgOf g0 = some workgroup ∧ s.asyncCount g0 = 0
        ∧ s.settledAt g0 5) := by
  refine ⟨fun r d => canIssue_gw _ rfl rfl r d, by decide +kernel, ⟨rfl, rfl, rfl, by decide +kernel⟩, ⟨rfl, rfl, ⟨rfl, rfl, rfl, by decide +kernel⟩, by decide +kernel, rfl, by decide +kernel, by decide +kernel⟩,
    ⟨g1, by decide +kernel, by decide +kernel, by decide +kernel, by decide +kernel⟩, by decide +kernel, by decide +kernel, ⟨rfl, rfl, rfl, by decide +kernel⟩⟩

/-- The group holds 16 registers, and the pool 1,008, or 8 once another group holds 1,000. Targets 4, 8, 16, 24 and 128. -/
theorem witness_RegisterPool :
    (∀ rs r d, (gw (withRegs rs)).canIssue r d) ∧ ((gw (withRegs [])).group g0).nreg = 16 ∧ ((gw (withRegs [])).group g0).sc.wait ≠ .grow
    ∧ ((gw (withRegs [])).group g0).lq = [] ∧ ((gw (withRegs [])).group g0).block = none
    ∧ ((gw (withRegs [])).core g0.at).regsFree = 1008
    ∧ (((gw (withRegs [])).modGroup g1 fun _ => { group with nreg := 1000 }).core g0.at).regsFree = 8
    ∧ ¬((gw (withRegs [(5, 4)])).sreg 5).toNat % 8 = 0 ∧ ((gw (withRegs [(5, 128)])).sreg 5).toNat = 128
    ∧ (let s := gw fun v => { v with want := 128, sc := { v.sc with wait := .grow, waitMask := 5 } }
       (s.group g0).want ≠ 0 ∧ (s.group g0).sc.wait = .grow ∧ (s.group g0).sc.waitMask = (5 : BitVec 6).setWidth 64
        ∧ s.passed (s.group g0).wantSince (s.cclkTicks g0.slice 4096) = false ∧ (s.group g0).want - (s.group g0).nreg ≤ (s.core g0.at).regsFree ∧ s.askedBefore g0 = false)
    ∧ (let s := { (gw fun v => { v with want := 128, sc := { v.sc with wait := .grow, waitMask := 5 } }) with now := 100000 }
       s.passed (s.group g0).wantSince (s.cclkTicks g0.slice 4096) = true) := by
  refine ⟨fun rs r d => canIssue_gw _ rfl rfl r d, ?_⟩
  decide +kernel

/-! ### The puppet slot -/

/-- A partition of one slice has at least 61 segments, so its chip scratchpad holds more than 16 bytes. -/
theorem chip_room {s : State} (h : s.prc = prc) : 16 ≤ s.chipSize 0 := by
  have h1 := chipSize_ge s 0 (by simp only [State.part, h]; rfl)
  rw [members_of h] at h1
  simp only [List.length_singleton] at h1
  omega

/-- The ticket in the chip scratchpad window at offset 8, for a puppet slot of partition 0. -/
theorem ticket_at {s : State} (h : s.prc = prc) (hc : s.cur = .puppet c0) : s.ticketAt 0 0x00FF000010000008 = some 8 := by
  have hr := chip_room h
  have hp : s.partOf! c0.slice = 0 := by
    have hm : (0 : SliceId) ∈ s.memberSlices 0 := by rw [members_of h]; simp
    have : s.member 0 c0.slice = true := (List.mem_filter.mp hm).2
    simp only [State.partOf!, State.partOf, allParts, List.find?, this]
    rfl
  have e1 : bitsOf (0x00FF000010000008 : Word) 63 56 = 0 := by decide
  have e2 : bitsOf (0x00FF000010000008 : Word) 55 48 = 0xFF := by decide
  have e3 : (0x00FF000010000008 : Word).toNat - windowBase = 0x10000008 := by decide
  have ha : s.agentPart (.puppet c0) = 0 := hp
  have e4 : s.chipSize 0 > 8 := by omega
  simp only [State.ticketAt, hc, State.placeOf, e1, e2, e3, State.windowPlace, agentGroup, ha]
  simp (decide := true) [e4]

/-- A ticket at offset 8 of the chip scratchpad, one that is misaligned, and one outside. -/
theorem witness_PuppetTickets :
    (∀ rs r d, (pw (withRegsP rs)).canIssue r d)
    ∧ (let s := pw (withRegsP [(5, 0x00FF000010000008)])
       bitsOf (s.coreReg c0 0x1B0) 15 0 = bitsOf (s.part 0).fwstat 31 16 ∧ s.partOf! c0.slice = 0 ∧ (s.core c0).puppet.sc.memq = [] ∧ (s.core c0).puppet.sc.tokWct = 0
        ∧ s.streamReleased s.cur 5 = true)
    ∧ (pw (withRegsP [(5, 0x00FF000010000008)])).ticketAt 0 ((pw (withRegsP [(5, 0x00FF000010000008)])).sreg 5) = some 8
    ∧ 8 + 8 ≤ (pw (withRegsP [(5, 0x00FF000010000008)])).chipSize 0 := by
  refine ⟨fun rs r d => canIssue_pw _ rfl rfl r d, by decide +kernel, ?_, chip_room rfl⟩
  exact ticket_at rfl rfl

theorem ticket_misaligned (s : State) (p : PartId) (a : Word) (h : a.toNat % 8 ≠ 0) : s.ticketAt p a = none := by
  unfold State.ticketAt
  split
  · simp [h]
  · rfl

theorem ticket_low (s : State) (p : PartId) (a : Word) (h : a.toNat < 2 ^ 30) : s.ticketAt p a = none := by
  simp only [State.ticketAt, placeOf_low _ _ _ _ _ h]

theorem witness_PuppetTickets_none (s : State) (p : PartId) : s.ticketAt p 0x00FF000010000001 = none ∧ s.ticketAt p 0x1000 = none :=
  ⟨ticket_misaligned s p _ (by decide), ticket_low s p _ (by decide)⟩

/-- A rectangle of one core with every core offered; one of seven columns, which is none; and the release of the rectangle at core 23. Events: an overflow, one
event, and none. -/
theorem witness_PuppetPlacesAndEvents :
    (∀ f r d, ((pw f).core c0).puppet.sc.pend = 0 → ((pw f).core c0).puppet.sc.loadPend = 0 → (pw f).canIssue r d)
    ∧ (let s := pw (withRegsP [(5, 9), (6, 0xFFFFFF)])
       bitsOf (s.sreg 5) 2 0 = 1 ∧ bitsOf (s.sreg 5) 5 3 = 1 ∧ tabGet 0 (s.slice c0.slice).occMap (c0.core.val / 24) = 0 ∧ (s.sreg 6).getLsbD 0 = true)
    ∧ bitsOf ((pw (withRegsP [(5, 15)])).sreg 5) 2 0 = 7 ∧ bitsOf ((pw (withRegsP [(6, 23)])).sreg 6) 4 0 = 23 ∧ 23 % 6 + 1 ≤ 6 ∧ 23 / 6 + 1 ≤ 4
    ∧ (let s := pw fun p => { p with overflow := true }
       (s.core c0).puppet.overflow = true)
    ∧ (let s := pw fun p => { p with events := [0x106] }
       (s.core c0).puppet.overflow = false ∧ (s.core c0).puppet.events = [0x106])
    ∧ (pw id).anyMapped c0.slice = false := by
  refine ⟨fun f r d hp hl => canIssue_pw f hp hl r d, ?_⟩
  decide +kernel

/-- A request of OP0, of a slice that is no member, and of the executing slice with a change in progress. -/
theorem witness_OperatingPoints :
    bitsOf ((pw (withRegsP [(5, 0x100)])).sreg 5) 2 0 = 0
    ∧ (let s := pw (withRegsP [(5, 0x8001)])
       (s.sreg 5).getLsbD (8 + (7 : SliceId).val) = true ∧ s.member (s.partOf! c0.slice) 7 = false)
    ∧ (let s := (pw (withRegsP [(5, 7)])).setSliceReg 0 0x400 0x6D
       bitsOf (s.sreg 5) 7 3 = 0 ∧ bitsOf (s.sreg 5) 63 16 = 0 ∧ bitsOf (s.sreg 5) 2 0 ≠ 0 ∧ bitsOf (s.sreg 5) 15 8 = 0
        ∧ s.member (s.partOf! c0.slice) c0.slice = true ∧ (s.sliceReg c0.slice 0x400).getLsbD 6 = true ∧ (s.slice 0).opNext = none) := by
  decide +kernel

/-! ### System registers and counters -/

theorem witness_SystemRegisterWords :
    (∀ rs r d, (gw (withRegs rs)).canIssue r d) ∧ (∀ rs r d, (pw (withRegsP rs)).canIssue r d) ∧ ((gw id).group g0).faultCode = 0
    ∧ 0xC00 ≤ (0xC00 : BitVec 13).toNat ∧ 0xC00 ≤ (0x1FFF : BitVec 13).toNat :=
  ⟨fun rs r d => canIssue_gw _ rfl rfl r d, fun rs r d => canIssue_pw _ rfl rfl r d, by decide +kernel, by decide, by decide⟩

/-- The end of a leak interval and a time before it, with a seep counter of 3; and a µs after the last rise of the credits. -/
theorem witness_CounterRegisters :
    (let s := ({ world [] with now := 0x200000000 }).modSlice 0 fun k => { k with seep := [(0, { value := 3 })], seepSince := [(1, 0x200000000)] }
     s.passed (tabGet 0 (s.slice 0).seepSince 0) (s.seepLeak 0 0) = true ∧ s.passed (tabGet 0 (s.slice 0).seepSince 1) (s.seepLeak 0 1) = false
      ∧ tabFind (s.slice 0).seep 0 = some { value := 3 })
    ∧ (world []).partOf 0 = some 0 ∧ (world []).passed (tabGet 0 ((world []).slice 0).creditSince 0) 1000 = true := by
  decide +kernel

end Sys2Proof.Machine.Tests
end

