-- ==== Sys2Proof/Tests/Witness3.lean ====
section
/-! SUPPORT. Witnesses for the statements about queue slots and region blocks, command queues, launches and placement: a slice with one queue, its control
block, ring, region blocks and a launch record in memory. -/

namespace Sys2Proof.Machine.Tests

-- One theorem after another: a file of closed evaluations needs no more than one thread.
set_option Elab.async false

/-- Words in memory from an address upward. -/
def wordsAt (a : Nat) (ws : List W32) : Memory := ((ws.flatMap fun w => natToBytes w.toNat 4).zipIdx.map fun e => (a + e.2, e.1)).filter fun e => e.2 != 0

/-- A region block: level, parent, CRC. -/
def rcb (lev : Nat) (parent crc : W32) : List W32 :=
  [BitVec.ofNat 32 (1 + lev * 256 + (if lev = 0 then 0xFC00 else 0)), if lev = 0 then 0x101 else 0, 0, 0, 0, 0, parent, 0] ++ List.replicate 55 0 ++ [crc]

/-- The root, a tenant, a queue's block and a grid's block. -/
def rcb0 : List W32 := rcb 0 0 26119
def rcb1 : List W32 := rcb 1 0x410000 32341
def rcb2 : List W32 := rcb 2 0x420000 30685
def rcb3 : List W32 := rcb 3 0x430000 32954

/-- The control block of queue 0: a ring of 16 packets at 0x460000, WRIDX 1, RDIDX 0, region block 0x430000. -/
def qcb (stopped : Bool) : List W32 :=
  [if stopped then 0x101 else 1, 0x40000, 0x460000, 0, 1, 0, 0, 0, 0x430000, 0] ++ List.replicate 21 0 ++ [if stopped then 39934 else 46681]

/-- A launch record: 1 group of 8 registers a workgroup, 2 workgroups, 1 × 1 neighbourhoods, code at 0x1000. -/
def lrec : List W32 := [0x1201, 0x801, 2, 0x100, 0, 0, 1, 0, 0x1000] ++ List.replicate 55 0

/-- The control block, the directory, the region blocks and the launch record. -/
def qbase (stopped : Bool) : Memory :=
  wordsAt 0x400000 (qcb stopped) ++ wordsAt 0x408000 [0x400001] ++ wordsAt 0x410000 rcb0 ++ wordsAt 0x420000 rcb1 ++ wordsAt 0x430000 rcb2
    ++ wordsAt 0x440000 rcb3 ++ wordsAt 0x450000 lrec

/-- The rest of memory: those, and the packet in the ring. -/
def qmem (stopped : Bool) (pk : List W32) : Memory := qbase stopped ++ wordsAt 0x460000 pk

/-- The slice with a slot. -/
def qslice (slot : Option QSlot) (rs : Tab Word) : Slice :=
  { slice with cores := [(0, { core with puppet := { running := true, sc := { s := rs } } })], regs := [(0x420, 0x408000), (0x760, 0x80000)],
               l2 := [(0x460000 / 64, { key := lineKey asid (0x460000 / 64) })],
               slots := match slot with | some x => [(0, x)] | none => [] }

/-- The module with that memory, the feature word accepted, and a slot. -/
def qworld (stopped : Bool) (pk : List W32) (slot : Option QSlot) (rs : Tab Word) : State :=
  { world (qmem stopped pk) with cur := .puppet c0, slices := [(0, qslice slot rs)], prc := { prc with parts := [(0, { featLocked := true })] } }

/-- The queue mapped in slot 0. -/
def mappedSlot : QSlot := { state := 1, qcba := 0x400000, qcb := qcb false }

theorem wordsAt_ge (a : Nat) (ws : List W32) : ∀ e ∈ wordsAt a ws, a ≤ e.1 := by
  intro e he
  simp only [wordsAt, List.mem_filter, List.mem_map] at he
  obtain ⟨⟨x, _, rfl⟩, _⟩ := he
  exact Nat.le_add_right _ _

theorem qmem_high (b : Bool) (pk : List W32) : ∀ e ∈ qmem b pk, 0x400000 ≤ e.1 := by
  intro e he
  simp only [qmem, qbase, List.mem_append] at he
  rcases he with ((((((h | h) | h) | h) | h) | h) | h) | h <;> exact Nat.le_trans (by decide) (wordsAt_ge _ _ e h)

theorem memGet_append_right (m n : Memory) (i : Nat) (h : ∀ e ∈ n, i < e.1) : memGet (m ++ n) i = memGet m i := by
  have hn : memGet n i = memDefault := by
    induction n with
    | nil => rfl
    | cons e n ih =>
      have := h e (by simp)
      have h1 : i ≠ e.1 := by omega
      simp only [memGet, h1, if_false]
      exact ih fun e he => h e (by simp [he])
  induction m with
  | nil => exact hn
  | cons e m ih => simp only [List.cons_append, memGet, ih]

/-- Below the ring memory does not depend on the packet. -/
theorem qmem_below (b : Bool) (pk : List W32) (n : Nat) : ∀ a, a + n ≤ 0x460000 → memRead (qmem b pk) a n = memRead (qbase b) a n := by
  induction n with
  | zero => intros; rfl
  | succ n ih =>
    intro a h
    have : ∀ e ∈ wordsAt 0x460000 pk, a < e.1 := fun e he => by have := wordsAt_ge _ _ e he; omega
    simp only [memRead]
    rw [ih (a + 1) (by omega), qmem, memGet_append_right _ _ _ this]

theorem qworld_mapped (b : Bool) (pk : List W32) (slot : Option QSlot) (rs : Tab Word) : Mapped (qworld b pk slot rs) := by
  refine mapped_of _ (qmem b pk) rfl (qmem_high b pk) ?_ rfl (lines_one (pl := 0x460000 / 64) rfl rfl rfl)
  have : (qworld b pk slot rs).member 0 = ({ State.reset with prc := prc } : State).member 0 := rfl
  rw [State.memberSlices, this]
  decide +kernel

theorem qworld_poison (b : Bool) (pk : List W32) (slot : Option QSlot) (rs : Tab Word) : (qworld b pk slot rs).poison = [] := rfl

/-- The agent of core 0 is at work. -/
theorem qworld_agent (b : Bool) (pk : List W32) (slot : Option QSlot) (rs : Tab Word) : (qworld b pk slot rs).hasAgent 0 = true := by
  have h : (qworld b pk slot rs).server 0 0 = some c0 := by
    have e : List.range 144 = 0 :: (List.range 144).tail := by decide
    rw [State.server, e]
    exact List.find?_cons_of_pos rfl
  rw [State.hasAgent, h]
  rfl

theorem qworld_part (b : Bool) (pk : List W32) (slot : Option QSlot) (rs : Tab Word) : (qworld b pk slot rs).partOf! 0 = 0 := by
  have : (qworld b pk slot rs).partOf 0 = ({ State.reset with prc := prc } : State).partOf 0 := rfl
  rw [State.partOf!, this]
  decide +kernel

theorem qworld_eng (b : Bool) (pk : List W32) (slot : Option QSlot) (rs : Tab Word) (q : QIdx) :
    (qworld b pk slot rs).queueEng 0 q = eng (.puppet ⟨0, idx 144 q.val⟩) := by
  simp only [State.queueEng, qworld_part, eng]

theorem qworld_engWords (b : Bool) (pk : List W32) (slot : Option QSlot) (rs : Tab Word) (a : Agent) (k : Nat) (va : Word) (n : Nat) (h1 : 0x400000 ≤ va.toNat)
    (h2 : va.toNat + 4 * n ≤ 2 ^ 30) : (qworld b pk slot rs).engWords (eng a) k va n = bytesToWords n (memRead (qmem b pk) va.toNat (4 * n)) := by
  rw [engWords_mapped (qworld_mapped b pk slot rs) a k va n h2]
  congr 1
  exact memRead_high (qmem b pk) _ _ h1

theorem qworld_meet (b : Bool) (pk : List W32) (slot : Option QSlot) (rs : Tab Word) (a : Agent) (k : Nat) (va : Word) (n : Nat) (h : va.toNat + n ≤ 2 ^ 30) :
    (qworld b pk slot rs).meet (eng a) k va n = .ok := meet_mapped (qworld_mapped b pk slot rs) rfl a k va n h

theorem qbase_words (b : Bool) :
    bytesToWords 64 (memRead (qbase b) 0x410000 256) = rcb0 ∧ bytesToWords 64 (memRead (qbase b) 0x420000 256) = rcb1
    ∧ bytesToWords 64 (memRead (qbase b) 0x430000 256) = rcb2 ∧ bytesToWords 64 (memRead (qbase b) 0x440000 256) = rcb3
    ∧ bytesToWords 32 (memRead (qbase b) 0x400000 128) = qcb b ∧ bytesToWords 64 (memRead (qbase b) 0x450000 256) = lrec := by
  revert b
  decide +kernel

/-- A check code goes on from that of the words before. -/
theorem crc_append (a b : List W32) : crcWords (a ++ b) = (wordsToBytes b).foldl crcByte (crcWords a) := by
  simp only [crcWords, crc16, wordsToBytes, List.flatMap_append, List.foldl_append]

theorem qcb_ok (b : Bool) : qcMapOk (qcb b) = true ∧ qcIdx (qcb b) = 0 ∧ qcStopped (qcb b) = b := by
  have h1 : ∀ b, crcWords ((List.range 31).map (wordAt (qcb b))) = if b then 39934 else 46681 := by
    intro b
    have e : (List.range 31).map (wordAt (qcb b)) = (List.range 16).map (wordAt (qcb b)) ++ List.replicate 15 0 := by revert b; decide +kernel
    have e2 : crcWords ((List.range 16).map (wordAt (qcb b))) = if b then 50264 else 55204 := by revert b; decide +kernel
    rw [e, crc_append, e2]
    revert b
    decide +kernel
  have h2 : qcKickOk (qcb b) (qcIdx (qcb b)) = true := by
    simp only [qcKickOk, h1]
    revert b
    decide +kernel
  simp only [qcMapOk, h2]
  clear h1 h2
  revert b
  decide +kernel

theorem qworld_low (b : Bool) (pk : List W32) (slot : Option QSlot) (rs : Tab Word) (a : Agent) (k : Nat) (va : Word) (n : Nat) (h1 : 0x400000 ≤ va.toNat)
    (h2 : va.toNat + 4 * n ≤ 0x460000) : (qworld b pk slot rs).engWords (eng a) k va n = bytesToWords n (memRead (qbase b) va.toNat (4 * n)) := by
  rw [qworld_engWords b pk slot rs a k va n h1 (by omega), qmem_below b pk _ _ h2]

/-- The region blocks pass their checks. -/
theorem rcbs_ok {s : State} (hn : s.nseg 0 = 1) :
    s.rcbOk 0 0x410000 rcb0 = true ∧ s.rcbOk 0 0x420000 rcb1 = true ∧ s.rcbOk 0 0x430000 rcb2 = true ∧ s.rcbOk 0 0x440000 rcb3 = true := by
  have c0 : crcWords ((List.range 16).map (wordAt rcb0)) = 26119 := by decide +kernel
  have c1 : crcWords ((List.range 16).map (wordAt rcb1)) = 32341 := by decide +kernel
  have c2 : crcWords ((List.range 16).map (wordAt rcb2)) = 30685 := by decide +kernel
  have c3 : crcWords ((List.range 16).map (wordAt rcb3)) = 32954 := by decide +kernel
  simp only [State.rcbOk, c0, c1, c2, c3, hn]
  clear c0 c1 c2 c3 hn
  decide +kernel

/-- One block of a walk. -/
theorem walk_root {s : State} {e : EngId} {a : Word} {w : List W32} (n : Nat) (hm : s.meet e 1 a 256 = .ok) (hw : s.engWords e 1 a 64 = w)
    (ok : s.rcbOk e.part a w = true) (h0 : rcbLevel w = 0) : s.rcbWalkN e a (n + 1) = .ok [(a, w)] := by
  simp only [State.rcbWalkN, hm, hw, ok, h0, Bool.not_true, if_true, Bool.false_eq_true, if_false]

theorem walk_step {s : State} {e : EngId} {a b : Word} {w x : List W32} {rest : List (Word × List W32)} (n : Nat) (hm : s.meet e 1 a 256 = .ok)
    (hw : s.engWords e 1 a 64 = w) (ok : s.rcbOk e.part a w = true) (hb : rcbParent w = b) (hr : s.rcbWalkN e b n = .ok ((b, x) :: rest))
    (hl : rcbLevel w = rcbLevel x + 1) : s.rcbWalkN e a (n + 1) = .ok ((a, w) :: (b, x) :: rest) := by
  simp only [State.rcbWalkN, hm, hw, ok, hb, hr, Bool.not_true, Bool.false_eq_true, if_false, hl, if_true]
  exact if_neg (by omega)

theorem walk_bad {s : State} {e : EngId} {a : Word} {w : List W32} (n : Nat) (hm : s.meet e 1 a 256 = .ok) (hw : s.engWords e 1 a 64 = w)
    (ok : s.rcbOk e.part a w = false) : s.rcbWalkN e a (n + 1) = .bad := by
  simp only [State.rcbWalkN, hm, hw, ok, Bool.not_false, if_true]

/-- The walk from a block of level 3 or 2, where the agent reads what memory holds. -/
theorem walk_blocks {s : State} (b : Bool) (a : Agent) (m : ∀ va : Word, va.toNat + 256 ≤ 2 ^ 30 → s.meet (eng a) 1 va 256 = .ok)
    (w : ∀ va : Word, 0x400000 ≤ va.toNat → va.toNat + 4 * 64 ≤ 0x460000 → s.engWords (eng a) 1 va 64 = bytesToWords 64 (memRead (qbase b) va.toNat (4 * 64)))
    (hn : s.nseg 0 = 1) :
    s.rcbWalk (eng a) 0x440000 = .ok [(0x440000, rcb3), (0x430000, rcb2), (0x420000, rcb1), (0x410000, rcb0)]
    ∧ s.rcbWalk (eng a) 0x430000 = .ok [(0x430000, rcb2), (0x420000, rcb1), (0x410000, rcb0)] := by
  have hw := qbase_words b
  have ok := rcbs_ok hn
  have r0 (n : Nat) := walk_root n (m 0x410000 (by decide)) ((w 0x410000 (by decide) (by decide)).trans hw.1) ok.1 (by decide +kernel)
  have r1 (n : Nat) := walk_step (n + 1) (m 0x420000 (by decide)) ((w 0x420000 (by decide) (by decide)).trans hw.2.1) ok.2.1 (by decide +kernel) (r0 n) (by decide +kernel)
  have r2 (n : Nat) := walk_step (n + 2) (m 0x430000 (by decide)) ((w 0x430000 (by decide) (by decide)).trans hw.2.2.1) ok.2.2.1 (by decide +kernel) (r1 n) (by decide +kernel)
  have r3 (n : Nat) := walk_step (n + 3) (m 0x440000 (by decide)) ((w 0x440000 (by decide) (by decide)).trans hw.2.2.2.1) ok.2.2.2 (by decide +kernel) (r2 n) (by decide +kernel)
  exact ⟨r3 0, r2 1⟩

/-- The partition map gives partition 0 one segment. -/
theorem nseg_of {s : State} (h : s.prc.regs = prc.regs) : s.nseg 0 = 1 := by
  have : s.nseg 0 = ({ State.reset with prc := prc } : State).nseg 0 := by
    simp only [State.nseg, State.pmap, State.prcReg, h]
  rw [this]
  decide +kernel

theorem qworld_walk (b : Bool) (pk : List W32) (slot : Option QSlot) (rs : Tab Word) (a : Agent) :
    (qworld b pk slot rs).rcbWalk (eng a) 0x440000 = .ok [(0x440000, rcb3), (0x430000, rcb2), (0x420000, rcb1), (0x410000, rcb0)]
    ∧ (qworld b pk slot rs).rcbWalk (eng a) 0x430000 = .ok [(0x430000, rcb2), (0x420000, rcb1), (0x410000, rcb0)] :=
  walk_blocks b a (fun va h => qworld_meet b pk slot rs a 1 va 256 h) (fun va h1 h2 => qworld_low b pk slot rs a 1 va 64 h1 h2) (nseg_of rfl)

theorem qworld_dir (b : Bool) (pk : List W32) (slot : Option QSlot) (rs : Tab Word) :
    (qworld b pk slot rs).dirAddr 0 0 = 0x408000 ∧ (qworld b pk slot rs).dirEntry 0 0 = 0x400001 := by
  have hd : (qworld b pk slot rs).dirAddr 0 0 = 0x408000 := by
    have : (qworld b pk slot rs).sliceReg 0 0x420 = 0x408000 := rfl
    rw [State.dirAddr, this]
    decide +kernel
  refine ⟨hd, ?_⟩
  rw [State.dirEntry, hd, qworld_eng, engBytes_mapped (qworld_mapped b pk slot rs) _ _ _ _ (by decide)]
  have : memRead (qworld b pk slot rs).mem (0x408000 : Word).toNat 8 = memRead (qbase b) 0x408000 8 :=
    (memRead_high (qmem b pk) _ _ (by decide)).trans (qmem_below b pk _ _ (by decide))
  rw [this]
  clear this hd
  revert b
  decide +kernel

theorem qworld_block (b : Bool) (pk : List W32) (slot : Option QSlot) (rs : Tab Word) (a : Agent) : (qworld b pk slot rs).engWords (eng a) 1 0x400000 32 = qcb b := by
  rw [qworld_low _ _ _ _ _ _ _ _ (by decide) (by decide)]
  exact (qbase_words b).2.2.2.2.1

theorem qworld_meetBoth (b : Bool) (pk : List W32) (slot : Option QSlot) (rs : Tab Word) (a : Agent) (va : Word) (n : Nat) (h : va.toNat + n ≤ 2 ^ 30) :
    (qworld b pk slot rs).meetBoth (eng a) va n = .ok := meetBoth_mapped (qworld_mapped b pk slot rs) rfl a va n h

/-- `s5` holds an address, `s6` slot 0. -/
abbrev pq (slot : Option QSlot) (x : Word) : State := qworld false [] slot [(5, x)]

theorem pq_eng (slot : Option QSlot) (x : Word) (a : Agent) :
    ({ a := a, part := (pq slot x).partOf! c0.slice, asid := Config.rootAsid ((pq slot x).partOf! c0.slice) } : EngId) = eng a := by
  have : (pq slot x).partOf! c0.slice = 0 := qworld_part _ _ _ _
  simp only [this, eng]

/-- Slot 0 free and held; an address that is misaligned, one of a block that fails its check, that of the queue's block, and those of region blocks that resolve
and of none. -/
theorem witness_PuppetSlotsAndBlocks :
    (∀ r d, (pq none 0x400000).canIssue r d) ∧ bitsOf ((pq none 0x400000).sreg 6) 63 8 = 0 ∧ bitsOf (0x100 : Word) 63 8 ≠ 0
    ∧ ((pq (some mappedSlot) 0x400000).qslot 0 1).state = 0 ∧ (pq (some mappedSlot) 0x400000).slotOf 0 0 ≠ none
    ∧ ((pq (some mappedSlot) 0x400000).qslot 0 0).state ≠ 0 ∧ ((pq none 0x400000).qslot 0 0).state = 0 ∧ (0x400040 : Word).toNat % 128 ≠ 0
    ∧ (pq none 0x400000).meetBoth (eng (.puppet c0)) 0x400000 128 = .ok ∧ (pq (some mappedSlot) 0x400000).meetBoth (eng (.puppet c0)) 0x400000 128 = .ok
    ∧ qcMapOk ((pq none 0x400000).engWords (eng (.puppet c0)) 1 0x400080 32) = false
    ∧ qcMapOk ((pq none 0x400000).engWords (eng (.puppet c0)) 1 0x400000 32) = true
    ∧ (pq none 0x400000).meet (eng (.puppet c0)) 1 ((pq none 0x400000).dirAddr 0 0) 8 = .ok
    ∧ ((pq none 0x400000).dirEntry 0 0).getLsbD 0 = true ∧ entryQcb ((pq none 0x400000).dirEntry 0 0) = (pq none 0x400000).sreg 5
    ∧ (pq none 0x400000).slotOf 0 0 = none
    ∧ (pq none 0x430000).rcbWalk (eng (.puppet c0)) 0x430000 = .ok [(0x430000, rcb2), (0x420000, rcb1), (0x410000, rcb0)]
    ∧ (pq none 0x450100).rcbWalk (eng (.puppet c0)) 0x450100 = .bad := by
  have hb (x : Word) (a : Agent) : (pq none x).engWords (eng a) 1 0x400080 32 = bytesToWords 32 (memRead (qbase false) 0x400080 128) :=
    qworld_low _ _ _ _ _ _ _ _ (by decide) (by decide)
  refine ⟨fun r d => canIssue_of (by trivial) (by decide +kernel) (by decide +kernel) r d, by decide +kernel, by decide, by decide +kernel, by decide +kernel,
    by decide +kernel, by decide +kernel, by decide, qworld_meetBoth _ _ _ _ _ _ _ (by decide),
    qworld_meetBoth _ _ _ _ _ _ _ (by decide), ?_, ?_, ?_, ?_, ?_, by decide +kernel, (qworld_walk _ _ _ _ _).2, ?_⟩
  · rw [hb]; decide +kernel
  · rw [qworld_block]; exact (qcb_ok false).1
  · rw [(qworld_dir _ _ _ _).1]; exact qworld_meet _ _ _ _ _ _ _ _ (by decide)
  · rw [(qworld_dir _ _ _ _).2]; decide
  · rw [(qworld_dir _ _ _ _).2]; decide +kernel
  · have hw : (pq none 0x450100).engWords (eng (.puppet c0)) 1 0x450100 64 = List.replicate 64 0 :=
      (qworld_low _ _ _ _ _ _ _ _ (by decide) (by decide)).trans (by decide +kernel)
    have hm : (pq none 0x450100).meet (eng (.puppet c0)) 1 0x450100 256 = .ok := qworld_meet _ _ _ _ _ _ _ _ (by decide)
    have hk : (pq none 0x450100).rcbOk (eng (.puppet c0)).part 0x450100 (List.replicate 64 0) = false := by decide +kernel
    exact walk_bad 3 hm hw hk

end Sys2Proof.Machine.Tests
end

