-- ==== Sys2Proof/Tests/Witness4.lean ====
section
/-! SUPPORT. Witnesses for the statements about command queues, launches, waits and placement. -/

namespace Sys2Proof.Machine.Tests

-- One theorem after another: a file of closed evaluations needs no more than one thread.
set_option Elab.async false

/-- A packet of each type but LAUNCH: SIGNAL adds 5 at 0x470000, WAIT and BARRIER_AND wait there, STORAGE has its chain there. -/
def pkOf (type : Nat) : List W32 :=
  match type with
  | 2 => [2, 0, 0x470000, 0, 5, 0, 0, 0, 0, 0, 0, 0, 0, 0, 0, 0]
  | 3 => [3, 0, 0x470000, 0, 5, 0, 0, 0, 0, 0, 0, 0, 0, 0, 0, 0]
  | 4 => [4, 0, 0x470000, 0, 5, 0, 0, 0, 0, 0, 0, 0, 0, 0, 0, 0]
  | 5 => [5, 0, 0x470000, 0, 0, 0, 0, 0, 0, 0, 0, 0, 0, 0, 0, 0]
  | 6 => [6, 0, 9, 0, 0, 0, 0, 0, 0, 0, 0, 0, 0, 0, 0, 0]
  | _ => [7, 0, 0, 0, 0, 0, 0, 0, 0, 0, 0, 0, 0, 0, 0, 0]

/-- The queue mapped, with the packet at RDIDX. -/
abbrev qp (pk : List W32) : State := qworld false pk (some mappedSlot) []

theorem qp_eng (pk : List W32) (q : QIdx) : (qp pk).queueEng 0 q = eng (.puppet ⟨0, idx 144 q.val⟩) := qworld_eng _ _ _ _ q

/-- A packet whose address, or first pair, is at some address passes its check when that can be reached. -/
theorem check_plain {s : State} {i : SliceId} {q : QIdx} {r x y : Word} {w : List W32} (hb : s.malformed i w = false)
    (hw : (2 ≤ pkType w ∧ pkType w ≤ 7) ∧ (pkType w ≤ 5 → dwordAt w 2 = x) ∧ (pkType w = 4 → pkPairs w = [(x, y)]))
    (hm : ∀ k n, n ≤ 128 → s.meet (s.queueEng i q) k x n = .ok) : s.checkPacket i q r w = .pass := by
  obtain ⟨⟨h1, h2⟩, h3, h4⟩ := hw
  have ht : (!(decide (1 ≤ pkType w) && decide (pkType w ≤ 7))) = false := by simp [h2]; omega
  simp only [State.checkPacket, ht, hb, Bool.false_eq_true, if_false]
  generalize pkType w = t at *
  match t, h1, h2, h3, h4 with
  | 2, _, _, h3, _ => simp [h3, hm, checkMeet]
  | 3, _, _, h3, _ => simp [h3, hm, checkMeet]
  | 4, _, _, _, h4 => simp [h4, hm, checkMeet]
  | 5, _, _, h3, _ => simp [h3, hm, checkMeet]
  | 6, _, _, _, _ => rfl
  | 7, _, _, _, _ => rfl

/-- The queue has a packet of each type, or none: RDIDX = WRIDX. -/
theorem witness_QueuePacketsStart (type : Nat) (ht : type = 2 ∨ type = 3 ∨ type = 4 ∨ type = 5 ∨ type = 6 ∨ type = 7) :
    let s := qp (pkOf type)
    let k := s.qslot 0 0
    let q := k.q
    let e := s.queueEng 0 q
    let ring := qcRing k.qcb + BitVec.ofNat 64 ((qcRd k.qcb).toNat % qcSize k.qcb * 64)
    let w := s.engWords e 1 ring 16
    k.state = 1 ∧ k.stop = false ∧ qcStopped k.qcb = false ∧ s.featured 0 = true ∧ s.hasAgent 0 = true ∧ k.blk = 0 ∧ s.queueWaits 0 q = false ∧ k.copy = [] ∧ qcWr k.qcb ≠ qcRd k.qcb ∧ s.isParked (.queue 0 q 0) = false
      ∧ s.meetBoth e ring 64 = .ok ∧ s.meet e 2 ring 4 = .ok ∧ s.reach e.part e.asid ring 2 = .ok 0x460000 false ∧ isGlobal ring ∧ targetOf 0x460000 = .hbm 0
      ∧ ring.toNat % 64 = 0 ∧ pkType w = type ∧ s.checkPacket 0 q (qcRcb k.qcb) w = .pass ∧ pkBarrier w = false := by
  intro s k q e ring w
  have hk : k = mappedSlot := rfl
  have hq : q = 0 := rfl
  have he : e = eng (.puppet ⟨0, idx 144 q.val⟩) := qp_eng _ _
  have hr : ring = 0x460000 := by
    have : ring = qcRing (qcb false) + BitVec.ofNat 64 ((qcRd (qcb false)).toNat % qcSize (qcb false) * 64) := rfl
    rw [this]
    decide +kernel
  have hw : w = pkOf type := by
    have : w = s.engWords (eng (.puppet ⟨0, idx 144 q.val⟩)) 1 0x460000 16 := by simp only [w, he, hr]
    rw [this, qworld_engWords _ _ _ _ _ _ _ _ (by decide) (by decide)]
    rcases ht with h | h | h | h | h | h <;> subst h <;> decide +kernel
  have hm (k : Nat) (va : Word) (n : Nat) (h : va.toNat + n ≤ 2 ^ 30) : s.meet e k va n = .ok := by rw [he]; exact qworld_meet _ _ _ _ _ _ _ _ h
  have hf : s.featured 0 = true := by
    have : s.partOf 0 = some 0 := by
      have : s.partOf 0 = ({ State.reset with prc := prc } : State).partOf 0 := rfl
      rw [this]; decide +kernel
    simp only [State.featured, this]
    rfl
  refine ⟨rfl, rfl, (qcb_ok false).2.2, hf, qworld_agent _ _ _ _, rfl, rfl, rfl, by rw [hk]; decide +kernel, rfl, ?_, by rw [hr]; exact hm _ _ _ (by decide), ?_, by rw [hr]; exact ⟨by decide, by decide⟩, by decide,
    by rw [hr]; decide, ?_, ?_, ?_⟩
  · rw [he, hr]; exact qworld_meetBoth _ _ _ _ _ _ _ (by decide)
  · rw [he, hr]; exact reach_mapped (qworld_mapped _ _ _ _) _ (by decide) _
  · rw [hw]; rcases ht with h | h | h | h | h | h <;> subst h <;> decide +kernel
  · rw [hw]
    have hbad : s.malformed 0 (pkOf type) = false := by
      have : s.partOf! 0 = 0 := qworld_part _ _ _ _
      rcases ht with h | h | h | h | h | h <;> subst h <;> decide +kernel
    exact check_plain (x := 0x470000) (y := 5) hbad (by rcases ht with h | h | h | h | h | h <;> subst h <;> decide +kernel) fun k n hn => hm k 0x470000 n (by show 0x470000 + n ≤ 2 ^ 30; omega)
  · rw [hw]; rcases ht with h | h | h | h | h | h <;> subst h <;> decide +kernel

theorem witness_QueuePacketsStart_none : let w := setDword (qcb false) 4 0
    qcWr w = qcRd w := by decide +kernel

/-- The home of slice 0 holds one line, mapped where its name says. -/
def HoldsLine (s : State) (pl : Nat) : Prop := ∃ x : L2Line, (s.slice 0).l2 = [(pl, x)] ∧ x.key = lineKey asid pl ∧ x.hc = false

/-- A write of an engine below 1 GiB, of a line that its home holds: the bytes go to HBM, and no register changes. -/
theorem writeRun_named {s : State} (h : Mapped s) (a : Agent) (va : Nat) (hv : va < 2 ^ 30) (hn : HoldsLine s (va / 64)) (bs : List Byte) :
    let t := (s.writeRun (eng a) va bs).1
    t.mem = memWrite s.mem va bs ∧ t.prc = s.prc ∧ (s.poison = [] → t.poison = []) ∧ (t.slice 0).regs = (s.slice 0).regs ∧ HoldsLine t (va / 64) := by
  have e : (BitVec.ofNat 64 va).toNat = va := by simp only [BitVec.toNat_ofNat]; omega
  have ht : targetOf va = .hbm 0 := by
    have h1 : va / 2 ^ 40 = 0 := by omega
    have h2 : va / 2 ^ 37 = 0 := by omega
    simp only [targetOf, h1, h2, if_true]
    rfl
  have hh : (s.home 0 (va / 64)).1 = 0 := home_of_one s 0 _ h.members
  obtain ⟨x, hx, hk, hc⟩ := hn
  have hf : tabFind (s.slice 0).l2 (va / 64) = some x := by simp [hx, tabFind]
  have hr := reach_nat h va hv 6
  simp only [State.writeRun, engPlace_low s a va hv]
  simp only [eng, hr, ht, e, hh, State.nameAt, hf, State.holdLine_held hf]
  generalize hs1 : (s.modSlice 0 fun k => { k with l2 := tabSet k.l2 (va / 64) { x with used := k.l2Uses + 1 }, l2Uses := k.l2Uses + 1 }) = s1
  have m1 : s1.mem = s.mem ∧ s1.prc = s.prc ∧ s1.poison = s.poison ∧ (s1.slice 0).regs = (s.slice 0).regs ∧ HoldsLine s1 (va / 64) := by
    subst hs1
    refine ⟨rfl, rfl, rfl, by simp only [State.slice_modSlice, if_true], { x with used := (s.slice 0).l2Uses + 1 }, ?_, hk, hc⟩
    simp only [State.slice_modSlice, if_true, hx, tabSet]
    simp
  clear hs1
  have ds := s1.hbmStore_sameDies va bs
  generalize hs2 : s1.hbmStore va bs = s2 at *
  have dn : ∀ t, (s2.noteWrite 0 (va / 64) t).mem = s2.mem ∧ (s2.noteWrite 0 (va / 64) t).prc = s2.prc ∧ (s2.noteWrite 0 (va / 64) t).poison = s2.poison
      ∧ ((s2.noteWrite 0 (va / 64) t).slice 0).regs = (s2.slice 0).regs ∧ ((s2.noteWrite 0 (va / 64) t).slice 0).l2 = (s2.slice 0).l2 := by
    intro t
    have : (s2.noteWrite 0 (va / 64) t).slice 0 = (s2.modSlice 0 fun x => { x with lineWct := tabSet x.lineWct (va / 64) t }).slice 0 := rfl
    refine ⟨rfl, rfl, rfl, ?_, ?_⟩ <;> simp only [this, State.slice_modSlice, if_true]
  have fin : ∀ (t : Word) (u : State), (s2.noteWrite 0 (va / 64) t).SameDies u →
      u.mem = memWrite s.mem va bs ∧ u.prc = s.prc ∧ (s.poison = [] → u.poison = []) ∧ (u.slice 0).regs = (s.slice 0).regs ∧ HoldsLine u (va / 64) := by
    intro t u d
    obtain ⟨n1, n2, n3, n4, n5⟩ := dn t
    obtain ⟨k1, k2, k3, k4, y, ky, kk, kc⟩ := m1
    refine ⟨?_, ?_, fun hp => ?_, ?_, y, ?_, kk, kc⟩
    · rw [d.mem, n1, ds.mem, ← k1]; rfl
    · rw [d.prc, n2, ds.prc, ← k2]; rfl
    · rw [d.poison, n3, ds.poison, State.hbmWrite, k3, hp]; rfl
    · rw [d.regs, n4, ds.regs, ← k4]; rfl
    · rw [d.l2, n5, ds.l2, ← ky]; rfl
  split_ifs
  · exact fin _ _ (.refl _)
  · exact fin _ _ ((State.observe_sameDies _ _ _).trans (State.l1Update_sameDies _ _ _ _))

theorem memRead_outside (m : Memory) (a : Nat) (bs : List Byte) (n : Nat) : ∀ b, b + n ≤ a ∨ a + bs.length ≤ b → memRead (memWrite m a bs) b n = memRead m b n := by
  induction n with
  | zero => intros; rfl
  | succ n ih => intro b h; simp only [memRead]; rw [ih (b + 1) (by omega), memGet_memWrite, if_neg (by omega)]

/-- Such a write above the tables leaves the mapping. -/
theorem mapped_write {s t : State} (h : Mapped s) (va : Nat) (bs : List Byte) (hv : 0x400000 ≤ va) (hm : t.mem = memWrite s.mem va bs) (hp : t.prc.regs = s.prc.regs)
    (hr : (t.slice 0).regs = (s.slice 0).regs) (hl : ∀ l e, (t.slice 0).lineOf (lineKey asid l) = some e → e.1 = l ∧ e.2.hc = false) : Mapped t := by
  have ha := asid_lt
  have e (a : Nat) (h8 : a + 8 ≤ 0x400000) : t.tableEntry a = s.tableEntry a := by
    simp only [State.tableEntry, memReadLE, hm, memRead_outside s.mem va bs 8 a (by omega)]
  have hmem : t.member 0 = s.member 0 := by
    funext i
    simp only [State.member, State.partValid, State.pmap, State.prcReg, hp]
  exact ⟨by rw [State.memberSlices, hmem]; exact h.members, by simp only [State.sliceReg, hr]; exact h.base, (e _ (by omega)).trans h.dir, (e _ (by omega)).trans h.root,
    (e _ (by omega)).trans h.leaf, hl⟩

theorem engWrite_header (s : State) (e : EngId) : (s.engWrite e 0x460000 [0, 0, 0, 0]).1 = (s.writeRun e 0x460000 [0, 0, 0, 0]).1 := by
  have hr : runsOf 0x460000 [(0 : Byte), 0, 0, 0].length = [(0x460000, 4)] := by decide +kernel
  simp only [State.engWrite, hr, State.engWriteRuns]
  rfl

/-- After the header of the packet is written the region blocks resolve as before. -/
theorem qslot_written {s : State} {b : Bool} {pk : List W32} (h : Mapped s) (hm : s.mem = tables ++ qmem b pk) (hp : s.poison = []) (hr : s.prc.regs = prc.regs)
    (hn : HoldsLine s (0x460000 / 64)) (a : Agent) :
    ((s.engWrite (eng a) 0x460000 [0, 0, 0, 0]).1).rcbWalk (eng a) 0x440000 = .ok [(0x440000, rcb3), (0x430000, rcb2), (0x420000, rcb1), (0x410000, rcb0)] := by
  rw [engWrite_header]
  obtain ⟨h1, h2, h3, h4, y, h5, h6, h7⟩ := writeRun_named h a 0x460000 (by decide) hn [0, 0, 0, 0]
  generalize (s.writeRun (eng a) 0x460000 [0, 0, 0, 0]).1 = t at *
  have ht := mapped_write h 0x460000 _ (by decide) h1 (by rw [h2]) h4 (lines_one h5 h6 h7)
  refine (walk_blocks b a (fun va h => meet_mapped ht (h3 hp) a 1 va 256 h) (fun va k1 k2 => ?_) (nseg_of (by rw [h2, hr]))).1
  rw [engWords_mapped ht a 1 va 64 (by omega), h1, memRead_outside _ _ _ _ _ (.inl k2), hm, memRead_high _ _ _ k1, qmem_below b pk _ _ k2]

/-- A LAUNCH of class 3, one of a class that HOLD takes to a point, and a slot that holds it. -/
def launchPk : List W32 := [0xC01, 0, 0x450000, 0, 0x440000, 0, 0, 0, 0, 0, 0, 0, 0, 0, 0, 0]
def heldPk (class1 : Bool) : List W32 := [if class1 then 0x1401 else 0x1001, 0, 0x450000, 0, 0x440000, 0, 0, 0, 0, 0, 0, 0, 0, 0, 0, 0]
def heldSlot (class1 : Bool) : QSlot := { mappedSlot with blk := 2, held := some (0, heldPk class1 ++ lrec), holdSince := 999 }

/-- The grid's block is at its level, and its parent is the queue's. -/
theorem checkGrcb_pass {s : State} {e : EngId} {x : List W32} (h4 : dwordAt x 4 = 0x440000)
    (hw : s.rcbWalk e 0x440000 = .ok [(0x440000, rcb3), (0x430000, rcb2), (0x420000, rcb1), (0x410000, rcb0)]) : s.checkGrcb e x 0x430000 = .pass := by
  have h1 : rcbLevel rcb3 = 3 := by decide +kernel
  simp only [State.checkGrcb, h4, hw, h1]
  rfl

/-- A LAUNCH of class 3 at RDIDX. -/
theorem witness_Launches :
    let s := qp launchPk
    let k := s.qslot 0 0
    let q := k.q
    let e := s.queueEng 0 q
    let ring := qcRing k.qcb + BitVec.ofNat 64 ((qcRd k.qcb).toNat % qcSize k.qcb * 64)
    let w := s.engWords e 1 ring 16
    let lrec := s.engWords e 1 (dwordAt w 2) 64
    k.state = 1 ∧ k.stop = false ∧ qcStopped k.qcb = false ∧ s.featured 0 = true ∧ s.hasAgent 0 = true ∧ k.blk = 0 ∧ s.queueWaits 0 q = false ∧ k.copy = [] ∧ k.held = none ∧ qcWr k.qcb ≠ qcRd k.qcb ∧ s.isParked (.queue 0 q 0) = false
      ∧ s.meetBoth e ring 64 = .ok ∧ pkType w = 1 ∧ s.checkPacket 0 q (qcRcb k.qcb) w = .pass ∧ pkBarrier w = false ∧ pkClass w = 3 ∧ pkHold w = false
      ∧ s.meet e 2 ring 4 = .ok ∧ s.checkGrcb e (w ++ lrec) (qcRcb k.qcb) = .pass
      ∧ ((s.engWrite e ring [0, 0, 0, 0]).1).rcbWalk e (dwordAt w 4) = .ok [(0x440000, rcb3), (0x430000, rcb2), (0x420000, rcb1), (0x410000, rcb0)] := by
  intro s k q e ring w rec
  have hf : s.featured 0 = true := by
    have : s.partOf 0 = some 0 := by
      have : s.partOf 0 = ({ State.reset with prc := prc } : State).partOf 0 := rfl
      rw [this]; decide +kernel
    simp only [State.featured, this]
    rfl
  have hk : k = mappedSlot := rfl
  have hq : q = 0 := rfl
  have he : e = eng (.puppet ⟨0, idx 144 q.val⟩) := qp_eng _ _
  have hr : ring = 0x460000 := by
    have : ring = qcRing (qcb false) + BitVec.ofNat 64 ((qcRd (qcb false)).toNat % qcSize (qcb false) * 64) := rfl
    rw [this]
    decide +kernel
  have hw : w = launchPk := by
    have : w = s.engWords (eng (.puppet ⟨0, idx 144 q.val⟩)) 1 0x460000 16 := by simp only [w, he, hr]
    rw [this, qworld_engWords _ _ _ _ _ _ _ _ (by decide) (by decide)]
    decide +kernel
  have hl : s.engWords e 1 0x450000 64 = lrec := by
    rw [he, qworld_low _ _ _ _ _ _ _ _ (by decide) (by decide)]
    exact (qbase_words false).2.2.2.2.2
  have hrec : rec = lrec := by
    have : rec = s.engWords e 1 (dwordAt launchPk 2) 64 := by simp only [rec, hw]
    rw [this, ← hl]
    rfl
  have hm (k : Nat) (va : Word) (n : Nat) (h : va.toNat + n ≤ 2 ^ 30) : s.meet e k va n = .ok := by rw [he]; exact qworld_meet _ _ _ _ _ _ _ _ h
  have hg (x : List W32) (hx : dwordAt x 4 = 0x440000) : s.checkGrcb e x (qcRcb k.qcb) = .pass := by
    have h2 : qcRcb mappedSlot.qcb = 0x430000 := by decide +kernel
    rw [he, hk, h2]
    exact checkGrcb_pass hx (qworld_walk _ _ _ _ _).1
  have ht : (qcb false) = mappedSlot.qcb := rfl
  refine ⟨rfl, rfl, (qcb_ok false).2.2, hf, qworld_agent _ _ _ _, rfl, rfl, rfl, rfl, by rw [hk]; decide +kernel, rfl, ?_, ?_, ?_, ?_, ?_, ?_, by rw [hr]; exact hm _ _ _ (by decide), ?_, ?_⟩
  · rw [he, hr]; exact qworld_meetBoth _ _ _ _ _ _ _ (by decide)
  · rw [hw]; decide +kernel
  · rw [hw]
    have hbad : s.malformed 0 launchPk = false := by
      have : s.partOf! 0 = 0 := qworld_part _ _ _ _
      decide +kernel
    have h1 : pkType launchPk = 1 := by decide +kernel
    have h2 : dwordAt launchPk 2 = 0x450000 := by decide +kernel
    have h3 : lrecOk lrec = true := by decide +kernel
    simp only [State.checkPacket, hbad, h1, h2]
    rw [hm 1 0x450000 256 (by decide), hl, h3, hg _ (by decide +kernel)]
    rfl
  · rw [hw]; decide +kernel
  · rw [hw]; decide +kernel
  · rw [hw]; decide +kernel
  · rw [hw, hrec]; exact hg _ (by decide +kernel)
  · rw [hw, hr, he]
    have : dwordAt launchPk 4 = 0x440000 := by decide +kernel
    rw [this]
    exact qslot_written (qworld_mapped _ _ _ _) rfl rfl rfl ⟨_, rfl, rfl, rfl⟩ _

/-- A held LAUNCH of class 1, whose point is the slice's, and one of class 0, whose point is not. -/
theorem witness_Launches_held (class1 : Bool) :
    let s := qworld false [] (some (heldSlot class1)) []
    let k := s.qslot 0 0
    let q := k.q
    let e := s.queueEng 0 q
    let w := heldPk class1
    let ring := qcRing k.qcb + BitVec.ofNat 64 ((0 : Word).toNat % qcSize k.qcb * 64)
    k.state = 1 ∧ s.hasAgent 0 = true ∧ k.blk = 2 ∧ k.held = some (0, w ++ lrec) ∧ w.length = 16 ∧ pkType w = 1 ∧ s.isParked (.queue 0 q 0) = false ∧ s.holdOver 0 k (w ++ lrec) = class1
      ∧ s.meet e 2 ring 4 = .ok ∧ s.checkGrcb e (w ++ lrec) (qcRcb k.qcb) = .pass
      ∧ ((s.engWrite e ring [0, 0, 0, 0]).1).rcbWalk e (dwordAt w 4) = .ok [(0x440000, rcb3), (0x430000, rcb2), (0x420000, rcb1), (0x410000, rcb0)] := by
  intro s k q e w ring
  have he : e = eng (.puppet ⟨0, idx 144 q.val⟩) := qworld_eng _ _ _ _ _
  have hr : ring = 0x460000 := by
    have : ring = qcRing (qcb false) + BitVec.ofNat 64 ((0 : Word).toNat % qcSize (qcb false) * 64) := rfl
    rw [this]
    decide +kernel
  have h4 : dwordAt w 4 = 0x440000 := by cases class1 <;> decide +kernel
  have h4' : dwordAt (w ++ lrec) 4 = 0x440000 := by cases class1 <;> decide +kernel
  have ht : pkType w = 1 := by cases class1 <;> decide +kernel
  refine ⟨rfl, qworld_agent _ _ _ _, rfl, rfl, rfl, ht, rfl, by clear h4 h4' ht hr he; cases class1 <;> decide +kernel, ?_, ?_, ?_⟩
  · rw [he, hr]; exact qworld_meet _ _ _ _ _ _ _ _ (by decide)
  · have h2 : qcRcb k.qcb = 0x430000 := by
      have : k.qcb = qcb false := rfl
      rw [this]; decide +kernel
    rw [he, h2]
    exact checkGrcb_pass h4' (qworld_walk _ _ _ _ _).1
  · rw [h4, hr, he]
    exact qslot_written (qworld_mapped _ _ _ _) rfl rfl rfl ⟨_, rfl, rfl, rfl⟩ _

end Sys2Proof.Machine.Tests
end

