-- ==== Sys2Proof/Tests/Witness5.lean ====
section
/-! SUPPORT. Witnesses for the statements about kicks and the mapping of queues, waits, watchdogs and placement. -/

namespace Sys2Proof.Machine.Tests

-- One theorem after another: a file of closed evaluations needs no more than one thread.
set_option Elab.async false

/-- A stopped queue, mapped. -/
def stoppedSlot : QSlot := { state := 1, qcba := 0x400000, qcb := qcb true }

/-- A kick before the feature word is accepted. -/
def unfeatured : State := { qp [] with prc := prc }

theorem witness_QueueKicksAndMapping_unfeatured :
    unfeatured.featured 0 = false ∧ unfeatured.slotOf 0 0 = some 0 ∧ (qcWr (unfeatured.qslot 0 0).qcb).toNat < (2 : Word).toNat := by
  have hp : unfeatured.partOf 0 = some 0 := partOf_zero (members_of rfl)
  exact ⟨by rw [State.featured, hp]; rfl, by decide +kernel, by decide +kernel⟩

/-- The queue mapped, WRIDX = 1, and a store of 1 or 2; the queue mapped and stopped. -/
theorem witness_QueueKicksAndMapping_kick :
    let s := qp []
    let e := s.queueEng 0 0
    s.featured 0 = true ∧ s.partOf 0 ≠ none ∧ s.isParked (.queue 0 0 1) = false ∧ s.meet e 1 (s.dirAddr 0 0) 8 = .ok ∧ (s.dirEntry 0 0).getLsbD 0 = true ∧ s.slotOf 0 0 = some 0
      ∧ (1 : Word).toNat ≤ (qcWr (s.qslot 0 0).qcb).toNat ∧ (qcWr (s.qslot 0 0).qcb).toNat < (2 : Word).toNat
      ∧ ((2 : Word) - qcRd (s.qslot 0 0).qcb).toNat ≤ qcSize (s.qslot 0 0).qcb := by
  intro s e
  have he : e = eng (.puppet ⟨0, idx 144 0⟩) := qp_eng _ _
  have hp : s.partOf 0 = some 0 := partOf_zero (qworld_mapped _ _ _ _).members
  refine ⟨by rw [State.featured, hp]; rfl, ?_, rfl, ?_, ?_, by decide +kernel, by decide +kernel, by decide +kernel, by decide +kernel⟩
  · have : s.partOf 0 = ({ State.reset with prc := prc } : State).partOf 0 := rfl
    rw [this]; decide +kernel
  · rw [he, (qworld_dir _ _ _ _).1]; exact qworld_meet _ _ _ _ _ _ _ _ (by decide)
  · rw [(qworld_dir _ _ _ _).2]; decide

theorem witness_QueueKicksAndMapping_stopped :
    let s := qworld true [] (some stoppedSlot) []
    let k := s.qslot 0 0
    let q := k.q
    k.state = 1 ∧ qcStopped k.qcb = true ∧ s.queueBusy 0 q = false ∧ s.hasAgent 0 = true ∧ s.isParked (.queue 0 q 0) = false ∧ s.meetBoth (s.queueEng 0 q) k.qcba 128 = .ok := by
  intro s k q
  refine ⟨rfl, (qcb_ok true).2.2, rfl, qworld_agent _ _ _ _, rfl, ?_⟩
  have : s.queueEng 0 q = eng (.puppet ⟨0, idx 144 q.val⟩) := qworld_eng _ _ _ _ _
  rw [this]
  exact qworld_meetBoth _ _ _ _ _ _ _ (by decide)

/-- Queue 0 pending and in no slot. -/
def pendingQ : State := { qworld false [] none [] with slices := [(0, { qslice none [] with regs := [(0x420, 0x408000), (0x440, 1), (0x760, 0x80000)] })] }

theorem pendingQ_mapped : Mapped pendingQ := by
  refine mapped_of _ (qmem false []) rfl (qmem_high false []) ?_ rfl (lines_one (pl := 0x460000 / 64) rfl rfl rfl)
  have : pendingQ.member 0 = ({ State.reset with prc := prc } : State).member 0 := rfl
  rw [State.memberSlices, this]
  decide +kernel

theorem pendingQ_words (a : Agent) (k : Nat) (va : Word) (n : Nat) (h1 : 0x400000 ≤ va.toNat) (h2 : va.toNat + 4 * n ≤ 0x460000) :
    pendingQ.engWords (eng a) k va n = bytesToWords n (memRead (qbase false) va.toNat (4 * n)) := by
  rw [engWords_mapped pendingQ_mapped a k va n (by omega), ← qmem_below false [] _ _ h2]
  congr 1
  exact memRead_high (qmem false []) _ _ h1

theorem pendingQ_eng (q : QIdx) : pendingQ.queueEng 0 q = eng (.puppet ⟨0, idx 144 q.val⟩) := by
  have : pendingQ.partOf! 0 = 0 := by
    have : pendingQ.partOf 0 = ({ State.reset with prc := prc } : State).partOf 0 := rfl
    rw [State.partOf!, this]
    decide +kernel
  simp only [State.queueEng, this, eng]

theorem pendingQ_dir : pendingQ.dirAddr 0 0 = 0x408000 ∧ pendingQ.dirEntry 0 0 = 0x400001 := by
  have hd : pendingQ.dirAddr 0 0 = 0x408000 := by
    have : pendingQ.sliceReg 0 0x420 = 0x408000 := rfl
    rw [State.dirAddr, this]
    decide +kernel
  refine ⟨hd, ?_⟩
  rw [State.dirEntry, hd, pendingQ_eng, engBytes_mapped pendingQ_mapped _ _ _ _ (by decide)]
  have : memRead pendingQ.mem (0x408000 : Word).toNat 8 = memRead (qbase false) 0x408000 8 :=
    (memRead_high (qmem false []) _ _ (by decide)).trans (qmem_below false [] _ _ (by decide))
  rw [this]
  decide +kernel

theorem qcbOf_memory {s : State} {i : SliceId} {q : QIdx} {w : List W32} (h : s.slotOf i q = none) (h1 : s.meet (s.queueEng i q) 1 (s.dirAddr i q) 8 = .ok)
    (h2 : s.dirEntry i q = 0x400001) (h3 : s.meetBoth (s.queueEng i q) 0x400000 128 = .ok) (h4 : s.engWords (s.queueEng i q) 1 0x400000 32 = w) :
    s.qcbOf i q = some (w, 0x400000) := by
  have e1 : entryQcb 0x400001 = 0x400000 := by decide
  have e2 : bitAt (0x400001 : Word) 0 = true := by decide
  have hm : s.meetQcb i q = .ok := by simp only [State.meetQcb, h, h1, h2, e1, e2, h3]; rfl
  simp only [State.qcbOf, h, hm, h2, e1, h4, if_true]

theorem candidate_some {s : State} {i : SliceId} {q : QIdx} {w : List W32} {a : Word} {ns : List (Word × List W32)} (h : s.rcbWalk (s.queueEng i q) (qcRcb w) = .ok ns) :
    ∃ c, s.candidate i q w a = some c := by
  simp only [State.candidate, h]
  exact ⟨_, rfl⟩

theorem witness_QueueKicksAndMapping_map :
    let s := pendingQ
    s.hasAgent 0 = true ∧ (∀ m < 256, (s.qslot 0 m).state ≠ 2) ∧ s.featured 0 = true ∧ (∀ m < 4096, s.pending 0 m = true ↔ m = (0 : QIdx).val) ∧ s.slotOf 0 0 = none ∧ s.qcbOf 0 0 = some (qcb false, 0x400000)
      ∧ qcMapOk (qcb false) = true ∧ qcIdx (qcb false) = 0 ∧ qcStopped (qcb false) = false ∧ (∃ c, s.candidate 0 0 (qcb false) 0x400000 = some c) ∧ (s.qslot 0 0).state = 0 := by
  have hs : pendingQ.slotOf 0 0 = none := by decide +kernel
  have hm (k : Nat) (va : Word) (n : Nat) (h : va.toNat + n ≤ 2 ^ 30) : pendingQ.meet (pendingQ.queueEng 0 0) k va n = .ok := by
    rw [pendingQ_eng]; exact meet_mapped pendingQ_mapped rfl _ _ _ _ h
  refine ⟨by decide +kernel, by decide +kernel, ?_, ?_, hs, ?_, (qcb_ok false).1, (qcb_ok false).2.1, (qcb_ok false).2.2, ?_, by decide +kernel⟩
  · have : pendingQ.partOf 0 = some 0 := by
      have : pendingQ.partOf 0 = ({ State.reset with prc := prc } : State).partOf 0 := rfl
      rw [this]; decide +kernel
    simp only [State.featured, this]
    rfl
  · have h : ∀ k < 64, ∀ b < 64, bitAt (pendingQ.sliceReg 0 (0x440 + k)) b = (k == 0 && b == 0) := by decide +kernel
    intro m hm
    have e : (0 : QIdx).val = 0 := rfl
    simp only [State.pending, h (m / 64) (by omega) (m % 64) (by omega), e]
    simp
    omega
  · refine qcbOf_memory hs (by rw [pendingQ_dir.1]; exact hm _ _ _ (by decide)) pendingQ_dir.2 ?_ ?_
    · rw [pendingQ_eng]; exact meetBoth_mapped pendingQ_mapped rfl _ _ _ (by decide)
    · rw [pendingQ_eng, pendingQ_words _ _ _ _ (by decide) (by decide)]; exact (qbase_words false).2.2.2.2.1
  · have hr : qcRcb (qcb false) = 0x430000 := by decide +kernel
    refine candidate_some (ns := [(0x430000, rcb2), (0x420000, rcb1), (0x410000, rcb0)]) ?_
    rw [hr, pendingQ_eng]
    exact (walk_blocks false _ (fun va h => meet_mapped pendingQ_mapped rfl _ 1 va 256 h) (fun va h1 h2 => pendingQ_words _ 1 va 64 h1 h2) (nseg_of rfl)).2

/-- A started WAIT for the value at 0x470000 to be at least a limit; the value is 0. -/
def waitFor (limit : Nat) : Started := { slice := 0, q := 0, pidx := 0, words := [3, 0, 0x470000, 0, BitVec.ofNat 32 limit, 0, 0, 0, 0, 0, 0, 0, 0, 0, 0, 0] }
def waitingQ (limit : Nat) : State := { qp [] with started := [waitFor limit] }

theorem waitingQ_mapped (limit : Nat) : Mapped (waitingQ limit) := by
  refine mapped_of _ (qmem false []) rfl (qmem_high false []) ?_ rfl (lines_one (pl := 0x460000 / 64) rfl rfl rfl)
  have : (waitingQ limit).member 0 = ({ State.reset with prc := prc } : State).member 0 := rfl
  rw [State.memberSlices, this]
  decide +kernel

/-- The condition is met for the limit 0 and not for 1. -/
theorem witness_WaitsAndWatchdogs_wait (limit : Nat) (hl : limit = 0 ∨ limit = 1) :
    let s := waitingQ limit
    let x := waitFor limit
    let k := s.qslot 0 0
    let q := k.q
    let e := s.queueEng 0 q
    let a := dwordAt x.words 2
    s.hasAgent 0 = true ∧ s.waiter 0 q = some x ∧ x.slice = 0 ∧ x.q = q ∧ pkType x.words = 3 ∧ s.isParked (.queue 0 q 0) = false ∧ isGlobal a ∧ a.toNat % 8 = 0
      ∧ s.reach e.part e.asid a 7 = .ok 0x470000 false ∧ targetOf 0x470000 = .hbm 0 ∧ s.meet e 7 a 8 = .ok ∧ bitsOf (wordAt x.words 1) 1 0 = 0
      ∧ ((dwordAt x.words 4).toInt ≤ (s.hbmRead 0x470000 8).toInt ↔ limit = 0) := by
  intro s x k q e a
  have hq : q = 0 := rfl
  have ha : a = 0x470000 := by rcases hl with h | h <;> subst h <;> decide +kernel
  have he : e = eng (.puppet ⟨0, idx 144 q.val⟩) := by
    have : s.partOf! 0 = 0 := qworld_part false [] (some mappedSlot) []
    simp only [e, State.queueEng, this, eng]
  have hv : s.hbmRead 0x470000 8 = 0 := by
    rw [hbmRead_high (s := s) (m := qmem false []) rfl _ _ (by decide)]
    decide +kernel
  refine ⟨qworld_agent false [] (some mappedSlot) [], ?_, rfl, hq.symm, by rcases hl with h | h <;> subst h <;> decide +kernel, by rw [hq]; rfl, by rw [ha]; exact ⟨by decide, by decide⟩, by rw [ha]; decide, ?_, by decide, ?_,
    by rcases hl with h | h <;> subst h <;> decide +kernel, ?_⟩
  · rw [hq]; rcases hl with h | h <;> subst h <;> decide +kernel
  · rw [he, ha]; exact reach_mapped (waitingQ_mapped limit) _ (by decide) _
  · rw [he, ha]; exact meet_mapped (waitingQ_mapped limit) rfl _ _ _ _ (by decide)
  · rw [hv]; rcases hl with h | h <;> subst h <;> decide +kernel

/-- A started BARRIER_AND with the first of two signals met before, and the second at 0x470000 with a limit. -/
def barrierFor (limit : Nat) : Started :=
  { slice := 0, q := 0, pidx := 0, words := [4, 0, 0x480000, 0, 9, 0, 0x470000, 0, BitVec.ofNat 32 limit, 0, 0, 0, 0, 0, 0, 0], met := [2] }
def barrierQ (limit : Nat) : State := { qp [] with started := [barrierFor limit] }

theorem witness_WaitsAndWatchdogs_barrier (limit : Nat) (hl : limit = 0 ∨ limit = 1) :
    let s := barrierQ limit
    let x := barrierFor limit
    let e := s.queueEng 0 0
    s.hasAgent 0 = true ∧ s.waiter 0 0 = some x ∧ x.slice = 0 ∧ x.q = 0 ∧ pkType x.words = 4 ∧ s.isParked (.queue 0 0 0) = false
      ∧ ([2, 6, 10].filter fun n => dwordAt x.words n != 0 && !x.met.contains n) = [6] ∧ s.meet e 7 (dwordAt x.words 6) 8 = .ok
      ∧ ((dwordAt x.words 8).toInt ≤ (BitVec.ofNat 64 (bytesToNat (s.engBytes e 7 (dwordAt x.words 6) 8)) : Word).toInt ↔ limit = 0) := by
  intro s x e
  have he : e = eng (.puppet ⟨0, idx 144 (0 : QIdx).val⟩) := by
    have : s.partOf! 0 = 0 := qworld_part false [] (some mappedSlot) []
    simp only [e, State.queueEng, this, eng]
  have hm : Mapped s := by
    refine mapped_of _ (qmem false []) rfl (qmem_high false []) ?_ rfl (lines_one (pl := 0x460000 / 64) rfl rfl rfl)
    have : s.member 0 = ({ State.reset with prc := prc } : State).member 0 := rfl
    rw [State.memberSlices, this]
    decide +kernel
  have ha : dwordAt x.words 6 = 0x470000 := by rcases hl with h | h <;> subst h <;> decide +kernel
  have hb : s.engBytes e 7 (dwordAt x.words 6) 8 = List.replicate 8 0 := by
    rw [ha, he, engBytes_mapped hm _ _ _ _ (by decide)]
    have : memRead s.mem (0x470000 : Word).toNat 8 = memRead (qmem false []) 0x470000 8 := memRead_high (qmem false []) _ _ (by decide)
    rw [this]
    decide +kernel
  refine ⟨qworld_agent false [] (some mappedSlot) [], ?_, rfl, rfl, ?_, rfl, ?_, by rw [ha, he]; exact meet_mapped hm rfl _ _ _ _ (by decide), ?_⟩
  · rcases hl with h | h <;> subst h <;> decide +kernel
  · rcases hl with h | h <;> subst h <;> decide +kernel
  · rcases hl with h | h <;> subst h <;> decide +kernel
  · rw [hb]; rcases hl with h | h <;> subst h <;> decide +kernel

/-- A started LAUNCH whose count stands at the limit of 0, with a limit of 0, and one whose count stands below a limit of 1000. -/
def watched : Started := { slice := 0, q := 0, pidx := 0, words := launchPk, grid := some 1, count := 5 }
def dogQ (limit : Nat) : State :=
  { qp [] with started := [watched], slices := [(0, { qslice (some mappedSlot) [] with regs := [(0x420, 0x408000), (0x422, BitVec.ofNat 64 limit), (0x760, 0x80000)] })] }

theorem witness_WaitsAndWatchdogs_dog :
    (dogQ 0).startedAt 0 0 0 = some watched ∧ watched.grid.isSome = true ∧ watched.expired = false ∧ (dogQ 0).dogLimit 0 0 ≤ watched.count
      ∧ (dogQ 0).server 0 0 = some c0 ∧ (dogQ 0).slotOf 0 0 = some 0 ∧ ((dogQ 0).core c0).puppet.events.length < 64
      ∧ (dogQ 1).startedAt 0 0 0 = some watched ∧ watched.count < (dogQ 1).dogLimit 0 0 := by decide +kernel

/-! ### Placement -/

/-- A grid of 2 workgroups or neighbourhoods, of a width, with scratchpad. -/
def placed (w spad : Nat) : Grid :=
  { lrec := [BitVec.ofNat 32 (0x1000 + 512 * w), 0x801, BitVec.ofNat 32 (2 * w), BitVec.ofNat 32 spad, 0, 0, 1, 0, 0x1000] ++ List.replicate 55 0, asid := asid, claimed := 0 }
/-- The module with that grid as number 2; a reservation map for cluster 0. -/
def placing (w spad : Nat) (occ : BitVec 24) : State :=
  { world [] with grids := [(1, grid), (2, placed w spad)], nextId := 3, slices := [(0, { slice with occMap := [(0, occ)] })] }

/-- An empty chip scratchpad holds a ticket of 0. -/
theorem ticket_zero {s : State} {r : Grid} (h : (s.part r.part).chip = []) : s.ticketOf r = 0 := by
  simp [State.ticketOf, State.chipRead, boundedRead, h, memGet, List.range_succ, bytesToNat, memDefault]

/-- Room; too little scratchpad; a reserved core. -/
theorem witness_WorkgroupPlacement :
    (placing 1 0x100 0).gridOpen c0 2 = true ∧ (placed 1 0x100).perClaim = 1 ∧ (placing 1 0x100 0).agentRoom c0 (placed 1 0x100).need (placed 1 0x100).tenant = true
      ∧ (placing 1 0x100 0).reserved c0 = false ∧ (tabGet {} (placing 1 0x100 0).grids 2) = placed 1 0x100
      ∧ (placing 1 0x100000 0).gridOpen c0 2 = true ∧ (placed 1 0x100000).perClaim = 1
      ∧ (placing 1 0x100000 0).agentRoom c0 (placed 1 0x100000).need (placed 1 0x100000).tenant = false
      ∧ (placing 1 0x100 1).gridOpen c0 2 = true ∧ (placing 1 0x100 1).reserved c0 = true
      ∧ ((placing 1 0x100 0).core c0).puppet.running = true ∧ (placing 1 0x100 0).ticketOf (placed 1 0x100) < lrCount (placed 1 0x100).lrec := by
  refine ⟨?_, ?_, ?_, ?_, rfl, ?_, ?_, ?_, ?_, ?_, ?_, ?_⟩ <;> first
    | decide +kernel
    | (rw [ticket_zero (by rfl)]; decide +kernel)

/-- The chip scratchpad holds 2 at the ticket. -/
def noTicket : State := { placing 1 0x100 0 with prc := { prc with parts := [(0, { chip := [(0, 2)] })] } }

/-- The partition's chip scratchpad is at least a slice's. -/
theorem noTicket_size : 61 * 0x80000 ≤ noTicket.chipSize 0 := by
  have e : noTicket.member 0 = ({ State.reset with prc := prc } : State).member 0 := rfl
  have hm : noTicket.memberSlices 0 = [0] := by
    rw [State.memberSlices, e]
    decide +kernel
  have hc := chipSize_ge noTicket 0 rfl
  rw [hm] at hc
  simpa only [List.length_singleton, Nat.one_mul, Nat.mul_one] using hc

/-- No ticket left. -/
theorem witness_WorkgroupPlacement_none :
    noTicket.gridOpen c0 2 = true ∧ lrCount (placed 1 0x100).lrec ≤ noTicket.ticketOf (placed 1 0x100) := by
  refine ⟨by decide +kernel, ?_⟩
  have h1 : lrCount (placed 1 0x100).lrec = 2 := by decide +kernel
  have hp : (placed 1 0x100).part = 0 := rfl
  have ht : (placed 1 0x100).ticket = 0 := rfl
  have hc : (noTicket.part 0).chip = [(0, 2)] := rfl
  have hn := noTicket_size
  simp only [h1, State.ticketOf, State.chipRead, boundedRead, hp, ht, hc]
  generalize noTicket.chipSize 0 = n at hn
  rw [show (List.range 8).map (fun i => if 0 + i < n then memGet [(0, 2)] (0 + i) else 0) = (List.range 8).map fun i => memGet [(0, 2)] (0 + i) from
    List.map_congr_left fun i hi => if_pos (by have := List.mem_range.mp hi; omega)]
  decide +kernel

/-- What a core finds of a rectangle of 2 × 1. -/
def rect (s : State) (r : Grid) : Option Nat :=
  findRect (tabGet 0 (s.slice c0.slice).occMap c0.cluster)
    ((List.range 24).foldl (fun m j => if s.agentRoom (clusterCore c0.slice c0.cluster j) r.need r.tenant then putBit m j true else m) 0) (lrNbW r.lrec) (lrNbH r.lrec)

/-- A neighbourhood that waits for its second core; the first has started. -/
def halfNbh : Nbh := { grid := 2, w := 2, h := 1, slice := 0, core0 := 0, waitingK := [1], alive := 1 }
def c1 : CoreRef := ⟨0, 1⟩
def starting (spad : Nat) : State := { placing 2 spad 2 with nbhs := [(3, halfNbh)], nextId := 4 }

/-- Two cores free, or no room; a reserved core with room, and one without. -/
theorem witness_NeighbourhoodPlacement :
    (placing 2 0x100 0).gridOpen c0 2 = true ∧ (placed 2 0x100).perClaim ≠ 1 ∧ rect (placing 2 0x100 0) (placed 2 0x100) = some 0
      ∧ (placing 2 0x100000 0).gridOpen c0 2 = true ∧ (placed 2 0x100000).perClaim ≠ 1 ∧ rect (placing 2 0x100000 0) (placed 2 0x100000) = none
      ∧ (starting 0x100).nbhs.find? (fun e => e.2.waitingK.any fun k => e.2.coreAt k == c1) = some (3, halfNbh) ∧ tabFind (starting 0x100).nbhs 3 = some halfNbh
      ∧ halfNbh.waitingK.find? (fun k => halfNbh.coreAt k == c1) = some 1 ∧ (starting 0x100).agentRoom c1 (placed 2 0x100).need (placed 2 0x100).tenant = true
      ∧ (starting 0x100).gridHalted 2 = false ∧ (starting 0x100000).agentRoom c1 (placed 2 0x100000).need (placed 2 0x100000).tenant = false := by
  refine ⟨?_, ?_, ?_, ?_, ?_, ?_, ?_, ?_, ?_, ?_, ?_, ?_⟩ <;> first | rfl | decide +kernel

/-- A bin of grid 1 with a payload, due and waiting, on a core with 8 registers for it or with none. -/
def bin1 (waits : Bool) : SpawnBin := { valid := true, entry := 0x2000, grid := 1, payloads := [7], expiry := 500, wait := waits }
def binned (waits room : Bool) : State :=
  { world [] with slices := [(0, { slice with cores := [(0, { core with bins := [(2, bin1 waits)], groups := [(0, { group with nreg := if room then 16 else 1024 })] })] })] }

theorem witness_SpawnLaunches (waits room : Bool) :
    let s := binned waits room
    let k := s.core c0
    let b : SpawnBin := tabGet {} k.bins 2
    let r : Grid := tabGet {} s.grids b.grid
    b.valid = true ∧ s.gridHalted b.grid = false ∧ b.payloads.length ≤ 96 ∧ (∀ j < 2, (tabGet {} k.bins j).wait = false) ∧ k.slotsFree = 1 :: (List.range 30).map (· + 2)
      ∧ k.roomFor r.spawnNeed r.tenant = room ∧ b.expiry.toNat < s.now.toNat ∧ b.wait = waits := by
  intro s k b r
  refine ⟨?_, ?_, ?_, ?_, ?_, ?_, ?_, ?_⟩ <;> cases waits <;> cases room <;> decide +kernel

end Sys2Proof.Machine.Tests
end

