-- ==== Sys2Proof/Tests/Witness6.lean ====
section
/-! SUPPORT. Witnesses for the statements about lane instructions. -/

namespace Sys2Proof.Machine.Tests

-- One theorem after another: a file of closed evaluations needs no more than one thread.
set_option Elab.async false

/-- The lane stream of the group executing: a block that runs, with lanes 0 to 2 in split 0; the group changed. -/
def lw (f : Group → Group) : State :=
  { (world []).modGroup g0 fun v => f { v with block := some { addr := 0x1000, mask := 7, rnd := 1 }, splits := [(0, { used := true, mask := 7, pc := 5 })] } with
    cur := .lane g0 0 }

theorem mapped_lw (f : Group → Group) : Mapped (lw f) := mapped_of _ [] rfl (by simp) (members_of rfl) (base_of rfl)

/-- What the issue of an instruction without queue operands asks. -/
def issueOk (s : State) (g : GroupRef) (k : Fin 4) (i : Instr) (w : LaneWord) : Bool :=
  let v := s.group g
  decide (s.cur = .lane g k) && v.block.isSome && (v.heldOf k.val).isNone && (v.split k.val).used && !(v.split k.val).atEnd && decide (laneFault (v.split k.val).pc.toNat i = none)
    && !beyondAllotment i w v.nreg && !awaitsLoad v i w && !lostLatch v i w && !s.queueMisuse g i w && (popNames i w).isEmpty && !isQ w.dst

theorem mayIssue_of {s : State} {g : GroupRef} {k : Fin 4} {i : Instr} {w : LaneWord} (h : issueOk s g k i w = true) : s.laneMayIssue g k i w [] s := by
  simp only [issueOk, Bool.and_eq_true, decide_eq_true_eq, Bool.not_eq_true', List.isEmpty_iff, Option.isNone_iff_eq_none] at h
  obtain ⟨⟨⟨⟨⟨⟨⟨⟨⟨⟨⟨h1, h2⟩, h0⟩, h3⟩, h4⟩, h5⟩, h6⟩, h7⟩, h8⟩, h9⟩, h10⟩, h11⟩ := h
  refine ⟨h1, h2, h0, h3, h4, h5, h6, h7, h8, h9, ?_, rfl⟩
  have hp : pushName w = none := by rw [pushName, h11]; rfl
  have hm : s.stepQueues g [] none = [] := rfl
  have hn : s.stepNames g [] none = .ready [] s := rfl
  simp only [State.queueStep, h10, hp, hn, State.queueHeld, hm, List.isEmpty_nil, Bool.not_true, Bool.false_and, Bool.false_eq_true, if_false]

/-- Instructions with no queue operand, with no prefix: their words are `w typ dst a b c`. -/
def ops (typ : BitVec 4) (dst a b c : BitVec 8) (imm : W32) : LaneWord := ⟨none, typ, false, dst, a, b, c, 0, false, 0, 0, imm⟩

/-- All of some instructions may issue in the lane world. -/
theorem mayIssue_all {s : State} {l : List (Instr × LaneWord)} (h : (l.all fun p => issueOk s g0 0 p.1 p.2) = true) :
    ∀ p ∈ l, s.laneMayIssue g0 0 p.1 p.2 [] s := fun p hp => mayIssue_of (List.all_eq_true.mp h p hp)

/-- `v2`, `v3`, `v4` hold bits in the three lanes. -/
abbrev lv : State := lw fun v => { v with v := [(2, { shape := .g, data := [1, 2, 3] }), (3, { shape := .a, base := 1, step := 1 }), (4, { shape := .u, base := 1 })] }

abbrev u1 : LaneWord := ops 0 6 2 0xFF 0xFF 0
abbrev u2 : LaneWord := ops 0 6 2 3 0xFF 0
abbrev u3 : LaneWord := ops 0 6 2 3 4 0

/-- A name bound to queue 3, whose first entry has been popped. -/
theorem witness_LaneOperands :
    let s := (lw fun v => { v with binds := [(5, { valid := true, hq := 3 })] })
    (95 : Nat) < 96 ∧ (∃ q, s.boundQueue g0 (0x95 - 0x90) = some q)
      ∧ [(5, ({ value := 9 } : QEntry))].find? (fun y => y.1 == 0x95 - 0x90) = some (0x95 - 0x90, { value := 9 }) :=
  ⟨by decide, ⟨⟨c0, 3⟩, rfl⟩, rfl⟩

theorem witness_LaneInteger :
    ∀ p ∈ [(Instr.iadd u2, u2), (.isub u2, u2), (.imul u2, u2), (.imad u3, u3), (.imulh u2, u2), (.iabs u1, u1), (.ineg u1, u1), (.imin u2, u2), (.imax u2, u2),
        (.iand u2, u2), (.ior u2, u2), (.ixor u2, u2), (.inot u1, u1), (.ishl u2, u2), (.ishr u2, u2), (.isra u2, u2), (.ibfe u2, u2), (.ibfi u3, u3), (.ipopc u1, u1),
        (.iclz u1, u1), (.isel u3, u3), (.imov u1, u1), (.icmp 0 u2, u2), (.icmp 5 u2, u2)], lv.laneMayIssue g0 0 p.1 p.2 [] lv :=
  mayIssue_all (by decide +kernel)

abbrev f1 : LaneWord := ops 6 6 2 0xFF 0xFF 0
abbrev f2 : LaneWord := ops 6 6 2 3 0xFF 0
abbrev f3 : LaneWord := ops 6 6 2 3 4 0

theorem witness_LaneFloat :
    ∀ p ∈ [(Instr.fadd f2, f2), (.fsub f2, f2), (.fmul f2, f2), (.ffma f3, f3), (.fmin f2, f2), (.fmax f2, f2), (.fabs f1, f1), (.fneg f1, f1), (.fclass f1, f1),
        (.fcmp 0 f2, f2), (.fcmp 7 f2, f2), (.fseed 0 f1, f1), (.fseed 3 f1, f1), (.frange f1, f1), (.fscale f2, f2), (.fexpo f1, f1), (.fmant f1, f1), (.fsel f3, f3)],
      lv.laneMayIssue g0 0 p.1 p.2 [] lv ∧ p.2.typ = 6 := by
  intro p hp
  refine ⟨mayIssue_all (by decide +kernel) p hp, ?_⟩
  fin_cases hp <;> rfl

/-- The block with no lane acted on. -/
abbrev lnone : State := lv.modGroup g0 fun v => v.modSplit 0 fun x => { x with mask := 0 }
abbrev cv : LaneWord := ops 0 6 2 0xFF 0xFF 0x181

/-- Lanes 0 to 2 acted on, the first of them 0; and none. -/
theorem witness_LaneConvertAndCross :
    (∀ p ∈ [(Instr.cvt cv, cv), (.rqnt u2, u2), (.lperm u2, u2), (.lrot u2, u2), (.lbcast u2, u2), (.lred 0 f1, f1), (.lred 5 u1, u1), (.lscan 0 f1, f1), (.lscan 5 u1, u1)],
      lv.laneMayIssue g0 0 p.1 p.2 [] lv)
    ∧ (lv.acted g0 0 u2).getLsbD 0 = true ∧ lv.acted g0 0 u1 ≠ 0 ∧ lv.acted g0 0 f1 ≠ 0
    ∧ lnone.acted g0 0 u1 = 0 ∧ (∀ p ∈ [(Instr.lred 5 u1, u1), (.lscan 5 u1, u1)], lnone.laneMayIssue g0 0 p.1 p.2 [] lnone) :=
  ⟨mayIssue_all (by decide +kernel), by decide +kernel, by decide +kernel, by decide +kernel, by decide +kernel, mayIssue_all (by decide +kernel)⟩

/-- Addresses in the pair `v2`, `v3`: below 1 GiB, or in the core scratchpad window. -/
abbrev la (hi : W32) : State := lw fun v => { v with v := [(2, { shape := .g, data := [0x1000, 0x2000, 0x3000] }), (3, { shape := .u, base := hi }), (4, { shape := .u, base := 1 })] }
/-- Byte and halfword accesses. -/
abbrev mb : LaneWord := ops 0 6 2 0xFF 0xFF 0
abbrev ms : LaneWord := ops 0 0xFF 2 4 0xFF 0
abbrev mb2 : LaneWord := ops 0 6 2 4 0xFF 0

/-- Lanes 0 to 2 are those acted on. -/
theorem acted_low : ∀ l, l < 96 → (7 : Mask).getLsbD l = true → l = 0 ∨ l = 1 ∨ l = 2 := by decide +kernel

/-- The sum of source A of lane `l` or 0 and OFF24, on which an access at a lane's address or a run goes. -/
def sumAt (s : State) (i : Instr) (w : LaneWord) (l : Nat) : Word := s.operand g0 0 i w [] 0 l + BitVec.ofInt 64 (w.imm.extractLsb' 0 24).toInt
def runAt (s : State) (i : Instr) (w : LaneWord) (l : Nat) : Word :=
  s.operand g0 0 i w [] 0 0 + BitVec.ofInt 64 (w.imm.extractLsb' 0 24).toInt + BitVec.ofNat 64 (l * 4)

theorem witness_LaneAccesses_out :
    let s := la 0
    (∀ p ∈ [(Instr.ld 5 mb, mb), (.ldg 5 mb, mb), (.st 5 ms, ms), (.stsc 5 ms, ms), (.amo 0 1 mb2, mb2), (.lwatch mb, mb)],
      s.laneMayIssue g0 0 p.1 p.2 [] s ∧ s.acted g0 0 p.2 = 7
        ∧ ∀ l < 96, (7 : Mask).getLsbD l = true → isGlobal (BitVec.ofNat 64 ((sumAt s p.1 p.2 l).toNat / 4 * 4)) ∧ isGlobal (BitVec.ofNat 64 ((runAt s p.1 p.2 l).toNat / 4 * 4)))
    ∧ (∀ l, s.l1Line (agentCore s.cur) (s.agentAsid s.cur) l = none) ∧ (7 : Mask).getLsbD 0 = true := by
  intro s
  refine ⟨fun p hp => ⟨mayIssue_all (l := [(Instr.ld 5 mb, mb), (.ldg 5 mb, mb), (.st 5 ms, ms), (.stsc 5 ms, ms), (.amo 0 1 mb2, mb2), (.lwatch mb, mb)]) (by decide +kernel) p hp, ?_,
    fun l hl h => ?_⟩, fun _ => rfl, rfl⟩
  · fin_cases hp <;> decide +kernel
  · have := acted_low l hl h
    fin_cases hp <;> rcases this with h | h | h <;> subst h <;> exact ⟨⟨by decide +kernel, by decide +kernel⟩, ⟨by decide +kernel, by decide +kernel⟩⟩

theorem injectorOff_lw (f : Group → Group) : (lw f).injectorOff := injectorOff_of fun i => by fin_cases i <;> rfl

/-- No queue of the world holds an entry. -/
theorem queue_lw (f : Group → Group) (q : CoreRef × Nat) : ((lw f).queue q).entries = [] := by
  have h : ∀ c : CoreRef, ((world []).core c).hq = [] := by
    rintro ⟨i, j⟩
    fin_cases i
    · show (tabGet {} [(0, core)] j.val).hq = []
      simp only [tabGet]
      split <;> rfl
    all_goals rfl
  have e : ((lw f).core q.1).hq = [] := by
    have : ∀ k, (({ (world []).modGroup g0 k with cur := .lane g0 0 } : State).core q.1).hq = ((world []).core q.1).hq := by
      intro k
      show (((world []).modGroup g0 k).core q.1).hq = _
      simp only [State.modGroup, State.core_setGroup]
      split <;> rfl
    exact (this _).trans (h q.1)
  simp only [State.queue, e]
  rfl

/-- The same in the scratchpad window: offsets 0x1000, 0x2000 and 0x3000 of 0x10000 bytes. -/
theorem witness_LaneAccesses_scratchpad :
    let s := la 0
    (∀ p ∈ [(Instr.ld 1 mb, mb), (.ldg 1 mb, mb), (.st 1 ms, ms), (.stsc 1 ms, ms)],
      s.laneMayIssue g0 0 p.1 p.2 [] s ∧ s.acted g0 0 p.2 = 7
        ∧ ∀ l < 96, (7 : Mask).getLsbD l = true → (sumAt s p.1 p.2 l).toNat % 2 ^ 32 / 4 * 4 + 4 ≤ 0x10000 ∧ (runAt s p.1 p.2 l).toNat % 2 ^ 32 / 4 * 4 + 4 ≤ 0x10000)
    ∧ s.wgOf g0 = some workgroup ∧ workgroup.spadLen ≤ 0x80000 ∧ (s.group g0).sc.memq = [] ∧ (s.group g0).loose = [] ∧ s.injectorOff ∧ (∀ q, ∀ e ∈ (s.queue q).entries, e.filled = true) := by
  intro s
  refine ⟨fun p hp => ⟨mayIssue_all (l := [(Instr.ld 1 mb, mb), (.ldg 1 mb, mb), (.st 1 ms, ms), (.stsc 1 ms, ms)]) (by decide +kernel) p hp, ?_, fun l hl h => ?_⟩,
    by decide +kernel, by decide, rfl, rfl, injectorOff_lw _, ?_⟩
  · fin_cases hp <;> decide +kernel
  · have := acted_low l hl h
    fin_cases hp <;> rcases this with h | h | h <;> subst h <;> exact ⟨by decide +kernel, by decide +kernel⟩
  · intro q e he
    rw [queue_lw] at he
    cases he

/-- The three lanes watch the words at 0x400000, 0x400004 and 0x400008, or none do; the instruction has issued, with a deadline of 5, or not. -/
def lwatching (armed issued : Bool) : State :=
  lw fun v => { v with lwatch := if armed then [(0, { addr := 0x400000, wide := false }), (1, { addr := 0x400004, wide := false }), (2, { addr := 0x400008, wide := false })] else [],
                       v := [(4, { shape := .u, base := 1 })], held := if issued then [{ lanes := 7, kind := .watch 5 }] else [] }

theorem mapped_lwatching (armed issued : Bool) : Mapped (lwatching armed issued) := mapped_lw _

abbrev ww (b : BitVec 8) : LaneWord := ops 0 6 0xFF b 0xFF 0

theorem lwatching_asid (armed issued : Bool) : (lwatching armed issued).agentAsid (.lane g0 0) = asid ∧ (lwatching armed issued).agentPart (.lane g0 0) = 0 := by
  cases issued <;> cases armed <;> exact ⟨rfl, by decide +kernel⟩

/-- What a lane's watch finds. -/
theorem watch_found (armed issued : Bool) {a : Nat} (h1 : 0x400000 ≤ a) (h2 : a < 2 ^ 30) :
    let s := lwatching armed issued
    isGlobal (BitVec.ofNat 64 a) ∧ s.translate (s.agentPart s.cur) (s.agentAsid s.cur) (BitVec.ofNat 64 a) 7 = .ok a false ∧ targetOf a = .hbm 0 ∧ s.poisoned a 4 false = false
      ∧ (let home := (s.home (s.agentPart s.cur) ((BitVec.ofNat 64 a).toNat / 64)).1
         s.homeOpen s.cur home = true ∧ ∀ e ∈ (s.slice home).l2, e.2.key = lineKey (s.agentAsid s.cur) ((BitVec.ofNat 64 a).toNat / 64) → e.1 = a / 64)
      ∧ s.hbmRead a 4 = 0 := by
  intro s
  have e : (BitVec.ofNat 64 a).toNat = a := by simp only [BitVec.toNat_ofNat]; omega
  have h := mapped_lwatching armed issued
  have ha : s.agentAsid s.cur = asid := (lwatching_asid armed issued).1
  have hb : s.agentPart s.cur = 0 := (lwatching_asid armed issued).2
  refine ⟨isGlobal_low _ (by omega), ?_, ?_, rfl, ?_, ?_⟩
  · rw [ha, hb, translate_mapped h _ (by omega) 7, e]
  · have h1 : a / 2 ^ 40 = 0 := by omega
    have h2 : a / 2 ^ 37 = 0 := by omega
    simp only [targetOf, h1, h2, if_true]
    rfl
  · simp only [hb, home_of_one s 0 _ h.members]
    have hl : (s.slice 0).l2 = [] := rfl
    exact ⟨rfl, fun e he => by rw [hl] at he; cases he⟩
  · rw [hbmRead_high (m := []) rfl _ _ h1]
    have : ∀ n a, memRead [] a n = List.replicate n (0 : Byte) := by
      intro n
      induction n with
      | zero => intro; rfl
      | succ n ih => intro a; simp only [memRead, ih, List.replicate_succ]; rfl
    simp only [memReadLE, this]
    rfl

theorem lwatching_acted (armed issued : Bool) : ∀ b ∈ [(4 : BitVec 8), 0xFF], (lwatching armed issued).acted g0 0 (ww b) = 7
    ∧ (issued = false → issueOk (lwatching armed issued) g0 0 (.lwatchW (ww b)) (ww b) = true) := by
  revert armed issued
  decide +kernel

theorem lwatching_watch (armed issued : Bool) : ∀ l < 3, tabFind ((lwatching armed issued).group g0).lwatch l = if armed then some { addr := BitVec.ofNat 64 (0x400000 + 4 * l), wide := false } else none := by
  revert armed issued
  decide +kernel

theorem lwatching_operand (armed issued : Bool) : ∀ b ∈ [(4 : BitVec 8), 0xFF], ∀ l < 3,
    ((0 : Word) ≠ (((lwatching armed issued).operand g0 0 (.lwatchW (ww b)) (ww b) [] 1 l).extractLsb' 0 32).setWidth 64 ↔ b = 4) := by
  revert armed issued
  decide +kernel

/-- No watch armed, or three armed; the instruction issues, with no deadline, or has issued and its deadline has passed; source B is 1, from which the words
differ, or 0. -/
theorem witness_LaneWatchWaits (armed issued : Bool) (b : BitVec 8) (hb : b ∈ [(4 : BitVec 8), 0xFF]) :
    let s := lwatching armed issued
    let v := s.group g0
    let pa (l : Nat) : Nat := 0x400000 + 4 * l
    (v.split 0).mask ≠ 0 ∧ s.acted g0 0 (ww b) = 7 ∧ v.sc.memq = [] ∧ s.injectorOff
      ∧ (issued = false → s.laneMayIssue g0 0 (.lwatchW (ww b)) (ww b) [] s)
      ∧ (issued = true → s.cur = .lane g0 0 ∧ (v.split 0).wait = .none ∧ isQ (ww b).dst = false ∧ (5 : Word) ≠ 0 ∧ (5 : Word).toNat ≤ s.now.toNat
          ∧ ∃ h : HeldOp, v.held = [h] ∧ v.heldOf 0 = some h ∧ h.kind = .watch 5)
      ∧ (armed = false → ∀ l < 96, (7 : Mask).getLsbD l = true → tabFind v.lwatch l = none)
      ∧ (armed = true → ∀ l < 96, (7 : Mask).getLsbD l = true → tabFind v.lwatch l = some { addr := BitVec.ofNat 64 (pa l), wide := false }
          ∧ isGlobal (BitVec.ofNat 64 (pa l)) ∧ s.translate (s.agentPart s.cur) (s.agentAsid s.cur) (BitVec.ofNat 64 (pa l)) 7 = .ok (pa l) false ∧ targetOf (pa l) = .hbm 0
          ∧ s.poisoned (pa l) 4 false = false
          ∧ (let home := (s.home (s.agentPart s.cur) ((BitVec.ofNat 64 (pa l)).toNat / 64)).1
             s.homeOpen s.cur home = true ∧ ∀ e ∈ (s.slice home).l2, e.2.key = lineKey (s.agentAsid s.cur) ((BitVec.ofNat 64 (pa l)).toNat / 64) → e.1 = pa l / 64)
          ∧ (s.hbmRead (pa l) 4 ≠ ((s.operand g0 0 (.lwatchW (ww b)) (ww b) [] 1 l).extractLsb' 0 32).setWidth 64 ↔ b = 4)) := by
  intro s v pa
  have hi : s.injectorOff := injectorOff_lw _
  have low (l : Nat) (hl : l < 96) (hm : (7 : Mask).getLsbD l = true) : l < 3 := by rcases acted_low l hl hm with h | h | h <;> omega
  refine ⟨by clear hi low pa; revert armed issued; decide +kernel, (lwatching_acted armed issued b hb).1, rfl, hi, fun h => mayIssue_of ((lwatching_acted armed issued b hb).2 h), fun h => ?_, fun h l hl hm => ?_,
    fun h l hl hm => ?_⟩
  · subst h
    exact ⟨rfl, by cases armed <;> rfl, (by decide : isQ 6 = false), by decide, by cases armed <;> decide +kernel, { lanes := 7, kind := .watch 5 }, by cases armed <;> rfl, by cases armed <;> decide +kernel, rfl⟩
  · rw [lwatching_watch armed issued l (low l hl hm), h]; rfl
  · obtain ⟨f1, f2, f3, f4, f5, f6⟩ := watch_found armed issued (a := pa l) (Nat.le_add_right _ _) (by have := low l hl hm; simp only [pa]; omega)
    refine ⟨?_, f1, f2, f3, f4, f5, ?_⟩
    · rw [lwatching_watch armed issued l (low l hl hm), h]; rfl
    · rw [f6]
      exact lwatching_operand armed issued b hb l (low l hl hm)

/-! ### Control -/

abbrev cbr : LaneWord := ops 0 0xFF 0xFF 0xFF 0xFF 3
abbrev cbrc : LaneWord := ops 0 0xFF 2 0xFF 0xFF 3
abbrev cend : LaneWord := ops 0 0xFF 0xFF 0xFF 0xFF 0
abbrev cvote : LaneWord := ops 0 6 2 0xFF 0xFF 0
abbrev csig : LaneWord := ops 0 0xFF 0xFF 0xFF 0xFF 0x9E3779B9

/-- Four splits, one lane each, at four places. -/
abbrev lfour : State :=
  (lw fun v => { v with v := [(2, { shape := .g, data := [1, 0, 3] })] }).modGroup g0 fun v =>
    { v with splits := [(0, { used := true, mask := 7, pc := 5 }), (1, { used := true, mask := 8, pc := 20 }), (2, { used := true, mask := 16, pc := 30 }), (3, { used := true, mask := 32, pc := 40 })] }

/-- A block hash as `lsig` expects it, and one that it does not. -/
abbrev lsigs (good : Bool) : State :=
  (lw fun v => { v with v := [(2, { shape := .g, data := [1, 0, 3] })] }).modGroup g0 fun v => v.modSplit 0 fun x => { x with bh := if good then 0x9E3779B9 else 1, bhv := true }

/-- One split; four; and a hash. -/
theorem witness_LaneControl :
    (∀ p ∈ [(Instr.lbr cbr, cbr), (.lbrc cbrc, cbrc), (.ljoin cbr, cbr), (.lend cend, cend), (.lvote 0 cvote, cvote), (.lvote 2 cvote, cvote), (.lsig csig, csig)],
      (lsigs true).laneMayIssue g0 0 p.1 p.2 [] (lsigs true))
    ∧ ((lsigs true).group g0).alone 0 ∧ ((lsigs true).group g0).lanesQuiet = true
    ∧ (let v := (lsigs true).group g0; bitsOf v.sig 47 32 = bitsOf v.sig 63 48 ∧ (v.split 0).merge = false ∧ (v.split 0).bh = csig.imm)
    ∧ (let v := (lsigs false).group g0; (v.split 0).bhv = true ∧ (v.split 0).bh ≠ csig.imm ∧ v.faultCode = 0)
    ∧ (lsigs false).laneMayIssue g0 0 (.lsig csig) csig [] (lsigs false)
    ∧ (let v := lfour.group g0
       (∀ j < 4, (v.split j).used = true ∧ (v.split j).atEnd = false) ∧ v.waiting = [] ∧ (v.split 0).pc = 5
        ∧ (∀ j < 4, j ≠ 0 → (v.split j).pc ≠ 8 ∧ (v.split j).pc ≠ 6) ∧ (∀ j < 4, ∀ m < j, (v.split j).pc ≠ (v.split m).pc)
        ∧ BitVec.ofInt 24 (((v.split 0).pc.toNat : Int) + cbrc.imm.toInt) = 8)
    ∧ (∀ p ∈ [(Instr.lbrc cbrc, cbrc), (.lend cend, cend)], lfour.laneMayIssue g0 0 p.1 p.2 [] lfour) := by
  refine ⟨mayIssue_all (by decide +kernel), ⟨by decide +kernel, rfl⟩, rfl, by decide +kernel, by decide +kernel, mayIssue_of (by decide +kernel), by decide +kernel,
    mayIssue_all (by decide +kernel)⟩

/-- A lane load in flight when `lend` is reached. -/
theorem witness_LaneControl_flying :
    let s := (lsigs true).modGroup g0 fun v => { v with sc := { v.sc with memq := [{ id := 1, kind := .load, width := 4, accs := [], dest := .lane 6 false 1 false none }] } }
    s.laneMayIssue g0 0 (.lend cend) cend [] s ∧ (s.group g0).alone 0 ∧ (s.group g0).lanesQuiet = false :=
  ⟨mayIssue_of (by decide +kernel), ⟨by decide +kernel, rfl⟩, by decide +kernel⟩

/-! ### Spawning -/

abbrev spw : LaneWord := ops 0 0xFF 2 4 0xFF 0
/-- Split 0 spawns three groups at 0x2000; bins as given; an access before it in flight, or none; it issues, or has issued and deposited for lane 0. -/
def spawning (bins : Tab SpawnBin) (flying issued : Bool) : State :=
  (lw fun v => { v with v := [(2, { shape := .g, data := [1, 2, 3] }), (4, { shape := .u, base := 0x2000 })],
                        held := if issued then [{ lanes := 7, kind := .spawn 1 2 }] else [],
                        sc := { v.sc with memq := if flying then [{ id := 1, kind := .store, width := 4, accs := [] }] else [] } }).modCore c0 fun k => { k with bins := bins }
/-- A bin of the group's own grid at 0x2000, and another's. -/
def ownBin : SpawnBin := { valid := true, entry := 0x2000, grid := 1, payloads := [9], expiry := 5000 }
def fullBin : SpawnBin := { ownBin with payloads := List.replicate 95 9 }
def otherBin : SpawnBin := { ownBin with entry := 0x3000 }
def otherBins : Tab SpawnBin := (List.range 16).map fun n => (n, otherBin)

theorem witness_SpawnDeposits (bins : Tab SpawnBin) (flying issued : Bool) (h : bins = [] ∨ bins = [(0, otherBin), (1, ownBin)] ∨ bins = [(1, fullBin)] ∨ bins = otherBins) :
    let s := spawning bins flying issued
    let v := s.group g0
    let left : Mask := s.acted g0 0 spw &&& ~~~(if issued then 1 else 0 : Mask)
    (issued = false → s.laneMayIssue g0 0 (.spawn spw) spw [] s ∧ s.nextId = 2)
      ∧ (issued = true → s.cur = .lane g0 0 ∧ v.held = [{ lanes := 7, kind := .spawn 1 2 }] ∧ v.heldOf 0 = some { lanes := 7, kind := .spawn 1 2 } ∧ (v.split 0).wait = .none)
      ∧ (v.split 0).mask ≠ 0 ∧ left ≠ 0 ∧ (flying = false → ∀ y ∈ v.sc.memq, 2 ≤ y.id) ∧ (flying = true → ∃ y ∈ v.sc.memq, y.id < 2)
      ∧ (∀ l < 96, left.getLsbD l = true → (0x2000 : Word) = BitVec.ofNat 64 (((dwordAt (s.gridOf g0).lrec 8).extractLsb' 32 32
          ++ (s.operand g0 0 (.spawn spw) spw [] 1 l).extractLsb' 0 32).toNat / 4 * 4)) := by
  intro s v left
  refine ⟨fun hi => ⟨mayIssue_of ?_, ?_⟩, fun hi => ⟨?_, ?_, ?_, ?_⟩, ?_, ?_, ?_, ?_, ?_⟩ <;> first | subst hi | skip
  all_goals rcases h with h | h | h | h <;> subst h <;> cases flying <;> first | decide +kernel | (cases issued <;> decide +kernel)

/-- The group's own bin is bin 1, with room for the payloads or for one; with no bin in use bin 0 is free; and with all sixteen another's none is. -/
theorem witness_SpawnDeposits_bins :
    let bin (bins : Tab SpawnBin) (n : Nat) : SpawnBin := tabGet {} ((spawning bins false false).core g0.at).bins n
    let ours (bins : Tab SpawnBin) (n : Nat) : Prop := (bin bins n).valid = true ∧ (bin bins n).entry = 0x2000 ∧ (bin bins n).grid = 1
    let one : Tab SpawnBin := [(0, otherBin), (1, ownBin)]
    (ours one 1 ∧ (∀ m < 1, ¬ours one m) ∧ (bin one 1).payloads.length + 3 ≤ 96)
    ∧ (ours [(1, fullBin)] 1 ∧ (∀ m < 1, ¬ours [(1, fullBin)] m) ∧ 96 - (bin [(1, fullBin)] 1).payloads.length < 2)
    ∧ ((∀ m < 16, ¬ours [] m) ∧ (bin [] 0).valid = false)
    ∧ (∀ m < 16, ¬ours otherBins m ∧ (bin otherBins m).valid = true) := by
  intro bin ours one
  refine ⟨⟨?_, ?_, ?_⟩, ⟨?_, ?_, ?_⟩, ⟨?_, ?_⟩, ?_⟩ <;> decide +kernel

end Sys2Proof.Machine.Tests
end

