-- ==== Sys2Proof/Tests/Witness7.lean ====
section
/-! SUPPORT. Witnesses for the statements about exchange between clusters, the active set, prefetch, fetches and misses. -/

namespace Sys2Proof.Machine.Tests

-- One theorem after another: a file of closed evaluations needs no more than one thread.
set_option Elab.async false

/-! ### Exchange -/

/-- The partner, on core 24: cluster 1. -/
abbrev h24 : GroupRef := ⟨0, 24, 0⟩
/-- Two groups in two clusters, and posts of the slice. `s5` names a cluster, `s6` holds the key 77. -/
def xworld (ps : List Post) (cl : Word) (f h : Group → Group) : State :=
  { world [] with
    cur := .scalar g0, nextId := 10,
    slices := [(0, { slice with pairTab := ps, cores := [(0, { core with groups := [(0, f { group with sc := { s := [(5, cl), (6, 77)] } })] }), (24, { core with groups := [(0, h group)] })] })] }

/-- A post of the partner that names the group, one of another key, and 64 of them. -/
def theirPost : Post := { id := 5, g := h24, fromSlice := 0, fromCluster := 1, key := 77, part := 0, toSlice := 0, toCluster := 0, token := .reg (.scalar h24) 9, posted := 500 }
def otherPost : Post := { theirPost with id := 4, key := 78 }

/-- What a post must hold to meet the group's `xpair`. -/
def meetsIt (s : State) (cl : Nat) (y : Post) : Prop :=
  y.key = (s.sreg 6).extractLsb' 0 32 ∧ y.part = (s.group g0).part ∧ y.toSlice = g0.slice ∧ y.toCluster.toNat = g0.core.val / 24 ∧ y.fromSlice.val = 0 ∧ y.fromCluster = cl

/-- Every post waits for its partner, and has its number from the module. -/
def openTable (s : State) : Prop := ∀ j, ∀ z ∈ (s.slice j).pairTab, z.answer = none ∧ z.id < s.nextId

theorem openTable_xworld (ps : List Post) (cl : Word) (f h : Group → Group) (now : Word) (hp : ∀ z ∈ ps, z.answer = none ∧ z.id < 10) : openTable { xworld ps cl f h with now := now } := by
  intro j z hz
  fin_cases j
  · exact hp z hz
  all_goals cases hz

/-- A cluster that cannot be; no post of the key, with room and without; and the partner's post. -/
theorem witness_ClusterExchange_xpair :
    (∀ ps cl r d, (xworld ps cl id id).canIssue r d) ∧ (xworld [] 7 id id).cur = .scalar g0 ∧ ((xworld [] 7 id id).group g0).pair = none
      ∧ ¬bitsOf ((xworld [] 7 id id).sreg 5) 2 0 ≤ 5
      ∧ (let s := xworld [theirPost] 1 id id
         bitsOf (s.sreg 5) 63 6 = 0 ∧ bitsOf (s.sreg 5) 2 0 = 1 ∧ bitsOf (s.sreg 5) 5 3 = 0 ∧ (∀ j : SliceId, j.val = 0 → s.member (s.group g0).part j = true)
          ∧ ¬((0 : Nat) = g0.slice.val ∧ (1 : Nat) = g0.core.val / 24))
      ∧ (∀ y ∈ ((xworld [otherPost] 1 id id).slice 0).pairTab, ¬meetsIt (xworld [otherPost] 1 id id) 1 y)
      ∧ (∀ y ∈ ((xworld (List.replicate 64 otherPost) 1 id id).slice 0).pairTab, ¬meetsIt (xworld (List.replicate 64 otherPost) 1 id id) 1 y)
      ∧ 64 ≤ ((xworld (List.replicate 64 otherPost) 1 id id).slice 0).pairTab.length
      ∧ (let s := xworld [otherPost, theirPost] 1 id id
         (s.slice 0).pairTab = [otherPost] ++ theirPost :: [] ∧ meetsIt s 1 theirPost ∧ (∀ z ∈ [otherPost], ¬meetsIt s 1 z) ∧ theirPost.g = h24 ∧ h24 ≠ g0
          ∧ theirPost.token = .reg (.scalar h24) 9 ∧ (s.group h24).pair = none)
      ∧ (∀ ps ∈ [[], [theirPost], [otherPost], List.replicate 64 otherPost, [otherPost, theirPost]], ∀ cl now, openTable { xworld ps cl id id with now := now }) := by
  refine ⟨fun ps cl r d => canIssue_of (by trivial) rfl rfl r d, rfl, rfl, by decide +kernel, ⟨by decide +kernel, by decide +kernel, by decide +kernel, ?_, by decide⟩, ?_, ?_, by decide +kernel,
    ⟨rfl, ?_, ?_, rfl, by decide, rfl, rfl⟩, fun ps hps cl now => openTable_xworld ps cl id id now (by revert ps; decide +kernel)⟩
  · have : ∀ j, (xworld [theirPost] 1 id id).member 0 j = ({ State.reset with prc := prc } : State).member 0 j := fun _ => rfl
    have e : ((xworld [theirPost] 1 id id).group g0).part = 0 := rfl
    rw [e]
    simp only [this]
    decide +kernel
  · unfold meetsIt; decide +kernel
  · unfold meetsIt; decide +kernel
  · unfold meetsIt; decide +kernel
  · unfold meetsIt; decide +kernel

/-- A post of long ago, and one of the present. -/
theorem witness_ClusterExchange_timeout :
    (let s := { xworld [otherPost, theirPost] 1 id id with now := 1000500 }
     (s.slice 0).pairTab = [otherPost] ++ theirPost :: [] ∧ (∀ z ∈ [otherPost], z.id ≠ theirPost.id) ∧ theirPost.posted.toNat + 1000000 ≤ s.now.toNat ∧ theirPost.fromSlice = 0)
    ∧ (xworld [otherPost, theirPost] 1 id id).now.toNat < theirPost.posted.toNat + 1000000 :=
  ⟨⟨rfl, by decide, by decide, rfl⟩, by decide⟩

/-- The lane stream of the group, with no pair, or paired with the partner. -/
def pairOf (to' : GroupRef) : Pair := { id := 6, key := 77, partner := to' }
def inBlock (v : Group) : Group := { v with block := some { addr := 0x1000, mask := 7, rnd := 1 }, splits := [(0, { used := true, mask := 7, pc := 0 })] }
def xlanes (paired : Bool) : State :=
  { xworld [] 1 (fun v => { inBlock v with pair := if paired then some (pairOf h24) else none }) (fun v => { v with pair := if paired then some (pairOf g0) else none }) with
    cur := .lane g0 0 }

theorem witness_ClusterExchange_xswap (paired : Bool) :
    let s := xlanes paired
    ((s.group g0).split 0).mask ≠ 0 ∧ (s.group g0).pair = (if paired then some (pairOf h24) else none) ∧ s.laneMayIssue g0 0 (.xswap u1) u1 [] s
      ∧ (pairOf h24).ended = false ∧ (pairOf h24).unmatched = [] ∧ h24 ≠ g0 ∧ h24 ∈ s.allGroups ∧ (s.group h24).pair = (if paired then some (pairOf g0) else none)
      ∧ (pairOf g0).id = (pairOf h24).id ∧ ∀ x ∈ s.allGroups, x ≠ g0 → (s.group x).pair.map (·.id) = some 6 → x = h24 := by
  refine ⟨?_, ?_, mayIssue_of ?_, rfl, rfl, by decide, ?_, ?_, rfl, ?_⟩ <;> cases paired <;> decide +kernel

/-- `xswap.i32 v6, v2` at the block's address, and a value that has arrived. -/
def arrived : State :=
  { world [] with
    grids := [(1, { grid with asid := 5 })],
    slices := [(0, { slice with
      icache := [(0, [⟨.asid 5, 0x1000, 0xA0000C05⟩, ⟨.asid 5, 0x1004, 0xFFFE0000⟩, ⟨.asid 5, 0x1008, 0⟩])],
      cores := [(0, { core with groups := [(0, { group with
        block := some { addr := 0x1000, mask := 7, rnd := 1 }, splits := [(0, { used := true, mask := 7, pc := 0 })], held := [{ lanes := 7, kind := .swap 1 500 none }],
        pair := some { pairOf h24 with sends := 1, unmatched := [[11, 12, 13]] } })] })] })] }

theorem witness_ClusterExchange_arrival :
    let s := arrived
    let v := s.group g0
    v.st = .active ∧ s.laneFetch g0 0 = .ok [0xA0000C05, 0xFFFE0000, 0] ∧ decodeLaneWords [0xA0000C05, 0xFFFE0000, 0] = some (.ok (.xswap u1))
      ∧ v.held = [{ lanes := 7, kind := .swap 1 500 none }] ∧ v.heldOf 0 = some { lanes := 7, kind := .swap 1 500 none } ∧ (v.split 0).wait = .none
      ∧ v.pair = some { pairOf h24 with sends := 1, unmatched := [[11, 12, 13]] } ∧ isQ u1.dst = false := by decide +kernel

/-! ### The active set and prefetch -/

/-- Core 0 with some groups, at a time. -/
def seated (now : Word) (gs : List (Nat × Group)) : State := { world [] with now := now, slices := [(0, { slice with cores := [(0, { core with groups := gs })] })] }
/-- Slot 0 alone. -/
abbrev seat0 (now : Word) (f : Group → Group) : State := seated now [(0, f group)]
def readySince (t : Word) : Group := { group with st := .ready, readyAt := t }

/-- Two ready groups; eight active ones; a ready group of long ago; a remote load of long ago. -/
theorem witness_ActiveSetAndPrefetch_admit :
    (let s := seated 1000 [(0, readySince 5), (1, readySince 9)]
     ((s.slotsOf c0).filter fun g => (s.group g).st == .active).length < 8 ∧ (g0 ∈ s.slotsOf c0 ∧ (s.group g0).st = .ready)
      ∧ (g1 ∈ s.slotsOf c0 ∧ (s.group g1).st = .ready) ∧ ∀ h ∈ s.slotsOf c0, (s.group h).st = .ready → h ≠ g0 → s.comesBefore c0 g0 h = true)
    ∧ (let s := seated 1000 ((List.range 8).map fun n => (n, group)); 8 ≤ ((s.slotsOf c0).filter fun g => (s.group g).st == .active).length)
    ∧ (let s := seat0 1000000 fun v => { v with st := .ready, readyAt := 1 }
       (s.group g0).st = .ready ∧ s.passed (s.group g0).readyAt (s.cclkTicks g0.slice 65536) = true)
    ∧ (let s := seat0 1000000 fun v => { v with sc := { v.sc with wait := .remoteLoad, since := 1 } }
       (s.group g0).sc.wait = .remoteLoad ∧ s.passed (s.group g0).sc.since (s.cclkTicks g0.slice 512) = true) := by
  refine ⟨⟨?_, ?_, ?_, ?_⟩, ?_, ?_, ?_⟩ <;> decide +kernel

/-- A group that waits, and leaves or stays; one that is blocked on a token that has arrived, or not. -/
theorem witness_ActiveSetAndPrefetch_wake :
    (∀ w ∈ [Wait.token, .queue, .barrier, .mwait, .lsync, .monitor, .none],
      let s := seat0 1000 fun v => { v with sc := { v.sc with wait := w } }
      (s.group g0).st = .active ∧ (s.group g0).sc.wait = w ∧ (s.group g0).lq = [] ∧ (s.group g0).block = none)
    ∧ (∀ p : Bool, let s := seat0 1000 fun v => { v with st := .blocked, sc := { v.sc with wait := .token, waitMask := 32, pend := if p then 32 else 0 } }
        (s.group g0).st = .blocked ∧ (s.group g0).sc.wait = .token ∧ ((s.group g0).sc.pend &&& (s.group g0).sc.waitMask = 0 ↔ p = false) ∧ (s.group g0).block = none) := by
  decide +kernel

/-- A prefetch into the L1 of the line at 0x400000, which no cache holds. -/
theorem witness_ActiveSetAndPrefetch_pref :
    let s := gw (withRegs [(5, 0x400000)])
    (∀ r d, s.canIssue r d) ∧ BitVec.ofNat 64 ((s.sreg 5 + BitVec.ofInt 64 (64 * (0 : BitVec 12).toInt)).toNat / 64 * 64) = 0x400000 ∧ isGlobal 0x400000
      ∧ s.injectorOff ∧ s.reach (s.agentPart s.cur) (s.agentAsid s.cur) 0x400000 1 = .ok 0x400000 false ∧ targetOf 0x400000 = .hbm 0 ∧ s.poisoned 0x400000 64 false = false
      ∧ tabFind (s.slice (s.home (s.agentPart s.cur) ((0x400000 : Word).toNat / 64)).1).l2 (0x400000 / 64) = none ∧ s.now.toNat < 2 ^ 63
      ∧ s.l1Line (agentCore s.cur) (s.agentAsid s.cur) ((0x400000 : Word).toNat / 64) = none := by
  intro s
  refine ⟨fun r d => canIssue_gw _ rfl rfl r d, by decide +kernel, ⟨by decide, by decide⟩, injectorOff_of fun i => by fin_cases i <;> rfl, reach_mapped (mapped_gw _) 0x400000 (by decide) _, by decide, rfl, ?_,
    by decide, rfl⟩
  have : (s.home (s.agentPart s.cur) ((0x400000 : Word).toNat / 64)).1 = 0 := home_of_one s 0 _ (mapped_gw _).members
  rw [this]
  rfl

/-- A group with a debugger attached to its root, or with none; and the puppet slot. -/
theorem witness_ActiveSetAndPrefetch_brk :
    (∀ r d, (inG (world [])).canIssue r d) ∧ (inG (world [])).cur = .scalar g0
      ∧ (let s := { inG (world []) with prc := { prc with parts := [(0, { debuggers := [0x410000] })] }, grids := [(1, { grid with domains := [0x410000] })] }
         (∀ r d, s.canIssue r d) ∧ (s.part (s.group g0).part).debuggers.contains (((s.gridOf g0).domains.head?).getD 0) = true)
      ∧ ((inG (world [])).part ((inG (world [])).group g0).part).debuggers.contains ((((inG (world [])).gridOf g0).domains.head?).getD 0) = false
      ∧ (inP (world [])).cur = .puppet c0 ∧ ∀ r d, (inP (world [])).canIssue r d :=
  ⟨fun r d => inG_world r d [], rfl, ⟨fun r d => canIssue_of (by trivial) rfl rfl r d, by decide +kernel⟩, by decide +kernel, rfl, fun r d => inP_world r d []⟩

/-! ### Fetches and misses -/

/-- The group about to fetch, or frozen at its miss, at 0x400010. -/
def fetching (frozen : Bool) : State := gw fun v => { v with sc := { v.sc with spc := 0x400010, frozen := frozen } }

theorem witness_FetchesAndMisses_fetch (frozen : Bool) :
    let s := fetching frozen
    let a := fetcherAgent (.scalar g0)
    s.fetchAt a (codeAddr (s.scOf a).spc) = none ∧ (s.scOf a).frozen = frozen ∧ s.fetchParked (.scalar g0) = false ∧ codeAddr (s.scOf a).spc = 0x400010
      ∧ isGlobal 0x400000 ∧ s.reach (s.agentPart a) (s.agentAsid a) 0x400000 4 = .ok 0x400000 false ∧ s.poisoned 0x400000 64 false = false :=
  ⟨rfl, rfl, by cases frozen <;> decide +kernel, by cases frozen <;> decide +kernel, ⟨by decide, by decide⟩, reach_mapped (mapped_gw _) 0x400000 (by decide) _, rfl⟩

/-- An empty memory: no table, and every access misses. -/
def blank (regs : Tab Word) (bog : Tab BogEntry) : State := { world [] with mem := [], slices := [(0, { slice with regs := regs, bog := bog })] }
/-- A load of a group that waits for its page, and a controller with a ring. -/
def parkedLoad : BogEntry := { used := true, asid := 3, va := 0x400000, kind := 1, who := .memop (.scalar g0) 8 }

theorem blank_miss (regs : Tab Word) (bog : Tab BogEntry) (p : PartId) (id : W16) (va : Word) (k : Kind) : (blank regs bog).reach p id va k = .miss := by
  have hz : ∀ n a, bytesToNat (memRead [] a n) = 0 := by
    intro n
    induction n with
    | zero => intro; rfl
    | succ n ih => intro a; simp only [memRead, bytesToNat, ih]; rfl
  have h (a : Nat) : (blank regs bog).tableEntry a = 0 := by
    show BitVec.ofNat 64 (memReadLE [] a 8) = 0
    rw [memReadLE, hz]
    rfl
  have hl : ∀ i, ((blank regs bog).slice i).l2 = [] := fun i => by fin_cases i <;> rfl
  simp only [State.reach, Slice.lineOf, hl, List.find?_nil, State.translate, State.walk, h]
  rfl

theorem witness_FetchesAndMisses_retry :
    let s := blank [(0x763, 0x500000)] [(0, parkedLoad)]
    tabGet {} (s.slice 0).bog ((0 : Fin 2).val * 1024 + (0 : BitVec 10).toNat) = parkedLoad ∧ parkedLoad.used = true
      ∧ s.reach (s.reqPart parkedLoad.who) parkedLoad.asid parkedLoad.va parkedLoad.kind.toNat = .miss ∧ (s.slice 0).heldRecs = [] ∧ s.ringRoom 0 = true :=
  ⟨by decide +kernel, rfl, blank_miss _ _ _ _ _ _, rfl, by decide +kernel⟩

/-- A load whose page has come, and one that ends fatally. -/
def loadOp : MemOp := { id := 8, kind := .load, width := 8, accs := [{ lane := 0, place := .global asid 0x400000 }], dest := .sreg 5 }
def parkedHere : BogEntry := { parkedLoad with asid := asid }
def released : State :=
  { inFlight loadOp with slices := [(0, { slice with bog := [(0, parkedHere)], cores := [(0, { core with groups := [(0, { group with sc := { memq := [loadOp] } })] })] })] }

theorem witness_FetchesAndMisses_release :
    let s := released
    let a := fetcherAgent (.scalar g0)
    tabGet {} (s.slice 0).bog 0 = parkedHere ∧ parkedHere.used = true ∧ parkedHere.who = .memop (.scalar g0) loadOp.id ∧ (s.slice 0).missq = [] ∧ (s.slice 0).heldRecs = []
      ∧ (s.scOf a).memq = [loadOp] ∧ loadOp.accs = [{ lane := 0, place := .global parkedHere.asid parkedHere.va }] ∧ loadOp.got = [] ∧ parkedHere.kind = 1
      ∧ s.reach (s.agentPart a) parkedHere.asid parkedHere.va 1 = .ok 0x400000 false ∧ targetOf 0x400000 = .hbm 0 ∧ s.poisoned 0x400000 loadOp.width false = false
      ∧ s.injectorOff ∧ loadOp.split = none ∧ (s.group g0).faultCode = 0 ∧ (s.group g0).resident = true := by
  intro s a
  have hm : Mapped s := mapped_of _ [] rfl (by simp) (members_of rfl) (base_of rfl)
  exact ⟨rfl, rfl, rfl, rfl, rfl, rfl, rfl, rfl, rfl, reach_mapped hm 0x400000 (by decide) _, by decide, rfl, injectorOff_of fun i => by fin_cases i <;> rfl, rfl, rfl, rfl⟩

/-- Two fetches wait for one page, which has come. -/
def fetchEntry (va : Word) : BogEntry := { used := true, asid := asid, va := va, kind := 4, who := .fetch (.puppet c0) }
def pageBack : State := { world [] with slices := [(0, { slice with bog := [(0, fetchEntry 0x400000), (1, fetchEntry 0x400040), (2, fetchEntry 0x500000)] })] }

theorem witness_FetchesAndMisses_page :
    let s := pageBack
    let e := fetchEntry 0x400000
    tabGet {} (s.slice 0).bog 0 = e ∧ e.used = true ∧ (s.slice 0).missq = [] ∧ (s.slice 0).heldRecs = []
      ∧ (∀ n, (let y : BogEntry := tabGet {} (s.slice 0).bog n
          y.used = true ∧ y.asid = e.asid ∧ y.va.toNat / 4096 = e.va.toNat / 4096) →
        (∃ f, (tabGet {} (s.slice 0).bog n : BogEntry).who = .fetch f)
          ∧ s.reach (s.reqPart (tabGet {} (s.slice 0).bog n : BogEntry).who) e.asid (tabGet {} (s.slice 0).bog n : BogEntry).va (tabGet {} (s.slice 0).bog n : BogEntry).kind.toNat ≠ .miss) := by
  intro s e
  have hm : Mapped s := mapped_of _ [] rfl (by simp) (members_of rfl) (base_of rfl)
  have hp : s.agentPart (fetcherAgent (.puppet c0)) = 0 := by
    have : s.agentPart (fetcherAgent (.puppet c0)) = ({ State.reset with prc := prc } : State).agentPart (fetcherAgent (.puppet c0)) := rfl
    rw [this]
    decide +kernel
  have key (va : Word) (h : va.toNat < 2 ^ 30) : s.reach (s.agentPart (fetcherAgent (.puppet c0))) asid va 4 ≠ .miss := by
    rw [hp, reach_mapped hm va h 4]
    exact fun h => nomatch h
  refine ⟨rfl, rfl, rfl, rfl, fun n hn => ?_⟩
  match n with
  | 0 => exact ⟨⟨_, rfl⟩, key 0x400000 (by decide)⟩
  | 1 => exact ⟨⟨_, rfl⟩, key 0x400040 (by decide)⟩
  | 2 => exact ⟨⟨_, rfl⟩, key 0x500000 (by decide)⟩
  | n + 3 =>
    have : (tabGet {} (s.slice 0).bog (n + 3) : BogEntry) = {} := by
      show tabGet {} [(0, fetchEntry 0x400000), (1, fetchEntry 0x400040), (2, fetchEntry 0x500000)] (n + 3) = _
      simp [tabGet]
    rw [this] at hn
    exact absurd hn.1 (by decide)

/-- The rest: a resident group with no fault, a slice of a partition, and a dyke that passes the host cores to HBM. -/
def hosted : State := { world [] with slices := [(0, { slice with regs := [(0x760, 0x80000), (0x78D, 0x10001), (0x7F8, 0x38), (0x7F9, 0x10000000000)] })] }

theorem witness_FetchesAndMisses_rest :
    ((world []).group g0).resident = true ∧ ((world []).group g0).faultCode = 0 ∧ (world []).partOf 0 = some 0 ∧ ((world []).slice 0).heldRecs = [] ∧ ((world []).slice 0).missq = []
      ∧ hosted.partOf 0 = some 0 ∧ (hosted.slice 0).hostHeld = false ∧ targetOf (0x400000 : BitVec 48).toNat = .hbm 0 ∧ (0x400000 : BitVec 48).toNat + 8 ≤ 2 ^ 40
      ∧ (∀ load, hosted.hostPasses 0 0 0x400000 load = true ∧ hosted.hostPasses 0 0 (0x400000 + 8 - 1) load = true) ∧ hosted.poisoned 0x400000 8 false = false
      ∧ hosted.injectorOff ∧ hosted.outsideReady 0x400000 8 = true := by
  have h0 : (world []).partOf 0 = some 0 := by
    have : (world []).partOf 0 = ({ State.reset with prc := prc } : State).partOf 0 := rfl
    rw [this]; decide +kernel
  have h1 : hosted.partOf 0 = some 0 := by
    have : hosted.partOf 0 = ({ State.reset with prc := prc } : State).partOf 0 := rfl
    rw [this]; decide +kernel
  refine ⟨rfl, rfl, h0, rfl, rfl, h1, rfl, by decide, by decide, by decide +kernel, rfl, ?_, by decide +kernel⟩
  unfold State.injectorOff
  decide +kernel

end Sys2Proof.Machine.Tests
end

