-- ==== Sys2Proof/Tests/Witness8.lean ====
section
/-! SUPPORT. Witnesses for the statements about copies, tile stores, storage chains and the matrix pipes. -/

namespace Sys2Proof.Machine.Tests

-- One theorem after another: a file of closed evaluations needs no more than one thread.
set_option Elab.async false

/-! ### Lines that a home holds -/

theorem mem_tabSet {α : Type} {t : Tab α} {i : Nat} {x : α} {e : Nat × α} (h : e ∈ tabSet t i x) : e = (i, x) ∨ e ∈ t := by
  induction t with
  | nil => exact .inl (List.mem_singleton.mp h)
  | cons y t ih =>
    simp only [tabSet] at h
    split_ifs at h
    · exact (List.mem_cons.mp h).imp id id
    · exact (List.mem_cons.mp h).imp id fun k => List.mem_cons_of_mem _ k
    · rcases List.mem_cons.mp h with h | h
      · exact .inr (h ▸ List.mem_cons_self)
      · exact (ih h).imp id fun k => List.mem_cons_of_mem _ k

/-- The module of the tests with no poison and no injector, whose home of slice 0 holds at least some lines, all under their own names. -/
structure Warm (s : State) (ls : List Nat) : Prop where
  mapped : Mapped s
  poison : s.poison = []
  off : s.injectorOff
  names : ∀ e ∈ (s.slice 0).l2, e.2.key = lineKey asid e.1 ∧ e.2.hc = false
  held : ∀ l ∈ ls, ∃ x, tabFind (s.slice 0).l2 l = some x

theorem lines_named {k : Slice} (h : ∀ e ∈ k.l2, e.2.key = lineKey asid e.1 ∧ e.2.hc = false) :
    ∀ l e, k.lineOf (lineKey asid l) = some e → e.1 = l ∧ e.2.hc = false := by
  intro l e he
  have hk := List.find?_some he
  obtain ⟨h1, h2⟩ := h e (List.mem_of_find?_eq_some he)
  rw [h1] at hk
  exact ⟨Nat.add_left_cancel (eq_of_beq hk), h2⟩

theorem Warm.keep {s t : State} {ls : List Nat} (h : Warm s ls) (hm : t.mem = s.mem) (hp : t.poison = s.poison) (hc : t.prc = s.prc) (hr : ∀ i, (t.slice i).regs = (s.slice i).regs)
    (hn : ∀ e ∈ (t.slice 0).l2, e.2.key = lineKey asid e.1 ∧ e.2.hc = false) (hh : ∀ l ∈ ls, ∃ x, tabFind (t.slice 0).l2 l = some x) : Warm t ls := by
  have e (a : Nat) : t.tableEntry a = s.tableEntry a := by simp only [State.tableEntry, memReadLE, hm]
  have hmem : t.member 0 = s.member 0 := by
    funext i
    simp only [State.member, State.partValid, State.pmap, State.prcReg, hc]
  have hs (i : SliceId) (n : Nat) : t.sliceReg i n = s.sliceReg i n := by simp only [State.sliceReg, hr]
  have m := h.mapped
  exact ⟨⟨by rw [State.memberSlices, hmem]; exact m.members, (hs 0 _).trans m.base, (e _).trans m.dir, (e _).trans m.root, (e _).trans m.leaf, lines_named hn⟩,
    hp.trans h.poison, fun i => by rw [hs]; exact h.off i, hn, hh⟩

theorem Warm.sameDies {s t : State} {ls : List Nat} (h : Warm s ls) (d : s.SameDies t) : Warm t ls :=
  h.keep d.mem d.poison d.prc d.regs (by rw [d.l2]; exact h.names) (by rw [d.l2]; exact h.held)

/-- A read of a held line meets nothing, and leaves memory and the lines as they are. -/
theorem readRun_warm {s : State} {ls : List Nat} (h : Warm s ls) (a : Agent) (k : Kind) (va n : Nat) (hv : va < 2 ^ 30) (hl : va / 64 ∈ ls) :
    ∃ t, s.readRun (eng a) k va n = (t, .ok) ∧ Warm t ls ∧ t.mem = s.mem := by
  have e : (BitVec.ofNat 64 va).toNat = va := by simp only [BitVec.toNat_ofNat]; omega
  have ht : targetOf va = .hbm 0 := by
    have h1 : va / 2 ^ 40 = 0 := by omega
    have h2 : va / 2 ^ 37 = 0 := by omega
    simp only [targetOf, h1, h2, if_true]
    rfl
  have hh : (s.home 0 (va / 64)).1 = 0 := home_of_one s 0 _ h.mapped.members
  have hr := reach_nat h.mapped va hv k
  obtain ⟨x, hx⟩ := h.held _ hl
  simp only [State.readRun, engPlace_low s a va hv]
  simp only [eng, hr, ht, e, hh, State.readLine_off h.off h.poison, State.holdLine_held hx]
  generalize hs1 : (s.modSlice 0 fun k => { k with l2 := tabSet k.l2 (va / 64) { x with used := k.l2Uses + 1 }, l2Uses := k.l2Uses + 1 }) = s1
  have m1 : Warm s1 ls ∧ s1.mem = s.mem := by
    subst hs1
    refine ⟨h.keep rfl rfl rfl (fun i => ?_) (fun y hy => ?_) (fun l hm => ?_), rfl⟩
    · simp only [State.slice_modSlice]; split_ifs with hi <;> first | rfl | (subst hi; rfl)
    · simp only [State.slice_modSlice, if_true] at hy
      rcases mem_tabSet hy with rfl | hy
      · have : ∀ (t : Tab L2Line), tabFind t (va / 64) = some x → (va / 64, x) ∈ t := by
          intro t
          induction t with
          | nil => intro h; cases h
          | cons y t ih =>
            intro h
            simp only [tabFind] at h
            split_ifs at h with hi
            · obtain rfl := Option.some.inj h
              rw [hi]
              exact List.mem_cons_self
            · exact List.mem_cons_of_mem _ (ih h)
        exact h.names (va / 64, x) (this _ hx)
      · exact h.names y hy
    · simp only [State.slice_modSlice, if_true, tabFind_tabSet]
      split_ifs
      · exact ⟨_, rfl⟩
      · exact h.held l hm
  clear hs1
  split_ifs
  · exact ⟨_, rfl, m1⟩
  · have d := (s1.observe_sameDies a (va / 64)).trans (State.l1Stale_sameDies _ (agentCore a) (va / 64))
    exact ⟨_, rfl, m1.1.sameDies d, d.mem.trans m1.2⟩

/-- A held line is used. -/
def useLine (s : State) (pl : Nat) (x : L2Line) : State :=
  s.modSlice 0 fun k => { k with l2 := tabSet k.l2 pl { x with used := k.l2Uses + 1 }, l2Uses := k.l2Uses + 1 }

/-- With no older copy of any line, that is all that a read does. -/
theorem readRun_plain {s : State} {ls : List Nat} (h : Warm s ls) (a : Agent) (k : Kind) (va n : Nat) (hv : va < 2 ^ 30) {x : L2Line} (hx : tabFind (s.slice 0).l2 (va / 64) = some x)
    (hc : s.lineCov = []) (hl : ((useLine s (va / 64) x).core (agentCore a)).l1 = []) : s.readRun (eng a) k va n = (useLine s (va / 64) x, .ok) := by
  have e : (BitVec.ofNat 64 va).toNat = va := by simp only [BitVec.toNat_ofNat]; omega
  have ht : targetOf va = .hbm 0 := by
    have h1 : va / 2 ^ 40 = 0 := by omega
    have h2 : va / 2 ^ 37 = 0 := by omega
    simp only [targetOf, h1, h2, if_true]
    rfl
  have hh : (s.home 0 (va / 64)).1 = 0 := home_of_one s 0 _ h.mapped.members
  have hr := reach_nat h.mapped va hv k
  simp only [State.readRun, engPlace_low s a va hv]
  simp only [eng, hr, ht, e, hh, State.readLine_off h.off h.poison, State.holdLine_held hx]
  have ho : (useLine s (va / 64) x).observe a (va / 64) = useLine s (va / 64) x := by
    have : tabGet 0 (useLine s (va / 64) x).lineCov (va / 64) = 0 := by rw [show (useLine s (va / 64) x).lineCov = s.lineCov from rfl, hc]; rfl
    simp only [State.observe, this, decide_true, Bool.or_true, if_true]
  have hs : (useLine s (va / 64) x).l1Stale (agentCore a) (va / 64) = useLine s (va / 64) x := by
    simp only [State.l1Stale, hl, List.any_nil, Bool.false_eq_true, if_false]
  show (if _ then useLine s (va / 64) x else ((useLine s (va / 64) x).observe a (va / 64)).l1Stale (agentCore a) (va / 64), EngMeet.ok) = _
  rw [ho, hs, ite_self]

/-- A group with nothing in flight may read below 1 GiB. -/
theorem mayRead_mapped {s : State} (h : Mapped s) (a : Agent) (ha : (agentCore a).slice = 0) (hp : s.agentPart a = 0) (hq : (s.scOf a).memq = []) (va : Word) (n : Nat)
    (hv : va.toNat < 2 ^ 30) (hh : (s.part 0).artHold = false := by rfl) : s.mayRead (eng a) va n = true := by
  have e : s.engPlace (eng a) va = .global asid va := by simp only [State.engPlace, eng, placeOf_low s a asid none va hv]
  have hl := linked_zero h a ha hp (va.toNat / 64) hh
  rw [hp] at hl
  simp only [State.mayRead, State.mayPerform, e, show (eng a).a = a from rfl, hq, withPrefix, List.any_nil, State.reachesHomes, State.homeSlice, List.all_cons, List.all_nil, hl, hp, Bool.true_or]
  rfl

theorem readRuns_warm {ls : List Nat} (a : Agent) (k : Kind) (rs : List (Nat × Nat)) :
    ∀ {s : State}, Warm s ls → (∀ r ∈ rs, r.1 < 2 ^ 30 ∧ r.1 / 64 ∈ ls) → ∃ t, s.readRuns (eng a) k rs = (t, .ok) ∧ Warm t ls ∧ t.mem = s.mem := by
  induction rs with
  | nil => exact fun h _ => ⟨_, rfl, h, rfl⟩
  | cons r rs ih =>
    intro s h hr
    obtain ⟨h1, h2⟩ := hr r List.mem_cons_self
    obtain ⟨t, e, w, m⟩ := readRun_warm h a k r.1 r.2 h1 h2
    obtain ⟨u, f, y, z⟩ := ih w fun r hm => hr r (List.mem_cons_of_mem _ hm)
    exact ⟨u, by simp only [State.readRuns, e, f], y, z.trans m⟩

/-- Reads of held lines, one after another. -/
theorem readList_warm {ls : List Nat} (a : Agent) (k : Kind) (rs : List (Word × Nat)) :
    ∀ {s : State}, Warm s ls → (∀ x ∈ rs, ∀ r ∈ runsOf x.1 x.2, r.1 < 2 ^ 30 ∧ r.1 / 64 ∈ ls) → ∃ t, s.readList (eng a) k rs = (t, .ok) := by
  induction rs with
  | nil => exact fun _ _ => ⟨_, rfl⟩
  | cons x rs ih =>
    intro s h hr
    obtain ⟨t, e, w, _⟩ := readRuns_warm a k (runsOf x.1 x.2) h (hr x List.mem_cons_self)
    obtain ⟨u, f⟩ := ih w fun y hm => hr y (List.mem_cons_of_mem _ hm)
    exact ⟨u, by simp only [State.readList, State.readLines, e, f]⟩

/-- Some lines, each under its own name. -/
def warmLines (ls : List Nat) : Tab L2Line := ls.map fun l => (l, { key := lineKey asid l })

theorem warm_of {s : State} (ls : List Nat) (hl : (s.slice 0).l2 = warmLines ls) (hm : Mapped s) (hp : s.poison = []) (hi : s.injectorOff)
    (hh : ∀ l ∈ ls, ∃ x, tabFind (warmLines ls) l = some x) : Warm s ls := by
  refine ⟨hm, hp, hi, fun e he => ?_, by rw [hl]; exact hh⟩
  rw [hl] at he
  obtain ⟨l, _, rfl⟩ := List.mem_map.mp he
  exact ⟨rfl, rfl⟩

theorem warmLines_named (ls : List Nat) {k : Slice} (h : k.l2 = warmLines ls) : ∀ l e, k.lineOf (lineKey asid l) = some e → e.1 = l ∧ e.2.hc = false := by
  refine lines_named fun e he => ?_
  rw [h] at he
  obtain ⟨l, _, rfl⟩ := List.mem_map.mp he
  exact ⟨rfl, rfl⟩

/-! ### Copies issued -/

/-- A shape record: DIR 0, one row of 8 elements of INT8 of a tensor of 8. -/
def shape1 : List W32 := [0x080B0001, 0x00080001, 8, 0, 0, 0, 0, 0, 0, 0, 0, 0, 0, 0, 0, 64337]
/-- A dense INT8 tile of 1 × 8, and its header's bytes at an offset of the scratchpad. -/
def tile1 : List W32 := [2817, 524289, 32, 0, 0, 0, 0, 60775]
def tileAt (off : Nat) (h : List W32) : Memory := wordsAt off h

/-- The group with a base in `s8`, a local offset and pitch in `s9`, a coordinate in `s10`, and the record's address in `s5`; for `tstore` `s6` holds the tile's offset. The
record, or nothing, in memory; the tile's header, or nothing, in the scratchpad. -/
def copying (good : Bool) : State :=
  { world (if good then wordsAt 0x400000 shape1 else []) with
    cur := .scalar g0,
    slices := [(0, { slice with l2 := warmLines [0x400000 / 64], cores := [(0, { core with
      groups := [(0, { group with sc := { s := [(5, 0x400000), (6, 0x1000), (8, 0x500000), (9, 0x2000002000), (10, 0)] } })],
      wgs := [(1, { workgroup with spad := if good then tileAt 0x1000 tile1 else [] })] })] })] }

theorem copying_mapped (good : Bool) : Mapped (copying good) := by
  refine mapped_of _ _ rfl ?_ (members_of rfl) (base_of rfl) (warmLines_named [0x400000 / 64] rfl)
  intro e he
  cases good
  · cases he
  · exact wordsAt_ge _ _ e he

theorem copying_warm (good : Bool) : Warm (copying good) [0x400000 / 64] :=
  warm_of _ rfl (copying_mapped good) rfl (injectorOff_of fun i => by fin_cases i <;> rfl) fun l hl => by rw [List.mem_singleton] at hl; subst hl; exact ⟨_, rfl⟩

theorem copying_eng (good : Bool) :
    ({ a := (copying good).cur, part := (copying good).agentPart (copying good).cur, asid := (copying good).agentAsid (copying good).cur } : EngId) = eng (.scalar g0) := rfl

/-- A record that is valid, with `tile1` in the scratchpad, and neither. -/
theorem witness_CopiesIssued (good : Bool) :
    let s := copying good
    let e : EngId := { a := s.cur, part := s.agentPart s.cur, asid := s.agentAsid s.cur }
    ∃ s', s.readLines e 1 (s.sreg 5) 64 = (s', .ok) ∧
    let r := s'.engWords e 1 (s.sreg 5) 16
    let h := bytesToWords 8 (s.chipRead (localPlace (.scalar g0) e.part (s.group g0).wg 0x1000) 32)
    s.cur = .scalar g0 ∧ (8 : BitVec 6).toNat + 1 + (1 : BitVec 3).toNat ≤ 59 ∧ (∀ r d, s.canIssue r d) ∧ s.mayRead e (s.sreg 5) 64 = true ∧ s.meet e 1 (s.sreg 5) 64 = .ok ∧ (s.group g0).loose = []
      ∧ shapeOk r (1 : BitVec 3).toNat (bitsOf (s.sreg 9) 63 32) (!s.ownsMatrix s.cur) = good ∧ (good = true → shpDir r = 0) ∧ s.injectorOff
      ∧ bitsOf (s.sreg 6) 18 0 / 32 * 32 = 0x1000 ∧ bitsOf (s.sreg 6) 34 32 = 0 ∧ hdrOk (s.feature e.part 2) h = good ∧ (s.group g0).faultCode = 0 := by
  intro s e
  have h5 : s.sreg 5 = 0x400000 := by cases good <;> decide +kernel
  obtain ⟨s', hs, hw, hmem⟩ := readRuns_warm (.scalar g0) 1 [(0x400000, 64)] (copying_warm good) (by decide)
  have hrun : runsOf 0x400000 64 = [(0x400000, 64)] := by decide +kernel
  refine ⟨s', by rw [h5]; simp only [State.readLines, hrun]; exact hs, ?_⟩
  intro r h
  have hr : r = if good then shape1 else List.replicate 16 0 := by
    have : r = s'.engWords (eng (.scalar g0)) 1 0x400000 16 := by simp only [r, h5]; rfl
    rw [this, engWords_mapped hw.mapped _ _ _ _ (by decide), hmem]
    have : memRead s.mem (0x400000 : Word).toNat (4 * 16) = memRead (if good then wordsAt 0x400000 shape1 else []) 0x400000 64 := memRead_high _ _ _ (by decide)
    rw [this]
    clear this h5
    cases good <;> decide +kernel
  refine ⟨rfl, by decide, fun r d => canIssue_of (by trivial) rfl rfl r d, by rw [h5]; exact mayRead_mapped (copying_mapped good) _ rfl rfl rfl _ _ (by decide), ?_, rfl, ?_, ?_, injectorOff_of fun i => by fin_cases i <;> rfl, ?_, ?_, ?_, rfl⟩
  · rw [h5]; exact meet_mapped (copying_mapped good) rfl _ _ _ _ (by decide)
  · rw [hr]
    have : shapeOk (if good then shape1 else List.replicate 16 0) (1 : BitVec 3).toNat 32 false = good := by clear hr h5; cases good <;> decide +kernel
    have e1 : bitsOf (s.sreg 9) 63 32 = 32 := by clear hr h5 this; cases good <;> decide +kernel
    have e2 : s.ownsMatrix s.cur = true := by clear hr h5 this e1; cases good <;> decide +kernel
    rw [e1, e2]
    exact this
  · rw [hr]; clear hr h5; cases good <;> decide +kernel
  · clear hr h5; cases good <;> decide +kernel
  · clear hr h5; cases good <;> decide +kernel
  · clear hr h5; cases good <;> decide +kernel

/-! ### Copies completed -/

/-- A copy whose box starts at an element, and a chain about to start. -/
def copyOp (asid : W16) (scope : BitVec 3) (wct base : Word) (at' : Int) : AsyncOp :=
  { id := 8, issuer := .scalar g0, part := 0, asid := asid, wg := 1, kind := .tcopy shape1 base 0x2000 32 [at'], scope := scope, token := .reg (.scalar g0) 5, word := 0x1000, wct := wct,
    grid := 1 }
def chainOp : AsyncOp := { copyOp asid 2 0 0 0 with kind := .storq 0x400000 [] }
/-- The module with an operation under way. -/
def goingOn (o : AsyncOp) : State :=
  { world [] with asyncs := [o], slices := [(0, { slice with l2 := warmLines [0x400000 / 64, 0x400040 / 64, 0x500000 / 64], cores := [(0, { core with groups := [(0, { group with sc := { pend := 32 } })] })] })] }

theorem goingOn_mapped (o : AsyncOp) : Mapped (goingOn o) := mapped_of _ [] rfl (by simp) (members_of rfl) (base_of rfl) (warmLines_named _ rfl)

theorem goingOn_warm (o : AsyncOp) : Warm (goingOn o) [0x400000 / 64, 0x400040 / 64, 0x500000 / 64] :=
  warm_of _ rfl (goingOn_mapped o) rfl (injectorOff_of fun i => by fin_cases i <;> rfl) fun l hl => by fin_cases hl <;> exact ⟨_, rfl⟩

/-- Accesses below 1 GiB meet nothing. -/
theorem meetList_mapped {s : State} (h : Mapped s) (hp : s.poison = []) (a : Agent) (k : Kind) :
    ∀ l : List (Word × Nat), (∀ x ∈ l, x.1.toNat + x.2 ≤ 2 ^ 30) → s.meetList (eng a) k l = .ok := by
  intro l
  induction l with
  | nil => intro; rfl
  | cons x l ih =>
    intro hl
    have hx : s.meet (eng a) k x.1 x.2 = .ok := meet_mapped h hp a k x.1 x.2 (hl x (by simp))
    simp only [State.meetList, hx]
    exact ih fun y hy => hl y (by simp [hy])

/-- What a result is. -/
def EngDone.kindOf : EngDone → Nat
  | .done _ _ _ => 1
  | .wait _ => 2
  | .fault _ _ _ _ => 3

theorem of_done {x : EngDone} (h : EngDone.kindOf x = 1) : ∃ u w st, x = .done u w st := by
  cases x <;> first | exact ⟨_, _, _, rfl⟩ | cases h
theorem of_fault {x : EngDone} (h : EngDone.kindOf x = 3) : ∃ u c va k, x = .fault u c va k := by
  cases x <;> first | exact ⟨_, _, _, _, rfl⟩ | cases h

/-- A box outside the tensor, which is done at once, at a scope where that is enough and at one where writes are still on their way; one that is done; a base that cannot be;
and a chain. -/
theorem witness_CopiesComplete :
    (∀ x ∈ [((2 : BitVec 3), (0 : Word)), (6, 1000)],
      let o := copyOp 3 x.1 x.2 0x500000 8
      let s := goingOn o
      s.asyncGoing o.id = some o ∧ o.issuer = .scalar g0 ∧ o.token = .reg (.scalar g0) 5 ∧ o.kind = .tcopy shape1 0x500000 0x2000 32 [8] ∧ o.done = false
        ∧ ∃ u w st, s.copy o shape1 0x500000 0x2000 32 [8] = .done u w st)
    ∧ (copyOp 3 2 0 0x500000 8).scope.toNat ≤ 2 ∧ ¬(1000 : Word).toNat + 3 ≤ (goingOn (copyOp 3 6 1000 0x500000 8)).now.toNat
    ∧ (let o := { copyOp 3 2 0 0x500000 8 with done := true }
       (goingOn o).asyncGoing o.id = some o ∧ o.done = true)
    ∧ (let o := copyOp 3 2 0 0x0100000000500000 0
       (goingOn o).asyncGoing o.id = some o ∧ o.done = false ∧ ∃ u c va k, (goingOn o).copy o shape1 0x0100000000500000 0x2000 32 [0] = .fault u c va k)
    ∧ ((goingOn chainOp).asyncGoing chainOp.id = some chainOp ∧ chainOp.kind = .storq 0x400000 [] ∧ (goingOn chainOp).meet chainOp.eng 5 0x400000 128 = .ok
        ∧ ∃ u, (goingOn chainOp).readLines chainOp.eng 5 0x400000 128 = (u, .ok)) := by
  refine ⟨fun x hx => ⟨?_, rfl, rfl, rfl, rfl, of_done ?_⟩, by decide, by decide, ⟨rfl, rfl⟩, ⟨rfl, rfl, of_fault ?_⟩, rfl, rfl, ?_, ?_⟩
  · rfl
  · fin_cases hx <;> decide +kernel
  · decide +kernel
  · exact meet_mapped (goingOn_mapped chainOp) rfl (.scalar g0) 5 0x400000 128 (by decide)
  · obtain ⟨u, h, _⟩ := readRuns_warm (.scalar g0) 5 (runsOf 0x400000 128) (goingOn_warm chainOp) (by decide +kernel)
    exact ⟨u, h⟩

/-- An operation that waits: a page of a module with no tables. -/
theorem witness_CopiesComplete_wait :
    let o := copyOp asid 2 0 0x500000 0
    let s := { blank [] [] with asyncs := [o] }
    s.asyncGoing o.id = some o ∧ o.kind = .tcopy shape1 0x500000 0x2000 32 [0] ∧ o.done = false ∧ ∃ u, s.copy o shape1 0x500000 0x2000 32 [0] = .wait u := by
  intro o s
  have hr (p : PartId) (id : W16) (va : Word) (k : Kind) : s.reach p id va k = .miss := blank_miss [] [] p id va k
  have hd : shpDir shape1 = 0 := by decide +kernel
  have hb : boxElems shape1 0x500000 [0] = (0, 0, 0x500000, false) :: (boxElems shape1 0x500000 [0]).tail := by decide +kernel
  have hrun : runsOf 0x500000 (elemBytes (shpEfmt shape1)) = [(0x500000, 1)] := by decide +kernel
  refine ⟨rfl, rfl, rfl, s.parkOnce o.eng (BitVec.ofNat 64 0x500000) 5 (.asyncOp o.id), ?_⟩
  have hl : s.localMeet o = .ok := rfl
  have hm : s.meetRun o.eng 5 0x500000 1 = .miss (BitVec.ofNat 64 0x500000) := by
    simp only [State.meetRun, show o.eng = eng (.scalar g0) from rfl, engPlace_low s _ _ (by decide : 0x500000 < 2 ^ 30), hr]
  simp only [State.copy, State.unlessLocal, hl, hd, State.copyIn]
  rw [hb]
  simp only [State.unlessMeets, List.map_cons, State.meetList, State.meet, hrun, State.meetAll, hm]

/-- The box of the whole tensor, and one half of it outside. -/
theorem witness_CopiesComplete_in (c : Int) (hc : c = 0 ∨ c = 4) :
    let o := copyOp asid 2 0 0x500000 c
    let s := goingOn o
    s.asyncGoing o.id = some o ∧ o.saved = false ∧ o.spadAt = none ∧ o.wct = 0 ∧ shpDir shape1 = 0 ∧ shapeOk shape1 [c].length 32 true = true
      ∧ tabFind (s.core g0.at).wgs o.wg = some workgroup ∧ 0x2000 + 32 + 64 * 32 ≤ workgroup.spadLen
      ∧ s.meetList o.eng 5 ((boxElems shape1 0x500000 [c]).map fun x => (x.2.2.1, elemBytes (shpEfmt shape1))) = .ok
      ∧ ∃ u, s.readList o.eng 5 ((boxElems shape1 0x500000 [c]).map fun x => (x.2.2.1, elemBytes (shpEfmt shape1))) = (u, .ok) := by
  intro o s
  refine ⟨rfl, rfl, rfl, rfl, by decide +kernel, ?_, rfl, by decide, meetList_mapped (goingOn_mapped o) rfl _ _ _ ?_, readList_warm (.scalar g0) 5 _ (goingOn_warm o) ?_⟩
  all_goals rcases hc with h | h <;> subst h <;> decide +kernel

/-- A tile store about to take the lock, free or held; about to write its row; and about to write its header. -/
def storeOp (stage : Nat) (locked : Bool) : AsyncOp :=
  { copyOp asid 2 0 0 0 with kind := .tstore 0x1000 0 0x500000 tile1, stage := stage, lock := if locked then some (.global 0 0x500000) else none }

theorem witness_CopiesComplete_store (stage : Nat) (hs : stage < 3) (other : Bool) :
    let o := storeOp stage (decide (stage ≠ 0))
    let s := { goingOn o with tileLocks := if other || decide (stage ≠ 0) then [.global 0 0x500000] else [] }
    let parts := s.storeParts o 0x1000 0 0x500000 tile1
    let p := s.lockPlace o.eng 6 0x500000
    s.asyncGoing o.id = some o ∧ o.done = false ∧ o.saved = false ∧ o.spadAt = none ∧ parts.length = 1 ∧ p = .global 0 0x500000
      ∧ (stage = 0 → o.lock = none ∧ (p ∈ s.tileLocks ↔ other = true)) ∧ (stage ≠ 0 → o.lock = some p)
      ∧ s.meetList o.eng 6 ((0x500000, 32) :: parts.map fun e => (e.1, e.2.length)) = .ok := by
  intro o s parts p
  have hm : Mapped s := mapped_of _ [] rfl (by simp) (members_of rfl) (base_of rfl) (warmLines_named _ rfl)
  have hp : p = .global 0 0x500000 := by
    have hr := reach_nat hm 0x500000 (by decide) 6
    simp only [p, State.lockPlace, show o.eng = eng (.scalar g0) from rfl, show (0x500000 : Word) = BitVec.ofNat 64 0x500000 from rfl, engPlace_low s _ _ (by decide : 0x500000 < 2 ^ 30)]
    simp only [eng, hr]
  have hl : parts.length = 1 := by
    simp only [parts, State.storeParts, show metaBytes tile1 = 0 from by decide +kernel, if_true, show hdrRows tile1 = 1 from by decide +kernel]
    rfl
  have hq : ∀ x ∈ (0x500000, 32) :: parts.map fun e => (e.1, e.2.length), x.1.toNat + x.2 ≤ 2 ^ 30 := by
    have : parts.map (fun e => (e.1, e.2.length)) = [((0x500000 : Word) + 32 + BitVec.ofNat 64 (0 * hdrPitch tile1), moveBytes tile1)] := by
      simp only [parts, State.storeParts, show metaBytes tile1 = 0 from by decide +kernel, if_true, show hdrRows tile1 = 1 from by decide +kernel]
      simp
    rw [this]
    decide +kernel
  refine ⟨rfl, rfl, rfl, rfl, hl, hp, fun h => ⟨?_, ?_⟩, fun h => ?_, meetList_mapped hm rfl _ _ _ hq⟩
  · subst h; rfl
  · subst h; rw [hp]; cases other <;> decide
  · rw [hp]
    have : decide (stage ≠ 0) = true := decide_eq_true h
    simp only [o, storeOp, this, if_true]

/-! ### The matrix words -/

/-- The header of a dense INT8 tile of 64 × 64. -/
def tile64 : List W32 := [2817, 4194368, 64, 0, 0, 0, 0, 42357]
/-- An operation of the group that reads tile 1 and writes accumulator 0. -/
def stepOp : StepOp :=
  { acc := 0, slotA := 0, slotB := 0, a := .tiles 0, b := .tiles 1, ah := [tile64], bh := [tile64], ctl := 0x501, depth := 32, cols := 64 }
def mop (k : MatKind) : MatOp := { id := 9, slot := 0, word := 0x1000, instr := 0, kind := k }

/-- The group with a control word in `s5`, a descriptor of the scratchpad tile in `s8` and `s9`, an address in `s12` and `s13`, and options in `s6`; the tile registers
full or empty; operations in the pipes; and a tile's header in the scratchpad and in memory. -/
def matting (good : Bool) (ctl opt : Word) (ops : List MatOp) : State :=
  { world (if good then wordsAt 0x400000 tile64 else []) with
    cur := .scalar g0, nextId := 20,
    slices := [(0, { slice with l2 := warmLines [0x400000 / 64], cores := [(0, { core with
      groups := [(0, { group with sc := { s := [(5, ctl), (6, opt), (8, 0x1000), (9, 32), (12, 0x400000), (13, 64)] }, unfenced := ops.map (·.id), batches := [(0, ops.map (·.id))] })],
      wgs := [(1, { workgroup with spad := if good then tileAt 0x1000 tile1 else [] })],
      tiles := if good then (List.range 8).map fun n => (n, { hdr := tile64 }) else [],
      mops := ops })] })] }

theorem matting_mapped (good : Bool) (ctl opt : Word) (ops : List MatOp) : Mapped (matting good ctl opt ops) := by
  refine mapped_of _ _ rfl ?_ (members_of rfl) (base_of rfl) (warmLines_named [0x400000 / 64] rfl)
  intro e he
  cases good
  · cases he
  · exact wordsAt_ge _ _ e he

theorem matting_warm (good : Bool) (ctl opt : Word) (ops : List MatOp) : Warm (matting good ctl opt ops) [0x400000 / 64] :=
  warm_of _ rfl (matting_mapped good ctl opt ops) rfl (injectorOff_of fun i => by fin_cases i <;> rfl) fun l hl => by rw [List.mem_singleton] at hl; subst hl; exact ⟨_, rfl⟩

/-- After the header of weights has been read. -/
def fed (good : Bool) : State := useLine (matting good 0x501 0 []) (0x400000 / 64) { key := lineKey asid (0x400000 / 64) }

theorem fed_run (good : Bool) : (matting good 0x501 0 []).readRun (eng (.scalar g0)) 1 0x400000 32 = (fed good, .ok) :=
  readRun_plain (matting_warm good 0x501 0 []) _ _ _ _ (by decide) rfl rfl rfl

theorem fed_mapped (good : Bool) : Mapped (fed good) := by
  obtain ⟨t, e, w, _⟩ := readRun_warm (matting_warm good 0x501 0 []) (.scalar g0) 1 0x400000 32 (by decide) List.mem_cons_self
  rw [fed_run] at e
  obtain rfl := (Prod.mk.inj e).1
  exact w.mapped

def isOk {α β : Type} : Except α β → Bool
  | .ok _ => true
  | .error _ => false

theorem of_ok {α β : Type} {x : Except α (β × Nat)} (h : isOk x = true) : ∃ o e, x = .ok (o, e) := by
  match x, h with
  | .ok (o, e), _ => exact ⟨o, e, rfl⟩
theorem ok_eq {α β : Type} [DecidableEq β] {x : Except α β} {y : β} (h : (match x with | .ok z => decide (z = y) | .error _ => false) = true) : x = .ok y := by
  match x, h with
  | .ok z, h => rw [of_decide_eq_true h]
theorem of_error {α β : Type} {x : Except α β} (h : isOk x = false) : ∃ f, x = .error f := by
  match x, h with
  | .error f, _ => exact ⟨f, rfl⟩

theorem witness_MatrixWords_base (good : Bool) (ctl opt : Word) (ops : List MatOp) :
    let s := matting good ctl opt ops
    s.cur = .scalar g0 ∧ s.injectorOff ∧ (s.group g0).faultCode = 0 ∧ (∀ p ∈ (s.core g0.at).mlog, p.slot = g0.slot) ∧ s.ownsMatrix s.cur = true ∧ (∀ r d, s.canIssue r d) ∧ (s.group g0).lq = [] ∧ (s.group g0).block = none
      ∧ (s.group g0).sc.wait ≠ .stall :=
  ⟨rfl, injectorOff_of fun i => by fin_cases i <;> rfl, rfl, (fun p hp => by cases hp), rfl, fun r d => canIssue_of (by trivial) rfl rfl r d, rfl, rfl, fun h => nomatch h⟩

/-- `mloop` of no step, and of one step of full tiles and of empty ones. -/
theorem witness_MatrixWords_mloop :
    scalarReserved (.mloop 5 0 1 false false 0 0) = false ∧ bitsOf ((matting true 0 0 []).sreg 5) 3 0 = 0 ∧ bitsOf ((matting true 0x501 0 []).sreg 5) 3 0 ≠ 0
      ∧ (∃ o e, (matting true 0x501 0 []).checkStep g0 0 ((matting true 0x501 0 []).slotWord g0 0) ((matting true 0x501 0 []).slotWord g0 0) (.tiles 0) (.tiles 1) 0x501 64 false = .ok (o, e))
      ∧ ∃ f, (matting false 0x501 0 []).checkStep g0 0 ((matting false 0x501 0 []).slotWord g0 0) ((matting false 0x501 0 []).slotWord g0 0) (.tiles 0) (.tiles 1) 0x501 64 false = .error f :=
  ⟨by decide +kernel, by decide +kernel, by decide +kernel, of_ok (by decide +kernel), of_error (by decide +kernel)⟩

/-- The weights in memory: a tile, or nothing. -/
theorem words_of {s : State} (good : Bool) (h : Mapped s) (hm : s.mem = tables ++ (if good then wordsAt 0x400000 tile64 else [])) (k : Kind) :
    s.engWords (eng (.scalar g0)) k 0x400000 8 = if good then tile64 else List.replicate 8 0 := by
  have key : memRead (if good then wordsAt 0x400000 tile64 else []) 0x400000 32 = wordsToBytes (if good then tile64 else List.replicate 8 0) := by
    cases good <;> decide +kernel
  rw [engWords_mapped h _ _ _ _ (by decide)]
  have : memRead s.mem (0x400000 : Word).toNat (4 * 8) = memRead (if good then wordsAt 0x400000 tile64 else []) 0x400000 32 := by rw [hm]; exact memRead_high _ _ _ (by decide)
  rw [this, key]
  clear this key h hm
  cases good <;> decide +kernel

theorem weights_of {s : State} (good : Bool) (he : s.matEng g0 = eng (.scalar g0)) (h : Mapped s) (hm : s.mem = tables ++ (if good then wordsAt 0x400000 tile64 else [])) :
    (s.opTile g0 (.weights 0x400000 64) 0 none).hdr = (if good then tile64 else List.replicate 8 0) ∧ (s.opTile g0 (.weights 0x400000 64) 0 none).srec = [] := by
  have hv : weightTile 0x400000 64 0 = 0x400000 := by decide
  have h0 : hdrSfmt (if good then tile64 else List.replicate 8 0) = 0 := by clear h hm; cases good <;> decide +kernel
  have hw := words_of good h hm
  exact ⟨by simp only [State.opTile, he, hv, hw, Option.getD_none], by simp only [State.opTile, he, hv, hw, Option.getD_none, h0, if_true]⟩

/-- The header of the weights is there, and is read. -/
theorem matting_header (good : Bool) :
    let s := matting good 0x501 0 []
    s.mayRead (s.matEng g0) 0x400000 32 = true ∧ s.meetHeader g0 0x400000 64 = .ok ∧ s.readHeader g0 0x400000 64 = (fed good, .ok) := by
  intro s
  have he : s.matEng g0 = eng (.scalar g0) := rfl
  have hf : (fed good).matEng g0 = eng (.scalar g0) := rfl
  have hm : s.meet (eng (.scalar g0)) 1 0x400000 32 = .ok := meet_mapped (matting_mapped good 0x501 0 []) rfl _ _ _ _ (by decide)
  have h0 : hdrSfmt (if good then tile64 else List.replicate 8 0) = 0 := by cases good <;> decide +kernel
  have hr : runsOf 0x400000 32 = [(0x400000, 32)] := by decide +kernel
  refine ⟨mayRead_mapped (matting_mapped good 0x501 0 []) _ rfl rfl rfl _ _ (by decide), ?_, ?_⟩
  · have hw : s.engWords (eng (.scalar g0)) 1 0x400000 8 = _ := words_of good (matting_mapped good 0x501 0 []) rfl 1
    simp only [State.meetHeader, he, hm, hw, h0, decide_true, Bool.true_or, if_true]
  · have e : s.readRun (eng (.scalar g0)) 1 0x400000 32 = (fed good, .ok) := fed_run good
    simp only [State.readHeader, he, hf, State.readLines, hr, State.readRuns, e, words_of good (fed_mapped good) rfl, h0, decide_true, Bool.true_or, if_true]

theorem checkOp_eq {s : State} {g : GroupRef} {m : Word} {w : List W32} (h1 : (s.opTile g (.weights m 64) 0 none).hdr = w) (h2 : (s.opTile g (.weights m 64) 0 none).srec = [])
    (hx : s.xhdr g = false) : s.checkOp g (.weights m 64) 0 0 true = match checkTile false true 0 true w [] with | .ok f => .ok (w, f) | .error c => .error c := by
  unfold State.checkOp
  dsimp only
  rw [h1, h2, hx]
  rfl

/-- What step 3 of R245 finds of weight tile 0. -/
theorem fed_checkOp :
    (fed true).checkOp g0 (.weights 0x400000 64) 0 0 true = .ok (tile64, 0x0B)
    ∧ ∃ f, (fed false).checkOp g0 (.weights 0x400000 64) 0 0 true = .error f := by
  have h1 : checkTile false true 0 true tile64 [] = .ok 0x0B := ok_eq (by decide +kernel)
  obtain ⟨f, h2⟩ := of_error (show isOk (checkTile false true 0 true (List.replicate 8 0) []) = false by decide +kernel)
  obtain ⟨e1, r1⟩ := weights_of true rfl (fed_mapped true) rfl
  obtain ⟨e2, r2⟩ := weights_of false rfl (fed_mapped false) rfl
  rw [if_pos rfl] at e1
  rw [if_neg (by decide)] at e2
  refine ⟨?_, f, ?_⟩
  · rw [checkOp_eq e1 r1 (by decide +kernel), h1]
  · rw [checkOp_eq e2 r2 (by decide +kernel), h2]

theorem checkStep_error {s : State} {g : GroupRef} {acc : BitVec 2} {sa sb : W32} {a b : Operand} {ctl : Word} {cols : Nat} {vec : Bool} {f : Cause}
    (h : s.checkOp g a 0 sa true = .error f) : s.checkStep g acc sa sb a b ctl cols vec = .error f := by
  unfold State.checkStep
  rw [h]

/-- One step of INT8 tiles, of which only tile 0 is checked. -/
theorem checkStep_ok {s : State} {g : GroupRef} {b : Operand} {w : List W32} (h : s.checkOp g (.weights 0x400000 64) 0 0 true = .ok (w, 0x0B)) (h1 : hdrSpar w ≠ 1)
    (hb : s.checkOp g b 0 0 false = .ok (w, 0x0B)) (ha : s.acc g.at 0 = {}) :
    ∃ o e, s.checkStep g 0 0 0 (.weights 0x400000 64) b 0x501 1 true = .ok (o, e) := by
  have e1 : pairDepth (fmtClass 0x0B) (fmtClass 0x0B) = some 32 := by decide
  have e2 : ceilDiv (ctlSteps 0x501 * 32) (ctlKB 0x501) = 1 := by decide
  have ha' : s.acc g.at (BitVec.toNat (0 : BitVec 2)) = {} := ha
  have e3 : (AccReg.efmt {}).toNat = 0 := rfl
  unfold State.checkStep
  rw [h]
  dsimp only
  rw [hb]
  dsimp only
  rw [e1]
  dsimp only
  rw [ha', e3, if_neg (by simp [h1]), if_neg h1, e2]
  exact ⟨_, _, rfl⟩

/-- `mvec` of no step, and of one step of weights that are there and of none. -/
theorem witness_MatrixWords_mvec :
    scalarReserved (.mvec 5 12 1 0 0 0) = false ∧ bitsOf ((matting true 0 0 []).sreg 5) 3 0 = 0
      ∧ (∀ good, let s := matting good 0x501 0 []
          BitVec.ofNat 64 ((s.sreg 12).toNat / 32 * 32) = 0x400000 ∧ s.sreg 13 = 64 ∧ bitsOf (s.sreg 5) 3 0 ≠ 0 ∧ s.mayRead (s.matEng g0) 0x400000 32 = true
            ∧ s.meetHeader g0 0x400000 64 = .ok ∧ s.readHeader g0 0x400000 64 = (fed good, .ok) ∧ s.slotWord g0 0 = 0)
      ∧ (∃ o e, (fed true).checkStep g0 0 0 0 (.weights 0x400000 64) (.tiles 1) 0x501 1 true = .ok (o, e))
      ∧ ∃ f, (fed false).checkStep g0 0 0 0 (.weights 0x400000 64) (.tiles 1) 0x501 1 true = .error f := by
  refine ⟨by decide +kernel, by decide +kernel, fun good => ⟨?_, ?_, ?_, (matting_header good).1, (matting_header good).2.1, (matting_header good).2.2, ?_⟩,
    checkStep_ok fed_checkOp.1 (by decide +kernel) (ok_eq (by decide +kernel)) rfl, ?_⟩
  · cases good <;> decide +kernel
  · cases good <;> decide +kernel
  · cases good <;> decide +kernel
  · cases good <;> decide +kernel
  · obtain ⟨f, hf⟩ := fed_checkOp.2
    exact ⟨f, checkStep_error hf⟩

/-- `mload` of the scratchpad's tile, of a pitch that is not its own, and into an accumulator. -/
theorem witness_MatrixWords_mload :
    let s := matting true 0 0 []
    let src := s.opTile g0 (.desc (s.sreg 8) (s.sreg 9)) 0 none
    scalarReserved (.mload 8 true 0) = false ∧ hdrRecOk (s.xhdr g0) src.hdr src.srec = true ∧ hdrPitch src.hdr = bitsOf (s.sreg 9) 31 0 ∧ bitsOf (s.sreg 9) 34 32 = 0
      ∧ s.mloadFault g0 true 0 (s.sreg 9) src = none ∧ (∃ f, s.mloadFault g0 false 0 (s.sreg 9) src = some f)
      ∧ (let s := matting false 0 0 []; let src := s.opTile g0 (.desc (s.sreg 8) (s.sreg 9)) 0 none; hdrRecOk (s.xhdr g0) src.hdr src.srec = false) := by
  refine ⟨by decide +kernel, by decide +kernel, by decide +kernel, by decide +kernel, by decide +kernel, Option.isSome_iff_exists.mp (by decide +kernel), by decide +kernel⟩

/-- `mdrain` in a mode that takes no rounds and in the stochastic one, with the lane stream idle and not; `mcvt` of a full tile, of an empty one, and of an accumulator, whose
format is no operand's. -/
theorem witness_MatrixWords_moves :
    scalarReserved (.mdrain 8 6 0 0) = false ∧ scalarReserved (.mcvt 2 false 0 6 0) = false ∧ scalarReserved (.mcvt 2 true 0 6 0) = false
      ∧ (let s := matting true 0 0 []; (s.cvtOp g0 (s.slotWord g0 0) (accFmt (s.acc g0.at 0)) (s.sreg 6) 64 64).mode ≠ 6)
      ∧ (let s := matting true 0 6 []; (s.cvtOp g0 (s.slotWord g0 0) (accFmt (s.acc g0.at 0)) (s.sreg 6) 64 64).mode = 6)
      ∧ ((matting true 0 6 []).modGroup g0 fun v => { v with lq := [.sigrst] }).group g0 = { (matting true 0 6 []).group g0 with lq := [.sigrst] }
      ∧ (let s := matting true 0 0 []
         s.mcvtSource g0 false 0 (s.slotWord g0 0) = .ok (tile64, 0x0B) ∧ hdrSpar tile64 ≠ 1
          ∧ isOperandFmt (s.cvtOp g0 (s.slotWord g0 0) 0x0B (s.sreg 6) (hdrRows tile64) (hdrCols tile64)).fmt = true
          ∧ (s.cvtOp g0 (s.slotWord g0 0) 0x0B (s.sreg 6) (hdrRows tile64) (hdrCols tile64)).mode ≠ 6)
      ∧ (let s := matting false 0 0 []; isOk (s.mcvtSource g0 false 0 (s.slotWord g0 0)) = false)
      ∧ (let s := matting true 0 0 []
         let h := accHdr (s.acc g0.at 0)
         s.mcvtSource g0 true 0 (s.slotWord g0 0) = .ok (h, accFmt (s.acc g0.at 0))
          ∧ isOperandFmt (s.cvtOp g0 (s.slotWord g0 0) (accFmt (s.acc g0.at 0)) (s.sreg 6) (hdrRows h) (hdrCols h)).fmt = false) := by
  refine ⟨by decide +kernel, by decide +kernel, by decide +kernel, by decide +kernel, by decide +kernel, rfl, ⟨ok_eq (by decide +kernel), by decide +kernel, by decide +kernel, by decide +kernel⟩, by decide +kernel,
    ⟨rfl, by decide +kernel⟩⟩

/-- With nothing in the pipes, and with a step that reads tile 1 and writes accumulator 0; and a workgroup that does not own the registers. -/
theorem witness_MatrixWords_waits :
    (let s := matting true 0 0 []
     (∀ m : Nat, ∀ o ∈ (s.core g0.at).mops, o.slot = g0.slot → m ∉ o.kind.reads ++ o.kind.writes) ∧ tabGet [] (s.group g0).batches (s.group g0).nextBatch.toNat = [])
    ∧ (let s := matting true 0 0 [mop (.mloop stepOp)]
       (∃ o ∈ (s.core g0.at).mops, o.slot = g0.slot ∧ 1 ∈ o.kind.reads ++ o.kind.writes) ∧ tabGet [] (s.group g0).batches 0 = [9] ∧ 9 ∈ (s.core g0.at).mops.map (·.id)
        ∧ ∃ o ∈ (s.core g0.at).mops, o.id < s.nextId ∧ ∃ m ∈ o.kind.reads ++ o.kind.writes, m < 12 ∧ bitsOf (s.sreg 5) 11 0 = 0)
    ∧ (let s := (matting true 0 0 []).modCore c0 fun k => { k with wgs := [(1, { workgroup with matrix := false })] }; s.ownsMatrix s.cur = false) := by
  refine ⟨⟨fun m o h => (by cases h), rfl⟩, ⟨⟨mop (.mloop stepOp), List.mem_singleton.mpr rfl, rfl, by decide +kernel⟩, rfl, by decide +kernel,
    ⟨mop (.mloop stepOp), List.mem_singleton.mpr rfl, by decide, 1, by decide +kernel, by decide, by decide +kernel⟩⟩, by decide +kernel⟩

/-! ### The operations of the pipes -/

/-- An operation of each kind that another statement's clause names. -/
def vecOp : StepOp := { stepOp with a := .weights 0x400000 64, cols := 1 }
def drainOp : CvtOp := { slot := 0, srcFmt := 0x0D, fmt := 0x0D, mode := 1, sat := false, rows := 2, cols := 8, lfsr := 1 }
def cvtOp8 : CvtOp := { drainOp with fmt := 0x0B }

/-- The head of each pipe; the operands of the INT8 step; and the place of the drained tile. -/
theorem witness_MatrixOperations :
    (∀ k ∈ [MatKind.mloop stepOp, .mvec vecOp], (mop k).spoil = [] ∧ (mop k).spoiled = false ∧ (mop k).hits = [] ∧ (matting true 0 0 [mop k]).pipeHead c0 false = some (mop k))
    ∧ (∀ k ∈ [MatKind.mzero false 1 false, .mzero true 1 true, .mload true 2 0x1000 32 tile1, .mload false 2 0x1000 32 tile1, .mdrain 0 0x1000 96 false drainOp, .mcvt 2 true 0 tile1 cvtOp8],
        (mop k).spoil = [] ∧ (mop k).spoiled = false ∧ (mop k).hits = [] ∧ (matting true 0 0 [mop k]).pipeHead c0 true = some (mop k))
    ∧ (stepOp.a = .tiles 0 ∧ stepOp.b = .tiles 1 ∧ stepOp.ah = [tile64] ∧ stepOp.bh = [tile64] ∧ stepOp.done = 0 ∧ stepOp.depth = 32 ∧ stepOp.cols = 64
        ∧ bitsOf stepOp.ctl 3 0 = 1 ∧ bitsOf stepOp.ctl 9 8 = 1 ∧ bitsOf stepOp.ctl 11 10 = 1 ∧ bitsOf stepOp.slotA 13 12 = 0 ∧ bitsOf stepOp.slotB 13 12 = 0
        ∧ hdrEfmt tile64 = 0x0B ∧ hdrSfmt tile64 = 0 ∧ hdrSpar tile64 = 0)
    ∧ (∃ w, tabFind ((matting true 0 0 [mop (.mdrain 0 0x1000 96 false drainOp)]).core c0).wgs 1 = some w ∧ drainOp.fmt < 64 ∧ drainOp.rows ≤ 64 ∧ drainOp.cols ≤ 64
        ∧ packedBytes drainOp.fmt drainOp.cols ≤ bitsOf (96 : Word) 31 0 ∧ bitsOf (96 : Word) 34 32 = 0 ∧ descTile 0x1000 0 + 32 + drainOp.rows * bitsOf (96 : Word) 31 0 ≤ w.spadLen)
    ∧ ∀ k, (matting true 0 0 [mop k]).tileLocks = [] := by
  refine ⟨?_, ?_, ⟨rfl, rfl, rfl, rfl, rfl, rfl, rfl, ?_, ?_, ?_, ?_, ?_, ?_, ?_, ?_⟩, ⟨{ workgroup with spad := tileAt 0x1000 tile1 }, rfl, ?_, ?_, ?_, ?_, ?_, ?_⟩, fun _ => rfl⟩
  · intro k hk; fin_cases hk <;> decide +kernel
  · intro k hk; fin_cases hk <;> decide +kernel
  all_goals decide +kernel

/-- The runs of a weight tile without scales. -/
theorem weightRuns_plain {t : TileSrc} {h : List W32} (e : t.hdr = h) (hr : t.rot = 0) (va m1 : Word) (f : Nat) (h0 : hdrSfmt h = 0) (h1 : hdrSpar h = 0) :
    weightRuns va m1 f t = (List.range (hdrRows h)).map fun r => (va + BitVec.ofInt 64 ((32 + r * t.pitch : Nat) : Int), packedBytes f (hdrStored h)) := by
  simp [weightRuns, tileRuns, e, hr, h0, h1]

/-- The weights of a step are there. -/
theorem meetWeights_one {s : State} (h : Mapped s) (hp : s.poison = []) (he : s.matEng g0 = eng (.scalar g0)) (o : StepOp)
    (hw : s.engWords (eng (.scalar g0)) 5 0x400000 8 = tile64) (ht : (s.opTile g0 (.weights 0x400000 64) 0 none).hdr = tile64)
    (hpi : (s.opTile g0 (.weights 0x400000 64) 0 none).pitch = 64) (hro : (s.opTile g0 (.weights 0x400000 64) 0 none).rot = 0)
    (hf : headerFormat o.slotA (s.xhdr g0) (o.ah.headD []) = 0x0B) : s.meetWeights g0 o 0x400000 64 [0] = .ok := by
  have hv : weightTile 0x400000 64 0 = 0x400000 := by decide
  have hm : s.meet (eng (.scalar g0)) 5 0x400000 32 = .ok := meet_mapped h hp _ _ _ _ (by decide)
  have ha : hdrAtom tile64 = false := by decide +kernel
  have h0 : hdrSfmt tile64 = 0 := by decide +kernel
  have hr : s.meetList (eng (.scalar g0)) 5 (weightRuns 0x400000 64 0x0B (s.opTile g0 (.weights 0x400000 64) 0 none)) = .ok := by
    refine meetList_mapped h hp _ _ _ ?_
    rw [weightRuns_plain ht hro _ _ _ h0 (by decide +kernel), hpi]
    clear hm hv ha h0
    decide +kernel
  simp only [State.meetWeights, he, hv, hm, hw, ha, h0, hf, hr, Bool.false_and, ne_eq, not_true_eq_false, decide_false, Bool.false_eq_true, if_false, decide_true, Bool.true_or, if_true,
    State.meetList]

theorem witness_MatrixOperations_weights :
    let s := matting true 0x501 0 []
    s.injectorOff ∧ s.meetWeights g0 vecOp 0x400000 64 ((List.range (vecOp.reach (ctlKA vecOp.ctl))).filter fun t => decide (vecOp.done * vecOp.depth / ctlKA vecOp.ctl ≤ t)) = .ok := by
  have e : (List.range (vecOp.reach (ctlKA vecOp.ctl))).filter (fun t => decide (vecOp.done * vecOp.depth / ctlKA vecOp.ctl ≤ t)) = [0] := by decide +kernel
  have ht : ((matting true 0x501 0 []).opTile g0 (.weights 0x400000 64) 0 none).hdr = tile64 := (weights_of true rfl (matting_mapped true 0x501 0 []) rfl).1
  refine ⟨(matting_warm true 0x501 0 []).off, ?_⟩
  rw [e]
  refine meetWeights_one (matting_mapped true 0x501 0 []) rfl rfl vecOp (words_of true (matting_mapped true 0x501 0 []) rfl 5) ht ?_ rfl (by decide +kernel)
  have : hdrPitch ((matting true 0x501 0 []).opTile g0 (.weights 0x400000 64) 0 none).hdr = 64 := by rw [ht]; decide +kernel
  exact this

end Sys2Proof.Machine.Tests
end

