-- ==== Sys2Proof/Tests/Witness9.lean ====
section
/-! SUPPORT. Witnesses for the statements about links, the crossbar, halts, pre-emption, the root controller and the life of a partition. -/

namespace Sys2Proof.Machine.Tests

-- One theorem after another: a file of closed evaluations needs no more than one thread.
set_option Elab.async false

/-! ### Links -/

/-- Slice 0 with its optical port 0 in a state, which the dyke lets packets of partition 0 through. -/
def linked (x : Port) : State :=
  { world [] with slices := [(0, { slice with regs := [(0x760, 0x80000), (0x780, 0x10101), (0x790, 0x38), (0x791, 0x10000000000), (0x708, 0x500000)], ports := [(0, x)],
                                              aborts := [List.replicate 8 1] })] }

/-- A payload that begins with some bytes. -/
def payload (bs : List Byte) : List Byte := (bs ++ List.replicate 32 0).take 32
/-- A data flit of class 0. -/
def dataOf (cont eop psn : Bool) (seq : BitVec 12) (bs : List Byte) : Flit := dataFlit 0 cont eop psn seq (payload bs)
/-- A control flit with its CHK. -/
def ctlOf (ctype : Nat) (args : List Byte) : Flit := sealFlit (ctlFlit ctype args).hdr (ctlFlit ctype args).payload
/-- A write of 16 bytes to 0x400000 of slice 0, for partition 0. -/
def writePacket : List Byte := wordsToBytes (makeHeader 3 16 0 0 0x400000) ++ List.replicate 16 7
/-- A packet in a queue, and a flit kept. -/
def packet0 : TxPacket := { num := 0, cls := 0, flits := [writePacket] }
def keptFlit : Flit := dataFlit 0 false true false 4 writePacket

theorem linked_base (x : Port) : portExists 0 0 = true ∧ (linked x).injectorOff ∧ (linked x).port 0 0 = x ∧ (linked x).holder 0 0 = 0 ∧ isChannel 0 = false :=
  by
  have h : (linked {}).injectorOff := by unfold State.injectorOff; decide +kernel
  have e : ∀ i, ((linked x).slice i).regs = ((linked {}).slice i).regs := fun i => by simp only [State.slice, linked, tabGet]; split <;> rfl
  exact ⟨rfl, fun i => by have := h i; simp only [State.sliceReg, e] at this ⊢; exact this, rfl, rfl, rfl⟩

/-- Data flits: a second one after a NAK, one that is wrong, one that no packet is open for, one that begins a packet, and the whole of a write. -/
theorem witness_LinkFlits_data :
    (let d : LinkDir := { nakOut := true, rxSeq := 4 }
     ((linked { st := 2, dirs := [(0, d)] }).port 0 0).dir 0 = d ∧ flitCls (dataOf false true false 3 []) < 3 ∧ flitSeq (dataOf false true false 3 []) ≠ d.rxSeq)
    ∧ flitGood { dataOf false true false 0 [] with hdr := 0 } = false
    ∧ (let f := dataOf true true false 0 []
       flitGood f = true ∧ flitSeq f = 0 ∧ flitCont f ≠ (({ st := 2 } : Port).cls (flitCls f)).isOpen)
    ∧ (let f := dataOf false false true 0 []
       flitGood f = true ∧ flitSeq f = 0 ∧ flitPsn f = true ∧ flitEop f = false)
    ∧ (let f := dataOf false false false 0 []
       flitGood f = true ∧ flitSeq f = 0 ∧ flitCont f = (({ st := 2 } : Port).cls (flitCls f)).isOpen ∧ flitEop f = false ∧ flitPsn f = false)
    ∧ (let f := dataOf false true false 0 writePacket
       let h := packetHeader f.payload
       flitGood f = true ∧ flitSeq f = 0 ∧ flitCont f = false ∧ flitEop f = true ∧ flitPsn f = false ∧ bitsOf (wordAt h 0) 7 0 = 3 ∧ badPacket [f.payload] = false
        ∧ (linked { st := 2 }).packetPasses 0 0 true h = true ∧ f.payload.length = 32 ∧ bitsOf (wordAt h 1) 2 0 = 0 ∧ (dwordAt h 2).toNat + hdrLen h ≤ 2 ^ 40 ∧ hdrLen h = 16) := by
  refine ⟨by decide +kernel, by decide +kernel, by decide +kernel, by decide +kernel, by decide +kernel, by decide +kernel⟩

/-- Control flits of each type, and one of none. -/
theorem witness_LinkFlits_control :
    (∀ n ∈ [1, 2, 3, 4, 5, 9], let f := ctlOf n [4, 0]
      flitCls f = 3 ∧ (flitCtype f).toNat = n ∧ flitGood f = true ∧ flitCont f = false ∧ flitEop f = true)
    ∧ (let x : Port := { st := 2, dirs := [(0, { replay := [{ pkt := 0, flit := keptFlit }] })] }
       let f := ctlOf 1 [4, 0]
       ((linked x).port 0 0).st = 2 ∧ (x.dir 0).replay.findIdx? (fun y => flitSeq y.flit == flitArgSeq f) = some 0
        ∧ (if (x.dir 0).nakSeq = flitArgSeq f then (x.dir 0).naks + 1 else 1) < 8)
    ∧ (let x : Port := { st := 2, dirs := [(0, { nakSeq := 4, naks := 7 })] }
       8 ≤ if (x.dir 0).nakSeq = flitArgSeq (ctlOf 2 [4, 0]) then (x.dir 0).naks + 1 else 1)
    ∧ (({ st := 1, sentTrain := true } : Port).sentTrain = true ∧ ∀ q ∈ senders 0 0, q = 0)
    ∧ flitGood { ctlOf 9 [] with hdr := 3 } = false ∧ flitCls { ctlOf 9 [] with hdr := 3 } = 3
    ∧ (∀ n ∈ [1, 2, 3, 4, 5, 9], flitSeq (ctlOf n [4, 0]) = (({ st := 2 } : Port).dir 0).rxSeq)
    ∧ (∀ n ∈ [1, 2, 3, 4, 9], let f := sealFlit 0xF (ctlFlit n []).payload
        flitCls f = 3 ∧ (flitCtype f).toNat = n ∧ flitGood f = true ∧ flitCont f = true)
    ∧ (∀ n ∈ [1, 2, 3, 4, 9], flitSeq (ctlOf n []) ≠ (({ st := 2, dirs := [(0, { rxSeq := 4 })] } : Port).dir 0).rxSeq) := by
  refine ⟨by decide +kernel, by decide +kernel, by decide +kernel, by decide +kernel, by decide +kernel, by decide +kernel, by decide +kernel, by decide +kernel, by decide +kernel⟩

/-- Receive buffers, lock, training, marks, abort records. -/
theorem witness_LinkFlits_states :
    (let s := linked { st := 2, asm := [(0, { fill := 2000, since := 256 })] }
     s.portHi 0 0 ≤ ((s.port 0 0).cls 0).fill ∧ 256 ≤ ((s.port 0 0).cls 0).since ∧ ((linked { st := 2, asm := [(0, { fill := 2000, since := 255 })] }).port 0 0).cls 0 = { fill := 2000, since := 255 } ∧ 5 ≤ ((s.port 0 0).cls 0).fill - ((s.port 0 0).cls 0).flits.length)
    ∧ ((linked {}).port 0 0).st = 0
    ∧ (let s := { linked { st := 3, since := 0 } with now := 60000 }
       (s.port 0 0).st = 3 ∧ (s.port 0 0).since.toNat + 50000 ≤ s.now.toNat)
    ∧ bitsOf (0 : Word) 7 0 ≤ bitsOf (0 : Word) 15 8 ∧ bitsOf (0x14080 : Word) 15 8 < bitsOf (0x14080 : Word) 7 0 ∧ bitsOf (0x14080 : Word) 7 0 ≤ 240
    ∧ ((List.replicate 8 1 : List W32).length = 8 ∧ List.replicate 8 1 ∈ ((linked {}).slice 0).aborts ∧ bitsOf ((linked {}).sliceReg 0 0x708) 55 8 ≠ 0) := by
  refine ⟨by decide +kernel, by decide +kernel, ⟨rfl, ?_⟩, by decide, by decide, by decide, by decide +kernel⟩
  have h1 : (({ linked { st := 3, since := 0 } with now := 60000 } : State).port 0 0).since = 0 := rfl
  simp only [h1]
  decide

/-- Flit times: a control flit, one to be sent again, and the next of a packet. -/
theorem witness_LinkFlits_send :
    (let x : Port := { st := 2, ctlq := [ctlFlit 1 []] }
     (∀ m < 3, (x.cls m).since < 255) ∧ (linked x).ctlSource 0 0 = some (0, ctlFlit 1 []) ∧ x.ctlHist.countP id < 2)
    ∧ (let s := linked { st := 2, dirs := [(0, { resend := [keptFlit] })] }
       s.ctlSource 0 0 = none ∧ s.reassigning 0 0 0 = false ∧ ((s.port 0 0).dir 0).resend = keptFlit :: [] ∧ (s.port 0 0).rxp.getLsbD (flitCls keptFlit) = false)
    ∧ (let s := linked { st := 2, dirs := [(0, { txq := [packet0] })] }
       let d := (s.port 0 0).dir 0
       s.ctlSource 0 0 = none ∧ s.reassigning 0 0 0 = false ∧ d.resend = [] ∧ d.txq = [packet0] ∧ packet0.sent < packet0.flits.length ∧ packet0.cls < 3
        ∧ (s.port 0 0).rxp.getLsbD packet0.cls = false ∧ s.packetPasses 0 0 false packet0.header = true ∧ d.replay.length < 1024) := by
  refine ⟨⟨by decide +kernel, rfl, by decide⟩, ⟨rfl, rfl, rfl, by decide +kernel⟩, by decide +kernel⟩

/-! ### The crossbar -/

/-- Slice 0 with its reply channel 64 in a state, and the registers of its cluster's rings. -/
def lit (x : Port) (c : Channel) (regs : Tab Word) : State :=
  { world [] with slices := [(0, { slice with regs := regs, ports := [(0x50, x)], chans := [(64, c)] })] }

/-- A channel that one sender requests. -/
def asked : Port := { st := 2, dirs := [(1, { txq := [packet0] })] }

theorem asked_dir (m : Nat) (h : m ≠ 1) : asked.dir m = {} := by simp only [Port.dir, asked, tabGet, h, if_false]

theorem asked_open (rs : List Nat) (c : Nat) : asked.opener rs c = none := by
  rw [Port.opener, List.find?_eq_none]
  intro m _
  by_cases h : m = 1
  · subst h; simp [Port.dir, asked, tabGet, TxPacket.isOpen, packet0]
  · simp [asked_dir m h]

theorem asked_due (m c : Nat) : asked.due m c = false := by
  by_cases h : m = 1
  · subst h; simp [Port.due, Port.dir, asked, tabGet, TxPacket.isOpen, packet0]
  · simp [Port.due, asked_dir m h]

theorem asked_request (rs : List Nat) (m : Nat) : asked.request rs m = if m = 1 then some 0 else none := by
  by_cases h : m = 1
  · subst h
    simp only [Port.request, List.find?, Port.canSend, asked_open]
    decide +kernel
  · simp [Port.request, Port.canSend, LinkDir.nextOf, asked_dir m h, h]

theorem asked_choice (rs : List Nat) : asked.choice rs 0 = none := by simp [Port.choice, asked_due, asked_request]

theorem senders_reply (m : Nat) (h : m < 61) : m ∈ senders 0 0x50 := by
  have := (liveCount_bounds 0).1
  have e : (List.range 64).filter (liveSeg 0) = (List.range 64).filter fun k => bitAt (Config.fuseMap 0) k := rfl
  simp only [liveCount] at this
  simp only [senders, e]
  exact List.mem_range.mpr (by omega)

theorem idle_request (rs : List Nat) (m : Nat) : ({} : Port).request rs m = none := by simp [Port.request, Port.canSend, LinkDir.nextOf, Port.dir, tabGet]
theorem idle_due (m c : Nat) : ({} : Port).due m c = false := by simp [Port.due, Port.dir, tabGet]
theorem not_releases (s : State) (i : SliceId) (ch : Nat) (h1 : ∀ rs m, (s.port i (chanPort ch)).request rs m = none)
    (h2 : ∀ m c, (s.port i (chanPort ch)).due m c = false) : s.releases i ch = false := by
  simp [State.releases, h1, h2, Port.choice]

/-- One sender asks for the marble, and wakes the channel; no one asks, and the marble stays. -/
theorem witness_PhotonicEvents_marble :
    portExists 0 (chanPort 64) = true
    ∧ (let s := lit asked {} [(0x700, 0x14), (0x750, 0x100)]
       let x := s.port 0 0x50
       1 ∈ senders 0 0x50 ∧ 1 ≠ s.holder 0 0x50 ∧ (∀ m ∈ senders 0 0x50, x.due m 0 = false ∧ x.due m 1 = false ∧ (m ≠ 1 → x.request (senders 0 0x50) m = none))
        ∧ x.request (senders 0 0x50) 1 = some 0 ∧ bitsOf (s.chstat 0 64) 3 0 < 8 ∧ ∃ m ∈ senders 0 0x50, bitsOf (s.chcfg 0 64) 15 8 ≤ (x.dir m).depth)
    ∧ (∀ c o, (lit asked {} []).port 0 0x50 = asked ∧ (asked.opener (senders 0 0x50) c = some o → o = 1))
    ∧ (let s := lit asked { atEnd := true, sent := 256 } []
       let x := s.port 0 0x50
       s.holder 0 0x50 = 0 ∧ (∃ c, x.request (senders 0 0x50) 1 = some c ∧ ∀ b, x.choice (senders 0 0x50) 0 = some b → b < c)
        ∧ (s.channel 0 64).atEnd = true ∧ bitsOf (s.chcfg 0 64) 39 32 ≤ (s.channel 0 64).sent ∧ x.request (senders 0 0x50) 1 ≠ none)
    ∧ (lit {} {} []).releases 0 64 = false := by
  refine ⟨rfl, ⟨senders_reply 1 (by decide), by decide +kernel, fun m _ => ⟨asked_due m 0, asked_due m 1, fun h => ?_⟩, asked_request _ 1, by decide +kernel, 1,
    senders_reply 1 (by decide), by decide +kernel⟩, fun c o => ⟨rfl, fun h => by rw [asked_open] at h; cases h⟩,
    ⟨by decide +kernel, ⟨0, asked_request _ 1, fun b h => by rw [show ((lit asked { atEnd := true, sent := 256 } []).port 0 0x50) = asked from rfl, asked_choice] at h; cases h⟩, rfl, by decide +kernel,
      fun h => by rw [show ((lit asked { atEnd := true, sent := 256 } []).port 0 0x50) = asked from rfl, asked_request] at h; cases h⟩, ?_⟩
  · exact (asked_request _ m).trans (by simp [h])
  · exact not_releases _ _ _ idle_request idle_due

/-- Parks: allowed and the time over, not allowed; the width above and below MINW, with a reassignment and without. -/
theorem witness_PhotonicEvents_park :
    (let s := lit {} {} [(0x700, 0xF4), (0x750, 0x112)]
     (s.chcfg 0 64).getLsbD 4 = true ∧ (∀ rs m, (s.port 0 0x50).request rs m = none) ∧ (s.channel 0 64).lastReq.toNat + bitsOf (s.chcfg 0 64) 31 16 ≤ s.now.toNat
      ∧ s.chanBusy 0 64 = false ∧ bitsOf (s.chcfg 0 64) 3 0 ≤ bitsOf (s.chstat 0 64) 3 0)
    ∧ (let s := lit {} {} [(0x4E4, 0x10), (0x700, 0x12), (0x750, 0x104)]
       (s.chcfg 0 64).getLsbD 4 = false ∧ s.chanBusy 0 64 = true)
    ∧ (let s := lit {} {} [(0x700, 0x12), (0x750, 0x104)]
       s.chanBusy 0 64 = false ∧ bitsOf (s.chstat 0 64) 3 0 < bitsOf (s.chcfg 0 64) 3 0)
    ∧ (let s := lit {} {} [(0x700, 0x34)]
       bitsOf (s.chstat 0 64) 20 20 = 0 ∧ bitsOf (s.chstat 0 64) 11 4 ≠ 255)
    ∧ (0x104 : Word).getLsbD 40 = false ∧ bitsOf (0x104 : Word) 3 0 = 4 ∧ (0x10000000104 : Word).getLsbD 40 = true ∧ bitsOf (0x10000000104 : Word) 3 0 = 4 := by
  exact ⟨⟨by decide +kernel, idle_request, by decide +kernel, by decide +kernel, by decide +kernel⟩, by decide +kernel, by decide +kernel, by decide +kernel, by decide⟩

/-- A wake under way whose third wavelength locks, and one whose time is over. -/
theorem witness_PhotonicEvents_wake :
    (let s := lit {} { wakingMask := 0xFC } ((List.range 16).map (fun n => (0x484 + n, 0x80000000)) ++ [(0x700, 0x100032)])
     bitsOf (s.chstat 0 64) 20 20 = 1 ∧ (s.channel 0 64).wakingMask.getLsbD 2 = true ∧ ∀ n ∈ s.ringsOf 0 64 2, (s.sliceReg 0 (0x484 + n)).getLsbD 31 = true)
    ∧ (let s := { lit {} { wakingMask := 0xFC } [(0x700, 0x100032)] with now := 2000 }
       bitsOf (s.chstat 0 64) 20 20 = 1 ∧ (s.channel 0 64).wakeAt = 0 ∧ s.now = 2000) :=
  ⟨by decide +kernel, by decide +kernel, rfl, rfl⟩

/-- Reassignments: one that may begin, one whose rings are all locked, one whose time is over; and rings of a reading below the mark and above it. -/
theorem witness_PhotonicEvents_rings :
    ((lit {} {} []).sliceReg 0 0x4E4).getLsbD 4 = false ∧ (8 : Word).getLsbD 3 = true
    ∧ (let s := lit {} {} [(0x4E4, 0x10)]
       (s.sliceReg 0 0x4E4).getLsbD 4 = true ∧ ∀ n, n / 16 = 0 → ((s.sliceReg 0 (0x484 + n)).getLsbD 31 || (n / 16 == 0 && (0xFFFF : BitVec 16).getLsbD (n % 16))) = true)
    ∧ (let s := { lit {} {} ([(0x484 + 8, 0)] ++ [(0x4E4, 0x10), (0x700, 0x18)]) with now := 2000 }
       (s.sliceReg 0 0x4E4).getLsbD 4 = true ∧ (tabGet 0 (s.slice 0).reassign 0 : Word) = 0 ∧ s.now = 2000 ∧ bitsOf (s.chstat 0 64) 3 0 ≤ 8
        ∧ 0 < bitsOf (s.chstat 0 64) 3 0 ∧ ∃ n ∈ s.ringsOf 0 64 0, n / 16 = 0 ∧ (s.sliceReg 0 (0x484 + n)).getLsbD 31 = false)
    ∧ (let s := lit {} {} [(0x484, 0x80000000), (0x485, 0), (0x4EA, 0x6400)]
       s.phBusy 0 0 = false ∧ (9 : BitVec 10).toNat < bitsOf (s.sliceReg 0 0x4EA) 17 8 ∧ (s.sliceReg 0 0x484).getLsbD 31 = true
        ∧ bitsOf (s.sliceReg 0 0x4EA) 17 8 ≤ (900 : BitVec 10).toNat ∧ (s.sliceReg 0 0x485).getLsbD 31 = false)
    ∧ (lit {} {} [(0x4E4, 0x10)]).phBusy 0 0 = true := by
  refine ⟨by decide +kernel, by decide +kernel, ⟨by decide +kernel, fun n h => ?_⟩, by decide +kernel, by decide +kernel, by decide +kernel⟩
  obtain ⟨m, rfl⟩ : ∃ m : Fin 16, n = m.val := ⟨⟨n, by omega⟩, rfl⟩
  clear h
  revert m
  decide +kernel

end Sys2Proof.Machine.Tests
end

