-- ==== Sys2Proof/Tests/Witness10.lean ====
section
/-! SUPPORT. Witnesses for the statements about halts, the debugger, pre-emption and restoration. -/

namespace Sys2Proof.Machine.Tests

-- One theorem after another: a file of closed evaluations needs no more than one thread.
set_option Elab.async false

theorem member_of {s : State} (h : s.prc.regs = prc.regs) : s.member 0 = ({ State.reset with prc := prc } : State).member 0 := by
  funext i
  simp only [State.member, State.partValid, State.pmap, State.prcReg, h]

theorem members_regs {s : State} (h : s.prc.regs = prc.regs) : s.memberSlices 0 = [0] := by
  rw [State.memberSlices, member_of h]
  decide +kernel

theorem partOf_regs {s : State} (h : s.prc.regs = prc.regs) (i : SliceId) : s.partOf i = if i = 0 then some 0 else none := by
  have : s.partOf i = ({ State.reset with prc := prc } : State).partOf i := by
    simp only [State.partOf, State.member, State.partValid, State.pmap, State.prcReg, h]
  rw [this]
  clear this h
  revert i
  decide +kernel

/-- A memory without tables: nothing can be reached. -/
theorem miss_of {s : State} (hm : s.mem = []) (hl : ∀ i, (s.slice i).l2 = []) (p : PartId) (id : W16) (va : Word) (k : Kind) : s.reach p id va k = .miss := by
  have hz : ∀ n a, bytesToNat (memRead [] a n) = 0 := by
    intro n
    induction n with
    | zero => intro; rfl
    | succ n ih => intro a; simp only [memRead, bytesToNat, ih]; rfl
  have h (a : Nat) : s.tableEntry a = 0 := by
    show BitVec.ofNat 64 (memReadLE s.mem a 8) = 0
    rw [memReadLE, hm, hz]
    rfl
  simp only [State.reach, Slice.lineOf, hl, List.find?_nil, State.translate, State.walk, h]
  rfl

theorem meet_miss {s : State} (hm : s.mem = []) (k : Nat) (va : Word) (n : Nat) (hn : 0 < n) (hv : va.toNat < 2 ^ 30)
    (hl : ∀ i, (s.slice i).l2 = [] := by intro i; fin_cases i <;> rfl) : s.meet (partEng 0) k va n = .miss va := by
  obtain ⟨n, rfl⟩ : ∃ m, n = m + 1 := ⟨n - 1, by omega⟩
  have e : s.engPlace (partEng 0) (BitVec.ofNat 64 va.toNat) = .global asid (BitVec.ofNat 64 va.toNat) := engPlace_low s .none va.toNat hv
  have hr (m : Nat) : s.meetRun (partEng 0) k va.toNat m = .miss (BitVec.ofNat 64 va.toNat) := by
    rw [State.meetRun, e]
    simp only [partEng, miss_of hm hl]
  have h2 : ∀ f, s.meetAll (partEng 0) k (lineRuns va.toNat (f + 1) (n + 1)) = .miss (BitVec.ofNat 64 va.toNat) := by
    intro f
    rw [lineRuns, State.meetAll, hr]
    simp
  rw [State.meet, runsOf, h2]
  simp

theorem meet_ne {s : State} (hm : s.mem = []) (k : Nat) (va : Word) (n : Nat) (hn : 0 < n) (hv : va.toNat < 2 ^ 30)
    (hl : ∀ i, (s.slice i).l2 = [] := by intro i; fin_cases i <;> rfl) : s.meet (partEng 0) k va n ≠ .ok := by
  rw [meet_miss hm k va n hn hv hl]
  simp

/-! ### Halts and the debugger -/

/-- Fault domain 0x600000 of partition 0, with its group, its halts and debuggers, and the registers of slice 0. -/
def domained (f : Group → Group) (hs : List Halt) (ds : List Word) (m : Memory) (regs : Tab Word) : State :=
  { world m with
    grids := [(1, { grid with domains := [0x600000] })], halts := hs, prc := { prc with parts := [(0, { debuggers := ds })] },
    slices := [(0, { slice with regs := (0x760, 0x80000) :: regs, cores := [(0, { core with groups := [(0, f group)] })] })] }

/-- A halt of it. -/
def halt0 : Halt := { part := 0, dom := 0x600000, cause := 0x20, at' := 900 }
/-- A command on the group in slot 0 with an action. -/
def onGroup (a : Nat) : Word := BitVec.ofNat 64 (0x6000 + a)
/-- The group stopped by the debugger. -/
def halting (v : Group) : Group := { v with st := .stopped, dbg := true }

theorem domained_part (f : Group → Group) (hs : List Halt) (ds : List Word) (m : Memory) (regs : Tab Word) (i : SliceId) :
    (domained f hs ds m regs).partOf i = if i = 0 then some 0 else none := partOf_regs rfl i

theorem domained_mapped (f : Group → Group) (hs : List Halt) (ds : List Word) (m : Memory) (regs : Tab Word) (h : ∀ e ∈ m, 0x400000 ≤ e.1) : Mapped (domained f hs ds m regs) :=
  mapped_of _ m rfl h (members_regs rfl) rfl

/-- What a command on the domain, and on its group, needs: the domain is there, and no command is in progress; and a command in progress, another action, and a
slice of no partition. -/
theorem witness_HaltsAndDebugger_goes (f : Group → Group) (hs : List Halt) (ds : List Word) (m : Memory) :
    (∀ a ∈ [1, 2, 3, 4, 5, 6, 7, 8, 9, 10], bitsOf (onGroup a) 3 0 = a ∧ fdDom (onGroup a) = 0x600000 ∧ fdGroup (onGroup a) = some g0)
      ∧ (let s := domained f hs ds m []
         (s.sliceReg 0 0x432).getLsbD 0 = false ∧ s.partOf 0 = some 0 ∧ s.domainExists 0 0x600000 = true ∧ s.member 0 g0.slice = true ∧ s.partOf 1 = none
          ∧ (s.sliceReg 1 0x432).getLsbD 0 = false)
      ∧ bitsOf (onGroup 2) 3 0 ≠ 1 ∧ ((domained id [] [] [] [(0x432, 1)]).sliceReg 0 0x432).getLsbD 0 = true := by
  refine ⟨by decide, ⟨?_, domained_part f hs ds m [] 0, rfl, ?_, domained_part f hs ds m [] 1, ?_⟩, by decide, by decide +kernel⟩
  · have : (domained f hs ds m []).sliceReg 0 0x432 = (domained id [] [] [] []).sliceReg 0 0x432 := rfl
    rw [this]
    decide +kernel
  · rw [member_of rfl]
    decide +kernel
  · have : (domained f hs ds m []).sliceReg 1 0x432 = (domained id [] [] [] []).sliceReg 1 0x432 := rfl
    rw [this]
    decide +kernel

/-- HALT: of a domain that runs, and of one that is halted; its group is in it. -/
theorem witness_HaltsAndDebugger_halt :
    g0 ∈ (domained id [] [] [] []).domainGroups 0 0x600000 ∧ ((domained id [] [] [] []).group g0).halted = false
      ∧ (¬∃ h ∈ (domained id [] [] [] []).halts, h.part = 0 ∧ h.dom = 0x600000) ∧ ∃ h ∈ (domained id [halt0] [] [] []).halts, h.part = 0 ∧ h.dom = 0x600000 :=
  ⟨by decide +kernel, rfl, by simp [domained], halt0, by simp [domained], rfl, rfl⟩

/-- RESET: of a domain that runs, of one whose records are not written, and of one whose records are. -/
theorem witness_HaltsAndDebugger_reset :
    (domained id [] [] [] []).domainHalted 0 0x600000 = false
      ∧ (let s := domained id [halt0] [] [] []
         s.domainHalted 0 0x600000 = true ∧ s.recordsDone 0 0x600000 = false)
      ∧ (let s := domained id [{ halt0 with written := true }] [] [] []
         s.domainHalted 0 0x600000 = true ∧ s.recordsDone 0 0x600000 = true) := by
  decide +kernel

/-- DETACH: a group of the domain that the debugger has stopped, and one that it has not. The commands on a group: with no debugger, with no group of that name, with
a group that is not resident, with one that is halted, with one that runs. -/
theorem witness_HaltsAndDebugger_groups :
    (let s := domained halting [] [0x600000] [] []
     g0 ∈ s.domainGroups 0 0x600000 ∧ (s.group g0).dbg = true ∧ (s.group g0).halted = false ∧ (s.part 0).debuggers.contains 0x600000 = true ∧ (s.group g0).resident = true
      ∧ (s.gridOf g0).inDomain 0 0x600000 = true ∧ (s.group g0).st = .stopped ∧ (s.group g0).laneIdle = true)
    ∧ ((domained id [] [] [] []).group g0).dbg = false ∧ ((domained id [] [] [] []).part 0).debuggers.contains 0x600000 = false
    ∧ fdGroup 0xFF0000006005 = none
    ∧ (fdGroup 0x1000000006005 = some g1 ∧ ((domained id [] [0x600000] [] []).group g1).resident = false)
    ∧ (let s := domained (fun v => { v with halted := true, st := .stopped }) [] [0x600000] [] []
       (s.group g0).resident = true ∧ (s.group g0).halted = true)
    ∧ (let s := domained id [] [0x600000] [] []
       (s.group g0).resident = true ∧ (s.group g0).halted = false ∧ (s.group g0).dbg = false ∧ (s.group g0).st ≠ .stopped ∧ (s.group g0).st ≠ .saving)
    ∧ (let s := domained (fun v => { halting v with lq := [.sigrst] }) [] [0x600000] [] []
       (s.group g0).st = .stopped ∧ (s.group g0).dbg = true ∧ (s.group g0).laneIdle = false) := by
  decide +kernel

/-! ### Bytes in memory -/

theorem memRead_get (m : Memory) (n : Nat) : ∀ a, memRead m a n = (List.range n).map fun i => memGet m (a + i) := by
  induction n with
  | zero => intro a; rfl
  | succ n ih =>
    intro a
    rw [memRead, ih, List.range_succ_eq_map, List.map_cons, List.map_map]
    refine congrArg _ (List.map_congr_left fun i _ => ?_)
    simp only [Function.comp]
    congr 1
    omega

theorem memRead_memWrite (m : Memory) (a : Nat) (bs : List Byte) : memRead (memWrite m a bs) a bs.length = bs := by
  rw [memRead_get]
  refine List.ext_getElem (by simp) fun i h1 h2 => ?_
  have h3 : i < bs.length := h2
  simp only [List.getElem_map, List.getElem_range, memGet_memWrite]
  rw [if_pos (by omega), Nat.add_sub_cancel_left, List.getD_eq_getElem _ _ h3]

theorem memWrite_ge (a : Nat) (bs : List Byte) : ∀ (m : Memory) (b : Nat), a ≤ b → (∀ e ∈ m, a ≤ e.1) → ∀ e ∈ memWrite m b bs, a ≤ e.1 := by
  induction bs with
  | nil => intro m b _ h e he; exact h e he
  | cons x bs ih =>
    intro m b hb h e he
    refine ih _ (b + 1) (by omega) (fun e he => ?_) e he
    unfold memSet at he
    split_ifs at he
    · exact h e (List.mem_of_mem_filter he)
    · rcases mem_memPut he with h' | h'
      · exact h e h'
      · rw [h']; exact hb

theorem bytesToNat_two (n : Nat) (h : n < 65536) : bytesToNat (natToBytes n 2) = n := by
  have e : natToBytes n 2 = [BitVec.ofNat 8 n, BitVec.ofNat 8 (n / 256)] := rfl
  rw [e]
  simp only [bytesToNat, BitVec.toNat_ofNat]
  omega

/-! ### Sections -/

/-- The fixed part of a section of 0x600 bytes with 16 vector registers, and the section. -/
def sectBody : List Byte := List.replicate 0x205 0 ++ ([6] ++ (List.replicate 0x72 0 ++ ([16] ++ List.replicate 0x17F 0)))
def sect0 : List Byte := sectBody ++ (natToBytes (crc16 sectBody).toNat 2 ++ List.replicate 0x206 0)

theorem sectBody_length : sectBody.length = 0x3F8 := by
  simp only [sectBody, List.length_append, List.length_replicate, List.length_cons, List.length_nil]
theorem sect0_length : sect0.length = 0x600 := by
  simp only [sect0, List.length_append, sectBody_length, List.length_replicate]
  rfl

theorem sect0_ok : sectCrcOk sect0 = true ∧ (sectMap sect0).nreg = 16 ∧ bitsOf (wordAtOff sect0 0x200) 63 32 = 0x600 := by
  refine ⟨?_, ?_, ?_⟩
  · have h1 : sect0.take sectFixed = sectBody := List.take_left' sectBody_length
    have h2 : sect0.drop 0x3F8 = natToBytes (crc16 sectBody).toNat 2 ++ List.replicate 0x206 0 := List.drop_left' sectBody_length
    have h3 : (natToBytes (crc16 sectBody).toNat 2 ++ List.replicate 0x206 0).take 2 = natToBytes (crc16 sectBody).toNat 2 := rfl
    rw [sectCrcOk, numAt, h1, h2, h3, bytesToNat_two _ (crc16 sectBody).isLt]
    simp
  · decide +kernel
  · decide +kernel

/-- The slice's buffer at 0x400000, and the section there. -/
def loading (nreg : Nat) (m : Memory) : State := domained (fun v => { halting v with nreg := nreg }) [] [0x600000] m [(0x431, 0x400000)]
def sectMem : Memory := memWrite [] 0x400000 sect0

theorem sectMem_ge : ∀ e ∈ sectMem, 0x400000 ≤ e.1 := memWrite_ge _ _ _ _ (by decide) (by simp)
theorem sectMem_read : memRead sectMem 0x400000 0x600 = sect0 := by
  have := memRead_memWrite [] 0x400000 sect0
  rw [sect0_length] at this
  exact this

theorem loading_buf (nreg : Nat) (m : Memory) : (loading nreg m).fdBuf 0 = 0x400000 := by
  have : (loading nreg m).fdBuf 0 = (domained id [] [] [] [(0x431, 0x400000)]).fdBuf 0 := rfl
  rw [this]
  decide +kernel

theorem loading_read {nreg : Nat} {m : Memory} (hm : ∀ e ∈ m, 0x400000 ≤ e.1) (va : Word) (n : Nat) (h1 : 0x400000 ≤ va.toNat) (h2 : va.toNat + n ≤ 2 ^ 30) :
    (loading nreg m).engBytes (partEng 0) 5 va n = memRead m va.toNat n := by
  have e := engBytes_mapped (domained_mapped _ _ _ _ _ hm : Mapped (loading nreg m)) .none 5 va n h2
  have h : memRead (loading nreg m).mem va.toNat n = memRead m va.toNat n := memRead_high _ _ _ h1
  exact e.trans h

theorem memRead_drop (m : Memory) (a : Nat) (bs : List Byte) (x y z : Nat) (h : memRead m a (x + (y + z)) = bs) : memRead m (a + x) y = (bs.drop x).take y := by
  have l : ∀ (m : Memory) (n a : Nat), (memRead m a n).length = n := fun m n a => by rw [memRead_get]; simp
  rw [← h, memRead_add, memRead_add, List.drop_left' (l _ _ _), List.take_left' (l _ _ _)]

/-- LOAD of a section, into a group of its 16 vector registers or into one of 8. -/
theorem loads {m : Memory} (hm : ∀ e ∈ m, 0x400000 ≤ e.1) (hr : memRead m 0x400000 0x600 = sect0) (nreg : Nat) :
    let s := loading nreg m
    let v := s.group g0
    let n := bitsOf (wordAtOff (s.engBytes (partEng v.part) 5 (s.fdBuf 0 + 0x200) 8) 0) 63 32
    let bs := s.engBytes (partEng v.part) 5 (s.fdBuf 0) n
    s.meet (partEng v.part) 5 (s.fdBuf 0) 0x600 = .ok ∧ bs.length = n ∧ n = 0x600 ∧ s.meet (partEng v.part) 5 (s.fdBuf 0) bs.length = .ok ∧ sectCrcOk bs = true
      ∧ ((sectMap bs).nreg = v.nreg ↔ nreg = 16) ∧ v.halted = false ∧ v.dbg = true ∧ v.st = .stopped := by
  intro s v n bs
  have hn : n = 0x600 := by
    have : n = bitsOf (wordAtOff ((loading nreg m).engBytes (partEng 0) 5 ((loading nreg m).fdBuf 0 + 0x200) 8) 0) 63 32 := rfl
    have e := memRead_drop m 0x400000 sect0 0x200 8 0x3F8 hr
    rw [this, loading_buf, loading_read hm _ _ (by decide) (by decide)]
    have e2 : memRead m (0x400000 + 0x200 : Word).toNat 8 = (sect0.drop 0x200).take 8 := e
    rw [e2]
    have e3 : wordAtOff ((sect0.drop 0x200).take 8) 0 = wordAtOff sect0 0x200 := by rw [wordAtOff, numAt, List.drop_zero, List.take_take]; rfl
    rw [e3]
    exact sect0_ok.2.2
  have hb : bs = sect0 := by
    have : bs = (loading nreg m).engBytes (partEng 0) 5 ((loading nreg m).fdBuf 0) n := rfl
    rw [this, hn, loading_buf, loading_read hm _ _ (by decide) (by decide)]
    exact hr
  have hm' : (loading nreg m).meet (partEng 0) 5 ((loading nreg m).fdBuf 0) 0x600 = .ok := by
    rw [loading_buf]
    exact meet_mapped (domained_mapped _ _ _ _ _ hm) rfl .none 5 _ _ (by decide)
  refine ⟨hm', ?_, hn, ?_, ?_, ?_, rfl, rfl, rfl⟩
  · rw [hb, hn, sect0_length]
  · rw [hb, sect0_length]; exact hm'
  · rw [hb]; exact sect0_ok.1
  · rw [hb, sect0_ok.2.1]; exact eq_comm

theorem witness_HaltsAndDebugger_load (nreg : Nat) :
    let s := loading nreg sectMem
    let v := s.group g0
    let n := bitsOf (wordAtOff (s.engBytes (partEng v.part) 5 (s.fdBuf 0 + 0x200) 8) 0) 63 32
    let bs := s.engBytes (partEng v.part) 5 (s.fdBuf 0) n
    s.meet (partEng v.part) 5 (s.fdBuf 0) 0x600 = .ok ∧ bs.length = n ∧ n = 0x600 ∧ s.meet (partEng v.part) 5 (s.fdBuf 0) bs.length = .ok ∧ sectCrcOk bs = true
      ∧ ((sectMap bs).nreg = v.nreg ↔ nreg = 16) ∧ v.halted = false ∧ v.dbg = true ∧ v.st = .stopped :=
  loads sectMem_ge sectMem_read nreg

theorem runs_ok {s : State} (h : Mapped s) (hp : s.poison = []) (base : Word) (hb : base.toNat ≤ 0x10000000) :
    ∀ runs : List Run, (∀ r ∈ runs, r.1 + r.2.length ≤ 0x100000) → s.meetRuns (partEng 0) base runs = .ok := by
  intro runs
  induction runs with
  | nil => intro; rfl
  | cons r runs ih =>
    intro hr
    have h1 := hr r (by simp)
    have e : (base + BitVec.ofNat 64 r.1).toNat = base.toNat + r.1 := by
      rw [BitVec.toNat_add, BitVec.toNat_ofNat]
      omega
    have m : s.meet (partEng 0) 6 (base + BitVec.ofNat 64 r.1) r.2.length = .ok := meet_mapped h hp .none 6 _ _ (by rw [e]; omega)
    have := ih fun r h => hr r (by simp [h])
    simp only [State.meetRuns] at this ⊢
    rw [List.map_cons, State.meetList]
    simp only [m]
    exact this

theorem runs_miss {s : State} (h : s.mem = []) (base : Word) (hb : base.toNat ≤ 0x10000000) (v : Group) (x : SectInfo)
    (hl : ∀ i, (s.slice i).l2 = [] := by intro i; fin_cases i <;> rfl) :
    s.meetRuns (partEng 0) base (sectRuns v x).2 ≠ .ok := by
  have e : ∃ bs rest, (sectRuns v x).2 = (0, bs) :: rest ∧ 0 < bs.length := by
    refine ⟨_, _, rfl, ?_⟩
    rw [List.length_append]
    exact Nat.lt_of_lt_of_le (by decide : 0 < 8) (Nat.le_add_left _ _)
  obtain ⟨bs, rest, e, hn⟩ := e
  have e2 : base + BitVec.ofNat 64 0 = base := by simp
  have m := meet_miss h 6 base bs.length hn (by omega) hl
  rw [e, State.meetRuns, List.map_cons, State.meetList]
  simp only [e2]
  rw [m]
  simp

/-- DUMP of a group that runs, and where its section is reached and where nothing is; and LOAD where nothing is. -/
theorem witness_HaltsAndDebugger_dump :
    ((domained id [] [0x600000] [] []).group g0).st ≠ .stopped
    ∧ (let s := { domained halting [] [0x600000] [] [(0x431, 0x400000)] with mem := [] }
       (s.group g0).st = .stopped ∧ s.meet (partEng (s.group g0).part) 5 (s.fdBuf 0) 0x600 ≠ .ok
        ∧ s.meetRuns (partEng (s.group g0).part) (s.fdBuf 0) (sectRuns (s.group g0) (s.sectInfo g0 false 5 fun _ => 0)).2 ≠ .ok)
    ∧ (let s := domained halting [] [0x600000] [] [(0x431, 0x400000)]
       s.meetRuns (partEng (s.group g0).part) (s.fdBuf 0) (sectRuns (s.group g0) (s.sectInfo g0 false 5 fun _ => 0)).2 = .ok) := by
  have hb : (domained halting [] [0x600000] [] [(0x431, 0x400000)]).fdBuf 0 = 0x400000 := by decide +kernel
  refine ⟨by decide +kernel, ⟨rfl, ?_, ?_⟩, ?_⟩
  · exact (hb ▸ meet_ne (s := { domained halting [] [0x600000] [] [(0x431, 0x400000)] with mem := [] }) rfl 5 0x400000 0x600 (by decide) (by decide))
  · exact (hb ▸ runs_miss (s := { domained halting [] [0x600000] [] [(0x431, 0x400000)] with mem := [] }) rfl 0x400000 (by decide) _ _)
  · intro s
    have : s.fdBuf 0 = 0x400000 := hb
    rw [this]
    refine runs_ok (domained_mapped _ _ _ _ _ (by simp)) rfl 0x400000 (by decide) _ ?_
    decide +kernel

/-- Steps that are over: of a word, of a lane instruction, of nothing left; and a group without one. -/
theorem witness_HaltsAndDebugger_step :
    (∀ f ∈ [fun v : Group => { v with stepping := true, stepDone := true }, fun v => { v with lstepping := true, stepDone := true }, fun v => { v with lstepping := true }],
      let v := (domained f [] [0x600000] [] []).group g0
      v.resident = true ∧ v.st ≠ .stopped ∧ v.st ≠ .saving ∧ ((v.stepping = true ∧ v.stepDone = true) ∨ (v.lstepping = true ∧ ((v.stepDone = true ∧ v.stepHeldDone = true) ∨ v.laneIdle = true))))
    ∧ ((domained id [] [] [] []).group g0).stepping = false ∧ ((domained id [] [] [] []).group g0).lstepping = false := by
  decide +kernel

/-- The domain's block, with a stop area of four records at 0x700000 or with none. -/
def blockMem (area : Bool) : Memory := if area then wordsAt 0x600000 (List.replicate 12 0 ++ [0x700000, 0, 4]) else []

theorem blockMem_ge (area : Bool) : ∀ e ∈ blockMem area, 0x400000 ≤ e.1 := by
  intro e he
  cases area
  · cases he
  · exact le_trans (by decide) (wordsAt_ge _ _ e he)

theorem stopArea_none {s : State} {h : Halt} {w : List W32} (hm : s.meet (partEng h.part) 1 h.dom 256 = .ok) (hw : s.engWords (partEng h.part) 1 h.dom 64 = w)
    (ha : dwordAt w 12 = 0) : s.stopArea h = .none := by
  unfold State.stopArea
  simp only [hm, hw, ha, if_true]

theorem stopArea_at {s : State} {h : Halt} {w : List W32} {a : Word} {n : Nat} (hm : s.meet (partEng h.part) 1 h.dom 256 = .ok)
    (hw : s.engWords (partEng h.part) 1 h.dom 64 = w) (ha : dwordAt w 12 = a) (hz : a ≠ 0) (hn : (wordAt w 14).toNat = n)
    (hb : ∀ c, s.meetBoth (partEng h.part) a (64 * (min n c + 1)) = .ok) : s.stopArea h = .at' a n := by
  unfold State.stopArea
  simp only [hm, hw, ha, hz, if_false, hn, hb]

theorem block_area (area : Bool) (hs : List Halt) :
    (domained (fun v => { v with st := .stopped, halted := true }) hs [] (blockMem area) []).stopArea halt0 = if area then .at' 0x700000 4 else .none := by
  have mp := domained_mapped (fun v => { v with st := .stopped, halted := true }) hs [] (blockMem area) [] (blockMem_ge area)
  have w : (domained (fun v => { v with st := .stopped, halted := true }) hs [] (blockMem area) []).engWords (partEng 0) 1 0x600000 64
      = bytesToWords 64 (memRead (blockMem area) 0x600000 256) := by
    have e := engWords_mapped mp .none 1 0x600000 64 (by decide)
    refine Eq.trans e (congrArg _ ?_)
    exact memRead_high _ _ _ (by decide)
  have m : ∀ va n, va.toNat + n ≤ 2 ^ 30 → (domained (fun v => { v with st := .stopped, halted := true }) hs [] (blockMem area) []).meet (partEng 0) 1 va n = .ok :=
    fun va n h => meet_mapped mp rfl .none 1 va n h
  have b : ∀ va n, va.toNat + n ≤ 2 ^ 30 → (domained (fun v => { v with st := .stopped, halted := true }) hs [] (blockMem area) []).meetBoth (partEng 0) va n = .ok :=
    fun va n h => meetBoth_mapped mp rfl .none va n h
  have hw : dwordAt (bytesToWords 64 (memRead (blockMem area) 0x600000 256)) 12 = (if area then 0x700000 else 0)
      ∧ (wordAt (bytesToWords 64 (memRead (blockMem area) 0x600000 256)) 14).toNat = if area then 4 else 0 := by
    clear mp w m b
    cases area <;> decide +kernel
  cases area
  · exact stopArea_none (m 0x600000 256 (by decide)) w hw.1
  · refine stopArea_at (m 0x600000 256 (by decide)) w hw.1 (by decide) hw.2 fun c => b _ _ ?_
    have h7 : (0x700000 : Word).toNat = 0x700000 := rfl
    rw [h7]
    omega

/-- The records of a halt: written, held back by a store that has begun, without a place to go, and with one. -/
theorem witness_HaltsAndDebugger_records :
    (let h := { halt0 with written := true }
     let s := domained id [h] [] [] []
     s.halts.find? (fun y => y.part == 0 && y.dom == 0x600000) = some h ∧ h.written = true ∧ s.dueRecords h = [])
    ∧ (let s := { domained id [halt0] [] [] [] with asyncs := [storeOp 1 true] }
       s.halts.find? (fun y => y.part == 0 && y.dom == 0x600000) = some halt0 ∧ halt0.written = false ∧ s.storeBegun halt0 = true)
    ∧ ∀ area, let s := domained (fun v => { v with st := .stopped, halted := true }) [halt0] [] (blockMem area) []
      s.halts.find? (fun y => y.part == 0 && y.dom == 0x600000) = some halt0 ∧ s.storeBegun halt0 = false ∧ s.stopArea halt0 = if area then .at' 0x700000 4 else .none :=
  ⟨⟨rfl, rfl, rfl⟩, ⟨rfl, rfl, rfl⟩, fun area => ⟨rfl, by cases area <;> decide +kernel, block_area area [halt0]⟩⟩

/-- Packets that have expired: a LAUNCH of a domain that runs, that is halted, and whose records are written; and a STORAGE packet whose chain goes on, or is done. -/
theorem witness_HaltsAndDebugger_expiry :
    (let x : Started := { slice := 0, q := 0, pidx := 0, words := [], grid := some 1, expired := true }
     ∀ hs ∈ [[], [halt0], [{ halt0 with written := true }]],
      let s := { domained id hs [] [] [] with started := [x] }
      let r : Grid := tabGet {} s.grids 1
      s.startedAt 0 0 0 = some x ∧ s.domainHalted r.part (r.domains.headD 0) = decide (hs ≠ []) ∧ s.recordsDone r.part (r.domains.headD 0) = decide (hs ≠ [halt0]))
    ∧ (let x : Started := { slice := 0, q := 0, pidx := 0, words := [], chain := some 8, expired := true }
       ∀ d, let s := { domained id [] [] [] [] with started := [x], asyncs := [{ chainOp with done := d }] }
        s.startedAt 0 0 0 = some x ∧ s.asyncs.find? (fun y => some y.id == x.chain) = some { chainOp with done := d }) := by
  refine ⟨by decide +kernel, fun d => ⟨rfl, rfl⟩⟩

/-- An agent that has stopped and been restarted n times in the last second; and the operating points, all 0 and not. -/
theorem witness_HaltsAndDebugger_agent (n : Nat) :
    let a : Puppet := { stopped := true, restarts := List.replicate n 1000 }
    let s := { world [] with slices := [(0, { slice with cores := [(0, { core with puppet := a })] })] }
    s.partOf 0 = some 0 ∧ (s.core c0).puppet = a ∧ a.stopped = true ∧ a.leftStopped = false ∧ s.now = 1000
      ∧ ∀ t : Nat, t ≤ 1000 → (a.restarts.countP fun y => decide (t < y.toNat + 1000000000)) = n := by
  intro a s
  refine ⟨partOf_regs rfl 0, rfl, rfl, rfl, rfl, fun t ht => ?_⟩
  have h : (1000 : Word).toNat = 1000 := rfl
  have e : a.restarts = List.replicate n 1000 := rfl
  rw [e, List.countP_replicate, h, if_pos]
  exact decide_eq_true (by omega)

theorem witness_HaltsAndDebugger_cap :
    (∀ k, bitsOf (({ world [] with slices := (List.range 8).map fun i => (i, { slice with regs := [(0x400, 0)] }) } : State).sliceReg k 0x400) 5 3 = 0) ∧ 0 < bitsOf ((domained id [] [] [] [(0x400, 0x18)]).sliceReg 0 0x400) 5 3 := by
  decide +kernel

end Sys2Proof.Machine.Tests
end

