-- ==== Sys2Proof/Tests/Witness11.lean ====
section
/-! SUPPORT. Witnesses for the statement about pre-emption and restoration. -/

namespace Sys2Proof.Machine.Tests

-- One theorem after another: a file of closed evaluations needs no more than one thread.
set_option Elab.async false

/-- The engine of core 0, its group, a halt, and what is left of the memory and the tables. -/
def preempting (e : Preempt) (f : Group → Group) (hs : List Halt) : State :=
  { world [] with
    grids := [(1, { grid with domains := [0x600000] })], halts := hs,
    slices := [(0, { slice with cores := [(0, { core with groups := [(0, f group)], wgs := [(1, { workgroup with spadLen := 0, lpLen := 0 })], preempt := e, regs := [(0x1A3, 100)] })] })] }

/-- A request for the group's workgroup, to an area at 0x500000. -/
def request (st : BitVec 2) : Preempt := { state := st, wg := 1, forced := true, area := 0x500000 }
/-- A group at a blocking point. -/
def atPoint (v : Group) : Group := { v with st := .blocked }

/-- Commands: a mode that is not the constructor's, a slot that is free, a domain that is halted, a group that runs. -/
theorem witness_PreemptionAndRestore_request (forced : Bool) :
    (let cmd : Word := if forced then 0x20 else 0
     bitsOf cmd 6 5 = (if forced then 1 else 0) ∧ bitsOf cmd 4 0 = 0 ∧ bitsOf (cmd + 1) 6 5 = (if forced then 1 else 0) ∧ bitsOf (cmd + 1) 4 0 = 1)
    ∧ bitsOf (0x40 : Word) 6 5 ≠ (if forced then 1 else 0)
    ∧ ((preempting {} id []).core c0).preempt.state = 0
    ∧ ((preempting {} id []).group g1).st = .free
    ∧ (∀ hs ∈ [[], [halt0]], let s := preempting {} id hs
      (s.group g0).st ≠ .free ∧ (s.wgOf g0).isSome ∧ s.gridHalted (s.group g0).grid = decide (hs ≠ []))
    ∧ ((preempting (request 1) id []).core c0).preempt.state = 1 ∧ ((preempting (request 2) id []).core c0).preempt.state = 2 := by
  cases forced <;> decide +kernel

/-- Waits: the grace over and not, every group at a blocking point, and one that is not. -/
theorem witness_PreemptionAndRestore_wait :
    (let s := preempting (request 1) id []
     let e := (s.core c0).preempt
     let gs := s.saveGroups (s.saveSet c0 e)
     e.state = 1 ∧ e.forced = true ∧ gs ≠ [] ∧ e.since.toNat + bitsOf (s.coreReg c0 0x1A3) 31 0 ≤ s.now.toNat ∧ ∃ g ∈ gs, s.saveReady g = false)
    ∧ (let s := preempting (request 1) atPoint []
       let e := (s.core c0).preempt
       let gs := s.saveGroups (s.saveSet c0 e)
       gs ≠ [] ∧ (∀ g ∈ gs, s.saveReady g = true) ∧ s.saveStarts e = false)
    ∧ (let s := { preempting { request 1 with since := 2000 } id [] with now := 1000 }
       s.now.toNat < ((s.core c0).preempt).since.toNat + bitsOf (s.coreReg c0 0x1A3) 31 0) := by
  decide +kernel

/-! ### Saves -/

/-- An access of some poisoned lines. -/
def poisonedIn (ls : List Nat) (pa n : Nat) (write : Bool) : Bool :=
  ls.any fun l => decide (l * 64 < pa + n) && decide (pa < l * 64 + 64) && !(write && decide (pa ≤ l * 64) && decide (l * 64 + 64 ≤ pa + n))

/-- What accesses meet when some lines are poisoned. -/
def meetPlain (poison : List Nat) (w : Bool) : List (Nat × Nat) → EngMeet
  | [] => .ok
  | (va, n) :: rest => if poisonedIn poison va n w then .fault .poisoned (BitVec.ofNat 64 va) else meetPlain poison w rest

theorem meetAll_plain {s : State} (h : Mapped s) (k : Nat) : ∀ rs : List (Nat × Nat), (∀ r ∈ rs, r.1 < 2 ^ 30) →
    s.meetAll (partEng 0) k rs = meetPlain s.poison (k = 2 || k = 6) rs := by
  intro rs
  induction rs with
  | nil => intro; rfl
  | cons r rs ih =>
    intro hr
    have e : s.engPlace (partEng 0) (BitVec.ofNat 64 r.1) = .global asid (BitVec.ofNat 64 r.1) := engPlace_low s .none r.1 (hr r (by simp))
    have m : s.meetRun (partEng 0) k r.1 r.2 = if poisonedIn s.poison r.1 r.2 (k = 2 || k = 6) then .fault .poisoned (BitVec.ofNat 64 r.1) else .ok := by
      rw [State.meetRun, e]
      simp only [partEng, reach_nat h r.1 (hr r (by simp))]
      rfl
    obtain ⟨va, n⟩ := r
    rw [State.meetAll, meetPlain, m]
    by_cases hx : poisonedIn s.poison va n (k = 2 || k = 6) = true
    · simp only [hx, if_true]
    · simp only [hx]
      exact ih fun r h => hr r (by simp [h])

theorem meet_poison {s : State} (h : Mapped s) (k : Nat) (va : Word) (n : Nat) (hr : ∀ r ∈ runsOf va n, r.1 < 2 ^ 30) :
    s.meet (partEng 0) k va n = meetPlain s.poison (k = 2 || k = 6) (runsOf va n) := meetAll_plain h k _ hr

/-- The runs of an area from its base, cut at lines, as a plain check. -/
def runsMeet (poison : List Nat) (base : Word) : List Run → EngMeet
  | [] => .ok
  | r :: rs => match meetPlain poison true (runsOf (base + BitVec.ofNat 64 r.1) r.2.length) with | .ok => runsMeet poison base rs | x => x

theorem meetRuns_plain {s : State} (h : Mapped s) (base : Word) : ∀ rs : List Run, (∀ r ∈ rs, ∀ x ∈ runsOf (base + BitVec.ofNat 64 r.1) r.2.length, x.1 < 2 ^ 30) →
    s.meetRuns (partEng 0) base rs = runsMeet s.poison base rs := by
  intro rs
  induction rs with
  | nil => intro; rfl
  | cons r rs ih =>
    intro hr
    have m := meet_poison h 6 (base + BitVec.ofNat 64 r.1) r.2.length (hr r (by simp))
    have ih := ih fun r h => hr r (by simp [h])
    simp only [State.meetRuns] at ih ⊢
    rw [List.map_cons, State.meetList, runsMeet]
    have e : (decide (6 = 2) || decide (6 = 6)) = true := rfl
    rw [e] at m
    rw [m]
    cases meetPlain s.poison true (runsOf (base + BitVec.ofNat 64 r.1) r.2.length) <;> first | exact ih | rfl

theorem preempting_mapped (e : Preempt) (f : Group → Group) (hs : List Halt) : Mapped (preempting e f hs) := mapped_of _ [] rfl (by simp) (members_regs rfl) (base_of rfl)

/-- A line of the area's matrix part that is written in part. -/
def badLine (b : Bool) : List Nat := if b then [0x500300 / 64] else []
/-- A save under way, with the line poisoned or not. -/
def saving (b : Bool) : State := { preempting (request 2) atPoint [] with poison := badLine b }

/-- A save under way whose area is reached, or of which a line is poisoned. -/
theorem witness_PreemptionAndRestore_save (b : Bool) :
    let s := saving b
    let e := (s.core c0).preempt
    let xs := s.saveSet c0 e
    let gs := s.saveGroups xs
    let held := gs.foldl State.holdGroup s
    let no := (xs.head?.map (·.w.grid)).getD 0
    let r : Grid := tabGet {} s.grids no
    let runs := held.areaRuns e xs r.grcb
    e.state = 2 ∧ held.saveStarts e = false ∧ held.saveQuiet xs = true ∧ held.gridHalted no = false
      ∧ held.meetRuns (partEng r.part) e.area runs = if b then .fault .poisoned 0x500300 else .ok := by
  intro s e xs gs held no r runs
  have hh : Mapped held := by
    refine mapped_of held [] ?_ (by simp) (members_regs ?_) (base_of ?_) <;> rfl
  refine ⟨rfl, rfl, ?_, rfl, ?_⟩
  · clear hh; cases b <;> decide +kernel
  · have hr : ∀ r ∈ runs, ∀ x ∈ runsOf (e.area + BitVec.ofNat 64 r.1) r.2.length, x.1 < 2 ^ 30 := by clear hh; cases b <;> decide +kernel
    have := meetRuns_plain hh e.area runs hr
    have e2 : runsMeet held.poison e.area runs = if b then .fault .poisoned 0x500300 else .ok := by clear hh hr this; cases b <;> decide +kernel
    exact this.trans e2

/-- A save under way whose area misses, and one of a group with an instruction whose popped entry is not filled. -/
theorem witness_PreemptionAndRestore_held :
    (let s := { preempting (request 2) atPoint [] with mem := [] }
     let e := (s.core c0).preempt
     let xs := s.saveSet c0 e
     let held := (s.saveGroups xs).foldl State.holdGroup s
     let no := (xs.head?.map (·.w.grid)).getD 0
     let r : Grid := tabGet {} s.grids no
     e.state = 2 ∧ held.saveStarts e = false ∧ held.saveQuiet xs = true ∧ held.gridHalted no = false
      ∧ held.meetRuns (partEng r.part) e.area (held.areaRuns e xs r.grcb) = .miss 0x500000)
    ∧ (let s := preempting (request 2) (fun v => { v with held := [{ lanes := 1 }] }) []
       let e := (s.core c0).preempt
       let xs := s.saveSet c0 e
       ((s.saveGroups xs).foldl State.holdGroup s).saveQuiet xs = false) := by
  refine ⟨?_, by decide +kernel⟩
  intro s e xs held no r
  refine ⟨rfl, rfl, by decide +kernel, rfl, ?_⟩
  obtain ⟨bs, hb, hn⟩ : ∃ bs, (held.areaRuns e xs r.grcb).head? = some (0, bs) ∧ 0 < bs.length := by
    refine ⟨_, rfl, ?_⟩
    simp only [State.areaHeader, wordsToBytes, List.flatMap_append, List.length_append]
    exact Nat.lt_of_lt_of_le (by decide : 0 < 4) (Nat.le_add_left _ _)
  obtain ⟨rest, hr⟩ : ∃ rest, held.areaRuns e xs r.grcb = (0, bs) :: rest := by
    cases h : held.areaRuns e xs r.grcb with
    | nil => rw [h] at hb; cases hb
    | cons x rest => rw [h] at hb; simp only [List.head?_cons, Option.some.injEq] at hb; exact ⟨rest, by rw [hb]⟩
  have e1 : held.mem = [] := rfl
  have ea : e.area + BitVec.ofNat 64 0 = 0x500000 := rfl
  have m : held.meet (partEng 0) 6 0x500000 bs.length = .miss 0x500000 := meet_miss e1 6 0x500000 bs.length hn (by decide)
  rw [hr, State.meetRuns, List.map_cons, State.meetList, ea]
  have ep : (partEng r.part) = partEng 0 := rfl
  rw [ep, m]

/-! ### Restoration -/

theorem four_bytes (w : W32) : BitVec.ofNat 32 (bytesToNat (natToBytes w.toNat 4)) = w := by
  apply BitVec.eq_of_toNat_eq
  have h := w.isLt
  have e : natToBytes w.toNat 4 = [BitVec.ofNat 8 w.toNat, BitVec.ofNat 8 (w.toNat / 256), BitVec.ofNat 8 (w.toNat / 256 / 256), BitVec.ofNat 8 (w.toNat / 256 / 256 / 256)] := rfl
  rw [e]
  simp only [bytesToNat, BitVec.toNat_ofNat]
  omega

theorem words_bytes (ws : List W32) (rest : List Byte) : bytesToWords ws.length (wordsToBytes ws ++ rest) = ws := by
  induction ws with
  | nil => rfl
  | cons w ws ih =>
    have l : (natToBytes w.toNat 4).length = 4 := rfl
    simp only [wordsToBytes, List.flatMap_cons, List.length_cons, bytesToWords, List.append_assoc] at ih ⊢
    rw [List.take_left' l, List.drop_left' l, four_bytes, ih]

theorem words_length (ws : List W32) : (wordsToBytes ws).length = 4 * ws.length := by
  induction ws with
  | nil => rfl
  | cons w ws ih =>
    have l : (natToBytes w.toNat 4).length = 4 := rfl
    simp only [wordsToBytes, List.flatMap_cons, List.length_cons, List.length_append, l] at ih ⊢
    omega

theorem range_words (xs ys : List W32) (n : Nat) (h : xs.length = n) : (List.range n).map (wordAt (xs ++ ys)) = xs := by
  refine List.ext_getElem (by simp [h]) fun i h1 h2 => ?_
  simp only [List.getElem_map, List.getElem_range, wordAt]
  rw [List.getD_append _ _ _ _ h2, List.getD_eq_getElem _ _ h2]

theorem sealed_crc (xs : List W32) (n : Nat) (h : xs.length = n) :
    bitsOf (wordAt (xs ++ [(crcWords xs).setWidth 32]) n) 15 0 = (crcWords ((List.range n).map (wordAt (xs ++ [(crcWords xs).setWidth 32])))).toNat := by
  have e : wordAt (xs ++ [(crcWords xs).setWidth 32]) n = (crcWords xs).setWidth 32 := by
    rw [wordAt, List.getD_append_right _ _ _ _ (by omega), h, Nat.sub_self]
    rfl
  rw [range_words _ _ _ h, e]
  have := (crcWords xs).isLt
  simp only [bitsOf, BitVec.toNat_setWidth, Nat.shiftRight_zero]
  omega

/-- An area of one workgroup with one group, and with no queue or one: header, the workgroup's header, and the whole. -/
def areaLen (q : Nat) : Nat := 1856 + 64 * q
def areaHdr0 (q : Nat) : List W32 := [0x801, 0, 0, 0, 0, 0, 0, 0, BitVec.ofNat 32 (areaLen q)] ++ List.replicate 54 0
def areaHdr (q : Nat) : List W32 := areaHdr0 q ++ [(crcWords (areaHdr0 q)).setWidth 32]
def wgHdr0 (q : Nat) : List W32 := [1, 0, 0, 0, 0, BitVec.ofNat 32 q, 0, 0, 0, 0, 0, 0, 0, 0, 0]
def wgHdr (q : Nat) : List W32 := wgHdr0 q ++ [(crcWords (wgHdr0 q)).setWidth 32]
def areaBytes (q : Nat) : List Byte := wordsToBytes (areaHdr q) ++ (wordsToBytes (wgHdr q) ++ (List.replicate (64 * q) 0 ++ sect0))
/-- What there is to be read of it. -/
def areaWg (q : Nat) : AreaWg :=
  { hdr := wgHdr q, queues := (List.replicate q (0, { carved := true, wide := false, depth := 0, entries := [] })), matrix := none, spad := 320 + 64 * q, sects := [(320 + 64 * q, 0x600)] }

theorem areaHdr_length (q : Nat) : (areaHdr q).length = 64 := by simp [areaHdr, areaHdr0]
theorem wgHdr_length (q : Nat) : (wgHdr q).length = 16 := by simp [wgHdr, wgHdr0]
theorem areaBytes_length (q : Nat) : (areaBytes q).length = areaLen q := by
  simp only [areaBytes, List.length_append, words_length, areaHdr_length, wgHdr_length, List.length_replicate, sect0_length, areaLen]
  omega

theorem area_hdr (q : Nat) : bytesToWords 64 (areaBytes q) = areaHdr q := by
  have := words_bytes (areaHdr q) (wordsToBytes (wgHdr q) ++ (List.replicate (64 * q) 0 ++ sect0))
  rw [areaHdr_length] at this
  exact this

theorem area_drop (q : Nat) : (areaBytes q).drop 256 = wordsToBytes (wgHdr q) ++ (List.replicate (64 * q) 0 ++ sect0) :=
  List.drop_left' (by rw [words_length, areaHdr_length])

theorem area_wg (q : Nat) : bytesToWords 16 (((areaBytes q).drop 256).take 64) = wgHdr q := by
  have h : (wordsToBytes (wgHdr q)).length = 64 := by rw [words_length, wgHdr_length]
  rw [area_drop, List.take_left' h]
  have := words_bytes (wgHdr q) []
  rw [wgHdr_length, List.append_nil] at this
  exact this

theorem area_queue (q : Nat) : (areaBytes q).drop 320 = List.replicate (64 * q) 0 ++ sect0 := by
  have h : (wordsToBytes (wgHdr q)).length = 64 := by rw [words_length, wgHdr_length]
  have : (areaBytes q).drop 320 = ((areaBytes q).drop 256).drop 64 := by rw [List.drop_drop]
  rw [this, area_drop, List.drop_left' h]

theorem area_sect (q : Nat) : (areaBytes q).drop (320 + 64 * q) = sect0 := by
  have : (areaBytes q).drop (320 + 64 * q) = ((areaBytes q).drop 320).drop (64 * q) := by rw [List.drop_drop]
  rw [this, area_queue, List.drop_left' (by simp)]

theorem area_num (q off n : Nat) : numAt (areaBytes q) (320 + 64 * q + off) n = numAt sect0 off n := by
  have : (areaBytes q).drop (320 + 64 * q + off) = ((areaBytes q).drop (320 + 64 * q)).drop off := by rw [List.drop_drop]
  rw [numAt, numAt, this, area_sect]

theorem sect0_numbers : numAt sect0 0x204 4 = 0x600 ∧ numAt sect0 0x278 1 = 16 := by decide +kernel

theorem area_read (q : Nat) (hq : q ≤ 1) : readAreaWgs (areaBytes q) false 0 1 256 = [areaWg q] := by
  have hw : bytesToWords 16 (((areaBytes q).drop (up64 256)).take 64) = wgHdr q := area_wg q
  have h5 : min 16 (wordAt (wgHdr q) 5).toNat = q := by
    have : wordAt (wgHdr q) 5 = BitVec.ofNat 32 q := rfl
    rw [this, BitVec.toNat_ofNat]
    omega
  have h0 : bitsOf (wordAt (wgHdr q) 0) 4 0 = 1 := rfl
  have h2 : (wordAt (wgHdr q) 2).toNat = 0 := rfl
  have hs : numAt (areaBytes q) (320 + 64 * q + 0x204) 4 = 0x600 := (area_num q 0x204 4).trans sect0_numbers.1
  have hsp : ({ hdr := wgHdr q, queues := [], matrix := none, spad := 0, sects := [] } : AreaWg).spadLen = 0 := rfl
  have hlp : ({ hdr := wgHdr q, queues := [], matrix := none, spad := 0, sects := [] } : AreaWg).lpLen = 0 := rfl
  have hsw : ({ hdr := wgHdr q, queues := [], matrix := none, spad := 0, sects := [] } : AreaWg).spawned = false := rfl
  have hqs : readQueues (areaBytes q) q (up64 (up64 256 + 64)) = (List.replicate q (0, { carved := true, wide := false, depth := 0, entries := [] }), 320 + 8 * q) := by
    have hz : wordAtOff (areaBytes 1) 320 = 0 := by
      rw [wordAtOff, numAt, area_queue]
      rfl
    interval_cases q
    · rfl
    · have e : up64 (up64 256 + 64) = 320 := rfl
      rw [e]
      simp only [readQueues, hz]
      rfl
  unfold readAreaWgs
  simp only [hw, h5, hqs, hsp, hlp, hsw, h0, Bool.false_and, Bool.false_eq_true, if_false, Nat.add_zero, Nat.mul_zero]
  have hu : up64 (320 + 8 * q) = 320 + 64 * q := by interval_cases q <;> rfl
  have hu2 : up64 (320 + 64 * q) = 320 + 64 * q := by interval_cases q <;> rfl
  simp only [hu, readSects, hu2, hs, readAreaWgs, areaWg]

theorem sect0_part : sectCrcOk (sect0.take 0x400) = true := by
  have h1 : (sect0.take 0x400).take sectFixed = sectBody := by
    rw [List.take_take]
    exact List.take_left' sectBody_length
  have h2 : ((sect0.take 0x400).drop 0x3F8).take 2 = natToBytes (crc16 sectBody).toNat 2 := by
    rw [List.drop_take, List.take_take]
    have : sect0.drop 0x3F8 = natToBytes (crc16 sectBody).toNat 2 ++ List.replicate 0x206 0 := List.drop_left' sectBody_length
    rw [this]
    rfl
  rw [sectCrcOk, numAt, h1, h2, bytesToNat_two _ (crc16 sectBody).isLt]
  simp

theorem area_crc (q : Nat) : (areaWg q).crcOk (areaBytes q) = true := by
  have h : bitsOf (wordAt (areaWg q).hdr 15) 15 0 = (crcWords ((List.range 15).map (wordAt (areaWg q).hdr))).toNat := sealed_crc (wgHdr0 q) 15 rfl
  have h2 : (areaWg q).sects = [(320 + 64 * q, 0x600)] := rfl
  rw [AreaWg.crcOk, h, h2]
  simp only [beq_self_eq_true, Bool.true_and, List.all_cons, List.all_nil, Bool.and_true, area_sect]
  exact sect0_part

theorem area_hdr_ok (q : Nat) : areaHdrOk (areaHdr q) = true := by
  have h := sealed_crc (areaHdr0 q) 63 (by simp [areaHdr0])
  have : bitsOf (wordAt (areaHdr q) 63) 15 0 = (crcWords ((List.range 63).map (wordAt (areaHdr q)))).toNat := h
  rw [areaHdrOk, this]
  simp

/-- Core 0 about to restore from 0x500000; what is in memory there, whether queue 0 is carved, and the group's registers. -/
def restoring (m : Memory) (carved ended : Bool) (nreg : Nat) (hs : List Halt) (saved : List SavedArea) : State :=
  { world m with
    grids := [(1, { grid with domains := [0x600000], ended := ended })], halts := hs, saved := saved,
    slices := [(0, { slice with cores := [(0, { core with
      groups := [(0, { group with nreg := nreg })], hq := if carved then [(0, { carved := true })] else [] })] })] }

theorem restoring_mapped (m : Memory) (carved ended : Bool) (nreg : Nat) (hs : List Halt) (saved : List SavedArea) (h : ∀ e ∈ m, 0x400000 ≤ e.1) :
    Mapped (restoring m carved ended nreg hs saved) := mapped_of _ m rfl h (members_regs rfl) (base_of rfl)

/-- An area is read when memory holds it. -/
theorem reads {s : State} {m : Memory} (hs : Mapped s) (hm : s.mem = tables ++ m) (hp : s.poison = []) (q : Nat) (hq : q ≤ 1)
    (hr : memRead m 0x500000 (areaLen q) = areaBytes q) : s.readArea 0 0x500000 = .got ⟨areaHdr q, areaBytes q, areaBytes q⟩ := by
  have hl : areaLen q ≤ 2000 := by simp only [areaLen]; omega
  have h5 : (0x500000 : Word).toNat = 0x500000 := rfl
  have mt (n : Nat) (h : n ≤ 2000) : s.meet (partEng 0) 5 0x500000 n = .ok := by
    have hb : (0x500000 : Word).toNat + n ≤ 2 ^ 30 := by rw [h5]; omega
    exact meet_mapped hs hp .none 5 0x500000 n hb
  have rd (n : Nat) (h : n ≤ 2000) : s.engBytes (partEng 0) 5 0x500000 n = memRead m 0x500000 n := by
    have e := engBytes_mapped hs .none 5 0x500000 n (by rw [h5]; omega)
    refine Eq.trans e ?_
    rw [hm, h5]
    exact memRead_high m n _ (by decide)
  have hw : s.engWords (partEng 0) 5 0x500000 64 = areaHdr q := by
    rw [State.engWords, rd _ (by decide)]
    have e : 0 + (256 + (areaLen q - 256)) = areaLen q := by simp only [areaLen]; omega
    have h1 := memRead_drop m 0x500000 (areaBytes q) 0 256 (areaLen q - 256) (by rw [e]; exact hr)
    simp only [Nat.add_zero, List.drop_zero] at h1
    rw [h1]
    have h2 : (areaBytes q).take 256 = wordsToBytes (areaHdr q) := List.take_left' (by rw [words_length, areaHdr_length])
    have h3 := words_bytes (areaHdr q) []
    rw [areaHdr_length, List.append_nil] at h3
    rw [h2, h3]
  have h8 : (wordAt (areaHdr q) 8).toNat = areaLen q := by
    have : wordAt (areaHdr q) 8 = BitVec.ofNat 32 (areaLen q) := rfl
    rw [this, BitVec.toNat_ofNat]
    omega
  have h0 : wordAt (areaHdr q) 0 = 0x801 := rfl
  have hk : bitsOf (wordAt (areaHdr q) 0) 7 0 = 1 := by rw [h0]; decide
  have hb : bitAt (wordAt (areaHdr q) 0) 10 = false := by rw [h0]; decide
  have hge : ¬areaLen q < 256 := by simp only [areaLen]; omega
  unfold State.readArea
  simp only [mt 256 (by decide), hw, area_hdr_ok, h8, hk, hb, mt _ hl, rd _ hl, hr]
  simp [hge]

def areaMem (q : Nat) : Memory := memWrite [] 0x500000 (areaBytes q)

theorem areaMem_ge (q : Nat) : ∀ e ∈ areaMem q, 0x400000 ≤ e.1 := memWrite_ge _ _ _ _ (by decide) (by simp)
theorem areaMem_read (q : Nat) : memRead (areaMem q) 0x500000 (areaLen q) = areaBytes q := by
  have := memRead_memWrite [] 0x500000 (areaBytes q)
  rw [areaBytes_length] at this
  exact this

theorem restores_from {m : Memory} (q : Nat) (hq : q ≤ 1) (hm : ∀ e ∈ m, 0x400000 ≤ e.1) (hr : memRead m 0x500000 (areaLen q) = areaBytes q)
    (carved ended : Bool) (nreg : Nat) (hs : List Halt) (saved : List SavedArea) :
    (restoring m carved ended nreg hs saved).readArea 0 0x500000 = .got ⟨areaHdr q, areaBytes q, areaBytes q⟩ :=
  reads (restoring_mapped _ _ _ _ _ _ hm) rfl rfl q hq hr

/-- Areas that are read: of a grid that has ended, of a halted domain, without room, with a queue that is carved, and one that goes through. -/
theorem witness_PreemptionAndRestore_restore (q : Nat) (hq : q ≤ 1) (carved ended : Bool) (nreg : Nat) (hs : List Halt) :
    let s := restoring (areaMem q) carved ended nreg hs []
    let a : AreaRead := ⟨areaHdr q, areaBytes q, areaBytes q⟩
    let r : Grid := tabGet {} s.grids 1
    s.partOf 0 = some 0 ∧ (s.core c0).preempt.state = 0 ∧ s.readArea 0 0x500000 = .got a ∧ s.areaGrid 0 0x500000 (dwordAt a.w 2) = (if ended then none else some 1)
      ∧ readAreaWgs a.bs (lrMatrix r.lrec) (lrGroups r.lrec) (bitsOf (wordAt a.w 0) 15 11) 256 = [areaWg q] ∧ (areaWg q).crcOk a.bs = true
      ∧ bitAt (wordAt a.w 0) 8 = false := by
  intro s a r
  have h0 : wordAt (areaHdr q) 0 = 0x801 := rfl
  have h2 : dwordAt (areaHdr q) 2 = 0 := by
    have x : wordAt (areaHdr q) 2 = 0 := rfl
    have y : wordAt (areaHdr q) (2 + 1) = 0 := rfl
    rw [dwordAt, x, y]
    rfl
  refine ⟨partOf_regs rfl 0, rfl, restores_from q hq (areaMem_ge q) (areaMem_read q) _ _ _ _ _, ?_, ?_, area_crc q, ?_⟩
  · show s.areaGrid 0 0x500000 (dwordAt (areaHdr q) 2) = _
    rw [h2]
    cases ended <;> rfl
  · have e : bitsOf (0x801 : W32) 15 11 = 1 := by decide
    have el : r.lrec = [] := rfl
    have e2 : lrMatrix r.lrec = false := by rw [el]; decide
    have e3 : lrGroups r.lrec = 0 := by rw [el]; decide
    show readAreaWgs (areaBytes q) _ _ (bitsOf (wordAt (areaHdr q) 0) 15 11) 256 = _
    rw [h0, e, e2, e3]
    exact area_read q hq
  · show bitAt (wordAt (areaHdr q) 0) 8 = false
    rw [h0]
    decide

/-- Of these: the domain halted or not, room or none, the queue free or not. -/
theorem witness_PreemptionAndRestore_room (m : Memory) :
    (∀ hs ∈ [[], [halt0]], (restoring m false false 16 hs []).areaDead 0 0x500000 1 = decide (hs ≠ []))
    ∧ (∀ carved nreg, (nreg = 16 ∨ nreg = 1024) → ((restoring m carved false nreg [] []).core c0).areaRoom (areaWg 1) (areaBytes 1) 0 0 = decide (nreg = 16))
    ∧ ∀ carved, ((restoring m carved false 16 [] []).core c0).queuesFree (areaWg 1) = !carved := by
  have hx : (areaWg 1).regs (areaBytes 1) = 16 := by
    have e : (areaWg 1).sects = [(320 + 64 * 1, 0x600)] := rfl
    simp only [AreaWg.regs, e, List.map_cons, List.map_nil, List.foldl_cons, List.foldl_nil, area_num, sect0_numbers.2]
    rfl
  refine ⟨?_, ?_, ?_⟩
  · have e (hs : List Halt) : (restoring m false false 16 hs []).areaDead 0 0x500000 1 = (restoring [] false false 16 hs []).areaDead 0 0x500000 1 := rfl
    simp only [e]
    clear e hx
    decide +kernel
  · intro carved nreg hn
    have e : (restoring m carved false nreg [] []).core c0 = (restoring [] carved false nreg [] []).core c0 := rfl
    simp only [Core.areaRoom, hx, e]
    clear hx e
    rcases hn with rfl | rfl <;> cases carved <;> decide +kernel
  · intro carved; cases carved <;> rfl

theorem zero_crc : crcWords (List.replicate 63 0) = 37142 := by
  have e : (List.replicate 63 0 : List W32) = ((List.replicate 16 0 ++ List.replicate 16 0) ++ List.replicate 16 0) ++ List.replicate 15 0 := rfl
  have h1 : crcWords (List.replicate 16 0) = 55002 := by decide +kernel
  have h2 : (wordsToBytes (List.replicate 16 0)).foldl crcByte 55002 = 61450 := by decide +kernel
  have h3 : (wordsToBytes (List.replicate 16 0)).foldl crcByte 61450 = 33778 := by decide +kernel
  have h4 : (wordsToBytes (List.replicate 15 0)).foldl crcByte 33778 = 37142 := by decide +kernel
  rw [e, crc_append, crc_append, crc_append, h1, h2, h3, h4]

theorem readArea_crc {s : State} {p : PartId} {area : Word} {w : List W32} (mt : s.meet (partEng p) 5 area 256 = .ok)
    (hw : s.engWords (partEng p) 5 area 64 = w) (hc : areaHdrOk w = false) : s.readArea p area = .crc := by
  unfold State.readArea
  simp only [mt, hw, hc, Bool.not_false, if_true]

theorem readArea_fault {s : State} {p : PartId} {area va : Word} {c : Cause} (mt : s.meet (partEng p) 5 area 256 = .fault c va) : s.readArea p area = .invalid := by
  unfold State.readArea
  simp only [mt]

/-- An area of zeros, whose check code is wrong, known and not; one whose first line is poisoned; and an engine that is at work. -/
theorem witness_PreemptionAndRestore_bad :
    (∀ saved, (restoring [] false false 16 [] saved).readArea 0 0x500000 = .crc)
    ∧ (let b : SavedArea := { part := 0, area := 0x500000, grid := 1 }
       (restoring [] false false 16 [] [b]).saved.find? (fun b => b.part == 0 && b.area == 0x500000) = some b)
    ∧ { restoring [] false false 16 [] [] with poison := [0x500000 / 64] }.readArea 0 0x500000 = .invalid
    ∧ ((preempting (request 2) id []).core c0).preempt.state = 2 := by
  refine ⟨fun saved => ?_, rfl, ?_, rfl⟩
  · have mp := restoring_mapped [] false false 16 [] saved (by simp)
    have hw : (restoring [] false false 16 [] saved).engWords (partEng 0) 5 0x500000 64 = List.replicate 64 0 := by
      refine Eq.trans (engWords_mapped mp .none 5 0x500000 64 (by decide)) ?_
      have : memRead (restoring [] false false 16 [] saved).mem (0x500000 : Word).toNat (4 * 64) = memRead [] 0x500000 256 := memRead_high [] 256 0x500000 (by decide)
      rw [this]
      decide +kernel
    have mt : (restoring [] false false 16 [] saved).meet (partEng 0) 5 0x500000 256 = .ok := meet_mapped mp rfl .none 5 _ _ (by decide)
    have hc : areaHdrOk (List.replicate 64 0) = false := by
      have e : (List.range 63).map (wordAt (List.replicate 64 0)) = List.replicate 63 0 := by decide +kernel
      rw [areaHdrOk, e, zero_crc]
      decide +kernel
    exact readArea_crc mt hw hc
  · have mp : Mapped { restoring [] false false 16 [] [] with poison := [0x500000 / 64] } := mapped_of _ [] rfl (by simp) (members_regs rfl) (base_of rfl)
    have mt : { restoring [] false false 16 [] [] with poison := [0x500000 / 64] }.meet (partEng 0) 5 0x500000 256 = .fault .poisoned 0x500000 :=
      (meet_poison mp 5 0x500000 256 (by decide +kernel)).trans (by decide +kernel)
    exact readArea_fault mt

end Sys2Proof.Machine.Tests
end

