-- ==== Sys2Proof/Tests/Witness12.lean ====
section
/-! SUPPORT. Witnesses for the statements about the root controller's messages. -/

namespace Sys2Proof.Machine.Tests

-- One theorem after another: a file of closed evaluations needs no more than one thread.
set_option Elab.async false

/-- The frame of a message, and partition 0 with it in its queue. -/
def frameOf (op : W32) (xs : List W32) : Frame := ⟨frame16 (op :: 0 :: xs)⟩
/-- The letter of a frame. -/
def letterOf (m : Frame) : Letter := { words := frame16 m.words }
/-- Partition 0 as the PRC holds it. -/
def mailed (mem : Memory) (q : Part) (regs : Tab Word) : State := { world mem with prc := { regs := prc.regs ++ regs, parts := [(0, q)] } }

/-- Heads of the queue: none, another one, and messages that are handled, of an unknown OP, of another OP, with bits that must be zero, that a kernel may not send. -/
theorem witness_RootControllerMessages_head :
    (∀ n ∈ [0x01, 0x02, 0x03, 0x04, 0x05, 0x06, 0x07, 0x08, 0x09, 0x0A, 0x0B, 0x0C, 0x0D, 0x14],
      let m := frameOf (BitVec.ofNat 32 n) []
      let w := frame16 m.words
      bitsOf (wordAt w 0) 7 0 = n ∧ bitsOf (wordAt w 0) 15 8 = 0 ∧ (letterOf m).words = w ∧ knownOp n = true
        ∧ ((mailed [] { inbox := [letterOf m] } []).part 0).inbox = [letterOf m])
    ∧ (letterOf (frameOf 1 [])).words ≠ frame16 (frameOf 2 []).words
    ∧ knownOp (bitsOf (wordAt (frame16 (frameOf 0x0E []).words) 0) 7 0) = false
    ∧ bitsOf (wordAt (frame16 (frameOf 0x101 []).words) 0) 15 8 ≠ 0 := by
  decide +kernel

/-- FEAT: locked, with a bit that is not there, and good. ARTLOAD: an address that is not aligned. LEASE, ROUTE and DYKE: what is refused and what is not. -/
theorem witness_RootControllerMessages_words :
    ((mailed [] { featLocked := true } []).part 0).featLocked = true ∧ ((mailed [] {} []).part 0).featLocked = false
    ∧ dwordAt (frame16 (frameOf 1 [0x10]).words) 2 &&& ~~~(mailed [] {} []).prcReg 0x809 ≠ 0 ∧ dwordAt (frame16 (frameOf 1 [5]).words) 2 &&& ~~~(mailed [] {} []).prcReg 0x809 = 0
    ∧ (dwordAt (frame16 (frameOf 2 [0x800]).words) 2).toNat % 4096 ≠ 0
    ∧ (bitsOf (wordAt (frame16 (frameOf 5 [15]).words) 2) 12 0 < 16 ∧ 16 ≤ bitsOf (wordAt (frame16 (frameOf 5 [100]).words) 2) 12 0
        ∧ bitsOf (wordAt (frame16 (frameOf 5 [100]).words) 2) 12 0 ≤ 4096)
    ∧ 12 ≤ bitsOf (wordAt (frame16 (frameOf 4 [12, 0]).words) 2) 3 0
    ∧ (let w := frame16 (frameOf 4 [3, 0x801]).words
       let v := wordAt w 3
       ¬(12 ≤ bitsOf (wordAt w 2) 3 0 ∨ bitsOf v 20 19 = 3 ∨ (bitsOf v 20 19 = 2 ∧ bitsOf v 26 21 = 0) ∨ (v.getLsbD 11 = true ∧ bitsOf v 10 0 = 0)
          ∨ (mailed [] {} []).member 0 (idx 8 (bitsOf v 18 16)) = false))
    ∧ 14 ≤ bitsOf (wordAt (frame16 (frameOf 3 [14]).words) 2) 3 0
    ∧ (let w := frame16 (frameOf 3 [0x11, 7, 0x1000, 0, 0x3000, 0]).words
       let s := mailed [] {} []
       let base := (dwordAt w 4).toNat
       let lim := (dwordAt w 6).toNat
       bitsOf (wordAt w 2) 3 0 < 14 ∧ (¬∃ i : SliceId, s.member 0 i = true ∧ s.endpointPort i (bitsOf (wordAt w 2) 3 0) = true) ∧ bitAt (wordAt w 3) 2 = true
        ∧ base % 4096 = 0 ∧ lim % 4096 = 0 ∧ base < lim ∧ lim < 2 ^ 48 ∧ s.ownRange 0 base lim = true)
    ∧ (mailed [] {} []).member 0 0 = true ∧ hasDyke 0 (bitsOf (wordAt (frame16 (frameOf 3 [0x11, 7]).words) 2) 3 0) = true
    ∧ hasDyke 0 (bitsOf (wordAt (frame16 (frameOf 3 [0x18, 7]).words) 2) 3 0) = false := by
  refine ⟨?_, ?_, ?_, ?_, ?_, ?_, ?_, ?_, ?_, ?_, ?_, ?_, ?_⟩ <;> decide +kernel

theorem mailed_mapped (mem : Memory) (q : Part) (regs : Tab Word) (h : ∀ e ∈ mem, 0x400000 ≤ e.1) (hr : regs = [] ∨ regs = [(0x818, 7)]) : Mapped (mailed mem q regs) := by
  refine mapped_of _ mem rfl h ?_ (base_of rfl)
  have : (mailed mem q regs).member 0 = ({ State.reset with prc := { regs := prc.regs ++ regs } } : State).member 0 := by
    funext i
    simp only [State.member, State.partValid, State.pmap, State.prcReg, mailed]
  rw [State.memberSlices, this]
  rcases hr with rfl | rfl <;> decide +kernel

theorem mailed_meet (mem : Memory) (q : Part) (h : ∀ e ∈ mem, 0x400000 ≤ e.1) (k : Nat) (va : Word) (n : Nat) (hv : va.toNat + n ≤ 2 ^ 30) :
    (mailed mem q []).meet (partEng 0) k va n = .ok := meet_mapped (mailed_mapped mem q [] h (Or.inl rfl)) rfl .none k va n hv

theorem mailed_words (mem : Memory) (q : Part) (h : ∀ e ∈ mem, 0x400000 ≤ e.1) (k : Nat) (va : Word) (n : Nat) (h1 : 0x400000 ≤ va.toNat) (hv : va.toNat + 4 * n ≤ 2 ^ 30) :
    (mailed mem q []).engWords (partEng 0) k va n = bytesToWords n (memRead mem va.toNat (4 * n)) := by
  refine (engWords_mapped (mailed_mapped mem q [] h (Or.inl rfl)) .none k va n hv).trans (congrArg _ ?_)
  exact memRead_high _ _ _ h1

/-! ### ARTLOAD -/

theorem zeros_read (n : Nat) : ∀ a, memRead [] a n = List.replicate n 0 := by
  induction n with
  | zero => intro; rfl
  | succ n ih => intro a; rw [memRead, ih]; rfl

theorem zeros_words (n : Nat) : bytesToWords n (List.replicate (4 * n) 0) = List.replicate n 0 := by
  induction n with
  | zero => rfl
  | succ n ih =>
    have e : 4 * (n + 1) = 4 + 4 * n := by omega
    have l : (List.replicate 4 (0 : Byte)).length = 4 := rfl
    rw [e, List.replicate_add, bytesToWords, List.take_left' l, List.drop_left' l, ih]
    rfl

theorem zeros_art (nseg : Nat) : (artEntries (List.replicate 1536 0)).all (artEntryOk nseg) = true := by
  rw [List.all_eq_true]
  intro e he
  obtain ⟨k, hk, rfl⟩ := List.mem_map.mp he
  have hk := List.mem_range.mp hk
  have : ((List.replicate 1536 (0 : W32)).drop (24 * k)).take 24 = List.replicate 24 0 := by
    rw [List.drop_replicate, List.take_replicate]
    congr 1
    omega
  rw [this]
  rfl

/-- ARTLOAD at 0x400000: of entries that are all off with every lease over or not, of one that is bad, and where nothing is reached. -/
theorem witness_RootControllerMessages_artload :
    (let w := frame16 (frameOf 2 [0x400000]).words
     dwordAt w 2 = 0x400000 ∧ (0x400000 : Word).toNat % 4096 = 0)
    ∧ ((mailed [] {} []).meet (partEng 0) 1 0x400000 6144 = .ok ∧ ((mailed [] {} []).part 0).move = none
        ∧ ∀ nseg, (artEntries ((mailed [] {} []).engWords (partEng 0) 1 0x400000 1536)).all (artEntryOk nseg) = true)
    ∧ (let mem := wordsAt 0x400000 [0, 1]
       (mailed mem {} []).meet (partEng 0) 1 0x400000 6144 = .ok
        ∧ ∀ nseg, (artEntries ((mailed mem {} []).engWords (partEng 0) 1 0x400000 1536)).all (artEntryOk nseg) = false)
    ∧ (mailed [] {} []).leasesOver ((mailed [] {} []).memberSlices 0) = true
    ∧ (let s := { mailed [] {} [] with slices := [(0, { slice with leases := [(0, 5000)] })] }
       s.leasesOver (s.memberSlices 0) = false)
    ∧ { mailed [] {} [] with mem := [] }.meet (partEng 0) 1 0x400000 6144 ≠ .ok := by
  have h4 : (0x400000 : Word).toNat = 0x400000 := rfl
  refine ⟨by decide +kernel, ⟨mailed_meet _ _ (by simp) 1 _ _ (by decide), rfl, fun nseg => ?_⟩, ⟨mailed_meet _ _ (wordsAt_ge _ _) 1 _ _ (by decide), fun nseg => ?_⟩, ?_, ?_,
    meet_ne rfl 1 0x400000 6144 (by decide) (by decide)⟩
  · rw [mailed_words _ _ (by simp) 1 _ _ (by decide) (by decide), zeros_read, zeros_words]
    exact zeros_art nseg
  · rw [mailed_words _ _ (wordsAt_ge _ _) 1 _ _ (by decide) (by decide), h4]
    have : artEntryOk nseg ((bytesToWords 1536 (memRead (wordsAt 0x400000 [0, 1]) 0x400000 (4 * 1536))).take 24) = false := by
      have e : (bytesToWords 1536 (memRead (wordsAt 0x400000 [0, 1]) 0x400000 (4 * 1536))).take 24 = [0, 1] ++ List.replicate 22 0 := by decide +kernel
      rw [e]
      rfl
    rw [artEntries, List.range_succ_eq_map, List.map_cons, List.all_cons, Nat.mul_zero, List.drop_zero, this, Bool.false_and]
  · have : (mailed [] {} []).memberSlices 0 = [0] := (mailed_mapped [] {} [] (by simp) (Or.inl rfl)).members
    rw [this]
    rfl
  · intro s
    have : s.memberSlices 0 = [0] := (mailed_mapped [] {} [] (by simp) (Or.inl rfl)).members
    rw [this]
    decide +kernel

/-! ### Output and keys -/

theorem insert_length (u : Usage) (l : List Usage) : (insertUsage u l).length = l.length + 1 := by
  induction l with
  | nil => rfl
  | cons x xs ih => rw [insertUsage]; split <;> simp [ih]

theorem inserts_length (l : List Usage) : (l.foldr insertUsage []).length = l.length := by
  induction l with
  | nil => rfl
  | cons x xs ih => rw [List.foldr_cons, insert_length, ih]; rfl

theorem usage_length (s : State) (p : PartId) (epoch lo hi : Nat) :
    (s.usageSets p epoch lo hi).length
      = ((s.part p).usage.filter fun u => u.epoch.toNat == epoch && decide (lo ≤ u.uid.toNat) && decide (u.uid.toNat ≤ hi)).length := inserts_length _

theorem fixed_length (n : Nat) (bs : List Byte) : (fixedBytes n bs).length = n := by simp [fixedBytes]

theorem signatures_length (bs : List Byte) : (signatures bs).length = 8240 := by rw [signatures, List.length_append, fixed_length, fixed_length]

theorem nat_length (n x : Nat) : (natToBytes x n).length = n := by
  induction n generalizing x with
  | zero => rfl
  | succ n ih => rw [natToBytes, List.length_cons, ih]

theorem usage_bytes (u : Usage) : u.bytes.length = 40 := by simp [Usage.bytes, nat_length]

theorem usages_length (us : List Usage) : (us.flatMap Usage.bytes).length = 40 * us.length := by
  induction us with
  | nil => rfl
  | cons u us ih => rw [List.flatMap_cons, List.length_append, usage_bytes, ih, List.length_cons]; omega

theorem snapshot_length (s : State) (p : PartId) (epoch : Nat) (w : List W32) (us : List Usage) : (s.snapshot p epoch w us).length = 64 + 40 * us.length + 8240 := by
  rw [State.snapshot, List.length_append, signatures_length, List.length_append, words_length, usages_length]
  rfl

/-- USNAP: of 1025 sets, of none into a buffer that is reached, and into one that is not. -/
theorem witness_RootControllerMessages_usnap :
    (let s := mailed [] { usage := List.replicate 1025 { epoch := 0, uid := 0 } } []
     let w := frame16 (frameOf 6 [0x400000, 0, 0, 5]).words
     1024 < (s.usageSets 0 (bitsOf (s.prcReg 0x818) 15 0) (wordAt w 4).toNat (wordAt w 5).toNat).length)
    ∧ (let s := mailed [] {} []
       let w := frame16 (frameOf 6 [0x400000, 0, 0, 5]).words
       let us := s.usageSets 0 0 0 5
       us.length ≤ 1024 ∧ dwordAt w 2 = 0x400000 ∧ s.meet (partEng 0) 2 0x400000 (s.snapshot 0 0 w us).length = .ok)
    ∧ (let s := { mailed [] {} [] with mem := [] }
       let w := frame16 (frameOf 6 [0x400000, 0, 0, 5]).words
       s.meet (partEng 0) 2 0x400000 (s.snapshot 0 0 w (s.usageSets 0 0 0 5)).length ≠ .ok) := by
  refine ⟨?_, ⟨by decide, by decide +kernel, ?_⟩, ?_⟩
  · intro s w
    have e1 : (s.part 0).usage = List.replicate 1025 { epoch := 0, uid := 0 } := rfl
    have e2 : bitsOf (s.prcReg 0x818) 15 0 = 0 := by decide +kernel
    have e3 : (wordAt w 4).toNat = 0 := by decide +kernel
    have e4 : (wordAt w 5).toNat = 5 := by decide +kernel
    rw [usage_length, e1, e2, e3, e4, List.filter_replicate_of_pos (by rfl), List.length_replicate]
    decide
  · refine mailed_meet [] {} (by simp) 2 0x400000 _ ?_
    rw [snapshot_length]
    have h4 : (0x400000 : Word).toNat = 0x400000 := rfl
    have : ((mailed [] {} []).usageSets 0 0 0 5).length = 0 := rfl
    rw [h4, this]
    decide
  · refine meet_ne rfl 2 0x400000 _ ?_ (by decide)
    rw [snapshot_length]
    omega

/-- KEYLOAD of each kind, with a blob that is reached and one that is not. -/
theorem witness_RootControllerMessages_keyload :
    (∀ k ∈ [0, 1, 2, 3], let w := frame16 (frameOf 7 [BitVec.ofNat 32 (k * 256 + 5), 0x400000]).words
      bitsOf (wordAt w 2) 9 8 = k ∧ bitsOf (wordAt w 2) 7 0 = 5 ∧ (dwordAt w 3).toNat = 0x400000)
    ∧ (mailed [] {} []).meet (partEng 0) 1 0x400000 64 = .ok ∧ (mailed [] {} []).meet (partEng 0) 2 0x400000 64 = .ok
    ∧ { mailed [] {} [] with mem := [] }.meet (partEng 0) 1 0x400000 64 ≠ .ok :=
  ⟨by decide +kernel, mailed_meet [] {} (by simp) 1 _ _ (by decide), mailed_meet [] {} (by simp) 2 _ _ (by decide), meet_ne rfl 1 _ _ (by decide) (by decide)⟩

theorem slices_length (f : SliceId → Word) : (allSlices.flatMap fun i => natToBytes (f i).toNat 8).length = 64 := by
  simp only [allSlices, List.flatMap_cons, List.flatMap_nil, List.length_append, nat_length, List.length_nil]

theorem report_length (s : State) (p : PartId) (w : List W32) (hw : 8 ≤ w.length) : (s.report p w).length = 384 + 8240 := by
  have h : ((w.drop 4).take 4).length = 4 := by rw [List.length_take, List.length_drop]; omega
  rw [State.report, List.length_append, signatures_length]
  simp only [List.length_append, nat_length, words_length, h, List.length_replicate, fixed_length, slices_length]

/-- ATTEST and CERT into a buffer that is reached, for a certificate of up to a MiB, and into one that is not. -/
theorem witness_RootControllerMessages_output (hc : (Config.certificate 0).length ≤ 2 ^ 20) :
    (let w := frame16 (frameOf 0x0A [0x400000]).words
     dwordAt w 2 = 0x400000 ∧ (mailed [] {} []).meet (partEng 0) 2 0x400000 ((mailed [] {} []).report 0 w).length = .ok
      ∧ { mailed [] {} [] with mem := [] }.meet (partEng 0) 2 0x400000 ({ mailed [] {} [] with mem := [] }.report 0 w).length ≠ .ok)
    ∧ (let w := frame16 (frameOf 0x0B [0x400000]).words
       let x := Config.certificate (bitsOf (wordAt w 4) 1 0)
       (mailed [] {} []).meet (partEng 0) 2 0x400000 (natToBytes x.length 4 ++ x).length = .ok
        ∧ { mailed [] {} [] with mem := [] }.meet (partEng 0) 2 0x400000 (natToBytes x.length 4 ++ x).length ≠ .ok) := by
  have h4 : (0x400000 : Word).toNat = 0x400000 := rfl
  have hl (op : W32) (xs : List W32) : 8 ≤ (frame16 (frameOf op xs).words).length := by simp [frame16]
  refine ⟨⟨by decide +kernel, ?_, ?_⟩, ?_⟩
  · refine mailed_meet [] {} (by simp) 2 0x400000 _ ?_
    rw [report_length _ _ _ (hl _ _), h4]
    decide
  · refine meet_ne rfl 2 0x400000 _ ?_ (by decide)
    rw [report_length _ _ _ (hl _ _)]
    decide
  · intro w x
    have h0 : bitsOf (wordAt w 4) 1 0 = 0 := by decide +kernel
    have hx : x = Config.certificate 0 := congrArg _ h0
    rw [hx]
    refine ⟨mailed_meet [] {} (by simp) 2 0x400000 _ ?_, meet_ne rfl 2 0x400000 _ ?_ (by decide)⟩
    · rw [List.length_append, nat_length, h4]
      omega
    · rw [List.length_append, nat_length]
      omega

/-! ### Images -/

/-- An image's header at 0x400000, with a body of no bytes. -/
def imageMem : Memory := wordsAt 0x400000 [0x4E594D49, 2]

/-- FWOFFER during a switch, and of an image whose header is bad or good. Whether its signatures verify is not for the machine to say: one of the two clauses holds. -/
theorem witness_RootControllerMessages_fwoffer :
    bitsOf ((mailed [] { fwstat := 0x100020001 } []).part 0).fwstat 33 32 ≠ 0 ∧ bitsOf ((mailed [] {} []).part 0).fwstat 33 32 = 0
    ∧ (mailed [] {} []).meet (partEng 0) 1 0x400000 256 = .ok ∧ headerOk ((mailed [] {} []).engWords (partEng 0) 1 0x400000 64) 2 = false
    ∧ (let s := mailed imageMem {} []
       let h := s.engWords (partEng 0) 1 0x400000 64
       let n := 256 + (dwordAt h 4).toNat
       s.meet (partEng 0) 1 0x400000 256 = .ok ∧ headerOk h 2 = true ∧ n + 8240 ≤ 0x800000 ∧ s.meet (partEng 0) 1 0x400000 (n + 8240) = .ok) := by
  have h4 : (0x400000 : Word).toNat = 0x400000 := rfl
  refine ⟨by decide +kernel, by decide +kernel, mailed_meet [] {} (by simp) 1 _ _ (by decide), ?_, ?_⟩
  · rw [mailed_words [] {} (by simp) 1 _ _ (by decide) (by decide), zeros_read, zeros_words]
    decide +kernel
  · intro s h n
    have hh : h = [0x4E594D49, 2] ++ List.replicate 62 0 := by
      have : h = (mailed imageMem {} []).engWords (partEng 0) 1 0x400000 64 := rfl
      rw [this, mailed_words imageMem {} (wordsAt_ge _ _) 1 _ _ (by decide) (by decide), h4]
      decide +kernel
    have hn : n = 256 := by
      have : n = 256 + (dwordAt h 4).toNat := rfl
      rw [this, hh]
      decide +kernel
    refine ⟨mailed_meet imageMem {} (wordsAt_ge _ _) 1 _ _ (by decide), ?_, ?_, ?_⟩
    · rw [hh]; decide +kernel
    · rw [hn]; decide
    · rw [hn]; exact mailed_meet imageMem {} (wordsAt_ge _ _) 1 _ _ (by decide)

/-- A switch under way; every agent but one checked, or none. -/
def switching (checked : Bool) (l : Letter) : State :=
  { mailed [] { fwstat := 0x100020001, inbox := [l] } [] with
    now := 200000000, slices := [(0, { slice with cores := (List.range 144).map fun k => (k, { puppet := { running := true, checked := checked && k != 0 } }) })] }

/-- FWCHK of agent 0: no switch of that generation, a check that failed, one that passed and is the last, and one that is not; and the time over or not. -/
theorem witness_RootControllerMessages_fwchk (checked : Bool) :
    let l : Letter := { agent := some (c0, 0x400000, 5), words := frame16 (frameOf 9 [0x20001]).words }
    let s := switching checked l
    let q := s.part 0
    q.inbox = [l] ∧ l.words = frame16 (frameOf 9 [0x20001]).words ∧ bitsOf q.fwstat 33 32 = 1 ∧ bitsOf (wordAt l.words 2) 31 16 = bitsOf q.fwstat 31 16
      ∧ (wordAt l.words 2).getLsbD 0 = true ∧ (wordAt (frame16 (frameOf 9 [0x20000]).words) 2).getLsbD 0 = false
      ∧ bitsOf (wordAt (frame16 (frameOf 9 [0x30001]).words) 2) 31 16 ≠ bitsOf q.fwstat 31 16
      ∧ (if checked then ∀ y ∈ s.agentsOf 0, y = c0 ∨ (s.core y).puppet.checked = true else ∃ y ∈ s.agentsOf 0, y ≠ c0 ∧ (s.core y).puppet.checked = false)
      ∧ (s.core c0).puppet.checked = false ∧ q.fwSince = 0 ∧ s.now = 200000000 := by
  have hm (l : Letter) : (switching checked l).memberSlices 0 = [0] := members_regs rfl
  refine ⟨rfl, rfl, by cases checked <;> decide +kernel, by cases checked <;> decide +kernel, by decide +kernel, by decide +kernel, by cases checked <;> decide +kernel, ?_, ?_, rfl, rfl⟩
  · simp only [State.agentsOf, hm, List.flatMap_cons, List.flatMap_nil, List.append_nil]
    cases checked
    · exact ⟨⟨0, 1⟩, List.mem_map.mpr ⟨1, List.mem_range.mpr (by decide), rfl⟩, by decide, rfl⟩
    · simp only [if_true]
      intro y hy
      obtain ⟨k, hk, rfl⟩ := List.mem_map.mp hy
      have hk := List.mem_range.mp hk
      clear hy hm
      revert k
      decide +kernel
  · cases checked <;> rfl

/-! ### Hand-overs, endpoints, sending -/

/-- MOVEACK 1 and 2, with no hand-over, at the step and not, with an access that a controller has parked and with none. -/
theorem witness_RootControllerMessages_moveack :
    ((mailed [] {} []).part 0).move = none
    ∧ (∀ n ∈ [1, 2], let y : Move := { slice := 0, toPart := 1, step := n }
      ((mailed [] { move := some y } []).part 0).move = some y ∧ bitsOf (wordAt (frame16 (frameOf 0x0C [BitVec.ofNat 32 n]).words) 2) 2 0 = y.step
        ∧ bitsOf (wordAt (frame16 (frameOf 0x0C [4]).words) 2) 2 0 ≠ y.step)
    ∧ (mailed [] {} []).bogUsed 0 = false
    ∧ { mailed [] {} [] with slices := [(0, { slice with bog := [(0, parkedLoad)] })] }.bogUsed 0 = true := by
  decide +kernel

/-- EPCFG of a port that is not bifurcated, with and without the feature. -/
theorem witness_RootControllerMessages_epcfg (hb : Config.portBifurcated 0 0 = false) (on : Bool) :
    let s := mailed [] { featacc := if on then 8 else 0 } []
    let w := frame16 (frameOf 0x0D [0, 0x1000000, 0, 20, 0x2000000, 0]).words
    let i : SliceId := idx 8 (bitsOf (wordAt w 2) 2 0)
    let port : Fin 2 := idx 2 (bitsOf (wordAt w 2) 3 3)
    let bar0 := (dwordAt w 3).toNat
    let size := bitsOf (wordAt w 5) 5 0
    let page := (dwordAt w 6).toNat
    let own (b : Nat) : Prop := b < 2 ^ 40 ∧ s.member 0 (idx 8 (b / 2 ^ 37)) = true
    (s.part 0).featacc.getLsbD 3 = on ∧ s.member 0 i = true ∧ (s.epstat i port.val).getLsbD 0 = false ∧ Config.portBifurcated i port = false
      ∧ 20 ≤ size ∧ size ≤ 36 ∧ bar0 % 2 ^ size = 0 ∧ page % 4096 = 0 ∧ own bar0 ∧ own page := by
  refine ⟨?_, ?_, ?_, hb, ?_, ?_, ?_, ?_, ?_, ?_⟩
  · clear hb; cases on <;> decide +kernel
  · clear hb; cases on <;> decide +kernel
  · clear hb; cases on <;> decide +kernel
  · decide +kernel
  · decide +kernel
  · decide +kernel
  · decide +kernel
  · clear hb; cases on <;> decide +kernel
  · clear hb; cases on <;> decide +kernel

/-- The host's mailbox free and busy; an agent that sends, and one that waits for its reply. -/
theorem witness_RootControllerMessages_send :
    (mailed [] {} []).partValid 0 = true ∧ ((mailed [] {} []).part 0).mboxBusy = false ∧ ((mailed [] { mboxBusy := true } []).part 0).mboxBusy = true
    ∧ (∀ w, let s := { world [] with cur := .puppet c0, slices := [(0, { slice with cores := [(0, { core with puppet := { running := true, sc := { s := [(5, 0x400000)], wait := w } } })] })] }
       s.cur = .puppet c0 ∧ (s.sreg 5).toNat % 64 = 0 ∧ (∀ r d, s.canIssue r d) ∧ (s.core c0).puppet.sc.wait = w ∧ (s.core c0).puppet.sc.memq = []
        ∧ s.meet s.curEng 1 (BitVec.ofNat 64 ((s.sreg 5).toNat / 64 * 64)) 64 = .ok ∧ s.meet s.curEng 2 (BitVec.ofNat 64 ((s.sreg 5).toNat / 64 * 64)) 64 = .ok) := by
  refine ⟨by decide +kernel, rfl, rfl, fun w => ?_⟩
  intro s
  have mp : Mapped s := mapped_of s [] rfl (by simp) (members_of rfl) (base_of rfl)
  have h5 : s.sreg 5 = 0x400000 := rfl
  have hp : s.agentPart s.cur = 0 := by
    show s.partOf! 0 = 0
    rw [State.partOf!, partOf_regs rfl]
    rfl
  have ha : s.agentAsid s.cur = asid := by
    show Config.rootAsid (s.partOf! 0) = asid
    rw [State.partOf!, partOf_regs rfl]
    rfl
  have hc : s.curEng = eng (.puppet c0) := by rw [State.curEng, hp, ha]; rfl
  refine ⟨rfl, by rw [h5]; rfl, fun r d => canIssue_of (by trivial) rfl rfl r d, rfl, rfl, ?_, ?_⟩
  · rw [h5, hc]; exact meet_mapped mp rfl _ _ _ _ (by decide)
  · rw [h5, hc]; exact meet_mapped mp rfl _ _ _ _ (by decide)

end Sys2Proof.Machine.Tests
end

