-- ==== Sys2Proof/Tests/Witness13.lean ====
section
/-! SUPPORT. Witnesses for the statement about the life of a partition and its endpoints. -/

namespace Sys2Proof.Machine.Tests

-- One theorem after another: a file of closed evaluations needs no more than one thread.
set_option Elab.async false

/-- Partition 0 as the PRC holds it, owner key 0, and slices 0 and 1 with port 0 in a state. -/
def formed (q : Part) (owners : Tab (List W32)) (st : BitVec 3) : State :=
  { world [] with
    prc := { regs := prc.regs, parts := [(0, q)], owners := owners },
    slices := [(0, { slice with ports := [(0, { st := st })] }), (1, { ports := [(0, { st := st })] })] }

/-- A fetch on port 0. -/
def fetch0 : BootFetch := { frame := frame16 (frameOf 0x13 [0]).words, since := 0 }

/-- FUSE of slice 1, with its port up and not; of slice 0, which is taken; with no owner key; during a boot. -/
theorem witness_PartitionLifeAndEndpoints_fuse :
    (let w := frame16 (frameOf 0x10 [2, 0]).words
     let is := allSlices.filter fun i => (wordAt w 2).getLsbD i.val
     ∀ st ∈ [0, 2], ∀ owners ∈ [[(0, [1])], []], let s := formed {} owners st
      bitsOf (wordAt w 0) 7 0 = 0x10 ∧ bitsOf (wordAt w 0) 15 8 = 0 ∧ s.booting = false ∧ is = [1] ∧ (∃ r, s.partValid r = false) ∧ (∀ i ∈ is, s.partOf i = none)
        ∧ edgeConnected is = true ∧ bitsOf (wordAt w 3) 12 0 = 0 ∧ (tabGet [] s.prc.owners (bitsOf (wordAt w 2) 11 9) ≠ [] ↔ owners ≠ [])
        ∧ s.partValid 1 = false ∧ (∀ r < (1 : PartId), s.partValid r = true)
        ∧ (st = 2 → (s.port 1 0).st = 2) ∧ (st = 0 → ∀ q < 8, (s.port 1 q).st ≠ 2))
    ∧ (let is := allSlices.filter fun i => (wordAt (frame16 (frameOf 0x10 [3, 0]).words) 2).getLsbD i.val
       ¬∀ i ∈ is, (formed {} [] 0).partOf i = none)
    ∧ (formed { boot := some fetch0 } [] 0).booting = true ∧ hasDyke 1 0 = true ∧ hasDyke 0 0 = true := by
  refine ⟨?_, ?_, ?_, ?_, ?_⟩ <;> decide +kernel

/-- RESETP and UNFUSE of partition 0, with its port up and not, and of partition 3, which is not formed. -/
theorem witness_PartitionLifeAndEndpoints_reset :
    (∀ n ∈ [0x11, 0x13], let w := frame16 (frameOf (BitVec.ofNat 32 n) [0]).words
      bitsOf (wordAt w 0) 7 0 = n ∧ bitsOf (wordAt w 0) 15 8 = 0 ∧ idx 8 (bitsOf (wordAt w 2) 2 0) = 0
        ∧ idx 8 (bitsOf (wordAt (frame16 (frameOf (BitVec.ofNat 32 n) [3]).words) 2) 2 0) = 3)
    ∧ ∀ st ∈ [0, 2], let s := formed {} [] st
      s.booting = false ∧ s.partValid 0 = true ∧ s.partValid 3 = false ∧ s.moveOf 0 = none ∧ s.memberSlices 0 = [0] ∧ (st = 2 → (s.port 0 0).st = 2)
        ∧ (st = 0 → ∀ q < 8, (s.port 0 q).st ≠ 2) := by
  decide +kernel

/-! ### The boot fetch -/

/-- A boot of partition 0 under way, with some ports of slice 0 up and some bytes of the image there. -/
def fetching1 (f : BootFetch) (ups : List Nat) (mem : Memory) (now : Word) : State :=
  { formed { boot := some f } [] 0 with now := now, mem := mem, slices := [(0, { slice with ports := ups.map fun q => (q, { st := 2 }) })] }

/-- The completion of a fetch's window, with a status and, in the words after it, the size. -/
def completion (f : BootFetch) (stat : Nat) (total : Word) : List W32 :=
  [BitVec.ofNat 32 (2 + stat * 256 + f.tries * 65536)] ++ (List.range 9).map (fun k => wordAt (bootRequest [] f) (k + 1)) ++ [total.extractLsb' 0 32, total.extractLsb' 32 32]

theorem completion_completes (f : BootFetch) (stat : Nat) (total : Word) (hs : stat < 256) (hf : f.tries < 65536) :
    completes [] f (completion f stat total) = true ∧ bitsOf (wordAt (completion f stat total) 0) 15 8 = stat ∧ dwordAt (completion f stat total) 10 = total := by
  have h0 : wordAt (completion f stat total) 0 = BitVec.ofNat 32 (2 + stat * 256 + f.tries * 65536) := rfl
  have hb : (BitVec.ofNat 32 (2 + stat * 256 + f.tries * 65536)).toNat = 2 + stat * 256 + f.tries * 65536 := by rw [BitVec.toNat_ofNat]; omega
  have hk : ∀ k ∈ List.range 7, (wordAt (completion f stat total) (k + 1) == wordAt (bootRequest [] f) (k + 1)) = true := by
    intro k hk
    have hk := List.mem_range.mp hk
    interval_cases k <;> exact beq_self_eq_true _
  refine ⟨?_, ?_, ?_⟩
  · rw [completes, List.all_eq_true.mpr hk, h0]
    simp only [bitsOf, hb, Nat.shiftRight_eq_div_pow, Bool.and_true, Bool.and_eq_true, beq_iff_eq]
    omega
  · rw [h0]
    simp only [bitsOf, hb, Nat.shiftRight_eq_div_pow]
    omega
  · have h1 : wordAt (completion f stat total) 10 = total.extractLsb' 0 32 := rfl
    have h2 : wordAt (completion f stat total) (10 + 1) = total.extractLsb' 32 32 := rfl
    rw [dwordAt, h1, h2]
    ext k hk
    simp only [BitVec.getElem_append, BitVec.getElem_extractLsb']
    split <;> simp_all

/-- A fetch that waits, whose time is over or not; with tries left, with none left and a further port up, and with none. -/
theorem witness_PartitionLifeAndEndpoints_fetch :
    (let s := formed {} [] 0
     (s.part 0).boot = none)
    ∧ (∀ tries ∈ [1, 4], ∀ ups ∈ [[0, 3], [0]], let f := { fetch0 with tries := tries }
      let s := fetching1 f ups [] 1000
      (s.part 0).boot = some f ∧ s.memberSlices 0 = [0] ∧ (s.port 0 f.port).st = 2 ∧ (f.tries < 4 ↔ tries = 1)
        ∧ (ups = [0, 3] → f.port < 3 ∧ (s.port 0 3).st = 2 ∧ ∀ r < 3, f.port < r → (s.port 0 r).st ≠ 2) ∧ (ups = [0] → ∀ r < 8, f.port < r → (s.port 0 r).st ≠ 2))
    ∧ (fetching1 fetch0 [0] [] 1000).now = 1000 ∧ (fetching1 fetch0 [0] [] 200000000).now = 200000000 := by
  refine ⟨by decide +kernel, by decide +kernel, rfl, rfl⟩

/-- Completions of each status, of no size, and of the size of an image with a body of 2 MiB or of none, whose header is not that of an image. (That an image verifies is not for
the machine to say.) -/
theorem witness_PartitionLifeAndEndpoints_completion (hk : keyBytes ≤ 2 ^ 20) :
    (∀ stat < 256, completes [] fetch0 (completion fetch0 stat 0) = true ∧ bitsOf (wordAt (completion fetch0 stat 0) 0) 15 8 = stat)
    ∧ completes [] fetch0 [] = false
    ∧ ∀ big : Bool, let s := fetching1 fetch0 [0] (if big then [(18, 0x20)] else []) 1000
      let want := 256 + (dwordAt (s.bootHeader 0) 4).toNat + 8240 + keyBytes
      let words := completion fetch0 0 (BitVec.ofNat 64 want)
      (dwordAt words 10).toNat = want ∧ want ≤ 2 ^ 36 ∧ (if big then fetch0.offset + 0x100000 < want else fetch0.offset < want) ∧ s.bootChecks 0 = false
        ∧ (0 : Nat) ≠ want := by
  refine ⟨fun stat h => ⟨(completion_completes fetch0 stat 0 h (by decide)).1, (completion_completes fetch0 stat 0 h (by decide)).2.1⟩, by decide +kernel, fun big => ?_⟩
  intro s want words
  have hb : (dwordAt (s.bootHeader 0) 4).toNat = if big then 0x200000 else 0 := by clear hk; cases big <;> decide +kernel
  have hw : want = 256 + (if big then 0x200000 else 0) + 8240 + keyBytes := by
    have : want = 256 + (dwordAt (s.bootHeader 0) 4).toNat + 8240 + keyBytes := rfl
    rw [this, hb]
  have hl : want ≤ 2 ^ 36 := by rw [hw]; split <;> omega
  have ho : fetch0.offset = 0 := rfl
  have hh : headerOk (s.bootHeader 0) 1 = false := by clear hk hb hw hl; cases big <;> decide +kernel
  refine ⟨?_, hl, ?_, ?_, ?_⟩
  · rw [(completion_completes fetch0 0 _ (by decide) (by decide)).2.2, BitVec.toNat_ofNat]
    omega
  · rw [ho, hw]
    cases big
    · simp
    · simp only [if_true]
      omega
  · simp only [State.bootChecks, hh, Bool.false_and]
  · rw [hw]
    omega

/-! ### Hand-overs -/

/-- Partition 0 of slices 0 and 1, partition 1 of slice 2. -/
def twoParts (move : Option Move) : State := { State.reset with prc := { regs := [(0x840, 0x100103), (0x841, 0x100104)], parts := [(0, { move := move })] } }

/-- MOVE of slice 1 from partition 0 to 1, of slice 0 of no other slice; abandons of none, of another, and of one that stands before step 3. -/
theorem witness_PartitionLifeAndEndpoints_move :
    (let w := frame16 (frameOf 0x12 [1 + 1 * 64]).words
     bitsOf (wordAt w 0) 7 0 = 0x12 ∧ bitsOf (wordAt w 0) 15 8 = 0 ∧ mvAbandon w = false ∧ (twoParts none).moveRefused w = false ∧ (formed {} [] 0).moveRefused w = true)
    ∧ (let w := frame16 (frameOf 0x12 [1 + 1 * 64 + 512]).words
       let y : Move := { slice := 1, toPart := 1 }
       mvAbandon w = true ∧ ((twoParts none).part (mvFrom w)).move = none ∧ ((twoParts (some y)).part (mvFrom w)).move = some y ∧ y.slice = mvSlice w ∧ y.toPart = mvTo w ∧ y.step < 3
        ∧ ({ y with step := 4 } : Move).step = 4) := by
  decide +kernel

/-! ### Endpoints -/

/-- Slice 0 with an endpoint function on port 0 in a state, and a byte of its page. -/
def served (stat : Word) (mask : Bool) (mem : Memory) : State :=
  { world mem with
    slices := [(0, { slice with
      regs := [(0x760, 0x80000), (0x4EB, stat), (0x78B, 0x10101), (0x790 + 88, 0x38), (0x790 + 89, 0x10000000000)],
      ep := [(0, [0x1000000, 20, 0x2000000])], epMask := if mask then [(0, true)] else [] })] }

theorem served_off (stat : Word) (mask : Bool) (mem : Memory) : (served stat mask mem).injectorOff := by
  have e : ∀ i, (served stat mask mem).sliceReg i 0x42C = (served 0 false []).sliceReg i 0x42C := fun i => by
    simp only [State.sliceReg, State.slice, served, tabGet]
    split <;> rfl
  have h : (served 0 false []).injectorOff := by unfold State.injectorOff; decide +kernel
  exact fun i => by rw [e]; exact h i

/-- Requests that are served and not, the doorbell, vectors that are masked and not, links, resets and configuration words. -/
theorem witness_PartitionLifeAndEndpoints_endpoint :
    (∀ bar2 : Bool, let s := served 3 false []
      let base := if bar2 then 0x2000000 else 0x1000000
      let size := if bar2 then 4096 else 2 ^ 20
      s.epBars 0 0 = (0x1000000, 20, 0x2000000) ∧ s.epServes 0 0 = true ∧ 0x40 + 8 ≤ size ∧ (∀ load, s.dykePort 0 11 (s.partOf! 0) true (base + 0x40) load (!load) = true)
        ∧ s.outsideReady (base + 0x40) 8 = true ∧ ¬0x40 + 9 ≤ 0x40 + 8)
    ∧ (served 1 false []).epServes 0 0 = false ∧ ((served 1 false []).epstat 0 0).getLsbD 0 = true ∧ ((served 1 false []).epstat 0 0).getLsbD 1 = false
    ∧ ((served 0 false []).epstat 0 0).getLsbD 0 = false
    ∧ tabGet false ((served 3 true []).slice 0).epMask 0 = true
    ∧ (tabGet false ((served 3 false []).slice 0).epMask 0 = false ∧ (memGet (served 3 false []).mem (0x2000000 + 0x800 + 12)).getLsbD 0 = false)
    ∧ (((served 3 false []).epstat 0 0).getLsbD 1 = true ∧ ((served 3 false []).epstat 0 0).getLsbD 2 = false) := by
  have hp : ∀ stat mask mem, (served stat mask mem).partOf! 0 = 0 := fun stat mask mem => by rw [State.partOf!, partOf_regs rfl]; rfl
  refine ⟨fun bar2 => ?_, ?_, ?_, ?_, ?_, ?_, ⟨?_, ?_⟩, ?_, ?_⟩
  · simp only [hp]
    clear hp
    cases bar2 <;> decide +kernel
  · decide +kernel
  · decide +kernel
  · decide +kernel
  · decide +kernel
  · decide +kernel
  · decide +kernel
  · have : memGet (served 3 false []).mem (0x2000000 + 0x800 + 12) = memGet [] (0x2000000 + 0x800 + 12) := memGet_high [] _ (by decide)
    rw [this]
    rfl
  · decide +kernel
  · decide +kernel

end Sys2Proof.Machine.Tests
end

section
namespace Sys2Proof.Machine

/-! ### Little-endian stores -/

@[simp] theorem length_natToBytes (x n : Nat) : (natToBytes x n).length = n := by
  induction n generalizing x with
  | zero => rfl
  | succ n ih => simp [natToBytes, ih]

/-- Byte `k` of a little-endian number (R2). -/
theorem getD_natToBytes {x n k : Nat} (h : k < n) : (natToBytes x n).getD k 0 = BitVec.ofNat 8 (x / 2 ^ (8 * k)) := by
  induction n generalizing x k with
  | zero => omega
  | succ n ih =>
    cases k with
    | zero => simp [natToBytes]
    | succ k =>
      rw [natToBytes, List.getD_cons_succ, ih (by omega), Nat.div_div_eq_div_mul]
      congr 2
      rw [show 8 * (k + 1) = 8 + 8 * k by omega, Nat.pow_add]

/-- Reading bytes back gives the number they were cut from, within their count (R2). -/
theorem bytesToNat_natToBytes (x n : Nat) : bytesToNat (natToBytes x n) = x % 2 ^ (8 * n) := by
  induction n generalizing x with
  | zero => simp [natToBytes, bytesToNat, Nat.mod_one]
  | succ n ih =>
    rw [natToBytes, bytesToNat, ih, BitVec.toNat_ofNat, show 8 * (n + 1) = 8 + 8 * n by omega, Nat.pow_add, Nat.mod_mul]

/-- A read is decided by the bytes it covers. -/
theorem memRead_eq {m : Memory} {a : Nat} {bs : List Byte} (h : ∀ k < bs.length, memGet m (a + k) = bs.getD k 0) : memRead m a bs.length = bs := by
  induction bs generalizing a with
  | nil => rfl
  | cons b bs ih =>
    have head := h 0 (by simp)
    have tail := ih (a := a + 1) fun k hk => by simpa [Nat.add_comm, Nat.add_left_comm] using h (k + 1) (by simpa using hk)
    simp only [List.length_cons, memRead, tail]
    simpa using head

/-- Every byte after a little-endian store (R2). -/
theorem memGet_memWriteLE (m : Memory) (a n x y : Nat) :
    memGet (memWriteLE m a n x) y = if a ≤ y ∧ y < a + n then BitVec.ofNat 8 (x / 2 ^ (8 * (y - a))) else memGet m y := by
  rw [memWriteLE, memGet_memWrite, length_natToBytes]
  split_ifs with h
  · exact getD_natToBytes (by omega)
  · rfl

/-- A little-endian store is read back (R2). -/
theorem memReadLE_memWriteLE (m : Memory) (a n x : Nat) : memReadLE (memWriteLE m a n x) a n = x % 2 ^ (8 * n) := by
  have read : memRead (memWriteLE m a n x) a (natToBytes x n).length = natToBytes x n := by
    refine memRead_eq fun k hk => ?_
    rw [length_natToBytes] at hk
    rw [memGet_memWriteLE, if_pos (by omega), getD_natToBytes hk, Nat.add_sub_cancel_left]
  rw [length_natToBytes] at read
  rw [memReadLE, read, bytesToNat_natToBytes]

/-- Settles O20: the store's bytes, the read back, and that the canonical form admits one memory for them. -/
theorem hbmBytes : Obligations.HbmBytes := by
  intro m a n x h
  have wf : Memory.wf (memWriteLE m a n x) = true := memWrite_wf m a _ h
  exact ⟨wf, memGet_memWriteLE m a n x, memReadLE_memWriteLE m a n x, fun _ h' e => Memory.ext_of_wf h' wf e⟩

end Sys2Proof.Machine
end

section
/-! PROOF. HBM and the chip scratchpads stay in canonical form (R2): the form is kept by every function of the model that changes a state,
by the instructions and events, and so by a step. A lemma `State.Canonical.f` says it of `f`; each follows the definition of `f`. -/

namespace Sys2Proof.Machine

/-- A table whose every value has a property reads one that has it. -/
theorem tabGet_of_all {α : Type} {P : α → Bool} {d : α} {t : Tab α} {i : Nat} (hd : P d = true) (ht : t.all (fun e => P e.2) = true) :
    P (tabGet d t i) = true := by
  induction t with
  | nil => exact hd
  | cons e t ih =>
    rw [List.all_cons, Bool.and_eq_true] at ht
    obtain ⟨k, v⟩ := e
    rw [tabGet]
    split_ifs
    · exact ht.1
    · exact ih ht.2

theorem all_tabSet {α : Type} {P : α → Bool} {t : Tab α} {i : Nat} {x : α} (hx : P x = true) (ht : t.all (fun e => P e.2) = true) :
    (tabSet t i x).all (fun e => P e.2) = true := by
  induction t with
  | nil => simpa [tabSet] using hx
  | cons e t ih =>
    rw [List.all_cons, Bool.and_eq_true] at ht
    unfold tabSet
    split_ifs
    · simp [hx, ht]
    · simp [hx, ht.2]
    · simp [ht.1, ih ht.2]

/-- HBM and every chip scratchpad are in canonical form. -/
def State.Canonical (s : State) : Prop := s.memoriesWf = true

theorem State.canonical_iff {s : State} : s.Canonical ↔ Memory.wf s.mem = true ∧ (s.prc.parts.all fun e => Memory.wf e.2.chip) = true := by
  rw [State.Canonical, State.memoriesWf, Bool.and_eq_true]

/-- A next state, if there is one, is canonical. -/
def Keeps (o : Host.Outcome State Fault Refusal) : Prop :=
  match o with
  | .next t => t.Canonical
  | _ => True

/-- The states that a result carries are canonical. -/
def QStep.Keeps (r : QStep) : Prop := match r with | .ready _ t => t.Canonical | .blocked _ => True
def Performed.Keeps (r : Performed) : Prop := match r with | .value t _ => t.Canonical | .fault t _ => t.Canonical | .miss => True
def EngDone.Keeps (r : EngDone) : Prop := match r with | .done t _ _ => t.Canonical | .wait t => t.Canonical | .fault t _ _ _ => t.Canonical
def Handled.Keeps (r : Handled) : Prop := match r with | .written t => t.Canonical | .held t => t.Canonical | _ => True

theorem Keeps.next {o : Host.Outcome State Fault Refusal} {t : State} (h : Keeps o) (e : o = .next t) : t.Canonical := by subst e; exact h
theorem QStep.Keeps.ready {r : QStep} {t : State} {x} (h : r.Keeps) (e : r = .ready x t) : t.Canonical := by subst e; exact h
theorem Performed.Keeps.value {r : Performed} {t : State} {x} (h : r.Keeps) (e : r = .value t x) : t.Canonical := by subst e; exact h
theorem Performed.Keeps.fault {r : Performed} {t : State} {x} (h : r.Keeps) (e : r = .fault t x) : t.Canonical := by subst e; exact h
theorem EngDone.Keeps.done {r : EngDone} {t : State} {x y} (h : r.Keeps) (e : r = .done t x y) : t.Canonical := by subst e; exact h
theorem EngDone.Keeps.wait {r : EngDone} {t : State} (h : r.Keeps) (e : r = .wait t) : t.Canonical := by subst e; exact h
theorem EngDone.Keeps.fault {r : EngDone} {t : State} {x y z} (h : r.Keeps) (e : r = .fault t x y z) : t.Canonical := by subst e; exact h
theorem Handled.Keeps.written {r : Handled} {t : State} (h : r.Keeps) (e : r = .written t) : t.Canonical := by subst e; exact h
theorem Handled.Keeps.held {r : Handled} {t : State} (h : r.Keeps) (e : r = .held t) : t.Canonical := by subst e; exact h
theorem State.Canonical.fst {α : Type} {q : State × α} {t : State} {x : α} (h : q.1.Canonical) (e : q = (t, x)) : t.Canonical := by subst e; exact h

section
variable {s : State} (h : s.Canonical)
include h

theorem State.Canonical.mem : Memory.wf s.mem = true := (State.canonical_iff.1 h).1
theorem State.Canonical.parts : (s.prc.parts.all fun e => Memory.wf e.2.chip) = true := (State.canonical_iff.1 h).2

/-- The canonical form speaks of HBM and the partitions alone. -/
theorem State.Canonical.upd {now slices grids nbhs asyncs started halts saved poison tileLocks leaseAll lineCov msis outRead kicks nextId fresh cur word
    schedule} :
    ({ mem := s.mem, prc := s.prc, now, slices, grids, nbhs, asyncs, started, halts, saved, poison, tileLocks, leaseAll, lineCov, msis, outRead, kicks, nextId,
       fresh, cur, word, schedule } : State).Canonical := h

theorem State.Canonical.updPrc {regs owners mgmt} : ({ s with prc := { parts := s.prc.parts, regs, owners, mgmt } } : State).Canonical := h

theorem State.Canonical.withMem {m : Memory} (hm : Memory.wf m = true) : ({ s with mem := m } : State).Canonical :=
  State.canonical_iff.2 ⟨hm, h.parts⟩

theorem State.Canonical.writeMem {a bs} : ({ s with mem := memWrite s.mem a bs } : State).Canonical := h.withMem (memWrite_wf _ _ _ h.mem)

theorem State.Canonical.ite {t : State} {p : Prop} {_ : Decidable p} (ht : t.Canonical) : (if p then s else t).Canonical := by
  split_ifs
  · exact h
  · exact ht

theorem State.Canonical.foldl {α : Type} {f : State → α → State} {l : List α} (hf : ∀ {t : State} (x : α), t.Canonical → (f t x).Canonical) :
    (l.foldl f s).Canonical := by
  induction l generalizing s with
  | nil => exact h
  | cons x xs ih => exact ih (hf x h)
end

/-- A fold that carries a value beside the state. -/
theorem State.Canonical.foldlFst {α β : Type} {f : State × β → α → State × β} {l : List α} {q : State × β} (h : q.1.Canonical)
    (hf : ∀ {r : State × β} (x : α), r.1.Canonical → (f r x).1.Canonical) : (l.foldl f q).1.Canonical := by
  induction l generalizing q with
  | nil => exact h
  | cons x xs ih => exact ih (hf x h)

theorem State.Canonical.itePair {α : Type} {q r : State × α} {p : Prop} {_ : Decidable p} (hq : q.1.Canonical) (hr : r.1.Canonical) :
    (if p then q else r).1.Canonical := by
  split_ifs
  · exact hq
  · exact hr

/-! ### State -/

section
variable {s : State} (h : s.Canonical)
include h

omit h in
theorem State.Canonical.reset : State.reset.Canonical := rfl

end

/-! ### Ops -/

section
variable {s : State} (h : s.Canonical)
include h

theorem State.Canonical.setSlice {i v} : (s.setSlice i v).Canonical := h.upd
theorem State.Canonical.modSlice {i f} : (s.modSlice i f).Canonical := h.setSlice
theorem State.Canonical.setCore {c v} : (s.setCore c v).Canonical := h.setSlice
theorem State.Canonical.modCore {c f} : (s.modCore c f).Canonical := h.setCore
theorem State.Canonical.setGroup {g v} : (s.setGroup g v).Canonical := h.setCore
theorem State.Canonical.modGroup {g f} : (s.modGroup g f).Canonical := h.setGroup
theorem State.Canonical.modPuppet {c f} : (s.modPuppet c f).Canonical := h.modCore

theorem State.Canonical.modSc {a f} : (s.modSc a f).Canonical := by
  unfold State.modSc
  split
  · exact h
  · exact h.modGroup
  · exact h.modGroup
  · exact h.modPuppet

theorem State.Canonical.setSreg {r v} : (s.setSreg r v).Canonical := h.modSc
theorem State.Canonical.setSpc {v} : (s.setSpc v).Canonical := h.modSc
theorem State.Canonical.advance : (s.advance).Canonical := h.setSpc
theorem State.Canonical.draw : (s.draw).Canonical := h.upd
theorem State.Canonical.setCoreReg {c n v} : (s.setCoreReg c n v).Canonical := h.modCore
theorem State.Canonical.setSliceReg {i n v} : (s.setSliceReg i n v).Canonical := h.modSlice
theorem State.Canonical.setPrcReg {n v} : (s.setPrcReg n v).Canonical := h.updPrc

/-- The chip scratchpad of a partition is one of those listed, or empty. -/
theorem State.Canonical.part {p} : Memory.wf (s.part p).chip = true :=
  tabGet_of_all (P := fun x : Part => Memory.wf x.chip) rfl h.parts
theorem State.Canonical.modPart_wf {p f} (hf : Memory.wf (f (s.part p)).chip = true) : (s.modPart p f).Canonical :=
  State.canonical_iff.2 ⟨h.mem, all_tabSet (P := fun x : Part => Memory.wf x.chip) hf h.parts⟩
theorem State.Canonical.modPart {p f} (hf : (f (s.part p)).chip = (s.part p).chip := by rfl) : (s.modPart p f).Canonical :=
  h.modPart_wf (hf ▸ h.part)

theorem State.Canonical.modGrid {n f} : (s.modGrid n f).Canonical := h.upd

theorem State.Canonical.modWg {c n f} : (s.modWg c n f).Canonical := by
  unfold State.modWg
  split
  · exact h.modCore
  · exact h

theorem State.Canonical.takeId : (s.takeId).Canonical := h.upd
theorem State.Canonical.raiseSource {i src} : (s.raiseSource i src).Canonical := h.setSliceReg.upd.ite h.setSliceReg

theorem State.Canonical.raisePartSource {p src} : (s.raisePartSource p src).Canonical := by
  unfold State.raisePartSource
  split
  · exact h.raiseSource
  · exact h

theorem State.Canonical.fwEvent {c kind arg} : (s.fwEvent c kind arg).Canonical := h.modPuppet
theorem State.Canonical.fwEventAll {p kind arg} : (s.fwEventAll p kind arg).Canonical := h.foldl fun _ h => h.fwEvent
theorem State.Canonical.count {c code ten} : (s.count c code ten).Canonical := h.foldl fun _ h => h.setCoreReg.ite h
theorem State.Canonical.countFor {a code} : (s.countFor a code).Canonical := h.ite h.count
theorem State.Canonical.waitAgent {a w m} : (s.waitAgent a w m).Canonical := (h.countFor.ite h).modSc
theorem State.Canonical.waitFor {w m} : (s.waitFor w m).Canonical := h.waitAgent
theorem State.Canonical.waitOn {w} : (s.waitOn w).Canonical := h.waitFor
theorem State.Canonical.bumpCoreReg {c n} : (s.bumpCoreReg c n).Canonical := h.setCoreReg

theorem State.Canonical.addUsage {p uid f} : (s.addUsage p uid f).Canonical :=
  h.modPart (by split_ifs <;> rfl)

theorem State.Canonical.countHbm {p uid n} : (s.countHbm p uid n).Canonical := h.addUsage
theorem State.Canonical.windowMiss {a} : (s.windowMiss a).Canonical := h.ite h.bumpCoreReg.countFor

end

/-! ### Faults -/

section
variable {s : State} (h : s.Canonical)
include h

theorem State.Canonical.otherHalf {g id f} : (s.otherHalf g id f).Canonical := by
  unfold State.otherHalf
  dsimp only
  split
  · exact h.modGroup
  · exact h.upd

theorem State.Canonical.endHalves {id} : (s.endHalves id).Canonical := (h.foldl fun _ h => h.modGroup.ite h).upd

theorem State.Canonical.endPair {g} : (s.endPair g).Canonical := by
  unfold State.endPair
  split
  · exact h
  · exact h.modGroup.endHalves

theorem State.Canonical.dropPosts {g} : (s.dropPosts g).Canonical := h.upd
theorem State.Canonical.spoilReg {c n} : (s.spoilReg c n).Canonical := h.modCore.draw

theorem State.Canonical.abandonMove {c mine} : (s.abandonMove c mine).Canonical := by
  unfold State.abandonMove
  split
  · exact (h.foldl fun _ h => h.spoilReg).ite h
  · exact h

theorem State.Canonical.haltGroup {g} : (s.haltGroup g).Canonical := h.ite h.modGroup.endPair
theorem State.Canonical.haltMatrix {c inDom} : (s.haltMatrix c inDom).1.Canonical := h.abandonMove.modCore
theorem State.Canonical.dropAsyncs {gone} : (s.dropAsyncs gone).Canonical := h.upd
theorem State.Canonical.haltEngines {p dom} : (s.haltEngines p dom).1.Canonical := h.dropAsyncs.upd

theorem State.Canonical.raiseHalt {p dom cause raiser} : (s.raiseHalt p dom cause raiser).Canonical := by
  unfold State.raiseHalt
  split
  · exact h
  · have halted : ((s.domainGroups p dom).foldl State.haltGroup s).Canonical := h.foldl fun _ h => h.haltGroup
    dsimp only
    refine .upd (.haltEngines (.foldlFst halted fun _ h => ?_))
    exact h.haltMatrix

theorem State.Canonical.puppetFault {c cause pc} : (s.puppetFault c cause pc).Canonical :=
  h.setCoreReg.setCoreReg.modPuppet.ite h.setCoreReg.setCoreReg.modPuppet

theorem State.Canonical.groupFault {g c precise lane split addr detail word} : (s.groupFault g c precise lane split addr detail word).Canonical :=
  h.modGroup.upd.ite (h.modGroup.ite h.modGroup.raiseHalt)

theorem State.Canonical.raiseWith {c addr} : (s.raiseWith c addr).Canonical := by
  unfold State.raiseWith
  split
  · exact h
  · exact h.groupFault
  · exact h.groupFault
  · exact h.puppetFault

theorem State.Canonical.raise {c} : (s.raise c).Canonical := h.raiseWith

theorem State.Canonical.raiseAfar {a c addr detail word pc} : (s.raiseAfar a c addr detail word pc).Canonical := by
  unfold State.raiseAfar
  split
  · exact h
  · exact h.groupFault.ite h
  · exact h.groupFault.ite h
  · exact h.puppetFault

theorem State.Canonical.unitFault {kind g grid wg pc c addr detail instr} : (s.unitFault kind g grid wg pc c addr detail instr).Canonical :=
  (h.raiseHalt.ite h).upd

end

/-! ### Operands -/

section
variable {s : State} (h : s.Canonical)
include h

theorem State.Canonical.setEntries {q es} : (s.setEntries q es).Canonical := h.modCore

theorem State.Canonical.popAll {g pops acc} : (s.popAll g pops acc).Keeps := by
  induction pops generalizing s acc with
  | nil => exact h
  | cons n ns ih =>
    unfold State.popAll
    split
    · trivial
    · split
      · trivial
      · exact ih h.setEntries

theorem State.Canonical.stepNames {g pops dst} : (s.stepNames g pops dst).Keeps := by
  unfold State.stepNames
  split
  · next e =>
    split
    · trivial
    · split
      · exact h.popAll.ready e
      · trivial
  · exact h.popAll

theorem State.Canonical.queueStep {g no i w} : (s.queueStep g no i w).Keeps := by
  unfold State.queueStep
  split
  · next e =>
    split
    · trivial
    · exact h.stepNames.ready e
  · exact h.stepNames

theorem State.Canonical.fillEntry {op wide acted vals} : (s.fillEntry op wide acted vals).Canonical := (h.foldl fun _ h => h.modCore).upd

theorem State.Canonical.writeResult {g dst wide acted zero cap op vals t} : (s.writeResult g dst wide acted zero cap op vals t).Canonical := by
  unfold State.writeResult
  dsimp only
  split
  · split
    · split
      · exact h.modGroup
      · exact h.modGroup.setEntries
    · exact h.modGroup.fillEntry
  · exact h.modGroup

theorem State.Canonical.reserveEntry {g dst old op} : (s.reserveEntry g dst old op).Canonical := by
  unfold State.reserveEntry
  dsimp only
  split
  · split
    · split
      · exact h
      · exact h.setEntries
    · exact h.foldl fun _ h => h.modCore
  · exact h

end

/-! ### Inject -/

section
variable {s : State} (h : s.Canonical)
include h

theorem State.Canonical.seepCross {i n v} : (s.seepCross i n v).Canonical :=
  (h.setSliceReg.raiseSource.ite h.setSliceReg).updPrc

theorem State.Canonical.correctedError {i n} : (s.correctedError i n).Canonical := h.modSlice.seepCross.ite h.modSlice

theorem State.Canonical.opportunity {i kind} : (s.opportunity i kind).1.Canonical := by
  unfold State.opportunity
  dsimp only
  split
  · split
    · exact h.setSliceReg.setSliceReg
    · exact h.setSliceReg
  · exact h

theorem State.Canonical.injectCorrected {i kind index} : (s.injectCorrected i kind index).Canonical := by
  unfold State.injectCorrected
  split
  · next e => exact (h.opportunity.fst e).draw.correctedError
  · next e => exact (h.opportunity.fst e)

theorem State.Canonical.readErrors {home holder pa fill} : (s.readErrors home holder pa fill).1.Canonical := by
  unfold State.readErrors
  cases fill
  · exact h.opportunity.opportunity.raiseSource.ite h.opportunity.opportunity
  · exact h.injectCorrected.opportunity.opportunity.opportunity.raiseSource.ite h.injectCorrected.opportunity.opportunity.opportunity

theorem State.Canonical.scratchErrors {c} : (s.scratchErrors c).Canonical := h.injectCorrected

theorem State.Canonical.beatErrors {c n} : (s.beatErrors c n).Canonical := by
  induction n generalizing s with
  | zero => exact h
  | succ n ih => exact ih h.injectCorrected

theorem State.Canonical.maskErrors {g} : (s.maskErrors g).Canonical := by
  unfold State.maskErrors
  split
  · next e => exact (h.opportunity.fst e).draw.modGroup
  · next e => exact (h.opportunity.fst e)

theorem State.Canonical.headerErrors {i h'} : (s.headerErrors i h').1.Canonical := by
  unfold State.headerErrors
  dsimp only
  split
  · next e => exact (h.opportunity.fst e).draw
  · next e => exact (h.opportunity.fst e)

end

/-! ### Mem -/

section
variable {s : State} (h : s.Canonical)
include h

theorem State.Canonical.hitOps {c space off n} : (s.hitOps c space off n).Canonical := h.ite h.modCore
theorem State.Canonical.hitSpad {c off n} : (s.hitSpad c off n).Canonical := h.hitOps.modCore.ite h.hitOps

theorem State.Canonical.chipWrite {pl bs} : (s.chipWrite pl bs).Canonical := by
  unfold State.chipWrite
  split
  · exact (h.hitSpad.ite h).modWg
  · exact h.modWg
  · exact h.modPart_wf (memWrite_wf _ _ _ h.part)
  · exact h

theorem State.Canonical.noteFull {i before} : (s.noteFull i before).Canonical := h.raiseSource.ite h

theorem State.Canonical.emitRecord {i key e} : (s.emitRecord i key e).Canonical :=
  h.writeMem.setSliceReg.raiseSource.noteFull

theorem State.Canonical.record {i key e} : (s.record i key e).Canonical := h.emitRecord.ite (h.modSlice.modSlice.raiseSource.ite h.modSlice)
theorem State.Canonical.enterBog {i key e} : (s.enterBog i key e).Canonical := h.modSlice.ite h.modSlice.record

theorem State.Canonical.park {p asid va k who} : (s.park p asid va k who).Canonical := by
  unfold State.park
  dsimp only
  split
  · exact h.countFor.enterBog.ite h.countFor.modSlice
  · exact h.countFor.modSlice

theorem State.Canonical.pumpMisses {i n} : (s.pumpMisses i n).Canonical := by
  induction n generalizing s with
  | zero => exact h
  | succ n ih =>
    unfold State.pumpMisses
    split
    · exact (ih h.modSlice.emitRecord).ite h
    · split
      · exact h
      · exact ih h.modSlice.enterBog

theorem State.Canonical.pump {i} : (s.pump i).Canonical := h.pumpMisses
theorem State.Canonical.occFill {i seg asid} : (s.occFill i seg asid).Canonical := h.modSlice
theorem State.Canonical.occDrop {i seg asid} : (s.occDrop i seg asid).Canonical := h.modSlice

theorem State.Canonical.transfer {i ctl p a n} : (s.transfer i ctl p a n).Canonical := by
  unfold State.transfer
  dsimp only
  split
  · exact h.countHbm
  · exact h.countHbm.modSlice

theorem State.Canonical.dropLine {i pl} : (s.dropLine i pl).Canonical := by
  unfold State.dropLine
  split
  · exact h
  · exact h.modSlice.occDrop

theorem State.Canonical.makeRoom {i seg p asid} : (s.makeRoom i seg p asid).Canonical := by
  unfold State.makeRoom
  split
  · exact h
  · split
    · exact h.dropLine
    · exact h

theorem State.Canonical.holdLine {i seg pl key hc p a} : (s.holdLine i seg pl key hc p a).Canonical := by
  unfold State.holdLine
  dsimp only
  split
  · exact h.modSlice
  · exact h.makeRoom.modSlice.occFill.transfer

theorem State.Canonical.grantLease {i pl exp} : (s.grantLease i pl exp).Canonical := h.modSlice.upd
theorem State.Canonical.noteWrite {i pl t} : (s.noteWrite i pl t).Canonical := h.modSlice.upd
theorem State.Canonical.observe {a pl} : (s.observe a pl).Canonical := h.ite h.modSc.modCore
theorem State.Canonical.hbmWrite {pa bs} : (s.hbmWrite pa bs).Canonical := h.writeMem.upd
theorem State.Canonical.hbmStore {pa bs} : (s.hbmStore pa bs).Canonical := h.hbmWrite.foldl fun _ h => h.hitOps
theorem State.Canonical.l1Fill {c x2} : (s.l1Fill c x2).Canonical := h.modCore
theorem State.Canonical.l1Update {c pa bs} : (s.l1Update c pa bs).Canonical := h.modCore
theorem State.Canonical.l1Drop {c pl} : (s.l1Drop c pl).Canonical := h.modCore
theorem State.Canonical.l1Stale {c pl} : (s.l1Stale c pl).Canonical := h.l1Drop.ite h
theorem State.Canonical.epAbort {t port} : (s.epAbort t port).Canonical := h.setSliceReg

theorem State.Canonical.chipSeen {g pl n} : (s.chipSeen g pl n).1.Canonical := by
  unfold State.chipSeen
  dsimp only
  split
  · split
    · exact h.draw
    · exact h
  · exact h

theorem State.Canonical.performChip {a k n pl value expect} : (s.performChip a k n pl value expect).1.Canonical := by
  unfold State.performChip
  dsimp only
  split
  · exact h.windowMiss
  · split
    · refine .chipSeen ?_
      split
      · exact h
      · exact h.scratchErrors
      · exact h.scratchErrors
      · exact h
    · refine .chipWrite ?_
      refine .chipSeen ?_
      split
      · exact h
      · exact h.scratchErrors
      · exact h.scratchErrors
      · exact h

theorem State.Canonical.fillL1 {a p asid va pa hc k i key name} : (s.fillL1 a p asid va pa hc k i key name).Canonical :=
  h.grantLease.l1Fill.ite h.l1Stale

theorem State.Canonical.poisonLine {pl} : (s.poisonLine pl).Canonical := h.ite h.upd

theorem State.Canonical.readLine {i t pa n} : (s.readLine i t pa n).1.Canonical := by
  unfold State.readLine
  dsimp only
  split
  · exact h.readErrors
  · split
    · exact h.readErrors.poisonLine
    · exact h.readErrors

theorem State.Canonical.performGlobal {a p asid va k n value expect} : (s.performGlobal a p asid va k n value expect).Keeps := by
  unfold State.performGlobal
  dsimp only
  split
  · trivial
  · exact h
  · split
    · generalize hq : (if k = AccKind.store then _ else _) = q
      have hq' : q.1.Canonical := by
        subst hq
        split_ifs
        · exact h
        · exact h
        · exact h.readLine
      split
      · exact hq'
      · split
        · exact hq'.holdLine.modSc.observe.fillL1
        · exact (hq'.holdLine.hbmStore.noteWrite.observe.l1Update.ite hq'.holdLine.hbmStore.noteWrite.observe.l1Drop).modSc
    · split
      · exact h.epAbort
      · split
        · exact h
        · exact h.draw
    · split
      · exact h.upd
      · exact h
    · exact h

theorem State.Canonical.performAcc {a k n x4} : (s.performAcc a k n x4).Keeps := by
  unfold State.performAcc
  dsimp only
  split
  · exact h
  · exact h.performGlobal
  · exact h.performChip

theorem State.Canonical.deliver {a o} : (s.deliver a o).Canonical := by
  unfold State.deliver
  dsimp only
  split
  · exact h.modSc
  · exact h.modSc.modSc
  · split
    · exact h.modSc
    · exact h.modSc.writeResult.modGroup

theorem State.Canonical.setOp {a o} : (s.setOp a o).Canonical := h.modSc
theorem State.Canonical.dropOp {a o c addr} : (s.dropOp a o c addr).Canonical := h.modSc.raiseAfar

theorem State.Canonical.performAll {a o todo} : (s.performAll a o todo).1.Canonical := by
  induction todo generalizing s o with
  | nil => exact h
  | cons x rest ih =>
    unfold State.performAll
    split
    · next e => exact ih (h.performAcc.value e)
    · next e => exact (h.performAcc.fault e).dropOp
    · split
      · dsimp only
        split
        · dsimp only
          exact h.park
        · exact ih h.park
      · exact ih h

theorem State.Canonical.dropFences {a n} : (s.dropFences a n).Canonical := by
  induction n generalizing s with
  | zero => exact h
  | succ n ih =>
    unfold State.dropFences
    split
    · split
      · exact ih h.modSc
      · exact h
    · exact h

theorem State.Canonical.performOp {a o todo} : (s.performOp a o todo).Canonical := by
  unfold State.performOp
  split
  · next e => exact (h.performAll.fst e)
  · next e => exact (h.performAll.fst e).deliver.ite (h.performAll.fst e).setOp

theorem State.Canonical.performLocal {a o todo} : (s.performLocal a o todo).1.Canonical := by
  induction todo generalizing s o with
  | nil => exact h
  | cons x rest ih =>
    unfold State.performLocal
    split
    · refine ih (.countFor ?_)
      split
      · exact h.observe
      · exact h
    · exact ih h.performChip

theorem State.Canonical.issueOp {o vas} : (s.issueOp o vas).Canonical := by
  unfold State.issueOp
  extract_lets a reserved o₁ s₁ before es o₂ local' s₂ s₃
  have h₂ : s₂.Canonical := by
    unfold s₂
    split
    · exact h.takeId.reserveEntry
    · exact h.takeId
  split
  · exact h₂.performLocal.deliver
  · refine .modSc (.ite (h₂.foldl fun _ h => ?_) h₂)
    split
    · exact h.countFor
    · exact h

end

/-! ### Issue -/

section
variable {s : State} (h : s.Canonical)
include h

omit h in
theorem State.Canonical.unread {t} (ht : t.Canonical) : (s.unread t).Canonical := ht.modSc.ite ht

theorem State.Canonical.issue {f act} (hact : ∀ {t : State}, t.Canonical → (act t).Canonical) : (s.issue f act).Canonical := by
  unfold State.issue
  dsimp only
  split
  · exact h.raise
  · exact h.waitFor.ite (h.waitFor.ite (h.raise.ite (.unread (hact h.modSc))))

theorem State.Canonical.result {d v} : (s.result d v).Canonical := h.setSreg.advance
theorem State.Canonical.setPending {d} : (s.setPending d).Canonical := h.ite h.modSc
theorem State.Canonical.writeToken {f d v wct} : (s.writeToken f d v wct).Canonical := h.modSc

theorem State.Canonical.afterLanes {act} (hact : ∀ {t : State}, t.Canonical → (act t).Canonical) : (s.afterLanes act).Canonical :=
  (hact h).ite h.waitOn

end

/-! ### Branch -/

section
variable {s : State} (h : s.Canonical)
include h

theorem State.Canonical.branch {a b off cond} : (s.branch a b off cond).Canonical := h.issue (fun h => h.setSpc.ite h.advance)
theorem State.Canonical.execBeq {a b off} : Keeps (execBeq a b off s) := h.branch
theorem State.Canonical.execBne {a b off} : Keeps (execBne a b off s) := h.branch
theorem State.Canonical.execBlt {a b off} : Keeps (execBlt a b off s) := h.branch
theorem State.Canonical.execBge {a b off} : Keeps (execBge a b off s) := h.branch
theorem State.Canonical.execBltn {a b off} : Keeps (execBltn a b off s) := h.branch
theorem State.Canonical.execBgen {a b off} : Keeps (execBgen a b off s) := h.branch
theorem State.Canonical.execBr {off} : Keeps (execBr off s) := h.issue (fun h => h.setSpc)
theorem State.Canonical.execCall {off} : Keeps (execCall off s) := h.issue (fun h => h.setSreg.setSpc)
theorem State.Canonical.execJr {a} : Keeps (execJr a s) := h.issue (fun h => h.setSpc)
theorem State.Canonical.execCallr {a} : Keeps (execCallr a s) := h.issue (fun h => h.setSreg.setSpc)
theorem State.Canonical.execRet : Keeps (execRet s) := h.issue (fun h => h.setSpc)
theorem State.Canonical.debugStop {g} : (s.debugStop g).Canonical := h.modGroup.raiseSource
theorem State.Canonical.execTrap {code} : Keeps (execTrap code s) := h.raiseWith

theorem State.Canonical.execBrk {code} : Keeps (execBrk code s) :=
  h.issue (fun h => by
    split
    · exact h.advance.modGroup.debugStop.ite h.advance
    · exact h.advance)

end

/-! ### Lanes -/

section
variable {s : State} (h : s.Canonical)
include h

theorem State.Canonical.splitWait {g k w} : (s.splitWait g k w).Canonical := (h.countFor.takeId.ite h).modGroup
theorem State.Canonical.laneNext {g k} : (s.laneNext g k).Canonical := h.modGroup

omit h in
theorem State.Canonical.laneStep {t g k i w pops act} (ht : t.Canonical) (hact : ∀ {x} {t : State}, t.Canonical → (act x t).Canonical) :
    (s.laneStep t g k i w pops act).Canonical :=
  (hact ht.modGroup).ite ht.modGroup.takeId.reserveEntry.modGroup

theorem State.Canonical.laneIssue {i w act} (hact : ∀ {x} {t : State}, t.Canonical → (act x t).Canonical) : (s.laneIssue i w act).Canonical := by
  unfold State.laneIssue
  dsimp only
  split
  · split
    · exact (hact h.modGroup).ite h
    · split
      · exact h.raise
      · split
        · exact h.raise
        · split
          · exact h.splitWait
          · split
            · exact h.countFor.raise
            · split
              · exact h.raise
              · split
                · exact h.splitWait
                · next e => exact .laneStep (h.queueStep.ready e) (fun h => hact h)
  · exact h

theorem State.Canonical.laneWaiting {i w start goOn} (hstart : ∀ {x} {t : State}, t.Canonical → (start x t).1.Canonical) (hgoOn : ∀ {x} {x1} {t
    : State}, t.Canonical → (goOn x x1 t).Canonical) : (s.laneWaiting i w start goOn).Canonical := by
  unfold State.laneWaiting
  dsimp only
  split
  · split
    · exact (h.laneIssue (fun h => hgoOn ((hstart h).takeId.reserveEntry.ite (hstart h)).modGroup)).ite (hgoOn h)
    · exact h.laneIssue (fun h => hgoOn ((hstart h).takeId.reserveEntry.ite (hstart h)).modGroup)
  · exact h

theorem State.Canonical.laneDone {x1 h' w vals} : (s.laneDone x1 h' w vals).Canonical := h.modGroup.writeResult.laneNext
theorem State.Canonical.laneCompute {i w f} : (s.laneCompute i w f).Canonical := h.laneIssue (fun h => h.modGroup.writeResult.laneNext)

end

/-! ### LaneStream -/

section
variable {s : State} (h : s.Canonical)
include h

theorem State.Canonical.appendLane {e} : (s.appendLane e).Canonical := by
  unfold State.appendLane
  split
  · exact h.modGroup.advance.ite h.waitOn
  · exact h

theorem State.Canonical.execLrun {a i} : Keeps (execLrun a i s) := h.issue (fun h => h.appendLane)
theorem State.Canonical.doLput {n wide a i} : (s.doLput n wide a i).Canonical := h.issue (fun h => h.appendLane.ite h.raise)

theorem State.Canonical.doLget {d n wide b i} : (s.doLget d n wide b i).Canonical :=
  h.issue (fun h => h.raise.ite (h.waitOn.ite h.appendLane.setPending))

theorem State.Canonical.execLput {n a} : Keeps (execLput n a s) := h.doLput
theorem State.Canonical.execLputW {n a} : Keeps (execLputW n a s) := h.doLput
theorem State.Canonical.execLget {d n b} : Keeps (execLget d n b s) := h.doLget
theorem State.Canonical.execLgetW {d n b} : Keeps (execLgetW d n b s) := h.doLget
theorem State.Canonical.execLsync : Keeps (execLsync s) := h.issue (fun h => h.afterLanes (fun h => h.advance))
theorem State.Canonical.execSigrst : Keeps (execSigrst s) := h.issue (fun h => h.appendLane)
theorem State.Canonical.execLaneBlockStart {g} : Keeps (execLaneBlockStart g s) := h.modGroup
theorem State.Canonical.execLputEntryTaken {g} : Keeps (execLputEntryTaken g s) := h.modGroup

theorem State.Canonical.execLgetEntryTaken {g} : Keeps (execLgetEntryTaken g s) := by
  unfold Machine.execLgetEntryTaken
  dsimp only
  split
  · exact (h.modGroup.ite h.modGroup.writeToken).ite h
  · exact h

theorem State.Canonical.execSigrstEntryTaken {g} : Keeps (execSigrstEntryTaken g s) := h.modGroup
theorem State.Canonical.execSplitStarvationDemote {g} : Keeps (execSplitStarvationDemote g s) := h.modGroup
theorem State.Canonical.execJoinTimeout {g rec} : Keeps (execJoinTimeout g rec s) := h.modGroup

end

/-! ### Fetch -/

section
variable {s : State} (h : s.Canonical)
include h

theorem State.Canonical.putCode {i cluster ws} : (s.putCode i cluster ws).Canonical := h.modSlice
theorem State.Canonical.dropCode {i cluster asid} : (s.dropCode i cluster asid).Canonical := h.modSlice

theorem State.Canonical.setFrozen {f b} : (s.setFrozen f b).Canonical := by
  unfold State.setFrozen
  split
  · exact h.modGroup
  · exact h.modSc

theorem State.Canonical.execFetchMiss {f} : Keeps (execFetchMiss f s) := by
  unfold Machine.execFetchMiss
  dsimp only
  split
  · exact h
  · exact h.ite h.bumpCoreReg.count.setFrozen

theorem State.Canonical.codeUse {a addr} : (s.codeUse a addr).1.Canonical := by
  unfold State.codeUse
  dsimp only
  split
  · split
    · split
      · split
        · next e =>
          dsimp only
          exact (h.readLine.fst e).holdLine
        · exact h.readLine
      · exact h
    · exact h
  · exact h

theorem State.Canonical.execFetchFill {f} : Keeps (execFetchFill f s) := by
  unfold Machine.execFetchFill
  dsimp only
  split
  · exact h.setFrozen
  · split
    · exact h
    · split
      · split
        · next e => exact (h.codeUse.fst e).putCode.setFrozen
        · next e => exact (h.codeUse.fst e).setFrozen.raiseAfar
      · exact h.park
      · exact h.setFrozen.raiseAfar

end

/-! ### ScalarMem -/

section
variable {s : State} (h : s.Canonical)
include h

theorem State.Canonical.scalarAccess {kind n signed va value expect dest order scope} :
    (s.scalarAccess kind n signed va value expect dest order scope).Canonical :=
  h.issueOp

theorem State.Canonical.execLds {d a wid off} : Keeps (execLds d a wid off s) := h.issue (fun h => h.scalarAccess.advance)
theorem State.Canonical.execSts {d a wid off} : Keeps (execSts d a wid off s) := h.issue (fun h => h.scalarAccess.advance)
theorem State.Canonical.execAmos {d a b op order scope} : Keeps (execAmos d a b op order scope s) := h.issue (fun h => h.scalarAccess.advance)

theorem State.Canonical.execFence {order scope} : Keeps (execFence order scope s) :=
  h.issue (fun h => h.waitOn.ite (h.advance.ite h.takeId.modSc.advance))

theorem State.Canonical.execMwatch {d a} : Keeps (execMwatch d a s) := h.issue (fun h => h.modSc.scalarAccess.advance)

theorem State.Canonical.readWatch {a n lane va} : (s.readWatch a n lane va).Keeps := by
  unfold State.readWatch
  dsimp only
  split
  · exact h.performAcc
  · exact trivial

theorem State.Canonical.parkWatch {a va} : (s.parkWatch a va).Canonical := by
  unfold State.parkWatch
  dsimp only
  split
  · split
    · exact h.ite h.park
    · exact h
  · exact h

theorem State.Canonical.execMwaitv {d a b} : Keeps (execMwaitv d a b s) :=
  h.issue (fun h => by
    dsimp only
    split
    · exact h.result
    · split
      · next e => exact (h.readWatch.value e).result.ite ((h.readWatch.value e).result.ite (h.readWatch.value e).modSc.waitOn)
      · exact h.result.ite h.parkWatch.modSc.waitOn
      · next e => exact (h.readWatch.fault e).raiseAfar)

end

/-! ### Active -/

section
variable {s : State} (h : s.Canonical)
include h

theorem State.Canonical.setGState {g st} : (s.setGState g st).Canonical := h.modGroup

theorem State.Canonical.admitNext {c} : (s.admitNext c).Canonical := by
  unfold State.admitNext
  split
  · split
    · exact h.setGState.modGroup
    · exact h
  · exact h

theorem State.Canonical.execGroupAdmit {c} : Keeps (execGroupAdmit c s) := h.admitNext
theorem State.Canonical.ageGroup {g} : (s.ageGroup g).Canonical := h.modGroup.ite h
theorem State.Canonical.execAdmissionAgeing {g} : Keeps (execAdmissionAgeing g s) := h.ageGroup
theorem State.Canonical.remoteBlock {g} : (s.remoteBlock g).Canonical := h.modGroup.ite h
theorem State.Canonical.execRemoteLoadBlock {g} : Keeps (execRemoteLoadBlock g s) := h.remoteBlock

theorem State.Canonical.performNth {a k ok} : (s.performNth a k ok).Canonical := by
  unfold State.performNth
  split
  · exact h
  · exact h.performOp.ite h

theorem State.Canonical.execRemoteLoadReply {f k} : Keeps (execRemoteLoadReply f k s) := h.performNth
theorem State.Canonical.execStorePerformedAtHome {f k} : Keeps (execStorePerformedAtHome f k s) := h.performNth
theorem State.Canonical.execWriteCompleteAtScope {f} : Keeps (execWriteCompleteAtScope f s) := h.dropFences.modSc.ite h.dropFences
theorem State.Canonical.execL1LeaseExpiry {c line} : Keeps (execL1LeaseExpiry c line s) := h.modCore

theorem State.Canonical.execMemorySideFault {f code addr detail} : Keeps (execMemorySideFault f code addr detail s) := by
  unfold Machine.execMemorySideFault
  split
  · exact h.raiseAfar
  · exact h

end

/-! ### LaneInt -/

section
variable {s : State} (h : s.Canonical)
include h

theorem State.Canonical.laneArith {i w f tag} : (s.laneArith i w f tag).Canonical := h.laneCompute
theorem State.Canonical.laneBits {i w f tag} : (s.laneBits i w f tag).Canonical := h.laneCompute
theorem State.Canonical.execIadd {w} : Keeps (execIadd w s) := h.laneArith
theorem State.Canonical.execIsub {w} : Keeps (execIsub w s) := h.laneArith
theorem State.Canonical.execImul {w} : Keeps (execImul w s) := h.laneArith
theorem State.Canonical.execImad {w} : Keeps (execImad w s) := h.laneArith
theorem State.Canonical.execImulh {w} : Keeps (execImulh w s) := h.laneArith
theorem State.Canonical.execIabs {w} : Keeps (execIabs w s) := h.laneArith
theorem State.Canonical.execIneg {w} : Keeps (execIneg w s) := h.laneArith
theorem State.Canonical.execImin {w} : Keeps (execImin w s) := h.laneArith
theorem State.Canonical.execImax {w} : Keeps (execImax w s) := h.laneArith
theorem State.Canonical.execIand {w} : Keeps (execIand w s) := h.laneBits
theorem State.Canonical.execIor {w} : Keeps (execIor w s) := h.laneBits
theorem State.Canonical.execIxor {w} : Keeps (execIxor w s) := h.laneBits
theorem State.Canonical.execInot {w} : Keeps (execInot w s) := h.laneBits
theorem State.Canonical.execIshl {w} : Keeps (execIshl w s) := h.laneBits
theorem State.Canonical.execIshr {w} : Keeps (execIshr w s) := h.laneBits
theorem State.Canonical.execIsra {w} : Keeps (execIsra w s) := h.laneBits
theorem State.Canonical.execIbfe {w} : Keeps (execIbfe w s) := h.laneBits
theorem State.Canonical.execIbfi {w} : Keeps (execIbfi w s) := h.laneCompute
theorem State.Canonical.execIpopc {w} : Keeps (execIpopc w s) := h.laneBits
theorem State.Canonical.execIclz {w} : Keeps (execIclz w s) := h.laneBits
theorem State.Canonical.execIsel {w} : Keeps (execIsel w s) := h.laneCompute
theorem State.Canonical.execImov {w} : Keeps (execImov w s) := h.laneBits
theorem State.Canonical.execIcmp {cc w} : Keeps (execIcmp cc w s) := h.laneCompute

end

/-! ### LaneFloat -/

section
variable {s : State} (h : s.Canonical)
include h

theorem State.Canonical.laneFloat {i w rounds tag f} : (s.laneFloat i w rounds tag f).Canonical := h.laneCompute
theorem State.Canonical.execFadd {w} : Keeps (execFadd w s) := h.laneFloat
theorem State.Canonical.execFsub {w} : Keeps (execFsub w s) := h.laneFloat
theorem State.Canonical.execFmul {w} : Keeps (execFmul w s) := h.laneFloat
theorem State.Canonical.execFfma {w} : Keeps (execFfma w s) := h.laneFloat
theorem State.Canonical.execFmin {w} : Keeps (execFmin w s) := h.laneFloat
theorem State.Canonical.execFmax {w} : Keeps (execFmax w s) := h.laneFloat
theorem State.Canonical.execFabs {w} : Keeps (execFabs w s) := h.laneFloat
theorem State.Canonical.execFneg {w} : Keeps (execFneg w s) := h.laneFloat
theorem State.Canonical.execFsel {w} : Keeps (execFsel w s) := h.laneCompute
theorem State.Canonical.execFclass {w} : Keeps (execFclass w s) := h.laneFloat
theorem State.Canonical.execFcmp {cc w} : Keeps (execFcmp cc w s) := h.laneFloat
theorem State.Canonical.execFseed {fn w} : Keeps (execFseed fn w s) := h.laneFloat
theorem State.Canonical.execFrange {w} : Keeps (execFrange w s) := h.laneFloat
theorem State.Canonical.execFscale {w} : Keeps (execFscale w s) := h.laneFloat
theorem State.Canonical.execFexpo {w} : Keeps (execFexpo w s) := h.laneFloat
theorem State.Canonical.execFmant {w} : Keeps (execFmant w s) := h.laneFloat

end

/-! ### LaneConvert -/

section
variable {s : State} (h : s.Canonical)
include h

theorem State.Canonical.execCvt {w} : Keeps (execCvt w s) := h.laneCompute
theorem State.Canonical.execRqnt {w} : Keeps (execRqnt w s) := h.laneCompute
theorem State.Canonical.execLperm {w} : Keeps (execLperm w s) := h.laneCompute
theorem State.Canonical.execLrot {w} : Keeps (execLrot w s) := h.laneCompute
theorem State.Canonical.execLbcast {w} : Keeps (execLbcast w s) := h.laneCompute

theorem State.Canonical.laneReduce {i w op f} : (s.laneReduce i w op f).Canonical :=
  h.laneIssue (fun h => by
    dsimp only
    split
    · exact (h.writeResult.ite h).laneNext
    · split <;> exact h.modGroup.writeResult.laneNext)

theorem State.Canonical.execLred {op w} : Keeps (execLred op w s) := h.laneReduce
theorem State.Canonical.execLscan {op w} : Keeps (execLscan op w s) := h.laneReduce

end

/-! ### Bulk -/

section
variable {s : State} (h : s.Canonical)
include h

theorem State.Canonical.readRun {e k va n} : (s.readRun e k va n).1.Canonical := by
  unfold State.readRun
  cases s.engPlace e (BitVec.ofNat 64 va) with
  | global asid x =>
    dsimp only
    split
    · split
      · split
        · next e => exact h.readLine.fst e
        · next e => exact .ite (h.readLine.fst e).holdLine (h.readLine.fst e).holdLine.observe.l1Stale
      · exact h.epAbort.ite h.draw
      · exact h.draw
    · exact h
  | unmapped => exact h.windowMiss
  | _ => exact h

theorem State.Canonical.readRuns {e k runs} : (s.readRuns e k runs).1.Canonical := by
  induction runs generalizing s with
  | nil => exact h
  | cons r rest ih =>
    unfold State.readRuns
    split
    · next e => exact ih (h.readRun.fst e)
    · exact h.readRun

theorem State.Canonical.readLines {e k va n} : (s.readLines e k va n).1.Canonical := h.readRuns

theorem State.Canonical.writeRun {e va bs} : (s.writeRun e va bs).1.Canonical := by
  unfold State.writeRun
  cases s.engPlace e (BitVec.ofNat 64 va) with
  | global asid x =>
    dsimp only
    split
    · split
      · exact .ite h.holdLine.hbmStore.noteWrite h.holdLine.hbmStore.noteWrite.observe.l1Update
      · exact h.epAbort.ite h
      · exact h
    · exact h
  | unmapped => exact h.windowMiss
  | _ => exact h.chipWrite

theorem State.Canonical.engWriteRuns {e t runs bs} : (s.engWriteRuns e t runs bs).1.Canonical := by
  induction runs generalizing s t bs with
  | nil => exact h
  | cons r rest ih => exact ih h.writeRun

theorem State.Canonical.engWrite {e va bs} : (s.engWrite e va bs).1.Canonical := h.engWriteRuns
theorem State.Canonical.parkOnce {e va k who} : (s.parkOnce e va k who).Canonical := h.ite h.park
theorem State.Canonical.sectPut {p sect off bs} : (s.sectPut p sect off bs).Canonical := h.engWrite

theorem State.Canonical.putToken {t v wct} : (s.putToken t v wct).Canonical := by
  unfold State.putToken
  dsimp only
  split
  · exact h.writeToken
  · exact h.sectPut.sectPut.upd
  · exact h

end

/-! ### Matrix -/

section
variable {s : State} (h : s.Canonical)
include h

theorem State.Canonical.setTile {c n t} : (s.setTile c n t).Canonical := h.modCore
theorem State.Canonical.setAcc {c n t} : (s.setAcc c n t).Canonical := h.modCore
theorem State.Canonical.dirtyMatrix {c wg n} : (s.dirtyMatrix c wg n).Canonical := h.modWg
theorem State.Canonical.runMisses {g runs} : (s.runMisses g runs).Canonical := h.foldl fun _ h => h.windowMiss.ite h
theorem State.Canonical.spoilAcc {c n cols rows} : (s.spoilAcc c n cols rows).Canonical := h.setAcc.draw

theorem State.Canonical.spoilResults {c o rows} : (s.spoilResults c o rows).Canonical := by
  unfold State.spoilResults
  dsimp only
  split
  · exact h.spoilAcc
  · exact h.spoilAcc
  · exact (h.foldl fun _ h => h.chipWrite).draw
  · exact h.foldl fun _ h => h.spoilReg

theorem State.Canonical.submit {g k} : (s.submit g k).Canonical := (h.foldl fun _ h => h.spoilResults).takeId.modCore.modGroup
theorem State.Canonical.useAcc {g n efmt} : (s.useAcc g n efmt).Canonical := h.setAcc.dirtyMatrix
theorem State.Canonical.useTile {g n h'} : (s.useTile g n h').Canonical := h.setTile.dirtyMatrix

theorem State.Canonical.asGroup {f : GroupRef → State} (hf : ∀ g, (f g).Canonical) : (s.asGroup f).Canonical := by
  unfold State.asGroup
  split
  · exact hf _
  · exact h

theorem State.Canonical.execMloop {c a b bsrc asrc k n} : Keeps (execMloop c a b bsrc asrc k n s) :=
  h.issue (fun h => h.asGroup (fun _ => by
    dsimp only
    split
    · exact h.advance
    · split
      · exact h.raise
      · exact h.runMisses.submit.useAcc.advance))

theorem State.Canonical.readHeader {g addr m1} : (s.readHeader g addr m1).1.Canonical := by
  unfold State.readHeader
  split
  · next e =>
    dsimp only
    split
    · exact h.readLines.fst e
    · exact (h.readLines.fst e).readLines
  · exact h.readLines

theorem State.Canonical.awaitWeights {g va} : (s.awaitWeights g va).Canonical := h.parkOnce.waitOn

theorem State.Canonical.execMvec {c a b v k n} : Keeps (execMvec c a b v k n s) :=
  h.issue fun {t} h => h.asGroup fun g => by
    dsimp only
    split
    · exact h.advance
    · split
      · exact h.waitOn
      · cases t.meetHeader g (t.sreg a &&& ~~~31#64) (t.sreg (a + 1)) with
        | miss va => exact h.awaitWeights
        | fault c va => exact h.raiseAfar
        | ok =>
          dsimp only
          split
          · exact h.readHeader.awaitWeights
          · exact h.readHeader.raiseAfar
          · split
            · exact h.readHeader.raise
            · exact h.readHeader.runMisses.submit.useAcc.advance

theorem State.Canonical.execMzero {r} : Keeps (execMzero r s) := h.issue (fun h => h.asGroup (fun _ => h.submit.useAcc.advance))

theorem State.Canonical.execMzeroRel {tile r} : Keeps (execMzeroRel tile r s) :=
  h.issue (fun h => h.asGroup (fun _ => (h.submit.setTile.dirtyMatrix.ite h.submit.setAcc.dirtyMatrix).advance))

theorem State.Canonical.execMload {m tile r} : Keeps (execMload m tile r s) :=
  h.issue fun h => h.asGroup fun g => by
    dsimp only
    split
    · exact h.headerErrors.raise
    · split
      · exact h.headerErrors.raise
      · exact (h.headerErrors.runMisses.submit.useTile.ite h.headerErrors.runMisses.submit.useAcc).advance

theorem State.Canonical.takeRounds {g o act} (hact : ∀ {t : State}, t.Canonical → (act t).Canonical) : (s.takeRounds g o act).Canonical :=
  (hact h).ite (h.afterLanes (fun h => hact h.modGroup))

theorem State.Canonical.execMdrain {m o k n} : Keeps (execMdrain m o k n s) :=
  h.issue (fun h => h.asGroup (fun _ => h.takeRounds (fun h => h.submit.advance)))

theorem State.Canonical.execMcvt {d acc src o k} : Keeps (execMcvt d acc src o k s) :=
  h.issue (fun h => h.asGroup (fun _ => by
    dsimp only
    split
    · exact h.raise
    · exact h.raise.ite (h.takeRounds (fun h => h.submit.useTile.advance))))

theorem State.Canonical.doMstat {d n clr i} : (s.doMstat d n clr i).Canonical :=
  h.issue (fun h => h.asGroup (fun _ => h.waitOn.ite (h.result.setAcc.ite h.result)))

theorem State.Canonical.execMstat {d tile r} : Keeps (execMstat d tile r s) := h.doMstat
theorem State.Canonical.execMstatClr {d r} : Keeps (execMstatClr d r s) := h.doMstat
theorem State.Canonical.execMfence {d} : Keeps (execMfence d s) := h.issue (fun h => h.asGroup (fun _ => h.waitOn.ite h.modGroup.result))
theorem State.Canonical.doMwait {f n} : (s.doMwait f n).Canonical := h.issue (fun h => h.asGroup (fun _ => h.modGroup.advance.ite h.waitFor))
theorem State.Canonical.execMwaitImm {n} : Keeps (execMwaitImm n s) := h.doMwait
theorem State.Canonical.execMwaitReg {a} : Keeps (execMwaitReg a s) := h.doMwait
theorem State.Canonical.execMready {a} : Keeps (execMready a s) := h.issue (fun h => h.asGroup (fun _ => h.waitFor.ite h.modGroup.advance))

end

/-! ### MatrixSteps -/

section
variable {s : State} (h : s.Canonical)
include h

theorem State.Canonical.spoilOp {c o} : (s.spoilOp c o).Canonical := by
  unfold State.spoilOp
  dsimp only
  split
  · split
    · exact h.foldl fun _ h => h.spoilReg
    · exact (h.foldl fun _ h => h.spoilReg).spoilResults
  · exact h.foldl fun _ h => h.spoilReg

theorem State.Canonical.retire {c o} : (s.retire c o).Canonical := h.modCore.spoilOp

theorem State.Canonical.stepMisses {g o k x4 ts} : (s.stepMisses g o k x4 ts).Canonical := by
  unfold State.stepMisses
  split
  · exact h.runMisses
  · exact h

theorem State.Canonical.applyStep {c m o again} : (s.applyStep c m o again).Canonical := by
  unfold State.applyStep
  extract_lets g p ka kb ta tb s₁ s₂
  have h₂ : s₂.Canonical := h.stepMisses.stepMisses
  clear_value s₂
  split
  extract_lets s₃ s₄
  have h₄ : s₄.Canonical := h₂.setAcc.countFor.addUsage
  split
  · exact h₄.modCore
  · exact h₄.retire.ite h₄.retire.spoilAcc

theorem State.Canonical.execMloopStep {c} : Keeps (execMloopStep c s) := by
  unfold Machine.execMloopStep
  split
  · split
    · exact h.applyStep
    · exact h
  · exact h

theorem State.Canonical.streamRun {e va n} : (s.streamRun e va n).1.Canonical := by
  unfold State.streamRun
  dsimp only
  split
  · split
    · split
      · split
        · exact h.readRun
        · split
          · next e => exact (h.readLine.fst e)
          · next e => exact (h.readLine.fst e).transfer
      · exact h.readRun
    · exact h
  · exact h.readRun

theorem State.Canonical.streamRuns {e runs} : (s.streamRuns e runs).1.Canonical := by
  induction runs generalizing s with
  | nil => exact h
  | cons r rest ih =>
    unfold State.streamRuns
    split
    · next e => exact ih (h.streamRun.fst e)
    · exact h.streamRun

theorem State.Canonical.execMvecStep {c} : Keeps (execMvecStep c s) := by
  unfold Machine.execMvecStep
  dsimp only
  split
  · split
    · split
      · split
        · exact h
        · exact h.parkOnce
        · exact h.unitFault
        · split
          · next e => exact (h.streamRuns.fst e).unitFault
          · next e => exact (h.streamRuns.fst e).applyStep
      · exact h
    · exact h
  · exact h

theorem State.Canonical.orFlags {g c} : (s.orFlags g c).Canonical := h.modGroup.ite h
theorem State.Canonical.spadWrite {c wg x3 bs} : (s.spadWrite c wg x3 bs).Canonical := h.chipWrite

theorem State.Canonical.drain {c m n d d1 atom o} : (s.drain c m n d d1 atom o).Canonical := by
  unfold State.drain
  extract_lets g s₁ wg a nanz
  have h₁ : s₁.Canonical := h.runMisses
  clear_value s₁
  split
  rename_i at' pitch ver hdr s₂ s₃ s₄ _ rows k _
  have h₄ : s₄.Canonical := (State.Canonical.ite h₁.spadWrite.spadWrite h₁.spadWrite).spadWrite
  cases m.spoiled
  · exact (h₄.foldl fun _ h => h.foldl fun _ h => h.spadWrite).orFlags
  · exact (h₄.draw.foldl fun _ h => h.foldl fun _ h => h.spadWrite).orFlags

theorem State.Canonical.convertTile {c m d fromAcc src h' o} : (s.convertTile c m d fromAcc src h' o).Canonical := by
  unfold State.convertTile
  extract_lets g nanz t v
  split
  extract_lets s₁
  have h₁ : s₁.Canonical := h.setTile.orFlags
  exact h₁.spoilReg.ite h₁

theorem State.Canonical.loadTile {c m tile n d d1 h'} : (s.loadTile c m tile n d d1 h').Canonical :=
  (h.runMisses.ite h.runMisses.draw).setTile.ite (h.runMisses.ite h.runMisses.draw).setAcc

theorem State.Canonical.zeroReg {c tile n} : (s.zeroReg c tile n).Canonical := h.setTile.ite h.setAcc

theorem State.Canonical.moveDone {c} {f : MatOp → Option State} (hf : ∀ m t, f m = some t → t.Canonical) : (s.moveDone c f).Canonical := by
  unfold State.moveDone
  split
  · split
    · next e => exact (hf _ _ e).retire
    · exact h
  · exact h

theorem State.Canonical.execMzeroComplete {c} : Keeps (execMzeroComplete c s) :=
  h.moveDone fun m t e => by
    split at e <;> cases e
    exact h.zeroReg

theorem State.Canonical.execMloadComplete {c} : Keeps (execMloadComplete c s) :=
  h.moveDone fun m t e => by
    split at e <;> cases e
    exact h.loadTile

theorem State.Canonical.execMdrainComplete {c} : Keeps (execMdrainComplete c s) :=
  h.moveDone fun m t e => by
    split at e
    · split at e <;> cases e
      exact h.drain
    · cases e

theorem State.Canonical.execMcvtComplete {c} : Keeps (execMcvtComplete c s) :=
  h.moveDone fun m t e => by
    split at e <;> cases e
    exact h.convertTile

end

/-! ### Copies -/

section
variable {s : State} (h : s.Canonical)
include h

theorem State.Canonical.localWrite {o off bs} : (s.localWrite o off bs).Canonical := by
  unfold State.localWrite
  split
  · exact h.engWrite
  · exact h.chipWrite

theorem State.Canonical.localMisses {o runs} : (s.localMisses o runs).Canonical := h.ite (h.foldl fun _ h => h.windowMiss.ite h)

theorem State.Canonical.localZero {o off n} : (s.localZero o off n).Canonical := by
  unfold State.localZero
  cases o.spadAt with
  | some va => exact h.localWrite
  | none =>
    cases fetcherGroup o.issuer with
    | some g => exact (h.hitSpad.ite h).modWg
    | none => exact h.modPart_wf (filter_wf _ _ h.part)

theorem State.Canonical.launchAsync {o} : (s.launchAsync o).Canonical := h.takeId.upd.advance

theorem State.Canonical.issueFail {c d status} : (s.issueFail c d status).Canonical := by
  unfold State.issueFail
  split
  · exact h.setPending.writeToken.advance
  · exact h.raise

theorem State.Canonical.startTcopy {f d a scope n r} : (s.startTcopy f d a scope n r).Canonical := by
  unfold State.startTcopy
  dsimp only
  split
  · exact h.issueFail
  · split
    · exact h.issueFail
    · exact (h.localMisses.ite h).setPending.launchAsync

theorem State.Canonical.execTcopy {d a b scope n} : Keeps (execTcopy d a b scope n s) :=
  h.issue fun {t} h => by
    split
    · exact h
    · dsimp only
      split
      · exact h.waitOn
      · cases t.meet { a := t.cur, part := t.agentPart t.cur, asid := t.agentAsid t.cur } 1 (t.sreg b) 64 with
        | miss va => exact h.parkOnce.waitOn
        | fault c va => exact h.raiseAfar
        | ok =>
          dsimp only
          split
          · next e => exact (h.readLines.fst e).parkOnce.waitOn
          · next e => exact (h.readLines.fst e).raiseAfar
          · next e => exact (h.readLines.fst e).startTcopy

theorem State.Canonical.readList {e k runs} : (s.readList e k runs).1.Canonical := by
  induction runs generalizing s with
  | nil => exact h
  | cons r rest ih =>
    unfold State.readList
    split
    · next e => exact ih (h.readLines.fst e)
    · exact h.readLines

theorem State.Canonical.unlessMeets {o k runs act} (hact : ∀ {t : State}, t.Canonical → (act t).Keeps) : (s.unlessMeets o k runs act).Keeps := by
  unfold State.unlessMeets
  split
  · exact h.parkOnce
  · exact h
  · split
    · exact hact h
    · split
      · next e => exact (h.readList.fst e)
      · next e => exact hact (h.readList.fst e)

theorem State.Canonical.unlessLocal {o act} (hact : ∀ {t : State}, t.Canonical → (act t).Keeps) : (s.unlessLocal o act).Keeps := by
  unfold State.unlessLocal
  split
  · exact hact h
  · exact h.parkOnce
  · exact h

theorem State.Canonical.drawLoose {o} : (s.drawLoose o).Canonical := by
  unfold State.drawLoose
  split
  · exact h.ite h.draw
  · exact h

theorem State.Canonical.copyIn {o r base loff lpitch cs} : (s.copyIn o r base loff lpitch cs).Keeps :=
  h.unlessMeets (fun h => (h.localMisses.localZero.foldl fun _ h => h.foldl fun _ h => h.localWrite).localWrite.ite (h.localMisses.localZero.foldl
      fun _ h => h.foldl fun _ h => h.localWrite))

theorem State.Canonical.putElem {e f va high code} : (s.putElem e f va high code).1.Canonical := by
  unfold State.putElem
  dsimp only
  split <;> exact h.engWrite

theorem State.Canonical.copyOut {o r base loff lpitch cs} : (s.copyOut o r base loff lpitch cs).Keeps := by
  unfold State.copyOut
  dsimp only
  refine h.unlessMeets fun h => ?_
  refine State.Canonical.drawLoose (.localMisses (.foldlFst h fun _ h => ?_))
  exact h.putElem

theorem State.Canonical.scaleWrite {o off bs} : (s.scaleWrite o off bs).Canonical := by
  unfold State.scaleWrite
  split
  · exact h.engWrite
  · exact h.hitOps.modCore
  · exact h

theorem State.Canonical.sourceFail {o va} : (sourceFail o s va).Keeps := by
  unfold Machine.sourceFail
  split <;> exact h

theorem State.Canonical.copyScales {o base loff} : (s.copyScales o base loff).Keeps := by
  refine h.unlessMeets fun h => ?_
  extract_lets r grid sp at' runs
  split
  · exact h.sourceFail
  · refine h.unlessMeets fun h => ?_
    exact h.scaleWrite.foldl fun _ h => h.scaleWrite

theorem State.Canonical.setAsync {o} : (s.setAsync o).Canonical := h.upd
theorem State.Canonical.dropAsync {id} : (s.dropAsync id).Canonical := h.dropAsyncs

theorem State.Canonical.takeLock {o p t} (e : s.takeLock o p = some t) : t.Canonical := by
  unfold State.takeLock at e
  split_ifs at e <;> cases e
  · exact h
  · exact h.upd.setAsync

theorem State.Canonical.unlock {o} : (s.unlock o).Canonical := by
  unfold State.unlock
  split
  · exact h.upd.setAsync
  · exact h

theorem State.Canonical.copyHead {o base lpitch} : (s.copyHead o base lpitch).Keeps :=
  h.unlessMeets fun h => by
    dsimp only
    split
    · exact h.headerErrors
    · split
      · exact h.headerErrors.sourceFail
      · refine State.Canonical.setAsync ?_
        split
        · split
          · next e => exact h.headerErrors.takeLock e
          · exact h.headerErrors
        · exact h.headerErrors

theorem State.Canonical.placeTile {o r h' loff lpitch} : (s.placeTile o r h' loff lpitch).Canonical :=
  (h.localMisses.localWrite.foldl fun _ h => h.foldl fun _ h => h.localWrite).localWrite

theorem State.Canonical.copyTile {o r base loff lpitch} : (s.copyTile o r base loff lpitch).Keeps := by
  unfold State.copyTile
  dsimp only
  split
  · exact h.copyHead
  · split
    · exact h.unlessMeets (fun h => h.setAsync)
    · exact h.unlessMeets (fun h => by
          split
          · exact h.setAsync
          · exact h.placeTile.unlock)

theorem State.Canonical.copy {o r base loff lpitch cs} : (s.copy o r base loff lpitch cs).Keeps :=
  h.unlessLocal (fun h => by
    split
    · exact h.copyIn
    · exact h.copyOut
    · exact h.copyScales
    · exact h.copyTile)

theorem State.Canonical.noteEngine {o} : (s.noteEngine o).Canonical := by
  unfold State.noteEngine
  dsimp only
  split
  · exact h.modSc
  · exact h.upd
  · exact h

theorem State.Canonical.finishAsync {o} : (s.finishAsync o).Canonical := h.dropAsync.noteEngine.putToken.ite h

omit h in
theorem State.Canonical.settleAsync {o r} (hr : r.Keeps) : (s.settleAsync o r).Canonical := by
  cases r with
  | wait t => exact hr
  | done t wct st => exact hr.setAsync.finishAsync
  | fault t c va k =>
    unfold State.settleAsync
    dsimp only
    split
    · exact hr.unitFault.dropAsync
    · exact hr.raiseAfar.dropAsync

theorem State.Canonical.execTcopyComplete {op} : Keeps (execTcopyComplete op s) := by
  unfold Machine.execTcopyComplete
  split
  · split
    · exact h.finishAsync.ite (.settleAsync h.copy)
    · exact h
  · exact h

theorem State.Canonical.execTstore {d a b scope} : Keeps (execTstore d a b scope s) :=
  h.issue (fun h => by
    dsimp only
    split
    · exact h
    · split
      · exact h.headerErrors.issueFail
      · exact h.headerErrors.issueFail.ite h.headerErrors.localMisses.drawLoose.setPending.launchAsync)

theorem State.Canonical.storeLock {o dst runs} : (s.storeLock o dst runs).Keeps :=
  h.unlessMeets fun h => by
    dsimp only
    split
    · exact h
    · next e => exact (h.takeLock e).setAsync

theorem State.Canonical.storeTile {o loff rot dst h'} : (s.storeTile o loff rot dst h').Keeps := by
  unfold State.storeTile
  dsimp only
  split
  · exact h.storeLock
  · refine h.unlessMeets fun h => ?_
    split
    · exact h.engWrite.localMisses.drawLoose.setAsync
    · exact h.engWrite.unlock

theorem State.Canonical.execTstoreComplete {op} : Keeps (execTstoreComplete op s) := by
  unfold Machine.execTstoreComplete
  split
  · split
    · exact h.finishAsync.ite (.settleAsync (h.unlessLocal (fun h => h.storeTile)))
    · exact h
  · exact h

end

/-! ### Chains -/

section
variable {s : State} (h : s.Canonical)
include h

theorem State.Canonical.execStorq {d a scope} : Keeps (execStorq d a scope s) :=
  h.issue (fun h => by
    split
    · exact h
    · exact h.setPending.launchAsync)

theorem State.Canonical.endChain {o w r} : (s.endChain o w r).Keeps := by
  refine h.unlessMeets fun h => State.Canonical.setAsync (.draw (.foldlFst h fun _ h => ?_))
  exact h.engWrite

theorem State.Canonical.recordChain {o w} : (s.recordChain o w).Keeps := by
  unfold State.recordChain
  dsimp only
  split
  · exact h
  · exact h.unlessMeets (fun h => h.engWrite)

theorem State.Canonical.chain {o w act} (hact : ∀ {t : State} {r}, t.Canonical → (act t r).Keeps) : (s.chain o w act).Keeps := by
  unfold State.chain
  dsimp only
  split
  · exact hact h
  · split
    · exact hact h
    · refine h.unlessMeets fun h => ?_
      split
      · split <;> exact hact h
      · exact hact h

theorem State.Canonical.execStorageChainStart {op} : Keeps (execStorageChainStart op s) := by
  unfold Machine.execStorageChainStart
  split
  · split
    · split
      · exact h.parkOnce
      · exact .settleAsync h
      · split
        · next e => exact .settleAsync (h.readLines.fst e)
        · next e => exact (h.readLines.fst e).setAsync
    · exact h
  · exact h

theorem State.Canonical.execStorageChainComplete {op} : Keeps (execStorageChainComplete op s) := by
  unfold Machine.execStorageChainComplete
  split
  · split
    · exact h.finishAsync.ite (.ite (.settleAsync h.recordChain) (.settleAsync (h.chain (fun h => h.endChain))))
    · exact h
  · exact h

end

/-! ### LaneControl -/

section
variable {s : State} (h : s.Canonical)
include h

theorem State.Canonical.execLbr {w} : Keeps (execLbr w s) := h.laneIssue (fun h => h.modGroup)
theorem State.Canonical.execLbrc {w} : Keeps (execLbrc w s) := h.laneIssue (fun h => h.modGroup)
theorem State.Canonical.execLjoin {w} : Keeps (execLjoin w s) := h.laneIssue (fun h => h.modGroup)
theorem State.Canonical.execLend {w} : Keeps (execLend w s) := h.laneIssue (fun h => h.modGroup)
theorem State.Canonical.execLvote {k w} : Keeps (execLvote k w s) := h.laneIssue (fun h => h.writeResult.laneNext)

theorem State.Canonical.execLsig {w} : Keeps (execLsig w s) :=
  h.laneIssue fun h' => by
    dsimp only
    split
    · exact h.raiseWith
    · exact h'.modGroup.laneNext

theorem State.Canonical.setBin {c n b} : (s.setBin c n b).Canonical := h.modCore

theorem State.Canonical.deposit {c grid entry x t} (e : s.deposit c grid entry x = some t) : t.Canonical := by
  unfold State.deposit at e
  split at e
  · dsimp only at e
    split_ifs at e
    cases e
    exact h.setBin
  · obtain ⟨n, -, rfl⟩ := Option.map_eq_some_iff.1 e
    exact h.setBin

theorem State.Canonical.depositAll {c grid entry x ls} : (s.depositAll c grid entry x ls).1.Canonical := by
  induction ls generalizing s with
  | nil => exact h
  | cons l ls ih =>
    unfold State.depositAll
    split
    · next e => exact ih (h.deposit e)
    · exact h

theorem State.Canonical.execSpawn {w} : Keeps (execSpawn w s) :=
  h.laneWaiting (fun h => h) (fun h => by
    dsimp only
    split
    · exact h.ite (h.depositAll.laneDone.ite h.depositAll.modGroup)
    · exact h)

end

/-! ### Queues -/

section
variable {s : State} (h : s.Canonical)
include h

theorem State.Canonical.carve {g x2} : (s.carve g x2).1.Canonical := by
  unfold State.carve
  dsimp only
  split
  · exact h
  · split
    · exact h
    · split
      · exact h
      · exact h.modCore

theorem State.Canonical.execQcfg {d a} : Keeps (execQcfg d a s) :=
  h.issue (fun h => by
    dsimp only
    split
    · exact h.carve.result
    · exact h)

theorem State.Canonical.bindQueue {g x2} : (s.bindQueue g x2).1.Canonical := by
  unfold State.bindQueue
  dsimp only
  split
  · exact h
  · split
    · exact h.modGroup
    · split
      · exact h
      · split
        · exact h.modGroup
        · exact h

theorem State.Canonical.execQmap {d a} : Keeps (execQmap d a s) :=
  h.issue (fun h => h.afterLanes (fun h => by
    dsimp only
    split
    · exact h.bindQueue.result
    · exact h))

theorem State.Canonical.onQueue {n act} (hact : ∀ {x} {x1} {t : State}, t.Canonical → (act x x1 t).Canonical) : (s.onQueue n act).Canonical := by
  unfold State.onQueue
  split
  · split
    · exact hact h
    · exact h.raise
  · exact h

theorem State.Canonical.execQlen {d n} : Keeps (execQlen d n s) := h.issue (fun h => h.onQueue (fun h => h.result))

theorem State.Canonical.execQpeek {d n} : Keeps (execQpeek d n s) :=
  h.issue (fun h => h.onQueue (fun h => by
    split
    · exact h.result
    · exact h.result.ite h.waitOn))

theorem State.Canonical.waitQueue {g m} : (s.waitQueue g m).Canonical := (h.ite h.modSc.takeId).waitFor

theorem State.Canonical.execQpeekPop {d n} : Keeps (execQpeekPop d n s) :=
  h.issue (fun h => h.onQueue (fun h => by
    split
    · exact h.modSc.result.ite h.waitOn
    · split
      · exact h.waitQueue
      · exact h.waitQueue.ite (h.setEntries.result.ite h.setEntries.modSc.waitOn)))

theorem State.Canonical.execQpeekPush {a n} : Keeps (execQpeekPush a n s) :=
  h.issue (fun h => h.onQueue (fun h => h.raise.ite (h.setEntries.advance.ite h.waitQueue)))

theorem State.Canonical.execQflush {d n} : Keeps (execQflush d n s) := h.issue (fun h => h.onQueue (fun h => h.setEntries.result))
theorem State.Canonical.releaseQueues {c f} : (s.releaseQueues c f).Canonical := h.modCore

end

/-! ### Regions -/

section
variable {s : State} (h : s.Canonical)
include h

theorem State.Canonical.checkChain {n} : (s.checkChain n).Canonical := h.ite h.draw.upd
theorem State.Canonical.refreshLimits : (s.refreshLimits).Canonical := h.upd

end

/-! ### Place -/

section
variable {s : State} (h : s.Canonical)
include h

theorem State.Canonical.bindTenant {c r} : (s.bindTenant c r).Canonical := by
  unfold State.bindTenant
  dsimp only
  split
  · exact h
  · exact h.modCore

theorem State.Canonical.enterCluster {c gridNo} : (s.enterCluster c gridNo).Canonical := h.ite h.dropCode.modGrid

theorem State.Canonical.placeWg {c gridNo idx nbh k} : (s.placeWg c gridNo idx nbh k).Canonical :=
  h.bindTenant.enterCluster.takeId.modCore.modGrid

theorem State.Canonical.setRect {i cl p w h' b} : (s.setRect i cl p w h' b).Canonical := h.modSlice

theorem State.Canonical.startNbh {c n} : (s.startNbh c n).Canonical := by
  unfold State.startNbh
  dsimp only
  split
  · exact h
  · split
    · exact h
    · exact h.upd.placeWg.setRect.ite h

theorem State.Canonical.claimTicket {n} : (s.claimTicket n).Canonical := h.chipWrite.modGrid

theorem State.Canonical.execWorkgroupPlace {c grid} : Keeps (execWorkgroupPlace c grid s) := by
  unfold Machine.execWorkgroupPlace
  dsimp only
  split
  · exact h
  · split
    · exact h.claimTicket.placeWg.ite h
    · split
      · exact h
      · exact (h.setRect.claimTicket.takeId.upd.foldl fun _ h => h.fwEvent).startNbh

theorem State.Canonical.execNbhCoreStartOnRoom {c} : Keeps (execNbhCoreStartOnRoom c s) := by
  unfold Machine.execNbhCoreStartOnRoom
  split
  · exact h.startNbh
  · exact h

theorem State.Canonical.launchBin {c bin} : (s.launchBin c bin).Canonical := h.bindTenant.takeId.modCore.modGrid.ite h.setBin
theorem State.Canonical.execSpawnTimerExpiry {c bin} : Keeps (execSpawnTimerExpiry c bin s) := h.launchBin.ite h
theorem State.Canonical.execSpawnLaunch {c bin} : Keeps (execSpawnLaunch c bin s) := h.launchBin.ite h
theorem State.Canonical.freeEntries {c} : (s.freeEntries c).Canonical := h.modCore
theorem State.Canonical.freeWg {c n} : (s.freeWg c n).Canonical := h.modCore.freeEntries

theorem State.Canonical.leaveNbh {n} : (s.leaveNbh n).Canonical := by
  unfold State.leaveNbh
  dsimp only
  split
  · exact h
  · exact h.upd.ite (h.upd.foldl fun _ h => h.releaseQueues)

theorem State.Canonical.releaseWg {c n} : (s.releaseWg c n).Canonical := by
  unfold State.releaseWg
  dsimp only
  split
  · exact h
  · split
    · exact h.freeWg.modGrid.leaveNbh
    · exact h.freeWg.modGrid.releaseQueues

theorem State.Canonical.grantRegs {g n} : (s.grantRegs g n).Canonical := h.modGroup

theorem State.Canonical.grow {g d n wait} : (s.grow g d n wait).Canonical :=
  h.result.ite (h.result.ite (h.grantRegs.result.ite (h.modGroup.waitFor.ite h.result)))

theorem State.Canonical.execVgrow {d a} : Keeps (execVgrow d a s) := h.issue (fun h => by
    split
    · exact h.grow
    · exact h)

theorem State.Canonical.execVgrowW {d a} : Keeps (execVgrowW d a s) := h.issue (fun h => by
    split
    · exact h.ite h.grow
    · exact h)

theorem State.Canonical.endGrow {g v} : (s.endGrow g v).Canonical := h.modGroup.modSc
theorem State.Canonical.execVgrowGrant {g} : Keeps (execVgrowGrant g s) := h.grantRegs.endGrow.ite h
theorem State.Canonical.execVgrowTimeout {g} : Keeps (execVgrowTimeout g s) := h.endGrow.ite h

theorem State.Canonical.execVshrink {d a} : Keeps (execVshrink d a s) :=
  h.issue (fun h => h.afterLanes (fun h => by
    dsimp only
    split
    · exact h.result.ite (h.result.ite h.modGroup.result)
    · exact h))

end

/-! ### Groups -/

section
variable {s : State} (h : s.Canonical)
include h

theorem State.Canonical.completeLaunch {n} : (s.completeLaunch n).Canonical := h.upd

theorem State.Canonical.gridCheck {n} : (s.gridCheck n).Canonical :=
  h.ite ((((h.modGrid.completeLaunch.ite h.modGrid).ite h).modGrid.ite ((h.modGrid.completeLaunch.ite h.modGrid).ite h).modGrid.completeLaunch).ite
      ((h.modGrid.completeLaunch.ite h.modGrid).ite h))

theorem State.Canonical.setBarrier {g nb id b} : (s.setBarrier g nb id b).Canonical := by
  unfold State.setBarrier
  split
  · split
    · exact h.upd
    · exact h
  · exact h.modWg

theorem State.Canonical.passBarrier {g} : (s.passBarrier g).Canonical := h.modGroup
theorem State.Canonical.tryBarrier {g nb id} : (s.tryBarrier g nb id).Canonical := (h.setBarrier.foldl fun _ h => h.passBarrier).ite h
theorem State.Canonical.arrive {g nb id c} : (s.arrive g nb id c).Canonical := h.waitOn.ite h.setBarrier.modGroup.waitOn.tryBarrier

theorem State.Canonical.afterRelease {scope act} (hact : ∀ {t : State}, t.Canonical → (act t).Canonical) : (s.afterRelease scope act).Canonical :=
  h.afterLanes (fun h => (hact h).ite h.waitOn)

theorem State.Canonical.doBar {i a nb id} : (s.doBar i a nb id).Canonical :=
  h.issue (fun h => by
    dsimp only
    split
    · exact h.waitOn.ite (h.afterRelease (fun h => h.arrive))
    · exact h)

theorem State.Canonical.execBar {a id} : Keeps (execBar a id s) := h.doBar
theorem State.Canonical.execBarNb {a id} : Keeps (execBarNb a id s) := h.doBar

theorem State.Canonical.execTrigger : Keeps (execTrigger s) :=
  h.issue (fun h => by
    split
    · exact h.afterRelease (fun h => h.modGroup.advance.gridCheck)
    · exact h)

theorem State.Canonical.execExit : Keeps (execExit s) := h.issue (fun h => by
    split
    · exact h.dropPosts.modGroup.waitOn
    · exact h)

theorem State.Canonical.finishExit {g} : (s.finishExit g).Canonical := by
  unfold State.finishExit
  extract_lets v s₁ s₂ s₃
  have h₂ : s₂.Canonical := h.endPair.modGroup.foldl fun _ h => h.tryBarrier.tryBarrier
  have h₃ : s₃.Canonical := h₂.releaseWg.ite h₂
  exact h₃.gridCheck

theorem State.Canonical.execExitComplete {g} : Keeps (execExitComplete g s) := h.finishExit.ite h

theorem State.Canonical.execYield : Keeps (execYield s) := h.issue (fun h => by
    split
    · exact h.advance.modGroup
    · exact h)

theorem State.Canonical.prefCode {a va} : (s.prefCode a va).Canonical := by
  unfold State.prefCode
  dsimp only
  generalize hq : List.foldl _ (s, false) (List.range 4) = q
  have hq' : q.1.Canonical := by
    rw [← hq]
    refine State.Canonical.foldlFst h fun _ h => ?_
    split
    · split
      · next e => exact (h.codeUse.fst e).putCode
      · next e => exact h.codeUse.fst e
    · exact h
  exact hq'.countFor.ite hq'

theorem State.Canonical.prefData {a va l1} : (s.prefData a va l1).Canonical := by
  unfold State.prefData
  dsimp only
  split
  · split
    · split
      · split
        · next e => exact (h.readLine.fst e).countFor
        · next e => exact .ite (h.readLine.fst e).holdLine.fillL1 (h.readLine.fst e).holdLine
      · exact h
    · exact h.countFor
  · exact h

theorem State.Canonical.execPref {a kind off} : Keeps (execPref a kind off s) :=
  h.issue (fun h => by
    dsimp only
    refine .advance ?_
    split
    · exact h.prefData
    · exact h.prefData
    · exact h.prefCode)

end

/-! ### Commands -/

section
variable {s : State} (h : s.Canonical)
include h

theorem State.Canonical.requestPoint {i p} : (s.requestPoint i p).Canonical := h.modSlice.ite (h.draw.setSliceReg.modSlice.ite h.draw)
theorem State.Canonical.requestPoints {is p} : (s.requestPoints is p).Canonical := h.foldl fun _ h => h.requestPoint
theorem State.Canonical.modSlot {i n f} : (s.modSlot i n f).Canonical := h.ite h.modSlice
theorem State.Canonical.noteQcb {i q a} : (s.noteQcb i q a).Canonical := h.modSlice

theorem State.Canonical.setQcb {i q w} : (s.setQcb i q w).Canonical := by
  unfold State.setQcb
  split
  · exact h.modSlot
  · split
    · exact h.engWrite.noteQcb
    · exact h

theorem State.Canonical.sliceEvent {i kind arg other} : (s.sliceEvent i kind arg other).Canonical := by
  unfold State.sliceEvent
  dsimp only
  split
  · exact h.modSlice.fwEvent
  · exact h.fwEvent

theorem State.Canonical.setPend {i q b} : (s.setPend i q b).Canonical := h.setSliceReg
theorem State.Canonical.pendKick {i q} : (s.pendKick i q).Canonical := h.setPend.sliceEvent

theorem State.Canonical.stopQueue {i q code pidx copy late} : (s.stopQueue i q code pidx copy late).Canonical := by
  unfold State.stopQueue
  dsimp only
  split
  · split
    · exact h.parkOnce.modSlice
    · exact h.raiseSource
  · split
    · exact h.modSlice.ite h
    · refine .modSlice ?_
      split
      · exact h.setQcb.modSlot
      · exact h.setQcb

theorem State.Canonical.pumpStops {i xs} : (s.pumpStops i xs).Canonical := by
  induction xs generalizing s with
  | nil => exact h
  | cons x xs ih =>
    unfold State.pumpStops
    split
    · exact ih h
    · exact ih h.modSlice.stopQueue

theorem State.Canonical.tryHandler {i q p} : (s.tryHandler i q p).Keeps := by
  unfold State.tryHandler
  dsimp only
  split
  · split
    · exact h.parkOnce
    · exact trivial
  · split
    · exact trivial
    · split
      · exact h.parkOnce
      · exact trivial
      · split
        · exact trivial
        · split
          · exact h.parkOnce
          · exact trivial
          · exact h.engWrite.setQcb

theorem State.Canonical.pumpHandlers {i ps} : (s.pumpHandlers i ps).Canonical := by
  induction ps generalizing s with
  | nil => exact h
  | cons x rest ih =>
    unfold State.pumpHandlers
    dsimp only
    split
    · exact ih h
    · split
      · next e => exact ih (h.tryHandler.written e).modSlice.raiseSource
      · refine ih (.raiseSource (.modSlice ?_))
        split
        · exact h.setQcb
        · exact h
      · next e => exact ih (h.tryHandler.held e)

theorem State.Canonical.earlyKick {i q w ok v} : (s.earlyKick i q w ok v).Canonical := h.setPend.ite (h.ite h.setQcb.setPend)
theorem State.Canonical.kickSlot {i q n v} : (s.kickSlot i q n v).Canonical := h.earlyKick.ite (h.ite (h.modSlot.draw.stopQueue.ite h.modSlot))

theorem State.Canonical.kickMemory {i q a v} : (s.kickMemory i q a v).Canonical :=
  h.noteQcb.earlyKick.ite (h.noteQcb.pendKick.ite (h.noteQcb.ite (h.noteQcb.setQcb.draw.stopQueue.ite (h.noteQcb.setQcb.ite
      h.noteQcb.setQcb.pendKick))))

theorem State.Canonical.takeKick {k} : (s.takeKick k).1.Canonical := by
  unfold State.takeKick
  dsimp only
  split
  · exact h
  · split
    · exact h
    · split
      · exact h.parkOnce
      · exact h.raiseSource
      · split
        · exact h
        · split
          · exact h.kickSlot
          · split
            · exact h.parkOnce
            · exact h.raiseSource
            · exact h.kickMemory

theorem State.Canonical.takeKicks {ks} : (s.takeKicks ks).Canonical := by
  induction ks generalizing s with
  | nil => exact h
  | cons k ks ih => exact (ih h.takeKick).ite (ih h.takeKick).upd

theorem State.Canonical.execDoorbellKick {slice q offset size value} : Keeps (execDoorbellKick slice q offset size value s) :=
  h.takeKick.ite h.takeKick.upd

theorem State.Canonical.retirePacket {x1} : (s.retirePacket x1).Canonical := by
  unfold State.retirePacket
  dsimp only
  split
  · exact h.upd.modSlot
  · exact h.upd

theorem State.Canonical.signalPacket {x1} : (s.signalPacket x1).Canonical := by
  unfold State.signalPacket
  dsimp only
  split
  · exact h
  · split
    · exact h.retirePacket
    · split
      · exact h
      · split
        · exact h.parkOnce.upd
        · exact h.retirePacket.stopQueue
        · exact h.engWrite.retirePacket

theorem State.Canonical.settleChains : (s.settleChains).Canonical := h.upd
theorem State.Canonical.checkImage {i n} : (s.checkImage i n).Canonical := h.modSlot.draw.ite h

theorem State.Canonical.checkUnmapped {i q a img} : (s.checkUnmapped i q a img).Canonical := by
  unfold State.checkUnmapped
  dsimp only
  split
  · exact h.modSlice
  · split
    · exact h.modSlice.ite (h.ite (h.noteQcb.ite h.engWrite.noteQcb.draw))
    · exact h

theorem State.Canonical.settle : s.settle.Canonical := by
  unfold State.settle
  extract_lets s₁ s₂ s₃ s₄ t s₅ s₆
  have h₁ : s₁.Canonical := h.foldl fun _ h => h.foldl fun _ h => h.checkImage
  have h₂ : s₂.Canonical := h₁.foldl fun _ h => h.foldl fun _ h => h.checkUnmapped
  have h₃ : s₃.Canonical := h₂.foldl fun _ h => h.checkChain
  have h₄ : s₄.Canonical := h₃.ite h₃.upd.takeKicks
  have h₅ : s₅.Canonical := h₄.ite (h₄.settleChains.foldl fun _ h => h.signalPacket)
  have h₆ : s₆.Canonical := h₅.foldl fun _ h => h.pumpStops
  exact h₆.foldl fun _ h => h.pumpHandlers

theorem State.Canonical.unmapSlot {i n} : (s.unmapSlot i n).Canonical := (h.engWrite.noteQcb.setPend.ite h.engWrite.noteQcb).modSlot.sliceEvent

theorem State.Canonical.agentUnmap {i n} : (s.agentUnmap i n).Canonical := by
  unfold State.agentUnmap
  dsimp only
  split
  · exact h.unmapSlot
  · exact h.modSlot.parkOnce
  · exact h.modSlot.sliceEvent.ite h.modSlot.draw.stopQueue

theorem State.Canonical.mapSlot {i n a w} : (s.mapSlot i n a w).Canonical := h.modSlot
theorem State.Canonical.ageQueues {i cs} : (s.ageQueues i cs).Canonical := h.foldl fun _ h => h.setQcb
theorem State.Canonical.dropPending {i q bad} : (s.dropPending i q bad).Canonical := h.setPend.raiseSource.ite h.setPend

theorem State.Canonical.lookPending {i q} : (s.lookPending i q).Canonical := by
  unfold State.lookPending
  split
  · exact h.setPend
  · split
    · split
      · exact h.dropPending
      · split
        · exact h.dropPending
        · split
          · exact h
          · split
            · exact h.parkOnce
            · exact h
    · split
      · exact h.parkOnce
      · exact h.dropPending
      · exact h

theorem State.Canonical.execQueueMapDecision {slice} : Keeps (execQueueMapDecision slice s) := by
  unfold Machine.execQueueMapDecision
  dsimp only
  split
  · exact h
  · split
    · exact h.ite h.agentUnmap
    · split
      · exact h.foldl fun _ h => h.lookPending
      · split
        · exact (h.foldl fun _ h => h.lookPending).mapSlot.setPend.ageQueues
        · split
          · exact (h.foldl fun _ h => h.lookPending).ageQueues
          · exact ((h.foldl fun _ h => h.lookPending).modSlot.agentUnmap.mapSlot.setPend.ageQueues.ite (h.foldl fun _ h =>
              h.lookPending).modSlot.agentUnmap).ite (h.foldl fun _ h => h.lookPending).ageQueues

end

/-! ### Packets -/

section
variable {s : State} (h : s.Canonical)
include h

theorem State.Canonical.startOwn {i slot x3 lrec} : (s.startOwn i slot x3 lrec).Canonical := by
  unfold State.startOwn
  dsimp only
  split
  · split
    · exact h.takeId.upd.chipWrite.upd
    · exact h
  · exact h.engWrite.upd
  · exact h.takeId.upd.upd
  · exact h.modSlot.upd
  · exact h.upd
  · exact h.upd.modSlot

theorem State.Canonical.failPacket {i slot code pidx w} : (s.failPacket i slot code pidx w).Canonical := by
  unfold State.failPacket
  dsimp only
  split
  · split
    · exact h.modSlot
    · exact h.modSlot.stopQueue.ite h
  · exact h.stopQueue

theorem State.Canonical.startPacket {i slot pidx ws} : (s.startPacket i slot pidx ws).Canonical := by
  unfold State.startPacket
  dsimp only
  split
  · exact h.parkOnce
  · exact h.failPacket
  · exact h.engWrite.modSlot.startOwn

theorem State.Canonical.admitPacket {i slot pidx ws} : (s.admitPacket i slot pidx ws).Canonical := h.modSlot.ite (h.modSlot.ite h.startPacket)

theorem State.Canonical.takeRing {i slot type} : (s.takeRing i slot type).Canonical := by
  unfold State.takeRing
  extract_lets k q e pidx at'
  split
  · exact h
  · cases (if k.copy.isEmpty then s.meetBoth e at' 64 else .ok) with
    | miss va => exact h.parkOnce
    | fault c va => exact h.draw.stopQueue
    | ok =>
      dsimp only
      split
      · exact h
      · split
        · exact h.modSlot.parkOnce
        · exact h.modSlot.failPacket
        · exact (h.modSlot.requestPoints.ite h.modSlot).admitPacket

theorem State.Canonical.takePacket {i slot type} : (s.takePacket i slot type).Canonical := by
  unfold State.takePacket
  dsimp only
  split
  · exact h
  · split
    · split
      · exact h.admitPacket.ite h
      · exact h
    · exact h.ite (h.modSlot.ite h.takeRing)

theorem State.Canonical.execLaunch {slice slot} : Keeps (execLaunch slice slot s) := h.takePacket
theorem State.Canonical.execSignal {slice slot} : Keeps (execSignal slice slot s) := h.takePacket
theorem State.Canonical.execWait {slice slot} : Keeps (execWait slice slot s) := h.takePacket
theorem State.Canonical.execBarrierAnd {slice slot} : Keeps (execBarrierAnd slice slot s) := h.takePacket
theorem State.Canonical.execStorage {slice slot} : Keeps (execStorage slice slot s) := h.takePacket
theorem State.Canonical.execMarker {slice slot} : Keeps (execMarker slice slot s) := h.takePacket
theorem State.Canonical.execNop {slice slot} : Keeps (execNop slice slot s) := h.takePacket

theorem State.Canonical.tryWaiter {x1} : (s.tryWaiter x1).Canonical := by
  unfold State.tryWaiter
  dsimp only
  split
  · exact h
  · split
    · exact h.parkOnce
    · exact h.retirePacket.stopQueue
    · exact h.ite h.upd

theorem State.Canonical.execWaitSatisfied {slice q} : Keeps (execWaitSatisfied slice q s) := by
  unfold Machine.execWaitSatisfied
  split
  · exact h.tryWaiter.ite h
  · exact h

theorem State.Canonical.execLaunchHoldEnd {slice slot} : Keeps (execLaunchHoldEnd slice slot s) := by
  unfold Machine.execLaunchHoldEnd
  dsimp only
  split
  · exact h.startPacket.ite h
  · exact h

theorem State.Canonical.execQueueStoppedUnmap {slice slot} : Keeps (execQueueStoppedUnmap slice slot s) := h.ite h.agentUnmap
theorem State.Canonical.passTime {n} : (s.passTime n).Canonical := h.upd.upd

theorem State.Canonical.execQueueWatchdogExpiry {slice q pidx} : Keeps (execQueueWatchdogExpiry slice q pidx s) := by
  unfold Machine.execQueueWatchdogExpiry
  dsimp only
  split
  · exact h.upd.fwEvent.ite h
  · exact h

end

/-! ### Agents -/

section
variable {s : State} (h : s.Canonical)
include h

theorem State.Canonical.startAgent {c p gen s1} : (s.startAgent c p gen s1).Canonical := h.setCoreReg.setCoreReg.setCoreReg.modPuppet

theorem State.Canonical.agentArrived {p} : (s.agentArrived p).Canonical :=
  h.modPart (by dsimp only; split_ifs <;> rfl)

theorem State.Canonical.withBytes {m k act} (hact : ∀ {t : State}, t.Canonical → (act t).Canonical) : (s.withBytes m k act).Canonical := by
  unfold State.withBytes
  split
  · exact h.parkOnce.waitOn
  · exact h.raiseAfar
  · exact hact h

theorem State.Canonical.switchAgent {c p} : (s.switchAgent c p).Canonical := h.startAgent.modPuppet.agentArrived
theorem State.Canonical.noteReturn {c p} : (s.noteReturn c p).Canonical := h.modPuppet.agentArrived.ite h

theorem State.Canonical.claim {d a b mode} : (s.claim d a b mode).Canonical :=
  h.issue (fun h => by
    dsimp only
    split
    · exact h.switchAgent
    · split
      · exact h.waitOn
      · split
        · exact h.puppetFault
        · exact h.noteReturn.chipWrite.result)

theorem State.Canonical.execTkclaimCount {d a b} : Keeps (execTkclaimCount d a b s) := h.claim
theorem State.Canonical.execTkclaimAcq {d a b} : Keeps (execTkclaimAcq d a b s) := h.claim
theorem State.Canonical.execTkclaimRel {d a b} : Keeps (execTkclaimRel d a b s) := h.claim

theorem State.Canonical.execGplace {d a b} : Keeps (execGplace d a b s) :=
  h.issue (fun h => by
    dsimp only
    split
    · exact h.result
    · split
      · exact h.result
      · exact h.setRect.result)

theorem State.Canonical.execGplaceRel {d a b} : Keeps (execGplaceRel d a b s) :=
  h.issue (fun h => by
    dsimp only
    split
    · exact h.result
    · exact h.setRect.result)

theorem State.Canonical.mapRefused {i w} : (s.mapRefused i w).Canonical := h.setPend.raiseSource

theorem State.Canonical.slotMap {d i n a} : (s.slotMap d i n a).Canonical :=
  h.result.ite (h.raiseSource.result.ite (h.withBytes (fun h => h.mapRefused.result.ite (h.withBytes (fun h => h.mapRefused.result.ite
      (h.result.ite h.mapSlot.result))))))

theorem State.Canonical.ifKept {ok d act} (hact : ∀ {t : State}, t.Canonical → (act t).Canonical) : (s.ifKept ok d act).Canonical :=
  (hact h).ite ((hact h.draw).ite h.draw.result)

theorem State.Canonical.execQslotMap {d a b} : Keeps (execQslotMap d a b s) := h.issue (fun h => h.ifKept (fun h => h.slotMap))
theorem State.Canonical.slotUnmap {d i n} : (s.slotUnmap d i n).Canonical := h.result.ite (h.modSlot.withBytes (fun h => h.unmapSlot.result))
theorem State.Canonical.execQslotUnmap {d a b} : Keeps (execQslotUnmap d a b s) := h.issue (fun h => h.ifKept (fun h => h.slotUnmap))
theorem State.Canonical.execQslotStat {d a b} : Keeps (execQslotStat d a b s) := h.issue (fun h => h.ifKept (fun h => h.result))

theorem State.Canonical.loadRcb {d a bw} : (s.loadRcb d a bw).Canonical :=
  h.issue (fun h => by
    split
    · exact h.result
    · exact h.puppetFault
    · exact h.withBytes (fun h => h))

theorem State.Canonical.execRcbld {d a} : Keeps (execRcbld d a s) := h.loadRcb
theorem State.Canonical.execRcbldBw {d a} : Keeps (execRcbldBw d a s) := h.loadRcb

theorem State.Canonical.eventWait {d poll} : (s.eventWait d poll).Canonical :=
  h.issue (fun h => by
    dsimp only
    split
    · exact h.modPuppet.result
    · split
      · exact h.modPuppet.result
      · exact h.result.ite h.modPuppet.waitOn)

theorem State.Canonical.execEvwait {d} : Keeps (execEvwait d s) := h.eventWait
theorem State.Canonical.execEvwaitPoll {d} : Keeps (execEvwaitPoll d s) := h.eventWait
theorem State.Canonical.execIret : Keeps (execIret s) := h.issue (fun h => h.setCoreReg.setSpc)

theorem State.Canonical.execOpreq {d a} : Keeps (execOpreq d a s) :=
  h.issue (fun h => by
    dsimp only
    split
    · exact h.result
    · exact h.requestPoints.result)

end

/-! ### Arith -/

section
variable {s : State} (h : s.Canonical)
include h

theorem State.Canonical.alu {d a b f} : (s.alu d a b f).Canonical := h.issue (fun h => h.result)
theorem State.Canonical.alu1 {d a f} : (s.alu1 d a f).Canonical := h.issue (fun h => h.result)
theorem State.Canonical.execAdd {d a b} : Keeps (execAdd d a b s) := h.alu
theorem State.Canonical.execSub {d a b} : Keeps (execSub d a b s) := h.alu
theorem State.Canonical.execAnd {d a b} : Keeps (execAnd d a b s) := h.alu
theorem State.Canonical.execOr {d a b} : Keeps (execOr d a b s) := h.alu
theorem State.Canonical.execXor {d a b} : Keeps (execXor d a b s) := h.alu
theorem State.Canonical.execShl {d a b} : Keeps (execShl d a b s) := h.alu
theorem State.Canonical.execShr {d a b} : Keeps (execShr d a b s) := h.alu
theorem State.Canonical.execSra {d a b} : Keeps (execSra d a b s) := h.alu
theorem State.Canonical.execMul {d a b} : Keeps (execMul d a b s) := h.alu
theorem State.Canonical.execMulh {d a b} : Keeps (execMulh d a b s) := h.alu
theorem State.Canonical.execMulhn {d a b} : Keeps (execMulhn d a b s) := h.alu
theorem State.Canonical.execDiv {d a b} : Keeps (execDiv d a b s) := h.alu
theorem State.Canonical.execDivn {d a b} : Keeps (execDivn d a b s) := h.alu
theorem State.Canonical.execRem {d a b} : Keeps (execRem d a b s) := h.alu
theorem State.Canonical.execRemn {d a b} : Keeps (execRemn d a b s) := h.alu
theorem State.Canonical.execMin {d a b} : Keeps (execMin d a b s) := h.alu
theorem State.Canonical.execMax {d a b} : Keeps (execMax d a b s) := h.alu
theorem State.Canonical.execMinn {d a b} : Keeps (execMinn d a b s) := h.alu
theorem State.Canonical.execMaxn {d a b} : Keeps (execMaxn d a b s) := h.alu
theorem State.Canonical.execSlt {d a b} : Keeps (execSlt d a b s) := h.alu
theorem State.Canonical.execSltn {d a b} : Keeps (execSltn d a b s) := h.alu
theorem State.Canonical.execSeq {d a b} : Keeps (execSeq d a b s) := h.alu
theorem State.Canonical.execClz {d a} : Keeps (execClz d a s) := h.alu1
theorem State.Canonical.execCtz {d a} : Keeps (execCtz d a s) := h.alu1
theorem State.Canonical.execPopc {d a} : Keeps (execPopc d a s) := h.alu1
theorem State.Canonical.execSel {d a b} : Keeps (execSel d a b s) := h.issue (fun h => h.result)
theorem State.Canonical.execAddi {d a i} : Keeps (execAddi d a i s) := h.alu1
theorem State.Canonical.execAndi {d a i} : Keeps (execAndi d a i s) := h.alu1
theorem State.Canonical.execOri {d a i} : Keeps (execOri d a i s) := h.alu1
theorem State.Canonical.execXori {d a i} : Keeps (execXori d a i s) := h.alu1
theorem State.Canonical.execShli {d a sh} : Keeps (execShli d a sh s) := h.alu1
theorem State.Canonical.execShri {d a sh} : Keeps (execShri d a sh s) := h.alu1
theorem State.Canonical.execSrai {d a sh} : Keeps (execSrai d a sh s) := h.alu1
theorem State.Canonical.execSlti {d a i} : Keeps (execSlti d a i s) := h.alu1
theorem State.Canonical.execLdi {d i} : Keeps (execLdi d i s) := h.issue (fun h => h.result)
theorem State.Canonical.execLdu {d i} : Keeps (execLdu d i s) := h.issue (fun h => h.result)
theorem State.Canonical.execAdda {d a b k} : Keeps (execAdda d a b k s) := h.alu

end

/-! ### Exchange -/

section
variable {s : State} (h : s.Canonical)
include h

theorem State.Canonical.dropPost {i id} : (s.dropPost i id).Canonical := h.modSlice
theorem State.Canonical.answerPost {x1 v} : (s.answerPost x1 v).Canonical := h.modSlice

theorem State.Canonical.writePosts {i} : (s.writePosts i).Canonical :=
  h.foldl fun _ h => by
    split
    · exact h.dropPost.putToken.ite h
    · exact h

theorem State.Canonical.joinPair {x1 id partner} : (s.joinPair x1 id partner).Canonical := by
  unfold State.joinPair
  dsimp only
  split
  · exact h.upd.foldl fun _ h => h.endHalves
  · exact h.endPair.modGroup
  · exact h

theorem State.Canonical.pairUp {x1 y} : (s.pairUp x1 y).Canonical := h.takeId.joinPair.joinPair.answerPost.answerPost.writePosts.writePosts

theorem State.Canonical.doXpair {g d a key} : (s.doXpair g d a key).Canonical := by
  unfold State.doXpair
  dsimp only
  split
  · exact h.endPair.writeToken
  · split
    · exact h.endPair.takeId.pairUp
    · exact h.endPair.writeToken.ite h.endPair.takeId.modSlice

theorem State.Canonical.execXpair {d a b} : Keeps (execXpair d a b s) :=
  h.issue (fun h => by
    split
    · exact h.setPending.doXpair.advance
    · exact h)

theorem State.Canonical.endPost {slice id} : (s.endPost slice id).Canonical := by
  unfold State.endPost
  split
  · exact h.answerPost.writePosts.ite h
  · exact h

theorem State.Canonical.execXpairTimeout {slice id} : Keeps (execXpairTimeout slice id s) := h.endPost
theorem State.Canonical.sendSwap {g p a} : (s.sendSwap g p a).Canonical := h.modGroup.ite h.modGroup.otherHalf

theorem State.Canonical.doXswap {w} : (s.doXswap w).Canonical :=
  h.laneWaiting (fun h => by
    split
    · exact h
    · exact h.sendSwap) (fun h => by
    split
    · split
      · exact h.modGroup.laneDone
      · exact h
    · exact h)

theorem State.Canonical.execXswap {w} : Keeps (execXswap w s) := h.doXswap

theorem State.Canonical.execXswapArrival {g split} : Keeps (execXswapArrival g split s) := by
  unfold Machine.execXswapArrival
  dsimp only
  split
  · split
    · exact h.upd.doXswap.upd.ite h
    · exact h
  · exact h

end

/-! ### Halts -/

section
variable {s : State} (h : s.Canonical)
include h

theorem State.Canonical.discardStores {h'} : (s.discardStores h').Canonical := h.foldl fun _ h => h.modGroup

theorem State.Canonical.writeRecords {p area room rs} : (s.writeRecords p area room rs).Canonical := by
  induction rs generalizing s with
  | nil => exact h
  | cons x rs ih => exact ih (h.engWrite.ite h)

theorem State.Canonical.setHalt {h'} : (s.setHalt h').Canonical := h.upd

theorem State.Canonical.writeHalt {h' a} : (s.writeHalt h' a).Canonical := by
  unfold State.writeHalt
  dsimp only
  refine .raisePartSource ?_
  split
  · exact h.discardStores.setHalt
  · exact h.discardStores.setHalt.writeRecords.engWrite

theorem State.Canonical.execHaltStopRecords {part dom} : Keeps (execHaltStopRecords part dom s) := by
  unfold Machine.execHaltStopRecords
  split
  · exact h
  · split
    · exact h
    · split
      · split
        · exact h.parkOnce
        · exact h
      · exact h.writeHalt
      · exact h.writeHalt

theorem State.Canonical.dropParked {p dom} : (s.dropParked p dom).Canonical := h.foldl fun _ h => h.modSlice

theorem State.Canonical.resetCore {p dom c} : (s.resetCore p dom c).Canonical :=
  ((h.foldl fun _ h => h.endPair.dropPosts).foldl fun _ h => h.freeWg.releaseQueues).releaseQueues.modCore

theorem State.Canonical.resetNbhs {p dom} : (s.resetNbhs p dom).Canonical := h.foldl fun _ h => (h.foldl fun _ h => h.setRect).upd.ite h

theorem State.Canonical.resetAreas {p dom} : (s.resetAreas p dom).Canonical :=
  ((h.foldl fun _ h => h.modSlice).foldl fun _ h => by
    split
    · exact h.modGroup.ite h
    · exact h).upd

theorem State.Canonical.stopLaunches {p dom code} : (s.stopLaunches p dom code).Canonical := h.upd.foldl fun _ h => h.stopQueue

theorem State.Canonical.resetDomain {p dom code} : (s.resetDomain p dom code).Canonical :=
  (h.dropParked.dropAsyncs.foldl fun _ h => h.resetCore).resetNbhs.resetAreas.stopLaunches.upd.upd

theorem State.Canonical.fdDone {i r} : (s.fdDone i r).Canonical := h.setSliceReg

theorem State.Canonical.fdCommand {i cmd action act} (hact : ∀ p dom, (act p dom).Canonical) : (s.fdCommand i cmd action act).Canonical := by
  unfold State.fdCommand
  split
  · exact h
  · split
    · exact h.fdDone
    · exact .ite (hact _ _) h.fdDone

theorem State.Canonical.execFdHalt {slice cmd} : Keeps (execFdHalt slice cmd s) :=
  h.fdCommand fun _ _ => (h.ite h.raiseHalt).fdDone

theorem State.Canonical.tryReset {i} : (s.tryReset i).Canonical := by
  unfold State.tryReset
  dsimp only
  split
  · exact h
  · split
    · exact h.setSliceReg.fdDone
    · exact h.resetDomain.setSliceReg.fdDone.ite h

theorem State.Canonical.execFdReset {slice cmd} : Keeps (execFdReset slice cmd s) :=
  h.fdCommand fun _ _ => (h.setSliceReg.setSliceReg.ite h.setSliceReg.setSliceReg.raiseHalt).tryReset

theorem State.Canonical.debugResume {g} : (s.debugResume g).Canonical := h.modGroup

theorem State.Canonical.execFdAttach {slice cmd} : Keeps (execFdAttach slice cmd s) :=
  h.fdCommand fun _ _ => (h.modPart (by split_ifs <;> rfl)).fdDone

theorem State.Canonical.execFdDetach {slice cmd} : Keeps (execFdDetach slice cmd s) :=
  h.fdCommand fun _ _ => (h.modPart.foldl fun _ h => h.debugResume).fdDone

theorem State.Canonical.fdOnGroup {i cmd action act} (hact : ∀ g, (act g).Canonical) : (s.fdOnGroup i cmd action act).Canonical :=
  h.fdCommand fun _ _ => by
    split
    · exact h.fdDone
    · split
      · exact h.fdDone
      · exact .ite (hact _) h.fdDone

theorem State.Canonical.fdOnStopped {i cmd action act} (hact : ∀ g, (act g).Canonical) : (s.fdOnStopped i cmd action act).Canonical :=
  h.fdOnGroup fun _ => h.fdDone.ite (.ite (hact _) h.fdDone)

theorem State.Canonical.execFdStop {slice cmd} : Keeps (execFdStop slice cmd s) := h.fdOnGroup (fun _ => (h.ite h.debugStop).fdDone)
theorem State.Canonical.execFdResume {slice cmd} : Keeps (execFdResume slice cmd s) := h.fdOnStopped (fun _ => h.debugResume.fdDone)
theorem State.Canonical.execFdSstep {slice cmd} : Keeps (execFdSstep slice cmd s) := h.fdOnStopped (fun _ => h.debugResume.modGroup.fdDone)

theorem State.Canonical.execFdLstep {slice cmd} : Keeps (execFdLstep slice cmd s) :=
  h.fdOnStopped (fun _ => (h.ite h.debugResume.modGroup).fdDone)

theorem State.Canonical.execStepEnd {g} : Keeps (execStepEnd g s) := h.modGroup.debugStop.ite h

theorem State.Canonical.execLaunchExpiryReset {slice q pidx} : Keeps (execLaunchExpiryReset slice q pidx s) := by
  unfold Machine.execLaunchExpiryReset
  dsimp only
  split
  · split
    · exact h.raiseHalt.ite (h.resetDomain.ite h)
    · exact h
  · exact h

theorem State.Canonical.cancelChain {o w} : (s.cancelChain o w).Canonical :=
  (h.draw.foldl fun _ h => h.engWrite).engWrite.ite (h.draw.foldl fun _ h => h.engWrite)

theorem State.Canonical.execStorageExpiryCancel {slice q pidx} : Keeps (execStorageExpiryCancel slice q pidx s) := by
  unfold Machine.execStorageExpiryCancel
  dsimp only
  split
  · split
    · exact h.ite (h.ite h.cancelChain).dropAsync.retirePacket.stopQueue
    · exact h
  · exact h

end

/-! ### Sections -/

section
variable {s : State} (h : s.Canonical)
include h

theorem State.Canonical.writeRuns {e base runs} : (s.writeRuns e base runs).Canonical := h.foldl fun _ h => h.engWrite

theorem State.Canonical.execFdDump {slice cmd} : Keeps (execFdDump slice cmd s) :=
  h.fdOnGroup fun _ => by
    dsimp only
    split
    · exact h.fdDone
    · split
      · exact h.writeRuns.fdDone
      · exact h.fdDone

theorem State.Canonical.execFdLoad {slice cmd} : Keeps (execFdLoad slice cmd s) :=
  h.fdOnStopped (fun _ => h.fdDone.ite (h.fdDone.ite (h.fdDone.ite h.modGroup.fdDone)))

end

/-! ### LaneMem -/

section
variable {s : State} (h : s.Canonical)
include h

theorem State.Canonical.laneAccess {x1 o at' value expect} : (s.laneAccess x1 o at' value expect).Canonical := h.issueOp.laneNext
theorem State.Canonical.laneLoad {i w lvl each} : (s.laneLoad i w lvl each).Canonical := h.laneIssue (fun h => h.laneAccess)
theorem State.Canonical.laneStore {i w lvl each} : (s.laneStore i w lvl each).Canonical := h.laneIssue (fun h => h.laneAccess)
theorem State.Canonical.execLd {lvl w} : Keeps (execLd lvl w s) := h.laneLoad
theorem State.Canonical.execLdg {lvl w} : Keeps (execLdg lvl w s) := h.laneLoad
theorem State.Canonical.execSt {lvl w} : Keeps (execSt lvl w s) := h.laneStore
theorem State.Canonical.execStsc {lvl w} : Keeps (execStsc lvl w s) := h.laneStore
theorem State.Canonical.execAmo {op order w} : Keeps (execAmo op order w s) := h.laneIssue (fun h => h.laneAccess)
theorem State.Canonical.execLwatch {w} : Keeps (execLwatch w s) := h.laneIssue (fun h => h.modGroup.laneAccess)

theorem State.Canonical.readWatches {a tb ls r} : (s.readWatches a tb ls r).1.Canonical := by
  induction ls generalizing s r with
  | nil => exact h
  | cons l ls ih =>
    unfold State.readWatches
    split
    · exact ih h
    · split
      · next e => exact ih (h.readWatch.value e)
      · exact ih h.parkWatch
      · next e => exact h.readWatch.fault e

theorem State.Canonical.doLwatchW {w} : (s.doLwatchW w).Canonical :=
  h.laneWaiting (fun h => h.modGroup) (fun h => by
    dsimp only
    split
    · split
      · exact h.raiseAfar
      · exact h.readWatches.laneDone.ite h.readWatches.modGroup
    · exact h)

theorem State.Canonical.execLwatchW {w} : Keeps (execLwatchW w s) := h.doLwatchW

end

/-! ### Waits -/

section
variable {s : State} (h : s.Canonical)
include h

theorem State.Canonical.leaveActive {g} : (s.leaveActive g).Canonical := h.modGroup.setGState.count.ite h
theorem State.Canonical.execLeaveActiveSet {g} : Keeps (execLeaveActiveSet g s) := h.leaveActive
theorem State.Canonical.makeReady {g} : (s.makeReady g).Canonical := h.modGroup.setGState.ite h
theorem State.Canonical.execGroupWake {g} : Keeps (execGroupWake g s) := h.makeReady.ite h

theorem State.Canonical.coreTurn {c} : (s.coreTurn c).Canonical := by
  unfold State.coreTurn
  extract_lets each s₁ s₂ s₃
  have h₁ : s₁.Canonical := h.foldl fun _ h => h.remoteBlock
  have h₂ : s₂.Canonical := h₁.foldl fun _ h => h.leaveActive
  have h₃ : s₃.Canonical := h₂.foldl fun _ h => h.makeReady.ite h
  exact .admitNext (h₃.foldl fun _ h => h.ageGroup)

theorem State.Canonical.rereadWatch {f} : (s.rereadWatch f).Canonical := by
  unfold State.rereadWatch
  split
  · exact h.ite (h.modSc.makeReady.ite h.modSc)
  · exact h.ite h.modSc
  · split
    · split
      · exact h.makeReady.ite (h.modGroup.ite h)
      · exact h
    · exact h

theorem State.Canonical.execMonitorWake {g} : Keeps (execMonitorWake g s) := h.rereadWatch
theorem State.Canonical.execWatchReread {g} : Keeps (execWatchReread g s) := h.rereadWatch
theorem State.Canonical.execMwaitvDeadline {f} : Keeps (execMwaitvDeadline f s) := h.rereadWatch.ite h
theorem State.Canonical.execLwatchDeadline {g split} : Keeps (execLwatchDeadline g split s) := h.rereadWatch.ite h

end

/-! ### Saves -/

section
variable {s : State} (h : s.Canonical)
include h

theorem State.Canonical.modPreempt {c f} : (s.modPreempt c f).Canonical := h.modCore
theorem State.Canonical.preemptTo {c st r} : (s.preemptTo c st r).Canonical := h.modPreempt

theorem State.Canonical.requestSave {c cmd forced} : (s.requestSave c cmd forced).Canonical :=
  h.ite (h.preemptTo.ite (h.preemptTo.ite h.modPreempt))

theorem State.Canonical.execPreemptBlocking {c cmd} : Keeps (execPreemptBlocking c cmd s) := h.requestSave.ite h
theorem State.Canonical.execPreemptForced {c cmd} : Keeps (execPreemptForced c cmd s) := h.requestSave.ite h
theorem State.Canonical.execPreemptCancel {c} : Keeps (execPreemptCancel c s) := h.preemptTo.ite h
theorem State.Canonical.holdGroup {g} : (s.holdGroup g).Canonical := h.modGroup
theorem State.Canonical.beginSave {c gs} : (s.beginSave c gs).Canonical := (h.foldl fun _ h => h.holdGroup).preemptTo
theorem State.Canonical.execPreemptGraceExpiry {c} : Keeps (execPreemptGraceExpiry c s) := h.modPreempt.beginSave.ite h
theorem State.Canonical.preemptSettle {c} : (s.preemptSettle c).Canonical := h.preemptTo.ite h
theorem State.Canonical.retargetAll {part ps} : (s.retargetAll part ps).Canonical := h.upd.foldl fun _ h => h.modSlice

theorem State.Canonical.releaseSaved {e xs} : (s.releaseSaved e xs).Canonical := by
  unfold State.releaseSaved
  dsimp only
  split
  · split
    · exact (h.foldl fun _ h => h.freeWg.releaseQueues).upd.foldl fun _ h => h.releaseQueues
    · exact h.foldl fun _ h => h.freeWg.releaseQueues
  · exact h.foldl fun _ h => h.freeWg.releaseQueues

theorem State.Canonical.writeArea {c e xs gridNo runs} : (s.writeArea c e xs gridNo runs).Canonical :=
  h.writeRuns.retargetAll.upd.releaseSaved.preemptTo

theorem State.Canonical.abandonSave {c gs} : (s.abandonSave c gs).Canonical := (h.foldl fun _ h => h.setGState.ite h).preemptTo

theorem State.Canonical.goOnSaving {c} : (s.goOnSaving c).Canonical := by
  unfold State.goOnSaving
  dsimp only
  split
  · exact h.foldl fun _ h => h.holdGroup
  · split
    · exact h.foldl fun _ h => h.holdGroup
    · split
      · exact (h.foldl fun _ h => h.holdGroup).writeArea
      · exact (h.foldl fun _ h => h.holdGroup).parkOnce
      · exact (h.foldl fun _ h => h.holdGroup).abandonSave

theorem State.Canonical.execPreemptSave {c} : Keeps (execPreemptSave c s) := h.beginSave.ite (h.goOnSaving.ite h)

end

/-! ### Restores -/

section
variable {s : State} (h : s.Canonical)
include h

theorem State.Canonical.restoreWg {a area gridNo nbh c x} : (s.restoreWg a area gridNo nbh c x).1.Canonical :=
  .foldlFst h.bindTenant.enterCluster.takeId.modCore fun _ h => h.takeId.draw.setGroup

theorem State.Canonical.comeBack {part rs} : (s.comeBack part rs).Canonical := h.upd.foldl fun _ h => h.modSlice

theorem State.Canonical.standAt {r} : (s.standAt r).Canonical := by
  unfold State.standAt
  dsimp only
  split
  · exact h
  · exact h.setBarrier

theorem State.Canonical.rereadAll {g} : (s.rereadAll g).Canonical := h.rereadWatch.foldl fun _ h => h.rereadWatch

theorem State.Canonical.restoreWgs {a area cmd gridNo nbh c xs} : (s.restoreWgs a area cmd gridNo nbh c xs).1.Canonical := by
  induction xs generalizing s with
  | nil => exact h
  | cons x xs ih => exact ih h.restoreWg

theorem State.Canonical.reinstate {c p area cmd a gridNo xs} : (s.reinstate c p area cmd a gridNo xs).Canonical :=
  (((h.takeId.upd.setRect.ite h).restoreWgs.comeBack.foldl fun _ h => h.standAt).upd.foldl fun _ h => h.rereadAll).preemptTo

theorem State.Canonical.badArea {c gridNo} : (s.badArea c gridNo).Canonical := by
  unfold State.badArea
  dsimp only
  refine .preemptTo ?_
  split
  · exact h.raiseHalt
  · exact h

theorem State.Canonical.checkArea {c p area cmd a} : (s.checkArea c p area cmd a).Canonical := by
  unfold State.checkArea
  dsimp only
  split
  · exact h.preemptTo
  · exact h.badArea.ite (h.preemptTo.ite (h.preemptTo.ite (h.preemptTo.ite h.reinstate)))

theorem State.Canonical.tryRestore {c cmd} : (s.tryRestore c cmd).Canonical := by
  unfold State.tryRestore
  dsimp only
  split
  · exact h.modPreempt.parkOnce.modPreempt
  · exact h.modPreempt.preemptTo
  · exact h.modPreempt.badArea
  · exact h.modPreempt.checkArea

theorem State.Canonical.execRestcmd {c cmd} : Keeps (execRestcmd c cmd s) := h.ite h.tryRestore

theorem State.Canonical.restoreSettle {c} : (s.restoreSettle c).Canonical := by
  unfold State.restoreSettle
  split
  · exact h.ite h.tryRestore
  · exact h

end

/-! ### MemEvents -/

section
variable {s : State} (h : s.Canonical)
include h

theorem State.Canonical.freeEntry {i key} : (s.freeEntry i key).Canonical := h.modSlice.pump
theorem State.Canonical.setSavedOp {p id new} : (s.setSavedOp p id new).Canonical := h.upd
theorem State.Canonical.sectVector {p sect n acted vals} : (s.sectVector p sect n acted vals).Canonical := h.engWrite.engWrite.ite h

theorem State.Canonical.deliverSaved {p x2 o} : (s.deliverSaved p x2 o).Canonical := by
  unfold State.deliverSaved
  dsimp only
  split
  · exact h.sectPut.sectPut
  · exact (h.foldl fun _ h => h.sectVector).ite ((h.sectPut.ite h).ite h)
  · exact h

theorem State.Canonical.savedTimes {p x2 asid va} : (s.savedTimes p x2 asid va).Canonical := by
  unfold State.savedTimes
  dsimp only
  split
  · exact h.sectPut.upd
  · exact h

theorem State.Canonical.performSaved {p id asid va} : (s.performSaved p id asid va).Canonical := by
  unfold State.performSaved
  dsimp only
  split
  · exact h
  · split
    · exact h
    · split
      · exact h
      · exact h.savedTimes.deliverSaved.setSavedOp.ite h.savedTimes.setSavedOp

theorem State.Canonical.faultSaved {p id c} : (s.faultSaved p id c).Canonical := by
  unfold State.faultSaved
  dsimp only
  split
  · exact h.setSavedOp.ite h.setSavedOp.raiseHalt
  · exact h

theorem State.Canonical.performEntry {e} : (s.performEntry e).Canonical := by
  unfold State.performEntry
  dsimp only
  split
  · split
    · split
      · exact h.performOp
      · exact h
    · exact h
  · split
    · exact h.faultSaved
    · split
      · next e => exact (h.readRun.fst e).faultSaved
      · next e => exact (h.readRun.fst e).performSaved
    · exact h
  · exact h

theorem State.Canonical.retryEntry {i key first} : (s.retryEntry i key first).Canonical :=
  (h.modSlice.record.ite h.modSlice).ite h.freeEntry.performEntry

theorem State.Canonical.execBogRetry {slice ctl entry} : Keeps (execBogRetry slice ctl entry s) := h.retryEntry.ite h

theorem State.Canonical.retryKeys {i noted ks} : (s.retryKeys i noted ks).Canonical := by
  induction ks generalizing s noted with
  | nil => exact h
  | cons k ks ih => exact ih h.retryEntry

theorem State.Canonical.execBogRetryPage {slice ctl entry} : Keeps (execBogRetryPage slice ctl entry s) := h.ite h.retryKeys

theorem State.Canonical.faultSave {c} : (s.faultSave c).Canonical :=
  h.modPreempt.preemptTo.ite (h.abandonSave.ite (h.foldl fun _ h => by
    split
    · split
      · exact h.writeHalt
      · exact h
    · exact h))

theorem State.Canonical.fatalEntry {e} : (s.fatalEntry e).Canonical := by
  unfold State.fatalEntry
  dsimp only
  split
  · split
    · exact h.dropOp
    · exact h.raiseAfar.ite h
  · exact h.setFrozen.raiseAfar
  · split
    · exact .settleAsync h
    · exact h
  · split
    · exact h.unitFault
    · exact h
  · split
    · split
      · exact h.retirePacket.stopQueue
      · exact h.modSlot.sliceEvent.ite h.modSlot.draw.stopQueue
      · exact h
    · exact h.upd.raiseSource
    · split
      · exact h.retirePacket.stopQueue
      · exact h
    · exact h.modSlice.raiseSource
    · exact h.dropPending
    · refine .raiseSource ?_
      split
      · exact h.modSlice.setQcb
      · exact h.modSlice
  · exact h.faultSaved
  · exact h.faultSave

theorem State.Canonical.execBogFatal {slice ctl entry} : Keeps (execBogFatal slice ctl entry s) := h.freeEntry.fatalEntry.ite h
theorem State.Canonical.execWcinvWrite {slice value} : Keeps (execWcinvWrite slice value s) := h

theorem State.Canonical.flushSlice {asid region s₀ i} : (s.flushSlice asid region s₀ i).1.Canonical :=
  .foldlFst h fun _ h => h.dropLine

theorem State.Canonical.execL2flushWrite {slice value} : Keeps (execL2flushWrite slice value s) := by
  unfold Machine.execL2flushWrite
  dsimp only [Keeps]
  split
  · exact h
  · refine State.Canonical.modSlice (State.Canonical.foldlFst (q := (s, 0)) h fun _ h => ?_)
    exact h.flushSlice

theorem State.Canonical.execMrbaseWrite {slice value} : Keeps (execMrbaseWrite slice value s) :=
  (h.setSliceReg.modSlice.ite h.setSliceReg).noteFull.pump

theorem State.Canonical.execMrrdWrite {slice value} : Keeps (execMrrdWrite slice value s) := h.setSliceReg.noteFull.pump

end

/-! ### Counters -/

section
variable {s : State} (h : s.Canonical)
include h

theorem State.Canonical.execHbmCreditRefill {slice ctl} : Keeps (execHbmCreditRefill slice ctl s) := by
  unfold Machine.execHbmCreditRefill
  dsimp only
  split
  · exact h
  · exact h.ite h.modSlice

theorem State.Canonical.execSeepLeak {slice kind} : Keeps (execSeepLeak slice kind s) := h.modSlice.ite h
theorem State.Canonical.execSeepcfgWrite {slice kind value} : Keeps (execSeepcfgWrite slice kind value s) := h.setSliceReg.modSlice
theorem State.Canonical.execFijctlWrite {slice value} : Keeps (execFijctlWrite slice value s) := h.setSliceReg
theorem State.Canonical.execPmcWrite {c n value} : Keeps (execPmcWrite c n value s) := h.setCoreReg

end

/-! ### Inbound -/

section
variable {s : State} (h : s.Canonical)
include h

theorem State.Canonical.recall {pl} : (s.recall pl).Canonical := h.foldl fun _ h => h.dropLine
theorem State.Canonical.outsideStore {pa bs} : (s.outsideStore pa bs).Canonical := (h.foldl fun _ h => h.recall).hbmWrite

theorem State.Canonical.outsideErrors {pa} : (s.outsideErrors pa).Canonical := by
  unfold State.outsideErrors
  dsimp only
  split
  · exact h.readLine
  · exact h.injectCorrected.opportunity.raiseSource.poisonLine.ite h.injectCorrected.opportunity

theorem State.Canonical.outsideLoad {pa n} : (s.outsideLoad pa n).Canonical := h.outsideErrors.upd

end

/-! ### Links -/

section
variable {s : State} (h : s.Canonical)
include h

theorem State.Canonical.modPort {i p f} : (s.modPort i p f).Canonical := h.modSlice
theorem State.Canonical.linkError {i p field} : (s.linkError i p field).Canonical := h.ite h.setSliceReg
theorem State.Canonical.modChstat {i ch f} : (s.modChstat i ch f).Canonical := h.setSliceReg
theorem State.Canonical.modChannel {i ch f} : (s.modChannel i ch f).Canonical := h.modSlice
theorem State.Canonical.queuePacket {i p r cls flits tenant} : (s.queuePacket i p r cls flits tenant).Canonical := h.modPort
theorem State.Canonical.logAbort {i ws} : (s.logAbort i ws).Canonical := (h.setSliceReg.ite h.setSliceReg.writeMem).raiseSource

theorem State.Canonical.sendAbort {i kind cls port flits h'} : (s.sendAbort i kind cls port flits h').Canonical :=
  h.modSlice.ite h.draw.queuePacket

theorem State.Canonical.execAbortRecord {slice words} : Keeps (execAbortRecord slice words s) := h.modSlice.logAbort.ite h
theorem State.Canonical.linkTo {i p st} : (s.linkTo i p st).Canonical := h.modPort
theorem State.Canonical.linkEvent {i} : (s.linkEvent i).Canonical := h.raiseSource
theorem State.Canonical.endRelay {i p c} : (s.endRelay i p c).Canonical := h.modSlice
theorem State.Canonical.endOpen {i p c kind} : (s.endOpen i p c kind).Canonical := h.sendAbort.endRelay.modPort.ite h
theorem State.Canonical.breakLink {i p} : (s.breakLink i p).Canonical := (h.foldl fun _ h => h.endOpen).modPort
theorem State.Canonical.startTrain {i p} : (s.startTrain i p).Canonical := h.modPort
theorem State.Canonical.linkFailure {i p} : (s.linkFailure i p).Canonical := h.breakLink.linkTo.modPort.startTrain.linkEvent.ite h

theorem State.Canonical.failOriginator {h'} : (s.failOriginator h').Canonical := by
  unfold State.failOriginator
  dsimp only
  split
  · exact h.draw.modPart.raiseAfar
  · exact h.draw.raiseAfar
  · exact h

theorem State.Canonical.resolveKept {i p r last} : (s.resolveKept i p r last).Canonical := h.modPort.foldl fun _ h => h.logAbort.failOriginator
theorem State.Canonical.tryUp {i p} : (s.tryUp i p).Canonical := (h.linkTo.linkEvent.ite h.linkTo).ite h
theorem State.Canonical.execLinkLockObtained {slice port} : Keeps (execLinkLockObtained slice port s) := h.breakLink.linkTo.startTrain.ite h
theorem State.Canonical.execLinkLockLost {slice port} : Keeps (execLinkLockLost slice port s) := h.linkFailure.ite h
theorem State.Canonical.execLinkTrainTimeout {slice port} : Keeps (execLinkTrainTimeout slice port s) := h.linkTo.linkEvent.ite h

theorem State.Canonical.execLnkcfgWrite {slice port value} : Keeps (execLnkcfgWrite slice port value s) :=
  h.ite ((h.setSliceReg.ite h.setSliceReg.breakLink.linkTo).ite (h.setSliceReg.linkTo.ite h.setSliceReg))

theorem State.Canonical.rejectFlit {i p r} : (s.rejectFlit i p r).Canonical := h.linkError.modPort
theorem State.Canonical.pauseAtHi {i p c} : (s.pauseAtHi i p c).Canonical := h.modPort.ite h
theorem State.Canonical.drainClass {i p c n} : (s.drainClass i p c n).Canonical := h.modPort.modPort.ite h.modPort
theorem State.Canonical.landPacket {i p h' payload} : (s.landPacket i p h' payload).Canonical := h.modSlice.ite (h.outsideStore.ite h)

theorem State.Canonical.startRelay {i p c flit eop} : (s.startRelay i p c flit eop).Canonical := by
  unfold State.startRelay
  dsimp only
  split
  · exact h
  · split
    · exact h.draw
    · exact h.draw.modPort

theorem State.Canonical.feedRelay {i p c flit eop} : (s.feedRelay i p c flit eop).Canonical := h.modSlice

theorem State.Canonical.endPacket {i p c psn} : (s.endPacket i p c psn).Canonical :=
  h.linkError.modPort.endRelay.drainClass.ite (h.linkError.modPort.sendAbort.endRelay.drainClass.ite (h.modPort.endRelay.drainClass.ite
      (h.modPort.landPacket.ite h.modPort)))

theorem State.Canonical.acceptFlit {i p r f} : (s.acceptFlit i p r f).Canonical :=
  h.draw.modPort.pauseAtHi.endPacket.ite (((h.draw.modPort.pauseAtHi.ite h.draw.modPort.pauseAtHi.feedRelay).ite
      h.draw.modPort.pauseAtHi.startRelay).endPacket.ite ((h.draw.modPort.pauseAtHi.ite h.draw.modPort.pauseAtHi.feedRelay).ite
          h.draw.modPort.pauseAtHi.startRelay))

theorem State.Canonical.execDataFlitReceive {slice port f} : Keeps (execDataFlitReceive slice port f s) :=
  h.ite (h.ite (h.rejectFlit.ite (h.linkFailure.ite h.acceptFlit)))

theorem State.Canonical.controlFlit {i p ctype f sts act} (hact : ∀ {t : State}, t.Canonical → (act t).Canonical) :
    (s.controlFlit i p ctype f sts act).Canonical :=
  h.ite (h.linkFailure.ite ((h.rejectFlit.ite h).ite (hact h)))

theorem State.Canonical.execAck {slice port f} : Keeps (execAck slice port f s) := h.controlFlit (fun h => h.modPort)
theorem State.Canonical.execNak {slice port f} : Keeps (execNak slice port f s) := h.controlFlit (fun h => h.modPort.linkFailure.ite h.modPort)
theorem State.Canonical.execPause {slice port f} : Keeps (execPause slice port f s) := h.controlFlit (fun h => h.modPort)
theorem State.Canonical.execResume {slice port f} : Keeps (execResume slice port f s) := h.controlFlit (fun h => h.modPort)
theorem State.Canonical.execTrain {slice port f} : Keeps (execTrain slice port f s) := h.controlFlit (fun h => h.linkFailure.resolveKept.tryUp)

theorem State.Canonical.execControlFlitUnknownCtype {slice port f} : Keeps (execControlFlitUnknownCtype slice port f s) :=
  (h.controlFlit (fun h => h.linkError)).ite h

theorem State.Canonical.execPauseRepeat {slice port cls} : Keeps (execPauseRepeat slice port cls s) := h.modPort.ite h
theorem State.Canonical.execReceiveBufferDrain {slice port cls n} : Keeps (execReceiveBufferDrain slice port cls n s) := h.drainClass.ite h

theorem State.Canonical.putFlit {i p f} : (s.putFlit i p f).Canonical :=
  h.modPort.ite (h.opportunity.opportunity.modPort.linkFailure.ite h.opportunity.opportunity.modPort)

theorem State.Canonical.sendControl {i p q f waited} : (s.sendControl i p q f waited).Canonical := h.modPort.modPort.putFlit.tryUp
theorem State.Canonical.sendAgain {i p r f} : (s.sendAgain i p r f).Canonical := h.modPort.putFlit

theorem State.Canonical.sendData {i p r t} : (s.sendData i p r t).Canonical := by
  unfold State.sendData
  dsimp only
  refine .putFlit ?_
  split
  · exact h.modPort.addUsage.ite h.modPort
  · exact h.modPort

theorem State.Canonical.dropBarred {i p r} : (s.dropBarred i p r).Canonical := h.modPort
theorem State.Canonical.passMarble {i ch} : (s.passMarble i ch).Canonical := h.modChstat.modChannel
theorem State.Canonical.traffic {i p r} : (s.traffic i p r).Canonical := h.draw.ite h.draw.queuePacket.draw

theorem State.Canonical.flitTime {i p} : (s.flitTime i p).Canonical := by
  unfold State.flitTime
  extract_lets r t x d rs full free held data waits
  have ht : t.Canonical := h.ite h.dropBarred
  have hdata : data.Canonical := by
    unfold data
    split
    · exact ht.sendAgain.ite ht.modPort
    · split
      · exact ht.sendData
      · exact ht.modPort
  refine ht.modPort.ite (ht.modPort.passMarble.ite ?_)
  split
  · exact hdata.ite ht.sendControl
  · exact hdata.ite ht

theorem State.Canonical.repeatPauses {i p} : (s.repeatPauses i p).Canonical :=
  h.foldl fun _ h => by
    split
    · next e => exact (h.execPauseRepeat.next e)
    · exact h

theorem State.Canonical.channelUse {i p before} : (s.channelUse i p before).Canonical := h.modSlice.ite h
theorem State.Canonical.execFlitSend {slice port} : Keeps (execFlitSend slice port s) := h.ite h.flitTime.channelUse.repeatPauses.draw.traffic

end

/-! ### Photonics -/

section
variable {s : State} (h : s.Canonical)
include h

theorem State.Canonical.setWidth {i ch w} : (s.setWidth i ch w).Canonical := h.modChstat
theorem State.Canonical.endWake {i ch} : (s.endWake i ch).Canonical := h.modChstat.modChannel
theorem State.Canonical.narrow {i ch} : (s.narrow i ch).Canonical := h.modChannel.ite (h.endWake.modChstat.setWidth.ite h)
theorem State.Canonical.widen {i ch} : (s.widen i ch).Canonical := h.setWidth.ite h
theorem State.Canonical.wake {i ch} : (s.wake i ch).Canonical := h.ite h.modChstat.modChannel

theorem State.Canonical.phEvent {i cause what failed} : (s.phEvent i cause what failed).Canonical := by
  unfold State.phEvent
  dsimp only
  split
  · exact h.fwEvent
  · exact h

theorem State.Canonical.execChannelIdlePark {slice chan} : Keeps (execChannelIdlePark slice chan s) := h.narrow.ite h
theorem State.Canonical.execParknow {slice chan} : Keeps (execParknow slice chan s) := h.narrow.ite h

theorem State.Canonical.execChcfgWrite {slice chan value} : Keeps (execChcfgWrite slice chan value s) :=
  h.ite ((h.setSliceReg.wake.ite h.setSliceReg).narrow.ite (h.setSliceReg.wake.ite h.setSliceReg))

theorem State.Canonical.execChannelWake {slice chan} : Keeps (execChannelWake slice chan s) := h.wake.ite h

theorem State.Canonical.execWavelengthLocked {slice chan lam} : Keeps (execWavelengthLocked slice chan lam s) :=
  (h.modChstat.modChannel.widen.endWake.ite h.modChstat.modChannel.widen).ite h

theorem State.Canonical.execChannelWakeTimeout {slice chan} : Keeps (execChannelWakeTimeout slice chan s) := h.modChstat.endWake.phEvent.ite h
theorem State.Canonical.execMarblePass {slice chan} : Keeps (execMarblePass slice chan s) := h.passMarble.ite h
theorem State.Canonical.setRingLock {i n b} : (s.setRingLock i n b).Canonical := h.ite h.setSliceReg

theorem State.Canonical.execPhmapApply {slice cluster value} : Keeps (execPhmapApply slice cluster value s) :=
  (h.setSliceReg.modSlice.foldl fun _ h => h.ite h.setSliceReg.setRingLock).ite h

theorem State.Canonical.failWaves {i ch ls} : (s.failWaves i ch ls).Canonical := h.ite h.modChstat.setWidth

theorem State.Canonical.afterReassign {i c} : (s.afterReassign i c).Canonical :=
  h.foldl fun _ h => (h.widen.ite h).modChannel.narrow.ite (h.widen.ite h)

theorem State.Canonical.execReassignEnd {slice cluster locked} : Keeps (execReassignEnd slice cluster locked s) :=
  h.ite ((h.foldl fun _ h => h.setRingLock.ite h).ite ((h.foldl fun _ h => h.setRingLock.ite h).foldl fun _ h =>
      h.failWaves).setSliceReg.afterReassign.phEvent)

theorem State.Canonical.execRingLockLost {slice ring mon} : Keeps (execRingLockLost slice ring mon s) :=
  h.ite ((h.setRingLock.foldl fun _ h => by
    dsimp only
    split
    · exact h.modChstat.linkFailure.ite h.modChstat
    · exact h).phEvent.ite ((h.setRingLock.foldl fun _ h => by
    split
    · exact h.modChstat.ite h
    · exact h).ite h))

end

/-! ### Endpoints -/

section
variable {s : State} (h : s.Canonical)
include h

theorem State.Canonical.setEpstat {i p v} : (s.setEpstat i p v).Canonical := h.ite h.setSliceReg
theorem State.Canonical.setMsixPending {i p v b} : (s.setMsixPending i p v b).Canonical := h.withMem (memSet_wf _ _ _ h.mem)
theorem State.Canonical.sendMsix {i p v} : (s.sendMsix i p v).Canonical := h.modSlice
theorem State.Canonical.flushMsix {i p} : (s.flushMsix i p).Canonical := h.foldl fun _ h => h.setMsixPending.sendMsix.ite h
theorem State.Canonical.flushEndpoints {i} : (s.flushEndpoints i).Canonical := h.foldl fun _ h => h.flushMsix.ite h
theorem State.Canonical.execEpmsiWrite {slice port value} : Keeps (execEpmsiWrite slice port value s) := h.ite (h.setMsixPending.ite h.sendMsix)
theorem State.Canonical.ringMailbox {i p} : (s.ringMailbox i p).Canonical := h.setEpstat.raiseSource

theorem State.Canonical.inbound {i p bar2 off acc} : (s.inbound i p bar2 off acc).Canonical := by
  unfold State.inbound
  extract_lets b base size n part
  refine h.ite ?_
  cases acc with
  | load n => exact h.outsideLoad.ite h
  | store n v => exact h.ite (h.outsideStore.ringMailbox.ite (h.outsideStore.flushMsix.ite h.outsideStore))

theorem State.Canonical.execEpInboundRequest {slice port bar2 off acc} : Keeps (execEpInboundRequest slice port bar2 off acc s) := h.inbound
theorem State.Canonical.execEpDoorbell {slice port value} : Keeps (execEpDoorbell slice port value s) := h.inbound
theorem State.Canonical.execEpLinkUp {slice port} : Keeps (execEpLinkUp slice port s) := h.setEpstat.ite h

theorem State.Canonical.execEpHotReset {slice port} : Keeps (execEpHotReset slice port s) :=
  h.setEpstat.outsideStore.modSlice.setEpstat.raiseSource.ite h

theorem State.Canonical.execEpConfigWrite {slice port off value} : Keeps (execEpConfigWrite slice port off value s) := h.ite h.modSlice.flushMsix

end

/-! ### SysRegs -/

section
variable {s : State} (h : s.Canonical)
include h

theorem State.Canonical.clearRead {i n} : (s.clearRead i n).Canonical :=
  h.setSliceReg.ite ((h.ite h.setSliceReg).ite (h.setSliceReg.ite (h.modPort.ite (h.draw.ite h))))

theorem Keeps.ran {o} (ho : Keeps o) : (ran o s).Canonical := by
  unfold Machine.ran
  split
  · exact ho
  · exact h

theorem State.Canonical.writeFdcmd {i v} : (s.writeFdcmd i v).Canonical := by
  refine Keeps.ran h ?_
  split
  · exact h.execFdHalt
  · exact h.execFdReset
  · exact h.execFdAttach
  · exact h.execFdDetach
  · exact h.execFdStop
  · exact h.execFdResume
  · exact h.execFdSstep
  · exact h.execFdLstep
  · exact h.execFdDump
  · exact h.execFdLoad
  · exact h

theorem State.Canonical.writeBogctl {i v} : (s.writeBogctl i v).Canonical := by
  refine Keeps.ran h ?_
  split
  · exact h.execBogRetry
  · exact h.execBogFatal
  · exact h.execBogRetryPage
  · exact h

theorem State.Canonical.writePrecmd {c v} : (s.writePrecmd c v).Canonical := by
  refine Keeps.ran h ?_
  split
  · exact h.execPreemptBlocking
  · exact h.execPreemptForced
  · exact h.execPreemptCancel
  · exact h

theorem State.Canonical.writeRing {i n v} : (s.writeRing i n v).Canonical := h.ite h.setSliceReg

theorem State.Canonical.writeCore {c n v} : (s.writeCore c n v).Canonical :=
  h.setCoreReg.ite (h.setCoreReg.ite (h.setCoreReg.ite (h.setCoreReg.ite ((h.execPmcWrite.ran h).ite (h.setCoreReg.ite (h.writePrecmd.ite
      (h.setCoreReg.ite ((h.execRestcmd.ran h).ite h))))))))

theorem State.Canonical.writeSlice {i n v} : (s.writeSlice i n v).Canonical :=
  h.setSliceReg.ite (h.writeBogctl.ite (h.setSliceReg.ite (h.setSliceReg.ite (h.setSliceReg.ite ((h.execSeepcfgWrite.ran h).ite (h.setSliceReg.ite
      (h.setSliceReg.ite ((h.execFijctlWrite.ran h).ite (h.writeFdcmd.ite (h.setSliceReg.ite (h.setSliceReg.ite (h.writeRing.ite
          ((h.execPhmapApply.ran h).ite (h.setSliceReg.ite ((h.setSliceReg.ite h).ite ((h.execEpmsiWrite.ran h).ite ((h.execLnkcfgWrite.ran h).ite
              (h.setSliceReg.ite (h.setSliceReg.ite ((h.execChcfgWrite.ran h).ite (h.setSliceReg.ite ((h.execWcinvWrite.ran h).ite
                  ((h.execMrbaseWrite.ran h).ite ((h.execMrrdWrite.ran h).ite ((h.execL2flushWrite.ran h).ite h)))))))))))))))))))))))))

theorem State.Canonical.writeSys {c n v} : (s.writeSys c n v).Canonical := h.writeCore.ite (h.writeSlice.ite h)

theorem State.Canonical.execSysrd {d num} : Keeps (execSysrd d num s) := by
  unfold Machine.execSysrd
  split
  · exact h.raise
  · exact h.issue (fun h => h.clearRead.result)

theorem State.Canonical.writeAs {a n v} : (s.writeAs a n v).Canonical := by
  unfold State.writeAs
  split
  · exact h.modGroup.ite h
  · exact h.ite h.writeSys

theorem State.Canonical.execSyswr {a num} : Keeps (execSyswr a num s) := by
  unfold Machine.execSyswr
  split
  · exact h.raise
  · exact h.issue (fun h => h.writeAs.advance)

theorem State.Canonical.execRegisterWrite {c num value} : Keeps (execRegisterWrite c num value s) := h.writeSys.ite h
theorem State.Canonical.execRegisterReadClear {c num} : Keeps (execRegisterReadClear c num s) := h.clearRead.upd.ite h
theorem State.Canonical.execUnassignedInstruction {w} : Keeps (execUnassignedInstruction w s) := h.upd.raise

end

/-! ### Prc -/

section
variable {s : State} (h : s.Canonical)
include h

theorem State.Canonical.answerAgent {p c num va d w r} : (s.answerAgent p c num va d w r).Canonical := h.ite (h.engWrite.ite h).modPuppet
theorem State.Canonical.answerHost {p w r} : (s.answerHost p w r).Canonical := h.modPart.raisePartSource

theorem State.Canonical.answer {by' w r} : (s.answer by' w r).Canonical := by
  cases by' with
  | management => exact h.updPrc
  | kernel p =>
    unfold State.answer
    dsimp only
    split
    · exact h
    · split
      · exact h.modPart.answerAgent
      · exact h.modPart.answerHost

theorem State.Canonical.handle {by' m op kernel mgmt act wait} (hact : ∀ {t u r}, t.Canonical → act t = some (u, r) → u.Canonical)
    (hwait : ∀ {t}, t.Canonical → (wait t).Canonical) : (s.handle by' m op kernel mgmt act wait).Canonical := by
  unfold State.handle
  refine h.ite (h.answer.ite (h.ite (h.answer.ite (h.answer.ite ?_))))
  split
  · next e => exact (hact h e).answer
  · exact hwait h

theorem State.Canonical.kernelMessage {by' m op act wait} (hact : ∀ {p w t u r}, t.Canonical → act p w t = some (u, r) → u.Canonical)
    (hwait : ∀ {p t}, t.Canonical → (wait p t).Canonical) : (s.kernelMessage by' m op act wait).Canonical := by
  cases by' with
  | management => exact h.handle (fun _ e => by cases e) id
  | kernel p => exact h.handle hact hwait

theorem State.Canonical.sendLetter {p l} : (s.sendLetter p l).Canonical := h.modPart

theorem State.Canonical.execPrcmsg {d a} : Keeps (execPrcmsg d a s) :=
  h.issue (fun h => h.ite (h.waitOn.ite (h.ifKept (fun h => h.withBytes (fun h => h.withBytes (fun h => h.takeId.sendLetter.modPuppet.waitOn))))))

theorem State.Canonical.execHostMailboxSend {part} : Keeps (execHostMailboxSend part s) := h.ite h.sendLetter.modPart
theorem State.Canonical.changePmap {p f} : (s.changePmap p f).Canonical := h.setPrcReg.setPrcReg

theorem State.Canonical.acceptFeatures {p v} : (s.acceptFeatures p v).1.Canonical := by
  unfold State.acceptFeatures
  split
  · exact h
  · split
    · exact h
    · exact h.modPart.fwEventAll

theorem State.Canonical.execFeat {by' m} : Keeps (execFeat by' m s) :=
  h.kernelMessage (fun h e => h.acceptFeatures.fst (Option.some.inj e)) id

theorem State.Canonical.execLease {by' m} : Keeps (execLease by' m s) :=
  h.kernelMessage (fun h e => by
    dsimp only at e
    split_ifs at e <;> cases e
    · exact h
    · exact h.changePmap) id

theorem State.Canonical.setRange {i port j b l} : (s.setRange i port j b l).Canonical := h.ite h.setSliceReg.setSliceReg.setSliceReg

theorem State.Canonical.grantDyke {p w} : (s.grantDyke p w).1.Canonical := by
  unfold State.grantDyke
  dsimp only
  split
  · exact h
  · split
    · exact h
    · split
      · exact h
      · split
        · exact h
        · exact h.foldl fun _ h => h.setRange

theorem State.Canonical.execDyke {by' m} : Keeps (execDyke by' m s) :=
  h.kernelMessage (fun h e => h.grantDyke.fst (Option.some.inj e)) id

theorem State.Canonical.setRoute {i src v} : (s.setRoute i src v).Canonical := h.setSliceReg.raiseSource.ite h.setSliceReg

theorem State.Canonical.route {p w} : (s.route p w).1.Canonical := by
  unfold State.route
  dsimp only
  split
  · exact h
  · split
    · exact h
    · exact h.foldl fun _ h => h.setRoute

theorem State.Canonical.execRoute {by' m} : Keeps (execRoute by' m s) :=
  h.kernelMessage (fun h e => h.route.fst (Option.some.inj e)) id

theorem State.Canonical.loadKey {p w} : (s.loadKey p w).1.Canonical := by
  unfold State.loadKey
  dsimp only
  split
  · exact h
  · split
    · exact h
    · exact (h.engWrite.ite h).modPart

theorem State.Canonical.execKeyload {by' m} : Keeps (execKeyload by' m s) :=
  h.kernelMessage (fun h e => h.loadKey.fst (Option.some.inj e)) id

theorem State.Canonical.execOwnerkey {by' m} : Keeps (execOwnerkey by' m s) :=
  h.handle (fun h e => by cases e; exact h.updPrc) id

theorem State.Canonical.putOut {by' va bs} : (s.putOut by' va bs).1.Canonical := by
  cases by' with
  | management => exact h.updPrc
  | kernel p =>
    unfold State.putOut
    dsimp only
    split
    · exact h.engWrite
    · exact h

theorem State.Canonical.usnap {by' w} : (s.usnap by' w).1.Canonical := by
  unfold State.usnap
  extract_lets
  split
  · exact h
  · exact h.putOut

theorem State.Canonical.execUsnap {by' m} : Keeps (execUsnap by' m s) :=
  h.handle (fun h e => h.usnap.fst (Option.some.inj e)) id

theorem State.Canonical.execAttest {by' m} : Keeps (execAttest by' m s) :=
  h.handle (fun h e => h.draw.putOut.fst (Option.some.inj e)) id

theorem State.Canonical.execCert {by' m} : Keeps (execCert by' m s) :=
  h.handle (fun h e => h.putOut.fst (Option.some.inj e)) id

theorem State.Canonical.uncheckAll {p} : (s.uncheckAll p).Canonical := h.foldl fun _ h => h.modPuppet
theorem State.Canonical.offer {p bs} : (s.offer p bs).Canonical := h.modPart.uncheckAll.fwEventAll

theorem State.Canonical.fwoffer {p va} : (s.fwoffer p va).1.Canonical := by
  unfold State.fwoffer
  dsimp only
  split
  · exact h
  · split
    · exact h
    · split
      · exact h
      · split
        · exact h
        · split
          · exact h.offer
          · exact h

theorem State.Canonical.execFwoffer {by' m} : Keeps (execFwoffer by' m s) :=
  h.kernelMessage (fun h e => h.fwoffer.fst (Option.some.inj e)) id

theorem State.Canonical.rollBack {p} : (s.rollBack p).Canonical := h.modPart.uncheckAll
theorem State.Canonical.endSwitch {p} : (s.endSwitch p).Canonical := h.modPart.ite h

theorem State.Canonical.fwchk {p w c} : (s.fwchk p w c).1.Canonical := by
  unfold State.fwchk
  split
  · exact h
  · split
    · exact h.rollBack
    · split
      · exact h.modPuppet.endSwitch
      · exact h

theorem State.Canonical.execFwchk {by' m c} : Keeps (execFwchk by' m c s) :=
  h.kernelMessage (fun h e => by
    split at e
    · split_ifs at e
      exact h.fwchk.fst (Option.some.inj e)
    · exact h.fwchk.fst (Option.some.inj e)) id

theorem State.Canonical.execFwSwitchTimeout {part} : Keeps (execFwSwitchTimeout part s) := h.rollBack.ite h
theorem State.Canonical.endpointRanges {p i port} : (s.endpointRanges p i port).Canonical := h.setRange.setRange.setRange.setRange

theorem State.Canonical.epcfg {p w} : (s.epcfg p w).1.Canonical := by
  unfold State.epcfg
  dsimp only
  split
  · exact h
  · split
    · exact h
    · exact h.modSlice.setEpstat.endpointRanges

theorem State.Canonical.execEpcfg {by' m} : Keeps (execEpcfg by' m s) :=
  h.kernelMessage (fun h e => h.epcfg.fst (Option.some.inj e)) id

end

/-! ### Form -/

section
variable {s : State} (h : s.Canonical)
include h

theorem State.Canonical.setRanges {i port rs} : (s.setRanges i port rs).Canonical := h.foldl fun _ h => h.setRange
theorem State.Canonical.setDyke {i port v} : (s.setDyke i port v).Canonical := h.ite h.setSliceReg
theorem State.Canonical.formRanges {p is i port} : (s.formRanges p is i port).Canonical := h.ite h.setRanges
theorem State.Canonical.openPort {p is i port} : (s.openPort p is i port).Canonical := h.setDyke.formRanges
theorem State.Canonical.closePort {i port} : (s.closePort i port).Canonical := h.setRanges.setDyke
theorem State.Canonical.formDykes {p is} : (s.formDykes p is).Canonical := h.foldl fun _ h => h.foldl fun _ h => h.openPort.ite h.closePort
theorem State.Canonical.reformRanges {p is} : (s.reformRanges p is).Canonical := h.foldl fun _ h => h.foldl fun _ h => h.formRanges.ite h
theorem State.Canonical.formRoutes {lowest i} : (s.formRoutes lowest i).Canonical := h.foldl fun _ h => h.setSliceReg
theorem State.Canonical.closeRoutes {i} : (s.closeRoutes i).Canonical := h.foldl fun _ h => h.setSliceReg

theorem State.Canonical.clearSlices {is} : (s.clearSlices is).Canonical := by
  unfold State.clearSlices
  extract_lets inHbm homed s₁ s₂
  have h₁ : s₁.Canonical := h.foldl fun _ h => h.modPart_wf (filter_wf _ _ h.part)
  have h₂ : s₂.Canonical := h₁.dropAsyncs.foldl fun _ h => h.modSlice
  exact (h₂.withMem (filter_wf _ (fun e => !inHbm e.1) h₂.mem)).upd

theorem State.Canonical.setInterleave {i} : (s.setInterleave i).Canonical := h.setSliceReg
theorem State.Canonical.stopInjector {i} : (s.stopInjector i).Canonical := h.setSliceReg

theorem State.Canonical.startAgents {p is} : (s.startAgents p is).Canonical :=
  h.foldl fun _ h => ((h.foldl fun _ h => h.startAgent).foldl fun _ h => h.phEvent).modSlice

theorem State.Canonical.dropAllLines {p} : (s.dropAllLines p).Canonical := h.foldl fun _ h => h.foldl fun _ h => h.dropLine
theorem State.Canonical.setArt {i es image} : (s.setArt i es image).Canonical := h.modSlice.setSliceReg.setSliceReg
theorem State.Canonical.dropPartition {p} : (s.dropPartition p).Canonical := (h.modPart_wf rfl).dropAsyncs.upd

theorem State.Canonical.formPartition {p is w} : (s.formPartition p is w).Canonical :=
  ((h.clearSlices.foldl fun _ h => h.setInterleave.setArt).formDykes.foldl fun _ h => h.formRoutes).changePmap.setPrcReg.startAgents

end

/-! ### Handover -/

section
variable {s : State} (h : s.Canonical)
include h

theorem State.Canonical.modMove {p f} : (s.modMove p f).Canonical := h.modPart
theorem State.Canonical.nextMoveStep {p} : (s.nextMoveStep p).Canonical := h.modMove.raisePartSource

theorem State.Canonical.cutSlice {p i} : (s.cutSlice p i).Canonical := by
  unfold State.cutSlice
  extract_lets s₁ s₂ s₃ s₄
  have h₁ : s₁.Canonical := h.foldl fun _ h => h.closePort
  have h₂ : s₂.Canonical := h₁.foldl fun _ h => h.foldl fun _ h => h.closePort.ite h
  have h₃ : s₃.Canonical := h₂.closeRoutes.stopInjector
  exact h₃.modSlice.changePmap

theorem State.Canonical.joinSlice {p q i} : (s.joinSlice p q i).Canonical :=
  (h.dropAllLines.clearSlices.foldl fun _ h => h.setSliceReg.modSlice.ite
      h).setInterleave.setArt.formDykes.formRoutes.changePmap.changePmap.modPart.startAgents.modSlice.raisePartSource.raisePartSource

theorem State.Canonical.advanceMove {p} : (s.advanceMove p).Canonical := by
  unfold State.advanceMove
  split
  · exact h
  · exact h.nextMoveStep.ite (h.cutSlice.nextMoveStep.ite (h.joinSlice.ite h))

theorem State.Canonical.endAbandon {p m nseg} : (s.endAbandon p m nseg).Canonical :=
  h.modPart.changePmap.changePmap.modSlice.raisePartSource.raisePartSource

theorem State.Canonical.abandonHandover {p m nseg} : (s.abandonHandover p m nseg).Canonical := (h.reformRanges.ite h).endAbandon

theorem State.Canonical.afterArtload {p n} : (s.afterArtload p n).Canonical := by
  unfold State.afterArtload
  split
  · have hc : (s.modPart p fun x => { x with chip := x.chip.filter fun e => e.1 < n * 0x80000 }).Canonical :=
      h.modPart_wf (filter_wf _ _ h.part)
    exact .ite (hc.changePmap.abandonHandover.ite hc.changePmap.nextMoveStep) h
  · exact h

theorem State.Canonical.artload {p va t r} (e : s.artload p va = some (t, r)) : t.Canonical := by
  unfold State.artload at e
  dsimp only at e
  split at e
  · cases e; exact h
  · split at e
    · cases e; exact h
    · split_ifs at e
      · cases e; exact h
      · cases e
        exact .afterArtload (h.dropAllLines.foldl fun _ h => h.setArt)

theorem State.Canonical.holdForArt {b p} : (s.holdForArt b p).Canonical := h.modPart

theorem State.Canonical.execArtload {by' m} : Keeps (execArtload by' m s) :=
  h.kernelMessage (fun h e => by
    obtain ⟨q, hq, e⟩ := Option.map_eq_some_iff.1 e
    cases e
    exact (h.artload hq).holdForArt) fun h => h.holdForArt

theorem State.Canonical.startMove {w} : (s.startMove w).Canonical :=
  h.changePmap.changePmap.modPart.raisePartSource.raisePartSource.foldl fun _ h => h.fwEvent

theorem State.Canonical.execMove {by' m} : Keeps (execMove by' m s) :=
  h.ite (h.handle (fun h e => by
    split at e
    · cases e
    · split at e
      · exact h.fst (Option.some.inj e)
      · obtain ⟨rfl, rfl⟩ := Prod.mk.inj (Option.some.inj e)
        exact h.startMove) id)

theorem State.Canonical.abandon {w} : (s.abandon w).1.Canonical := by
  unfold State.abandon
  extract_lets p
  split
  · exact h
  · next m _ =>
    have hm : (s.modPart p fun x => { x with abandonAtArt := true }).Canonical := h.modPart
    have ha : (s.abandonHandover p m none).Canonical := h.abandonHandover
    rw [apply_ite Prod.fst, apply_ite Prod.fst]
    exact h.ite (hm.ite ha)

theorem State.Canonical.execMoveAbandon {by' m} : Keeps (execMoveAbandon by' m s) :=
  h.ite (h.handle (fun h e => by
    split_ifs at e
    exact h.abandon.fst (Option.some.inj e)) id)

theorem State.Canonical.moveack {p n} : (s.moveack p n).1.Canonical := by
  unfold State.moveack
  split
  · exact h
  · split
    · exact h
    · split
      · exact h.modMove.modSlice
      · split
        · split
          · exact h
          · exact h.reformRanges.nextMoveStep
        · exact h

theorem State.Canonical.execMoveack {by' m} : Keeps (execMoveack by' m s) :=
  h.kernelMessage (fun h e => h.moveack.fst (Option.some.inj e)) id

end

/-! ### Boot -/

section
variable {s : State} (h : s.Canonical)
include h

theorem State.Canonical.freePartition {p} : (s.freePartition p).Canonical := by
  unfold State.freePartition
  extract_lets is t
  have ht : t.Canonical := h.foldl fun _ h => by
    extract_lets s₁ s₂
    have h₁ : s₁.Canonical := h.foldl fun _ h => h.setDyke
    exact h₁.closeRoutes.stopInjector.modSlice
  exact ht.changePmap

theorem State.Canonical.endBoot {p f r} : (s.endBoot p f r).Canonical := h.modPart.freePartition.answer.ite h.modPart.answer
theorem State.Canonical.releaseHost {p f} : (s.releaseHost p f).Canonical := (h.modPart.foldl fun _ h => h.modSlice).endBoot
theorem State.Canonical.sendBootRequest {p i f} : (s.sendBootRequest p i f).Canonical := h.draw.draw.queuePacket.modPart
theorem State.Canonical.bootFailed {p f} : (s.bootFailed p f).Canonical := h.endBoot

theorem State.Canonical.bootAsk {p f} : (s.bootAsk p f).Canonical := by
  unfold State.bootAsk
  split
  · exact h.bootFailed
  · split
    · exact h.bootFailed
    · exact h.sendBootRequest

theorem State.Canonical.bootNextPort {p f} : (s.bootNextPort p f).Canonical := h.bootAsk
theorem State.Canonical.bootRetry {p f} : (s.bootRetry p f).Canonical := h.bootAsk.ite h.bootNextPort

theorem State.Canonical.windowWritten {p f total} : (s.windowWritten p f total).Canonical :=
  h.bootFailed.ite (h.bootAsk.ite (h.releaseHost.ite h.bootNextPort))

theorem State.Canonical.execBootFetchCompletion {part words} : Keeps (execBootFetchCompletion part words s) := by
  unfold Machine.execBootFetchCompletion
  split
  · exact h
  · split
    · exact h
    · split
      · exact h.windowWritten
      · exact h.bootRetry
      · exact h.bootNextPort

theorem State.Canonical.execBootFetchTimeout {part} : Keeps (execBootFetchTimeout part s) := by
  unfold Machine.execBootFetchTimeout
  split
  · exact h
  · exact h.bootRetry.ite h

theorem State.Canonical.fusePartition {p is args frame thenFree} : (s.fusePartition p is args frame thenFree).Canonical :=
  h.formPartition.modPart.bootAsk

theorem State.Canonical.execFuse {by' m} : Keeps (execFuse by' m s) := by
  refine h.ite (.ite ?_ (h.handle (fun _ e => by cases e) id))
  split
  · exact h.answer
  · exact h.fusePartition

theorem State.Canonical.endHandover {p} : (s.endHandover p).Canonical := by
  unfold State.endHandover
  dsimp only
  split
  · exact h
  · exact h.abandonHandover.ite (h.cutSlice.nextMoveStep.ite h).joinSlice

theorem State.Canonical.clearEndpoints {i} : (s.clearEndpoints i).Canonical := (h.foldl fun _ h => h.setEpstat.ite h).modSlice

theorem State.Canonical.resetPart {p frame thenFree} : (s.resetPart p frame thenFree).Canonical :=
  (h.endHandover.foldl fun _ h => h.clearEndpoints).dropPartition.fusePartition

theorem State.Canonical.resetMessage {by' m op thenFree} : (s.resetMessage by' m op thenFree).Canonical :=
  h.ite ((h.resetPart.ite h.answer).ite (h.handle (fun _ e => by cases e) id))

theorem State.Canonical.execUnfuse {by' m} : Keeps (execUnfuse by' m s) := h.resetMessage
theorem State.Canonical.execResetp {by' m} : Keeps (execResetp by' m s) := h.resetMessage

theorem State.Canonical.execAgentRestart {c} : Keeps (execAgentRestart c s) := by
  unfold Machine.execAgentRestart
  dsimp only
  split
  · exact h
  · split
    · exact h
    · exact h.modPuppet.raisePartSource.ite h.startAgent.modPuppet

theorem State.Canonical.execOpChangeComplete {slice} : Keeps (execOpChangeComplete slice s) := by
  unfold Machine.execOpChangeComplete
  dsimp only
  split
  · exact h
  · split
    · exact h.setSliceReg
    · exact h.setSliceReg.modSlice.requestPoint

theorem State.Canonical.execPowerCapLower : Keeps (execPowerCapLower s) := by
  unfold Machine.execPowerCapLower
  dsimp only
  split
  · exact h
  · exact h.draw.modSlice.setSliceReg

theorem State.Canonical.ringFailed {i n} : (s.ringFailed i n).Canonical := (h.setRingLock.foldl fun _ h => h.failWaves.ite h).modSlice

theorem State.Canonical.execSliceReset {slice unlocked} : Keeps (execSliceReset slice unlocked s) := by
  have chips : ∀ n, Memory.wf ((allParts.map fun p => (s.part p).chip).getD n []) = true := fun n => by
    rw [List.getD_eq_getElem?_getD, List.getElem?_map]
    cases allParts[n]? with
    | none => rfl
    | some p => exact h.part
  unfold Machine.execSliceReset
  extract_lets mem poison _ s₁ s₂ s₃ s₄
  have h₁ : s₁.Canonical := h.clearSlices
  have h₂ : s₂.Canonical := (h₁.withMem h.mem).upd
  have h₃ : s₃.Canonical := h₂.foldl fun p h => h.modPart_wf (chips p.val)
  have h₄ : s₄.Canonical := h₃.setSlice
  exact h₄.foldl fun _ h => h.ringFailed

omit h in
theorem State.Canonical.execModulePowerOnReset : Keeps (execModulePowerOnReset s) := rfl

end

/-! ### HostSide -/

section
variable {s : State} (h : s.Canonical)
include h

theorem State.Canonical.hostReads {v} : (s.hostReads v).Canonical := h.upd

theorem State.Canonical.hostMailbox {p off acc} : (s.hostMailbox p off acc).Canonical := by
  cases acc with
  | load n => exact h.hostReads.ite (h.hostReads.ite h.hostReads)
  | store n v => exact h.modPart.ite ((Keeps.ran h h.execHostMailboxSend).ite h)

theorem State.Canonical.hostAperture {t off acc} : (s.hostAperture t off acc).Canonical := by
  unfold State.hostAperture
  split
  · exact Keeps.ran h h.execDoorbellKick
  · exact h.hostReads.clearRead.ite h.hostReads
  · exact h.writeSys.ite h
  · exact h.hostReads
  · exact h

theorem State.Canonical.hostPcie {t port acc} : (s.hostPcie t port acc).Canonical := by
  unfold State.hostPcie
  split
  · exact h.epAbort.hostReads.ite h.draw.hostReads
  · exact h.epAbort.ite h

theorem State.Canonical.hostPerform {p pa acc} : (s.hostPerform p pa acc).Canonical := by
  unfold State.hostPerform
  split
  · split
    · exact h.outsideLoad
    · exact h.outsideStore.ite h
  · exact h.hostPcie
  · exact h.hostMailbox
  · exact h.hostAperture
  · exact h

theorem State.Canonical.execHostAccess {slice hart pa acc} : Keeps (execHostAccess slice hart pa acc s) := by
  unfold Machine.execHostAccess
  dsimp only
  split
  · exact h
  · exact h.ite h.hostPerform

end

/-! ### Dispatch -/

section
variable {s : State} (h : s.Canonical)
include h

theorem State.Canonical.exec : ∀ {i}, Keeps (exec i s)
  | .add .. => h.execAdd
  | .sub .. => h.execSub
  | .and .. => h.execAnd
  | .or .. => h.execOr
  | .xor .. => h.execXor
  | .shl .. => h.execShl
  | .shr .. => h.execShr
  | .sra .. => h.execSra
  | .mul .. => h.execMul
  | .mulh .. => h.execMulh
  | .mulhn .. => h.execMulhn
  | .div .. => h.execDiv
  | .divn .. => h.execDivn
  | .rem .. => h.execRem
  | .remn .. => h.execRemn
  | .min .. => h.execMin
  | .max .. => h.execMax
  | .minn .. => h.execMinn
  | .maxn .. => h.execMaxn
  | .slt .. => h.execSlt
  | .sltn .. => h.execSltn
  | .seq .. => h.execSeq
  | .clz .. => h.execClz
  | .ctz .. => h.execCtz
  | .popc .. => h.execPopc
  | .sel .. => h.execSel
  | .addi .. => h.execAddi
  | .andi .. => h.execAndi
  | .ori .. => h.execOri
  | .xori .. => h.execXori
  | .shli .. => h.execShli
  | .shri .. => h.execShri
  | .srai .. => h.execSrai
  | .slti .. => h.execSlti
  | .ldi .. => h.execLdi
  | .ldu .. => h.execLdu
  | .adda .. => h.execAdda
  | .beq .. => h.execBeq
  | .bne .. => h.execBne
  | .blt .. => h.execBlt
  | .bge .. => h.execBge
  | .bltn .. => h.execBltn
  | .bgen .. => h.execBgen
  | .br .. => h.execBr
  | .call .. => h.execCall
  | .jr .. => h.execJr
  | .callr .. => h.execCallr
  | .ret => h.execRet
  | .lds .. => h.execLds
  | .sts .. => h.execSts
  | .amos .. => h.execAmos
  | .fence .. => h.execFence
  | .mwatch .. => h.execMwatch
  | .mwaitv .. => h.execMwaitv
  | .lrun .. => h.execLrun
  | .lput .. => h.execLput
  | .lputW .. => h.execLputW
  | .lget .. => h.execLget
  | .lgetW .. => h.execLgetW
  | .lsync => h.execLsync
  | .tcopy .. => h.execTcopy
  | .mloop .. => h.execMloop
  | .mvec .. => h.execMvec
  | .mzero .. => h.execMzero
  | .mzeroRel .. => h.execMzeroRel
  | .mload .. => h.execMload
  | .mdrain .. => h.execMdrain
  | .mcvt .. => h.execMcvt
  | .mstat .. => h.execMstat
  | .mstatClr .. => h.execMstatClr
  | .mfence .. => h.execMfence
  | .mwaitImm .. => h.execMwaitImm
  | .mwaitReg .. => h.execMwaitReg
  | .mready .. => h.execMready
  | .bar .. => h.execBar
  | .barNb .. => h.execBarNb
  | .trigger => h.execTrigger
  | .exit => h.execExit
  | .yield => h.execYield
  | .qcfg .. => h.execQcfg
  | .qmap .. => h.execQmap
  | .qlen .. => h.execQlen
  | .qpeek .. => h.execQpeek
  | .qpeekPop .. => h.execQpeekPop
  | .qpeekPush .. => h.execQpeekPush
  | .qflush .. => h.execQflush
  | .vgrow .. => h.execVgrow
  | .vgrowW .. => h.execVgrowW
  | .vshrink .. => h.execVshrink
  | .pref .. => h.execPref
  | .sysrd .. => h.execSysrd
  | .syswr .. => h.execSyswr
  | .trap .. => h.execTrap
  | .brk .. => h.execBrk
  | .sigrst => h.execSigrst
  | .xpair .. => h.execXpair
  | .tstore .. => h.execTstore
  | .storq .. => h.execStorq
  | .tkclaimCount .. => h.execTkclaimCount
  | .tkclaimAcq .. => h.execTkclaimAcq
  | .tkclaimRel .. => h.execTkclaimRel
  | .gplace .. => h.execGplace
  | .gplaceRel .. => h.execGplaceRel
  | .qslotMap .. => h.execQslotMap
  | .qslotUnmap .. => h.execQslotUnmap
  | .qslotStat _ a _ => h.execQslotStat (a := a)
  | .rcbld .. => h.execRcbld
  | .rcbldBw .. => h.execRcbldBw
  | .evwait .. => h.execEvwait
  | .evwaitPoll .. => h.execEvwaitPoll
  | .iret => h.execIret
  | .opreq .. => h.execOpreq
  | .prcmsg .. => h.execPrcmsg
  | .unassignedInstruction .. => h.execUnassignedInstruction
  | .iadd .. => h.execIadd
  | .isub .. => h.execIsub
  | .imul .. => h.execImul
  | .imad .. => h.execImad
  | .imulh .. => h.execImulh
  | .iabs .. => h.execIabs
  | .ineg .. => h.execIneg
  | .imin .. => h.execImin
  | .imax .. => h.execImax
  | .iand .. => h.execIand
  | .ior .. => h.execIor
  | .ixor .. => h.execIxor
  | .inot .. => h.execInot
  | .ishl .. => h.execIshl
  | .ishr .. => h.execIshr
  | .isra .. => h.execIsra
  | .ibfe .. => h.execIbfe
  | .ibfi .. => h.execIbfi
  | .ipopc .. => h.execIpopc
  | .iclz .. => h.execIclz
  | .isel .. => h.execIsel
  | .imov .. => h.execImov
  | .icmp .. => h.execIcmp
  | .fadd .. => h.execFadd
  | .fsub .. => h.execFsub
  | .fmul .. => h.execFmul
  | .ffma .. => h.execFfma
  | .fmin .. => h.execFmin
  | .fmax .. => h.execFmax
  | .fabs .. => h.execFabs
  | .fneg .. => h.execFneg
  | .fsel .. => h.execFsel
  | .fclass .. => h.execFclass
  | .fcmp .. => h.execFcmp
  | .cvt .. => h.execCvt
  | .rqnt .. => h.execRqnt
  | .fseed .. => h.execFseed
  | .frange .. => h.execFrange
  | .fscale .. => h.execFscale
  | .fexpo .. => h.execFexpo
  | .fmant .. => h.execFmant
  | .lperm .. => h.execLperm
  | .lrot .. => h.execLrot
  | .lbcast .. => h.execLbcast
  | .lred .. => h.execLred
  | .lscan .. => h.execLscan
  | .xswap .. => h.execXswap
  | .ld .. => h.execLd
  | .st .. => h.execSt
  | .ldg .. => h.execLdg
  | .stsc .. => h.execStsc
  | .amo .. => h.execAmo
  | .lwatch .. => h.execLwatch
  | .lwatchW .. => h.execLwatchW
  | .lbr .. => h.execLbr
  | .lbrc .. => h.execLbrc
  | .ljoin .. => h.execLjoin
  | .lend .. => h.execLend
  | .spawn .. => h.execSpawn
  | .lvote .. => h.execLvote
  | .lsig .. => h.execLsig
  | .laneBlockStart .. => h.execLaneBlockStart
  | .lputEntryTaken .. => h.execLputEntryTaken
  | .lgetEntryTaken .. => h.execLgetEntryTaken
  | .sigrstEntryTaken .. => h.execSigrstEntryTaken
  | .splitStarvationDemote .. => h.execSplitStarvationDemote
  | .joinTimeout .. => h.execJoinTimeout
  | .groupAdmit .. => h.execGroupAdmit
  | .admissionAgeing .. => h.execAdmissionAgeing
  | .remoteLoadBlock .. => h.execRemoteLoadBlock
  | .leaveActiveSet .. => h.execLeaveActiveSet
  | .groupWake .. => h.execGroupWake
  | .remoteLoadReply .. => h.execRemoteLoadReply
  | .fetchMiss .. => h.execFetchMiss
  | .fetchFill .. => h.execFetchFill
  | .exitComplete .. => h.execExitComplete
  | .spawnTimerExpiry .. => h.execSpawnTimerExpiry
  | .spawnLaunch .. => h.execSpawnLaunch
  | .workgroupPlace .. => h.execWorkgroupPlace
  | .nbhCoreStartOnRoom .. => h.execNbhCoreStartOnRoom
  | .vgrowGrant .. => h.execVgrowGrant
  | .vgrowTimeout .. => h.execVgrowTimeout
  | .mloopStep .. => h.execMloopStep
  | .mvecStep .. => h.execMvecStep
  | .mzeroComplete .. => h.execMzeroComplete
  | .mloadComplete .. => h.execMloadComplete
  | .mdrainComplete .. => h.execMdrainComplete
  | .mcvtComplete .. => h.execMcvtComplete
  | .tcopyComplete .. => h.execTcopyComplete
  | .tstoreComplete .. => h.execTstoreComplete
  | .storageChainStart .. => h.execStorageChainStart
  | .storageChainComplete .. => h.execStorageChainComplete
  | .xpairTimeout .. => h.execXpairTimeout
  | .xswapArrival .. => h.execXswapArrival
  | .monitorWake .. => h.execMonitorWake
  | .watchReread .. => h.execWatchReread
  | .mwaitvDeadline .. => h.execMwaitvDeadline
  | .lwatchDeadline .. => h.execLwatchDeadline
  | .bogRetry .. => h.execBogRetry
  | .bogFatal .. => h.execBogFatal
  | .bogRetryPage .. => h.execBogRetryPage
  | .memorySideFault .. => h.execMemorySideFault
  | .l1LeaseExpiry .. => h.execL1LeaseExpiry
  | .hostAccess _ hart _ _ => h.execHostAccess (hart := hart)
  | .wcinvWrite slice value => h.execWcinvWrite (slice := slice) (value := value)
  | .l2flushWrite .. => h.execL2flushWrite
  | .mrbaseWrite .. => h.execMrbaseWrite
  | .mrrdWrite .. => h.execMrrdWrite
  | .doorbellKick .. => h.execDoorbellKick
  | .queueMapDecision .. => h.execQueueMapDecision
  | .launch .. => h.execLaunch
  | .signal .. => h.execSignal
  | .wait .. => h.execWait
  | .barrierAnd .. => h.execBarrierAnd
  | .storage .. => h.execStorage
  | .marker .. => h.execMarker
  | .nop .. => h.execNop
  | .waitSatisfied .. => h.execWaitSatisfied
  | .launchHoldEnd .. => h.execLaunchHoldEnd
  | .queueStoppedUnmap .. => h.execQueueStoppedUnmap
  | .queueWatchdogExpiry .. => h.execQueueWatchdogExpiry
  | .launchExpiryReset .. => h.execLaunchExpiryReset
  | .storageExpiryCancel .. => h.execStorageExpiryCancel
  | .opChangeComplete .. => h.execOpChangeComplete
  | .powerCapLower => h.execPowerCapLower
  | .agentRestart .. => h.execAgentRestart
  | .dataFlitReceive .. => h.execDataFlitReceive
  | .abortRecord .. => h.execAbortRecord
  | .ack .. => h.execAck
  | .nak .. => h.execNak
  | .pause .. => h.execPause
  | .resume .. => h.execResume
  | .train .. => h.execTrain
  | .pauseRepeat .. => h.execPauseRepeat
  | .linkLockObtained .. => h.execLinkLockObtained
  | .linkLockLost .. => h.execLinkLockLost
  | .linkTrainTimeout .. => h.execLinkTrainTimeout
  | .lnkcfgWrite .. => h.execLnkcfgWrite
  | .marblePass .. => h.execMarblePass
  | .channelIdlePark .. => h.execChannelIdlePark
  | .parknow .. => h.execParknow
  | .chcfgWrite .. => h.execChcfgWrite
  | .channelWake .. => h.execChannelWake
  | .wavelengthLocked .. => h.execWavelengthLocked
  | .channelWakeTimeout .. => h.execChannelWakeTimeout
  | .phmapApply .. => h.execPhmapApply
  | .reassignEnd .. => h.execReassignEnd
  | .ringLockLost .. => h.execRingLockLost
  | .hbmCreditRefill .. => h.execHbmCreditRefill
  | .seepLeak .. => h.execSeepLeak
  | .seepcfgWrite .. => h.execSeepcfgWrite
  | .fijctlWrite .. => h.execFijctlWrite
  | .pmcWrite .. => h.execPmcWrite
  | .registerReadClear .. => h.execRegisterReadClear
  | .registerWrite .. => h.execRegisterWrite
  | .haltStopRecords .. => h.execHaltStopRecords
  | .fdHalt .. => h.execFdHalt
  | .fdReset .. => h.execFdReset
  | .fdAttach .. => h.execFdAttach
  | .fdDetach .. => h.execFdDetach
  | .fdStop .. => h.execFdStop
  | .fdResume .. => h.execFdResume
  | .fdSstep .. => h.execFdSstep
  | .fdLstep .. => h.execFdLstep
  | .fdDump .. => h.execFdDump
  | .fdLoad .. => h.execFdLoad
  | .stepEnd .. => h.execStepEnd
  | .preemptBlocking .. => h.execPreemptBlocking
  | .preemptForced .. => h.execPreemptForced
  | .preemptCancel .. => h.execPreemptCancel
  | .preemptGraceExpiry .. => h.execPreemptGraceExpiry
  | .preemptSave .. => h.execPreemptSave
  | .restcmd .. => h.execRestcmd
  | .hostMailboxSend .. => h.execHostMailboxSend
  | .feat .. => h.execFeat
  | .artload .. => h.execArtload
  | .dyke .. => h.execDyke
  | .route .. => h.execRoute
  | .lease .. => h.execLease
  | .usnap .. => h.execUsnap
  | .keyload .. => h.execKeyload
  | .fwoffer .. => h.execFwoffer
  | .fwchk .. => h.execFwchk
  | .fwSwitchTimeout .. => h.execFwSwitchTimeout
  | .attest .. => h.execAttest
  | .cert .. => h.execCert
  | .moveack .. => h.execMoveack
  | .epcfg .. => h.execEpcfg
  | .fuse .. => h.execFuse
  | .bootFetchCompletion .. => h.execBootFetchCompletion
  | .bootFetchTimeout .. => h.execBootFetchTimeout
  | .unfuse .. => h.execUnfuse
  | .move .. => h.execMove
  | .moveAbandon .. => h.execMoveAbandon
  | .resetp .. => h.execResetp
  | .ownerkey .. => h.execOwnerkey
  | .epDoorbell .. => h.execEpDoorbell
  | .epmsiWrite .. => h.execEpmsiWrite
  | .epHotReset .. => h.execEpHotReset
  | .sliceReset .. => h.execSliceReset
  | .modulePowerOnReset => State.Canonical.execModulePowerOnReset
  | .storePerformedAtHome .. => h.execStorePerformedAtHome
  | .writeCompleteAtScope .. => h.execWriteCompleteAtScope
  | .flitSend .. => h.execFlitSend
  | .controlFlitUnknownCtype .. => h.execControlFlitUnknownCtype
  | .receiveBufferDrain .. => h.execReceiveBufferDrain
  | .epLinkUp .. => h.execEpLinkUp
  | .epInboundRequest .. => h.execEpInboundRequest
  | .epConfigWrite .. => h.execEpConfigWrite

end

/-! ### Settle -/

section
variable {s : State} (h : s.Canonical)
include h

theorem State.Canonical.launchBins {c} : (s.launchBins c).Canonical := h.foldl fun _ h => Keeps.ran h h.execSpawnLaunch
theorem State.Canonical.grantAll {c} : (s.grantAll c).Canonical := h.foldl fun _ h => h.foldl fun _ h => Keeps.ran h h.execVgrowGrant
theorem State.Canonical.settleCore {c} : (s.settleCore c).Canonical := h.launchBins.grantAll.preemptSettle.restoreSettle

theorem State.Canonical.settleAll : (s.settleAll).Canonical :=
  ((((h.settle.foldl fun _ h => h.tryReset).foldl fun _ h => h.writePosts).foldl fun _ h => h.flushEndpoints).foldl fun _ h => h.settleCore).foldl
      fun _ h => h.advanceMove

omit h in
theorem Keeps.settled {o} (ho : Keeps o) : Keeps (settled o) := by
  unfold Machine.settled
  split
  · exact State.Canonical.settleAll ho
  · exact trivial
  · exact trivial

end

/-! ### Due -/

section
variable {s : State} (h : s.Canonical)
include h

theorem State.Canonical.expireBins {c} : (s.expireBins c).Canonical := h.foldl fun _ h => h.launchBin.ite h
theorem State.Canonical.expireL1 {c} : (s.expireL1 c).Canonical := h.modCore
theorem State.Canonical.tickLimits : (s.tickLimits).Canonical := h.refreshLimits.ite h

omit h in
/-- Everything that is due keeps the canonical form. -/
def AllKeep (l : List Happening) : Prop := ∀ f ∈ l, ∀ {t : State}, t.Canonical → Keeps (f t)

omit h in
theorem AllKeep.nil : AllKeep [] := fun _ hf => absurd hf List.not_mem_nil

omit h in
theorem AllKeep.cons {f : Happening} {l} (hf : ∀ {t : State}, t.Canonical → Keeps (f t)) (hl : AllKeep l) : AllKeep (f :: l) :=
  List.forall_mem_cons.2 ⟨hf, hl⟩

omit h in
theorem AllKeep.one {f : Happening} (hf : ∀ {t : State}, t.Canonical → Keeps (f t)) : AllKeep [f] := .cons hf .nil

omit h in
theorem AllKeep.append {l m} (hl : AllKeep l) (hm : AllKeep m) : AllKeep (l ++ m) := List.forall_mem_append.2 ⟨hl, hm⟩

omit h in
theorem AllKeep.when {p : Prop} {_ : Decidable p} {l} (hl : AllKeep l) : AllKeep (if p then l else []) := by
  split_ifs
  · exact hl
  · exact .nil

omit h in
theorem AllKeep.whenBound {p : Prop} {_ : Decidable p} {l : p → List Happening} (hl : ∀ hp, AllKeep (l hp)) :
    AllKeep (if hp : p then l hp else []) := by
  split_ifs with hp
  · exact hl hp
  · exact .nil

omit h in
theorem AllKeep.flatMap {α : Type} {l : List α} {f : α → List Happening} (hf : ∀ x, AllKeep (f x)) : AllKeep (l.flatMap f) := fun _ hg =>
  let ⟨x, _, hx⟩ := List.mem_flatMap.1 hg
  hf x _ hx

omit h in
theorem AllKeep.map {α : Type} {l : List α} {f : α → Happening} (hf : ∀ x {t : State}, t.Canonical → Keeps (f x t)) : AllKeep (l.map f) :=
  List.forall_mem_map.2 fun x _ => hf x

omit h in
theorem AllKeep.watchEvents {f c now} : AllKeep (watchEvents f c now) :=
  .when (.append (.one fun h => h.execMwaitvDeadline) (.when (.one fun h => h.execWatchReread)))

omit h in
theorem AllKeep.groupEvents {g v now} : AllKeep (groupEvents g v now) := by
  refine .append (.append (.append (.append .watchEvents (.flatMap fun _ => ?_)) ?_) ?_) ?_
  · split
    · exact .cons (fun h => h.execLwatchDeadline) (.one fun h => h.execWatchReread)
    · exact .nil
  · exact .when (.one fun h => h.execWriteCompleteAtScope)
  · exact .when (.one fun h => h.execExitComplete)
  · exact .when (.one fun h => h.execVgrowTimeout)

omit h in
theorem AllKeep.coreEvents {c k now} : AllKeep (coreEvents c k now) := by
  refine .append (.append (.append (.append (.flatMap fun _ => .groupEvents) .watchEvents) ?_) ?_) ?_
  · exact .when (.one fun h => h.execWriteCompleteAtScope)
  · exact .when (.one fun h => h.execPreemptGraceExpiry)
  · exact .when (.one fun h => h.execAgentRestart)

omit h in
theorem AllKeep.sliceEvents {i k now} : AllKeep (sliceEvents i k now) := by
  refine .append (.append (.append (.append (.append (.append (.append ?_ ?_) ?_) ?_) ?_) ?_) ?_) ?_
  · exact .when (.one fun h => h.execOpChangeComplete)
  · exact .cons (fun h => h.execHbmCreditRefill) (.cons (fun h => h.execHbmCreditRefill)
      (.cons (fun h => h.execSeepLeak) (.cons (fun h => h.execSeepLeak) (.one fun h => h.execSeepLeak))))
  · exact .map fun _ _ h => h.execXpairTimeout
  · exact .flatMap fun _ => .whenBound fun _ => .one fun h => h.execLinkTrainTimeout
  · split_ifs
    · exact .nil
    · exact .flatMap fun _ => .cons (fun h => h.execChannelWakeTimeout) (.cons (fun h => h.execChannelIdlePark) (.one fun h => h.execChannelWake))
  · exact .flatMap fun _ => .whenBound fun _ => .when (.one fun h => h.execReassignEnd)
  · exact .flatMap fun _ => .whenBound fun _ => .one fun h => h.execLaunchHoldEnd
  · exact .flatMap fun _ => .whenBound fun _ => .coreEvents

omit h in
theorem AllKeep.dueEvents : AllKeep s.dueEvents := by
  refine .append (.append (.flatMap fun _ => .whenBound fun _ => .sliceEvents) (.map fun _ _ h => h.execQueueWatchdogExpiry)) ?_
  refine .flatMap fun _ => .whenBound fun _ => .append (.cons (fun h => h.execFwSwitchTimeout) (.one fun h => h.execBootFetchTimeout)) ?_
  exact .when (.map fun _ _ h => h.execArtload)

theorem AllKeep.foldl {l} (hl : AllKeep l) : (l.foldl (fun s f => Machine.ran (f { s with cur := .none, word := 0 }) s) s).Canonical := by
  induction l generalizing s with
  | nil => exact h
  | cons f l ih =>
    obtain ⟨hf, hl⟩ := List.forall_mem_cons.1 hl
    exact ih (Keeps.ran h (hf h.upd)) hl

theorem State.Canonical.tick : s.tick.Canonical := by
  unfold State.tick
  extract_lets s₁ s₂ s₃
  have h₁ : s₁.Canonical := .passTime (h.foldl fun _ h => h.expireBins)
  have h₂ : s₂.Canonical := h₁.tickLimits
  have h₃ : s₃.Canonical := AllKeep.foldl h₂ .dueEvents
  exact .settleAll (h₃.foldl fun _ h => h.expireL1.coreTurn)

theorem State.Canonical.passTicks {n} : (s.passTicks n).Canonical := by
  induction n generalizing s with
  | zero => exact h
  | succ n ih =>
    rw [State.passTicks]
    exact ih h.tick

end

/-! ### Schedule -/

section
variable {s : State} (h : s.Canonical)
include h

theorem State.Canonical.charge {g n} : (s.charge g n).Canonical := h.modCore.addUsage

theorem State.Canonical.countMany {a code n} : (s.countMany a code n).Canonical := by
  induction n generalizing s with
  | zero => exact h
  | succ n ih => exact ih h.countFor

theorem State.Canonical.scalarIssued {f} : (s.scalarIssued f).Canonical := by
  unfold State.scalarIssued
  split
  · exact h.countFor.modCore
  · exact h.charge.countFor.modGroup
  · exact h

theorem State.Canonical.laneHasIssued {g k v i} : (s.laneHasIssued g k v i).Canonical := by
  unfold State.laneHasIssued
  split
  · exact h
  · have counted {b c d e f l} : (((((((s.charge g l).countMany (.lane g k) 0x03 b).countMany (.lane g k) 0x04 (3 - b)).countMany (.lane g k) 0x0E
      c).countMany
        (.lane g k) 0x0F d).countMany (.lane g k) 0x05 e).countMany (.lane g k) 0x06 f).Canonical :=
      h.charge.countMany.countMany.countMany.countMany.countMany.countMany
    exact counted.beatErrors.maskErrors.modGroup

theorem State.Canonical.replenish {c n} : (s.replenish c n).Canonical := h.ite h.modCore
theorem State.Canonical.clearYield {c ten} : (s.clearYield c ten).Canonical := h.modCore

theorem State.Canonical.choose {c cands t g} (e : s.choose c cands = some (t, g)) : t.Canonical := by
  obtain ⟨_, -, e⟩ := Option.map_eq_some_iff.1 e
  cases e
  exact h.replenish.clearYield

end

/-! ### Run -/

section
variable {s : State} (h : s.Canonical)
include h

omit h in
theorem Keeps.andThen {o f} (ho : Keeps o) (hf : ∀ {t : State}, t.Canonical → (f t).Canonical) : Keeps (andThen o f) := by
  unfold Machine.andThen
  split
  · exact hf ho
  · exact trivial
  · exact trivial

omit h in
theorem State.Canonical.afterScalar {f t} (ht : t.Canonical) : (s.afterScalar f t).Canonical := ht.scalarIssued.ite ht

theorem State.Canonical.executing {a w} : (s.executing a w).Canonical := h.upd

theorem State.Canonical.runScalar {f} : Keeps (runScalar f s) := by
  unfold Machine.runScalar
  dsimp only
  split
  · exact h.execFetchMiss
  · split
    · exact h.executing.exec.andThen fun h => h.afterScalar
    · exact h.executing.raise.afterScalar

omit h in
theorem State.Canonical.afterLane {g k i t} (ht : t.Canonical) : (s.afterLane g k i t).Canonical := ht.laneHasIssued.modGroup.ite ht

theorem State.Canonical.runSplit {g k} : Keeps (runSplit g k s) := by
  unfold Machine.runSplit
  split
  · exact h.execFetchMiss
  · split
    · exact h
    · exact h.executing.raise
    · exact h.executing.exec.andThen fun h => h.afterLane

theorem State.Canonical.firstSplit {g ks} : (s.firstSplit g ks).1.Canonical := by
  induction ks generalizing s with
  | nil => exact h
  | cons k ks ih =>
    unfold State.firstSplit
    split
    · exact ih h
    · split
      · next e =>
        split
        · exact h
        · exact ih (h.runSplit.next e)
      · exact h

theorem State.Canonical.nextSplit {g} : (s.nextSplit g).1.Canonical := h.firstSplit
theorem State.Canonical.issueSplit {g k ks} : Keeps (issueSplit g k ks s) := h.runSplit.andThen (fun h => h.modGroup)

theorem State.Canonical.takeEntry {g} : Keeps (takeEntry g s) := by
  unfold Machine.takeEntry
  split
  · exact h
  · exact h.execLaneBlockStart
  · exact h.execLputEntryTaken
  · exact h.execLgetEntryTaken
  · exact h.execSigrstEntryTaken

theorem State.Canonical.runLane {g} : Keeps (runLane g s) := by
  unfold Machine.runLane
  split
  · exact h.takeEntry
  · split
    · next e => exact (h.nextSplit.fst e).issueSplit
    · next e => exact (h.nextSplit.fst e)

theorem State.Canonical.probe {may o went} (ho : Keeps o) : (s.probe may o went).1.Canonical := by
  unfold State.probe
  split
  · exact h
  · split
    · split
      · exact h
      · exact ho
    · exact h

theorem State.Canonical.scalarCandidates {gs} : (s.scalarCandidates gs).1.Canonical := by
  induction gs generalizing s with
  | nil => exact h
  | cons g gs ih => exact ih (h.probe h.runScalar)

theorem State.Canonical.laneCandidates {gs} : (s.laneCandidates gs).1.Canonical := by
  induction gs generalizing s with
  | nil => exact h
  | cons g gs ih =>
    refine ih (s := (if s.laneMay g && (s.group g).block.isSome then _ else _ : State × Bool).1) ?_
    split
    · split
      · next e => exact h.nextSplit.fst e
      · next e => exact h.nextSplit.fst e
    · exact h

theorem State.Canonical.puppetReady {c} : (s.puppetReady c).1.Canonical := h.probe h.runScalar
theorem State.Canonical.countStarve {c} : (s.countStarve c).Canonical := h.puppetReady.modCore
theorem State.Canonical.takeEntries {c} : (takeEntries c s).Canonical := h.foldl fun _ h => (Keeps.ran h h.takeEntry).ite h

theorem State.Canonical.beginCclk {c} : (s.beginCclk c).Canonical := by
  unfold State.beginCclk
  extract_lets s₁ s₂
  have h₁ : s₁.Canonical := h.count.modCore.coreTurn
  have h₂ : s₂.Canonical := State.Canonical.countStarve (c := c) (h₁.takeEntries (c := c))
  clear_value s₂
  split
  · exact Keeps.ran h₂ h₂.modCore.runScalar
  · exact h₂

theorem State.Canonical.runPuppetPosition {c pos} : Keeps (runPuppetPosition c pos s) := by
  unfold Machine.runPuppetPosition
  dsimp only
  split
  · exact h
  · split
    · exact h.puppetReady.modCore.runScalar
    · exact h.puppetReady

theorem State.Canonical.runScalarPosition {c pos} : Keeps (runScalarPosition c pos s) := by
  unfold Machine.runScalarPosition
  dsimp only
  split
  · next e =>
    have hc := h.scalarCandidates.choose e
    exact State.Canonical.runScalar (hc.modCore)
  · exact h.scalarCandidates.runPuppetPosition

theorem State.Canonical.laneChoice {c} : (s.laneChoice c).1.Canonical := by
  unfold State.laneChoice
  dsimp only
  split
  · exact h.laneCandidates
  · next e =>
    split
    · next e' => exact (h.laneCandidates.choose e).nextSplit.fst e'
    · next e' => exact (h.laneCandidates.choose e).nextSplit.fst e'

theorem State.Canonical.issueInPipe {c pipe g k ks} : Keeps (issueInPipe c pipe g k ks s) := h.modCore.issueSplit

theorem State.Canonical.runLanePosition {c pipe} : Keeps (runLanePosition c pipe s) := by
  unfold Machine.runLanePosition
  split
  · exact h
  · split
    · next e => exact h.laneChoice.fst e
    · next s g k ks e =>
      have hs : s.Canonical := h.laneChoice.fst e
      have alone : Keeps (Machine.issueInPipe c pipe g k ks s) := hs.issueInPipe
      dsimp only
      split
      · split
        · split
          · split
            · split
              · next e => exact (hs.issueInPipe.next e).issueInPipe
              · exact hs.issueInPipe
            · exact alone
          · exact alone
        · exact alone
      · exact alone

theorem State.Canonical.runPosition {c pos} : Keeps (runPosition c pos s) := by
  unfold Machine.runPosition
  extract_lets t
  have ht : t.Canonical := h.beginCclk.ite h
  split
  · exact ht
  · split
    · exact ht.modCore.runScalarPosition
    · exact ht.runLanePosition

theorem State.Canonical.runScalarAlone {g} : Keeps (runScalarAlone g s) := by
  unfold Machine.runScalarAlone
  split
  · exact h.runScalar
  · exact h.runScalar.andThen (fun h => h.countStarve)

theorem State.Canonical.runMover {m} : Keeps (runMover m s) := by
  unfold Machine.runMover
  split
  · split
    · exact h.runScalarAlone
    · exact h
  · split
    · exact h.runScalar
    · exact h
  · split
    · exact h.runLane
    · exact h
  · exact h.runPosition
  · exact h.upd.exec
  · exact h

theorem State.Canonical.goOnHeld {g} : (s.goOnHeld g).Canonical :=
  h.ite (h.foldl fun _ h => by
    split
    · exact (Keeps.ran h h.runSplit).ite h
    · exact h)

theorem State.Canonical.goOnPopped {g} : (s.goOnPopped g).Canonical := by
  unfold State.goOnPopped
  split
  · exact (Keeps.ran h h.runScalar).ite h
  · exact h

theorem State.Canonical.goOn : (s.goOn).Canonical := h.foldl fun _ h => h.goOnHeld.goOnPopped
theorem State.Canonical.runTurn {t} : Keeps (runTurn t s) := (h.passTicks.runMover.andThen (fun h => h.goOn)).settled

end

/-! ### Step -/

section
variable {s : State} (h : s.Canonical)
include h

theorem State.Canonical.step : Keeps (step s) := by
  unfold Machine.step
  split
  · exact h.runTurn
  · exact h.upd.runTurn

end

/-- Settles O21: the form is an invariant of every step. -/
theorem memoriesStayCanonical : Obligations.MemoriesStayCanonical := fun _ _ canonical e => (State.Canonical.step canonical).next e

end Sys2Proof.Machine
end

section
/-! PROOF. Counters, the injector, seeps and credits (R405 to R418). -/

namespace Sys2Proof.Machine

/-! ### Bits and fields of a word -/

theorem testBit_bitsOf {w : Nat} (x : BitVec w) (hi lo j : Nat) : (bitsOf x hi lo).testBit j = (decide (j < hi + 1 - lo) && x.getLsbD (lo + j)) := by
  rw [bitsOf, Nat.testBit_mod_two_pow, Nat.testBit_shiftRight, BitVec.testBit_toNat]

/-- A field is determined by its bits. -/
theorem bitsOf_congr {w : Nat} {x y : BitVec w} {hi lo : Nat} (h : ∀ j, lo ≤ j → j ≤ hi → x.getLsbD j = y.getLsbD j) :
    bitsOf x hi lo = bitsOf y hi lo := by
  refine Nat.eq_of_testBit_eq fun j => ?_
  rw [testBit_bitsOf, testBit_bitsOf]
  by_cases hj : j < hi + 1 - lo
  · rw [h (lo + j) (by omega) (by omega)]
  · simp [hj]

theorem bitsOf_zero {w : Nat} (hi lo : Nat) : bitsOf (0 : BitVec w) hi lo = 0 := by simp [bitsOf]

theorem bitsOf_lt {w : Nat} (x : BitVec w) (hi lo : Nat) : bitsOf x hi lo < 2 ^ (hi + 1 - lo) := Nat.mod_lt _ (by positivity)

/-- The low bits of a word. -/
theorem getLsbD_and_low {w : Nat} (x m : BitVec w) (k : Nat) (hm : m.toNat = 2 ^ k - 1) (j : Nat) :
    (x &&& m).getLsbD j = (decide (j < k) && x.getLsbD j) := by
  rw [← BitVec.testBit_toNat, BitVec.toNat_and, hm, Nat.and_two_pow_sub_one_eq_mod, Nat.testBit_mod_two_pow, BitVec.testBit_toNat]

/-- The fields of a word that keeps the low `k` bits of another and has a bit of its own. -/
theorem bitsOf_putBit_low (x m : Word) (k n hi lo : Nat) (b : Bool) (hm : m.toNat = 2 ^ k - 1) (hk : hi < k) (hn : hi < n) (hw : k ≤ 64) :
    bitsOf (putBit (x &&& m) n b) hi lo = bitsOf x hi lo := by
  refine bitsOf_congr fun j _ hj => ?_
  rw [setBits_one_getLsbD _ _ _ _ (by omega), if_neg (by omega), getLsbD_and_low x m k hm, decide_eq_true (by omega), Bool.true_and]

theorem bitsOf_putBit_above (x m : Word) (k hi lo : Nat) (b : Bool) (hm : m.toNat = 2 ^ k - 1) (hk : k < lo) (hi' : hi < 64) :
    bitsOf (putBit (x &&& m) k b) hi lo = 0 := by
  rw [← bitsOf_zero (w := 64) hi lo]
  refine bitsOf_congr fun j hj _ => ?_
  rw [setBits_one_getLsbD _ _ _ _ (by omega), if_neg (by omega), getLsbD_and_low x m k hm, decide_eq_false (by omega), Bool.false_and]
  exact BitVec.getLsbD_zero.symm

/-! ### Tables -/

theorem tabFind_tabMap {α β : Type} (f : Nat → α → β) (t : Tab α) (i : Nat) : tabFind (tabMap f t) i = (tabFind t i).map (f i) := by
  induction t with
  | nil => rfl
  | cons e t ih =>
    obtain ⟨k, v⟩ := e
    rw [tabMap, List.map_cons, tabFind, tabFind]
    split_ifs with h
    · rw [h, Option.map_some]
    · exact ih

/-! ### What the events leave unchanged -/

/-- A register or a counter of a slice or core changed, and no memory, group or partition did. -/
def State.sameElse (s t : State) : Prop := s.sameMemory t ∧ (∀ g, t.group g = s.group g) ∧ t.prc = s.prc ∧ t.now = s.now

theorem State.sameElse_setSliceReg (s : State) (i : SliceId) (n : Nat) (v : Word) : s.sameElse (s.setSliceReg i n v) :=
  ⟨fun _ => rfl, fun g => s.group_setSliceReg i n v g, rfl, rfl⟩

theorem State.sameElse_setCoreReg (s : State) (c : CoreRef) (n : Nat) (v : Word) : s.sameElse (s.setCoreReg c n v) :=
  ⟨fun _ => rfl, fun g => s.group_setCoreReg c n v g, rfl, rfl⟩

theorem State.sameElse_modSlice (s : State) (i : SliceId) (f : Slice → Slice) (h : (f (s.slice i)).cores = (s.slice i).cores) :
    s.sameElse (s.modSlice i f) :=
  ⟨fun _ => rfl, fun g => by simp only [State.group, State.core_modSlice _ _ _ _ h], rfl, rfl⟩

theorem State.sameElse.trans {s t u : State} (h : s.sameElse t) (k : t.sameElse u) : s.sameElse u := by
  obtain ⟨m, g, p, n⟩ := h
  obtain ⟨m', g', p', n'⟩ := k
  exact ⟨fun a => (m' a).trans (m a), fun x => (g' x).trans (g x), p'.trans p, n'.trans n⟩

/-! ### The events -/

theorem registerReadClear_counter (s : State) (c : CoreRef) : s.does (.registerReadClear c 0x42D) fun t =>
    t.outRead = s.sliceReg c.slice 0x42D ∧ t.sliceReg c.slice 0x42D = 0 ∧ s.sameElse t
      ∧ ∀ m, m ≠ 0x42D → t.sliceReg c.slice m = s.sliceReg c.slice m := by
  refine ⟨_, rfl, rfl, ?_, s.sameElse_setSliceReg c.slice 0x42D 0, fun m hm => ?_⟩
  · exact (s.sliceReg_setSliceReg ..).trans (if_pos ⟨rfl, rfl⟩)
  · exact (s.sliceReg_setSliceReg ..).trans (if_neg fun h => hm h.2)

theorem registerWrite_quantum (s : State) (c : CoreRef) (v : Word) : s.does (.registerWrite c 0x120 v) fun t =>
    t.coreReg c 0x120 = BitVec.ofNat 64 (if bitsOf v 19 0 = 0 then 2000 else bitsOf v 19 0) ∧ s.sameElse t
      ∧ ∀ m, m ≠ 0x120 → t.coreReg c m = s.coreReg c m := by
  refine ⟨_, rfl, ?_, s.sameElse_setCoreReg c 0x120 _, fun m hm => ?_⟩
  · exact (s.coreReg_setCoreReg ..).trans (if_pos ⟨rfl, rfl⟩)
  · exact (s.coreReg_setCoreReg ..).trans (if_neg fun h => hm h.2)

theorem pmcWrite_counter (s : State) (c : CoreRef) (n : Fin 8) (v : Word) : s.does (.pmcWrite c n v) fun t =>
    s.sameElse t ∧ (∀ m, m ≠ 0x168 + n.val → t.coreReg c m = s.coreReg c m)
      ∧ bitsOf (t.coreReg c (0x168 + n.val)) 47 0 = bitsOf v 47 0 ∧ bitsOf (t.coreReg c (0x168 + n.val)) 63 49 = 0
      ∧ (t.coreReg c (0x168 + n.val)).getLsbD 48 = ((s.coreReg c (0x168 + n.val)).getLsbD 48 && !v.getLsbD 48) := by
  refine ⟨_, rfl, s.sameElse_setCoreReg c _ _, fun m hm => ?_, ?_⟩
  · exact (s.coreReg_setCoreReg ..).trans (if_neg fun h => hm h.2)
  · rw [s.coreReg_setCoreReg, if_pos ⟨rfl, rfl⟩]
    refine ⟨bitsOf_putBit_low _ _ 48 _ _ _ _ rfl (by omega) (by omega) (by omega), bitsOf_putBit_above _ _ 48 _ _ _ rfl (by omega) (by omega), ?_⟩
    rw [setBits_one_getLsbD _ _ _ _ (by omega), if_pos rfl]
    rfl

/-- The fields of a stored seep configuration. -/
theorem bitsOf_seepCfgWord (v : Word) : bitsOf (seepCfgWord v) 15 0 = (if bitsOf v 15 0 = 0 then 256 else bitsOf v 15 0)
    ∧ bitsOf (seepCfgWord v) 23 16 = bitsOf v 23 16 ∧ bitsOf (seepCfgWord v) 47 24 = (if bitsOf v 47 24 = 0 then 1 else bitsOf v 47 24) := by
  have mark : (if bitsOf v 15 0 = 0 then 256 else bitsOf v 15 0) < 65536 := by
    have := bitsOf_lt v 15 0
    split_ifs <;> omega
  have wce : bitsOf v 23 16 < 256 := bitsOf_lt v 23 16
  have leak : (if bitsOf v 47 24 = 0 then 1 else bitsOf v 47 24) < 16777216 := by
    have := bitsOf_lt v 47 24
    split_ifs <;> omega
  unfold seepCfgWord
  generalize (if bitsOf v 15 0 = 0 then 256 else bitsOf v 15 0) = a at mark ⊢
  generalize bitsOf v 23 16 = b at wce ⊢
  generalize (if bitsOf v 47 24 = 0 then 1 else bitsOf v 47 24) = d at leak ⊢
  simp only [bitsOf, BitVec.toNat_ofNat, Nat.shiftRight_eq_div_pow]
  omega

theorem seepcfgWrite_fields (s : State) (i : SliceId) (kind : Fin 3) (v : Word) : s.does (.seepcfgWrite i kind v) fun t =>
    s.sameElse t ∧ (t.slice i).seep = (s.slice i).seep ∧ tabGet 0 (t.slice i).seepSince kind.val = s.now
      ∧ bitsOf (t.sliceReg i (0x425 + kind.val)) 15 0 = (if bitsOf v 15 0 = 0 then 256 else bitsOf v 15 0)
      ∧ bitsOf (t.sliceReg i (0x425 + kind.val)) 23 16 = bitsOf v 23 16
      ∧ bitsOf (t.sliceReg i (0x425 + kind.val)) 47 24 = (if bitsOf v 47 24 = 0 then 1 else bitsOf v 47 24) := by
  refine ⟨_, rfl, (s.sameElse_setSliceReg ..).trans (State.sameElse_modSlice _ _ _ rfl), ?_, ?_, ?_⟩
  · simp [State.setSliceReg]
  · simp
  · have stored : (State.modSlice (s.setSliceReg i (0x425 + kind.val) (seepCfgWord v)) i fun k =>
        { k with seepSince := tabSet k.seepSince kind.val s.now }).sliceReg i (0x425 + kind.val) = seepCfgWord v := by
      simp [State.sliceReg, State.setSliceReg]
    rw [stored]
    exact bitsOf_seepCfgWord v

theorem fijctlWrite_fields (s : State) (i : SliceId) (v : Word) : s.does (.fijctlWrite i v) fun t =>
    s.sameElse t ∧ bitsOf (t.sliceReg i 0x42C) 41 0 = bitsOf v 41 0 ∧ (t.sliceReg i 0x42C).getLsbD 42 = (v.getLsbD 42 && s.testSlice i) := by
  refine ⟨_, rfl, s.sameElse_setSliceReg i _ _, ?_⟩
  rw [s.sliceReg_setSliceReg, if_pos ⟨rfl, rfl⟩]
  refine ⟨bitsOf_putBit_low _ _ 43 _ _ _ _ rfl (by omega) (by omega) (by omega), ?_⟩
  rw [setBits_one_getLsbD _ _ _ _ (by omega), if_pos rfl]
  rfl

/-- A counter that leaks falls by 1. -/
theorem Seep.leak_of_pos (x : Seep) (mark : Nat) (now : Word) (h : x.value ≠ 0) : (x.leak mark now).value = x.value - 1
    ∧ (x.leak mark now).stamp = now ∧ (x.leak mark now).armed = (x.armed || decide (2 * (x.value.toNat - 1) < mark)) := by
  rw [Seep.leak, if_neg h]
  have pos : 0 < x.value.toNat := Nat.pos_of_ne_zero fun z => h (BitVec.eq_of_toNat_eq z)
  refine ⟨BitVec.eq_of_toNat_eq ?_, rfl, rfl⟩
  bv_omega

theorem seepLeak_due (s : State) (i : SliceId) (kind : Fin 3)
    (due : s.passed (tabGet 0 (s.slice i).seepSince kind.val) (s.seepLeak i kind.val) = true) : s.does (.seepLeak i kind) fun t =>
    s.sameElse t ∧ ∀ m (x : Seep), tabFind (s.slice i).seep m = some x →
      let y : Seep := tabGet {} (t.slice i).seep m
      if seepKind m = kind.val ∧ x.value ≠ 0 then y.value = x.value - 1 ∧ y.stamp = s.now
          ∧ y.armed = (x.armed || decide (2 * (x.value.toNat - 1) < s.seepMark i kind.val))
      else y = x := by
  refine ⟨_, congrArg Host.Outcome.next (if_pos due), s.sameElse_modSlice i _ rfl, fun m x hx => ?_⟩
  rw [s.slice_modSlice, if_pos rfl]
  simp only [tabGet_eq_tabFind, tabFind_tabMap, hx, Option.map_some, Option.getD_some]
  split_ifs with h hk hk
  · exact x.leak_of_pos _ _ h.2
  · exact absurd h.1 hk
  · rw [Seep.leak, if_pos (by_contra fun hv => h ⟨hk, hv⟩)]
  · rfl

theorem seepLeak_early (s : State) (i : SliceId) (kind : Fin 3)
    (early : s.passed (tabGet 0 (s.slice i).seepSince kind.val) (s.seepLeak i kind.val) = false) : s.does (.seepLeak i kind) fun t => t = s :=
  ⟨s, congrArg Host.Outcome.next (if_neg (early ▸ Bool.false_ne_true)), rfl⟩

/-- A tenant's entry at a controller after the credit has risen. -/
def State.refilled (s : State) (i : SliceId) (ctl : Nat) (e : Word × Nat) : Credit :=
  let c : Int := match (tabGet [] (s.slice i).credits ctl).find? fun (x : Credit) => x.tenant == e.1 with | some x => x.credit | none => 0
  { tenant := e.1, share := e.2, credit := min (c + creditRise e.2) (creditRise e.2) }

theorem hbmCreditRefill_due (s : State) (i : SliceId) (ctl : Fin 2) (p : PartId) (hp : s.partOf i = some p)
    (due : s.passed (tabGet 0 (s.slice i).creditSince ctl.val) 1000 = true) : s.does (.hbmCreditRefill i ctl) fun t =>
    s.sameElse t ∧ tabGet 0 (t.slice i).creditSince ctl.val = s.now
      ∧ ∀ e ∈ s.hbmShares p, ∃ x ∈ tabGet [] (t.slice i).credits ctl.val, x.tenant = e.1 ∧ x.share = e.2
        ∧ x.credit = (let old : Int := (((tabGet [] (s.slice i).credits ctl.val).find? fun (y : Credit) => y.tenant == e.1).map (·.credit)).getD 0
                      let rise : Int := (e.2 * 3600000 / 65536 : Nat)
                      min (old + rise) rise) := by
  have run : exec (.hbmCreditRefill i ctl) s = .next (s.modSlice i fun k =>
      { k with credits := tabSet k.credits ctl.val ((s.hbmShares p).map (s.refilled i ctl.val)), creditSince := tabSet k.creditSince ctl.val s.now }) := by
    rw [show exec (.hbmCreditRefill i ctl) s = execHbmCreditRefill i ctl s from rfl, execHbmCreditRefill, hp]
    exact congrArg Host.Outcome.next (if_neg (by rw [due]; exact Bool.not_not_eq.2 rfl))
  refine ⟨_, run, s.sameElse_modSlice i _ rfl, by simp, fun e he => ⟨s.refilled i ctl.val e, ?_, rfl, rfl, ?_⟩⟩
  · simp only [State.slice_modSlice, if_pos, tabGet_tabSet]
    exact List.mem_map_of_mem he
  · rw [State.refilled]
    cases (tabGet [] (s.slice i).credits ctl.val).find? fun x => x.tenant == e.1 <;> rfl

/-- Settles O32. -/
theorem counterRegisters : Obligations.CounterRegisters := fun s c i n kind ctl v =>
  ⟨registerReadClear_counter s c, registerWrite_quantum s c v, pmcWrite_counter s c n v, seepcfgWrite_fields s i kind v, fijctlWrite_fields s i v,
    seepLeak_due s i kind, seepLeak_early s i kind, hbmCreditRefill_due s i ctl⟩

end Sys2Proof.Machine
end

section
/-! PROOF. The life of a partition and the endpoint functions (R12 to R14, R445 to R458). -/

namespace Sys2Proof.Machine

/-! ### Fields of a word -/

theorem getLsbD_setBits {w : Nat} (x : BitVec w) {hi lo : Nat} (v : Nat) {j : Nat} (hj : j < w) :
    (setBits x hi lo v).getLsbD j = if lo ≤ j ∧ j < hi + 1 then v.testBit (j - lo) else x.getLsbD j := by
  simp only [setBits, BitVec.getLsbD_or, BitVec.getLsbD_and, BitVec.getLsbD_not, BitVec.getLsbD_ofNat, hj, decide_true, Bool.true_and,
    ← Nat.shiftLeft_eq, Nat.testBit_shiftLeft, Nat.testBit_two_pow_sub_one]
  by_cases h1 : lo ≤ j
  · by_cases h2 : j < hi + 1
    · simp [h1, h2, show j - lo < hi + 1 - lo by omega]
    · simp [h1, h2, show ¬ j - lo < hi + 1 - lo by omega]
  · simp [h1]

theorem bitsOf_setBits_same {w : Nat} (x : BitVec w) {hi lo : Nat} (v : Nat) (hw : hi < w) :
    bitsOf (setBits x hi lo v) hi lo = v % 2 ^ (hi + 1 - lo) := by
  refine Nat.eq_of_testBit_eq fun j => ?_
  rw [testBit_bitsOf, Nat.testBit_mod_two_pow]
  by_cases hj : j < hi + 1 - lo
  · rw [getLsbD_setBits _ _ (by omega), if_pos ⟨by omega, by omega⟩, Nat.add_sub_cancel_left]
  · simp [hj]

/-- A field is as before when another one is set. -/
theorem bitsOf_setBits_other {w : Nat} (x : BitVec w) {hi lo a b : Nat} (v : Nat) (hw : a < w) (h : a < lo ∨ hi < b) :
    bitsOf (setBits x hi lo v) a b = bitsOf x a b :=
  bitsOf_congr fun j _ _ => by rw [getLsbD_setBits _ _ (by omega), if_neg (by omega)]

theorem getLsbD_setBits_other {w : Nat} (x : BitVec w) {hi lo j : Nat} (v : Nat) (hw : j < w) (h : j < lo ∨ hi < j) :
    (setBits x hi lo v).getLsbD j = x.getLsbD j := by rw [getLsbD_setBits _ _ hw, if_neg (by omega)]

theorem getLsbD_putBit {w : Nat} (x : BitVec w) (i : Nat) (b : Bool) {j : Nat} (hj : j < w) :
    (putBit x i b).getLsbD j = if j = i then b else x.getLsbD j := by
  rw [putBit, getLsbD_setBits _ _ hj]
  by_cases h : j = i
  · subst h
    rw [if_pos (by omega), if_pos rfl, Nat.sub_self]
    cases b <;> rfl
  · rw [if_neg (by omega), if_neg h]

/-- A field of a number that fits the word. -/
theorem bitsOf_ofNat {w n hi lo : Nat} (hw : hi < w) : bitsOf (BitVec.ofNat w n) hi lo = n / 2 ^ lo % 2 ^ (hi + 1 - lo) := by
  refine Nat.eq_of_testBit_eq fun j => ?_
  rw [testBit_bitsOf, Nat.testBit_mod_two_pow, ← Nat.shiftRight_eq_div_pow, Nat.testBit_shiftRight]
  by_cases hj : j < hi + 1 - lo
  · rw [BitVec.getLsbD_ofNat, decide_eq_true (show lo + j < w by omega), Bool.true_and]
  · simp [hj]

/-- A field of one bit. -/
theorem bitsOf_bit {w : Nat} (x : BitVec w) (i : Nat) : bitsOf x i i = (x.getLsbD i).toNat := by
  refine Nat.eq_of_testBit_eq fun j => ?_
  rw [testBit_bitsOf, Nat.testBit_bool_toNat]
  by_cases hj : j = 0
  · subst hj; simp
  · simp [hj]

/-! ### Folds -/

/-- What no step of a fold changes, the fold does not change. -/
theorem foldl_same {σ α β : Type} {f : σ → α → σ} (g : σ → β) (h : ∀ s x, g (f s x) = g s) (l : List α) (s : σ) : g (l.foldl f s) = g s := by
  induction l generalizing s with
  | nil => rfl
  | cons x xs ih => rw [List.foldl_cons, ih, h]

/-- What every step brings about for its own element, and no step spoils for another, holds of all elements after the fold. -/
theorem foldl_establishes {σ α : Type} {f : σ → α → σ} {P : α → σ → Prop} (own : ∀ s x, P x (f s x)) (other : ∀ s x y, x ≠ y → P x s → P x (f s y))
    (l : List α) (s : σ) : ∀ x ∈ l, P x (l.foldl f s) := by
  classical
  have keep : ∀ (l : List α) (s : σ) x, P x s → P x (l.foldl f s) := by
    intro l
    induction l with
    | nil => exact fun _ _ h => h
    | cons y ys ih =>
      intro s x h
      refine ih _ _ ?_
      by_cases hxy : x = y
      · exact hxy ▸ own s x
      · exact other s x y hxy h
  induction l generalizing s with
  | nil => simp
  | cons y ys ih =>
    intro x hx
    rcases List.mem_cons.1 hx with rfl | hx
    · exact keep ys _ x (own s x)
    · exact ih _ x hx

end Sys2Proof.Machine
end
section
/-! PROOF. What the work on slices leaves alone: a step of it changes fields of slices, sends messages and draws free values, and nothing else. -/

namespace Sys2Proof.Machine

/-- Nothing but slices, messages to host cores and the next free value has changed, and of every slice a part is as it was. -/
def State.keeps {β : Type} (π : Slice → β) (s t : State) : Prop :=
  t = { s with slices := t.slices, msis := t.msis, fresh := t.fresh } ∧ ∀ i, π (t.slice i) = π (s.slice i)

section
variable {β : Type} {π : Slice → β} {s t u : State}

theorem State.keeps.refl (s : State) : s.keeps π s := ⟨rfl, fun _ => rfl⟩

theorem State.keeps.trans (h : s.keeps π t) (k : t.keeps π u) : s.keeps π u := by
  obtain ⟨h, hs⟩ := h
  obtain ⟨k, ks⟩ := k
  refine ⟨?_, fun i => (ks i).trans (hs i)⟩
  rw [k, h]

theorem State.keeps.ite {p : Prop} {_ : Decidable p} (h : s.keeps π t) (k : s.keeps π u) : s.keeps π (if p then t else u) := by
  split_ifs
  · exact h
  · exact k

theorem State.keeps.foldl {α : Type} {f : State → α → State} (h : ∀ (s : State) x, s.keeps π (f s x)) (l : List α) (s : State) : s.keeps π (l.foldl f s) := by
  induction l generalizing s with
  | nil => exact .refl s
  | cons x xs ih => exact (h s x).trans (ih (f s x))

section
variable (h : s.keeps π t)
include h
theorem State.keeps.mem : t.mem = s.mem := (congrArg State.mem h.1).trans rfl
theorem State.keeps.prc : t.prc = s.prc := (congrArg State.prc h.1).trans rfl
theorem State.keeps.part (p : PartId) : t.part p = s.part p := (congrArg (State.part · p) h.1).trans rfl
theorem State.keeps.pmap (p : PartId) : t.pmap p = s.pmap p := (congrArg (State.pmap · p) h.1).trans rfl
theorem State.keeps.prcReg (n : Nat) : t.prcReg n = s.prcReg n := (congrArg (State.prcReg · n) h.1).trans rfl
theorem State.keeps.halts : t.halts = s.halts := (congrArg State.halts h.1).trans rfl
theorem State.keeps.saved : t.saved = s.saved := (congrArg State.saved h.1).trans rfl
theorem State.keeps.now : t.now = s.now := (congrArg State.now h.1).trans rfl
theorem State.keeps.slice (i : SliceId) : π (t.slice i) = π (s.slice i) := h.2 i
end

theorem State.keeps_setSlice (s : State) (i : SliceId) {v : Slice} (hv : π v = π (s.slice i)) : s.keeps π (s.setSlice i v) := by
  refine ⟨rfl, fun j => ?_⟩
  rw [State.slice_setSlice]
  split_ifs with h
  · rw [hv, h]
  · rfl

theorem State.keeps_modSlice (s : State) (i : SliceId) {f : Slice → Slice} (hf : ∀ k, π (f k) = π k) : s.keeps π (s.modSlice i f) :=
  s.keeps_setSlice i (hf _)

end

/-! ### Registers of slices (R355, R391, R395, R446) -/

section
variable {β : Type} {π : Slice → β} (hπ : ∀ (k : Slice) r, π { k with regs := r } = π k)
include hπ

theorem State.keeps_setSliceReg (s : State) (i : SliceId) (n : Nat) (v : Word) : s.keeps π (s.setSliceReg i n v) := s.keeps_modSlice i fun k => hπ k _

theorem State.keeps_raiseSource (s : State) (i : SliceId) (src : Nat) : s.keeps π (s.raiseSource i src) := by
  rw [State.raiseSource]
  split_ifs
  · exact (s.keeps_setSliceReg hπ ..).trans ⟨rfl, fun _ => rfl⟩
  · exact s.keeps_setSliceReg hπ ..

theorem State.keeps_raisePartSource (s : State) (p : PartId) (src : Nat) : s.keeps π (s.raisePartSource p src) := by
  rw [State.raisePartSource]
  split
  · exact s.keeps_raiseSource hπ ..
  · exact .refl s

theorem State.keeps_setRange (s : State) (i : SliceId) (port j : Nat) (b l : Word) : s.keeps π (s.setRange i port j b l) :=
  .ite (.refl s) (((s.keeps_setSliceReg hπ ..).trans (State.keeps_setSliceReg hπ ..)).trans (State.keeps_setSliceReg hπ ..))

theorem State.keeps_setRanges (s : State) (i : SliceId) (port : Nat) (rs : List (Word × Word)) : s.keeps π (s.setRanges i port rs) :=
  .foldl (fun s _ => s.keeps_setRange hπ ..) _ s

theorem State.keeps_setDyke (s : State) (i : SliceId) (port v : Nat) : s.keeps π (s.setDyke i port v) :=
  .ite (.refl s) (s.keeps_setSliceReg hπ ..)

theorem State.keeps_formRanges (s : State) (p : PartId) (is : List SliceId) (i : SliceId) (port : Nat) : s.keeps π (s.formRanges p is i port) :=
  .ite (.refl s) (s.keeps_setRanges hπ ..)

theorem State.keeps_openPort (s : State) (p : PartId) (is : List SliceId) (i : SliceId) (port : Nat) : s.keeps π (s.openPort p is i port) :=
  (s.keeps_setDyke hπ ..).trans (State.keeps_formRanges hπ ..)

theorem State.keeps_closePort (s : State) (i : SliceId) (port : Nat) : s.keeps π (s.closePort i port) :=
  (s.keeps_setRanges hπ ..).trans (State.keeps_setDyke hπ ..)

theorem State.keeps_formDykes (s : State) (p : PartId) (is : List SliceId) : s.keeps π (s.formDykes p is) :=
  .foldl (fun s _ => .foldl (fun s _ => .ite (s.keeps_openPort hπ ..) (s.keeps_closePort hπ ..)) _ s) _ s

theorem State.keeps_reformRanges (s : State) (p : PartId) (is : List SliceId) : s.keeps π (s.reformRanges p is) :=
  .foldl (fun s _ => .foldl (fun s _ => .ite (s.keeps_formRanges hπ ..) (.refl s)) _ s) _ s

theorem State.keeps_formRoutes (s : State) (lowest i : SliceId) : s.keeps π (s.formRoutes lowest i) :=
  .foldl (fun s _ => s.keeps_setSliceReg hπ ..) _ s

theorem State.keeps_closeRoutes (s : State) (i : SliceId) : s.keeps π (s.closeRoutes i) :=
  .foldl (fun s _ => s.keeps_setSliceReg hπ ..) _ s

theorem State.keeps_stopInjector (s : State) (i : SliceId) : s.keeps π (s.stopInjector i) := s.keeps_setSliceReg hπ ..

theorem State.keeps_setEpstat (s : State) (i : SliceId) (p : Nat) (v : Word) : s.keeps π (s.setEpstat i p v) := .ite (.refl s) (s.keeps_setSliceReg hπ ..)

theorem State.keeps_setInterleave (s : State) (i : SliceId) : s.keeps π (s.setInterleave i) := s.keeps_setSliceReg hπ ..

theorem State.keeps_setArt (ha : ∀ (k : Slice) r, π { k with art := r } = π k) (s : State) (i : SliceId) (es : List (List W32)) (image : Word) :
    s.keeps π (s.setArt i es image) :=
  ((s.keeps_modSlice i fun k => ha k _).trans (State.keeps_setSliceReg hπ ..)).trans (State.keeps_setSliceReg hπ ..)

theorem State.keeps_clearEndpoints (he : ∀ (k : Slice) a b c d, π { k with ep := a, epD3 := b, epMask := c, epCfg := d } = π k) (s : State) (i : SliceId) :
    s.keeps π (s.clearEndpoints i) :=
  (State.keeps.foldl (fun s _ => .ite (s.keeps_setEpstat hπ ..) (.refl s)) _ s).trans (State.keeps_modSlice _ i fun k => he k _ _ _ _)

end

/-! ### Cores of slices (R446, R466) -/

section
variable {β : Type} {π : Slice → β} (hπ : ∀ (k : Slice) c, π { k with cores := c } = π k)
include hπ

theorem State.keeps_setCore (s : State) (c : CoreRef) (v : Core) : s.keeps π (s.setCore c v) := s.keeps_setSlice c.slice (hπ _ _)

theorem State.keeps_fwEvent (s : State) (c : CoreRef) (kind arg : Nat) : s.keeps π (s.fwEvent c kind arg) := s.keeps_setCore hπ ..

theorem State.keeps_phEvent (s : State) (i : SliceId) (cause what : Nat) (failed : Bool) : s.keeps π (s.phEvent i cause what failed) := by
  rw [State.phEvent]
  split
  · exact s.keeps_fwEvent hπ ..
  · exact .refl s

theorem State.keeps_startAgent (s : State) (c : CoreRef) (p : PartId) (gen : Nat) (x : Word) : s.keeps π (s.startAgent c p gen x) :=
  (((s.keeps_setCore hπ ..).trans (State.keeps_setCore hπ ..)).trans (State.keeps_setCore hπ ..)).trans (State.keeps_setCore hπ ..)

theorem State.keeps_startAgents (hl : ∀ (k : Slice) a b, π { k with held := a, lockFails := b } = π k) (s : State) (p : PartId) (is : List SliceId) :
    s.keeps π (s.startAgents p is) := by
  refine .foldl (fun s i => ?_) is s
  extract_lets s₁ s₂
  have h₁ : s.keeps π s₁ := .foldl (fun s _ => s.keeps_startAgent hπ ..) _ s
  have h₂ : s₁.keeps π s₂ := .foldl (fun s _ => s.keeps_phEvent hπ ..) _ s₁
  exact (h₁.trans h₂).trans (s₂.keeps_modSlice i fun k => hl k _ _)

end

end Sys2Proof.Machine
end
section
/-! PROOF. Dykes, routes and agents of a partition that is formed (R391, R395, R446). -/

namespace Sys2Proof.Machine

/-! ### Which registers of slices are as before -/

/-- The registers of slices outside a set are as before. -/
structure State.regsBut (R : SliceId → Nat → Prop) (s t : State) : Prop where
  reg : ∀ i n, ¬R i n → t.sliceReg i n = s.sliceReg i n

section
variable {R : SliceId → Nat → Prop} {s t u : State}

theorem State.regsBut.refl (s : State) : s.regsBut R s := ⟨fun _ _ _ => rfl⟩

theorem State.regsBut.trans (h : s.regsBut R t) (k : t.regsBut R u) : s.regsBut R u :=
  ⟨fun i n hn => (k.reg i n hn).trans (h.reg i n hn)⟩

theorem State.regsBut.ite {p : Prop} {_ : Decidable p} (h : s.regsBut R t) (k : s.regsBut R u) : s.regsBut R (if p then t else u) := by
  split_ifs
  · exact h
  · exact k

theorem State.regsBut.foldl {α : Type} {f : State → α → State} (h : ∀ (s : State) x, s.regsBut R (f s x)) (l : List α) (s : State) :
    s.regsBut R (l.foldl f s) := by
  induction l generalizing s with
  | nil => exact .refl s
  | cons x xs ih => exact (h s x).trans (ih (f s x))

theorem State.regsBut_setSliceReg (s : State) {i : SliceId} {n : Nat} (v : Word) (h : R i n) : s.regsBut R (s.setSliceReg i n v) := by
  refine ⟨fun j m hm => ?_⟩
  rw [State.sliceReg_setSliceReg, if_neg]
  rintro ⟨rfl, rfl⟩
  exact hm h

/-- Registers that no work has touched read as before. -/
theorem State.keeps.sliceReg (h : s.keeps Slice.regs t) (i : SliceId) (n : Nat) : t.sliceReg i n = s.sliceReg i n :=
  congrArg (tabGet (sliceRegReset n) · n) (h.slice i)

theorem State.keeps.core (h : s.keeps Slice.cores t) (c : CoreRef) : t.core c = s.core c :=
  congrArg (fun x => tabGet ({} : Core) x c.core.val) (show (t.slice c.slice).cores = (s.slice c.slice).cores from h.slice c.slice)

end

/-! ### Dykes (R446, step 3) -/

/-- The registers that opening or closing a port writes: its entry, and ranges. -/
def portReg (i : SliceId) (q : Nat) (j : SliceId) (n : Nat) : Prop := j = i ∧ (n = 0x780 + q ∨ 0x790 ≤ n)

theorem State.setRange_regs (s : State) (i : SliceId) (q j : Nat) (b l : Word) : s.regsBut (portReg i q) (s.setRange i q j b l) := by
  refine .ite (.refl s) (.trans (.trans (s.regsBut_setSliceReg b ?_) (State.regsBut_setSliceReg _ l ?_)) (State.regsBut_setSliceReg _ _ ?_))
  · exact ⟨rfl, .inr (by omega)⟩
  · exact ⟨rfl, .inr (by omega)⟩
  · exact ⟨rfl, .inl rfl⟩

theorem State.setRanges_regs (s : State) (i : SliceId) (q : Nat) (rs : List (Word × Word)) : s.regsBut (portReg i q) (s.setRanges i q rs) :=
  .foldl (fun s _ => s.setRange_regs ..) _ s

theorem State.setDyke_regs (s : State) (i : SliceId) (q v : Nat) : s.regsBut (portReg i q) (s.setDyke i q v) :=
  .ite (.refl s) (s.regsBut_setSliceReg _ ⟨rfl, .inl rfl⟩)

theorem State.openPort_regs (s : State) (p : PartId) (is : List SliceId) (i : SliceId) (q : Nat) : s.regsBut (portReg i q) (s.openPort p is i q) :=
  (s.setDyke_regs ..).trans (.ite (.refl _) (State.setRanges_regs ..))

theorem State.closePort_regs (s : State) (i : SliceId) (q : Nat) : s.regsBut (portReg i q) (s.closePort i q) :=
  (s.setRanges_regs ..).trans (State.setDyke_regs ..)

/-- What a port passes: the fields of its entry below the stamp. -/
def State.dyke (s : State) (i : SliceId) (q : Nat) : Nat := bitsOf (s.sliceReg i (0x780 + q)) 23 0

theorem State.dyke_setRange (s : State) (i : SliceId) {q : Nat} (hq : q < 14) (j : Nat) (b l : Word) : (s.setRange i q j b l).dyke i q = s.dyke i q := by
  rw [State.setRange]
  split_ifs
  · rfl
  · rw [State.dyke, State.sliceReg_setSliceReg, if_pos ⟨rfl, rfl⟩, bitsOf_setBits_other _ _ (by omega) (by omega), State.sliceReg_setSliceReg,
      if_neg (by omega), State.sliceReg_setSliceReg, if_neg (by omega), State.dyke]

theorem State.dyke_setRanges (s : State) (i : SliceId) {q : Nat} (hq : q < 14) (rs : List (Word × Word)) : (s.setRanges i q rs).dyke i q = s.dyke i q :=
  foldl_same (fun s => State.dyke s i q) (fun s _ => s.dyke_setRange i hq ..) _ s

theorem State.dyke_setDyke (s : State) {i : SliceId} {q v : Nat} (hd : hasDyke i q = true) (hv : v < 2 ^ 24) : (s.setDyke i q v).dyke i q = v := by
  rw [State.setDyke, hd, if_neg (by simp), State.dyke, State.sliceReg_setSliceReg, if_pos ⟨rfl, rfl⟩, bitsOf_ofNat (by omega)]
  omega

/-- The entry of a port that passes a partition in both directions. -/
def dykeOf (p : PartId) : Nat := 2 ^ p.val + 2 ^ (8 + p.val) + 2 ^ 16

theorem dykeOf_lt (p : PartId) : dykeOf p < 2 ^ 17 := by decide +revert

theorem State.dyke_openPort (s : State) (p : PartId) (is : List SliceId) {i : SliceId} {q : Nat} (hq : q < 14) (hd : hasDyke i q = true) :
    (s.openPort p is i q).dyke i q = dykeOf p := by
  have set : (s.setDyke i q (dykeOf p)).dyke i q = dykeOf p := s.dyke_setDyke hd (by have := dykeOf_lt p; omega)
  rw [State.openPort, State.formRanges]
  split_ifs
  · exact set
  · exact (State.dyke_setRanges _ i hq _).trans set

theorem State.dyke_closePort (s : State) {i : SliceId} {q : Nat} (hd : hasDyke i q = true) : (s.closePort i q).dyke i q = 0 :=
  State.dyke_setDyke _ hd (by norm_num)

/-- An entry is untouched by work on another port. -/
theorem State.regsBut.dyke {s t : State} {i j : SliceId} {q r : Nat} (h : s.regsBut (portReg j r) t) (hq : q < 14) (hne : i ≠ j ∨ q ≠ r) :
    t.dyke i q = s.dyke i q := by
  refine congrArg (bitsOf · 23 0) (h.reg i _ ?_)
  rintro ⟨hi, hr⟩
  rcases hne with hne | hne
  · exact hne hi
  · omega

/-- What forming does to one port of a member. -/
def State.formPort (s : State) (p : PartId) (is : List SliceId) (i : SliceId) (q : Nat) : State :=
  if portOpens is i q then s.openPort p is i q else s.closePort i q

theorem State.formDykes_eq (s : State) (p : PartId) (is : List SliceId) :
    s.formDykes p is = is.foldl (fun s i => (List.range 14).foldl (fun s q => s.formPort p is i q) s) s := rfl

theorem State.formPort_regs (s : State) (p : PartId) (is : List SliceId) (i : SliceId) (q : Nat) : s.regsBut (portReg i q) (s.formPort p is i q) :=
  .ite (s.openPort_regs ..) (s.closePort_regs ..)

theorem State.dyke_formPort (s : State) (p : PartId) (is : List SliceId) {i : SliceId} {q : Nat} (hq : q < 14) (hd : hasDyke i q = true) :
    (s.formPort p is i q).dyke i q = if portOpens is i q then dykeOf p else 0 := by
  rw [State.formPort]
  split_ifs
  · exact s.dyke_openPort p is hq hd
  · exact s.dyke_closePort hd

/-- The ports of a slice pass what forming lets them pass. -/
def State.dykesFormed (p : PartId) (is : List SliceId) (i : SliceId) (s : State) : Prop :=
  ∀ q < 14, hasDyke i q = true → s.dyke i q = if portOpens is i q then dykeOf p else 0

theorem State.dykesFormed_formDykes (s : State) (p : PartId) (is : List SliceId) : ∀ i ∈ is, (s.formDykes p is).dykesFormed p is i := by
  rw [State.formDykes_eq]
  refine foldl_establishes (fun s i q hq hd => ?_) (fun s i j hij h q hq hd => ?_) is s
  · exact foldl_establishes (P := fun q s => q < 14 → hasDyke i q = true → State.dyke s i q = if portOpens is i q then dykeOf p else 0)
      (fun s _ hq hd => s.dyke_formPort p is hq hd) (fun s q r hqr h hq hd => ((s.formPort_regs p is i r).dyke hq (.inr hqr)).trans (h hq hd))
      (List.range 14) s q (List.mem_range.2 hq) hq hd
  · have other := foldl_same (fun s => State.dyke s i q) (fun s r => (s.formPort_regs p is j r).dyke hq (.inl hij)) (List.range 14) s
    exact other.trans (h q hq hd)

/-- A port of a member opens but for an edge to a slice that is no member, or to none. -/
theorem portOpens_iff (is : List SliceId) (i : SliceId) (q : Nat) :
    portOpens is i q = true ↔ (∀ k, neighbour i q = some k → k ∈ is) ∧ (q < 8 ∨ 10 < q ∨ (neighbour i q).isSome = true) := by
  rw [portOpens]
  by_cases hq : 8 ≤ q ∧ q ≤ 10
  · rw [if_pos (by simpa using hq)]
    cases neighbour i q with
    | none => simp; omega
    | some k => simp
  · have none : neighbour i q = none := by
      rw [neighbour, if_neg (by omega), if_neg (by omega), if_neg (by omega)]
    rw [if_neg (by simpa using hq), none]
    simp
    omega

/-! ### Routes (R395) -/

/-- The registers that hold a slice's routes. -/
def routeReg (i : SliceId) (j : SliceId) (n : Nat) : Prop := j = i ∧ 0x770 ≤ n ∧ n < 0x780

theorem foldl_routes_regs (s : State) (i : SliceId) (f : State → Nat → Word) :
    s.regsBut (routeReg i) ((List.range 16).foldl (fun s n => s.setSliceReg i (0x770 + n) (f s n)) s) := by
  have go : ∀ (l : List Nat), (∀ n ∈ l, n < 16) → ∀ s : State, s.regsBut (routeReg i) (l.foldl (fun s n => s.setSliceReg i (0x770 + n) (f s n)) s) := by
    intro l
    induction l with
    | nil => exact fun _ s => .refl s
    | cons n l ih =>
      intro hl s
      have hn := hl n List.mem_cons_self
      exact (s.regsBut_setSliceReg _ ⟨rfl, by omega, by omega⟩).trans (ih (fun m hm => hl m (List.mem_cons_of_mem _ hm)) _)
  exact go _ (fun n hn => List.mem_range.1 hn) s

theorem State.formRoutes_regs (s : State) (lowest i : SliceId) : s.regsBut (routeReg i) (s.formRoutes lowest i) := foldl_routes_regs s i _

theorem State.closeRoutes_regs (s : State) (i : SliceId) : s.regsBut (routeReg i) (s.closeRoutes i) := foldl_routes_regs s i _

/-- A route without its stamp. -/
def State.route' (s : State) (i : SliceId) (n : Nat) : Nat := bitsOf (s.sliceReg i (0x770 + n)) 26 0

theorem State.route_formRoutes (s : State) (lowest i : SliceId) : ∀ n ∈ List.range 16,
    (s.formRoutes lowest i).route' i n = if n = 0 then 0x801 + lowest.val * 2 ^ 16 else 0 := by
  refine foldl_establishes (P := fun n s => State.route' s i n = if n = 0 then 0x801 + lowest.val * 2 ^ 16 else 0)
    (fun s n => ?_) (fun s n m hnm h => ?_) (List.range 16) s
  · have := lowest.isLt
    rw [State.route', State.sliceReg_setSliceReg, if_pos ⟨rfl, rfl⟩, bitsOf_ofNat (by omega)]
    split_ifs <;> omega
  · rw [State.route', State.sliceReg_setSliceReg, if_neg (by omega)]
    exact h

theorem State.route_formRoutes_all (s : State) (lowest : SliceId) (is : List SliceId) : ∀ i ∈ is, ∀ n ∈ List.range 16,
    (is.foldl (fun s i => s.formRoutes lowest i) s).route' i n = if n = 0 then 0x801 + lowest.val * 2 ^ 16 else 0 := by
  refine foldl_establishes (P := fun i s => ∀ n ∈ List.range 16, State.route' s i n = if n = 0 then 0x801 + lowest.val * 2 ^ 16 else 0)
    (fun s i => s.route_formRoutes lowest i) (fun s i j hij h n hn => ?_) is s
  rw [State.route', (s.formRoutes_regs lowest j).reg i _ fun hr => hij hr.1]
  exact h n hn

/-! ### Agents (R446, step 6) -/

/-- A core's agent runs. -/
def State.agentRuns (s : State) (c : CoreRef) : Prop := (s.core c).puppet.running = true ∧ (s.core c).puppet.stopped = false

theorem State.agentRuns_congr {s t : State} {c : CoreRef} (h : t.core c = s.core c) : t.agentRuns c = s.agentRuns c := by
  rw [State.agentRuns, h, State.agentRuns]

theorem State.agentRuns_startAgent (s : State) (c : CoreRef) (p : PartId) (gen : Nat) (x : Word) : (s.startAgent c p gen x).agentRuns c := by
  rw [State.agentRuns, State.startAgent, State.core_modPuppet, if_pos rfl]
  exact ⟨rfl, rfl⟩

theorem State.agentRuns_startAgent_other (s : State) {c d : CoreRef} (hcd : c ≠ d) (p : PartId) (gen : Nat) (x : Word) :
    (s.startAgent d p gen x).agentRuns c = s.agentRuns c := by
  have core : (s.startAgent d p gen x).core c = s.core c := by
    simp only [State.startAgent, State.core_modPuppet, State.setCoreReg, State.core_modCore, if_neg hcd]
  exact State.agentRuns_congr core

theorem State.agentRuns_fwEvent (s : State) (c d : CoreRef) (kind arg : Nat) : (s.fwEvent d kind arg).agentRuns c = s.agentRuns c := by
  rw [State.agentRuns, State.fwEvent, State.core_modPuppet]
  by_cases h : c = d
  · subst h
    simp only [if_pos, State.agentRuns]
    split_ifs <;> rfl
  · rw [if_neg h, State.agentRuns]

theorem State.agentRuns_phEvent (s : State) (c : CoreRef) (i : SliceId) (cause what : Nat) (b : Bool) :
    (s.phEvent i cause what b).agentRuns c = s.agentRuns c := by
  rw [State.phEvent]
  split
  · exact s.agentRuns_fwEvent ..
  · rfl

/-- Starting agents leaves every group as it is. -/
theorem State.group_startAgent (s : State) (c : CoreRef) (p : PartId) (gen : Nat) (x : Word) (g : GroupRef) :
    (s.startAgent c p gen x).group g = s.group g := by
  rw [State.startAgent, State.group_modPuppet, State.group_setCoreReg, State.group_setCoreReg, State.group_setCoreReg]

theorem State.group_phEvent (s : State) (i : SliceId) (cause what : Nat) (b : Bool) (g : GroupRef) : (s.phEvent i cause what b).group g = s.group g := by
  rw [State.phEvent]
  split
  · exact s.group_modPuppet ..
  · rfl

/-- The agents of one slice start. -/
def State.startSlice (s : State) (p : PartId) (i : SliceId) : State :=
  let s := (List.range 144).foldl (fun s c => s.startAgent ⟨i, idx 144 c⟩ p (s.targetGen p) 0) s
  let s := (s.slice i).lockFails.foldl (fun s n => s.phEvent i 1 n false) s
  s.modSlice i fun k => { k with held := false, lockFails := [] }

theorem State.startAgents_eq (s : State) (p : PartId) (is : List SliceId) : s.startAgents p is = is.foldl (fun s i => s.startSlice p i) s := rfl

theorem State.group_startAgents (s : State) (p : PartId) (is : List SliceId) (g : GroupRef) : (s.startAgents p is).group g = s.group g := by
  rw [State.startAgents_eq]
  refine foldl_same (fun s => State.group s g) (fun s i => ?_) is s
  unfold State.startSlice
  extract_lets s₁ s₂
  have h₁ : s₁.group g = s.group g := foldl_same (fun s => State.group s g) (fun s _ => s.group_startAgent ..) _ s
  have h₂ : s₂.group g = s₁.group g := foldl_same (fun s => State.group s g) (fun s _ => s.group_phEvent ..) _ s₁
  rw [← h₁, ← h₂]
  simp only [State.group, State.core_modSlice]

theorem State.agentRuns_startSlice (s : State) (p : PartId) (i : SliceId) (k : CoreIx) : (s.startSlice p i).agentRuns ⟨i, k⟩ := by
  unfold State.startSlice
  extract_lets s₁ s₂
  have h₁ : s₁.agentRuns ⟨i, k⟩ := by
    have own := foldl_establishes (P := fun c s => State.agentRuns s ⟨i, idx 144 c⟩) (f := fun s c => s.startAgent ⟨i, idx 144 c⟩ p (s.targetGen p) 0)
      (fun s c => s.agentRuns_startAgent ..) (fun s c d _ h => by
        by_cases hcd : (⟨i, idx 144 c⟩ : CoreRef) = ⟨i, idx 144 d⟩
        · exact hcd ▸ s.agentRuns_startAgent ..
        · exact (s.agentRuns_startAgent_other hcd ..).mpr h) (List.range 144) s k.val (List.mem_range.2 k.isLt)
    have hk : idx 144 k.val = k := by simp [idx]
    rwa [hk] at own
  have h₂ : s₂.agentRuns ⟨i, k⟩ = s₁.agentRuns ⟨i, k⟩ := foldl_same (fun s => State.agentRuns s ⟨i, k⟩) (fun s _ => s.agentRuns_phEvent ..) _ s₁
  clear_value s₂ s₁
  refine (State.agentRuns_congr (State.core_modSlice _ _ _ _ ?_)).mpr (h₂.mpr h₁)
  rfl

theorem State.agentRuns_startSlice_of (s : State) (p : PartId) {i j : SliceId} (hij : i ≠ j) (k : CoreIx) (h : s.agentRuns ⟨i, k⟩) :
    (s.startSlice p j).agentRuns ⟨i, k⟩ := by
  unfold State.startSlice
  extract_lets s₁ s₂
  have h₁ : s₁.agentRuns ⟨i, k⟩ = s.agentRuns ⟨i, k⟩ := foldl_same (fun s => State.agentRuns s ⟨i, k⟩)
    (fun s _ => s.agentRuns_startAgent_other (fun e => hij (congrArg CoreRef.slice e)) ..) _ s
  have h₂ : s₂.agentRuns ⟨i, k⟩ = s₁.agentRuns ⟨i, k⟩ := foldl_same (fun s => State.agentRuns s ⟨i, k⟩) (fun s _ => s.agentRuns_phEvent ..) _ s₁
  clear_value s₂ s₁
  refine (State.agentRuns_congr (State.core_modSlice _ _ _ _ ?_)).mpr (h₂.mpr (h₁.mpr h))
  rfl

theorem State.agentRuns_startAgents (s : State) (p : PartId) (is : List SliceId) : ∀ i ∈ is, ∀ k, (s.startAgents p is).agentRuns ⟨i, k⟩ := by
  rw [State.startAgents_eq]
  exact foldl_establishes (P := fun i s => ∀ k, State.agentRuns s ⟨i, k⟩) (fun s i k => s.agentRuns_startSlice p i k)
    (fun s i j hij h k => s.agentRuns_startSlice_of p hij k (h k)) is s

end Sys2Proof.Machine
end
section
/-! PROOF. Clearing slices and forming a partition (R14, R446). -/

namespace Sys2Proof.Machine

/-! ### Clearing (R446, step 1) -/

/-- What memory reads once every byte of some addresses has been taken out. -/
theorem memGet_filter_keys (m : Memory) (f : Nat → Bool) (a : Nat) : memGet (m.filter fun e => !f e.1) a = if f a = true then 0 else memGet m a := by
  induction m with
  | nil => simp [memGet, memDefault]
  | cons e m ih =>
    obtain ⟨k, v⟩ := e
    by_cases hk : f k = true
    · rw [List.filter_cons_of_neg (by simpa using hk), ih, memGet]
      by_cases ha : a = k
      · rw [if_pos (ha ▸ hk), if_pos (ha ▸ hk)]
      · rw [if_neg ha]
    · rw [List.filter_cons_of_pos (by simpa using hk), memGet, memGet, ih]
      by_cases ha : a = k
      · rw [if_pos ha, if_pos ha, if_neg (ha ▸ hk)]
      · rw [if_neg ha, if_neg ha]

/-- The PRC's state is as before but for bytes of chip scratchpads. -/
structure State.chipsOnly (s t : State) : Prop where
  regs : t.prc.regs = s.prc.regs
  mgmt : t.prc.mgmt = s.prc.mgmt
  part : ∀ p, ∃ c, t.part p = { s.part p with chip := c }

theorem State.chipsOnly.refl (s : State) : s.chipsOnly s := ⟨rfl, rfl, fun _ => ⟨_, rfl⟩⟩

theorem State.chipsOnly.trans {s t u : State} (h : s.chipsOnly t) (k : t.chipsOnly u) : s.chipsOnly u := by
  refine ⟨k.regs.trans h.regs, k.mgmt.trans h.mgmt, fun p => ?_⟩
  obtain ⟨c, hc⟩ := h.part p
  obtain ⟨d, hd⟩ := k.part p
  exact ⟨d, by rw [hd, hc]⟩

theorem State.chipsOnly.foldl {α : Type} {f : State → α → State} (h : ∀ (s : State) x, s.chipsOnly (f s x)) (l : List α) (s : State) :
    s.chipsOnly (l.foldl f s) := by
  induction l generalizing s with
  | nil => exact .refl s
  | cons x xs ih => exact (h s x).trans (ih (f s x))

theorem State.chipsOnly_modPart (s : State) (p : PartId) (f : Part → Memory) : s.chipsOnly (s.modPart p fun q => { q with chip := f q }) := by
  refine ⟨rfl, rfl, fun q => ?_⟩
  rw [State.part_modPart]
  split_ifs with h
  · exact ⟨_, by rw [h]⟩
  · exact ⟨_, rfl⟩

theorem slice_foldl_cleared (is : List SliceId) (s : State) (j : SliceId) :
    (is.foldl (fun s i => s.modSlice i Slice.cleared) s).slice j = if j ∈ is then (s.slice j).cleared else s.slice j := by
  induction is generalizing s with
  | nil => rfl
  | cons i is ih =>
    rw [List.foldl_cons, ih, State.slice_modSlice]
    by_cases h : j = i
    · subst h
      rw [if_pos rfl, if_pos List.mem_cons_self]
      split_ifs <;> rfl
    · rw [if_neg h]
      simp only [List.mem_cons, h, false_or]

/-- What clearing leaves of slices, memory and the rest of the module. -/
structure State.clears (is : List SliceId) (s t : State) : Prop where
  slice : ∀ j, t.slice j = if j ∈ is then (s.slice j).cleared else s.slice j
  mem : ∀ a, memGet t.mem a = if ∃ i ∈ is, i.val = a / 2 ^ 37 then 0 else memGet s.mem a
  chips : s.chipsOnly t
  halts : t.halts = s.halts
  saved : t.saved = s.saved
  now : t.now = s.now

theorem State.clearSlices_clears (s : State) (is : List SliceId) : s.clears is (s.clearSlices is) := by
  unfold State.clearSlices
  extract_lets inHbm homed s₁ s₂
  have chips : s.chipsOnly s₁ := .foldl (fun s p => s.chipsOnly_modPart p _) allParts s
  have parts {β : Type} (g : State → β) (hg : ∀ (s : State) prc, g { s with prc := prc } = g s) : g s₁ = g s :=
    foldl_same g (fun s _ => hg s _) allParts s
  have slices {β : Type} (g : State → β) (hg : ∀ (s : State) x, g { s with slices := x } = g s) :
      g s₂ = g (s₁.dropAsyncs fun o => is.contains (fetcherSlice o.issuer)) :=
    foldl_same g (fun s _ => hg s _) is _
  have mem : s₂.mem = s.mem := (slices State.mem fun _ _ => rfl).trans (parts State.mem fun _ _ => rfl)
  refine ⟨fun j => ?_, fun a => ?_, ?_, ?_, ?_, ?_⟩
  · have same : s₁.slice j = s.slice j := parts (State.slice · j) fun _ _ => rfl
    exact (slice_foldl_cleared is _ j).trans (by rw [← same]; rfl)
  · have key := memGet_filter_keys s₂.mem inHbm a
    rw [mem] at key
    refine (congrArg (memGet · a) (congrArg (List.filter _) mem)).trans (key.trans (if_congr ?_ rfl rfl))
    simp [inHbm]
  · have prc : s₂.prc = s₁.prc := slices State.prc fun _ _ => rfl
    exact ⟨(congrArg Prc.regs prc).trans chips.regs, (congrArg Prc.mgmt prc).trans chips.mgmt,
      fun p => (chips.part p).imp fun c hc => (slices (State.part · p) fun _ _ => rfl).trans hc⟩
  · exact (slices State.halts fun _ _ => rfl).trans (parts State.halts fun _ _ => rfl)
  · exact (slices State.saved fun _ _ => rfl).trans (parts State.saved fun _ _ => rfl)
  · exact (slices State.now fun _ _ => rfl).trans (parts State.now fun _ _ => rfl)

/-- A cleared slice runs no group. -/
theorem State.clears.free {is : List SliceId} {s t : State} (h : s.clears is t) {i : SliceId} (hi : i ∈ is) (g : GroupRef) (hg : g.slice = i) :
    (t.group g).st = .free := by
  subst hg
  have none : (t.slice g.slice).cores = [] := by rw [h.slice, if_pos hi]; rfl
  rw [State.group, State.core, show g.at.slice = g.slice from rfl, none]
  rfl

theorem State.clears.ports {is : List SliceId} {s t : State} (h : s.clears is t) (i : SliceId) : (t.slice i).ports = (s.slice i).ports := by
  rw [h.slice]
  split_ifs <;> rfl

end Sys2Proof.Machine
end
section
/-! PROOF. A formed partition (R14, R390, R446). -/

namespace Sys2Proof.Machine

/-! ### The partition map (R390) -/

theorem State.prcReg_changePmap (s : State) (p : PartId) (f : Word → Word) {n : Nat} (h : n ≠ 0x840 + p.val) (h' : n ≠ 0x848 + p.val) :
    (s.changePmap p f).prcReg n = s.prcReg n := by
  rw [State.changePmap, State.prcReg_setPrcReg, if_neg h', State.prcReg_setPrcReg, if_neg h]

/-- An entry that changes has a generation more. -/
def raiseGen (w : Word) : Word := setBits w 63 48 (bitsOf w 63 48 + 1)

theorem State.pmap_changePmap (s : State) (p q : PartId) (f : Word → Word) :
    (s.changePmap p f).pmap q = if q = p then raiseGen (f (s.pmap p)) else s.pmap q := by
  have hp := p.isLt
  have hq := q.isLt
  split_ifs with h
  · subst h
    rw [State.pmap, State.changePmap, State.prcReg_setPrcReg, if_neg (by omega), State.prcReg_setPrcReg, if_pos rfl, raiseGen]
  · exact s.prcReg_changePmap p f (fun e => h (Fin.ext (by omega))) (by omega)

theorem bitsOf_raiseGen (w : Word) {hi lo : Nat} (h : hi < 48) : bitsOf (raiseGen w) hi lo = bitsOf w hi lo :=
  bitsOf_setBits_other w _ (by omega) (.inl h)

theorem getLsbD_raiseGen (w : Word) {j : Nat} (h : j < 48) : (raiseGen w).getLsbD j = w.getLsbD j := getLsbD_setBits_other w _ (by omega) (.inl h)

theorem bitsOf_raiseGen_gen (w : Word) : bitsOf (raiseGen w) 63 48 = (bitsOf w 63 48 + 1) % 65536 := bitsOf_setBits_same w _ (by omega)

/-! ### Sets of slices (R13) -/

/-- A list of slices in increasing order. -/
def inOrder (is : List SliceId) : Prop := ∃ m < 256, is = maskSlices m

theorem slicesMask_filter (f : SliceId → Bool) (is : List SliceId) : slicesMask (is.filter f) = (is.map fun i => if f i then 2 ^ i.val else 0).sum := by
  induction is with
  | nil => rfl
  | cons i is ih =>
    rw [List.map_cons, List.sum_cons, ← ih, List.filter_cons]
    split_ifs
    · rw [slicesMask, List.map_cons, List.sum_cons, slicesMask]
    · rw [Nat.zero_add]

theorem slicesMask_maskSlices (m : Nat) (hm : m < 256) : slicesMask (maskSlices m) = m := by
  have bit (k : Nat) : (if m.testBit k = true then 2 ^ k else 0) = m / 2 ^ k % 2 * 2 ^ k := by
    rw [Nat.testBit_eq_decide_div_mod_eq]
    rcases Nat.mod_two_eq_zero_or_one (m / 2 ^ k) with h | h <;> simp [h]
  rw [maskSlices, slicesMask_filter]
  simp only [bit, allSlices, List.map_cons, List.map_nil, List.sum_cons, List.sum_nil]
  norm_num
  omega

theorem maskSlices_slicesMask {is : List SliceId} (h : inOrder is) : maskSlices (slicesMask is) = is := by
  obtain ⟨m, hm, rfl⟩ := h
  rw [slicesMask_maskSlices m hm]

theorem slicesMask_lt {is : List SliceId} (h : inOrder is) : slicesMask is < 256 := by
  obtain ⟨m, hm, rfl⟩ := h
  rwa [slicesMask_maskSlices m hm]

theorem maskSlices_bitsOf {w : Nat} (x : BitVec w) : maskSlices (bitsOf x 7 0) = allSlices.filter fun i => x.getLsbD i.val := by
  refine List.filter_congr fun i _ => ?_
  rw [testBit_bitsOf, decide_eq_true (by omega), Bool.true_and, Nat.zero_add]

theorem inOrder_bitsOf {w : Nat} (x : BitVec w) : inOrder (maskSlices (bitsOf x 7 0)) := ⟨_, bitsOf_lt x 7 0, rfl⟩

theorem State.memberSlices_eq (s : State) {p : PartId} (h : s.partValid p = true) : s.memberSlices p = maskSlices (bitsOf (s.pmap p) 7 0) := by
  rw [maskSlices_bitsOf]
  refine List.filter_congr fun i _ => ?_
  rw [State.member, h, Bool.true_and, bitAt]

theorem State.inOrder_memberSlices (s : State) {p : PartId} (h : s.partValid p = true) : inOrder (s.memberSlices p) :=
  s.memberSlices_eq h ▸ inOrder_bitsOf _

/-- A slice has at most 64 live segments, and the module 8 slices. -/
theorem liveCounts_lt {is : List SliceId} (h : inOrder is) : (is.map liveCount).sum < 1024 := by
  obtain ⟨m, -, rfl⟩ := h
  have each : ∀ x ∈ (maskSlices m).map liveCount, x ≤ 64 := by
    simp only [List.mem_map]
    rintro _ ⟨i, -, rfl⟩
    exact (liveCount_bounds i).2
  have sum := List.sum_le_card_nsmul _ 64 each
  have len : (maskSlices m).length ≤ 8 := List.length_filter_le _ allSlices
  rw [List.length_map, smul_eq_mul] at sum
  omega

/-! ### The entry of a formed partition -/

/-- The lease that FUSE asks for. -/
def leaseArg (w : List W32) : Nat := if bitsOf (wordAt w 3) 12 0 = 0 then 256 else bitsOf (wordAt w 3) 12 0

/-- The entry that forming writes, with the generation of the one before. -/
def formedEntry (is : List SliceId) (w : List W32) (x : Word) : Word :=
  BitVec.ofNat 64 (slicesMask is + 2 ^ 8 + bitsOf (wordAt w 2) 8 8 * 2 ^ 9 + leaseArg w * 2 ^ 12 + (is.map liveCount).sum * 2 ^ 25 + bitsOf x 63 48 * 2 ^ 48)

/-- The fields of an entry (R390). -/
structure entryFields (is : List SliceId) (w : List W32) (gen : Nat) (e : Word) : Prop where
  mask : bitsOf e 7 0 = slicesMask is
  valid : bitsOf e 8 8 = 1
  test : bitsOf e 9 9 = bitsOf (wordAt w 2) 8 8
  lease : bitsOf e 24 12 = leaseArg w
  nseg : bitsOf e 34 25 = (is.map liveCount).sum
  gen : bitsOf e 63 48 = gen

theorem formedEntry_fields {is : List SliceId} (his : inOrder is) (w : List W32) (x : Word) :
    entryFields is w ((bitsOf x 63 48 + 1) % 65536) (raiseGen (formedEntry is w x)) := by
  have mask := slicesMask_lt his
  have test : bitsOf (wordAt w 2) 8 8 < 2 := bitsOf_lt _ 8 8
  have lease : leaseArg w < 8192 := by
    have : bitsOf (wordAt w 3) 12 0 < 8192 := bitsOf_lt _ 12 0
    unfold leaseArg
    split_ifs <;> omega
  have segs := liveCounts_lt his
  have gen : bitsOf x 63 48 < 65536 := bitsOf_lt x 63 48
  constructor
  case gen => rw [bitsOf_raiseGen_gen, formedEntry, bitsOf_ofNat (by omega)]; omega
  all_goals rw [bitsOf_raiseGen _ (by omega), formedEntry, bitsOf_ofNat (by omega)]; omega

/-! ### Forming (R446, steps 1 to 6) -/

/-- The slices as forming leaves them, before the entry is written. -/
def State.prepared (s : State) (p : PartId) (is : List SliceId) : State :=
  let s := s.clearSlices is
  let s := is.foldl (fun s i => (s.setInterleave i).setArt i [] 0) s
  is.foldl (fun s i => s.formRoutes (is.headD 0) i) (s.formDykes p is)

theorem State.formPartition_eq (s : State) (p : PartId) (is : List SliceId) (w : List W32) :
    s.formPartition p is w = ((((s.prepared p is).changePmap p (formedEntry is w)).setPrcReg (0x818 + p.val)
      (BitVec.ofNat 64 ((bitsOf (((s.prepared p is).changePmap p (formedEntry is w)).prcReg (0x818 + p.val)) 15 0 + 1) % 65536))).startAgents p is) := rfl

theorem State.prepared_keeps (s : State) (p : PartId) (is : List SliceId) : (s.clearSlices is).keeps (fun k => (k.cores, k.ports)) (s.prepared p is) := by
  have arts : (s.clearSlices is).keeps (fun k => (k.cores, k.ports)) (is.foldl (fun s i => (s.setInterleave i).setArt i [] 0) (s.clearSlices is)) :=
    .foldl (fun s i => (s.keeps_setInterleave (fun _ _ => rfl) i).trans (State.keeps_setArt (fun _ _ => rfl) (fun _ _ => rfl) _ i [] 0)) is _
  exact (arts.trans (State.keeps_formDykes (fun _ _ => rfl) _ p is)).trans (.foldl (fun s i => s.keeps_formRoutes (fun _ _ => rfl) (is.headD 0) i) is _)

theorem State.prepared_dykes (s : State) (p : PartId) (is : List SliceId) : ∀ i ∈ is, (s.prepared p is).dykesFormed p is i := by
  intro i hi q hq hd
  have routes : ∀ t : State, (is.foldl (fun s i => s.formRoutes (is.headD 0) i) t).dyke i q = t.dyke i q := by
    refine foldl_same (fun s => State.dyke s i q) (fun s j => ?_) is
    refine congrArg (bitsOf · 23 0) ((s.formRoutes_regs (is.headD 0) j).reg i _ ?_)
    rintro ⟨-, -, h⟩
    omega
  exact (routes _).trans (State.dykesFormed_formDykes _ p is i hi q hq hd)

theorem State.prepared_routes (s : State) (p : PartId) (is : List SliceId) : ∀ i ∈ is, ∀ n ∈ List.range 16,
    (s.prepared p is).route' i n = if n = 0 then 0x801 + (is.headD 0).val * 2 ^ 16 else 0 := State.route_formRoutes_all _ (is.headD 0) is

/-- A formed partition: what its slices and its entry hold. -/
structure State.formed (p : PartId) (is : List SliceId) (w : List W32) (s t : State) : Prop where
  mem : ∀ a, memGet t.mem a = if ∃ i ∈ is, i.val = a / 2 ^ 37 then 0 else memGet s.mem a
  runs : ∀ i ∈ is, ∀ k, t.agentRuns ⟨i, k⟩
  free : ∀ i ∈ is, ∀ g : GroupRef, g.slice = i → (t.group g).st = .free
  entry : entryFields is w ((bitsOf (s.pmap p) 63 48 + 1) % 65536) (t.pmap p)
  epoch : bitsOf (t.prcReg (0x818 + p.val)) 15 0 = (bitsOf (s.prcReg (0x818 + p.val)) 15 0 + 1) % 65536
  routes : ∀ i ∈ is, ∀ n ∈ List.range 16, t.route' i n = if n = 0 then 0x801 + (is.headD 0).val * 2 ^ 16 else 0
  dykes : ∀ i ∈ is, t.dykesFormed p is i
  halts : t.halts = s.halts
  saved : t.saved = s.saved

/-- Forming, and what it leaves of ports and of the PRC. -/
structure State.forms (p : PartId) (is : List SliceId) (w : List W32) (s t : State) : Prop extends s.formed p is w t where
  ports : ∀ i, (t.slice i).ports = (s.slice i).ports
  mgmt : t.prc.mgmt = s.prc.mgmt
  part : ∀ q, ∃ c, t.part q = { s.part q with chip := c }
  now : t.now = s.now

theorem State.formPartition_forms (s : State) (p : PartId) {is : List SliceId} (his : inOrder is) (w : List W32) :
    s.forms p is w (s.formPartition p is w) := by
  have clears := s.clearSlices_clears is
  have prep := s.prepared_keeps p is
  have hp := p.isLt
  rw [State.formPartition_eq]
  generalize hu : ((s.prepared p is).changePmap p (formedEntry is w)) = u
  generalize hv : u.setPrcReg (0x818 + p.val) (BitVec.ofNat 64 ((bitsOf (u.prcReg (0x818 + p.val)) 15 0 + 1) % 65536)) = v
  have regs : v.keeps Slice.regs (v.startAgents p is) := v.keeps_startAgents (fun _ _ => rfl) (fun _ _ _ => rfl) p is
  have ports : v.keeps Slice.ports (v.startAgents p is) := v.keeps_startAgents (fun _ _ => rfl) (fun _ _ _ => rfl) p is
  have slices : v.slices = (s.prepared p is).slices := by rw [← hv, ← hu]; rfl
  have slice (i : SliceId) : v.slice i = (s.prepared p is).slice i := congrArg (fun t => tabGet ({} : Slice) t i.val) slices
  have reg (i : SliceId) (n : Nat) : (v.startAgents p is).sliceReg i n = (s.prepared p is).sliceReg i n :=
    (regs.sliceReg i n).trans (congrArg (fun k : Slice => tabGet (sliceRegReset n) k.regs n) (slice i))
  have old (n : Nat) : (s.prepared p is).prcReg n = s.prcReg n :=
    (prep.prcReg n).trans (congrArg (tabGet (prcRegReset n) · n) clears.chips.regs)
  constructor
  case toformed =>
    constructor
    case mem =>
      intro a
      rw [regs.mem, ← clears.mem a, ← prep.mem, ← hv, ← hu]
      rfl
    case runs => exact v.agentRuns_startAgents p is
    case free =>
      intro i hi g hg
      rw [v.group_startAgents, ← clears.free hi g hg]
      have cores : (v.slice g.slice).cores = ((s.clearSlices is).slice g.slice).cores := by
        rw [slice]
        exact congrArg Prod.fst (prep.slice g.slice)
      exact congrArg (fun t => (tabGet {} (tabGet ({} : Core) t g.core.val).groups g.slot.val).st) cores
    case entry =>
      have e : (v.startAgents p is).pmap p = raiseGen (formedEntry is w (s.pmap p)) := by
        rw [regs.pmap, ← hv, State.pmap, State.prcReg_setPrcReg, if_neg (by omega), ← State.pmap, ← hu, State.pmap_changePmap, if_pos rfl, State.pmap, old]
        rfl
      rw [e]
      exact formedEntry_fields his w _
    case epoch =>
      rw [regs.prcReg, ← hv, State.prcReg_setPrcReg, if_pos rfl, ← hu, State.prcReg_changePmap _ _ _ (by omega) (by omega), old, bitsOf_ofNat (by omega)]
      omega
    case routes => exact fun i hi n hn => (congrArg (bitsOf · 26 0) (reg i _)).trans (s.prepared_routes p is i hi n hn)
    case dykes => exact fun i hi q hq hd => (congrArg (bitsOf · 23 0) (reg i _)).trans (s.prepared_dykes p is i hi q hq hd)
    case halts => rw [regs.halts, ← clears.halts, ← prep.halts, ← hv, ← hu]; rfl
    case saved => rw [regs.saved, ← clears.saved, ← prep.saved, ← hv, ← hu]; rfl
  case ports =>
    intro i
    rw [show ((v.startAgents p is).slice i).ports = (v.slice i).ports from ports.slice i, slice, ← clears.ports]
    exact congrArg Prod.snd (prep.slice i)
  case mgmt =>
    rw [regs.prc, ← clears.chips.mgmt, ← prep.prc, ← hv, ← hu]
    rfl
  case part =>
    intro q
    obtain ⟨c, hc⟩ := clears.chips.part q
    refine ⟨c, ?_⟩
    rw [regs.part, ← hc, ← prep.part, ← hv, ← hu]
    rfl
  case now => rw [regs.now, ← clears.now, ← prep.now, ← hv, ← hu]; rfl

/-- The members of a formed partition are the slices that it was formed of. -/
theorem State.formed.members {p : PartId} {is : List SliceId} {w : List W32} {s t : State} (h : s.formed p is w t) (his : inOrder is) :
    t.memberSlices p = is := by
  have valid : t.partValid p = true := by
    have := h.entry.valid
    rw [bitsOf_bit] at this
    simpa [State.partValid, bitAt] using this
  rw [t.memberSlices_eq valid, h.entry.mask, maskSlices_slicesMask his]

end Sys2Proof.Machine
end
section
/-! PROOF. The boot fetch (R447, R448) and the end of a boot (R449). -/

namespace Sys2Proof.Machine

/-! ### What the PRC's work leaves alone -/

/-- Memory, the registers of slices and of the PRC, cores, stop records and saved work are as before. -/
structure State.machineSame (s t : State) : Prop where
  mem : t.mem = s.mem
  prcRegs : t.prc.regs = s.prc.regs
  regs : ∀ i n, t.sliceReg i n = s.sliceReg i n
  core : ∀ c, t.core c = s.core c
  halts : t.halts = s.halts
  saved : t.saved = s.saved

theorem State.machineSame.trans {s t u : State} (h : s.machineSame t) (k : t.machineSame u) : s.machineSame u :=
  ⟨k.mem.trans h.mem, k.prcRegs.trans h.prcRegs, fun i n => (k.regs i n).trans (h.regs i n), fun c => (k.core c).trans (h.core c), k.halts.trans h.halts,
    k.saved.trans h.saved⟩

theorem State.machineSame_modPart (s : State) (p : PartId) (f : Part → Part) : s.machineSame (s.modPart p f) :=
  ⟨rfl, rfl, fun _ _ => rfl, fun _ => rfl, rfl, rfl⟩

theorem State.machineSame_answer (s : State) (w : List W32) (r : Reply) : s.machineSame (s.answer .management w r) :=
  ⟨rfl, rfl, fun _ _ => rfl, fun _ => rfl, rfl, rfl⟩

theorem State.machineSame.pmap {s t : State} (h : s.machineSame t) (p : PartId) : t.pmap p = s.pmap p :=
  congrArg (fun x => tabGet (prcRegReset (0x840 + p.val)) x (0x840 + p.val)) h.prcRegs

/-- What has been formed is not changed by asking for an image. -/
theorem State.formed.of_same {p : PartId} {is : List SliceId} {w : List W32} {s t u : State} (h : s.formed p is w t) (k : t.machineSame u) :
    s.formed p is w u where
  mem a := by rw [k.mem, h.mem]
  runs i hi c := (State.agentRuns_congr (k.core _)).mpr (h.runs i hi c)
  free i hi g hg := by rw [State.group, k.core]; exact h.free i hi g hg
  entry := (k.pmap p).symm ▸ h.entry
  epoch := by rw [State.prcReg, k.prcRegs]; exact h.epoch
  routes i hi n hn := by rw [State.route', k.regs]; exact h.routes i hi n hn
  dykes i hi q hq hd := by rw [State.dyke, k.regs]; exact h.dykes i hi q hq hd
  halts := k.halts.trans h.halts
  saved := k.saved.trans h.saved

/-! ### Asking for a window -/

theorem State.lowestSlice_eq {s : State} {p : PartId} (h : s.memberSlices p ≠ []) : s.lowestSlice p = some ((s.memberSlices p).headD 0) := by
  rw [State.lowestSlice]
  cases hm : s.memberSlices p with
  | nil => exact absurd hm h
  | cons i is => rfl

/-- A request goes out through the first port that is UP, from the fetch's own on. -/
theorem State.bootAsk_of_up {s : State} {p : PartId} {k : SliceId} {f : BootFetch} {q : Nat} (hk : s.lowestSlice p = some k) (hf : f.port ≤ q) (hq : q < 8)
    (up : (s.port k q).st = 2) (first : ∀ r, f.port ≤ r → r < q → (s.port k r).st ≠ 2) :
    s.bootAsk p f = s.sendBootRequest p k (if q = f.port then f else f.onPort q) := by
  have find : ((List.range 8).find? fun q => decide (f.port ≤ q) && (s.port k q).st == 2) = some q := by
    rw [List.find?_range_eq_some]
    refine ⟨by simp [hf, up], List.mem_range.2 hq, fun r hr => ?_⟩
    by_cases hfr : f.port ≤ r
    · rw [decide_eq_true hfr, Bool.true_and, beq_eq_false_iff_ne.2 (first r hfr hr), Bool.not_false]
    · simp [hfr]
  simp only [State.bootAsk, hk, find]

theorem State.bootAsk_of_none {s : State} {p : PartId} {k : SliceId} {f : BootFetch} (hk : s.lowestSlice p = some k)
    (none : ∀ r, f.port ≤ r → r < 8 → (s.port k r).st ≠ 2) : s.bootAsk p f = s.bootFailed p f := by
  have find : ((List.range 8).find? fun q => decide (f.port ≤ q) && (s.port k q).st == 2) = Option.none := by
    rw [List.find?_range_eq_none]
    intro r hr
    by_cases hfr : f.port ≤ r
    · rw [decide_eq_true hfr, Bool.true_and, beq_eq_false_iff_ne.2 (none r hfr hr), Bool.not_false]
    · simp [hfr]
  simp only [State.bootAsk, hk, find]

/-- What a sent request leaves: the fetch, from now on. -/
structure State.asks (p : PartId) (f : BootFetch) (s t : State) : Prop where
  same : s.machineSame t
  part : t.part p = { s.part p with boot := some { f with since := s.now } }
  mgmt : t.prc.mgmt = s.prc.mgmt

theorem State.sendBootRequest_asks (s : State) (p : PartId) (k : SliceId) (f : BootFetch) : s.asks p f (s.sendBootRequest p k f) := by
  unfold State.sendBootRequest
  extract_lets h t
  have drawn {β : Type} {π : Slice → β} : s.keeps π s.draw.draw := ⟨rfl, fun _ => rfl⟩
  have queued {β : Type} {π : Slice → β} (hπ : ∀ (k : Slice) x, π { k with ports := x } = π k) : s.keeps π t :=
    drawn.trans (State.keeps_modSlice _ k fun k => hπ k _)
  have regs : s.keeps Slice.regs t := queued fun _ _ => rfl
  have cores : s.keeps Slice.cores t := queued fun _ _ => rfl
  have same : s.machineSame t := ⟨regs.mem, congrArg Prc.regs regs.prc, regs.sliceReg, cores.core, regs.halts, regs.saved⟩
  refine ⟨same.trans (State.machineSame_modPart ..), ?_, show t.prc.mgmt = s.prc.mgmt from congrArg Prc.mgmt regs.prc⟩
  rw [State.part_modPart, if_pos rfl, regs.part, regs.now]

/-- What an answered frame leaves: no fetch. -/
structure State.answersBoot (p : PartId) (frame : List W32) (r : Reply) (s t : State) : Prop where
  same : s.machineSame t
  part : t.part p = { s.part p with boot := none }
  mgmt : t.prc.mgmt = replyFrame frame r :: s.prc.mgmt

theorem State.endBoot_answers (s : State) (p : PartId) {f : BootFetch} (r : Reply) (h : f.thenFree = false) :
    s.answersBoot p f.frame { r with values := [(2, BitVec.ofNat 32 p.val)] } (s.endBoot p f r) := by
  unfold State.endBoot
  rw [if_neg (by simp [h])]
  refine ⟨(s.machineSame_modPart ..).trans (State.machineSame_answer ..), ?_, rfl⟩
  show (s.modPart p fun x => { x with boot := none }).part p = _
  rw [State.part_modPart, if_pos rfl]

/-! ### A partition that is freed (R449) -/

/-- A slice held in reset whose ports pass nothing. -/
def State.shut (s : State) (i : SliceId) : Prop :=
  (s.slice i).held = true ∧ (s.slice i).hostHeld = true ∧ ∀ q < 14, hasDyke i q = true → s.dyke i q = 0

/-- What freeing does to one slice. -/
def State.shutSlice (s : State) (i : SliceId) : State :=
  let s := (List.range 14).foldl (fun s q => s.setDyke i q 0) s
  let s := (s.closeRoutes i).stopInjector i
  s.modSlice i fun k => { k with cores := [], held := true, hostHeld := true }

theorem State.freePartition_eq (s : State) (p : PartId) :
    s.freePartition p = ((s.memberSlices p).foldl State.shutSlice s).changePmap p fun w => putBit w 8 false := rfl

theorem State.slice_setSliceReg_other (s : State) {i j : SliceId} (h : j ≠ i) (n : Nat) (v : Word) : (s.setSliceReg i n v).slice j = s.slice j := by
  rw [State.setSliceReg, State.slice_modSlice, if_neg h]

theorem State.slice_shutSlice_other (s : State) {i j : SliceId} (h : j ≠ i) : (s.shutSlice i).slice j = s.slice j := by
  unfold State.shutSlice
  extract_lets s₁ s₂
  have h₁ : s₁.slice j = s.slice j := foldl_same (fun s => State.slice s j) (fun s q => by
    rw [State.setDyke]
    split_ifs
    · rfl
    · exact s.slice_setSliceReg_other h _ _) _ s
  have h₂ : s₂.slice j = s₁.slice j := by
    refine (State.slice_setSliceReg_other _ h _ _).trans ?_
    exact foldl_same (fun s => State.slice s j) (fun s n => s.slice_setSliceReg_other h _ _) _ s₁
  rw [State.slice_modSlice, if_neg h, h₂, h₁]

theorem State.shut_congr {s t : State} {i : SliceId} (h : t.slice i = s.slice i) : t.shut i = s.shut i := by
  simp only [State.shut, State.dyke, State.sliceReg, h]

theorem State.shut_shutSlice (s : State) (i : SliceId) : (s.shutSlice i).shut i := by
  unfold State.shutSlice
  extract_lets s₁ s₂
  have ports : ∀ q < 14, hasDyke i q = true → s₁.dyke i q = 0 := fun q hq hd =>
    foldl_establishes (P := fun q s => q < 14 → hasDyke i q = true → State.dyke s i q = 0) (fun s _ _ hd => s.dyke_setDyke hd (by norm_num))
      (fun s _ r hqr h hq hd => ((s.setDyke_regs i r 0).dyke hq (.inr hqr)).trans (h hq hd)) (List.range 14) s q (List.mem_range.2 hq) hq hd
  have kept : ∀ q < 14, s₂.dyke i q = s₁.dyke i q := fun q hq => by
    refine congrArg (bitsOf · 23 0) (((State.sliceReg_setSliceReg ..).trans (if_neg (by omega))).trans ?_)
    refine (s₁.closeRoutes_regs i).reg i _ ?_
    rintro ⟨-, -, h⟩
    omega
  clear_value s₂ s₁
  refine ⟨by simp, by simp, fun q hq hd => ?_⟩
  have same : (s₂.modSlice i fun k => { k with cores := [], held := true, hostHeld := true }).sliceReg i (0x780 + q) = s₂.sliceReg i (0x780 + q) := by
    simp [State.sliceReg]
  rw [State.dyke, same]
  exact (kept q hq).trans (ports q hq hd)

theorem State.keeps_shutSlice (s : State) (i : SliceId) : s.keeps (fun _ => ()) (s.shutSlice i) := by
  unfold State.shutSlice
  extract_lets s₁ s₂
  have h₁ : s.keeps (fun _ => ()) s₁ := .foldl (fun s _ => s.keeps_setDyke (fun _ _ => rfl) ..) _ s
  have h₂ : s₁.keeps (fun _ => ()) s₂ := (s₁.keeps_closeRoutes (fun _ _ => rfl) i).trans (State.keeps_stopInjector (fun _ _ => rfl) _ i)
  exact (h₁.trans h₂).trans (State.keeps_modSlice _ i fun _ => rfl)

/-- What freeing leaves: the slices shut, the entry not valid, and memory and the PRC's messages as they were. -/
structure State.frees (p : PartId) (s t : State) : Prop where
  shut : ∀ i ∈ s.memberSlices p, t.shut i
  valid : (t.pmap p).getLsbD 8 = false
  mem : t.mem = s.mem
  mgmt : t.prc.mgmt = s.prc.mgmt

theorem State.freePartition_frees (s : State) (p : PartId) : s.frees p (s.freePartition p) := by
  have keeps : s.keeps (fun _ => ()) ((s.memberSlices p).foldl State.shutSlice s) := .foldl State.keeps_shutSlice _ s
  rw [State.freePartition_eq]
  refine ⟨fun i hi => ?_, ?_, keeps.mem, ?_⟩
  · exact foldl_establishes (P := fun i s => State.shut s i) State.shut_shutSlice
      (fun s i j hij h => (State.shut_congr (s.slice_shutSlice_other hij)).mpr h) _ s i hi
  · rw [State.pmap_changePmap, if_pos rfl, getLsbD_raiseGen _ (by omega), getLsbD_putBit _ _ _ (by omega), if_pos rfl]
  · show ((s.memberSlices p).foldl State.shutSlice s).prc.mgmt = s.prc.mgmt
    rw [keeps.prc]

end Sys2Proof.Machine
end
section
/-! PROOF. FUSE, RESETP and UNFUSE (R446, R449). -/

namespace Sys2Proof.Machine

/-! ### Forming and asking for the image -/

/-- What FUSE leaves once the image has been asked for through a port. -/
structure State.fuses (p : PartId) (is : List SliceId) (args frame : List W32) (q : Nat) (free : Bool) (s t : State) : Prop where
  formed : s.formed p is args t
  part : ∃ c, t.part p = { s.part p with chip := c, owner := bitsOf (wordAt args 2) 11 9, fuseArgs := args,
                                         boot := some { frame := frame, port := q, since := s.now, thenFree := free } }
  mgmt : t.prc.mgmt = s.prc.mgmt

/-- What FUSE leaves before a boot that no port can serve is answered. -/
structure State.unserved (p : PartId) (is : List SliceId) (args : List W32) (s t : State) : Prop where
  formed : s.formed p is args t
  part : ∃ c, t.part p = { s.part p with chip := c, owner := bitsOf (wordAt args 2) 11 9, fuseArgs := args }
  mgmt : t.prc.mgmt = s.prc.mgmt
  members : t.memberSlices p = is

section
variable (s : State) (p : PartId) {is : List SliceId} (his : inOrder is) (hne : is ≠ []) (args frame : List W32) (free : Bool)
include his hne

/-- The partition as it stands when the image is asked for. -/
theorem State.fusePartition_before : ∃ u, s.unserved p is args u ∧ u.now = s.now ∧ u.lowestSlice p = some (is.headD 0)
    ∧ (∀ i q, u.port i q = s.port i q) ∧ s.fusePartition p is args frame free = u.bootAsk p { frame := frame, thenFree := free } := by
  have forms := s.formPartition_forms p his args
  have members : ((s.formPartition p is args).modPart p fun x => { x with owner := bitsOf (wordAt args 2) 11 9, fuseArgs := args }).memberSlices p = is :=
    forms.members his
  refine ⟨_, ⟨forms.toformed.of_same (State.machineSame_modPart ..), ?_, forms.mgmt, members⟩, forms.now, ?_, fun i q => ?_, rfl⟩
  · obtain ⟨c, hc⟩ := forms.part p
    exact ⟨c, by rw [State.part_modPart, if_pos rfl, hc]⟩
  · rw [State.lowestSlice_eq (by rwa [members]), members]
  · exact congrArg (fun t => tabGet ({} : Port) t q) (forms.ports i)

theorem State.fusePartition_up {q : Nat} (hq : q < 8) (up : (s.port (is.headD 0) q).st = 2) (first : ∀ r < q, (s.port (is.headD 0) r).st ≠ 2) :
    s.fuses p is args frame q free (s.fusePartition p is args frame free) := by
  obtain ⟨u, before, now, lowest, ports, run⟩ := s.fusePartition_before p his hne args frame free
  have fetch : (if q = 0 then ({ frame := frame, thenFree := free } : BootFetch) else BootFetch.onPort { frame := frame, thenFree := free } q)
      = { frame := frame, port := q, thenFree := free } := by
    split_ifs with h
    · rw [h]
    · rfl
  have ask : s.fusePartition p is args frame free = u.sendBootRequest p (is.headD 0) { frame := frame, port := q, thenFree := free } := by
    rw [run, State.bootAsk_of_up lowest (Nat.zero_le q) hq (by rwa [ports]) fun r _ hr => by rw [ports]; exact first r hr]
    exact congrArg (u.sendBootRequest p (is.headD 0)) fetch
  have asks := u.sendBootRequest_asks p (is.headD 0) { frame := frame, port := q, thenFree := free }
  rw [ask]
  refine ⟨before.formed.of_same asks.same, ?_, asks.mgmt.trans before.mgmt⟩
  obtain ⟨c, hc⟩ := before.part
  exact ⟨c, by rw [asks.part, hc, now]⟩

theorem State.fusePartition_none (none : ∀ r < 8, (s.port (is.headD 0) r).st ≠ 2) : ∃ u, s.unserved p is args u
    ∧ s.fusePartition p is args frame free = u.endBoot p { frame := frame, thenFree := free } (refused 0x07) := by
  obtain ⟨u, before, -, lowest, ports, run⟩ := s.fusePartition_before p his hne args frame free
  refine ⟨u, before, ?_⟩
  rw [run, State.bootAsk_of_none lowest fun r _ hr => by rw [ports]; exact none r hr]
  rfl
end

/-! ### FUSE (R446) -/

theorem mem_allParts (r : PartId) : r ∈ allParts := by decide +revert

theorem partFind_eq {f : PartId → Bool} {p : PartId} (hp : f p = true) (first : ∀ r < p, f r = false) : allParts.find? f = some p := by
  cases found : allParts.find? f with
  | none => exact absurd hp (by simpa using List.find?_eq_none.1 found p (mem_allParts p))
  | some r =>
    obtain ⟨hr, before, after, split, old⟩ := List.find?_eq_some_iff_append.1 found
    have ordered : allParts.Pairwise (· < ·) := by decide
    have place := split ▸ mem_allParts p
    rcases List.mem_append.1 place with h | h
    · exact absurd hp (by simpa using old p h)
    · rcases List.mem_cons.1 h with h | h
      · rw [h]
      · rw [split, List.pairwise_append] at ordered
        have lt : r < p := (List.pairwise_cons.1 ordered.2.1).1 p h
        exact absurd hr (by rw [first r lt]; simp)

section
variable {s : State} {w : List W32} {is : List SliceId} (his : is = maskSlices (bitsOf (wordAt w 2) 7 0))
include his

theorem State.fuseCheck_unfit (h : ¬((∃ r, s.partValid r = false) ∧ (∀ i ∈ is, s.partOf i = none) ∧ edgeConnected is = true)) :
    s.fuseCheck w = .inl 0x05 := by
  rw [State.fuseCheck, ← his]
  cases found : allParts.find? fun p => !s.partValid p with
  | none => rfl
  | some r =>
    have free : s.partValid r = false := by simpa using List.find?_some found
    refine if_pos ?_
    rw [Bool.or_eq_true]
    by_contra hno
    rw [not_or] at hno
    refine h ⟨⟨r, free⟩, fun i hi => ?_, by simpa using hno.2⟩
    simpa using fun x => hno.1 (List.any_eq_true.2 ⟨i, hi, x⟩)

/-- The lease and the image key of a FUSE are good. -/
def State.goodFuse (s : State) (w : List W32) : Prop :=
  (bitsOf (wordAt w 3) 12 0 = 0 ∨ (16 ≤ bitsOf (wordAt w 3) 12 0 ∧ bitsOf (wordAt w 3) 12 0 ≤ 4096))
    ∧ tabGet [] s.prc.owners (bitsOf (wordAt w 2) 11 9) ≠ []

omit his in
theorem State.goodFuse_iff : s.goodFuse w ↔ ((bitsOf (wordAt w 3) 12 0 ≠ 0 && (bitsOf (wordAt w 3) 12 0 < 16 || 4096 < bitsOf (wordAt w 3) 12 0))
    || tabGet [] s.prc.owners (bitsOf (wordAt w 2) 11 9) == []) = false := by
  rw [State.goodFuse, Bool.or_eq_false_iff, beq_eq_false_iff_ne]
  refine and_congr_left' ?_
  simp only [Bool.and_eq_false_iff, Bool.or_eq_false_iff, decide_eq_false_iff_not]
  omega

/-- Free slices of a set that is connected are given to the lowest free number when the arguments are good. -/
theorem State.fuseCheck_fit {r : PartId} (found : (allParts.find? fun p => !s.partValid p) = some r) (free : ∀ i ∈ is, s.partOf i = none)
    (edge : edgeConnected is = true) : (s.goodFuse w → s.fuseCheck w = .inr r) ∧ (¬s.goodFuse w → s.fuseCheck w = .inl 0x01) := by
  have fit : (is.any (fun i => (s.partOf i).isSome) || !edgeConnected is) = false := by
    rw [edge, Bool.not_true, Bool.or_false, List.any_eq_false]
    intro i hi
    simp [free i hi]
  simp only [State.fuseCheck, ← his, found, fit, Bool.false_eq_true, if_false]
  rw [State.goodFuse_iff, Bool.not_eq_false]
  exact ⟨fun good => if_neg (by rw [good]; simp), fun bad => if_pos bad⟩
end

end Sys2Proof.Machine
end
section
/-! PROOF. FUSE, RESETP and UNFUSE as messages of the management interface (R444 to R446, R449). -/

namespace Sys2Proof.Machine

/-! ### Terms -/

/-- The management interface has been answered. -/
def State.told (s : State) (w : List W32) (r : Reply) (t : State) : Prop := t.prc.mgmt = replyFrame w r :: s.prc.mgmt

/-- A frame of an operation. -/
def asksFor (w : List W32) (n : Nat) : Prop := frOp w = n ∧ bitsOf (wordAt w 0) 15 8 = 0

/-- Agents run on some slices, and no group does. -/
def State.runsOn (is : List SliceId) (t : State) : Prop :=
  ∀ i ∈ is, (∀ k, (t.core ⟨i, k⟩).puppet.running = true ∧ (t.core ⟨i, k⟩).puppet.stopped = false) ∧ ∀ g : GroupRef, g.slice = i → (t.group g).st = .free

/-- The HBM of some slices reads 0, and other memory as before. -/
def State.zeroed (s : State) (is : List SliceId) (t : State) : Prop :=
  ∀ x, memGet t.mem x = if ∃ i ∈ is, i.val = x / 2 ^ 37 then 0 else memGet s.mem x

/-- The first port that is UP on the lowest of some slices. -/
def State.upPort (s : State) (is : List SliceId) (q : Nat) : Prop :=
  ∃ i, is.head? = some i ∧ q < 8 ∧ (s.port i q).st = 2 ∧ ∀ r < q, (s.port i r).st ≠ 2

def State.noPort (s : State) (is : List SliceId) : Prop := ∀ i, is.head? = some i → ∀ q < 8, (s.port i q).st ≠ 2

/-- The reply when no port serves the boot. -/
def unservedReply (p : PartId) : Reply := { status := 1, reason := 0x07, values := [(2, BitVec.ofNat 32 p.val)] }

theorem State.does_of_eq {s t : State} {i : Instr} {P : State → Prop} (e : exec i s = .next t) (h : P t) : s.does i P := ⟨t, e, h⟩

theorem State.upPort_iff {s : State} {is : List SliceId} (hne : is ≠ []) {q : Nat} :
    s.upPort is q ↔ q < 8 ∧ (s.port (is.headD 0) q).st = 2 ∧ ∀ r < q, (s.port (is.headD 0) r).st ≠ 2 := by
  cases is with
  | nil => exact absurd rfl hne
  | cons i is => exact ⟨fun ⟨_, e, h⟩ => (Option.some.inj e) ▸ h, fun h => ⟨i, rfl, h⟩⟩

theorem State.noPort_iff {s : State} {is : List SliceId} (hne : is ≠ []) : s.noPort is ↔ ∀ q < 8, (s.port (is.headD 0) q).st ≠ 2 := by
  cases is with
  | nil => exact absurd rfl hne
  | cons i is => exact ⟨fun h => h i rfl, fun h _ e => (Option.some.inj e) ▸ h⟩

/-- Some port is the first that is UP, or none is. -/
theorem State.upPort_or_noPort (s : State) {is : List SliceId} (hne : is ≠ []) : (∃ q, s.upPort is q) ∨ s.noPort is := by
  by_contra h
  rw [not_or, State.noPort_iff hne] at h
  obtain ⟨noUp, up⟩ := h
  refine up fun q => ?_
  induction q using Nat.strong_induction_on with
  | _ q ih => exact fun hq st => noUp ⟨q, (State.upPort_iff hne).2 ⟨hq, st, fun r hr => ih r hr (by omega)⟩⟩

theorem State.not_upPort_of_noPort {s : State} {is : List SliceId} (hne : is ≠ []) (h : s.noPort is) (q : Nat) : ¬s.upPort is q := fun up =>
  have ⟨hq, st, _⟩ := (State.upPort_iff hne).1 up
  (State.noPort_iff hne).1 h q hq st

theorem State.formed.runsOn {p : PartId} {is : List SliceId} {w : List W32} {s t : State} (h : s.formed p is w t) : State.runsOn is t :=
  fun i hi => ⟨h.runs i hi, h.free i hi⟩

/-! ### FUSE (R446) -/

section
variable (s : State) (m : Frame)

theorem exec_fuse_booting (hb : s.booting = true) : exec (.fuse .management m) s = .next s := congrArg Host.Outcome.next (if_pos hb)

theorem exec_fuse (hb : s.booting = false) (hw : asksFor (frame16 m.words) 0x10) : exec (.fuse .management m) s =
    .next ((s.fuseCheck (frame16 m.words)).elim (fun r => s.answer .management (frame16 m.words) (refused r)) fun p =>
      s.fusePartition p (maskSlices (bitsOf (wordAt (frame16 m.words) 2) 7 0)) (frame16 m.words) (frame16 m.words) false) := by
  obtain ⟨hop, h0⟩ := hw
  rw [show exec (.fuse .management m) s = execFuse .management m s from rfl, execFuse, hb, if_neg Bool.false_ne_true, hop, h0]
  refine congrArg Host.Outcome.next ((if_pos rfl).trans ?_)
  cases s.fuseCheck (frame16 m.words) <;> rfl
end

/-- What the entry, the registers and the fetch of a fused partition hold. -/
theorem fuse_forms (s : State) (p : PartId) {is : List SliceId} (his : inOrder is) (hne : is ≠ []) (w : List W32) (t : State)
    (ht : t = s.fusePartition p is w w false) :
    s.zeroed is t ∧ State.runsOn is t ∧ entryFields is w ((bitsOf (s.prcReg (0x840 + p.val)) 63 48 + 1) % 65536) (t.prcReg (0x840 + p.val))
      ∧ bitsOf (t.prcReg (0x818 + p.val)) 15 0 = (bitsOf (s.prcReg (0x818 + p.val)) 15 0 + 1) % 65536
      ∧ (∀ i ∈ is, ∀ n < 16, bitsOf (t.sliceReg i (0x770 + n)) 26 0 = if n = 0 then 0x801 + (is.headD 0).val * 2 ^ 16 else 0)
      ∧ (∀ i ∈ is, t.dykesFormed p is i)
      ∧ (∀ q, s.upPort is q → ∃ b, (t.part p).boot = some b ∧ b.port = q ∧ b.tries = 1 ∧ b.offset = 0 ∧ b.since = s.now ∧ b.frame = w
        ∧ t.prc.mgmt = s.prc.mgmt)
      ∧ (s.noPort is → (t.part p).boot = none ∧ s.told w (unservedReply p) t) := by
  have formed : s.formed p is w t := by
    rcases s.upPort_or_noPort hne with ⟨q, up⟩ | none
    · obtain ⟨hq, st, first⟩ := (State.upPort_iff hne).1 up
      exact ht ▸ (s.fusePartition_up p his hne w w false hq st first).formed
    · obtain ⟨u, before, run⟩ := s.fusePartition_none p his hne w w false ((State.noPort_iff hne).1 none)
      rw [ht, run]
      exact before.formed.of_same (u.endBoot_answers p _ rfl).same
  refine ⟨formed.mem, formed.runsOn, formed.entry, formed.epoch, fun i hi n hn => formed.routes i hi n (List.mem_range.2 hn), formed.dykes, fun q up => ?_,
    fun none => ?_⟩
  · obtain ⟨hq, st, first⟩ := (State.upPort_iff hne).1 up
    have fuses := s.fusePartition_up p his hne w w false hq st first
    obtain ⟨c, hc⟩ := fuses.part
    rw [ht]
    exact ⟨_, by rw [hc], rfl, rfl, rfl, rfl, rfl, fuses.mgmt⟩
  · obtain ⟨u, before, run⟩ := s.fusePartition_none p his hne w w false ((State.noPort_iff hne).1 none)
    have answers := u.endBoot_answers p (f := { frame := w }) (refused 0x07) rfl
    rw [ht, run]
    exact ⟨by rw [answers.part], by rw [State.told, answers.mgmt, before.mgmt]; rfl⟩

/-! ### RESETP and UNFUSE (R449) -/

/-- A partition whose domains, work and keys are gone. -/
structure State.drops (p : PartId) (s t : State) : Prop where
  mem : t.mem = s.mem
  mgmt : t.prc.mgmt = s.prc.mgmt
  ports : ∀ i, (t.slice i).ports = (s.slice i).ports
  keys : (t.part p).keys = []
  inbox : (t.part p).inbox = []
  featLocked : (t.part p).featLocked = false
  halts : ∀ h ∈ t.halts, h.part ≠ p
  saved : ∀ a ∈ t.saved, a.part ≠ p

/-- What the PRC still holds for a partition whose work is gone. -/
def Part.dropped (q : Part) : Part :=
  { usage := q.usage, images := q.images.filter fun e => e.1 == bitsOf q.fwstat 15 0, owner := q.owner, fuseArgs := q.fuseArgs,
    fwstat := BitVec.ofNat 64 (bitsOf q.fwstat 15 0 * 65537) }

/-- The partition before it is formed again. -/
def State.dropped (s : State) (p : PartId) : State := ((s.memberSlices p).foldl State.clearEndpoints s).dropPartition p

theorem State.dropped_drops (s : State) (p : PartId) : s.drops p (s.dropped p) := by
  have keeps : s.keeps Slice.ports ((s.memberSlices p).foldl State.clearEndpoints s) :=
    .foldl (fun s i => s.keeps_clearEndpoints (fun _ _ => rfl) (fun _ _ _ _ _ => rfl) i) _ s
  unfold State.dropped
  generalize (s.memberSlices p).foldl State.clearEndpoints s = u at keeps ⊢
  have part : (u.dropPartition p).part p = (u.part p).dropped := by
    show (u.modPart p Part.dropped).part p = _
    rw [State.part_modPart, if_pos rfl]
  have mgmt : u.prc.mgmt = s.prc.mgmt := congrArg Prc.mgmt keeps.prc
  refine ⟨keeps.mem, mgmt, keeps.slice, by rw [part]; rfl, by rw [part]; rfl, by rw [part]; rfl, fun h hh => ?_,
    fun a ha => ?_⟩
  · simpa using (List.mem_filter.1 hh).2
  · simpa using (List.mem_filter.1 ha).2

section
variable (s : State) (m : Frame) {p : PartId} (hp : idx 8 (bitsOf (wordAt (frame16 m.words) 2) 2 0) = p)

theorem resetMessage_booting (op : Nat) (free : Bool) (hb : s.booting = true) : s.resetMessage .management m op free = s := if_pos hb

include hp

theorem resetMessage_eq {op : Nat} (free : Bool) (hb : s.booting = false) (hw : asksFor (frame16 m.words) op) : s.resetMessage .management m op free =
    if s.partValid p then s.resetPart p (frame16 m.words) free else s.answer .management (frame16 m.words) (refused 0x01) := by
  obtain ⟨hop, h0⟩ := hw
  rw [State.resetMessage, hp, hb, if_neg Bool.false_ne_true, hop, h0]
  exact if_pos (by simp [permitted])
end

theorem State.resetPart_eq {s : State} {p : PartId} (h : s.moveOf p = none) (frame : List W32) (free : Bool) :
    s.resetPart p frame free = (s.dropped p).fusePartition p (s.memberSlices p) (s.part p).fuseArgs frame free := by
  rw [State.resetPart, State.endHandover, h]
  rfl

/-- What RESETP and UNFUSE leave of a partition until its boot ends. -/
structure State.resets (p : PartId) (is : List SliceId) (s t : State) : Prop where
  zeroed : s.zeroed is t
  runs : State.runsOn is t
  valid : bitsOf (t.pmap p) 8 8 = 1
  keys : (t.part p).keys = []
  inbox : (t.part p).inbox = []
  featLocked : (t.part p).featLocked = false
  halts : ∀ h ∈ t.halts, h.part ≠ p
  saved : ∀ a ∈ t.saved, a.part ≠ p

section
variable {s : State} {p : PartId} (valid : s.partValid p = true) (free : s.moveOf p = none) (hne : s.memberSlices p ≠ []) (frame : List W32) (thenFree : Bool)
include valid free hne

theorem State.resetPart_up {q : Nat} (up : s.upPort (s.memberSlices p) q) :
    s.resets p (s.memberSlices p) (s.resetPart p frame thenFree)
      ∧ ((s.resetPart p frame thenFree).part p).boot = some { frame := frame, port := q, since := (s.dropped p).now, thenFree := thenFree } := by
  have drops := s.dropped_drops p
  obtain ⟨hq, st, first⟩ := (State.upPort_iff hne).1 up
  have port (i : SliceId) (r : Nat) : (s.dropped p).port i r = s.port i r := congrArg (fun t => tabGet ({} : Port) t r) (drops.ports i)
  have fuses := (s.dropped p).fusePartition_up p (s.inOrder_memberSlices valid) hne (s.part p).fuseArgs frame thenFree hq (by rwa [port])
    fun r hr => by rw [port]; exact first r hr
  obtain ⟨formed, ⟨c, part⟩, -⟩ := fuses
  rw [State.resetPart_eq free]
  refine ⟨⟨fun x => ?_, formed.runsOn, formed.entry.valid, ?_, ?_, ?_, ?_, ?_⟩, by rw [part]⟩
  · rw [formed.mem, drops.mem]
  · rw [part]; exact drops.keys
  · rw [part]; exact drops.inbox
  · rw [part]; exact drops.featLocked
  · rw [formed.halts]; exact drops.halts
  · rw [formed.saved]; exact drops.saved

theorem State.resetPart_none (none : s.noPort (s.memberSlices p)) : ∃ u, s.resets p (s.memberSlices p) u ∧ u.memberSlices p = s.memberSlices p
    ∧ u.prc.mgmt = s.prc.mgmt ∧ s.resetPart p frame thenFree = u.endBoot p { frame := frame, thenFree := thenFree } (refused 0x07) := by
  have drops := s.dropped_drops p
  have port (i : SliceId) (r : Nat) : (s.dropped p).port i r = s.port i r := congrArg (fun t => tabGet ({} : Port) t r) (drops.ports i)
  obtain ⟨u, ⟨formed, ⟨c, part⟩, mgmt, members⟩, run⟩ :=
    (s.dropped p).fusePartition_none p (s.inOrder_memberSlices valid) hne (s.part p).fuseArgs frame thenFree
      fun q hq => by rw [port]; exact (State.noPort_iff hne).1 none q hq
  refine ⟨u, ⟨fun x => ?_, formed.runsOn, formed.entry.valid, ?_, ?_, ?_, ?_, ?_⟩, members, mgmt.trans drops.mgmt, (State.resetPart_eq free ..).trans run⟩
  · rw [formed.mem, drops.mem]
  · rw [part]; exact drops.keys
  · rw [part]; exact drops.inbox
  · rw [part]; exact drops.featLocked
  · rw [formed.halts]; exact drops.halts
  · rw [formed.saved]; exact drops.saved
end

/-- The boot of a reset partition that no port can serve is refused. -/
theorem State.resets.answered {p : PartId} {is : List SliceId} {s u t : State} {w : List W32} {r : Reply} (h : s.resets p is u) (k : u.answersBoot p w r t) :
    s.resets p is t where
  zeroed x := by rw [k.same.mem]; exact h.zeroed x
  runs i hi := by
    obtain ⟨run, free⟩ := h.runs i hi
    refine ⟨fun c => by rw [k.same.core]; exact run c, fun g hg => ?_⟩
    rw [State.group, k.same.core]
    exact free g hg
  valid := by rw [k.same.pmap]; exact h.valid
  keys := by rw [k.part]; exact h.keys
  inbox := by rw [k.part]; exact h.inbox
  featLocked := by rw [k.part]; exact h.featLocked
  halts := by rw [k.same.halts]; exact h.halts
  saved := by rw [k.same.saved]; exact h.saved

section
variable {s : State} {m : Frame} {p : PartId} (hp : idx 8 (bitsOf (wordAt (frame16 m.words) 2) 2 0) = p) (hb : s.booting = false)
  (valid : s.partValid p = true) (free : s.moveOf p = none) (hne : s.memberSlices p ≠ [])
include hp hb valid free hne

theorem exec_resetp (hw : asksFor (frame16 m.words) 0x13) : s.does (.resetp .management m) fun t =>
    s.resets p (s.memberSlices p) t
      ∧ (∀ q, s.upPort (s.memberSlices p) q → ∃ b, (t.part p).boot = some b ∧ b.port = q ∧ b.frame = frame16 m.words ∧ b.thenFree = false)
      ∧ (s.noPort (s.memberSlices p) → s.told (frame16 m.words) (unservedReply p) t) := by
  have run : exec (.resetp .management m) s = .next (s.resetPart p (frame16 m.words) false) :=
    congrArg Host.Outcome.next ((resetMessage_eq s m hp false hb hw).trans (if_pos valid))
  refine State.does_of_eq run ?_
  rcases s.upPort_or_noPort hne with ⟨q, up⟩ | none
  · refine ⟨(State.resetPart_up valid free hne _ _ up).1, fun q up => ?_, fun none => absurd up (State.not_upPort_of_noPort hne none q)⟩
    exact ⟨_, (State.resetPart_up valid free hne _ _ up).2, rfl, rfl, rfl⟩
  · obtain ⟨u, resets, -, mgmt, run⟩ := State.resetPart_none valid free hne (frame16 m.words) false none
    have answers := u.endBoot_answers p (f := { frame := frame16 m.words }) (refused 0x07) rfl
    rw [run]
    refine ⟨resets.answered answers, fun q up => absurd up (State.not_upPort_of_noPort hne none q), fun _ => ?_⟩
    rw [State.told, answers.mgmt, mgmt]
    rfl

theorem exec_unfuse (hw : asksFor (frame16 m.words) 0x11) : s.does (.unfuse .management m) fun t =>
    s.zeroed (s.memberSlices p) t
      ∧ (∀ q, s.upPort (s.memberSlices p) q → ∃ b, (t.part p).boot = some b ∧ b.port = q ∧ b.frame = frame16 m.words ∧ b.thenFree = true)
      ∧ (s.noPort (s.memberSlices p) → s.told (frame16 m.words) {} t ∧ bitsOf (t.prcReg (0x840 + p.val)) 8 8 = 0
        ∧ ∀ i ∈ s.memberSlices p, (t.slice i).held = true ∧ (t.slice i).hostHeld = true
          ∧ ∀ q < 14, hasDyke i q = true → bitsOf (t.sliceReg i (0x780 + q)) 23 0 = 0) := by
  have run : exec (.unfuse .management m) s = .next (s.resetPart p (frame16 m.words) true) :=
    congrArg Host.Outcome.next ((resetMessage_eq s m hp true hb hw).trans (if_pos valid))
  refine State.does_of_eq run ?_
  rcases s.upPort_or_noPort hne with ⟨q, up⟩ | none
  · refine ⟨(State.resetPart_up valid free hne _ _ up).1.zeroed, fun q up => ?_, fun none => absurd up (State.not_upPort_of_noPort hne none q)⟩
    exact ⟨_, (State.resetPart_up valid free hne _ _ up).2, rfl, rfl, rfl⟩
  · obtain ⟨u, resets, members, mgmt, run⟩ := State.resetPart_none valid free hne (frame16 m.words) true none
    have frees := (u.modPart p fun x => { x with boot := Option.none }).freePartition_frees p
    have same : (u.modPart p fun x => { x with boot := Option.none }).memberSlices p = s.memberSlices p := members
    have ended : u.endBoot p { frame := frame16 m.words, thenFree := true } (refused 0x07)
        = ((u.modPart p fun x => { x with boot := Option.none }).freePartition p).answer .management (frame16 m.words) accepted := rfl
    rw [run, ended]
    refine ⟨fun x => ?_, fun q up => absurd up (State.not_upPort_of_noPort hne none q), fun _ => ⟨?_, ?_, fun i hi => frees.shut i (same ▸ hi)⟩⟩
    · rw [← resets.zeroed x]
      exact congrArg (memGet · x) frees.mem
    · exact congrArg (replyFrame _ accepted :: ·) (frees.mgmt.trans mgmt)
    · rw [bitsOf_bit]
      exact congrArg Bool.toNat frees.valid
end

end Sys2Proof.Machine
end
section
/-! PROOF. The boot fetch: tries, windows, ports and the end of the boot (R447, R448). -/

namespace Sys2Proof.Machine

/-! ### Terms -/

/-- The window has been asked for once more. -/
def State.fetchAgain (s : State) (p : PartId) (f : BootFetch) (t : State) : Prop :=
  (t.part p).boot = some { f with tries := f.tries + 1, since := s.now } ∧ s.sameMemory t

/-- The fetch has begun anew on a port. -/
def State.fetchOn (s : State) (p : PartId) (f : BootFetch) (q : Nat) (sig : Bool) (t : State) : Prop :=
  s.sameMemory t ∧ (t.part p).boot = some { f with port := q, tries := 1, offset := 0, total := 0, since := s.now, sigFail := sig }

/-- The next port after the fetch's that is UP. -/
def State.nextPort (s : State) (k : SliceId) (f : BootFetch) (q : Nat) : Prop :=
  f.port < q ∧ q < 8 ∧ (s.port k q).st = 2 ∧ ∀ r, f.port < r → r < q → (s.port k r).st ≠ 2

def State.noNextPort (s : State) (k : SliceId) (f : BootFetch) : Prop := ∀ r, f.port < r → r < 8 → (s.port k r).st ≠ 2

/-- The boot has failed, and the frame that waits for it is answered. -/
def State.fetchFails (s : State) (p : PartId) (f : BootFetch) (reason : Nat) (t : State) : Prop := f.thenFree = false →
  t.prc.mgmt = replyFrame f.frame { status := 1, reason := reason, values := [(2, BitVec.ofNat 32 p.val)] } :: s.prc.mgmt ∧ (t.part p).boot = none

/-- Why a fetch fails on its last port. -/
def failReason (f : BootFetch) : Nat := if f.sigFail then 0x04 else 0x07

section
variable {s : State} {p : PartId} {k : SliceId} {f : BootFetch}

theorem State.asks.fetch {g : BootFetch} {t : State} (h : s.asks p g t) : s.sameMemory t ∧ (t.part p).boot = some { g with since := s.now } :=
  ⟨fun _ => by rw [h.same.mem], by rw [h.part]⟩

theorem State.fetchFails_endBoot (g : BootFetch) (reason : Nat) (hf : g.frame = f.frame) (ht : g.thenFree = f.thenFree) :
    s.fetchFails p f reason (s.endBoot p g (refused reason)) := by
  intro h
  have answers := s.endBoot_answers p (f := g) (refused reason) (ht.trans h)
  exact ⟨hf ▸ answers.mgmt, by rw [answers.part]⟩

variable (hk : s.lowestSlice p = some k)
include hk

/-- The window is asked for through the fetch's own port while it is UP. -/
theorem State.bootAsk_own (hp : f.port < 8) (up : (s.port k f.port).st = 2) : s.bootAsk p f = s.sendBootRequest p k f := by
  rw [State.bootAsk_of_up hk le_rfl hp up fun r h1 h2 => absurd h2 (by omega), if_pos rfl]

theorem State.bootNextPort_of_next {q : Nat} (h : s.nextPort k f q) : s.fetchOn p f q f.sigFail (s.bootNextPort p f) := by
  obtain ⟨hq, h8, up, first⟩ := h
  have ask : s.bootNextPort p f = s.sendBootRequest p k (f.onPort q) := by
    rw [State.bootNextPort, State.bootAsk_of_up hk (f := f.onPort (f.port + 1)) (q := q) hq h8 up fun r hr => first r hr]
    split_ifs with e
    · rw [e]; rfl
    · rfl
  rw [ask]
  exact (s.sendBootRequest_asks p k (f.onPort q)).fetch

theorem State.bootNextPort_of_none (h : s.noNextPort k f) : s.fetchFails p f (failReason f) (s.bootNextPort p f) := by
  rw [State.bootNextPort, State.bootAsk_of_none hk (f := f.onPort (f.port + 1)) fun r hr => h r hr]
  exact State.fetchFails_endBoot _ _ rfl rfl

/-- The next port, or the failure on the last. -/
theorem State.bootNextPort_spec : (∀ q, s.nextPort k f q → s.fetchOn p f q f.sigFail (s.bootNextPort p f))
    ∧ (s.noNextPort k f → s.fetchFails p f (failReason f) (s.bootNextPort p f)) :=
  ⟨fun _ => State.bootNextPort_of_next hk, State.bootNextPort_of_none hk⟩

/-- Up to 4 tries on a port, then the next (R448). -/
theorem State.bootRetry_spec : (f.tries < 4 → f.port < 8 → (s.port k f.port).st = 2 → s.fetchAgain p f (s.bootRetry p f))
    ∧ (4 ≤ f.tries → (∀ q, s.nextPort k f q → s.fetchOn p f q f.sigFail (s.bootRetry p f))
      ∧ (s.noNextPort k f → s.fetchFails p f (failReason f) (s.bootRetry p f))) := by
  rw [State.bootRetry]
  refine ⟨fun ht hp up => ?_, fun ht => ?_⟩
  · rw [if_pos ht, State.bootAsk_own hk (f := { f with tries := f.tries + 1 }) hp up]
    exact (s.sendBootRequest_asks p k { f with tries := f.tries + 1 }).fetch.symm
  · rw [if_neg (by omega)]
    exact State.bootNextPort_spec hk

end

/-! ### Windows (R447) -/

/-- The image's length by the first completion. -/
def fetchTotal (f : BootFetch) (words : List W32) : Nat := if f.offset = 0 then (dwordAt words 10).toNat else f.total

/-- The image's length by its header. -/
def State.imageLength (s : State) (p : PartId) : Nat := 256 + (dwordAt (s.bootHeader p) 4).toNat + 8240 + keyBytes

/-- The fetch once the length is known. -/
theorem withTotal_eq (f : BootFetch) (n : Nat) :
    (if f.offset = 0 then { f with total := n } else f) = { f with total := if f.offset = 0 then n else f.total } := by
  split_ifs <;> rfl

theorem State.windowWritten_eq (s : State) (p : PartId) (f : BootFetch) (words : List W32) : s.windowWritten p f (dwordAt words 10).toNat =
    (let g : BootFetch := { f with total := fetchTotal f words }
     if g.total ≠ s.imageLength p || 2 ^ 36 < g.total then s.bootFailed p g
     else if f.offset + 0x100000 < g.total then s.bootAsk p { g with offset := f.offset + 0x100000, tries := 1 }
     else if s.bootChecks p then s.releaseHost p g
     else s.bootNextPort p { g with sigFail := true }) := by
  rw [State.windowWritten, withTotal_eq]
  rfl

section
variable {s : State} {p : PartId} {k : SliceId} {f : BootFetch} {words : List W32}

theorem State.windowWritten_of_wrong (h : fetchTotal f words ≠ s.imageLength p) :
    s.fetchFails p f (failReason f) (s.windowWritten p f (dwordAt words 10).toNat) := by
  rw [State.windowWritten_eq]
  extract_lets g
  rw [if_pos (by simp [g, h])]
  exact State.fetchFails_endBoot g _ rfl rfl

variable (hk : s.lowestSlice p = some k) (total : fetchTotal f words = s.imageLength p) (small : s.imageLength p ≤ 2 ^ 36)
include hk total small

theorem State.windowWritten_of_more (more : f.offset + 0x100000 < s.imageLength p) (hp : f.port < 8) (up : (s.port k f.port).st = 2) :
    s.sameMemory (s.windowWritten p f (dwordAt words 10).toNat) ∧ ((s.windowWritten p f (dwordAt words 10).toNat).part p).boot
      = some { f with total := fetchTotal f words, offset := f.offset + 0x100000, tries := 1, since := s.now } := by
  rw [State.windowWritten_eq]
  extract_lets g
  rw [if_neg (by simp [g, total]; omega), if_pos (by simpa [g, total] using more),
    State.bootAsk_own hk (f := { g with offset := f.offset + 0x100000, tries := 1 }) hp up]
  exact (s.sendBootRequest_asks p k { g with offset := f.offset + 0x100000, tries := 1 }).fetch

omit hk in
/-- After the last window the image is checked. -/
theorem State.windowWritten_of_last (last : s.imageLength p ≤ f.offset + 0x100000) : s.windowWritten p f (dwordAt words 10).toNat =
    if s.bootChecks p then s.releaseHost p { f with total := fetchTotal f words }
    else s.bootNextPort p { f with total := fetchTotal f words, sigFail := true } := by
  rw [State.windowWritten_eq]
  extract_lets g
  rw [if_neg (by simp [g, total]; omega), if_neg (by simpa [g, total] using last)]

theorem State.windowWritten_of_bad (last : s.imageLength p ≤ f.offset + 0x100000) (bad : s.bootChecks p = false) :
    (∀ q, s.nextPort k f q → s.fetchOn p f q true (s.windowWritten p f (dwordAt words 10).toNat))
      ∧ (s.noNextPort k f → s.fetchFails p f 0x04 (s.windowWritten p f (dwordAt words 10).toNat)) := by
  rw [State.windowWritten_of_last total small last, if_neg (by simp [bad])]
  exact State.bootNextPort_spec hk (f := { f with total := fetchTotal f words, sigFail := true })

end

/-- What a boot that has ended well leaves (R447). -/
theorem State.releaseHost_spec (s : State) (p : PartId) {f : BootFetch} (h : f.thenFree = false) (hne : s.memberSlices p ≠ []) :
    s.sameMemory (s.releaseHost p f) ∧ ((s.releaseHost p f).part p).boot = none ∧ ((s.releaseHost p f).part p).booted = true
      ∧ (s.releaseHost p f).prc.mgmt = replyFrame f.frame { values := [(2, BitVec.ofNat 32 p.val)] } :: s.prc.mgmt
      ∧ ((s.releaseHost p f).part p).bootm = sha384 (memRead s.mem (((s.memberSlices p).headD 0).val * 2 ^ 37) (256 + (dwordAt (s.bootHeader p) 4).toNat))
      ∧ (∃ pc, ((s.releaseHost p f).part p).hart0 = some (pc, BitVec.ofNat 64 p.val, BitVec.ofNat 64 (((s.memberSlices p).headD 0).val * 2 ^ 37)))
      ∧ ∀ i ∈ s.memberSlices p, ((s.releaseHost p f).slice i).hostHeld = false := by
  have base : s.bootBase p = ((s.memberSlices p).headD 0).val * 2 ^ 37 := by rw [State.bootBase, State.lowestSlice_eq hne]; rfl
  unfold State.releaseHost
  extract_lets hd b s₁ s₂
  have hb : b = ((s.memberSlices p).headD 0).val * 2 ^ 37 := base
  have keeps : s₁.keeps (fun _ => ()) s₂ := .foldl (fun s i => s.keeps_modSlice (f := fun k => { k with hostHeld := false }) i fun _ => rfl) _ s₁
  have answers := s₂.endBoot_answers p (f := f) accepted h
  have part : s₂.part p = { s.part p with
      bootm := sha384 (memRead s.mem b (signedPart hd)), booted := true,
      hart0 := some (BitVec.ofNat 64 (b + 256) + dwordAt hd 6, BitVec.ofNat 64 p.val, BitVec.ofNat 64 b) } := by
    rw [keeps.part, State.part_modPart, if_pos rfl]
  have held : ∀ i ∈ s.memberSlices p, (s₂.slice i).hostHeld = false :=
    foldl_establishes (P := fun i s => (State.slice s i).hostHeld = false) (fun s i => by simp) (fun s i j hij h => by simpa [hij] using h) _ s₁
  rw [← hb]
  refine ⟨fun a => ?_, by rw [answers.part], by rw [answers.part, part], ?_, by rw [answers.part, part]; rfl, ⟨_, by rw [answers.part, part]⟩, ?_⟩
  · rw [answers.same.mem, keeps.mem]; rfl
  · rw [answers.mgmt, keeps.prc]; rfl
  · intro i hi
    rw [← held i hi]
    unfold State.endBoot
    rw [if_neg (by simp [h])]
    rfl

/-! ### The events -/

theorem exec_bootFetchTimeout {s : State} {p : PartId} {f : BootFetch} (hb : (s.part p).boot = some f) :
    exec (.bootFetchTimeout p) s = .next (if f.since.toNat + 100000000 ≤ s.now.toNat then s.bootRetry p f else s) := by
  rw [show exec (.bootFetchTimeout p) s = execBootFetchTimeout p s from rfl, execBootFetchTimeout, hb]
  simp only [State.passed, decide_eq_true_eq]

theorem exec_bootFetchCompletion {s : State} {p : PartId} {f : BootFetch} (hb : (s.part p).boot = some f) (words : List W32) :
    (completes (s.part p).fuseArgs f words = false → exec (.bootFetchCompletion p words) s = .next s)
      ∧ (completes (s.part p).fuseArgs f words = true →
        (bitsOf (wordAt words 0) 15 8 = 3 → exec (.bootFetchCompletion p words) s = .next (s.bootRetry p f))
        ∧ (bitsOf (wordAt words 0) 15 8 ≠ 0 → bitsOf (wordAt words 0) 15 8 ≠ 3 → exec (.bootFetchCompletion p words) s = .next (s.bootNextPort p f))
        ∧ (bitsOf (wordAt words 0) 15 8 = 0 → exec (.bootFetchCompletion p words) s = .next (s.windowWritten p f (dwordAt words 10).toNat))) := by
  rw [show exec (.bootFetchCompletion p words) s = execBootFetchCompletion p words s from rfl, execBootFetchCompletion, hb]
  refine ⟨fun h => by simp [h], fun h => ?_⟩
  simp only [h, Bool.not_true, Bool.false_eq_true, if_false]
  refine ⟨fun h => by rw [h]; rfl, fun h0 h3 => ?_, fun h => by rw [h]; rfl⟩
  split
  · next e => exact absurd e h0
  · next e => exact absurd e h3
  · rfl

end Sys2Proof.Machine
end
section
/-! PROOF. MOVE and its abandon (R450, R451). -/

namespace Sys2Proof.Machine

section
variable {s : State} {m : Frame}

/-- A message that the management interface may send is acted upon. -/
theorem State.handle_management {op : Nat} (kernel : Bool) (hw : asksFor (frame16 m.words) op) (known : knownOp op = true)
    (act : State → Option (State × Reply)) (wait : State → State) : s.handle .management m op kernel true act wait =
      (act s).elim (wait s) fun q => q.1.answer .management (frame16 m.words) q.2 := by
  obtain ⟨hop, h0⟩ := hw
  simp only [State.handle, State.awaits, permitted, hop, known, h0, Bool.not_true, Bool.false_eq_true, ne_eq, not_true, if_false]
  cases act s <;> rfl

theorem exec_move_of_abandon (hw : asksFor (frame16 m.words) 0x12) (ha : mvAbandon (frame16 m.words) = true) : exec (.move .management m) s = .next s :=
  congrArg Host.Outcome.next (if_pos (by simp [ha, hw.1]))

theorem exec_moveAbandon_of_plain (hw : asksFor (frame16 m.words) 0x12) (ha : mvAbandon (frame16 m.words) = false) :
    exec (.moveAbandon .management m) s = .next s :=
  congrArg Host.Outcome.next (if_pos (by simp [ha, hw.1]))

theorem exec_move_handle (hw : asksFor (frame16 m.words) 0x12) (ha : mvAbandon (frame16 m.words) = false) : exec (.move .management m) s =
    .next (if s.booting then s else if s.moveRefused (frame16 m.words) then s.answer .management (frame16 m.words) (refused 0x05)
      else (s.startMove (frame16 m.words)).answer .management (frame16 m.words) accepted) := by
  refine congrArg Host.Outcome.next ((if_neg (by simp [ha])).trans ((State.handle_management false hw rfl _ _).trans ?_))
  split_ifs <;> rfl

theorem exec_moveAbandon_handle (hw : asksFor (frame16 m.words) 0x12) (ha : mvAbandon (frame16 m.words) = true) : exec (.moveAbandon .management m) s =
    .next (if s.booting then s else (s.abandon (frame16 m.words)).1.answer .management (frame16 m.words) (s.abandon (frame16 m.words)).2) := by
  refine congrArg Host.Outcome.next ((if_neg (by simp [ha])).trans ((State.handle_management false hw rfl _ _).trans ?_))
  split_ifs <;> rfl

theorem exec_move_booting (hw : asksFor (frame16 m.words) 0x12) (hb : s.booting = true) :
    exec (.move .management m) s = .next s ∧ exec (.moveAbandon .management m) s = .next s := by
  cases ha : mvAbandon (frame16 m.words) with
  | true => exact ⟨exec_move_of_abandon hw ha, by rw [exec_moveAbandon_handle hw ha, if_pos hb]⟩
  | false => exact ⟨by rw [exec_move_handle hw ha, if_pos hb], exec_moveAbandon_of_plain hw ha⟩

end

/-! ### The hand-over begins -/

/-- A hand-over's step in the partitions' entries: MOVING of both, and no byte of memory or message of the PRC. -/
structure State.marks (a b : PartId) (moving : Bool) (s t : State) : Prop where
  mem : t.mem = s.mem
  mgmt : t.prc.mgmt = s.prc.mgmt
  leaving : (t.pmap a).getLsbD 10 = moving
  joining : (t.pmap b).getLsbD 10 = moving

theorem State.marks.keeps {a b : PartId} {moving : Bool} {s t u : State} (h : s.marks a b moving t) (k : t.keeps (fun _ => ()) u) : s.marks a b moving u :=
  ⟨k.mem.trans h.mem, (congrArg Prc.mgmt k.prc).trans h.mgmt, by rw [k.pmap]; exact h.leaving, by rw [k.pmap]; exact h.joining⟩

/-- MOVING of two entries is written one after the other. -/
theorem State.marks_changePmap (s : State) (a b : PartId) (moving : Bool) {f g : Word → Word} (hf : ∀ w, (f w).getLsbD 10 = moving)
    (hg : ∀ w, (g w).getLsbD 10 = moving) : s.marks a b moving ((s.changePmap a f).changePmap b g) := by
  refine ⟨rfl, rfl, ?_, ?_⟩
  · rw [State.pmap_changePmap]
    split_ifs
    · rw [getLsbD_raiseGen _ (by omega), hg]
    · rw [State.pmap_changePmap, if_pos rfl, getLsbD_raiseGen _ (by omega), hf]
  · rw [State.pmap_changePmap, if_pos rfl, getLsbD_raiseGen _ (by omega), hg]

theorem State.startMove_spec (s : State) (w : List W32) : s.marks (mvFrom w) (mvTo w) true (s.startMove w)
    ∧ ((s.startMove w).part (mvFrom w)).move = some { slice := mvSlice w, toPart := mvTo w, step := 1, acked := false } := by
  unfold State.startMove
  extract_lets i p q s₁ s₂ s₃
  have marks : s.marks p q true s₁ := s.marks_changePmap p q true (fun w => by rw [getLsbD_putBit _ _ _ (by omega), if_pos rfl])
    fun w => by rw [getLsbD_putBit _ _ _ (by omega), if_pos rfl]
  have sent : s₂.keeps (fun _ => ()) s₃ := (s₂.keeps_raisePartSource (fun _ _ => rfl) p _).trans (State.keeps_raisePartSource (fun _ _ => rfl) _ q _)
  have keeps := sent.trans (.foldl (fun s c => s.keeps_fwEvent (fun _ _ => rfl) ⟨i, idx 144 c⟩ 0x05 (bitsOf (wordAt w 0) 31 16)) (List.range 144) s₃)
  refine ⟨State.marks.keeps (t := s₂) ⟨marks.mem, marks.mgmt, marks.leaving, marks.joining⟩ keeps, ?_⟩
  rw [keeps.part, State.part_modPart, if_pos rfl]

/-! ### The hand-over is abandoned -/

theorem State.abandonHandover_spec (s : State) (p : PartId) (m : Move) :
    s.marks p m.toPart false (s.abandonHandover p m none) ∧ ((s.abandonHandover p m none).part p).move = none := by
  unfold State.abandonHandover State.endAbandon
  extract_lets s₁ s₂ s₃ s₄ s₅
  have undone : s.keeps (fun _ => ()) s₁ := .ite (s.keeps_reformRanges (fun _ _ => rfl) p _) (.refl s)
  have marks : s₂.marks p m.toPart false s₄ := s₂.marks_changePmap p m.toPart false (fun w => by rw [getLsbD_putBit _ _ _ (by omega), if_pos rfl])
    fun w => by rw [getLsbD_putBit _ _ _ (by omega), if_pos rfl]
  have held : s₄.keeps (fun _ => ()) s₅ := s₄.keeps_modSlice m.slice fun _ => rfl
  have keeps := (held.trans (State.keeps_raisePartSource (fun _ _ => rfl) _ p 0x9)).trans (State.keeps_raisePartSource (fun _ _ => rfl) _ m.toPart 0x9)
  have before : s₂.mem = s.mem ∧ s₂.prc.mgmt = s.prc.mgmt := ⟨undone.mem, show s₁.prc.mgmt = _ by rw [undone.prc]⟩
  refine ⟨State.marks.keeps ⟨marks.mem.trans before.1, marks.mgmt.trans before.2, marks.leaving, marks.joining⟩ keeps, ?_⟩
  rw [keeps.part]
  show (s₂.part p).move = none
  rw [State.part_modPart, if_pos rfl]

section
variable {s : State} {w : List W32}

theorem State.abandon_refused (h : (s.part (mvFrom w)).move = none
    ∨ ∃ y, (s.part (mvFrom w)).move = some y ∧ (y.slice ≠ mvSlice w ∨ y.toPart ≠ mvTo w ∨ 4 ≤ y.step)) : s.abandon w = (s, refused 0x06) := by
  rw [State.abandon]
  rcases h with h | ⟨y, h, other⟩
  · rw [h]
  · rw [h]
    exact if_pos (by simpa [or_assoc] using other)

theorem State.abandon_before {y : Move} (h : (s.part (mvFrom w)).move = some y) (hi : y.slice = mvSlice w) (hq : y.toPart = mvTo w) (hs : y.step < 3) :
    s.abandon w = (s.abandonHandover (mvFrom w) y none, accepted) := by
  rw [State.abandon, h]
  refine (if_neg (by simp [hi, hq]; omega)).trans (if_neg ?_)
  rw [decide_eq_false (show ¬y.step = 3 by omega), Bool.false_and]
  exact Bool.false_ne_true

end

end Sys2Proof.Machine
end
section
/-! PROOF. Endpoint functions (R455 to R458). -/

namespace Sys2Proof.Machine

/-! ### Stores and loads from outside the die (R274) -/

section
variable {β : Type} {π : Slice → β} (hl : ∀ (k : Slice) a b c d, π { k with horizon := a, leases := b, l2 := c, occ := d } = π k)
include hl

theorem State.keeps_dropLine (s : State) (i : SliceId) (pl : Nat) : s.keeps π (s.dropLine i pl) := by
  rw [State.dropLine]
  split
  · exact .refl s
  · exact (s.keeps_modSlice i fun k => hl k _ _ _ k.occ).trans (State.keeps_modSlice _ i fun k => hl k k.horizon k.leases k.l2 _)

/-- A store from outside drops copies, and writes its bytes. -/
theorem State.outsideStore_eq (s : State) (pa : Nat) (bs : List Byte) : ∃ u, s.keeps π u ∧ s.outsideStore pa bs = u.hbmWrite pa bs :=
  ⟨_, .foldl (fun s _ => .foldl (fun s _ => s.keeps_dropLine hl ..) _ s) (linesOf pa bs.length) s, rfl⟩

end

theorem State.mem_outsideStore (s : State) (pa : Nat) (bs : List Byte) : (s.outsideStore pa bs).mem = memWrite s.mem pa bs := by
  obtain ⟨u, keeps, e⟩ := s.outsideStore_eq (π := fun _ => ()) (fun _ _ _ _ _ => rfl) pa bs
  rw [e, ← keeps.mem]
  rfl

theorem State.slice_outsideStore {β : Type} {π : Slice → β} (hl : ∀ (k : Slice) a b c d, π { k with horizon := a, leases := b, l2 := c, occ := d } = π k)
    (s : State) (pa : Nat) (bs : List Byte) (i : SliceId) : π ((s.outsideStore pa bs).slice i) = π (s.slice i) := by
  obtain ⟨u, keeps, e⟩ := s.outsideStore_eq hl pa bs
  rw [e, ← keeps.slice]
  rfl

theorem State.sliceReg_outsideStore (s : State) (pa : Nat) (bs : List Byte) (i : SliceId) (n : Nat) :
    (s.outsideStore pa bs).sliceReg i n = s.sliceReg i n :=
  congrArg (tabGet (sliceRegReset n) · n) (s.slice_outsideStore (π := Slice.regs) (fun _ _ _ _ _ => rfl) pa bs i)

/-- With the injectors off a load from outside changes nothing but what has been read. -/
theorem State.outsideLoad_off {s : State} (h : s.injectorOff) (pa n : Nat) : s.outsideLoad pa n = { s with outRead := s.hbmRead pa n } := by
  have errors : s.outsideErrors pa = s := by
    unfold State.outsideErrors
    extract_lets t
    split
    · simp only [State.readLine, State.readErrors_off h, Bool.false_eq_true, if_false]
      split_ifs <;> rfl
    · simp [State.injectCorrected, State.opportunity_off h]
  rw [State.outsideLoad, errors]

/-! ### Inbound requests (R455) -/

/-- Where a BAR of a function begins, and its size. -/
def State.barBase (s : State) (i : SliceId) (p : Nat) (bar2 : Bool) : Nat := if bar2 then (s.epBars i p).2.2 else (s.epBars i p).1

def State.barSize (s : State) (i : SliceId) (p : Nat) (bar2 : Bool) : Nat := if bar2 then 4096 else 2 ^ (s.epBars i p).2.1

/-- A function performs a load of some bytes. -/
def State.mayLoad (s : State) (i : SliceId) (p : Nat) (bar2 : Bool) (off n : Nat) : Prop :=
  s.epServes i p = true ∧ 0 < n ∧ n ≤ 8 ∧ off + n ≤ s.barSize i p bar2
    ∧ s.dykePort i (11 + p) (s.partOf! i) true (s.barBase i p bar2 + off) true false = true

/-- A function performs a store of some bytes. -/
def State.mayStore (s : State) (i : SliceId) (p : Nat) (bar2 : Bool) (n off : Nat) : Prop :=
  s.epServes i p = true ∧ 0 < n ∧ n ≤ 8 ∧ off + n ≤ s.barSize i p bar2
    ∧ s.dykePort i (11 + p) (s.partOf! i) true (s.barBase i p bar2 + off) false true = true ∧ s.outsideReady (s.barBase i p bar2 + off) n = true

/-- The bytes of a store in a BAR, and no others, have been written. -/
def State.storedAt (s : State) (base : Nat) (value : Word) (n off : Nat) (t : State) : Prop :=
  ∀ x, memGet t.mem x = if base + off ≤ x ∧ x < base + off + n then BitVec.ofNat 8 (value.toNat / 2 ^ (8 * (x - (base + off)))) else memGet s.mem x

section
variable {s : State} {i : SliceId} {p : Nat} {bar2 : Bool} {off n : Nat}

/-- An access is performed by a function that serves it. -/
theorem State.inbound_load_eq (s : State) (i : SliceId) (p : Nat) (bar2 : Bool) (off n : Nat) : s.inbound i p bar2 off (.load n) =
    if !s.epServes i p || n = 0 || 8 < n || s.barSize i p bar2 < off + n then s
    else if s.dykePort i (11 + p) (s.partOf! i) true (s.barBase i p bar2 + off) true false then s.outsideLoad (s.barBase i p bar2 + off) n
    else s := rfl

theorem State.inbound_store_eq (s : State) (i : SliceId) (p : Nat) (bar2 : Bool) (off n : Nat) (v : Word) : s.inbound i p bar2 off (.store n v) =
    if !s.epServes i p || n = 0 || 8 < n || s.barSize i p bar2 < off + n then s
    else if !s.dykePort i (11 + p) (s.partOf! i) true (s.barBase i p bar2 + off) false true || !s.outsideReady (s.barBase i p bar2 + off) n then s
    else
      let u := s.outsideStore (s.barBase i p bar2 + off) (natToBytes v.toNat n)
      if bar2 && off = 0x40 && n = 8 then u.ringMailbox i p else if bar2 && 0x800 ≤ off && off < 0x840 then u.flushMsix i p else u := rfl

theorem State.serves_iff : (!s.epServes i p || n = 0 || 8 < n || s.barSize i p bar2 < off + n) = false
    ↔ s.epServes i p = true ∧ 0 < n ∧ n ≤ 8 ∧ off + n ≤ s.barSize i p bar2 := by
  simp [Nat.pos_iff_ne_zero, and_assoc]

theorem State.inbound_load (h : s.mayLoad i p bar2 off n) : s.inbound i p bar2 off (.load n) = s.outsideLoad (s.barBase i p bar2 + off) n := by
  obtain ⟨serves, pos, le, fits, dyke⟩ := h
  rw [State.inbound_load_eq, State.serves_iff.2 ⟨serves, pos, le, fits⟩, if_neg Bool.false_ne_true, if_pos dyke]

theorem State.inbound_load_of_not (h : ¬s.mayLoad i p bar2 off n) : s.inbound i p bar2 off (.load n) = s := by
  rw [State.inbound_load_eq]
  by_cases served : (!s.epServes i p || n = 0 || 8 < n || s.barSize i p bar2 < off + n) = true
  · rw [if_pos served]
  · obtain ⟨serves, pos, le, fits⟩ := State.serves_iff.1 (Bool.not_eq_true _ ▸ served)
    rw [if_neg served, if_neg fun dyke => h ⟨serves, pos, le, fits, dyke⟩]

theorem State.inbound_store (v : Word) (h : s.mayStore i p bar2 n off) : s.inbound i p bar2 off (.store n v) =
    (let u := s.outsideStore (s.barBase i p bar2 + off) (natToBytes v.toNat n)
     if bar2 && off = 0x40 && n = 8 then u.ringMailbox i p else if bar2 && 0x800 ≤ off && off < 0x840 then u.flushMsix i p else u) := by
  obtain ⟨serves, pos, le, fits, dyke, ready⟩ := h
  rw [State.inbound_store_eq, State.serves_iff.2 ⟨serves, pos, le, fits⟩, if_neg Bool.false_ne_true, dyke, ready]
  rfl

theorem State.inbound_store_of_not (v : Word) (h : ¬s.mayStore i p bar2 n off) : s.inbound i p bar2 off (.store n v) = s := by
  rw [State.inbound_store_eq]
  by_cases served : (!s.epServes i p || n = 0 || 8 < n || s.barSize i p bar2 < off + n) = true
  · rw [if_pos served]
  · obtain ⟨serves, pos, le, fits⟩ := State.serves_iff.1 (Bool.not_eq_true _ ▸ served)
    rw [if_neg served, if_pos]
    by_contra no
    simp only [Bool.or_eq_true, Bool.not_eq_true', not_or, Bool.not_eq_false] at no
    exact h ⟨serves, pos, le, fits, no.1, no.2⟩

theorem State.storedAt_outsideStore (s : State) (base : Nat) (v : Word) (n off : Nat) :
    s.storedAt base v n off (s.outsideStore (base + off) (natToBytes v.toNat n)) := fun x => by
  rw [State.mem_outsideStore]
  exact memGet_memWriteLE s.mem (base + off) n v.toNat x
end

/-! ### The status register (R455, R458) -/

theorem State.setEpstat_regs (s : State) (i : SliceId) (p : Nat) (v : Word) : s.regsBut (fun j n => j = i ∧ n = 0x4EB + p) (s.setEpstat i p v) :=
  .ite (.refl s) (s.regsBut_setSliceReg _ ⟨rfl, rfl⟩)

theorem State.raiseSource_regs (s : State) (i : SliceId) (src : Nat) : s.regsBut (fun j n => j = i ∧ n = 0x770 + src) (s.raiseSource i src) := by
  rw [State.raiseSource]
  split_ifs
  · exact ⟨(s.regsBut_setSliceReg _ ⟨rfl, rfl⟩).reg⟩
  · exact s.regsBut_setSliceReg _ ⟨rfl, rfl⟩

/-- The status bits are what has been written, whether or not they have changed. -/
theorem State.getLsbD_epstat_setEpstat (s : State) (i : SliceId) (p : Nat) (v : Word) {j : Nat} (hj : j < 32) :
    ((s.setEpstat i p v).epstat i p).getLsbD j = v.getLsbD j := by
  rw [State.setEpstat]
  split_ifs with h
  · have bit := congrArg (·.testBit j) h
    simp only [testBit_bitsOf, Nat.zero_add, Nat.sub_zero] at bit
    simpa [show j < 31 + 1 by omega] using bit.symm
  · rw [State.epstat, State.sliceReg_setSliceReg, if_pos ⟨rfl, rfl⟩, getLsbD_setBits_other _ _ (by omega) (.inl hj)]

theorem State.epstat_raiseSource (s : State) (i : SliceId) (src : Nat) {p : Nat} (hp : p < 2) : (s.raiseSource i src).epstat i p = s.epstat i p :=
  (s.raiseSource_regs i src).reg i _ (by rintro ⟨-, h⟩; omega)

/-- A source whose route is disabled is pending once it has been raised. -/
theorem State.pending_raiseSource (s : State) (i : SliceId) (src : Nat) (h : (s.sliceReg i (0x770 + src)).getLsbD 11 = false) :
    ((s.raiseSource i src).sliceReg i (0x770 + src)).getLsbD 27 = true := by
  rw [State.raiseSource, if_neg (by rw [bitAt, h]; exact Bool.false_ne_true), State.sliceReg_setSliceReg, if_pos ⟨rfl, rfl⟩,
    getLsbD_setBits_other _ _ (by omega) (.inl (by omega)), getLsbD_putBit _ _ _ (by omega), if_pos rfl]

theorem State.sliceReg_setEpstat_source (s : State) (i : SliceId) {p : Nat} (hp : p < 2) (v : Word) (src : Nat) :
    (s.setEpstat i p v).sliceReg i (0x770 + src) = s.sliceReg i (0x770 + src) :=
  (s.setEpstat_regs i p v).reg i _ (by rintro ⟨-, h⟩; omega)

/-- The mailbox rings: DBELL is set, and source 0xB raised. -/
theorem State.ringMailbox_spec (s : State) (i : SliceId) {p : Nat} (hp : p < 2) : (s.ringMailbox i p).mem = s.mem
    ∧ ((s.ringMailbox i p).epstat i p).getLsbD 3 = true
    ∧ ((s.sliceReg i (0x770 + 0xB)).getLsbD 11 = false → ((s.ringMailbox i p).sliceReg i (0x770 + 0xB)).getLsbD 27 = true) := by
  have keeps : s.keeps (fun _ => ()) (s.ringMailbox i p) := (s.keeps_setEpstat (fun _ _ => rfl) ..).trans (State.keeps_raiseSource (fun _ _ => rfl) ..)
  refine ⟨keeps.mem, ?_, fun h => ?_⟩
  · rw [State.ringMailbox, State.epstat_raiseSource _ _ _ hp, State.getLsbD_epstat_setEpstat _ _ _ _ (by omega), getLsbD_putBit _ _ _ (by omega), if_pos rfl]
  · exact State.pending_raiseSource _ _ _ (by rwa [State.sliceReg_setEpstat_source _ _ hp])

/-- The two halves of a word put together. -/
theorem bitsOf_append_low {a b hi : Nat} (x : BitVec a) (y : BitVec b) (h : hi < b) : bitsOf (x ++ y) hi 0 = bitsOf y hi 0 := by
  refine Nat.eq_of_testBit_eq fun j => ?_
  rw [testBit_bitsOf, testBit_bitsOf]
  by_cases hj : j < hi + 1 - 0
  · rw [BitVec.getLsbD_append, if_pos (by omega)]
  · rw [decide_eq_false hj, Bool.false_and, Bool.false_and]

theorem bitsOf_append_high {a b hi : Nat} (x : BitVec a) (y : BitVec b) (h : hi + 1 = a + b) : bitsOf (x ++ y) hi b = x.toNat := by
  refine Nat.eq_of_testBit_eq fun j => ?_
  rw [testBit_bitsOf, BitVec.testBit_toNat, BitVec.getLsbD_append, if_neg (by omega), Nat.add_sub_cancel_left]
  by_cases hj : j < hi + 1 - b
  · rw [decide_eq_true hj, Bool.true_and]
  · rw [decide_eq_false hj, Bool.false_and, BitVec.getLsbD_of_ge _ _ (by omega)]

theorem bitsOf_extract {w n lo hi : Nat} (x : BitVec w) (h : hi < n) : bitsOf (x.extractLsb' lo n) hi 0 = bitsOf x (lo + hi) lo := by
  refine Nat.eq_of_testBit_eq fun j => ?_
  rw [testBit_bitsOf, testBit_bitsOf, BitVec.getLsbD_extractLsb', Nat.zero_add]
  by_cases hj : j < hi + 1
  · rw [decide_eq_true (show j < n by omega), decide_eq_true (show j < lo + hi + 1 - lo by omega), decide_eq_true (show j < hi + 1 - 0 by omega)]
    simp
  · rw [decide_eq_false (show ¬j < hi + 1 - 0 by omega), decide_eq_false (show ¬j < lo + hi + 1 - lo by omega)]
    simp

end Sys2Proof.Machine
end
section
/-! PROOF. Endpoint events (R455 to R458). -/

namespace Sys2Proof.Machine

/-- A source has been raised, if its route lets it pend. -/
def State.announced (s : State) (k : SliceId) (src : Nat) (t : State) : Prop :=
  (s.sliceReg k (0x770 + src)).getLsbD 11 = false → (t.sliceReg k (0x770 + src)).getLsbD 27 = true

section
variable {s : State} {i : SliceId} {port : Fin 2} {bar2 : Bool} {off n : Nat} {value : Word}

/-! ### Inbound requests -/

theorem State.epInboundRequest_load (quiet : s.injectorOff) (h : s.mayLoad i port.val bar2 off n) :
    s.does (.epInboundRequest i port bar2 off (.load n)) fun t =>
      s.sameMemory t ∧ t.outRead = BitVec.ofNat 64 (memReadLE s.mem (s.barBase i port.val bar2 + off) n) :=
  State.does_of_eq (congrArg Host.Outcome.next ((State.inbound_load h).trans (State.outsideLoad_off quiet _ _))) ⟨fun _ => rfl, rfl⟩

theorem State.epInboundRequest_load_of_not (h : ¬s.mayLoad i port.val bar2 off n) : s.does (.epInboundRequest i port bar2 off (.load n)) fun t => t = s :=
  State.does_of_eq (congrArg Host.Outcome.next (State.inbound_load_of_not h)) rfl

theorem State.epInboundRequest_store (h : s.mayStore i port.val bar2 n off) (plain : bar2 = false ∨ off + n ≤ 0x800) :
    s.does (.epInboundRequest i port bar2 off (.store n value)) (s.storedAt (s.barBase i port.val bar2) value n off) := by
  refine State.does_of_eq (congrArg Host.Outcome.next (State.inbound_store value h)) fun x => ?_
  have pos : 0 < n := h.2.1
  have stored := s.storedAt_outsideStore (s.barBase i port.val bar2) value n off x
  have noTable : (bar2 && (0x800 ≤ off : Bool) && (off < 0x840 : Bool)) = false := by
    rcases plain with rfl | le
    · rfl
    · rw [decide_eq_false (show ¬0x800 ≤ off by omega), Bool.and_false, Bool.false_and]
  simp only [noTable, Bool.false_eq_true, if_false]
  split
  · rw [(State.ringMailbox_spec _ i port.isLt).1, stored]
  · exact stored

theorem State.epInboundRequest_store_of_not (h : ¬s.mayStore i port.val bar2 n off) :
    s.does (.epInboundRequest i port bar2 off (.store n value)) fun t => t = s :=
  State.does_of_eq (congrArg Host.Outcome.next (State.inbound_store_of_not value h)) rfl

/-- A store to the doorbell is kept, and rings the mailbox. -/
theorem State.epDoorbell_rings (h : s.mayStore i port.val true 8 0x40) : s.does (.epDoorbell i port value) fun t =>
    s.storedAt (s.barBase i port.val true) value 8 0x40 t ∧ (t.epstat i port.val).getLsbD 3 = true ∧ s.announced i 0xB t := by
  refine State.does_of_eq (congrArg Host.Outcome.next (State.inbound_store value h)) ?_
  obtain ⟨mem, rung, raised⟩ := State.ringMailbox_spec (s.outsideStore (s.barBase i port.val true + 0x40) (natToBytes value.toNat 8)) i port.isLt
  refine ⟨fun x => ?_, rung, fun routed => raised ?_⟩
  · exact (congrArg (memGet · x) mem).trans (s.storedAt_outsideStore _ value 8 0x40 x)
  · rw [State.sliceReg_outsideStore, routed]

theorem State.epDoorbell_of_not (h : ¬s.mayStore i port.val true 8 0x40) : s.does (.epDoorbell i port value) fun t => t = s :=
  State.does_of_eq (congrArg Host.Outcome.next (State.inbound_store_of_not value h)) rfl

/-! ### Messages -/

/-- The pending bit of a vector. -/
def State.msixPends (s : State) (page v : Nat) : Bool := (memGet s.mem (page + 0xC00)).getLsbD v

/-- A vector is masked. -/
def State.msixHeld (s : State) (i : SliceId) (p v : Nat) : Prop :=
  tabGet false (s.slice i).epMask p = true ∨ (memGet s.mem ((s.epBars i p).2.2 + 0x800 + 16 * v + 12)).getLsbD 0 = true

theorem State.msixHeld_iff {p v : Nat} : s.msixMasked i p v = true ↔ s.msixHeld i p v := by
  rw [State.msixMasked, Bool.or_eq_true]
  rfl

theorem State.exec_epmsiWrite : exec (.epmsiWrite i port value) s = .next (
    if !(s.epstat i port.val).getLsbD 0 then s
    else if s.msixMasked i port.val (bitsOf value 1 0) then s.setMsixPending i port.val (bitsOf value 1 0) true
    else s.sendMsix i port.val (bitsOf value 1 0)) := rfl

theorem State.epmsiWrite_off (off : (s.epstat i port.val).getLsbD 0 = false) : s.does (.epmsiWrite i port value) fun t => t = s :=
  State.does_of_eq State.exec_epmsiWrite (if_pos (by rw [off]; rfl))

theorem State.epmsiWrite_held (on : (s.epstat i port.val).getLsbD 0 = true) (h : s.msixHeld i port.val (bitsOf value 1 0)) :
    s.does (.epmsiWrite i port value) fun t => t.msixPends (s.epBars i port.val).2.2 (bitsOf value 1 0) = true
      ∧ (∀ j < 8, j ≠ bitsOf value 1 0 → t.msixPends (s.epBars i port.val).2.2 j = s.msixPends (s.epBars i port.val).2.2 j)
      ∧ (t.slice i).epMsis = (s.slice i).epMsis ∧ ∀ x, x ≠ (s.epBars i port.val).2.2 + 0xC00 → memGet t.mem x = memGet s.mem x := by
  refine State.does_of_eq State.exec_epmsiWrite ?_
  rw [if_neg (by rw [on]; exact Bool.false_ne_true), if_pos (State.msixHeld_iff.2 h)]
  have lt : bitsOf value 1 0 < 2 ^ 2 := bitsOf_lt ..
  have bit {j : Nat} (hj : j < 8) : (s.setMsixPending i port.val (bitsOf value 1 0) true).msixPends (s.epBars i port.val).2.2 j
      = if j = bitsOf value 1 0 then true else s.msixPends (s.epBars i port.val).2.2 j := by
    have byte : memGet (s.setMsixPending i port.val (bitsOf value 1 0) true).mem ((s.epBars i port.val).2.2 + 0xC00)
        = putBit (s.msixPending i port.val) (bitsOf value 1 0) true := by
      rw [State.setMsixPending, memGet_memSet]
      exact if_pos rfl
    rw [State.msixPends, byte, getLsbD_putBit _ _ _ hj]
    rfl
  refine ⟨(bit (by omega)).trans (if_pos rfl), fun j hj ne => (bit hj).trans (if_neg ne), rfl, fun x ne => ?_⟩
  rw [State.setMsixPending, memGet_memSet]
  exact if_neg ne

theorem State.epmsiWrite_sends (on : (s.epstat i port.val).getLsbD 0 = true) (h : ¬s.msixHeld i port.val (bitsOf value 1 0)) :
    s.does (.epmsiWrite i port value) fun t => s.sameMemory t ∧ (t.slice i).epMsis = (port.val, bitsOf value 1 0) :: (s.slice i).epMsis := by
  refine State.does_of_eq State.exec_epmsiWrite ?_
  rw [if_neg (by rw [on]; exact Bool.false_ne_true), if_neg fun masked => h (State.msixHeld_iff.1 masked)]
  refine ⟨fun _ => rfl, ?_⟩
  rw [State.sendMsix, State.slice_modSlice, if_pos rfl]

/-! ### The link -/

theorem State.exec_epLinkUp : exec (.epLinkUp i port) s = .next (
    if (s.epstat i port.val).getLsbD 0 && !(s.epstat i port.val).getLsbD 1 then s.setEpstat i port.val (putBit (s.epstat i port.val) 1 true) else s) := rfl

theorem State.epLinkUp_rises (on : (s.epstat i port.val).getLsbD 0 = true) (down : (s.epstat i port.val).getLsbD 1 = false) :
    s.does (.epLinkUp i port) fun t => s.sameMemory t ∧ (t.epstat i port.val).getLsbD 1 = true ∧ bitsOf (t.epstat i port.val) 63 32 = s.stampBits 32 := by
  refine State.does_of_eq State.exec_epLinkUp ?_
  rw [if_pos (by rw [on, down]; rfl)]
  have rises : ((s.setEpstat i port.val (putBit (s.epstat i port.val) 1 true)).epstat i port.val).getLsbD 1 = true := by
    rw [State.getLsbD_epstat_setEpstat _ _ _ _ (by omega), getLsbD_putBit _ _ _ (by omega), if_pos rfl]
  refine ⟨fun x => ?_, rises, ?_⟩
  · rw [(s.keeps_setEpstat (π := fun _ => ()) (fun _ _ => rfl) ..).mem]
  · rw [State.setEpstat] at rises ⊢
    split_ifs with same
    · rw [if_pos same, down] at rises
      exact absurd rises Bool.false_ne_true
    · rw [State.epstat, State.sliceReg_setSliceReg, if_pos ⟨rfl, rfl⟩, bitsOf_setBits_same _ _ (by omega)]
      exact Nat.mod_mod _ _

theorem State.epLinkUp_stays (h : (s.epstat i port.val).getLsbD 0 = false ∨ (s.epstat i port.val).getLsbD 1 = true) :
    s.does (.epLinkUp i port) fun t => t = s := by
  refine State.does_of_eq State.exec_epLinkUp (if_neg ?_)
  rcases h with h | h
  · rw [h, Bool.false_and]
    exact Bool.false_ne_true
  · rw [h, Bool.not_true, Bool.and_false]
    exact Bool.false_ne_true

/-! ### Hot reset -/

theorem State.epHotReset_off (off : (s.epstat i port.val).getLsbD 0 = false) : s.does (.epHotReset i port) fun t => t = s := by
  refine State.does_of_eq rfl (if_neg ?_)
  rw [bitAt, off]
  exact Bool.false_ne_true

/-- The function as the upstream host finds it after a reset. -/
def State.epCleared (s : State) (i : SliceId) (p : Nat) : State :=
  ((s.setEpstat i p (putBit (putBit (s.epstat i p) 1 false) 2 true)).outsideStore
      ((s.setEpstat i p (putBit (putBit (s.epstat i p) 1 false) 2 true)).epPage i p) (List.replicate 4096 0)).modSlice i fun k =>
    { k with epD3 := tabDel k.epD3 p, epMask := tabDel k.epMask p, epCfg := tabDel k.epCfg p }

/-- The function once the reset has ended. -/
def State.epReset (s : State) (i : SliceId) (p : Nat) : State :=
  ((s.epCleared i p).setEpstat i p (putBit ((s.epCleared i p).epstat i p) 2 false)).raiseSource i 0x7

theorem State.exec_epHotReset (on : (s.epstat i port.val).getLsbD 0 = true) : exec (.epHotReset i port) s = .next (s.epReset i port.val) :=
  congrArg Host.Outcome.next (if_pos on)

theorem State.sliceReg_epCleared (s : State) (i : SliceId) (p n : Nat) :
    (s.epCleared i p).sliceReg i n = (s.setEpstat i p (putBit (putBit (s.epstat i p) 1 false) 2 true)).sliceReg i n := by
  rw [State.sliceReg, State.epCleared, State.slice_modSlice, if_pos rfl]
  exact State.sliceReg_outsideStore ..

theorem State.epBars_congr {t : State} (h : (t.slice i).ep = (s.slice i).ep) (p : Nat) : t.epBars i p = s.epBars i p := by
  rw [State.epBars, State.epBars, h]

theorem State.mem_epCleared (s : State) (i : SliceId) (p : Nat) : (s.epCleared i p).mem = memWrite s.mem (s.epBars i p).2.2 (List.replicate 4096 0) := by
  have page : (s.setEpstat i p (putBit (putBit (s.epstat i p) 1 false) 2 true)).epPage i p = (s.epBars i p).2.2 :=
    congrArg (·.2.2) (State.epBars_congr ((s.keeps_setEpstat (π := Slice.ep) (fun _ _ => rfl) ..).slice i) p)
  rw [State.epCleared]
  generalize List.replicate 4096 (0 : Byte) = zeros
  refine (State.mem_outsideStore ..).trans ?_
  rw [page, (s.keeps_setEpstat (π := fun _ => ()) (fun _ _ => rfl) ..).mem]

theorem State.keeps_epReset {β : Type} {π : Slice → β} (h : ∀ (k : Slice) r, π { k with regs := r } = π k) (s : State) (i : SliceId) (p : Nat) :
    (s.epCleared i p).keeps π (s.epReset i p) := (State.keeps_setEpstat h ..).trans (State.keeps_raiseSource h ..)

/-- The link is down, and no reset is under way. -/
theorem State.epstat_epReset (s : State) (i : SliceId) {p : Nat} (hp : p < 2) {j : Nat} (hj : j < 32) :
    ((s.epReset i p).epstat i p).getLsbD j = if j = 2 then false else if j = 1 then false else (s.epstat i p).getLsbD j := by
  rw [State.epReset, State.epstat_raiseSource _ _ _ hp, State.getLsbD_epstat_setEpstat _ _ _ _ hj, getLsbD_putBit _ _ _ (by omega), State.epstat,
    State.sliceReg_epCleared, ← State.epstat, State.getLsbD_epstat_setEpstat _ _ _ _ hj, getLsbD_putBit _ _ _ (by omega),
    getLsbD_putBit _ _ _ (by omega)]
  split_ifs <;> rfl

theorem State.epHotReset_resets (on : (s.epstat i port.val).getLsbD 0 = true) : s.does (.epHotReset i port) fun t =>
    (t.epstat i port.val).getLsbD 0 = true ∧ (t.epstat i port.val).getLsbD 1 = false ∧ (t.epstat i port.val).getLsbD 2 = false ∧ s.announced i 0x7 t
      ∧ tabGet false (t.slice i).epD3 port.val = false ∧ tabGet false (t.slice i).epMask port.val = false
      ∧ ∀ x, memGet t.mem x = if (s.epBars i port.val).2.2 ≤ x ∧ x < (s.epBars i port.val).2.2 + 4096 then 0 else memGet s.mem x := by
  refine State.does_of_eq (State.exec_epHotReset on) ?_
  have bit {j : Nat} (hj : j < 32) := s.epstat_epReset i port.isLt hj
  refine ⟨(bit (by omega)).trans on, bit (by omega), bit (by omega), fun routed => ?_, ?_, ?_, fun x => ?_⟩
  · refine State.pending_raiseSource _ _ _ ?_
    rw [State.sliceReg_setEpstat_source _ _ port.isLt, State.sliceReg_epCleared, State.sliceReg_setEpstat_source _ _ port.isLt, routed]
  · rw [(State.keeps_epReset (π := Slice.epD3) (fun _ _ => rfl) ..).slice, State.epCleared, State.slice_modSlice, if_pos rfl, tabGet_tabDel, if_pos rfl]
  · rw [(State.keeps_epReset (π := Slice.epMask) (fun _ _ => rfl) ..).slice, State.epCleared, State.slice_modSlice, if_pos rfl, tabGet_tabDel, if_pos rfl]
  · rw [(State.keeps_epReset (π := fun _ => ()) (fun _ _ => rfl) ..).mem]
    rw [State.mem_epCleared, memGet_memWrite, List.length_replicate]
    refine if_congr Iff.rfl ?_ rfl
    rw [List.getD_eq_getElem?_getD, List.getElem?_replicate]
    split_ifs <;> rfl

end

end Sys2Proof.Machine
end
section
/-! PROOF. The endpoints' configuration space (R456), and the resets of a slice and of the module. -/

namespace Sys2Proof.Machine

/-! ### Configuration (R456) -/

theorem and_low_eq (v : W32) : v &&& 0xFFFF = BitVec.ofNat 32 (bitsOf v 15 0) := by
  refine BitVec.eq_of_toNat_eq ?_
  rw [BitVec.toNat_and, show (0xFFFF : W32).toNat = 2 ^ 16 - 1 from rfl, Nat.and_two_pow_sub_one_eq_mod, BitVec.toNat_ofNat, bitsOf, Nat.shiftRight_zero]
  omega

theorem and_page_eq (v : W32) : v &&& 0xFFFFF000 = BitVec.ofNat 32 (bitsOf v 31 12 * 4096) := by
  have lt : bitsOf v 31 12 < 2 ^ 20 := bitsOf_lt ..
  refine BitVec.eq_of_toNat_eq (Nat.eq_of_testBit_eq fun j => ?_)
  have mask : (0xFFFFF000 : W32).toNat = (2 ^ 20 - 1) * 2 ^ 12 := rfl
  rw [BitVec.toNat_and, Nat.testBit_and, BitVec.testBit_toNat, mask, BitVec.toNat_ofNat, Nat.mod_eq_of_lt (by omega), show 4096 = 2 ^ 12 from rfl,
    Nat.testBit_mul_two_pow, Nat.testBit_mul_two_pow, Nat.testBit_two_pow_sub_one, testBit_bitsOf]
  by_cases hj : 12 ≤ j
  · rw [Nat.add_sub_cancel' hj]
    by_cases top : j - 12 < 20
    · simp [hj, top]
    · simp [top]
  · simp [hj]

theorem or_page_eq (v : W32) : BitVec.ofNat 32 (bitsOf v 31 12 * 4096) ||| 0x4 = BitVec.ofNat 32 (bitsOf v 31 12 * 4096 + 4) := by
  have lt : bitsOf v 31 12 < 2 ^ 20 := bitsOf_lt ..
  refine BitVec.eq_of_toNat_eq ?_
  rw [BitVec.toNat_or, BitVec.toNat_ofNat, BitVec.toNat_ofNat, Nat.mod_eq_of_lt (by omega), Nat.mod_eq_of_lt (by omega), Nat.mul_comm]
  exact (Nat.two_pow_add_eq_or_of_lt (i := 12) (b := 4) (by omega) _).symm

section
variable {s : State} {i : SliceId} {port : Fin 2} {off : Nat} {val : W32}

/-- What the configuration space keeps of what has been written. -/
def State.epKept (s : State) (i : SliceId) (p o : Nat) : W32 := tabGet 0 (tabGet [] (s.slice i).epCfg p) o

theorem State.epCfg_flushMsix (s : State) (i : SliceId) (p : Nat) : ((s.flushMsix i p).slice i).epCfg = (s.slice i).epCfg := by
  refine foldl_same (fun s => (s.slice i).epCfg) (fun s v => ?_) _ s
  split_ifs
  · rw [State.sendMsix, State.slice_modSlice, if_pos rfl]
    rfl
  · rfl

theorem State.epConfigWrite_off
    (h : (s.epstat i port.val).getLsbD 0 = false ∨ (s.epstat i port.val).getLsbD 1 = false ∨ (s.epstat i port.val).getLsbD 2 = true) :
    s.does (.epConfigWrite i port off val) fun t => t = s := by
  refine State.does_of_eq rfl (if_pos ?_)
  rcases h with h | h | h <;> simp only [bitAt, h, Bool.not_false, Bool.true_or, Bool.or_true]

/-- A write keeps the bits that the word has. -/
theorem State.epConfigWrite_keeps (on : (s.epstat i port.val).getLsbD 0 = true) (up : (s.epstat i port.val).getLsbD 1 = true)
    (calm : (s.epstat i port.val).getLsbD 2 = false) : s.does (.epConfigWrite i port off val) fun t =>
      ∀ o, t.epKept i port.val o = if o = off then val &&& epCfgMask off (s.epBars i port.val).2.1 else s.epKept i port.val o := by
  refine State.does_of_eq rfl fun o => ?_
  rw [if_neg (by simp only [bitAt, on, up, calm]; decide), State.epKept, State.epCfg_flushMsix, State.slice_modSlice, if_pos rfl, tabGet_tabSet,
    if_pos rfl, tabGet_tabSet]
  rfl

end

theorem State.epConfig_vendor (s : State) (i : SliceId) (p : Nat) :
    bitsOf (s.epConfig i p 0x00) 15 0 = bitsOf Config.endpointId 15 0 ∧ bitsOf (s.epConfig i p 0x00) 31 16 = 0x7B08 := by
  rw [State.epConfig, if_pos rfl]
  exact ⟨(bitsOf_append_low _ _ (by omega)).trans (bitsOf_extract _ (by omega)), bitsOf_append_high _ _ rfl⟩

theorem State.epConfig_class (s : State) (i : SliceId) (p : Nat) :
    bitsOf (s.epConfig i p 0x08) 7 0 = bitsOf Config.endpointId 23 16 ∧ bitsOf (s.epConfig i p 0x08) 31 8 = 0x120000 := by
  rw [State.epConfig, if_neg (by decide), if_neg (by decide), if_pos rfl]
  exact ⟨(bitsOf_append_low _ _ (by omega)).trans (bitsOf_extract _ (by omega)), bitsOf_append_high _ _ rfl⟩

/-- Bits that a mask takes out read 0. -/
theorem bitsOf_and_clear {w hi lo : Nat} (x m : BitVec w) (h : bitsOf m hi lo = 0) : bitsOf (x &&& m) hi lo = 0 := by
  refine Nat.eq_of_testBit_eq fun j => ?_
  have bit := congrArg (·.testBit j) h
  simp only [testBit_bitsOf] at bit ⊢
  rw [BitVec.getLsbD_and, Bool.and_comm, Bool.and_assoc, Bool.and_comm _ (decide _), bit]
  simp

theorem State.epConfig_header (s : State) (i : SliceId) (p : Nat) : bitsOf (s.epConfig i p 0x0C) 23 16 = 0 := by
  rw [State.epConfig, if_neg (by decide), if_neg (by decide), if_neg (by decide), if_pos rfl]
  exact bitsOf_and_clear _ _ rfl

theorem State.epConfig_line (s : State) (i : SliceId) (p : Nat) : bitsOf (s.epConfig i p 0x3C) 15 8 = 0 := by
  have both (x y : W32) : bitsOf ((x &&& 0xFFFF0000) ||| (y &&& 0xFF)) 15 8 = 0 := by
    have high := bitsOf_and_clear x 0xFFFF0000 (hi := 15) (lo := 8) rfl
    have low := bitsOf_and_clear y 0xFF (hi := 15) (lo := 8) rfl
    rw [bitsOf, BitVec.toNat_or, Nat.shiftRight_or_distrib, Nat.or_mod_two_pow]
    exact (congrArg₂ (· ||| ·) high low).trans rfl
  rw [State.epConfig, if_neg (by decide), if_neg (by decide), if_neg (by decide), if_neg (by decide), if_neg (by decide), if_neg (by decide),
    if_neg (by decide), if_neg (by decide), if_pos rfl]
  exact both _ _

/-! ### Resets -/

/-- A slice reset keeps memory, and leaves the slice as it is after power-on and every other slice as it was. -/
structure State.resetsSlice (i : SliceId) (s t : State) : Prop where
  mem : t.mem = s.mem
  own : t.slice i = {}
  other : ∀ j, j ≠ i → t.slice j = s.slice j

/-- The state with what runs on a slice gone, and bytes of chip scratchpads put back. -/
def State.putBack (s : State) (i : SliceId) (chips : List Memory) : State :=
  allParts.foldl (fun s p => s.modPart p fun q => { q with chip := chips.getD p.val [] }) { s.clearSlices [i] with mem := s.mem, poison := s.poison }

theorem State.exec_sliceReset (s : State) (i : SliceId) (unlocked : BitVec 96) : exec (.sliceReset i unlocked) s = .next (
    ((List.range 96).filter fun n => bitAt unlocked n).foldl (fun s n => s.ringFailed i n)
      ((s.putBack i (allParts.map fun p => (s.part p).chip)).setSlice i {})) := rfl

theorem State.putBack_same {β : Type} (g : State → β) (hg : ∀ (s : State) prc, g { s with prc := prc } = g s) (s : State) (i : SliceId)
    (chips : List Memory) :
    g (s.putBack i chips) = g { s.clearSlices [i] with mem := s.mem, poison := s.poison } := foldl_same g (fun s _ => hg s _) allParts _

theorem State.sliceReset_resets (s : State) (i : SliceId) : s.does (.sliceReset i 0) (s.resetsSlice i) := by
  refine State.does_of_eq (s.exec_sliceReset i 0) ?_
  generalize (allParts.map fun p => (s.part p).chip) = chips
  have locked : ((List.range 96).filter fun n => bitAt (0 : BitVec 96) n) = [] := by simp [bitAt]
  rw [locked, List.foldl_nil]
  have mem : (s.putBack i chips).mem = s.mem := s.putBack_same State.mem (fun _ _ => rfl) i chips
  refine ⟨((s.putBack i chips).keeps_setSlice (π := fun _ => ()) i rfl).mem.trans mem, by rw [State.slice_setSlice, if_pos rfl], fun j hj => ?_⟩
  rw [State.slice_setSlice, if_neg hj, s.putBack_same (State.slice · j) (fun _ _ => rfl) i chips]
  exact ((s.clearSlices_clears [i]).slice j).trans (if_neg (by simpa using hj))

theorem State.resetsSlice.sliceReg {s t : State} {i : SliceId} (h : s.resetsSlice i t) (n : Nat) : t.sliceReg i n = sliceRegReset n := by
  rw [State.sliceReg, h.own]
  rfl

theorem State.resetsSlice.core {s t : State} {i : SliceId} (h : s.resetsSlice i t) {c : CoreRef} (hc : c.slice = i) : t.core c = {} := by
  rw [State.core, hc, h.own]
  rfl

theorem State.resetsSlice.coreReg {s t : State} {i : SliceId} (h : s.resetsSlice i t) {c : CoreRef} (hc : c.slice = i) (n : Nat) :
    t.coreReg c n = coreRegReset n := by
  rw [State.coreReg, h.core hc]
  rfl

theorem State.resetsSlice.free {s t : State} {i : SliceId} (h : s.resetsSlice i t) {g : GroupRef} (hg : g.slice = i) : (t.group g).st = .free := by
  rw [State.group, h.core (c := g.at) hg]
  rfl

theorem State.modulePowerOnReset_resets (s : State) :
    s.does .modulePowerOnReset fun t => t = { State.reset with schedule := s.schedule, fresh := s.fresh } := State.does_of_eq rfl rfl

end Sys2Proof.Machine
end
section
/-! PROOF. The life of a partition and its endpoints (R444 to R458). -/

namespace Sys2Proof.Machine

theorem State.does.mono {s : State} {i : Instr} {P Q : State → Prop} (h : s.does i P) (k : ∀ t, P t → Q t) : s.does i Q :=
  h.imp fun t ht => ht.imp_right (k t)

/-! ### FUSE (R446) -/

/-- The entry of a port without its count, by what forming lets it pass. -/
theorem State.dykesFormed.field {p : PartId} {is : List SliceId} {i : SliceId} {t : State} (h : t.dykesFormed p is i) {q : Nat} (hq : q < 14)
    (hd : hasDyke i q = true) : bitsOf (t.sliceReg i (0x780 + q)) 16 0 =
      if (∀ k, neighbour i q = some k → k ∈ is) ∧ (q < 8 ∨ 10 < q ∨ (neighbour i q).isSome) then 2 ^ p.val + 2 ^ (8 + p.val) + 2 ^ 16 else 0 := by
  have low : bitsOf (t.sliceReg i (0x780 + q)) 16 0 = t.dyke i q % 2 ^ 17 := by
    rw [State.dyke, bitsOf, bitsOf, Nat.mod_mod_of_dvd _ (pow_dvd_pow 2 (by omega))]
  rw [low, h q hq hd, if_congr (portOpens_iff is i q) rfl rfl]
  split_ifs
  · exact Nat.mod_eq_of_lt (dykeOf_lt p)
  · rfl

theorem ne_nil_of_edgeConnected {is : List SliceId} (h : edgeConnected is = true) : is ≠ [] := by
  rintro rfl
  exact absurd h (by decide)

section
variable {s : State} {m : Frame} {p : PartId} (hb : s.booting = false) (hw : asksFor (frame16 m.words) 0x10)
  {is : List SliceId} (his : is = maskSlices (bitsOf (wordAt (frame16 m.words) 2) 7 0))
include hb hw his

theorem State.fuse_unfit (unfit : ¬((∃ r, s.partValid r = false) ∧ (∀ i ∈ is, s.partOf i = none) ∧ edgeConnected is = true)) :
    s.does (.fuse .management m) (s.told (frame16 m.words) { status := 1, reason := 0x05 }) := by
  refine State.does_of_eq (exec_fuse s m hb hw) ?_
  rw [State.fuseCheck_unfit his unfit]
  rfl

theorem State.fuse_bad (fits : (∃ r, s.partValid r = false) ∧ (∀ i ∈ is, s.partOf i = none) ∧ edgeConnected is = true) (bad : ¬s.goodFuse (frame16 m.words)) :
    s.does (.fuse .management m) (s.told (frame16 m.words) { status := 1, reason := 0x01 }) := by
  obtain ⟨⟨r, hr⟩, free, edge⟩ := fits
  obtain ⟨q, found⟩ := Option.isSome_iff_exists.1 ((List.find?_isSome (p := fun r => !s.partValid r)).2 ⟨r, mem_allParts r, by rw [hr]; rfl⟩)
  refine State.does_of_eq (exec_fuse s m hb hw) ?_
  rw [(State.fuseCheck_fit his found free edge).2 bad]
  rfl

/-- Free slices of a set that is connected become the lowest free partition. -/
theorem State.fuse_fits (free : ∀ i ∈ is, s.partOf i = none) (edge : edgeConnected is = true) (good : s.goodFuse (frame16 m.words))
    (hp : s.partValid p = false) (first : ∀ r < p, s.partValid r = true) :
    exec (.fuse .management m) s = .next (s.fusePartition p is (frame16 m.words) (frame16 m.words) false) := by
  have found : (allParts.find? fun p => !s.partValid p) = some p := partFind_eq (by rw [hp]; rfl) fun r hr => by rw [first r hr]; rfl
  rw [exec_fuse s m hb hw, (State.fuseCheck_fit his found free edge).1 good, his]
  rfl
end

/-! ### The message interface -/

theorem State.unformed_refused {s : State} {m : Frame} {p : PartId} (hb : s.booting = false)
    (hp : idx 8 (bitsOf (wordAt (frame16 m.words) 2) 2 0) = p) (out : s.partValid p = false) {n : Nat} {i : Instr}
    (hi : (n = 0x11 ∧ i = .unfuse .management m) ∨ (n = 0x13 ∧ i = .resetp .management m)) (hw : asksFor (frame16 m.words) n) :
    s.does i (s.told (frame16 m.words) { status := 1, reason := 0x01 }) := by
  have answer (free : Bool) : s.resetMessage .management m n free = s.answer .management (frame16 m.words) (refused 0x01) :=
    (resetMessage_eq s m hp free hb hw).trans (if_neg (by rw [out]; exact Bool.false_ne_true))
  rcases hi with ⟨rfl, rfl⟩ | ⟨rfl, rfl⟩
  · exact State.does_of_eq (congrArg Host.Outcome.next (answer true)) rfl
  · exact State.does_of_eq (congrArg Host.Outcome.next (answer false)) rfl

/-- No partition's message is acted upon while the module boots. -/
theorem State.booting_waits {s : State} (m : Frame) (hb : s.booting = true) :
    s.does (.fuse .management m) (fun t => t = s) ∧ s.does (.unfuse .management m) (fun t => t = s) ∧ s.does (.resetp .management m) (fun t => t = s)
      ∧ (asksFor (frame16 m.words) 0x12 → s.does (.move .management m) (fun t => t = s) ∧ s.does (.moveAbandon .management m) fun t => t = s) :=
  ⟨State.does_of_eq (exec_fuse_booting s m hb) rfl, State.does_of_eq rfl (resetMessage_booting s m _ _ hb),
    State.does_of_eq rfl (resetMessage_booting s m _ _ hb),
    fun hw => ⟨State.does_of_eq (exec_move_booting hw hb).1 rfl, State.does_of_eq (exec_move_booting hw hb).2 rfl⟩⟩

/-! ### The fetch -/

theorem State.noFetch_stays {s : State} {p : PartId} (none : (s.part p).boot = none) (words : List W32) :
    s.does (.bootFetchCompletion p words) (fun t => t = s) ∧ s.does (.bootFetchTimeout p) fun t => t = s := by
  refine ⟨State.does_of_eq (t := s) ?_ rfl, State.does_of_eq (t := s) ?_ rfl⟩
  · rw [show exec (.bootFetchCompletion p words) s = execBootFetchCompletion p words s from rfl, execBootFetchCompletion, none]
  · rw [show exec (.bootFetchTimeout p) s = execBootFetchTimeout p s from rfl, execBootFetchTimeout, none]

/-- A window is asked for again, or the fetch goes to the next port, or the boot fails. -/
def State.retries (s : State) (p : PartId) (k : SliceId) (f : BootFetch) (i : Instr) : Prop :=
  (f.tries < 4 → f.port < 8 → (s.port k f.port).st = 2 → s.does i (s.fetchAgain p f))
    ∧ (4 ≤ f.tries → (∀ q, s.nextPort k f q → s.does i (s.fetchOn p f q f.sigFail)) ∧ (s.noNextPort k f → s.does i (s.fetchFails p f (failReason f))))

section
variable {s : State} {p : PartId} {k : SliceId} {f : BootFetch} (hk : s.lowestSlice p = some k)
include hk

theorem State.retries_of_exec {i : Instr} (e : exec i s = .next (s.bootRetry p f)) : s.retries p k f i :=
  have ⟨again, on⟩ := State.bootRetry_spec hk
  ⟨fun ht hp up => State.does_of_eq e (again ht hp up),
    fun ht => ⟨fun q hq => State.does_of_eq e ((on ht).1 q hq), fun none => State.does_of_eq e ((on ht).2 none)⟩⟩

variable (hb : (s.part p).boot = some f)
include hb

theorem State.timeout_retries (late : f.since.toNat + 100000000 ≤ s.now.toNat) : s.retries p k f (.bootFetchTimeout p) :=
  State.retries_of_exec hk ((exec_bootFetchTimeout hb).trans (congrArg Host.Outcome.next (if_pos late)))

omit hk in
theorem State.timeout_waits (early : s.now.toNat < f.since.toNat + 100000000) : s.does (.bootFetchTimeout p) fun t => t = s :=
  State.does_of_eq ((exec_bootFetchTimeout hb).trans (congrArg Host.Outcome.next (if_neg (by omega)))) rfl

variable {words : List W32}

omit hk in
theorem State.otherCompletion_stays (other : completes (s.part p).fuseArgs f words = false) : s.does (.bootFetchCompletion p words) fun t => t = s :=
  State.does_of_eq ((exec_bootFetchCompletion hb words).1 other) rfl

variable (done : completes (s.part p).fuseArgs f words = true)
include done

theorem State.completion_retries (stat : bitsOf (wordAt words 0) 15 8 = 3) : s.retries p k f (.bootFetchCompletion p words) :=
  State.retries_of_exec hk (((exec_bootFetchCompletion hb words).2 done).1 stat)

/-- A completion of another status ends the fetch on its port. -/
theorem State.completion_moves (stat0 : bitsOf (wordAt words 0) 15 8 ≠ 0) (stat3 : bitsOf (wordAt words 0) 15 8 ≠ 3) :
    (∀ q, s.nextPort k f q → s.does (.bootFetchCompletion p words) (s.fetchOn p f q f.sigFail))
      ∧ (s.noNextPort k f → s.does (.bootFetchCompletion p words) (s.fetchFails p f (failReason f))) :=
  have e := ((exec_bootFetchCompletion hb words).2 done).2.1 stat0 stat3
  have ⟨next, last⟩ := State.bootNextPort_spec hk
  ⟨fun q hq => State.does_of_eq e (next q hq), fun h => State.does_of_eq e (last h)⟩

variable (good : bitsOf (wordAt words 0) 15 8 = 0)
include good

omit hk in
theorem State.exec_window : exec (.bootFetchCompletion p words) s = .next (s.windowWritten p f (dwordAt words 10).toNat) :=
  ((exec_bootFetchCompletion hb words).2 done).2.2 good

omit hk in
theorem State.completion_wrong (wrong : fetchTotal f words ≠ s.imageLength p) :
    s.does (.bootFetchCompletion p words) (s.fetchFails p f (failReason f)) :=
  State.does_of_eq (State.exec_window hb done good) (State.windowWritten_of_wrong wrong)

variable (total : fetchTotal f words = s.imageLength p) (small : s.imageLength p ≤ 2 ^ 36)
include total small

theorem State.completion_more (more : f.offset + 0x100000 < s.imageLength p) (hp : f.port < 8) (up : (s.port k f.port).st = 2) :
    s.does (.bootFetchCompletion p words) fun t => s.sameMemory t
      ∧ (t.part p).boot = some { f with total := fetchTotal f words, offset := f.offset + 0x100000, tries := 1, since := s.now } :=
  State.does_of_eq (State.exec_window hb done good) (State.windowWritten_of_more hk total small more hp up)

variable (last : s.imageLength p ≤ f.offset + 0x100000)
include last

omit hk in
theorem State.completion_boots (checks : s.bootChecks p = true) (keep : f.thenFree = false) (hne : s.memberSlices p ≠ []) :
    s.does (.bootFetchCompletion p words) fun t => s.sameMemory t ∧ (t.part p).boot = none ∧ (t.part p).booted = true
      ∧ t.prc.mgmt = replyFrame f.frame { values := [(2, BitVec.ofNat 32 p.val)] } :: s.prc.mgmt
      ∧ (t.part p).bootm = sha384 (memRead s.mem (((s.memberSlices p).headD 0).val * 2 ^ 37) (256 + (dwordAt (s.bootHeader p) 4).toNat))
      ∧ (∃ pc, (t.part p).hart0 = some (pc, BitVec.ofNat 64 p.val, BitVec.ofNat 64 (((s.memberSlices p).headD 0).val * 2 ^ 37)))
      ∧ ∀ i ∈ s.memberSlices p, (t.slice i).hostHeld = false := by
  refine State.does_of_eq (State.exec_window hb done good) ?_
  rw [State.windowWritten_of_last total small last, if_pos checks]
  exact s.releaseHost_spec p (f := { f with total := fetchTotal f words }) keep hne

theorem State.completion_bad (bad : s.bootChecks p = false) :
    (∀ q, s.nextPort k f q → s.does (.bootFetchCompletion p words) (s.fetchOn p f q true))
      ∧ (s.noNextPort k f → s.does (.bootFetchCompletion p words) (s.fetchFails p f 0x04)) :=
  have e := State.exec_window hb done good
  have ⟨next, failed⟩ := State.windowWritten_of_bad hk total small last bad
  ⟨fun q hq => State.does_of_eq e (next q hq), fun h => State.does_of_eq e (failed h)⟩
end

/-! ### MOVE (R450) -/

/-- The answer of the management interface leaves the marks of a hand-over. -/
theorem State.marks.answered {a b : PartId} {moving : Bool} {s u : State} (h : s.marks a b moving u) (w : List W32) :
    s.told w {} (u.answer .management w accepted) ∧ s.sameMemory (u.answer .management w accepted)
      ∧ ((u.answer .management w accepted).pmap a).getLsbD 10 = moving ∧ ((u.answer .management w accepted).pmap b).getLsbD 10 = moving :=
  ⟨congrArg (replyFrame w accepted :: ·) h.mgmt, fun x => congrArg (memGet · x) h.mem, h.leaving, h.joining⟩

theorem State.part_answer (s : State) (w : List W32) (r : Reply) (p : PartId) : (s.answer .management w r).part p = s.part p := rfl

section
variable {s : State} {m : Frame} (hb : s.booting = false) (hw : asksFor (frame16 m.words) 0x12)
include hb hw

theorem State.move_refuses (plain : mvAbandon (frame16 m.words) = false) (h : s.moveRefused (frame16 m.words) = true) :
    s.does (.move .management m) (s.told (frame16 m.words) { status := 1, reason := 0x05 }) := by
  refine State.does_of_eq (exec_move_handle hw plain) ?_
  rw [hb, if_neg Bool.false_ne_true, if_pos h]
  rfl

/-- A hand-over begins. -/
theorem State.move_begins (plain : mvAbandon (frame16 m.words) = false) (h : s.moveRefused (frame16 m.words) = false) :
    s.does (.move .management m) fun t => s.told (frame16 m.words) {} t ∧ s.sameMemory t
      ∧ (t.pmap (mvFrom (frame16 m.words))).getLsbD 10 = true ∧ (t.pmap (mvTo (frame16 m.words))).getLsbD 10 = true
      ∧ (t.part (mvFrom (frame16 m.words))).move =
        some { slice := mvSlice (frame16 m.words), toPart := mvTo (frame16 m.words), step := 1, acked := false } := by
  refine State.does_of_eq (exec_move_handle hw plain) ?_
  rw [hb, if_neg Bool.false_ne_true, h, if_neg Bool.false_ne_true]
  obtain ⟨marks, move⟩ := s.startMove_spec (frame16 m.words)
  obtain ⟨told, same, leaving, joining⟩ := marks.answered (frame16 m.words)
  exact ⟨told, same, leaving, joining, by rw [State.part_answer, move]⟩

theorem State.moveAbandon_refuses (ha : mvAbandon (frame16 m.words) = true) (h : (s.part (mvFrom (frame16 m.words))).move = none
    ∨ ∃ y, (s.part (mvFrom (frame16 m.words))).move = some y
      ∧ (y.slice ≠ mvSlice (frame16 m.words) ∨ y.toPart ≠ mvTo (frame16 m.words) ∨ 4 ≤ y.step)) :
    s.does (.moveAbandon .management m) (s.told (frame16 m.words) { status := 1, reason := 0x06 }) := by
  refine State.does_of_eq (exec_moveAbandon_handle hw ha) ?_
  rw [hb, if_neg Bool.false_ne_true, State.abandon_refused h]
  rfl

theorem State.moveAbandon_ends (ha : mvAbandon (frame16 m.words) = true) {y : Move} (h : (s.part (mvFrom (frame16 m.words))).move = some y)
    (hi : y.slice = mvSlice (frame16 m.words)) (hq : y.toPart = mvTo (frame16 m.words)) (hs : y.step < 3) :
    s.does (.moveAbandon .management m) fun t => s.told (frame16 m.words) {} t ∧ (t.part (mvFrom (frame16 m.words))).move = none
      ∧ (t.pmap (mvFrom (frame16 m.words))).getLsbD 10 = false ∧ (t.pmap (mvTo (frame16 m.words))).getLsbD 10 = false := by
  refine State.does_of_eq (exec_moveAbandon_handle hw ha) ?_
  rw [hb, if_neg Bool.false_ne_true, State.abandon_before h hi hq hs]
  obtain ⟨marks, move⟩ := s.abandonHandover_spec (mvFrom (frame16 m.words)) y
  obtain ⟨told, -, leaving, joining⟩ := marks.answered (frame16 m.words)
  exact ⟨told, by rw [State.part_answer, move], leaving, hq ▸ joining⟩
end

end Sys2Proof.Machine
end
section
/-! PROOF. O60. -/

namespace Sys2Proof.Machine

/-- Settles O60, a part after the other: FUSE and the messages that form a partition again or free it, the boot fetch, MOVE, an upstream endpoint's
requests, messages, link and configuration, and the resets. -/
theorem partitionLifeAndEndpoints : Obligations.PartitionLifeAndEndpoints := by
  unfold Obligations.PartitionLifeAndEndpoints
  intro s m p words f i port value off n bar2 val y w op told goes pmap runs zeroed upPort noPort announced mine
  refine ⟨State.booting_waits m, ?fuse, ?reset, fun idle => State.noFetch_stays idle words, ?fetch, ?move, ?endpoint, ?slice, s.modulePowerOnReset_resets⟩
  case fuse =>
    intro hw hb is lease slot some' fits good
    have his : is = maskSlices (bitsOf (wordAt w 2) 7 0) := (maskSlices_bitsOf (wordAt w 2)).symm
    refine ⟨fun unfit => State.fuse_unfit hb hw his unfit, fun fit bad => State.fuse_bad hb hw his fit bad, fun ⟨_, free, edge⟩ good hp first => ?_⟩
    refine State.does_of_eq (State.fuse_fits hb hw his free edge good hp first) ?_
    obtain ⟨zero, run, entry, epoch, routes, dykes, up, unserved⟩ := fuse_forms s p (his ▸ inOrder_bitsOf (wordAt w 2)) (ne_nil_of_edgeConnected edge) w _ rfl
    refine ⟨zero, run, ⟨?_, entry.valid, entry.test, entry.lease, entry.nseg, entry.gen⟩, epoch, routes,
      fun i hi q hq hd => (dykes i hi).field hq hd, up, unserved⟩
    exact entry.mask.trans (his ▸ slicesMask_maskSlices _ (bitsOf_lt ..))
  case reset =>
    intro q hb hp
    refine ⟨fun n I hI hw out => State.unformed_refused hb hp out hI hw, fun valid free hne => ⟨fun hw => ?_, fun hw => exec_unfuse hp hb valid free hne hw⟩⟩
    refine (exec_resetp hp hb valid free hne hw).mono fun t ⟨resets, up, unserved⟩ => ?_
    obtain ⟨zero, run, entry, keys, inbox, feat, halts, saved⟩ := resets
    exact ⟨zero, run, entry, keys, inbox, feat, halts, saved, up, unserved⟩
  case fetch =>
    intro hb k again onPort next none' fails retries stat total want hne
    have hk : s.lowestSlice p = some k := State.lowestSlice_eq hne
    refine ⟨State.timeout_retries hk hb, State.timeout_waits hb, State.otherCompletion_stays hb, fun done => ?_⟩
    refine ⟨State.completion_retries hk hb done, State.completion_moves hk hb done, State.completion_wrong hb done,
      fun good len small more => State.completion_more hk hb done good len small more, fun good len small last => ⟨fun checks keep => ?_, ?_⟩⟩
    · exact State.completion_boots hb done good len small last checks keep hne
    · exact State.completion_bad hk hb done good len small last
  case move =>
    intro hw hb i a b
    refine ⟨fun ha => State.does_of_eq (exec_move_of_abandon hw ha) rfl, fun ha => State.does_of_eq (exec_moveAbandon_of_plain hw ha) rfl,
      fun plain => ⟨State.move_refuses hb hw plain, State.move_begins hb hw plain⟩, fun ha => ⟨State.moveAbandon_refuses hb hw ha, ?_⟩⟩
    exact fun h hi hq hs => State.moveAbandon_ends hb hw ha h hi hq hs
  case endpoint =>
    intro e bars page base size q pending masked mayLoad mayStore stored
    have doorbell (h : bar2 = true) : (mayStore 8 0x40 ↔ s.mayStore i port.val true 8 0x40)
        ∧ (stored 8 0x40 = s.storedAt (s.barBase i port.val true) value 8 0x40) := h ▸ ⟨Iff.rfl, rfl⟩
    have config := s.epConfig_vendor i port.val
    have cls := s.epConfig_class i port.val
    refine ⟨State.epInboundRequest_load, State.epInboundRequest_load_of_not, State.epInboundRequest_store, State.epInboundRequest_store_of_not,
      fun h may => ?_, fun h may => State.epDoorbell_of_not fun k => may ((doorbell h).1.2 k), ?_, State.epLinkUp_rises, State.epLinkUp_stays,
      State.epHotReset_resets, State.epHotReset_off, State.epConfigWrite_off, ?_, config.1, config.2, cls.1, cls.2, s.epConfig_header i port.val,
      s.epConfig_line i port.val, rfl, rfl, rfl⟩
    · rw [(doorbell h).2]
      exact State.epDoorbell_rings ((doorbell h).1.1 may)
    · exact ⟨State.epmsiWrite_off, State.epmsiWrite_held, State.epmsiWrite_sends⟩
    · refine fun on up calm => (State.epConfigWrite_keeps on up calm).mono fun t keeps => ?_
      have own : t.epKept i port.val off = val &&& epCfgMask off bars.2.1 := (keeps off).trans (if_pos rfl)
      refine ⟨own, fun o ho => (keeps o).trans (if_neg ho), fun h => ?_, fun h => ?_⟩
      · subst h
        exact own.trans (and_low_eq val)
      · subst h
        have page : t.epKept i port.val 0x18 = BitVec.ofNat 32 (bitsOf val 31 12 * 4096) := own.trans (and_page_eq val)
        exact ⟨page, (congrArg (· ||| (0x4 : W32)) page).trans (or_page_eq val)⟩
  case slice =>
    exact s.sliceReset_resets i |>.mono fun t resets =>
      ⟨fun x => by rw [resets.mem], resets.sliceReg, fun c n hc => resets.coreReg hc n, fun g hg => resets.free hg, resets.other⟩

end Sys2Proof.Machine
end
section
/-! PROOF. What module power-on reset leaves (R16, R18, R19, R23, R331, R333, R373, R389, R390, R397, R407, R416). -/

namespace Sys2Proof.Machine

theorem State.pmap_reset (p : PartId) : State.reset.pmap p = 0x100000 := by
  have : State.reset.pmap p = prcRegReset (0x840 + p.val) := rfl
  rw [this, prcRegReset, if_neg (by omega), if_pos]
  rw [Bool.and_eq_true, decide_eq_true_eq, decide_eq_true_eq]
  omega

theorem State.partValid_reset (p : PartId) : State.reset.partValid p = false := by
  rw [State.partValid, State.pmap_reset]
  decide

/-- The reset values of the registers of a slice, by number. -/
theorem sliceRegReset_eq (n : Nat) : sliceRegReset n =
    if n = 0x400 then 0x2D else if n = 0x422 then 1000000 else if n = 0x425 ∨ n = 0x426 ∨ n = 0x427 then 0x3E8100100 else if n = 0x42B then 1
    else if 0x484 ≤ n ∧ n ≤ 0x4E3 then 0x80080200 else if n = 0x4EA then 0x4000 else if 0x6B0 ≤ n ∧ n ≤ 0x6B7 then 0x14080
    else if 0x6B8 ≤ n ∧ n ≤ 0x6BF then 0x10810 else if 0x6C0 ≤ n ∧ n ≤ 0x705 then 0xFF8 else if 0x710 ≤ n ∧ n ≤ 0x755 then 0x1010001008
    else if n = 0x769 then 1 else 0 := by
  have seeps : (0x425 ≤ n ∧ n ≤ 0x427) ↔ (n = 0x425 ∨ n = 0x426 ∨ n = 0x427) := by omega
  simp only [sliceRegReset, Bool.and_eq_true, decide_eq_true_eq, seeps]

theorem Scalar.read_default (r : BitVec 6) : ({} : Scalar).read r = 0 := by
  rw [Scalar.read]
  split_ifs <;> rfl

/-- Settles O19. -/
theorem resetLeaves : Obligations.ResetLeaves :=
  ⟨rfl, fun _ => ⟨rfl, rfl⟩, fun _ => rfl, fun p => ⟨State.partValid_reset p, State.pmap_reset p, rfl⟩, rfl, rfl, rfl, rfl,
    fun _ n => sliceRegReset_eq n, fun _ _ => rfl, fun _ r => Scalar.read_default r, fun _ => rfl, rfl⟩

end Sys2Proof.Machine
end
section
/-! PROOF. Operating points: `opreq` and the changes that it asks for (R18, R170). -/

namespace Sys2Proof.Machine

/-! ### The executing agent's scalar side -/

/-- What a result leaves of the scalar side of the agent that executes. -/
def Scalar.took (c : Scalar) (d : BitVec 6) (v : Word) : Scalar := { c.write d v with spc := c.spc + 4, wait := .none, remote := false }

theorem Scalar.spc_write (c : Scalar) (d : BitVec 6) (v : Word) : (c.write d v).spc = c.spc := by
  rw [Scalar.write]
  split_ifs <;> rfl

theorem Scalar.read_took (c : Scalar) (d r : BitVec 6) (v : Word) :
    (c.took d v).read r = if r = d ∧ d ≠ 0 then storedIn d v else c.read r := by
  have wrote : (c.took d v).read r = (c.write d v).read r := rfl
  rw [wrote, Scalar.read_write]
  by_cases hr : r = d
  · subst hr
    by_cases h0 : r = 0
    · subst h0
      exact (if_neg fun k => k.2 rfl).symm
    · rw [if_pos rfl, if_neg h0, if_pos ⟨rfl, h0⟩]
  · rw [if_neg hr, if_neg fun k => hr k.1]

/-- A result is one change of the scalar side of the agent that executes. -/
theorem State.result_eq {s : State} (h : s.cur ≠ .none) (d : BitVec 6) (v : Word) : s.result d v = s.modSc s.cur fun c => c.took d v := by
  simp only [State.result, State.advance, State.setSpc, State.setSreg, State.spc, State.modSc_cur, State.scOf_modSc _ _ _ h, State.modSc_modSc,
    Scalar.spc_write]
  rw [← s.modSc_const s.cur (fun c => c.took d v), ← s.modSc_const s.cur]
  rfl

section
variable {s : State} (h : s.cur ≠ .none) (d : BitVec 6) (v : Word)
include h

theorem State.sreg_result (r : BitVec 6) : (s.result d v).sreg r = if r = d ∧ d ≠ 0 then storedIn d v else s.sreg r := by
  rw [State.result_eq h, State.sreg, State.modSc_cur, State.scOf_modSc _ _ _ h, Scalar.read_took]
  rfl

theorem State.spc_result : (s.result d v).spc = s.spc + 4 := by
  rw [State.result_eq h, State.spc, State.modSc_cur, State.scOf_modSc _ _ _ h]
  rfl

theorem State.mem_result : (s.result d v).mem = s.mem := by rw [State.result_eq h, State.modSc_mem]

end

/-- What a change of a scalar side leaves alone. -/
theorem State.keeps_modSc {β : Type} {π : Slice → β} (hπ : ∀ (k : Slice) c, π { k with cores := c } = π k) (s : State) (a : Agent) (f : Scalar → Scalar) :
    s.keeps π (s.modSc a f) := by
  match a with
  | .none => exact .refl s
  | .scalar _ => exact s.keeps_setCore hπ ..
  | .lane _ _ => exact s.keeps_setCore hπ ..
  | .puppet _ => exact s.keeps_setCore hπ ..

/-! ### A word of the puppet slot -/

/-- The state in which a word acts: the tokens that it reads have been read. -/
def State.readSources (s : State) (rs : List (BitVec 6)) : State := s.modSc s.cur fun c => c.readTokens rs

theorem State.cur_readSources (s : State) (rs : List (BitVec 6)) : (s.readSources rs).cur = s.cur := s.modSc_cur ..

theorem State.core_modSc_puppet (s : State) (c d : CoreRef) (f : Scalar → Scalar) : (s.modSc (.puppet c) f).core d =
    if d = c then { s.core c with puppet := { (s.core c).puppet with sc := f (s.core c).puppet.sc } } else s.core d := s.core_modPuppet c d _

/-- A privileged word issues in the puppet slot when nothing holds it back. -/
theorem State.issue_agent {s : State} {c : CoreRef} (hc : s.cur = .puppet c) {rs : List (BitVec 6)} {d : Option (BitVec 6)}
    (h : s.canIssue rs d.toList) (act : State → State) : s.issue (agentForm rs d) act = s.unread (act (s.readSources rs)) := by
  have fit : s.formFault (agentForm rs d) = none := by simp [State.formFault, agentForm, hc, agentPuppet]
  have plain := s.issue_plain { agentForm rs d with slots := .any } act h rfl rfl rfl rfl
  rwa [State.issue, show s.formFault { agentForm rs d with slots := .any } = none by simp [State.formFault, agentForm], ← fit] at plain

/-- A word that leaves the fault entry of its puppet slot alone keeps what it has read. -/
theorem State.unread_of_sameEntry {s t : State} {c : CoreRef} (hc : s.cur = .puppet c) (regs : (t.core c).regs = (s.core c).regs)
    (stopped : (t.core c).puppet.stopped = (s.core c).puppet.stopped) : s.unread t = t := by
  have : s.faulted t s.cur = false := by
    rw [hc, State.faulted, State.coreReg, State.coreReg, regs, stopped]
    simp
  rw [State.unread, this]
  rfl

/-- A word of the puppet slot yields a value when it changes nothing of its own core before the result. -/
theorem State.yields_of_act {s u : State} {c : CoreRef} {i : Instr} {rs : List (BitVec 6)} {d : BitVec 6} {v : Word} {act : State → State} {p : State → Prop}
    (hc : s.cur = .puppet c) (h : s.canIssue rs [d]) (run : exec i s = .next (s.issue (agentForm rs (some d)) act))
    (hact : act (s.readSources rs) = u.result d v) (cur : u.cur = s.cur) (core : u.core c = (s.readSources rs).core c) (mem : u.mem = s.mem)
    (hp : p (u.result d v)) : s.yields i d v p := by
  have hu : u.cur ≠ .none := by rw [cur, hc]; exact Agent.noConfusion
  have side : u.scOf u.cur = (s.readSources rs).scOf (s.readSources rs).cur := by
    rw [cur, State.cur_readSources, hc]
    exact congrArg (fun k => k.puppet.sc) core
  have puppet : (s.readSources rs).core c = { s.core c with puppet := { (s.core c).puppet with sc := (s.core c).puppet.sc.readTokens rs } } := by
    rw [State.readSources, hc, State.core_modSc_puppet, if_pos rfl]
  have taken : (u.result d v).core c = { u.core c with puppet := { (u.core c).puppet with sc := (u.core c).puppet.sc.took d v } } := by
    rw [State.result_eq hu, cur, hc, State.core_modSc_puppet, if_pos rfl]
  have kept : s.unread (u.result d v) = u.result d v :=
    State.unread_of_sameEntry hc (by rw [taken, core, puppet]) (by rw [taken, core, puppet])
  refine ⟨u.result d v, by rw [run, State.issue_agent hc h, hact, kept], fun r => ?_, ?_, fun a => by rw [State.mem_result hu, mem], hp⟩
  · rw [State.sreg_result hu, State.sreg, side]
    exact congrArg (ite _ _) (s.sreg_readTokens rs r)
  · rw [State.spc_result hu, State.spc, side]
    exact congrArg (· + 4) (s.spc_readTokens rs)

end Sys2Proof.Machine
end

section
/-! PROOF. Requests and changes of an operating point (R18, R170). -/

namespace Sys2Proof.Machine

/-! ### What a request names -/

theorem State.member_congr {s t : State} (h : t.prc = s.prc) (p : PartId) (i : SliceId) : t.member p i = s.member p i := by
  simp only [State.member, State.partValid, State.pmap, State.prcReg, h]

theorem State.partOf!_congr {s t : State} (h : t.prc = s.prc) (i : SliceId) : t.partOf! i = s.partOf! i := by
  simp only [State.partOf!, State.partOf, State.member_congr h]

theorem mem_allSlices (i : SliceId) : i ∈ allSlices := by
  revert i
  decide

/-- The slices that a request of an agent is about. -/
def opreqNamed (c : CoreRef) (x : Word) : List SliceId := if bitsOf x 15 8 = 0 then [c.slice] else allSlices.filter fun k => bitAt x (8 + k.val)

/-- A request is refused: a field is out of range, the point is OP0, or a slice is foreign (R170). -/
def State.opreqRefused (s : State) (c : CoreRef) (x : Word) : Prop :=
  (bitsOf x 7 3 ≠ 0 ∨ bitsOf x 63 16 ≠ 0 ∨ bitsOf x 2 0 = 0) ∨ ∃ k ∈ opreqNamed c x, s.member (s.partOf! c.slice) k = false

theorem mem_opreqNamed {c : CoreRef} {x : Word} {k : SliceId} (h : x.getLsbD (8 + k.val) = true) : k ∈ opreqNamed c x := by
  have some' : bitsOf x 15 8 ≠ 0 := fun z => by
    have bit := testBit_bitsOf x 15 8 k.val
    rw [z, Nat.zero_testBit, decide_eq_true (by omega), h] at bit
    exact Bool.false_ne_true bit
  rw [opreqNamed, if_neg some']
  exact List.mem_filter.2 ⟨mem_allSlices k, h⟩

section
variable {s : State} {c : CoreRef} (hc : s.cur = .puppet c) (rs : List (BitVec 6)) (x : Word)
include hc

theorem State.opreqSlices_eq : (s.readSources rs).opreqSlices x =
    if bitsOf x 7 3 ≠ 0 || bitsOf x 63 16 ≠ 0 || bitsOf x 2 0 = 0 || !(opreqNamed c x).all (s.member (s.partOf! c.slice)) then none
    else some (opreqNamed c x) := by
  have prc : (s.readSources rs).prc = s.prc := s.modSc_prc ..
  have member : (s.readSources rs).member ((s.readSources rs).partOf! c.slice) = s.member (s.partOf! c.slice) := by
    rw [State.partOf!_congr prc]
    exact funext fun i => State.member_congr prc _ i
  simp only [State.opreqSlices, State.curCore, State.agentPart, State.cur_readSources, hc, agentCore, member]
  rfl

theorem State.opreqSlices_refused (refused : s.opreqRefused c x) : (s.readSources rs).opreqSlices x = none := by
  rw [State.opreqSlices_eq hc, if_pos]
  simp only [Bool.or_eq_true, decide_eq_true_eq, Bool.not_eq_true', List.all_eq_false]
  rcases refused with (h | h | h) | ⟨k, hk, foreign⟩
  · exact .inl (.inl (.inl h))
  · exact .inl (.inl (.inr h))
  · exact .inl (.inr h)
  · exact .inr ⟨k, hk, by rw [foreign]; exact Bool.false_ne_true⟩

theorem State.opreqSlices_own (low : bitsOf x 7 3 = 0) (high : bitsOf x 63 16 = 0) (point : bitsOf x 2 0 ≠ 0) (own : bitsOf x 15 8 = 0)
    (mem : s.member (s.partOf! c.slice) c.slice = true) : (s.readSources rs).opreqSlices x = some [c.slice] := by
  have named : opreqNamed c x = [c.slice] := if_pos own
  rw [State.opreqSlices_eq hc, named, if_neg]
  simp [low, high, point, mem]

end

/-! ### The request -/

/-- No operating point of a slice has been asked for, and none has changed. -/
def State.samePoints (s t : State) : Prop := ∀ k, t.sliceReg k 0x400 = s.sliceReg k 0x400 ∧ (t.slice k).opNext = (s.slice k).opNext

/-- A change of a scalar side or a result touches no operating point. -/
theorem State.keeps.samePoints {s t : State} (h : s.keeps (fun k => (k.regs, k.opNext)) t) : s.samePoints t := fun k =>
  ⟨congrArg (fun r : Tab Word × Option (BitVec 3) => tabGet (sliceRegReset 0x400) r.1 0x400) (h.slice k), congrArg Prod.snd (h.slice k)⟩

theorem State.keeps_result {β : Type} {π : Slice → β} (hπ : ∀ (k : Slice) c, π { k with cores := c } = π k) {s : State} (h : s.cur ≠ .none)
    (d : BitVec 6) (v : Word) : s.keeps π (s.result d v) := by
  rw [State.result_eq h]
  exact s.keeps_modSc hπ ..

theorem State.opreq_refused {s : State} {c : CoreRef} {d a : BitVec 6} (hc : s.cur = .puppet c) (h : s.canIssue [a] [d])
    (refused : s.opreqRefused c (s.sreg a)) : s.yields (.opreq d a) d 0 s.samePoints := by
  have hu : (s.readSources [a]).cur ≠ .none := by rw [State.cur_readSources, hc]; exact Agent.noConfusion
  have asked : (s.readSources [a]).sreg a = s.sreg a := s.sreg_readTokens [a] a
  refine State.yields_of_act (u := s.readSources [a]) hc h rfl ?_ (s.cur_readSources _) rfl (s.modSc_mem ..) ?_
  · dsimp only
    rw [asked, State.opreqSlices_refused hc [a] _ refused]
  · exact State.keeps.samePoints ((s.keeps_modSc (fun _ _ => rfl) ..).trans (State.keeps_result (fun _ _ => rfl) hu ..))

/-- A request that meets a change in progress waits for it, the latest winning (R18). -/
theorem State.requestPoint_waits {s : State} {i : SliceId} {p : BitVec 3} (busy : (s.sliceReg i 0x400).getLsbD 6 = true) :
    s.requestPoint i p = s.modSlice i fun k => { k with opNext := some p } := if_pos busy

theorem State.opreq_waits {s : State} {c : CoreRef} {d a : BitVec 6} (hc : s.cur = .puppet c) (h : s.canIssue [a] [d])
    (low : bitsOf (s.sreg a) 7 3 = 0) (high : bitsOf (s.sreg a) 63 16 = 0) (point : bitsOf (s.sreg a) 2 0 ≠ 0) (own : bitsOf (s.sreg a) 15 8 = 0)
    (mem : s.member (s.partOf! c.slice) c.slice = true) (busy : (s.sliceReg c.slice 0x400).getLsbD 6 = true) :
    s.yields (.opreq d a) d (s.sliceReg c.slice 0x400) fun t =>
      (t.slice c.slice).opNext = some ((s.sreg a).extractLsb' 0 3) ∧ t.sliceReg c.slice 0x400 = s.sliceReg c.slice 0x400 := by
  have asked : (s.readSources [a]).sreg a = s.sreg a := s.sreg_readTokens [a] a
  have stat : (s.readSources [a]).sliceReg c.slice 0x400 = s.sliceReg c.slice 0x400 := (s.keeps_modSc (fun _ _ => rfl) ..).sliceReg ..
  let u := (s.readSources [a]).modSlice c.slice fun k => { k with opNext := some ((s.sreg a).extractLsb' 0 3) }
  have status : u.sliceReg c.slice 0x400 = s.sliceReg c.slice 0x400 := by
    rw [← stat]
    exact State.keeps.sliceReg (t := u) (State.keeps_modSlice _ _ fun _ => rfl) ..
  have hu : u.cur ≠ .none := by rw [show u.cur = s.cur from s.cur_readSources _, hc]; exact Agent.noConfusion
  refine State.yields_of_act (u := u) hc h rfl ?_ (s.cur_readSources _) (State.core_modSlice _ _ _ _ rfl) (s.modSc_mem ..) ⟨?_, ?_⟩
  · dsimp only
    rw [asked, State.opreqSlices_own hc [a] _ low high point own mem]
    dsimp only [State.requestPoints, List.foldl]
    rw [State.requestPoint_waits (stat ▸ busy), State.curCore, State.cur_readSources, hc, agentCore, if_pos (by simp)]
    exact congrArg (u.result d) status
  · rw [(State.keeps_result (π := Slice.opNext) (fun _ _ => rfl) hu ..).slice, State.slice_modSlice, if_pos rfl]
  · rw [(State.keeps_result (fun _ _ => rfl) hu ..).sliceReg, status]

/-! ### The change completes -/

theorem State.opChangeComplete_reaches {s : State} {i : SliceId} (busy : (s.sliceReg i 0x400).getLsbD 6 = true) (idle : (s.slice i).opNext = none) :
    s.does (.opChangeComplete i) fun t => bitsOf (t.sliceReg i 0x400) 2 0 = bitsOf (s.sliceReg i 0x400) 5 3 ∧ (t.sliceReg i 0x400).getLsbD 6 = false
      ∧ s.sameMemory t ∧ ∀ g, t.group g = s.group g := by
  let w := s.sliceReg i 0x400
  let v := setBits (putBit (setBits w 2 0 (bitsOf w 5 3)) 6 false) 63 16 (s.stampBits 48)
  have run : exec (.opChangeComplete i) s = .next (s.setSliceReg i 0x400 v) := by
    have none' : ((s.setSliceReg i 0x400 v).slice i).opNext = none := ((s.keeps_setSliceReg (π := Slice.opNext) (fun _ _ => rfl) ..).slice i).trans idle
    rw [show exec (.opChangeComplete i) s = execOpChangeComplete i s from rfl, execOpChangeComplete, if_neg (by rw [bitAt, busy]; decide)]
    dsimp only
    rw [none']
  have stat : (s.setSliceReg i 0x400 v).sliceReg i 0x400 = v := (s.sliceReg_setSliceReg ..).trans (if_pos ⟨rfl, rfl⟩)
  refine State.does_of_eq run ⟨?_, ?_, fun _ => rfl, fun g => s.group_setSliceReg ..⟩
  · rw [stat, bitsOf_setBits_other _ _ (by omega) (.inl (by omega)), putBit, bitsOf_setBits_other _ _ (by omega) (.inl (by omega)),
      bitsOf_setBits_same _ _ (by omega)]
    exact Nat.mod_eq_of_lt (bitsOf_lt _ 5 3)
  · rw [stat, getLsbD_setBits_other _ _ (by omega) (.inl (by omega)), getLsbD_putBit _ _ _ (by omega), if_pos rfl]

/-- Settles O29. -/
theorem operatingPoints : Obligations.OperatingPoints := by
  intro s c d a i x st asked
  refine ⟨fun hc h => ⟨fun bad => ?_, fun ⟨k, named, foreign⟩ => ?_, State.opreq_waits hc h⟩, State.opChangeComplete_reaches⟩
  · exact State.opreq_refused hc h (.inl bad)
  · exact State.opreq_refused hc h (.inr ⟨k, mem_opreqNamed named, foreign⟩)

end Sys2Proof.Machine
end

section
/-! PROOF. Which operations leave the slots of the command queues alone (R339). -/

namespace Sys2Proof.Machine

/-- Every hardware queue slot is as before. -/
structure State.SameSlots (s t : State) : Prop where
  slots : ∀ i, (t.slice i).slots = (s.slice i).slots

theorem State.SameSlots.refl (s : State) : s.SameSlots s := ⟨fun _ => rfl⟩

theorem State.SameSlots.trans {s t u : State} (h : s.SameSlots t) (k : t.SameSlots u) : s.SameSlots u := ⟨fun i => (k.slots i).trans (h.slots i)⟩

theorem State.SameSlots.qslot {s t : State} (h : s.SameSlots t) (i : SliceId) (n : Nat) : t.qslot i n = s.qslot i n :=
  congrArg (tabGet ({} : QSlot) · n) (h.slots i)

theorem State.keeps.sameSlots {s t : State} (h : s.keeps Slice.slots t) : s.SameSlots t := ⟨h.slice⟩

section
variable {s t u : State} (h : s.SameSlots t)
include h

theorem State.SameSlots.ite {p : Prop} {_ : Decidable p} (k : s.SameSlots u) : s.SameSlots (if p then t else u) := by
  split_ifs
  · exact h
  · exact k

theorem State.SameSlots.foldl {α : Type} {f : State → α → State} {l : List α} (hf : ∀ {t : State} (x : α), s.SameSlots t → s.SameSlots (f t x)) :
    s.SameSlots (l.foldl f t) := by
  induction l generalizing t with
  | nil => exact h
  | cons x xs ih => exact ih (hf x h)

/-! ### Units and registers -/

theorem State.SameSlots.modSlice {i f} (hf : ∀ k, (f k).slots = k.slots := by exact fun _ => rfl) : s.SameSlots (t.modSlice i f) :=
  h.trans (t.keeps_modSlice i hf).sameSlots

theorem State.SameSlots.setSliceReg {i n v} : s.SameSlots (t.setSliceReg i n v) := h.modSlice

theorem State.SameSlots.modCore {c f} : s.SameSlots (t.modCore c f) := h.trans (t.keeps_setCore (fun _ _ => rfl) c _).sameSlots

theorem State.SameSlots.setCoreReg {c n v} : s.SameSlots (t.setCoreReg c n v) := h.modCore

theorem State.SameSlots.modPuppet {c f} : s.SameSlots (t.modPuppet c f) := h.modCore

theorem State.SameSlots.modSc {a f} : s.SameSlots (t.modSc a f) := h.trans (t.keeps_modSc (fun _ _ => rfl) a f).sameSlots

theorem State.SameSlots.modWg {c n f} : s.SameSlots (t.modWg c n f) := by
  rw [State.modWg]
  split
  · exact h.modCore
  · exact h

theorem State.SameSlots.count {c code ten} : s.SameSlots (t.count c code ten) := h.foldl fun _ h => .ite h.setCoreReg h

theorem State.SameSlots.windowMiss {a} : s.SameSlots (t.windowMiss a) := by
  have bumped : s.SameSlots (t.bumpCoreReg (agentCore a) 0x102) := h.setCoreReg
  exact .ite h (.ite bumped bumped.count)

/-! ### L2 lines (R265, R273) -/

theorem State.SameSlots.transfer {i ctl p a n} : s.SameSlots (t.transfer i ctl p a n) := by
  have counted : s.SameSlots (t.countHbm p (t.uidOf a) n) := h.trans ⟨fun _ => rfl⟩
  rw [State.transfer]
  split
  · exact counted
  · exact counted.modSlice

theorem State.SameSlots.dropLine {i pl} : s.SameSlots (t.dropLine i pl) := h.trans (t.keeps_dropLine (fun _ _ _ _ _ => rfl) i pl).sameSlots

theorem State.SameSlots.makeRoom {i seg p asid} : s.SameSlots (t.makeRoom i seg p asid) := by
  refine .ite h ?_
  split
  · exact h.dropLine
  · exact h

theorem State.SameSlots.occFill {i seg asid} : s.SameSlots (t.occFill i seg asid) := by
  rw [State.occFill]
  exact h.modSlice

theorem State.SameSlots.holdLine {i seg pl key hc p a} : s.SameSlots (t.holdLine i seg pl key hc p a) := by
  rw [State.holdLine]
  split
  · exact h.modSlice
  · exact h.makeRoom.modSlice.occFill.transfer

theorem State.SameSlots.observe {a pl} : s.SameSlots (t.observe a pl) := .ite h h.modSc.modCore

/-! ### Stores (R257, R262) -/

theorem State.SameSlots.hitOps {c space off n} : s.SameSlots (t.hitOps c space off n) := .ite h h.modCore

theorem State.SameSlots.hitSpad {c off n} : s.SameSlots (t.hitSpad c off n) := .ite h.hitOps.modCore h.hitOps

theorem State.SameSlots.chipWrite {pl bs} : s.SameSlots (t.chipWrite pl bs) := by
  match pl with
  | .spad .. => exact (State.SameSlots.ite h.hitSpad h).modWg
  | .lanePriv .. => exact h.modWg
  | .chip .. => exact h.trans ⟨fun _ => rfl⟩
  | .global .. => exact h
  | .badAddress .. => exact h
  | .unmapped => exact h

theorem State.SameSlots.hbmWrite {pa bs} : s.SameSlots (t.hbmWrite pa bs) := h.trans ⟨fun _ => rfl⟩

theorem State.SameSlots.hbmStore {pa bs} : s.SameSlots (t.hbmStore pa bs) := h.hbmWrite.foldl fun _ h => h.hitOps

theorem State.SameSlots.noteWrite {i pl x} : s.SameSlots (t.noteWrite i pl x) := by
  have noted : s.SameSlots (t.modSlice i fun k => { k with lineWct := tabSet k.lineWct pl x }) := h.modSlice
  exact noted.trans ⟨fun _ => rfl⟩

theorem State.SameSlots.epAbort {i port} : s.SameSlots (t.epAbort i port) := h.setSliceReg

/-! ### Writes of engines -/

theorem State.SameSlots.l1Update {c pa bs} : s.SameSlots (t.l1Update c pa bs) := h.modCore

theorem State.SameSlots.writeRun {e va bs} : s.SameSlots (t.writeRun e va bs).1 := by
  unfold State.writeRun
  cases t.engPlace e (BitVec.ofNat 64 va) with
  | global asid x =>
    dsimp only
    split
    · split
      · exact .ite h.holdLine.hbmStore.noteWrite h.holdLine.hbmStore.noteWrite.observe.l1Update
      · exact .ite h.epAbort h
      · exact h
    · exact h
  | unmapped => exact h.windowMiss
  | _ =>
    dsimp only
    exact h.chipWrite

theorem State.SameSlots.engWriteRuns {e x runs bs} : s.SameSlots (t.engWriteRuns e x runs bs).1 := by
  induction runs generalizing t x bs with
  | nil => exact h
  | cons r rest ih => exact ih h.writeRun

theorem State.SameSlots.engWrite {e va bs} : s.SameSlots (t.engWrite e va bs).1 := h.engWriteRuns

/-! ### Events of the queues (R175, R338) -/

theorem State.SameSlots.fwEvent {c kind arg} : s.SameSlots (t.fwEvent c kind arg) := h.modPuppet

theorem State.SameSlots.sliceEvent {i kind arg other} : s.SameSlots (t.sliceEvent i kind arg other) := by
  rw [State.sliceEvent]
  split
  · exact h.modSlice.fwEvent
  · exact h.fwEvent

theorem State.SameSlots.setPend {i q b} : s.SameSlots (t.setPend i q b) := h.setSliceReg

theorem State.SameSlots.noteQcb {i q a} : s.SameSlots (t.noteQcb i q a) := h.modSlice

end

end Sys2Proof.Machine
end

section
/-! PROOF. Doorbells, unmapping, and the mapping of a pending queue (R24, R337, R338, R341, R350). -/

namespace Sys2Proof.Machine

/-! ### Words of a control block -/

theorem wordAt_setWord (ws : List W32) (i j : Nat) (v : W32) : wordAt (setWord ws i v) j = if j = i then v else wordAt ws j := by
  have long : i < (ws ++ List.replicate (i + 1 - ws.length) (0 : W32)).length := by simp; omega
  simp only [wordAt, setWord, List.getD_eq_getElem?_getD]
  by_cases h : j = i
  · subst h
    rw [if_pos rfl, List.getElem?_set_self long]
    rfl
  · rw [if_neg h, List.getElem?_set_ne (Ne.symm h), List.getElem?_append]
    split_ifs with short
    · rfl
    · rw [List.getElem?_eq_none (Nat.not_lt.1 short), List.getElem?_replicate]
      split_ifs <;> rfl

theorem dwordAt_setDword (ws : List W32) (i : Nat) (v : Word) : dwordAt (setDword ws i v) i = v := by
  rw [dwordAt, setDword, wordAt_setWord, if_pos rfl, wordAt_setWord, if_neg (by omega), wordAt_setWord, if_pos rfl]
  exact BitVec.extractLsb'_append_extractLsb'_eq_extractLsb' rfl |>.trans (BitVec.extractLsb'_eq_self)

theorem dwordAt_setWord (ws : List W32) {i j : Nat} (v : W32) (lo : j ≠ i) (hi : j + 1 ≠ i) : dwordAt (setWord ws i v) j = dwordAt ws j := by
  rw [dwordAt, wordAt_setWord, if_neg hi, wordAt_setWord, if_neg lo, dwordAt]

/-! ### Slots -/

/-- A slot that was changed holds what it was changed to, but for its stamp. -/
theorem State.qslot_modSlot (s : State) (i : SliceId) (n : Nat) (f : QSlot → QSlot) :
    ∃ x, (s.modSlot i n f).qslot i n = { f (s.qslot i n) with stamp := x } := by
  rw [State.modSlot]
  by_cases same : f (s.qslot i n) = s.qslot i n
  · exact ⟨(s.qslot i n).stamp, by rw [if_pos same, same]⟩
  · refine ⟨s.now, ?_⟩
    rw [if_neg same, State.qslot, State.slice_modSlice, if_pos rfl, tabGet_tabSet, if_pos rfl]

theorem State.qslot_modSlot_other (s : State) (i : SliceId) {n m : Nat} (f : QSlot → QSlot) (h : m ≠ n) :
    (s.modSlot i n f).qslot i m = s.qslot i m := by
  rw [State.modSlot]
  split_ifs
  · rfl
  · rw [State.qslot, State.slice_modSlice, if_pos rfl, tabGet_tabSet, if_neg h, State.qslot]

theorem State.mem_modSlot (s : State) (i : SliceId) (n : Nat) (f : QSlot → QSlot) : (s.modSlot i n f).mem = s.mem := by
  rw [State.modSlot]
  split_ifs <;> rfl

theorem State.pending_setPend (s : State) (i : SliceId) (q : QIdx) (b : Bool) : (s.setPend i q b).pending i q.val = b := by
  rw [State.pending, State.setPend, State.sliceReg_setSliceReg, if_pos ⟨rfl, rfl⟩, bitAt, getLsbD_putBit _ _ _ (by omega), if_pos rfl]

/-! ### Doorbells (R337) -/

section
variable {s : State} {i : SliceId} {q : QIdx} {n : Nat} {v : Word}

theorem State.exec_doorbellKick_taken {off size : Nat} {t : State}
    (taken : s.takeKick { slice := i, q := q, off := off, size := size, value := v } = (t, true)) : exec (.doorbellKick i q off size v) s = .next t := by
  rw [show exec (.doorbellKick i q off size v) s = execDoorbellKick i q off size v s from rfl, execDoorbellKick]
  dsimp only
  rw [taken]
  rfl

theorem State.doorbellKick_elsewhere {off size : Nat} (h : off ≠ 0 ∨ size ≠ 8) : s.does (.doorbellKick i q off size v) fun t => t = s := by
  refine State.does_of_eq (State.exec_doorbellKick_taken (if_pos ?_)) rfl
  rcases h with h | h <;> simp [h]

/-- A doorbell store for a mapped queue is taken at its slot. -/
theorem State.exec_doorbellKick (part : s.partOf i ≠ none) (free : s.isParked (.queue i q 1) = false)
    (meets : s.meet (s.queueEng i q) 1 (s.dirAddr i q) 8 = .ok) (valid : (s.dirEntry i q).getLsbD 0 = true) (mapped : s.slotOf i q = some n) :
    exec (.doorbellKick i q 0 8 v) s = .next (s.kickSlot i q n v) := by
  have isPart : (s.partOf i).isNone = false := by rw [Option.isNone_eq_false_iff, Option.isSome_iff_ne_none]; exact part
  refine State.exec_doorbellKick_taken ?_
  simp [State.takeKick, isPart, free, meets, bitAt, valid, mapped]

theorem State.setQcb_mapped (mapped : s.slotOf i q = some n) (w : List W32) : s.setQcb i q w = s.modSlot i n fun x => { x with qcb := w } := by
  rw [State.setQcb, mapped]

theorem State.kickSlot_back (h : v.toNat ≤ (qcWr (s.qslot i n).qcb).toNat) : s.kickSlot i q n v = s := by
  have back : v ≤ qcWr (s.qslot i n).qcb := h
  rw [State.kickSlot]
  split_ifs
  · exact (if_neg (by decide)).trans (if_pos back)
  · rfl

theorem State.kickSlot_early (mapped : s.slotOf i q = some n) (early : s.featured i = false) (h : (qcWr (s.qslot i n).qcb).toNat < v.toNat) :
    s.kickSlot i q n v = (s.modSlot i n fun x => { x with qcb := setDword (s.qslot i n).qcb 4 v }).setPend i q true := by
  have on : ¬v ≤ qcWr (s.qslot i n).qcb := Nat.not_le.2 h
  rw [State.kickSlot, if_pos (by rw [early]; rfl), State.earlyKick, if_neg (by decide), if_neg on, State.setQcb_mapped mapped]

theorem State.kickSlot_on (on : s.featured i = true) (h : (qcWr (s.qslot i n).qcb).toNat < v.toNat)
    (room : (v - qcRd (s.qslot i n).qcb).toNat ≤ qcSize (s.qslot i n).qcb) : s.kickSlot i q n v =
      s.modSlot i n fun x => { x with qcb := setDword (s.qslot i n).qcb 4 v, evt := if qcStopped (s.qslot i n).qcb then x.evt else true } := by
  have up : ¬v ≤ qcWr (s.qslot i n).qcb := Nat.not_le.2 h
  rw [State.kickSlot, if_neg (by rw [on]; decide), if_neg up]
  exact if_neg (Nat.not_lt.2 room)

theorem State.kickSlot_early_spec (mapped : s.slotOf i q = some n) (early : s.featured i = false) (h : (qcWr (s.qslot i n).qcb).toNat < v.toNat) :
    let t := s.kickSlot i q n v
    qcWr (t.qslot i n).qcb = v ∧ (t.qslot i n).evt = (s.qslot i n).evt ∧ t.pending i q.val = true ∧ (∀ m, m ≠ n → t.qslot i m = s.qslot i m)
      ∧ s.sameMemory t := by
  let u := s.modSlot i n fun x => { x with qcb := setDword (s.qslot i n).qcb 4 v }
  have same : u.SameSlots (u.setPend i q true) := (State.SameSlots.refl u).setPend
  obtain ⟨x, hx⟩ := s.qslot_modSlot i n fun x => { x with qcb := setDword (s.qslot i n).qcb 4 v }
  rw [State.kickSlot_early mapped early h]
  refine ⟨?_, ?_, u.pending_setPend i q true, fun m hm => ?_, fun a => congrArg (memGet · a) (s.mem_modSlot i n _)⟩
  · rw [same.qslot, hx]
    exact dwordAt_setDword ..
  · rw [same.qslot, hx]
  · rw [same.qslot, s.qslot_modSlot_other i _ hm]

theorem State.kickSlot_on_spec (on : s.featured i = true) (h : (qcWr (s.qslot i n).qcb).toNat < v.toNat)
    (room : (v - qcRd (s.qslot i n).qcb).toNat ≤ qcSize (s.qslot i n).qcb) :
    let t := s.kickSlot i q n v
    qcWr (t.qslot i n).qcb = v ∧ (qcStopped (s.qslot i n).qcb = false → (t.qslot i n).evt = true) ∧ (∀ m, m ≠ n → t.qslot i m = s.qslot i m)
      ∧ s.sameMemory t := by
  obtain ⟨x, hx⟩ := s.qslot_modSlot i n fun x =>
    { x with qcb := setDword (s.qslot i n).qcb 4 v, evt := if qcStopped (s.qslot i n).qcb then x.evt else true }
  rw [State.kickSlot_on on h room]
  refine ⟨?_, fun going => ?_, fun m hm => s.qslot_modSlot_other i _ hm, fun a => congrArg (memGet · a) (s.mem_modSlot i n _)⟩
  · rw [hx]
    exact dwordAt_setDword ..
  · rw [hx, going]
    rfl

end

/-! ### Unmapping (R350) -/

section
variable {s : State} {i : SliceId}

/-- The state in which an unmapped queue's block is back in memory, its slot not yet free (R350, R496). -/
def State.blockBack (s : State) (i : SliceId) (n : Nat) : State :=
  let x := s.qslot i n
  let t := (s.engWrite (s.queueEng i x.q) x.qcba (wordsToBytes (s.savedQcb x.qcb))).1.noteQcb i x.q x.qcba
  if qcRd x.qcb < qcWr x.qcb then t.setPend i x.q true else t

theorem State.unmapSlot_eq (s : State) (i : SliceId) (n : Nat) :
    s.unmapSlot i n = ((s.blockBack i n).modSlot i n fun _ => {}).sliceEvent i 0x03 n ((s.qslot i n).q.val % 144) := rfl

theorem State.blockBack_slots (s : State) (i : SliceId) (n : Nat) : s.SameSlots (s.blockBack i n) := by
  have written := fun {e va bs q a} => ((State.SameSlots.refl s).engWrite (e := e) (va := va) (bs := bs)).noteQcb (i := i) (q := q) (a := a)
  exact .ite written.setPend written

theorem State.unmapSlot_slots (s : State) (i : SliceId) (n : Nat) :
    ((s.unmapSlot i n).qslot i n).state = 0 ∧ ∀ m, m ≠ n → (s.unmapSlot i n).qslot i m = s.qslot i m := by
  have told : ((s.blockBack i n).modSlot i n fun _ => {}).SameSlots (s.unmapSlot i n) := (State.SameSlots.refl _).sliceEvent
  refine ⟨?_, fun m hm => ?_⟩
  · obtain ⟨y, hy⟩ := (s.blockBack i n).qslot_modSlot i n fun _ => {}
    rw [told.qslot, hy]
  · rw [told.qslot, State.qslot_modSlot_other _ i _ hm, (s.blockBack_slots i n).qslot]

theorem State.queueStoppedUnmap_frees {slot : HwSlot} (mapped : (s.qslot i slot.val).state = 1) (stopped : qcStopped (s.qslot i slot.val).qcb = true)
    (idle : s.queueBusy i (s.qslot i slot.val).q = false) (agent : s.hasAgent i = true) (free : s.isParked (.queue i (s.qslot i slot.val).q 0) = false)
    (meets : s.meetBoth (s.queueEng i (s.qslot i slot.val).q) (s.qslot i slot.val).qcba 128 = .ok) :
    s.does (.queueStoppedUnmap i slot) fun t => (t.qslot i slot.val).state = 0 ∧ ∀ m, m ≠ slot.val → t.qslot i m = s.qslot i m := by
  refine State.does_of_eq ?_ (s.unmapSlot_slots i slot.val)
  rw [show exec (.queueStoppedUnmap i slot) s = execQueueStoppedUnmap i slot s from rfl, execQueueStoppedUnmap,
    if_neg (by simp [mapped, stopped, idle, agent, free]), State.agentUnmap, meets]

end

/-! ### The mapping of a pending queue (R341) -/

theorem lowest_eq_some {n k : Nat} {f : Nat → Bool} (hk : k < n) (own : f k = true) (below : ∀ m < k, f m = false) : lowest n f = some k :=
  List.find?_range_eq_some.2 ⟨own, List.mem_range.2 hk, fun m hm => by rw [below m hm]; rfl⟩

theorem lowest_eq_none {n : Nat} {f : Nat → Bool} (h : ∀ m < n, f m = false) : lowest n f = none :=
  List.find?_eq_none.2 fun m hm => by rw [h m (List.mem_range.1 hm)]; exact Bool.false_ne_true

theorem filter_range_eq_singleton {n k : Nat} {f : Nat → Bool} (hk : k < n) (h : ∀ m < n, f m = true ↔ m = k) : (List.range n).filter f = [k] := by
  have same : (List.range n).filter f = (List.range n).filter (· == k) :=
    List.filter_congr fun m hm => by rw [Bool.eq_iff_iff, h m (List.mem_range.1 hm), beq_iff_eq]
  rw [same, List.filter_beq, List.count_eq_one_of_mem List.nodup_range (List.mem_range.2 hk)]
  rfl

section
variable {s : State} {i : SliceId} {q : QIdx} {n : Nat} {w : List W32} {a : Word} {c : QCand}

theorem State.candidate_names (h : s.candidate i q w a = some c) : c.q = q ∧ c.w = w ∧ c.a = a := by
  rw [State.candidate] at h
  split at h
  · obtain rfl := Option.some.inj h
    exact ⟨rfl, rfl, rfl⟩
  · exact absurd h.symm (Option.some_ne_none c)
  · obtain rfl := Option.some.inj h
    exact ⟨rfl, rfl, rfl⟩

theorem State.lookPending_good (unmapped : s.slotOf i q = none) (block : s.qcbOf i q = some (w, a)) (good : qcMapOk w = true) (own : qcIdx w = q)
    (going : qcStopped w = false) (cand : s.candidate i q w a = some c) : s.lookPending i q = s := by
  simp [State.lookPending, unmapped, block, good, own, going, cand]

/-- A block with another AGE. -/
def agedBlock (w : List W32) (n : Nat) : List W32 := setWord w 28 (setBits (wordAt w 28) 7 0 n)

/-- What a mapping decision leaves that has one pending queue to map and a free slot (R341). -/
theorem State.exec_queueMapDecision (on : s.featured i = true) (agent : s.hasAgent i = true) (settled : ∀ m < 256, (s.qslot i m).state ≠ 2)
    (one : ∀ m < 4096, s.pending i m = true ↔ m = q.val) (unmapped : s.slotOf i q = none) (block : s.qcbOf i q = some (w, a)) (good : qcMapOk w = true)
    (own : qcIdx w = q) (going : qcStopped w = false) (cand : s.candidate i q w a = some c) (hn : n < 256) (free : (s.qslot i n).state = 0)
    (low : ∀ m < n, (s.qslot i m).state ≠ 0) :
    exec (.queueMapDecision i) s = .next ((s.mapSlot i n a (agedBlock w 0)).setPend i q false) := by
  have name : idx 4096 q.val = q := Fin.ofNat_val_eq_self q
  have waiting : (List.range 4096).filter (s.pending i) = [q.val] := filter_range_eq_singleton q.isLt one
  have noVictim : (lowest 256 fun m => (s.qslot i m).state == 2 && (s.qslot i m).victim) = none := lowest_eq_none fun m hm => by
    rw [beq_false_of_ne (settled m hm), Bool.false_and]
  have freeSlot : (lowest 256 fun m => (s.qslot i m).state == 0) = some n :=
    lowest_eq_some hn (beq_iff_eq.2 free) fun m hm => beq_false_of_ne (low m hm)
  obtain ⟨hq, hw, ha⟩ := State.candidate_names cand
  have kept : [q.val].foldl (fun s n => s.lookPending i (idx 4096 n)) s = s := by
    rw [List.foldl_cons, name, State.lookPending_good unmapped block good own going cand, List.foldl_nil]
  have cands : ([q.val].filterMap fun n => (s.qcbOf i (idx 4096 n)).bind fun r => s.candidate i (idx 4096 n) r.1 r.2) = [c] := by
    simp [name, block, cand]
  have alone : ([c].filter fun x => x.q != q) = [] := by simp [hq]
  rw [show exec (.queueMapDecision i) s = execQueueMapDecision i s from rfl, execQueueMapDecision, if_neg (by simp [on, agent]), noVictim]
  dsimp only
  rw [waiting, kept, waiting, cands]
  simp only [bestOf, freeSlot, alone, hq, hw, ha]
  rfl

theorem State.mapSlot_spec (own : qcIdx w = q) :
    let t := (s.mapSlot i n a (agedBlock w 0)).setPend i q false
    (t.qslot i n).state = 1 ∧ (t.qslot i n).qcba = a ∧ qcIdx (t.qslot i n).qcb = q ∧ qcAge (t.qslot i n).qcb = 0 ∧ qcWr (t.qslot i n).qcb = qcWr w
      ∧ qcRd (t.qslot i n).qcb = qcRd w ∧ (∀ m, m ≠ n → t.qslot i m = s.qslot i m) ∧ t.pending i q.val = false ∧ s.sameMemory t := by
  intro t
  have same : (s.mapSlot i n a (agedBlock w 0)).SameSlots t := (State.SameSlots.refl _).setPend
  obtain ⟨x, hx⟩ := s.qslot_modSlot i n fun _ =>
    { state := 1, q := qcIdx (agedBlock w 0), qcba := a, qcb := agedBlock w 0, evt := qcWr (agedBlock w 0) != qcRd (agedBlock w 0), mappedAt := s.now,
      stop := qcStopped (agedBlock w 0), blk := if s.queueWaits i (qcIdx (agedBlock w 0)) then 1 else 0,
      img := s.engWords (s.queueEng i (qcIdx (agedBlock w 0))) 1 a 32 }
  have slot : t.qslot i n = _ := (same.qslot i n).trans hx
  rw [slot]
  refine ⟨rfl, rfl, ?_, ?_, dwordAt_setWord _ _ (by omega) (by omega), dwordAt_setWord _ _ (by omega) (by omega), fun m hm => ?_,
    State.pending_setPend .., fun b => congrArg (memGet · b) (s.mem_modSlot i n _)⟩
  · rw [qcIdx, agedBlock, wordAt_setWord, if_neg (by omega)]
    exact own
  · exact (congrArg (bitsOf · 7 0) ((wordAt_setWord ..).trans (if_pos rfl))).trans (bitsOf_setBits_same _ _ (by omega))
  · rw [same.qslot]
    exact s.qslot_modSlot_other i _ hm

end

/-- Settles O35. -/
theorem queueKicksAndMapping : Obligations.QueueKicksAndMapping := by
  refine ⟨fun s i slot q off size n v => ⟨State.doorbellKick_elsewhere, fun part free meets valid mapped => ?_, State.queueStoppedUnmap_frees⟩,
    fun s i q n w a c on agent settled one unmapped block good own going cand hn free low =>
      State.does_of_eq (State.exec_queueMapDecision on agent settled one unmapped block good own going cand hn free low) (State.mapSlot_spec own)⟩
  have run := State.exec_doorbellKick (v := v) part free meets valid mapped
  exact ⟨fun back => State.does_of_eq run (State.kickSlot_back back), fun early up => State.does_of_eq run (State.kickSlot_early_spec mapped early up),
    fun on up room => State.does_of_eq run (State.kickSlot_on_spec on up room)⟩

end Sys2Proof.Machine
end
